-- ==== Sys2Proof/Word.lean ====
section
/-! DEFINITION. The bit-vector types of the LN4208: bytes, 32-bit words, the 64 data
bytes of a line, the 80 bytes a rank delivers for a line (R1), and elapsed times (R196). -/

namespace Sys2Proof

/-- One byte. -/
abbrev Byte := BitVec 8

/-- One 32-bit argument or result word of a maintenance request (R183). -/
abbrev Word32 := BitVec 32

/-- The 64 data bytes of a line: data byte i is bits 8i to 8i + 7. -/
abbrev Data := BitVec 512

/-- The 80 bytes a rank delivers for a line (R1): byte k of device d is bits 32d + 8k to 32d + 8k + 7. Data device d
holds data bytes 4d to 4d + 3, so bits 0 to 511 are the line's data bytes in order. -/
abbrev Line := BitVec 640

/-- The 20 byte symbols of one codeword (R1, R2): the symbol of device d is bits 8d to 8d + 7. -/
abbrev Codeword := BitVec 160

/-- An elapsed time in whole µs: a 48-bit count that wraps at 2^48 (R196). -/
abbrev Elapsed := BitVec 48

end Sys2Proof
end

