-- ==== Sys2Proof/Syntax.lean ====
section
/-! DEFINITION. The commands of the LN4208, one constructor per row of spec/opcode_table.json. A command frame carries its
bytes as operands; an access that the DRAM finishes is named by its line address; a maintenance request has no operand,
since it is the dispatch of the request at the head of the Maintenance Unit's queue, whose arguments came in its MAINT
frame (R192). -/

namespace Sys2Proof

/-- A command of the block: a frame received, an event of the DRAM, an event of one of the part's timers, or the
dispatch of the maintenance request at the head of the request queue. -/
inductive Instr where
  /-- POWER_ON (R199). Power is applied: every block takes its power-on state, all timers start their first intervals and work in flight is lost. -/
  | powerOn
  /-- IDLE (R185). An IDLE command frame is received; it is consumed and has no effect. Bytes 1 to 3 and the check as the frame carries them. -/
  | idle (byte1 byte2 byte3 : Byte) (check : BitVec 16)
  /-- READ (R28). A READ command frame is received; it is checked, answered, forwarded from a Write-back Queue entry, or taken into line order. Bytes 1 to 3 of the frame, the 64-bit line address and the check as carried (R183). -/
  | read (tag byte2 byte3 : Byte) (line : BitVec 64) (check : BitVec 16)
  /-- WRITE (R17). A WRITE command frame is received; it passes the address and lock checks, cancels any pending write-back of its line and is taken by the DRAM Port. Byte 2 carries permit in bit 0 (R183). -/
  | write (tag flags byte3 : Byte) (line : BitVec 64) (data : Data) (check : BitVec 16)
  /-- WRITE_MASKED (R30). A WRITE_MASKED command frame is received; after the checks it is answered at the mask test, served as a full write, forwarded, or taken as a read-merge-write unit. Byte 2 carries permit in bit 0; mask bit i selects data byte i (R183, R15). -/
  | writeMasked (tag flags byte3 : Byte) (line : BitVec 64) (data : Data) (mask : BitVec 64) (check : BitVec 16)
  /-- MAINT (R192). A MAINT command frame is accepted; its request enters the maintenance request queue, or is answered BUSY when the queue is full. Byte 3, the argument count, is the length of args (R183). -/
  | maint (tag byte2 : Byte) (code pad : BitVec 16) (args : List Word32) (check : BitVec 16)
  /-- ARBITER_GRANT (R31). At a grant opportunity the arbiter grants the port to one eligible request of the highest class. Bit 16 * rank + bank of accept says that the DRAM can accept an access to that rank and bank at this opportunity, bit rank of refresh that it can accept a refresh of that rank (R31 leaves both to the devices fitted). -/
  | arbiterGrant (accept : BitVec 64) (refresh : BitVec 4)
  /-- DEMAND_READ_DECODE (R13). A demand read's data arrive and are decoded; DATA is returned, and the fault event and write-back follow. line names the granted access (R26 grants one access of a line at a time); damage is the set of bits in which the line arrives unlike the line last written. -/
  | demandReadDecode (line : Nat) (damage : Line)
  /-- SCRUB_READ_DECODE (R14). A patrol or targeted read's data arrive and are decoded; the fault event and write-back are handed on, and the line is done. line names the granted access (R26 grants one access of a line at a time); damage is the set of bits in which the line arrives unlike the line last written. -/
  | scrubReadDecode (line : Nat) (damage : Line)
  /-- RMW_READ_DECODE (R15). The read of a masked-write unit is decoded, the unit merges and becomes merging, and its fault event is handed on. line names the granted access (R26 grants one access of a line at a time); damage is the set of bits in which the line arrives unlike the line last written. -/
  | rmwReadDecode (line : Nat) (damage : Line)
  /-- COPY_READ_DECODE (R16). A repair copy read is decoded, fixing the form of the copy write to the spare, and any fault event is handed on. line names the granted access (R26 grants one access of a line at a time); damage is the set of bits in which the line arrives unlike the line last written. -/
  | copyReadDecode (line : Nat) (damage : Line)
  /-- DEMAND_WRITE_PERFORMED (R17). A demand write is performed in DRAM, and its ACK is handed to the Link Interface. line names the granted access. -/
  | demandWritePerformed (line : Nat)
  /-- MASKED_WRITE_PERFORMED (R30). The write of a masked-write unit is performed, and its ACK is handed on with OK or POISONED_MERGE. line names the granted access. -/
  | maskedWritePerformed (line : Nat)
  /-- WRITEBACK_PERFORMED (R48). A Write-back Queue entry's write is performed, and the entry is removed. line names the granted access. -/
  | writebackPerformed (line : Nat)
  /-- RECORD_WRITE_PERFORMED (R171). A report record write is performed; W advances over the records written in order. line names the granted access. -/
  | recordWritePerformed (line : Nat)
  /-- COPY_WRITE_PERFORMED (R141). A copy write to the spare is performed, the cursor rises, and the next pair is taken or the copy completes. line names the granted access. -/
  | copyWritePerformed (line : Nat)
  /-- RETURN_FRAME_SENT (R186). A return frame finishes leaving the part, freeing its tag, and the next frame of the return queue is sent. -/
  | returnFrameSent
  /-- ROW_HOLD_EXPIRY (R34). An open row's hold end time is reached with no granted access outstanding, and the row closes. -/
  | rowHoldExpiry (rank bank : Nat)
  /-- REFRESH_TIMER_EXPIRY (R36). A rank's refresh timer expires; the owed count rises or refresh_missed is counted. -/
  | refreshTimerExpiry (rank : Nat)
  /-- REGION_DUE (R71). The earliest due time among idle patrol regions arrives, and selection runs. -/
  | regionDue
  /-- PATROL_LINE_ISSUE (R77). A SINGLE-mode sweep issues its next line when its next issue time arrives and its previous line is done. -/
  | patrolLineIssue
  /-- BURST_ISSUE (R78). A BURST-mode sweep issues the first line of a burst at its next issue time. -/
  | burstIssue
  /-- QUIET_EXPIRY (R104). An open quiet window reaches its end time and closes, releasing held work. -/
  | quietExpiry
  /-- QUIET_OVERRIDE (R107). The override time is reached and the window closes by override, writing a QUIET_OVERRIDE record and raising QUIET_OVERRIDDEN. -/
  | quietOverride
  /-- DECAY_EPOCH (R124). The decay timer expires, and one decay epoch halves the scores and frees entries. -/
  | decayEpoch
  /-- HAMMER_WINDOW_EXPIRY (R163). The Disturbance Watch window timer expires, and every activation count returns to 0. -/
  | hammerWindowExpiry
  /-- HOLDOFF_EXPIRY (R180). The alert holdoff timer expires, and a due alert is sent. -/
  | holdoffExpiry
  /-- READY_AGE_EXPIRY (R179). The age timer of the oldest unannounced record reaches ready_age, and RECORDS_READY is raised. -/
  | readyAgeExpiry
  /-- IDENTIFY (R195). Returns the fixed identification and capacity words. -/
  | identify
  /-- READ_TIME (R196). Returns the elapsed time and the wall time. -/
  | readTime
  /-- SET_TIME (R196). Sets the wall offset so that wall time equals the given value. -/
  | setTime
  /-- SET_PARAM (R197). Clamps and sets one parameter, whose change then applies as its owning rule gives. -/
  | setParam
  /-- READ_STATS (R182). Returns up to eight statistics counters of one block. -/
  | readStats
  /-- STATS_CLEAR (R182). Returns every statistics counter of every block to zero. -/
  | statsClear
  /-- GO_ONLINE (R188). Sets the channel state to ONLINE if the geometry is set. -/
  | goOnline
  /-- CHANNEL_CLEAR (R198). Begins a channel clear: CONFIG is set, waiting demand requests are discarded, and background work is withdrawn or aborted. -/
  | channelClear
  /-- CHANNEL_CLEAR_COMPLETE (R198). The clear completes when every block has finished its part; the response is sent, a window still open closes, and selection runs. selectionFirst: whether the selection of R97 or the closing of the window of R103 is taken first (R109 gives both orders). -/
  | channelClearComplete (selectionFirst : Bool)
  /-- CONFIGURE_GEOMETRY (R20). Sets the channel geometry in CONFIG when no geometry-bound work is outstanding, with the effects of R21. -/
  | configureGeometry
  /-- REGION_LOAD (R59). Loads a Region Table entry and resets its status, or refuses it. -/
  | regionLoad
  /-- REGION_CLEAR (R62). Makes a region entry invalid unless it is bound to the patrol. -/
  | regionClear
  /-- REGION_READ (R63). Returns a region entry and its sweep status. -/
  | regionRead
  /-- SCRUB_ENABLE (R89). Enables a DISABLED patrol engine and runs selection. -/
  | scrubEnable
  /-- SCRUB_DISABLE (R88). Empties the patrol slots and makes the engine DISABLED. -/
  | scrubDisable
  /-- SWEEP_NOW (R84). Places a host-requested sweep of a region in the staged slot, or directly in the active slot. -/
  | sweepNow
  /-- SWEEP_HALT (R86). Moves the active sweep to the held record and makes the engine HALTED. -/
  | sweepHalt
  /-- SWEEP_RESUME (R87). Returns a held sweep to the active slot, or starts the staged one, and leaves HALTED. -/
  | sweepResume
  /-- QUIET_BEGIN (R100). Opens or re-times the quiet window and computes its override time. -/
  | quietBegin
  /-- QUIET_END (R101). Closes an open quiet window, or is refused BUSY when the window is closed. -/
  | quietEnd
  /-- FAULT_READ (R128). Returns the fields of one Fault Table row entry. -/
  | faultRead
  /-- FAULT_CLEAR (R129). Frees a Fault Table entry unless it is RETIRING. -/
  | faultClear
  /-- DEVICE_READ (R130). Returns the scores and flags of the 20 devices of a rank. -/
  | deviceRead
  /-- RETIRE_ROW (R139). Takes a controller-requested retirement of a logical row as a repair job. -/
  | retireRow
  /-- REMAP_LOAD (R148). Installs an ACTIVE spare slot for a logical row without copying, in CONFIG. -/
  | remapLoad
  /-- SPARE_KILL (R149). Marks a FREE spare slot DEAD, in CONFIG. -/
  | spareKill
  /-- REMAP_READ (R150). Returns up to eight spare slot words of a bank. -/
  | remapRead
  /-- ERASE (R152). Adds a device to its rank's erasure set at the controller's request and writes DEVICE_ERASED. -/
  | erase
  /-- UNERASE (R154). Removes a device from its rank's erasure set in CONFIG and zeroes its score. -/
  | unerase
  /-- REPORT_SETUP (R168). Sets up the report ring and zeroes its counts. -/
  | reportSetup
  /-- REPORT_RELEASE (R173). Advances the consumed count and returns the ring counts. -/
  | reportRelease
  /-- REPORT_RESTART (R174). Ends overrun and places a RECORDS_LOST record carrying the lost count. -/
  | reportRestart
  /-- READ_CAUSES (R178). Returns the pending and mask sets and clears the pending and alerted flags of the causes returned. -/
  | readCauses
  /-- CAUSE_SET (R178). Sets the pending flags of the given causes. -/
  | causeSet
  /-- MASK_SET (R178). Sets the mask flags of the given causes. -/
  | maskSet
  /-- MASK_CLEAR (R178). Clears the mask flags of the given causes, which may make an alert due. -/
  | maskClear
  /-- BAD_REQUEST (R193). A maintenance request with an unknown request code is answered BAD_REQUEST at its dispatch. -/
  | badRequest
  /-- MALFORMED_FRAME (R185). A command frame arrives with a kind byte above 4 or a check that does not match, and it belongs to no kind. It is discarded, counted in frames_dropped, and raises FRAME_ERROR. The bytes of the frame as they arrive. -/
  | malformedFrame (bytes : List Byte)
deriving DecidableEq, Repr

end Sys2Proof
end

