-- ==== Sys2Proof/Decode.lean ====
section
/-! DEFINITION. The command that a word spells by the opcode table's bits. The table of this part gives bits for none of its
rows, so no word spells a command: commands come as the frames, events and dispatches of Syntax.lean
(notes/assumptions/8.md). -/

namespace Sys2Proof

/-- The command that a word of nbits bits spells by the table's bits: none, since the table gives bits for no row. -/
def decodeTableWord (_nbits _w : Nat) : Option Instr := none

end Sys2Proof
end

