-- ==== Sys2Proof/Config.lean ====
section
/-! DEFINITION. What an LN4208 fixes: the capacities of its tables and queues, and the line code held at reset. -/

namespace Sys2Proof.Config

/-- Write-back Queue entries (R40). -/
def wbqCapacity : Nat := 8

/-- Targeted Scrub Queue entries (R91). -/
def tsqCapacity : Nat := 16

/-- Repair queue jobs, the running one included (R137). -/
def repairCapacity : Nat := 4

/-- Maintenance request queue (R192). -/
def maintCapacity : Nat := 4

/-- Records in the record write queue (R170). -/
def recordCapacity : Nat := 8

/-- Regions (R54). -/
def regionCount : Nat := 32

/-- Row entries of the Fault Table (R111). -/
def faultEntries : Nat := 64

/-- Entries of one activation table (R156). -/
def hammerEntries : Nat := 16

/-- Tags (R186). -/
def tagCount : Nat := 64

/-- The largest value of a 32-bit saturating counter (R53, R56 and every chapter's counters). -/
def counterMax : Nat := 4294967295

/-- How many immediate actions of the Patrol Engine one command can set off, at most (notes/assumptions/14.md):
sixteen whole-row jobs of 256 unread columns each (R91, R143), with room for every other action. -/
def settleFuel : Nat := 8192

/-! The line code at reset. DESIGN CHOICE (notes/assumptions/1.md), unsafe for any claim that used its value: R2 gives the
code's properties and not its symbols, so the code is a field of State (State.code) which nothing ever changes and for
every value of which the statements hold. The value here is one code with the properties of R2 (a shortened
Reed-Solomon code over the field of 256 elements). Entry 8 i + b is what bit b of data symbol i contributes to the four
check symbols: check symbol j is bits 8 j to 8 j + 7. -/

/-- The contributions of data symbols 0 to 3 (DESIGN CHOICE, notes/assumptions/1.md). -/
def resetCode0 : List Word32 :=
  [0x07058a4d#32, 0x0e0a099a#32, 0x1c141229#32, 0x38282452#32, 0x705048a4#32, 0xe0a09055#32, 0xdd5d3daa#32, 0xa7ba7a49#32,
   0x363fe138#32, 0x6c7edf70#32, 0xd8fca3e0#32, 0xade55bdd#32, 0x47d7b6a7#32, 0x8eb37153#32, 0x017be2a6#32, 0x02f6d951#32,
   0x921ea5ad#32, 0x393c5747#32, 0x7278ae8e#32, 0xe4f04101#32, 0xd5fd8202#32, 0xb7e71904#32, 0x73d33208#32, 0xe6bb6410#32,
   0x678ac0e4#32, 0xce099dd5#32, 0x811227b7#32, 0x1f244e73#32, 0x3e489ce6#32, 0x7c9025d1#32, 0xf83d4abf#32, 0xed7a9463#32]

/-- The contributions of data symbols 4 to 7 (DESIGN CHOICE, notes/assumptions/1.md). -/
def resetCode1 : List Word32 :=
  [0xa64c151f#32, 0x51982a3e#32, 0xa22d547c#32, 0x595aa8f8#32, 0xb2b44ded#32, 0x79759ac7#32, 0xf2ea2993#32, 0xf9c9523b#32,
   0xf522ca59#32, 0xf74489b2#32, 0xf3880f79#32, 0xfb0d1ef2#32, 0xeb1a3cf9#32, 0xcb3478ef#32, 0x8b68f0c3#32, 0x0bd0fd9b#32,
   0xe48574fb#32, 0xd517e8eb#32, 0xb72ecdcb#32, 0x735c878b#32, 0xe6b8130b#32, 0xd16d2616#32, 0xbfda4c2c#32, 0x63a99858#32,
   0x494e0873#32, 0x929c10e6#32, 0x392520d1#32, 0x724a40bf#32, 0xe4948063#32, 0xd5351dc6#32, 0xb76a3a91#32, 0x73d4743f#32]

/-- The contributions of data symbols 8 to 11 (DESIGN CHOICE, notes/assumptions/1.md). -/
def resetCode2 : List Word32 :=
  [0x67f0eb72#32, 0xcefdcbe4#32, 0x81e78bd5#32, 0x1fd30bb7#32, 0x3ebb1673#32, 0x7c6b2ce6#32, 0xf8d658d1#32, 0xedb1b0bf#32,
   0xdd1a031f#32, 0xa734063e#32, 0x53680c7c#32, 0xa6d018f8#32, 0x51bd30ed#32, 0xa26760c7#32, 0x59cec093#32, 0xb2819d3b#32,
   0xc907c0a6#32, 0x8f0e9d51#32, 0x031c27a2#32, 0x06384e59#32, 0x0c709cb2#32, 0x18e02579#32, 0x30dd4af2#32, 0x60a794f9#32,
   0x56143d06#32, 0xac287a0c#32, 0x4550f418#32, 0x8aa0f530#32, 0x095df760#32, 0x12baf3c0#32, 0x2469fb9d#32, 0x48d2eb27#32]

/-- The contributions of data symbols 12 to 15 (DESIGN CHOICE, notes/assumptions/1.md). -/
def resetCode3 : List Word32 :=
  [0x595c958a#32, 0xb2b83709#32, 0x796d6e12#32, 0xf2dadc24#32, 0xf9a9a548#32, 0xef4f5790#32, 0xc39eae3d#32, 0x9b21417a#32,
   0xe977e7f2#32, 0xcfeed3f9#32, 0x83c1bbef#32, 0x1b9f6bc3#32, 0x3623d69b#32, 0x6c46b12b#32, 0xd88c7f56#32, 0xad05feac#32,
   0xe6070f1b#32, 0xd10e1e36#32, 0xbf1c3c6c#32, 0x633878d8#32, 0xc670f0ad#32, 0x91e0fd47#32, 0x3fdde78e#32, 0x7ea7d301#32,
   0xfeac2163#32, 0xe14542c6#32, 0xdf8a8491#32, 0xa309153f#32, 0x5b122a7e#32, 0xb62454fc#32, 0x7148a8e5#32, 0xe2904dd7#32]

/-- The line code held at reset (DESIGN CHOICE, notes/assumptions/1.md). -/
def resetCode : List Word32 := resetCode0 ++ resetCode1 ++ resetCode2 ++ resetCode3

end Sys2Proof.Config
end

