-- ==== Sys2Proof/Machine/State.lean ====
section
/-! DEFINITION. The state of the LN4208: every table, queue, counter, timer and flag the chapters give it, as plain
data, with the queue of waiting commands, and its value after power-on. -/

namespace Sys2Proof.Machine

open Sys2Proof

/-- Nothing the LN4208 is told to do faults: the manual describes every failure as a status, an outcome, a record or
a cause, which are effects on State. The type therefore has no value and no command raises a fault. -/
inductive Fault where
deriving DecidableEq, Repr

/-- Why a command has no meaning. -/
inductive Refusal where
  /-- The command's arm has no meaning yet. Raised by Dispatch alone, for no row of the table; safe, since the machine
  stops and nothing is claimed of what it would do. -/
  | notModelled (mnemonic : String)
deriving DecidableEq, Repr

/-- A moment of the time base: whole µs and eightieths of a µs (R196). -/
structure FineTime where
  us : Elapsed
  sub : Fin 80
deriving DecidableEq, Repr

/-- A map with number keys: pairs in rising order of key. -/
abbrev AMap (α : Type) := List (Nat × α)

/-! ## Chapter 1: lines -/

/-- The form in which a line is written: a fresh codeword, or with the poison mark (R3). -/
inductive Form where
  | fresh | poison
deriving DecidableEq, Repr

/-- The outcome of a decode (R6, R8). -/
inductive Outcome where
  | clean | corrected | uncorrectable | poisoned
deriving DecidableEq, Repr

/-- The access that read a line (R11), with the codes of R175 in order from 1. -/
inductive Source where
  | demand | rmw | patrol | targeted | repair
deriving DecidableEq, Repr

/-! ## Chapter 2: the DRAM Port -/

/-- The channel geometry (R19): ranks, row bits r, column exponent c, spare rows per bank S. -/
structure Geometry where
  ranks : Nat
  rowBits : Nat
  colExp : Nat
  spares : Nat
deriving DecidableEq, Repr

/-- Who asked for an access, and what the access carries (R26, R30, R141). -/
inductive AccessKind where
  /-- A READ that was not forwarded (R28). -/
  | demandRead (tag : Nat)
  /-- A WRITE, or a WRITE_MASKED with a full mask (R17, R30). -/
  | demandWrite (tag : Nat) (data : Data)
  /-- A masked-write unit; merged holds the merged line and its form once the merge is made (R30). -/
  | maskedWrite (tag : Nat) (data : Data) (mask : BitVec 64) (merged : Option (Data × Form))
  /-- The write of the Write-back Queue entry of the line (R43). -/
  | writeBack
  /-- A report record write (R171). -/
  | recordWrite (sequence : Word32) (data : Data)
  /-- The read of a copy pair (R141). -/
  | copyRead
  /-- The write of a copy pair to the spare row named; payload is fixed once the read is served; forwarded says that it
  was served from a Write-back Queue entry (R29, R141). -/
  | copyWrite (spareRow : Nat) (payload : Option (Data × Form)) (forwarded : Bool)
  /-- A patrol read; owned while the sweep that issued it is in the active slot or the held record (R58, R80). -/
  | patrolRead (owned : Bool)
  /-- A targeted read of the physical row named (R95). -/
  | targetedRead (row : Nat)
deriving DecidableEq, Repr

/-- Where an access stands (R25): waiting for a grant, granted and under way, or, for a masked-write unit, merged and
waiting for the grant of its write. -/
inductive Phase where
  | waiting | granted | merging
deriving DecidableEq, Repr

/-- An access taken and not yet performed (R26). -/
structure Access where
  line : Nat
  kind : AccessKind
  phase : Phase
  /-- The physical row given at the grant (R23); 0 before it. -/
  row : Nat := 0
  /-- The spare row a doubled write is also made to (R142). -/
  double : Option Nat := none
  /-- The place of the grant among all grants: the order in which conflicting rows close (R35). -/
  grantNo : Nat := 0
  /-- How many refreshes of its rank have been granted since its own grant (R35; notes/assumptions/23.md). -/
  refreshes : Nat := 0
deriving DecidableEq, Repr

/-- An open row and its hold end time, none until an access to it is performed (R34). -/
structure OpenRow where
  row : Nat
  holdEnd : Option Elapsed
deriving DecidableEq, Repr

/-- A rank's refresh timer (the end of the running interval, none before the geometry is set) and the moments at which
its owed refreshes became owed, oldest first; the owed count is their number (R33, R36). -/
structure Refresh where
  timer : Option FineTime
  owed : List FineTime
deriving DecidableEq, Repr

/-- The DRAM Port (R19, R25, R26, R32, R33, R34, R36). -/
structure Port where
  /-- The geometry-set flag. -/
  geomSet : Bool
  geom : Geometry
  /-- Every access taken and not yet performed, in order of taking. The demand queue (R25) is the demand accesses of
  the list, and the line-order list of a line (R26) is the accesses of that line. -/
  accesses : List Access
  /-- The open rows, keyed by 16 * rank + bank; a bank not listed is closed. -/
  openRows : AMap OpenRow
  /-- One per rank 0 to 3. -/
  refresh : List Refresh
  /-- The write-drain condition. -/
  drain : Bool
  /-- The pass count of each class, by class number 0 to 9 (class 0 is not used). -/
  passCounts : List Nat
  /-- How many grants have been made: the next grant's place. -/
  grants : Nat
deriving DecidableEq, Repr

/-! ## Chapter 3: the Write-back Queue -/

/-- Whether a line is rewritten or marked (R40). -/
inductive WbKind where
  | rewrite | poison
deriving DecidableEq, Repr

/-- Whether an entry waits during a quiet window (R40). -/
inductive Policy where
  | immediate | windowed
deriving DecidableEq, Repr

/-- A Write-back Queue entry (R40). -/
structure WbEntry where
  line : Nat
  data : Data
  kind : WbKind
  policy : Policy
  inserted : Elapsed
  granted : Bool
deriving DecidableEq, Repr

/-! ## Chapter 4: the Region Table -/

/-- A region's class (R54), in the order of the codes of R194. -/
inductive RegionClass where
  | critical | standard | bulk
deriving DecidableEq, Repr

/-- How the patrol issues a region's lines (R54), in the order of the codes of R194. -/
inductive AccessMode where
  | single | burst | sustained
deriving DecidableEq, Repr

/-- A region's sweep state (R57). -/
inductive SweepState where
  | idle | staged | active | held
deriving DecidableEq, Repr

/-- A region entry (R54). -/
structure RegionEntry where
  valid : Bool := false
  base : Nat := 0
  length : Nat := 0
  patrol : Bool := false
  period : Nat := 0
  cls : RegionClass := .bulk
  mode : AccessMode := .single
  burst : Nat := 0
  policy : Policy := .immediate
  locked : Bool := false
  sweepRecords : Bool := false
deriving DecidableEq, Repr

/-- A region's sweep status (R56). -/
structure RegionStatus where
  state : SweepState := .idle
  due : Elapsed := 0
  lastStart : Elapsed := 0
  lastEnd : Elapsed := 0
  completed : Nat := 0
  missed : Nat := 0
  late : Nat := 0
  corrected : Nat := 0
  uncorrectable : Nat := 0
deriving DecidableEq, Repr

/-- A region: its entry and its status. -/
structure Region where
  entry : RegionEntry := {}
  status : RegionStatus := {}
deriving DecidableEq, Repr

/-! ## Chapter 5: the Patrol Engine -/

/-- The engine state (R69), in the order of the codes of R193. -/
inductive EngineState where
  | disabled | idle | running | paused | halted
deriving DecidableEq, Repr

/-- A sweep in the active slot or the held record (R70). -/
structure Sweep where
  region : Nat
  hostPlaced : Bool
  cursor : Nat
  remaining : Nat
  inFlight : Nat
  issued : Nat
  due : Elapsed
  deadline : Elapsed
  pace : Nat
  nextIssue : FineTime
  atRisk : Bool
  atRiskReported : Bool
  /-- Lines of the burst in progress not yet issued (R78). -/
  burstLeft : Nat
  /-- Whether a targeted job has completed since the sweep's last issue (R94). -/
  jobSince : Bool
  /-- Whether the sweep's line boundary has been given to the job now being read, so that an issue is deferred (R94). -/
  deferred : Bool
deriving DecidableEq, Repr

/-- The staged slot's contents (R70). -/
structure Staged where
  region : Nat
  hostPlaced : Bool
deriving DecidableEq, Repr

/-- A Targeted Scrub Queue entry (R91). -/
structure TsqEntry where
  rank : Nat
  bank : Nat
  row : Nat
  recheck : Bool
  neighbour : Bool
  nextCol : Nat
  inService : Bool
  /-- Whether the job is being read at this moment: begun or resumed, and not suspended by a window (R91, R93). -/
  reading : Bool
deriving DecidableEq, Repr

/-- The Patrol Engine and the Targeted Scrub Queue (R69, R70, R91). -/
structure Patrol where
  engine : EngineState
  active : Option Sweep
  staged : Option Staged
  held : Option Sweep
  tsq : List TsqEntry
deriving DecidableEq, Repr

/-! ## Chapter 6: Quiet Window Control -/

/-- An open window: its end time and its override time, or none (R99). -/
structure Window where
  endTime : Elapsed
  override : Option Elapsed
deriving DecidableEq, Repr

/-! ## Chapter 7: the Fault Table -/

/-- A row entry's state (R112), in the order of the codes of R193. -/
inductive FaultState where
  | free | observed | suspect | retiring | retired | blocked
deriving DecidableEq, Repr

/-- Why a retirement did not go ahead (R111), in the order of the codes of R176 from 1. -/
inductive BlockReason where
  | noSpare | queueFull | autoOff
deriving DecidableEq, Repr

/-- A row entry (R111). Bit d of devices says that device d is in the device set. -/
structure FaultEntry where
  state : FaultState := .free
  reason : Option BlockReason := none
  rank : Nat := 0
  bank : Nat := 0
  row : Nat := 0
  score : Nat := 0
  devices : BitVec 20 := 0
  events : Nat := 0
  uncorrectables : Nat := 0
  firstSeen : Elapsed := 0
  lastSeen : Elapsed := 0
  lastCol : Nat := 0
  lastDevice : Nat := 255
deriving DecidableEq, Repr

/-- A device's score and its limit-reported flag (R113). -/
structure DeviceScore where
  score : Nat := 0
  limitReported : Bool := false
deriving DecidableEq, Repr

/-- The Fault Table (R111, R113, R124). -/
structure FaultTable where
  /-- The 64 row entries. -/
  entries : List FaultEntry
  /-- The device score array, element 20 * rank + device. -/
  devices : List DeviceScore
  /-- The end of the running decay interval. -/
  decayEnd : Elapsed
deriving DecidableEq, Repr

/-! ## Chapter 8: the Repair Engine -/

/-- What a reserved or copying slot holds: the logical row it names, or the source slot of a move (R134). -/
inductive SlotTarget where
  | row (logical : Nat)
  | move (source : Nat)
deriving DecidableEq, Repr

/-- A spare slot (R134). -/
inductive Slot where
  | free
  | reserved (t : SlotTarget)
  | copying (t : SlotTarget) (cursor : Nat)
  | active (logical : Nat)
  | dead
deriving DecidableEq, Repr

/-- Who asked for a retirement (R137), in the order of the codes of R176. -/
inductive Origin where
  | faultTable | requested
deriving DecidableEq, Repr

/-- A repair job (R137). -/
structure Job where
  rank : Nat
  bank : Nat
  logical : Nat
  target : Nat
  sourceRow : Nat
  origin : Origin
  clean : Nat := 0
  corrected : Nat := 0
  poisoned : Nat := 0
  taken : Nat := 0
deriving DecidableEq, Repr

/-- The Repair Engine (R134, R137, R151). -/
structure Repair where
  /-- The Remap Table, keyed by 32 * (16 * rank + bank) + slot; a slot not listed is FREE. -/
  slots : AMap Slot
  /-- The repair queue, oldest first; the head is the running job. -/
  jobs : List Job
  /-- The erasure set of each rank 0 to 3, oldest device first. -/
  erasures : List (List Nat)
deriving DecidableEq, Repr

/-! ## Chapter 9: the Disturbance Watch -/

/-- The requester of an access (R35); the first five are those of R157's counted requesters, in the order of R176. -/
inductive Requester where
  | demandRead | demandWrite | maskedWrite | writeBack | recordWrite | patrolRead | targetedRead | copyRead | copyWrite
deriving DecidableEq, Repr

/-- An activation table entry in use (R156). -/
structure HammerEntry where
  bank : Nat
  row : Nat
  count : Nat
deriving DecidableEq, Repr

/-- The Disturbance Watch: the activation table of each rank 0 to 3, of 16 places each, and the end of the running
window (R156, R163). -/
structure Hammer where
  tables : List (List (Option HammerEntry))
  windowEnd : Elapsed
deriving DecidableEq, Repr

/-! ## Chapter 10: the Report Unit -/

/-- The sixteen causes (R177), in the order of their bits. -/
inductive Cause where
  | recordsReady | uncorrectable | criticalUncorrectable | overrun | sweepAtRisk | sweepLate | stagedEmpty
  | quietOverridden | rowRetired | sparesExhausted | deviceErased | erasureLimit | tsqDropped | lockFault
  | frameError | software
deriving DecidableEq, Repr

/-- A record placed and not yet counted as written (R171). -/
structure QueuedRecord where
  sequence : Word32
  performed : Bool
deriving DecidableEq, Repr

/-- The Report Unit (R168, R170 to R172, R177, R179, R180). -/
structure Report where
  setUp : Bool
  base : Nat
  sizeExp : Nat
  produced : Word32
  written : Word32
  consumed : Word32
  lost : Nat
  overrun : Bool
  /-- The record write queue, oldest first. -/
  queue : List QueuedRecord
  /-- The unannounced count of RECORDS_READY. -/
  unannounced : Nat
  /-- The moment the age timer started, none while it is stopped. -/
  ageStart : Option Elapsed
  pending : BitVec 16
  mask : BitVec 16
  alerted : BitVec 16
  /-- The end of the running alert holdoff, none while it is stopped. -/
  holdoffEnd : Option Elapsed
deriving DecidableEq, Repr

/-! ## Chapter 11: the Link Interface -/

/-- The channel state (R187). -/
inductive Channel where
  | config | online
deriving DecidableEq, Repr

/-- The outcome of a DATA frame, in the order of its codes (R183). -/
inductive DataOutcome where
  | clean | corrected | poisoned | addressError | notReady
deriving DecidableEq, Repr

/-- The status of an ACK frame, in the order of its codes (R183). -/
inductive AckStatus where
  | ok | poisonedMerge | lockFault | addressError | notReady
deriving DecidableEq, Repr

/-- The status of a maintenance response, in the order of its codes (R183, R193). -/
inductive Status where
  | ok | busy | badRequest | badArgument | overlap | noSpare | limit | notConfigured
deriving DecidableEq, Repr

/-- A return frame (R183). -/
inductive ReturnFrame where
  | data (tag : Nat) (outcome : DataOutcome) (bytes : Data)
  | ack (tag : Nat) (status : AckStatus)
  | maintResp (tag : Nat) (status : Status) (results : List Word32)
  | alert (causes : BitVec 16) (wall : BitVec 64)
deriving DecidableEq, Repr

/-- The Link Interface (R186, R187, R189). -/
structure Link where
  channel : Channel
  /-- The tag table: the tags in use. -/
  tags : BitVec 64
  /-- The return queue. -/
  returns : List ReturnFrame
  /-- Whether the frame at the head of the return queue has begun to be sent (R189, R190; notes/assumptions/11.md). -/
  begun : Bool
  /-- The bytes of the last return frame that left the part, the link's output; the model's own field. -/
  sent : List Byte
deriving DecidableEq, Repr

/-! ## Chapter 12: the Maintenance Unit -/

/-- A maintenance request in the request queue (R192). -/
structure MaintRequest where
  tag : Nat
  code : Nat
  args : List Word32
deriving DecidableEq, Repr

/-- The parameter set (R197), in the order of the parameter ids. -/
structure Params where
  pageHold : Nat := 0
  refreshInterval : Nat := 39
  minPace : Nat := 7
  quietOverride : Nat := 1
  rowSuspect : Nat := 8
  rowRetire : Nat := 48
  autoRetire : Nat := 1
  decayEpoch : Nat := 60
  deviceErase : Nat := 768
  deviceSpread : Nat := 4
  autoErase : Nat := 1
  hammerThreshold : Nat := 16384
  hammerWindow : Nat := 32
  hammerRecords : Nat := 0
  readyCount : Nat := 8
  readyAge : Nat := 1000
  alertHoldoff : Nat := 100
deriving DecidableEq, Repr

/-- The Maintenance Unit (R192, R196, R198). -/
structure Maint where
  /-- The request queue, the request being served at its head. -/
  queue : List MaintRequest
  /-- Whether the head is a CHANNEL_CLEAR dispatched and not yet answered. -/
  clearing : Bool
  /-- The elapsed time. -/
  now : FineTime
  wallOffset : BitVec 64
deriving DecidableEq, Repr

/-! ## Statistics -/

/-- The statistics counters of the eleven blocks (R182). -/
inductive Ctr where
  | framesAccepted | framesDropped | notReadyAnswers | alertsMerged
  | addressErrors | drainEntries | activations | refreshesIssued | refreshMissed
  | writebacksInserted | writebacksReplaced | writebacksDropped | writebacksCancelled | writebacksForwarded | rewritesWritten | poisonMarksWritten
  | lockFaults
  | patrolLines | scrubLinesSkipped | sweepsAtRisk | tsqInserted | tsqMerged | tsqDropped | targetedJobsDone | targetedJobsDiscarded
  | quietOpened | quietExtended | quietExpired | quietEnded | quietOverrides
  | faultEvents | untrackedEvents | entriesReplaced | rowsSuspect | retireRequests | retireBlocked | entriesRetired | decayEpochs | eraseDecisions | erasureLimits | entriesFreedByErasure
  | repairJobsTaken | repairJobsDone | repairJobsAborted | retireNoSpare | retireQueueFull | copyLines | writesDoubled | devicesErased | devicesUnerased
  | hammerCounted | hammerReplacements | hammerTriggers | hammerNeighbourJobs | hammerWindows
  | recordsPlaced | recordsWritten | recordsLost | alertsSent
  | maintRequests | maintBusy | maintBadRequest | channelClears
deriving DecidableEq, Repr

/-- The statistics counters, each 32 bits and saturating (R39, R53, R68, R98, R110, R133, R155, R167, R182, R191, R199).
They are grouped by block in the order of R182, and within a block in the order its own chapter lists them. -/
structure Counters where
  /-- `frames_accepted` (Link Interface, R191). -/
  framesAccepted : Nat := 0
  /-- `frames_dropped` (Link Interface, R191). -/
  framesDropped : Nat := 0
  /-- `not_ready_answers` (Link Interface, R191). -/
  notReadyAnswers : Nat := 0
  /-- `alerts_merged` (Link Interface, R191). -/
  alertsMerged : Nat := 0
  /-- `address_errors` (DRAM Port, R39). -/
  addressErrors : Nat := 0
  /-- `drain_entries` (DRAM Port, R39). -/
  drainEntries : Nat := 0
  /-- `activations` (DRAM Port, R39). -/
  activations : Nat := 0
  /-- `refreshes_issued` (DRAM Port, R39). -/
  refreshesIssued : Nat := 0
  /-- `refresh_missed` (DRAM Port, R39). -/
  refreshMissed : Nat := 0
  /-- `writebacks_inserted` (Write-back Queue, R53). -/
  writebacksInserted : Nat := 0
  /-- `writebacks_replaced` (Write-back Queue, R53). -/
  writebacksReplaced : Nat := 0
  /-- `writebacks_dropped` (Write-back Queue, R53). -/
  writebacksDropped : Nat := 0
  /-- `writebacks_cancelled` (Write-back Queue, R53). -/
  writebacksCancelled : Nat := 0
  /-- `writebacks_forwarded` (Write-back Queue, R53). -/
  writebacksForwarded : Nat := 0
  /-- `rewrites_written` (Write-back Queue, R53). -/
  rewritesWritten : Nat := 0
  /-- `poison_marks_written` (Write-back Queue, R53). -/
  poisonMarksWritten : Nat := 0
  /-- `lock_faults` (Region Table, R68). -/
  lockFaults : Nat := 0
  /-- `patrol_lines` (Patrol Engine, R98). -/
  patrolLines : Nat := 0
  /-- `scrub_lines_skipped` (Patrol Engine, R98). -/
  scrubLinesSkipped : Nat := 0
  /-- `sweeps_at_risk` (Patrol Engine, R98). -/
  sweepsAtRisk : Nat := 0
  /-- `tsq_inserted` (Patrol Engine, R98). -/
  tsqInserted : Nat := 0
  /-- `tsq_merged` (Patrol Engine, R98). -/
  tsqMerged : Nat := 0
  /-- `tsq_dropped` (Patrol Engine, R98). -/
  tsqDropped : Nat := 0
  /-- `targeted_jobs_done` (Patrol Engine, R98). -/
  targetedJobsDone : Nat := 0
  /-- `targeted_jobs_discarded` (Patrol Engine, R98). -/
  targetedJobsDiscarded : Nat := 0
  /-- `quiet_opened` (Quiet Window Control, R110). -/
  quietOpened : Nat := 0
  /-- `quiet_extended` (Quiet Window Control, R110). -/
  quietExtended : Nat := 0
  /-- `quiet_expired` (Quiet Window Control, R110). -/
  quietExpired : Nat := 0
  /-- `quiet_ended` (Quiet Window Control, R110). -/
  quietEnded : Nat := 0
  /-- `quiet_overrides` (Quiet Window Control, R110). -/
  quietOverrides : Nat := 0
  /-- `fault_events` (Fault Table, R133). -/
  faultEvents : Nat := 0
  /-- `untracked_events` (Fault Table, R133). -/
  untrackedEvents : Nat := 0
  /-- `entries_replaced` (Fault Table, R133). -/
  entriesReplaced : Nat := 0
  /-- `rows_suspect` (Fault Table, R133). -/
  rowsSuspect : Nat := 0
  /-- `retire_requests` (Fault Table, R133). -/
  retireRequests : Nat := 0
  /-- `retire_blocked` (Fault Table, R133). -/
  retireBlocked : Nat := 0
  /-- `entries_retired` (Fault Table, R133). -/
  entriesRetired : Nat := 0
  /-- `decay_epochs` (Fault Table, R133). -/
  decayEpochs : Nat := 0
  /-- `erase_decisions` (Fault Table, R133). -/
  eraseDecisions : Nat := 0
  /-- `erasure_limits` (Fault Table, R133). -/
  erasureLimits : Nat := 0
  /-- `entries_freed_by_erasure` (Fault Table, R133). -/
  entriesFreedByErasure : Nat := 0
  /-- `repair_jobs_taken` (Repair Engine, R155). -/
  repairJobsTaken : Nat := 0
  /-- `repair_jobs_done` (Repair Engine, R155). -/
  repairJobsDone : Nat := 0
  /-- `repair_jobs_aborted` (Repair Engine, R155). -/
  repairJobsAborted : Nat := 0
  /-- `retire_no_spare` (Repair Engine, R155). -/
  retireNoSpare : Nat := 0
  /-- `retire_queue_full` (Repair Engine, R155). -/
  retireQueueFull : Nat := 0
  /-- `copy_lines` (Repair Engine, R155). -/
  copyLines : Nat := 0
  /-- `writes_doubled` (Repair Engine, R155). -/
  writesDoubled : Nat := 0
  /-- `devices_erased` (Repair Engine, R155). -/
  devicesErased : Nat := 0
  /-- `devices_unerased` (Repair Engine, R155). -/
  devicesUnerased : Nat := 0
  /-- `hammer_counted` (Disturbance Watch, R167). -/
  hammerCounted : Nat := 0
  /-- `hammer_replacements` (Disturbance Watch, R167). -/
  hammerReplacements : Nat := 0
  /-- `hammer_triggers` (Disturbance Watch, R167). -/
  hammerTriggers : Nat := 0
  /-- `hammer_neighbour_jobs` (Disturbance Watch, R167). -/
  hammerNeighbourJobs : Nat := 0
  /-- `hammer_windows` (Disturbance Watch, R167). -/
  hammerWindows : Nat := 0
  /-- `records_placed` (Report Unit, R182). -/
  recordsPlaced : Nat := 0
  /-- `records_written` (Report Unit, R182). -/
  recordsWritten : Nat := 0
  /-- `records_lost` (Report Unit, R182). -/
  recordsLost : Nat := 0
  /-- `alerts_sent` (Report Unit, R182). -/
  alertsSent : Nat := 0
  /-- `maint_requests` (Maintenance Unit, R199). -/
  maintRequests : Nat := 0
  /-- `maint_busy` (Maintenance Unit, R199). -/
  maintBusy : Nat := 0
  /-- `maint_bad_request` (Maintenance Unit, R199). -/
  maintBadRequest : Nat := 0
  /-- `channel_clears` (Maintenance Unit, R199). -/
  channelClears : Nat := 0
deriving DecidableEq, Repr

/-! ## The whole part -/

/-- The state of the LN4208, with the contents of the DRAM it has written and the queue of waiting commands. -/
structure State where
  link : Link
  port : Port
  wbq : List WbEntry
  /-- The 32 regions (R54). -/
  regions : List Region
  patrol : Patrol
  /-- The quiet window, none while it is CLOSED (R99). -/
  window : Option Window
  fault : FaultTable
  repair : Repair
  hammer : Hammer
  report : Report
  maint : Maint
  params : Params
  counters : Counters
  /-- The lines of the DRAM as last written (R5), keyed by place; a line not listed was never written and stands as
  the all-zero line (notes/assumptions/7.md). -/
  dram : AMap Line
  /-- The line code (R2): a free value, never changed (notes/assumptions/1.md). -/
  code : List Word32
  /-- The commands that are waiting, first in, first out. -/
  pending : List Instr
deriving DecidableEq, Repr

/-- The state right after power-on (R19, R39, R40, R54, R56, R69, R70, R98, R99, R110, R111, R133, R151, R155, R167,
R181, R191, R196, R199). The four geometry values are undefined at power-on and are read by nothing while the flag is
clear; they stand at zero (DESIGN CHOICE, notes/assumptions/2.md). -/
def State.reset : State where
  link := { channel := .config, tags := 0, returns := [], begun := false, sent := [] }
  port := { geomSet := false, geom := { ranks := 0, rowBits := 0, colExp := 0, spares := 0 }, accesses := [],
            openRows := [], refresh := List.replicate 4 { timer := none, owed := [] }, drain := false,
            passCounts := List.replicate 10 0, grants := 0 }
  wbq := []
  regions := List.replicate Config.regionCount {}
  patrol := { engine := .disabled, active := none, staged := none, held := none, tsq := [] }
  window := none
  fault := { entries := List.replicate Config.faultEntries {}, devices := List.replicate 80 {}, decayEnd := 60000000 }
  repair := { slots := [], jobs := [], erasures := List.replicate 4 [] }
  hammer := { tables := List.replicate 4 (List.replicate Config.hammerEntries none), windowEnd := 32000 }
  report := { setUp := false, base := 0, sizeExp := 0, produced := 0, written := 0, consumed := 0, lost := 0,
              overrun := false, queue := [], unannounced := 0, ageStart := none, pending := 0, mask := 0,
              alerted := 0, holdoffEnd := none }
  maint := { queue := [], clearing := false, now := { us := 0, sub := 0 }, wallOffset := 0 }
  params := {}
  counters := {}
  dram := []
  code := Config.resetCode
  pending := []

end Sys2Proof.Machine
end

