-- ==== Sys2Proof/Machine/Ops.lean ====
section
/-! DEFINITION. The named operations every block uses: the time base, the statistics counters, maps with number keys,
the DRAM as last written, the geometry and the address mapping, the Remap Table's two answers, the region lookup, tags,
the return queue and the tables' entries. -/

namespace Sys2Proof.Machine

open Sys2Proof

/-- The answer of a meaning. -/
abbrev Answer := Host.Outcome State Fault Refusal

/-! ## Bits and bytes -/

/-- How many bits of x are set, among the lowest n. -/
def countOnes (x : Nat) : Nat → Nat
  | 0 => 0
  | n + 1 => (if x.testBit n then 1 else 0) + countOnes x n

/-- The bytes of a number, n of them, low byte first (multi-byte fields are little-endian, R183, R175). -/
def leBytes (x : Nat) : Nat → List Byte
  | 0 => []
  | n + 1 => BitVec.ofNat 8 x :: leBytes (x / 256) n

/-- The bitwise exclusive-or of all vectors of a list. -/
def xorAll {w : Nat} (l : List (BitVec w)) : BitVec w := l.foldl (fun a b => a ^^^ b) 0

/-! ## Statistics counters (R182) -/

/-- The value of a counter (R182). -/
def Counters.get (k : Counters) : Ctr → Nat
  | .framesAccepted => k.framesAccepted
  | .framesDropped => k.framesDropped
  | .notReadyAnswers => k.notReadyAnswers
  | .alertsMerged => k.alertsMerged
  | .addressErrors => k.addressErrors
  | .drainEntries => k.drainEntries
  | .activations => k.activations
  | .refreshesIssued => k.refreshesIssued
  | .refreshMissed => k.refreshMissed
  | .writebacksInserted => k.writebacksInserted
  | .writebacksReplaced => k.writebacksReplaced
  | .writebacksDropped => k.writebacksDropped
  | .writebacksCancelled => k.writebacksCancelled
  | .writebacksForwarded => k.writebacksForwarded
  | .rewritesWritten => k.rewritesWritten
  | .poisonMarksWritten => k.poisonMarksWritten
  | .lockFaults => k.lockFaults
  | .patrolLines => k.patrolLines
  | .scrubLinesSkipped => k.scrubLinesSkipped
  | .sweepsAtRisk => k.sweepsAtRisk
  | .tsqInserted => k.tsqInserted
  | .tsqMerged => k.tsqMerged
  | .tsqDropped => k.tsqDropped
  | .targetedJobsDone => k.targetedJobsDone
  | .targetedJobsDiscarded => k.targetedJobsDiscarded
  | .quietOpened => k.quietOpened
  | .quietExtended => k.quietExtended
  | .quietExpired => k.quietExpired
  | .quietEnded => k.quietEnded
  | .quietOverrides => k.quietOverrides
  | .faultEvents => k.faultEvents
  | .untrackedEvents => k.untrackedEvents
  | .entriesReplaced => k.entriesReplaced
  | .rowsSuspect => k.rowsSuspect
  | .retireRequests => k.retireRequests
  | .retireBlocked => k.retireBlocked
  | .entriesRetired => k.entriesRetired
  | .decayEpochs => k.decayEpochs
  | .eraseDecisions => k.eraseDecisions
  | .erasureLimits => k.erasureLimits
  | .entriesFreedByErasure => k.entriesFreedByErasure
  | .repairJobsTaken => k.repairJobsTaken
  | .repairJobsDone => k.repairJobsDone
  | .repairJobsAborted => k.repairJobsAborted
  | .retireNoSpare => k.retireNoSpare
  | .retireQueueFull => k.retireQueueFull
  | .copyLines => k.copyLines
  | .writesDoubled => k.writesDoubled
  | .devicesErased => k.devicesErased
  | .devicesUnerased => k.devicesUnerased
  | .hammerCounted => k.hammerCounted
  | .hammerReplacements => k.hammerReplacements
  | .hammerTriggers => k.hammerTriggers
  | .hammerNeighbourJobs => k.hammerNeighbourJobs
  | .hammerWindows => k.hammerWindows
  | .recordsPlaced => k.recordsPlaced
  | .recordsWritten => k.recordsWritten
  | .recordsLost => k.recordsLost
  | .alertsSent => k.alertsSent
  | .maintRequests => k.maintRequests
  | .maintBusy => k.maintBusy
  | .maintBadRequest => k.maintBadRequest
  | .channelClears => k.channelClears

/-- A counter with its value replaced. -/
def Counters.put (k : Counters) (v : Nat) : Ctr → Counters
  | .framesAccepted => { k with framesAccepted := v }
  | .framesDropped => { k with framesDropped := v }
  | .notReadyAnswers => { k with notReadyAnswers := v }
  | .alertsMerged => { k with alertsMerged := v }
  | .addressErrors => { k with addressErrors := v }
  | .drainEntries => { k with drainEntries := v }
  | .activations => { k with activations := v }
  | .refreshesIssued => { k with refreshesIssued := v }
  | .refreshMissed => { k with refreshMissed := v }
  | .writebacksInserted => { k with writebacksInserted := v }
  | .writebacksReplaced => { k with writebacksReplaced := v }
  | .writebacksDropped => { k with writebacksDropped := v }
  | .writebacksCancelled => { k with writebacksCancelled := v }
  | .writebacksForwarded => { k with writebacksForwarded := v }
  | .rewritesWritten => { k with rewritesWritten := v }
  | .poisonMarksWritten => { k with poisonMarksWritten := v }
  | .lockFaults => { k with lockFaults := v }
  | .patrolLines => { k with patrolLines := v }
  | .scrubLinesSkipped => { k with scrubLinesSkipped := v }
  | .sweepsAtRisk => { k with sweepsAtRisk := v }
  | .tsqInserted => { k with tsqInserted := v }
  | .tsqMerged => { k with tsqMerged := v }
  | .tsqDropped => { k with tsqDropped := v }
  | .targetedJobsDone => { k with targetedJobsDone := v }
  | .targetedJobsDiscarded => { k with targetedJobsDiscarded := v }
  | .quietOpened => { k with quietOpened := v }
  | .quietExtended => { k with quietExtended := v }
  | .quietExpired => { k with quietExpired := v }
  | .quietEnded => { k with quietEnded := v }
  | .quietOverrides => { k with quietOverrides := v }
  | .faultEvents => { k with faultEvents := v }
  | .untrackedEvents => { k with untrackedEvents := v }
  | .entriesReplaced => { k with entriesReplaced := v }
  | .rowsSuspect => { k with rowsSuspect := v }
  | .retireRequests => { k with retireRequests := v }
  | .retireBlocked => { k with retireBlocked := v }
  | .entriesRetired => { k with entriesRetired := v }
  | .decayEpochs => { k with decayEpochs := v }
  | .eraseDecisions => { k with eraseDecisions := v }
  | .erasureLimits => { k with erasureLimits := v }
  | .entriesFreedByErasure => { k with entriesFreedByErasure := v }
  | .repairJobsTaken => { k with repairJobsTaken := v }
  | .repairJobsDone => { k with repairJobsDone := v }
  | .repairJobsAborted => { k with repairJobsAborted := v }
  | .retireNoSpare => { k with retireNoSpare := v }
  | .retireQueueFull => { k with retireQueueFull := v }
  | .copyLines => { k with copyLines := v }
  | .writesDoubled => { k with writesDoubled := v }
  | .devicesErased => { k with devicesErased := v }
  | .devicesUnerased => { k with devicesUnerased := v }
  | .hammerCounted => { k with hammerCounted := v }
  | .hammerReplacements => { k with hammerReplacements := v }
  | .hammerTriggers => { k with hammerTriggers := v }
  | .hammerNeighbourJobs => { k with hammerNeighbourJobs := v }
  | .hammerWindows => { k with hammerWindows := v }
  | .recordsPlaced => { k with recordsPlaced := v }
  | .recordsWritten => { k with recordsWritten := v }
  | .recordsLost => { k with recordsLost := v }
  | .alertsSent => { k with alertsSent := v }
  | .maintRequests => { k with maintRequests := v }
  | .maintBusy => { k with maintBusy := v }
  | .maintBadRequest => { k with maintBadRequest := v }
  | .channelClears => { k with channelClears := v }

/-- The counters of each block in the order of its own chapter (R182). -/
def Ctr.ofBlock : Nat → List Ctr
  | 0 => [.framesAccepted, .framesDropped, .notReadyAnswers, .alertsMerged]
  | 1 => [.addressErrors, .drainEntries, .activations, .refreshesIssued, .refreshMissed]
  | 2 => [.writebacksInserted, .writebacksReplaced, .writebacksDropped, .writebacksCancelled, .writebacksForwarded, .rewritesWritten, .poisonMarksWritten]
  | 3 => [.lockFaults]
  | 4 => [.patrolLines, .scrubLinesSkipped, .sweepsAtRisk, .tsqInserted, .tsqMerged, .tsqDropped, .targetedJobsDone, .targetedJobsDiscarded]
  | 5 => [.quietOpened, .quietExtended, .quietExpired, .quietEnded, .quietOverrides]
  | 6 => [.faultEvents, .untrackedEvents, .entriesReplaced, .rowsSuspect, .retireRequests, .retireBlocked, .entriesRetired, .decayEpochs, .eraseDecisions, .erasureLimits, .entriesFreedByErasure]
  | 7 => [.repairJobsTaken, .repairJobsDone, .repairJobsAborted, .retireNoSpare, .retireQueueFull, .copyLines, .writesDoubled, .devicesErased, .devicesUnerased]
  | 8 => [.hammerCounted, .hammerReplacements, .hammerTriggers, .hammerNeighbourJobs, .hammerWindows]
  | 9 => [.recordsPlaced, .recordsWritten, .recordsLost, .alertsSent]
  | 10 => [.maintRequests, .maintBusy, .maintBadRequest, .channelClears]
  | _ => []

/-- A 32-bit count increased by n, saturating (R53, R56). -/
def satAdd (x n : Nat) : Nat := min (x + n) Config.counterMax

/-- One count of a statistics counter. -/
def count (c : Ctr) (s : State) : State :=
  { s with counters := s.counters.put (satAdd (s.counters.get c) 1) c }

/-- n counts of a statistics counter. -/
def countBy (c : Ctr) (n : Nat) (s : State) : State :=
  { s with counters := s.counters.put (satAdd (s.counters.get c) n) c }

/-! ## Time (R196) -/

/-- The signed difference a - b of two elapsed times, modulo 2^48 (R196). -/
def elapsedDiff (a b : Elapsed) : Int := (a - b).toInt

/-- Whether an elapsed time is at or before now. -/
def reached (now t : Elapsed) : Bool := 0 ≤ elapsedDiff now t

/-- Whether an elapsed time a lies before b. -/
def elapsedBefore (a b : Elapsed) : Bool := elapsedDiff a b < 0

/-- The signed difference of two moments, in eightieths of a µs. -/
def fineDiff (a b : FineTime) : Int := elapsedDiff a.us b.us * 80 + a.sub.val - b.sub.val

/-- A moment n eightieths of a µs later; the whole µs wrap at 2^48. -/
def FineTime.later (t : FineTime) (n : Nat) : FineTime :=
  { us := t.us + BitVec.ofNat 48 ((t.sub.val + n) / 80), sub := Fin.ofNat 80 (t.sub.val + n) }

/-- A moment on a whole µs. -/
def onMicrosecond (t : Elapsed) : FineTime := { us := t, sub := 0 }

/-- The elapsed time in whole µs: "now" of every rule that computes in µs (R196). -/
def State.now (s : State) : Elapsed := s.maint.now.us

/-- The wall time (R196). -/
def State.wall (s : State) : BitVec 64 := s.now.setWidth 64 + s.maint.wallOffset

/-- The age at which a kept elapsed time begins to move forward with the elapsed time: 2^46 µs (R196). -/
def staleAge : Nat := 70368744177664

/-- A kept elapsed time as it stands at now: never more than 2^46 µs before it (R196). -/
def keptTime (now t : Elapsed) : Elapsed :=
  if elapsedDiff now t > staleAge then now - BitVec.ofNat 48 staleAge else t

/-- A kept moment as it stands at now (R196). -/
def keptFine (now t : FineTime) : FineTime :=
  if fineDiff now t > staleAge * 80 then { now with us := now.us - BitVec.ofNat 48 staleAge } else t

/-- A sweep with its times kept (R196). -/
def Sweep.keep (now : FineTime) (w : Sweep) : Sweep :=
  { w with due := keptTime now.us w.due, deadline := keptTime now.us w.deadline, nextIssue := keptFine now w.nextIssue }

/-- A region with the times of its status kept (R56, R196). -/
def Region.keep (now : Elapsed) (g : Region) : Region :=
  { g with status := { g.status with due := keptTime now g.status.due, lastStart := keptTime now g.status.lastStart,
                                     lastEnd := keptTime now g.status.lastEnd } }

/-- A row entry with its times kept; a FREE entry holds no time (R111, R196). -/
def FaultEntry.keep (now : Elapsed) (e : FaultEntry) : FaultEntry :=
  if e.state = .free then e
  else { e with firstSeen := keptTime now e.firstSeen, lastSeen := keptTime now e.lastSeen }

/-- The part with its elapsed time at t, every elapsed time it keeps moved as R196 gives (notes/assumptions/22.md). -/
def setNow (t : FineTime) (s : State) : State :=
  { s with
    maint := { s.maint with now := t }
    wbq := s.wbq.map fun e => { e with inserted := keptTime t.us e.inserted }
    regions := s.regions.map (Region.keep t.us)
    patrol := { s.patrol with active := s.patrol.active.map (Sweep.keep t), held := s.patrol.held.map (Sweep.keep t) }
    window := s.window.map fun w =>
      { endTime := keptTime t.us w.endTime, override := w.override.map (keptTime t.us) }
    fault := { s.fault with entries := s.fault.entries.map (FaultEntry.keep t.us),
                            decayEnd := keptTime t.us s.fault.decayEnd }
    hammer := { s.hammer with windowEnd := keptTime t.us s.hammer.windowEnd }
    report := { s.report with ageStart := s.report.ageStart.map (keptTime t.us),
                              holdoffEnd := s.report.holdoffEnd.map (keptTime t.us) }
    port := { s.port with
      openRows := s.port.openRows.map fun p => (p.1, { p.2 with holdEnd := p.2.holdEnd.map (keptTime t.us) })
      refresh := s.port.refresh.map fun r => { timer := r.timer.map (keptFine t), owed := r.owed.map (keptFine t) } } }

/-- The time-driven event of the moment t takes place: the elapsed time becomes t if it was before t
(notes/assumptions/4.md). -/
def arrive (t : FineTime) (s : State) : State :=
  if 0 < fineDiff t s.maint.now then setNow t s else s

/-- One tick of the time base, an eightieth of a µs (R196; notes/assumptions/3.md). -/
def tick (s : State) : State := setNow (s.maint.now.later 1) s

/-! ## Maps with number keys -/

/-- The value at a key. -/
def AMap.get? {α : Type} (m : AMap α) (k : Nat) : Option α :=
  match m with
  | [] => none
  | (j, v) :: m => if j = k then some v else AMap.get? m k

/-- The map without a key. -/
def AMap.erase {α : Type} (m : AMap α) (k : Nat) : AMap α :=
  match m with
  | [] => []
  | (j, v) :: m => if j = k then m else if k < j then (j, v) :: m else (j, v) :: AMap.erase m k

/-- The map with a value at a key, the keys kept in rising order. -/
def AMap.insert {α : Type} (m : AMap α) (k : Nat) (v : α) : AMap α :=
  match m with
  | [] => [(k, v)]
  | (j, w) :: m => if j = k then (k, v) :: m else if k < j then (k, v) :: (j, w) :: m else (j, w) :: AMap.insert m k v

/-- The keys rise strictly. -/
def AMap.rising {α : Type} : AMap α → Bool
  | [] => true
  | [_] => true
  | (j, _) :: (k, w) :: m => decide (j < k) && AMap.rising ((k, w) :: m)

/-! ## The DRAM as last written (R5) -/

/-- What a line that was never written stands as: the all-zero line, whose every codeword is the all-zero codeword
(R2); a decode's damage may be any set of bits, so nothing is claimed of what arrives (notes/assumptions/7.md). -/
def unwritten : Line := 0

/-- A line of DRAM as last written. -/
def dramRead (m : AMap Line) (place : Nat) : Line := (AMap.get? m place).getD unwritten

/-- A line of DRAM written; the map lists no line equal to what an unlisted one stands as. -/
def dramWrite (m : AMap Line) (place : Nat) (v : Line) : AMap Line :=
  if v = unwritten then AMap.erase m place else AMap.insert m place v

/-- The canonical form: keys rise strictly and no listed line equals what an unlisted one stands as. -/
def dramWf (m : AMap Line) : Bool := AMap.rising m && m.all fun p => p.2 != unwritten

/-- The number of a place of the DRAM: rank, bank, physical row (below 2^17) and column (below 2^8). -/
def placeOf (rank bank row col : Nat) : Nat := ((rank * 16 + bank) * 131072 + row) * 256 + col

/-! ## Geometry and address mapping (R19, R22) -/

/-- Lines in a row: 2^c. -/
def Geometry.columns (g : Geometry) : Nat := 2 ^ g.colExp

/-- Physical rows of a bank: 2^r. -/
def Geometry.rows (g : Geometry) : Nat := 2 ^ g.rowBits

/-- Visible rows V = 2^r - S. -/
def Geometry.visible (g : Geometry) : Nat := g.rows - g.spares

/-- The number of valid line addresses. -/
def Geometry.capacity (g : Geometry) : Nat := g.ranks * 16 * g.visible * g.columns

/-- The capacity in force: none while the geometry-set flag is clear (R19). -/
def State.capacity (s : State) : Nat := if s.port.geomSet then s.port.geom.capacity else 0

/-- The four values lie within the allowed values of R19. -/
def Geometry.allowed (g : Geometry) : Bool :=
  (g.ranks == 1 || g.ranks == 2 || g.ranks == 4) && (14 ≤ g.rowBits && g.rowBits ≤ 17) &&
  (5 ≤ g.colExp && g.colExp ≤ 8) && (g.spares == 0 || g.spares == 8 || g.spares == 16 || g.spares == 32)

/-- The column of a line address (R22). -/
def Geometry.colOf (g : Geometry) (line : Nat) : Nat := line % g.columns

/-- The bank of a line address (R22). -/
def Geometry.bankOf (g : Geometry) (line : Nat) : Nat := line / g.columns % 16

/-- The rank of a line address (R22). -/
def Geometry.rankOf (g : Geometry) (line : Nat) : Nat := line / (g.columns * 16) % g.ranks

/-- The logical row of a line address (R22). -/
def Geometry.logicalOf (g : Geometry) (line : Nat) : Nat := line / (g.columns * 16 * g.ranks)

/-- The line address of a place (R95, R141). -/
def Geometry.lineOf (g : Geometry) (rank bank logical col : Nat) : Nat :=
  ((logical * g.ranks + rank) * 16 + bank) * g.columns + col

/-- The key of a bank in the map of open rows. -/
def bankKey (rank bank : Nat) : Nat := rank * 16 + bank

/-! ## The Remap Table's two answers (R134, R136) -/

/-- The key of a spare slot. -/
def slotKey (rank bank k : Nat) : Nat := bankKey rank bank * 32 + k

/-- A slot of the Remap Table; a slot not listed is FREE. -/
def slotAt (s : State) (rank bank k : Nat) : Slot := (AMap.get? s.repair.slots (slotKey rank bank k)).getD .free

/-- A slot takes a state; FREE slots are not listed. -/
def setSlot (rank bank k : Nat) (v : Slot) (s : State) : State :=
  { s with repair.slots :=
      if v = .free then AMap.erase s.repair.slots (slotKey rank bank k)
      else AMap.insert s.repair.slots (slotKey rank bank k) v }

/-- The slot numbers of a bank. -/
def slotNumbers (s : State) : List Nat := List.range s.port.geom.spares

/-- The physical row of a slot: V + k (R134). -/
def spareRow (s : State) (k : Nat) : Nat := s.port.geom.visible + k

/-- The ACTIVE slot that names a logical row, if any. -/
def activeSlotOf (s : State) (rank bank logical : Nat) : Option Nat :=
  (slotNumbers s).find? fun k => slotAt s rank bank k == .active logical

/-- The lowest-numbered FREE slot of a bank (R138). -/
def freeSlotOf (s : State) (rank bank : Nat) : Option Nat :=
  (slotNumbers s).find? fun k => slotAt s rank bank k == .free

/-- Where a logical row is served: the first answer of R136. -/
def servedRow (s : State) (rank bank logical : Nat) : Nat :=
  match activeSlotOf s rank bank logical with
  | some k => spareRow s k
  | none => logical

/-- The logical row a slot's target stands for: the row it names, or the row its source slot names (R136). -/
def targetRow (s : State) (rank bank : Nat) : SlotTarget → Option Nat
  | .row l => some l
  | .move k => match slotAt s rank bank k with
    | .active l => some l
    | _ => none

/-- Which logical row a slot names, a move target's being that of its source slot (R136). -/
def slotLogical (s : State) (rank bank k : Nat) : Option Nat :=
  match slotAt s rank bank k with
  | .reserved t => targetRow s rank bank t
  | .copying t _ => targetRow s rank bank t
  | .active l => some l
  | .free => none
  | .dead => none

/-- Which logical row a physical row holds: the second answer of R136. -/
def heldRow (s : State) (rank bank row : Nat) : Option Nat :=
  if row < s.port.geom.visible then some row
  else if row - s.port.geom.visible < s.port.geom.spares then slotLogical s rank bank (row - s.port.geom.visible)
  else none

/-- Whether a physical row serves its logical row (R136). -/
def serves (s : State) (rank bank row : Nat) : Bool :=
  match heldRow s rank bank row with
  | some l => servedRow s rank bank l == row
  | none => false

/-- The running copy of a logical row: its target slot and its cursor (R142). -/
def copyOf (s : State) (rank bank logical : Nat) : Option (Nat × Nat) :=
  (slotNumbers s).findSome? fun k =>
    match slotAt s rank bank k with
    | .copying t cursor => if targetRow s rank bank t = some logical then some (k, cursor) else none
    | _ => none

/-! ## Regions (R55) -/

/-- Whether a region entry holds a line address (R55). -/
def RegionEntry.holds (e : RegionEntry) (line : Nat) : Bool := e.valid && e.base ≤ line && line < e.base + e.length

/-- The valid region that holds a line address, or none (R55). -/
def regionOf (s : State) (line : Nat) : Option Nat := s.regions.findIdx? fun g => g.entry.holds line

/-- A region; out of range it reads as an entry never loaded. -/
def regionAt (s : State) (i : Nat) : Region := s.regions.getD i {}

/-- A region replaced. -/
def setRegion (i : Nat) (g : Region) (s : State) : State := { s with regions := s.regions.set i g }

/-- A region's sweep state changed (R57). -/
def setSweepState (i : Nat) (v : SweepState) (s : State) : State :=
  setRegion i { regionAt s i with status.state := v } s

/-- Whether a region, if any, is of class CRITICAL (R67). -/
def isCritical (s : State) (region : Option Nat) : Bool :=
  match region with
  | some i => (regionAt s i).entry.cls == .critical
  | none => false

/-! ## Tags and the return queue (R186, R189) -/

/-- Whether a tag is in use (R186). -/
def tagInUse (s : State) (tag : Nat) : Bool := s.link.tags.getLsbD tag

/-- A tag comes into use (R186). -/
def useTag (tag : Nat) (s : State) : State :=
  { s with link.tags := s.link.tags ||| BitVec.ofNat 64 (2 ^ tag) }

/-- A tag becomes free (R186). -/
def freeTag (tag : Nat) (s : State) : State :=
  { s with link.tags := s.link.tags &&& ~~~(BitVec.ofNat 64 (2 ^ tag)) }

/-- A return frame is handed to the Link Interface and enters the tail of the return queue (R189). -/
def handReturn (f : ReturnFrame) (s : State) : State := { s with link.returns := s.link.returns ++ [f] }

/-- The tagged return of a demand access: suppressed while a channel clear is in progress, its tag then becoming free
(R18, R198). -/
def handDemandReturn (tag : Nat) (f : ReturnFrame) (s : State) : State :=
  if s.maint.clearing then freeTag tag s else handReturn f s

/-! ## Accesses in the DRAM Port (R25, R26) -/

/-- An access is taken: it enters line order behind every access taken before it (R26). -/
def takeAccess (line : Nat) (kind : AccessKind) (phase : Phase) (s : State) : State :=
  { s with port.accesses := s.port.accesses ++ [{ line := line, kind := kind, phase := phase }] }

/-- The line-order list of a line (R26). -/
def lineList (s : State) (line : Nat) : List Access := s.port.accesses.filter fun a => a.line == line

/-- A demand write or masked write of R27, R28 and R32. -/
def AccessKind.isDemandWrite : AccessKind → Bool
  | .demandWrite _ _ => true
  | .maskedWrite _ _ _ _ => true
  | _ => false

/-- A report record write. -/
def AccessKind.isRecordWrite : AccessKind → Bool
  | .recordWrite _ _ => true
  | _ => false

/-- The copy accesses. -/
def AccessKind.isCopy : AccessKind → Bool
  | .copyRead => true
  | .copyWrite _ _ _ => true
  | _ => false

/-- The demand queue (R25): the demand requests taken and not yet finished, in order of taking. -/
def demandQueue (s : State) : List Access :=
  s.port.accesses.filter fun a =>
    match a.kind with
    | .demandRead _ => true
    | k => k.isDemandWrite

/-- The drain count (R32). -/
def drainCount (s : State) : Nat := s.port.accesses.countP fun a => a.kind.isDemandWrite

/-- The write-drain condition after a write is taken or performed (R32). -/
def reviewDrain (s : State) : State :=
  if 24 ≤ drainCount s then
    if s.port.drain then s else count .drainEntries { s with port.drain := true }
  else if drainCount s ≤ 16 then { s with port.drain := false }
  else s

/-- The entry of the Write-back Queue for a line (R51). -/
def wbFind (s : State) (line : Nat) : Option WbEntry := s.wbq.find? fun e => e.line == line

/-- The entry a READ, a masked write or a copy read of the line is forwarded from (R28): the queue holds one, and the
line-order list holds no demand write, masked write or report record write. -/
def forwardEntry (s : State) (line : Nat) : Option WbEntry :=
  if (lineList s line).any fun a => a.kind.isDemandWrite || a.kind.isRecordWrite then none else wbFind s line

/-- The form an entry's data are written in (R41). -/
def WbKind.form : WbKind → Form
  | .rewrite => .fresh
  | .poison => .poison

/-- The entry of a line leaves the queue, and its write leaves line order (R49, R50). -/
def wbRemove (line : Nat) (s : State) : State :=
  { s with wbq := s.wbq.filter fun e => e.line != line
           port.accesses := s.port.accesses.filter fun a => !(a.line == line && a.kind == .writeBack) }

/-- A pending write-back of a line is cancelled by a write that makes it obsolete, unless it has been granted
(R49, R50). -/
def wbCancel (line : Nat) (s : State) : State :=
  match wbFind s line with
  | some e => if e.granted then s else count .writebacksCancelled (wbRemove line s)
  | none => s

/-! ## Tables -/

/-- A row entry of the Fault Table; out of range it reads as FREE. -/
def faultAt (s : State) (i : Nat) : FaultEntry := s.fault.entries.getD i {}

/-- A row entry replaced. -/
def setFault (i : Nat) (e : FaultEntry) (s : State) : State := { s with fault.entries := s.fault.entries.set i e }

/-- The element of the device score array for a device of a rank (R113). -/
def deviceAt (s : State) (rank device : Nat) : DeviceScore := s.fault.devices.getD (rank * 20 + device) {}

/-- An element of the device score array replaced. -/
def setDevice (rank device : Nat) (d : DeviceScore) (s : State) : State :=
  { s with fault.devices := s.fault.devices.set (rank * 20 + device) d }

/-- A rank's erasure set (R151). -/
def erasureSet (s : State) (rank : Nat) : List Nat := s.repair.erasures.getD rank []

/-- Whether a device is erased. -/
def isErased (s : State) (rank device : Nat) : Bool := (erasureSet s rank).contains device

/-- Whether a quiet window is open. -/
def State.quiet (s : State) : Bool := s.window.isSome

/-- The set-up ring's size in records: 2^size (R168). -/
def State.ringSize (s : State) : Nat := 2 ^ s.report.sizeExp

end Sys2Proof.Machine
end

