-- ==== Sys2Proof/Machine/Flags.lean ====
section
/-! DEFINITION. The causes and the alerts: raising a cause, the test for a due alert, the alert frame and its place in
the return queue (R177, R180, R190), and the announcing of written records (R179). -/

namespace Sys2Proof.Machine

open Sys2Proof

/-- The bit of a cause in a cause word (R177). -/
def Cause.bit : Cause → Nat
  | .recordsReady => 0
  | .uncorrectable => 1
  | .criticalUncorrectable => 2
  | .overrun => 3
  | .sweepAtRisk => 4
  | .sweepLate => 5
  | .stagedEmpty => 6
  | .quietOverridden => 7
  | .rowRetired => 8
  | .sparesExhausted => 9
  | .deviceErased => 10
  | .erasureLimit => 11
  | .tsqDropped => 12
  | .lockFault => 13
  | .frameError => 14
  | .software => 15

/-- The set that holds one cause (R177). -/
def Cause.mark (c : Cause) : BitVec 16 := BitVec.ofNat 16 (2 ^ c.bit)

/-- The causes an alert is due for: pending, not masked out and not alerted (R180). -/
def dueCauses (s : State) : BitVec 16 := s.report.pending &&& ~~~s.report.mask &&& ~~~s.report.alerted

/-- Whether a frame is an ALERT. -/
def ReturnFrame.isAlert : ReturnFrame → Bool
  | .alert _ _ => true
  | _ => false

/-- How many frames of the return queue have begun to be sent: its head, or none (R189, R190). -/
def Link.underWay (l : Link) : Nat := l.begun.toNat

/-- The frames of the return queue that have not begun to be sent (R189, R190). -/
def Link.waiting (l : Link) : List ReturnFrame := l.returns.drop l.underWay

/-- An ALERT frame is handed to the Link Interface: it takes the place of an ALERT waiting in the queue and not yet
begun, or else enters the tail (R190; notes/assumptions/11.md). -/
def handAlert (f : ReturnFrame) (s : State) : State :=
  if s.link.waiting.any ReturnFrame.isAlert then
    let merged := s.link.returns.take s.link.underWay ++ s.link.waiting.map fun g => if g.isAlert then f else g
    count .alertsMerged { s with link.returns := merged }
  else handReturn f s

/-- Sending an alert: every cause pending and not masked out goes into the frame and is marked alerted, and the holdoff
starts, or restarts, unless `alert_holdoff` is 0 (R180). -/
def sendAlert (s : State) : State :=
  let sent := s.report.pending &&& ~~~s.report.mask
  let s := handAlert (.alert sent s.wall) s
  count .alertsSent
    { s with report := { s.report with
        alerted := s.report.alerted ||| sent
        holdoffEnd := if s.params.alertHoldoff = 0 then none
                      else some (s.now + BitVec.ofNat 48 s.params.alertHoldoff) } }

/-- The causes for which an alert does not wait for the holdoff (R180). -/
def urgentCauses : BitVec 16 := Cause.criticalUncorrectable.mark ||| Cause.quietOverridden.mark

/-- The test for a due alert (R180). -/
def testAlert (s : State) : State :=
  if dueCauses s = 0 then s
  else if s.report.holdoffEnd.isNone || (dueCauses s &&& urgentCauses) != 0 then sendAlert s
  else s

/-- A set of causes becomes pending, and the test for a due alert is made (R177, R178, R180). -/
def raiseSet (causes : BitVec 16) (s : State) : State :=
  testAlert { s with report.pending := s.report.pending ||| causes }

/-- A cause is raised (R177). -/
def raise (c : Cause) (s : State) : State := raiseSet c.mark s

/-- RECORDS_READY is raised and the unannounced count returns to 0 with the age timer stopped (R179). -/
def announce (s : State) : State :=
  raise .recordsReady { s with report := { s.report with unannounced := 0, ageStart := none } }

/-- One record counted as written is added to the unannounced count (R179). The age timer starts at the moment of the
counting, also for a record performed before (notes/assumptions/49.md). With `ready_age` 0 it has reached its age at
once. -/
def addUnannounced (s : State) : State :=
  let s := { s with report := { s.report with
    unannounced := s.report.unannounced + 1
    ageStart := if s.report.unannounced = 0 then some s.now else s.report.ageStart } }
  if s.params.readyCount ≤ s.report.unannounced || s.params.readyAge == 0 then announce s else s

/-- The review of a change of `ready_count` (R179). -/
def reviewReadyCount (s : State) : State :=
  if 0 < s.report.unannounced && s.params.readyCount ≤ s.report.unannounced then announce s else s

/-- The review of a change of `ready_age` (R179). -/
def reviewReadyAge (s : State) : State :=
  match s.report.ageStart with
  | some t => if reached s.now (t + BitVec.ofNat 48 s.params.readyAge) then announce s else s
  | none => s

end Sys2Proof.Machine
end

