-- ==== Sys2Proof/Machine/Operands.lean ====
section
/-! DEFINITION. The three formats: the channel link frames with their check (R183, R184), the report record (R175,
R176), and the words of maintenance arguments and results (R193, R194). -/

namespace Sys2Proof.Machine

open Sys2Proof

/-! ## The check of a frame (R184) -/

/-- One bit of the cyclic redundancy check: polynomial 1021h, most significant bit first. -/
def crcShift (r : BitVec 16) : Nat → BitVec 16
  | 0 => r
  | n + 1 => crcShift (if r.getLsbD 15 then (r <<< 1) ^^^ 0x1021#16 else r <<< 1) n

/-- The register after one more byte. -/
def crcByte (r : BitVec 16) (b : Byte) : BitVec 16 := crcShift (r ^^^ (b.setWidth 16 <<< 8)) 8

/-- The check of a run of bytes: the register starts at FFFFh and its final value is used without inversion (R184). -/
def crc16 (bytes : List Byte) : BitVec 16 := bytes.foldl crcByte 0xFFFF#16

/-- A frame with its check, carried low byte first (R184). -/
def sealFrame (body : List Byte) : List Byte := body ++ leBytes (crc16 body).toNat 2

/-! ## Command frames (R183) -/

/-- The bytes of an IDLE command frame before its check. -/
def idleBody (byte1 byte2 byte3 : Byte) : List Byte := [0, byte1, byte2, byte3]

/-- The bytes of a READ command frame before its check. -/
def readBody (tag byte2 byte3 : Byte) (line : BitVec 64) : List Byte :=
  [1, tag, byte2, byte3] ++ leBytes line.toNat 8

/-- The bytes of a WRITE command frame before its check. -/
def writeBody (tag flags byte3 : Byte) (line : BitVec 64) (data : Data) : List Byte :=
  [2, tag, flags, byte3] ++ leBytes line.toNat 8 ++ leBytes data.toNat 64

/-- The bytes of a WRITE_MASKED command frame before its check. -/
def writeMaskedBody (tag flags byte3 : Byte) (line : BitVec 64) (data : Data) (mask : BitVec 64) : List Byte :=
  [3, tag, flags, byte3] ++ leBytes line.toNat 8 ++ leBytes data.toNat 64 ++ leBytes mask.toNat 8

/-- The bytes of a MAINT command frame before its check; byte 3 is the argument count. -/
def maintBody (tag byte2 : Byte) (code pad : BitVec 16) (args : List Word32) : List Byte :=
  [4, tag, byte2, BitVec.ofNat 8 args.length] ++ leBytes code.toNat 2 ++ leBytes pad.toNat 2 ++
    args.flatMap fun w => leBytes w.toNat 4

/-- A frame is discarded: no access, no return frame, `frames_dropped` counted and FRAME_ERROR raised (R185). -/
def discardFrame (s : State) : State := raise .frameError (count .framesDropped s)

/-- A frame that names a tag is discarded when its check differs, when the tag byte is above 63 or the frame is
malformed otherwise, or when the tag is in use (cases 1, 2 and 4 of R185). -/
def frameRefused (body : List Byte) (check : BitVec 16) (tag : Byte) (malformed : Bool) (s : State) : Bool :=
  check != crc16 body || (63 < tag.toNat || malformed) || tagInUse s tag.toNat

/-- A frame that names a tag is accepted: its tag comes into use and `frames_accepted` is counted (R186, R187). -/
def acceptFrame (tag : Byte) (s : State) : State := count .framesAccepted (useTag tag.toNat s)

/-- The permit flag of a write: bit 0 of byte 2 (R183). -/
def permitOf (flags : Byte) : Bool := flags.getLsbD 0

/-! ## Return frames (R183) -/

/-- The code of a DATA outcome (R183). -/
def DataOutcome.code : DataOutcome → Nat
  | .clean => 0
  | .corrected => 1
  | .poisoned => 2
  | .addressError => 3
  | .notReady => 4

/-- The code of an ACK status (R183). -/
def AckStatus.code : AckStatus → Nat
  | .ok => 0
  | .poisonedMerge => 1
  | .lockFault => 2
  | .addressError => 3
  | .notReady => 4

/-- The code of a maintenance status (R193). -/
def Status.code : Status → Nat
  | .ok => 0
  | .busy => 1
  | .badRequest => 2
  | .badArgument => 3
  | .overlap => 4
  | .noSpare => 5
  | .limit => 6
  | .notConfigured => 7

/-- A number as one byte of a header. -/
def oneByte (n : Nat) : Byte := BitVec.ofNat 8 n

/-- The bytes of a return frame before its check (R183). -/
def ReturnFrame.body : ReturnFrame → List Byte
  | .data tag outcome bytes => [1, oneByte tag, oneByte outcome.code, 0] ++ leBytes bytes.toNat 64
  | .ack tag status => [2, oneByte tag, oneByte status.code, 0]
  | .maintResp tag status results =>
    [3, oneByte tag, oneByte status.code, oneByte results.length] ++ results.flatMap fun w => leBytes w.toNat 4
  | .alert causes wall => [4, 0, 0, 0] ++ leBytes causes.toNat 4 ++ leBytes wall.toNat 8

/-- The bytes of an IDLE return frame before its check, which the link carries while the return queue is empty
(R183, R189). -/
def idleReturnBody : List Byte := [0, 0, 0, 0]

/-- The tag a return frame frees when it has been sent; an ALERT frees none (R186, R190). -/
def ReturnFrame.tag? : ReturnFrame → Option Nat
  | .data tag _ _ => some tag
  | .ack tag _ => some tag
  | .maintResp tag _ _ => some tag
  | .alert _ _ => none

/-! ## Argument and result words (R193, R194) -/

/-- A number as a result word. -/
def word (n : Nat) : Word32 := BitVec.ofNat 32 n

/-- A flag as a result word. -/
def flagWord (b : Bool) : Word32 := if b then 1 else 0

/-- An elapsed time as two result words, the low word first. -/
def timeWords (t : Elapsed) : List Word32 := [t.setWidth 32, (t >>> 32).setWidth 32]

/-- A 64-bit number as two result words, the low word first. -/
def wideWords (t : BitVec 64) : List Word32 := [t.setWidth 32, (t >>> 32).setWidth 32]

/-- A place that may be none, as a result word: 255 when it is none. -/
def placeWord (p : Option Nat) : Word32 := word (p.getD 255)

/-- An erasure set as one word: its first device in bits 0 to 7, its second in bits 8 to 15, 255 in each place not
filled (R193). -/
def erasureWord (set : List Nat) : Word32 := word (set.getD 0 255 + 256 * set.getD 1 255)

/-- The code of a class (R194). -/
def RegionClass.code : RegionClass → Nat
  | .critical => 0
  | .standard => 1
  | .bulk => 2

/-- The code of an access mode (R194). -/
def AccessMode.code : AccessMode → Nat
  | .single => 0
  | .burst => 1
  | .sustained => 2

/-- The code of a write-back policy (R194). -/
def Policy.code : Policy → Nat
  | .immediate => 0
  | .windowed => 1

/-- The class a field of a REGION_LOAD names (R194). -/
def classOf? : Nat → Option RegionClass
  | 0 => some .critical
  | 1 => some .standard
  | 2 => some .bulk
  | _ => none

/-- The access mode a field of a REGION_LOAD names (R194). -/
def modeOf? : Nat → Option AccessMode
  | 0 => some .single
  | 1 => some .burst
  | 2 => some .sustained
  | _ => none

/-- The place of a sweep state in R193's list. -/
def SweepState.code : SweepState → Nat
  | .idle => 0
  | .staged => 1
  | .active => 2
  | .held => 3

/-- The place of an engine state in R193's list. -/
def EngineState.code : EngineState → Nat
  | .disabled => 0
  | .idle => 1
  | .running => 2
  | .paused => 3
  | .halted => 4

/-- The place of a Fault Table state in R193's list. -/
def FaultState.code : FaultState → Nat
  | .free => 0
  | .observed => 1
  | .suspect => 2
  | .retiring => 3
  | .retired => 4
  | .blocked => 5

/-- The code of a block reason, 0 when absent (R176, R193). -/
def reasonCode : Option BlockReason → Nat
  | none => 0
  | some .noSpare => 1
  | some .queueFull => 2
  | some .autoOff => 3

/-- The small fields of a region, packed as in the sixth word of REGION_LOAD (R194). -/
def packRegion (e : RegionEntry) : Nat :=
  e.patrol.toNat + 2 * e.cls.code + 8 * e.mode.code + 32 * e.policy.code + 64 * e.locked.toNat +
    128 * e.sweepRecords.toNat

/-- The six result words of an accepted REGION_LOAD (R60). -/
def regionLoadWords (i : Nat) (e : RegionEntry) : List Word32 :=
  [word i, word e.base, word e.length, word e.period, word e.burst, word (packRegion e)]

/-- The result list of REGION_READ, in the order of the tables of R54 and R56 (R63). -/
def regionWords (g : Region) : List Word32 :=
  [flagWord g.entry.valid, word g.entry.base, word g.entry.length, flagWord g.entry.patrol, word g.entry.period,
   word g.entry.cls.code, word g.entry.mode.code, word g.entry.burst, word g.entry.policy.code,
   flagWord g.entry.locked, flagWord g.entry.sweepRecords, word g.status.state.code] ++
  timeWords g.status.due ++ timeWords g.status.lastStart ++ timeWords g.status.lastEnd ++
  [word g.status.completed, word g.status.missed, word g.status.late, word g.status.corrected,
   word g.status.uncorrectable]

/-- The result list of FAULT_READ, in the order of R111 (R128). -/
def faultWords (e : FaultEntry) : List Word32 :=
  [word e.state.code, word (reasonCode e.reason), word e.rank, word e.bank, word e.row, word e.score,
   e.devices.setWidth 32, word e.events, word e.uncorrectables] ++
  timeWords e.firstSeen ++ timeWords e.lastSeen ++ [word e.lastCol, word e.lastDevice]

/-- One result word of DEVICE_READ: the score, bit 16 the erased flag, bit 17 the limit-reported flag (R193). -/
def deviceWord (d : DeviceScore) (erased : Bool) : Word32 :=
  word (d.score + 65536 * erased.toNat + 131072 * d.limitReported.toNat)

/-- One slot word of REMAP_READ (R150). -/
def slotWord : Slot → Word32
  | .free => word 0
  | .reserved (.row l) => word (1 + 8192 * l)
  | .reserved (.move k) => word (1 + 8 + 8192 * k)
  | .copying (.row l) cursor => word (2 + 16 * cursor + 8192 * l)
  | .copying (.move k) cursor => word (2 + 8 + 16 * cursor + 8192 * k)
  | .active l => word (3 + 8192 * l)
  | .dead => word 4

/-- The eight words of a result list that a part holds (R193). -/
def partOf (results : List Word32) (part : Nat) : List Word32 := (results.drop (8 * part)).take 8

/-! ## Records (R175, R176) -/

/-- A record as it is handed to the Report Unit. Its sequence number, wall time and critical-class flag are given at its
placing (R170). A field a kind does not use is 0, the region and the device none. -/
structure Record where
  kind : Nat
  source : Nat := 0
  region : Option Nat := none
  poisoned : Bool := false
  line : Nat := 0
  rank : Nat := 0
  bank : Nat := 0
  device : Nat := 255
  bitCount : Nat := 0
  row : Nat := 0
  col : Nat := 0
  score : Nat := 0
  slotOrCount : Nat := 0
  /-- The kind's detail: (offset, bytes, value) of each field from byte 38 on. -/
  detail : List (Nat × Nat × Nat) := []
deriving DecidableEq, Repr

/-- A field of a record: its value, in that many bytes, at that byte (R175). -/
def recordField (offset bytes value : Nat) : Data := BitVec.ofNat 512 (value % 256 ^ bytes * 256 ^ offset)

/-- The 64 bytes of a record (R175). -/
def Record.bytes (r : Record) (sequence : Word32) (wall : BitVec 64) (critical : Bool) : Data :=
  xorAll ([recordField 0 4 sequence.toNat, recordField 4 1 r.kind, recordField 5 1 r.source,
    recordField 6 1 (r.region.getD 255), recordField 7 1 (critical.toNat + 2 * r.poisoned.toNat),
    recordField 8 8 wall.toNat, recordField 16 8 r.line, recordField 24 1 r.rank, recordField 25 1 r.bank,
    recordField 26 1 r.device, recordField 27 1 r.bitCount, recordField 28 4 r.row, recordField 32 2 r.col,
    recordField 34 2 r.score, recordField 36 2 r.slotOrCount] ++
    r.detail.map fun d => recordField d.1 d.2.1 d.2.2)

/-- The code of a source in a record (R175). -/
def Source.code : Source → Nat
  | .demand => 1
  | .rmw => 2
  | .patrol => 3
  | .targeted => 4
  | .repair => 5

/-- The code of a requester in a HAMMER record; those the watch does not count have none (R176). -/
def requesterCode : Option Requester → Nat
  | some .demandRead => 1
  | some .demandWrite => 2
  | some .maskedWrite => 3
  | some .writeBack => 4
  | some .recordWrite => 5
  | _ => 0

/-- The code of an origin in a ROW_RETIRED record (R176). -/
def Origin.code : Origin → Nat
  | .faultTable => 0
  | .requested => 1

end Sys2Proof.Machine
end

