-- ==== Sys2Proof/Machine/Codec.lean ====
section
/-! DEFINITION. The Integrity Codec (chapter 1): encoding, the decoder of a codeword, the poison test and the line
decision, for any line code given by its columns (State.code). -/

namespace Sys2Proof.Machine

open Sys2Proof

/-- The line code: entry 8 i + b is what bit b of data symbol i contributes to the four check symbols, check symbol j
being bits 8 j to 8 j + 7 (R2: systematic, and linear under exclusive-or). -/
abbrev Code := List Word32

/-- What bit b of the symbol of a device contributes to the syndrome: for a data device its column of the code, for
a check device the bit itself (R2). -/
def codeColumn (code : Code) (device b : Nat) : Word32 :=
  if device < 16 then code.getD (8 * device + b) 0 else BitVec.ofNat 32 (2 ^ (8 * (device - 16) + b))

/-- The eight columns of a device. -/
def deviceColumns (code : Code) (device : Nat) : List Word32 := (List.range 8).map (codeColumn code device)

/-- The four check symbols of sixteen data symbols: the exclusive-or of the columns of their set bits (R2). -/
def checkSymbols (code : Code) (data : BitVec 128) : Word32 :=
  xorAll ((List.range 128).map fun n => if data.getLsbD n then codeColumn code (n / 8) (n % 8) else 0)

/-! ## Placement (R1) -/

/-- The symbol of a device in codeword k: byte k of the device. -/
def symbolOf (line : Line) (device k : Nat) : Byte := line.extractLsb' (32 * device + 8 * k) 8

/-- Codeword k of a line (R1). -/
def codewordOf (line : Line) (k : Nat) : Codeword :=
  xorAll ((List.range 20).map fun d => (symbolOf line d k).setWidth 160 <<< (8 * d))

/-- A line whose codeword k is the one given and whose other bytes are 0. -/
def spreadCodeword (w : Codeword) (k : Nat) : Line :=
  xorAll ((List.range 20).map fun d => (w.extractLsb' (8 * d) 8).setWidth 640 <<< (32 * d + 8 * k))

/-- The codeword of sixteen data symbols (R2). -/
def encodeWord (code : Code) (data : BitVec 128) : Codeword :=
  (checkSymbols code data).setWidth 160 <<< 128 ||| data.setWidth 160

/-- The bits of the four check devices. -/
def checkMask : Line := BitVec.ofNat 640 ((2 ^ 128 - 1) * 2 ^ 512)

/-- The bits of one device. -/
def deviceMask (device : Nat) : Line := BitVec.ofNat 640 ((2 ^ 32 - 1) * 2 ^ (32 * device))

/-- The fresh codewords of 64 data bytes (R3). -/
def encodeFresh (code : Code) (data : Data) : Line :=
  xorAll ((List.range 4).map fun k =>
    spreadCodeword (encodeWord code ((codewordOf (data.setWidth 640) k).setWidth 128)) k)

/-- A line as it is written: as fresh codewords, or with every check symbol complemented (R3). -/
def encodeLine (code : Code) (data : Data) : Form → Line
  | .fresh => encodeFresh code data
  | .poison => encodeFresh code data ^^^ checkMask

/-! ## The decoder of one codeword (R5) -/

/-- A vector of a row-reduced basis: its pivot bit, the vector, and which columns it is the exclusive-or of. -/
structure Reduced where
  pivot : Nat
  value : Word32
  columns : Word32
deriving DecidableEq, Repr

/-- A vector reduced by a basis, with the columns taken into it. -/
def reduceBy (basis : List Reduced) (v columns : Word32) : Word32 × Word32 :=
  basis.foldl (fun a r => if a.1.getLsbD r.pivot then (a.1 ^^^ r.value, a.2 ^^^ r.columns) else a) (v, columns)

/-- A column taken into a basis, unless it already lies in its span. -/
def addColumn (basis : List Reduced) (v columns : Word32) : List Reduced :=
  let r := reduceBy basis v columns
  match (List.range 32).find? fun n => r.1.getLsbD n with
  | some p => basis ++ [{ pivot := p, value := r.1, columns := r.2 }]
  | none => basis

/-- The basis of a list of columns, column n being marked by bit n. -/
def basisOf (columns : List Word32) : List Reduced :=
  columns.zipIdx.foldl (fun basis c => addColumn basis c.1 (BitVec.ofNat 32 (2 ^ c.2))) []

/-- A set of columns whose exclusive-or is the target, as a word with bit n for column n, if there is one. -/
def solve (columns : List Word32) (target : Word32) : Option Word32 :=
  let r := reduceBy (basisOf columns) target 0
  if r.1 = 0 then some r.2 else none

/-- The columns of a list of devices, eight for each. -/
def columnsOf (code : Code) (devices : List Nat) : List Word32 := devices.flatMap (deviceColumns code)

/-- The symbols in error that a choice of columns stands for: eight bits for each device of the list. -/
def errorOf (devices : List Nat) (choice : Word32) : Codeword :=
  xorAll (devices.zipIdx.map fun d => (choice.extractLsb' (8 * d.2) 8).setWidth 160 <<< (8 * d.1))

/-- What the decoder finds in one codeword (R5): the codeword consistent, with the error of its erased symbols; one
located symbol, with the error of that symbol and of the erased ones; or no consistent correction. -/
inductive WordResult where
  | consistent (error : Codeword)
  | located (device : Nat) (error : Codeword)
  | failed
deriving DecidableEq, Repr

/-- The syndrome of a codeword as read: the check symbols of its data symbols against those it carries. -/
def syndrome (code : Code) (w : Codeword) : Word32 := checkSymbols code (w.setWidth 128) ^^^ w.extractLsb' 128 32

/-- A consistent correction of the symbols of the devices given, if there is one (R5). -/
def correctAt (code : Code) (devices : List Nat) (w : Codeword) : Option Codeword :=
  (solve (columnsOf code devices) (syndrome code w)).map (errorOf devices)

/-- The decoder of one codeword: erased symbols are rebuilt, and at most one further symbol is located, none when two
devices are erased (R5). -/
def decodeWord (code : Code) (erased : List Nat) (w : Codeword) : WordResult :=
  match correctAt code erased w with
  | some e => .consistent e
  | none =>
    if erased.length ≤ 1 then
      match ((List.range 20).filter fun d => !erased.contains d).findSome? fun d =>
          (correctAt code (d :: erased) w).map fun e => (d, e) with
      | some (d, e) => .located d e
      | none => .failed
    else .failed

/-! ## The line decision (R5, R6, R8) -/

/-- What the four codewords of a line give: whether one failed, the located set, and the error of the whole line. -/
structure LineResult where
  failed : Bool
  located : List Nat
  error : Line
deriving DecidableEq, Repr

/-- The located device of a codeword's result. -/
def WordResult.device? : WordResult → Option Nat
  | .located d _ => some d
  | _ => none

/-- The error of a codeword's result. -/
def WordResult.error : WordResult → Codeword
  | .consistent e => e
  | .located _ e => e
  | .failed => 0

/-- The decoder run on the four codewords of a line; the located set is the union over them (R5). -/
def decodeWords (code : Code) (erased : List Nat) (line : Line) : LineResult :=
  let results := (List.range 4).map fun k => decodeWord code erased (codewordOf line k)
  { failed := results.contains .failed
    located := (results.filterMap WordResult.device?).eraseDups
    error := xorAll (results.zipIdx.map fun r => spreadCodeword r.1.error r.2) }

/-- The outcome of a decode: the data delivered, and the one located device with its bit count (R6, R9, R10). -/
structure Decoded where
  outcome : Outcome
  data : Data
  located : Option (Nat × Nat)
deriving DecidableEq, Repr

/-- The bits in which a located device as read differs from it as corrected (R10). -/
def bitCountOf (error : Line) (device : Nat) : Nat := countOnes (error.extractLsb' (32 * device) 32).toNat 32

/-- The complemented view of a line: each check symbol of each non-erased check device complemented (R8). -/
def complementedView (erased : List Nat) (line : Line) : Line :=
  line ^^^ xorAll (([16, 17, 18, 19].filter fun d => !erased.contains d).map deviceMask)

/-- The correction reach of a rank (R5): one device, or none when two are erased. -/
def reachOf (erased : List Nat) : Nat := if erased.length ≤ 1 then 1 else 0

/-- The ordinary decode (R6). -/
def ordinaryDecode (code : Code) (erased : List Nat) (line : Line) : Decoded :=
  let r := decodeWords code erased line
  if r.failed || reachOf erased < r.located.length then
    { outcome := .uncorrectable, data := line.setWidth 512, located := none }
  else
    match r.located with
    | [] => { outcome := .clean, data := (line ^^^ r.error).setWidth 512, located := none }
    | d :: _ =>
      { outcome := .corrected, data := (line ^^^ r.error).setWidth 512, located := some (d, bitCountOf r.error d) }

/-- The poison test (R8, R9): the decode of the complemented view, when it decides the line. -/
def poisonTest (code : Code) (erased : List Nat) (line : Line) : Option Decoded :=
  let view := complementedView erased line
  let r := decodeWords code erased view
  if r.failed then none
  else
    match r.located with
    | [] => some { outcome := .poisoned, data := (view ^^^ r.error).setWidth 512, located := none }
    | [d] =>
      if erased.length ≤ 1 then
        some { outcome := .poisoned, data := (view ^^^ r.error).setWidth 512, located := some (d, bitCountOf r.error d) }
      else none
    | _ => none

/-- The decode of a line as read, with the erasure set of its rank: the poison test first, then the ordinary decode
(R4, R6, R8). -/
def decodeLine (code : Code) (erased : List Nat) (line : Line) : Decoded :=
  (poisonTest code erased line).getD (ordinaryDecode code erased line)

/-! ## The properties of the line code (R2) -/

/-- The number of symbol positions in which a word is not 0. -/
def symbolWeight (w : Codeword) : Nat := (List.range 20).countP fun d => w.extractLsb' (8 * d) 8 != 0

/-- The poison pattern: data symbols all zero, check symbols all FFh (R2). -/
def poisonPattern : Codeword := BitVec.ofNat 160 ((2 ^ 32 - 1) * 2 ^ 128)

/-- R2's properties of the line code that its columns do not have by their form: any two different codewords differ in
at least five symbol positions, and every codeword differs from the poison pattern in at least four. -/
def CodeLaws (code : Code) : Prop :=
  (∀ a b : BitVec 128, a ≠ b → 5 ≤ symbolWeight (encodeWord code a ^^^ encodeWord code b)) ∧
  (∀ a : BitVec 128, 4 ≤ symbolWeight (encodeWord code a ^^^ poisonPattern))

end Sys2Proof.Machine
end

