-- ==== Sys2Proof/Machine/Report.lean ====
section
/-! DEFINITION. The Report Unit's ring: placing and losing records (R169 to R172), the writing of records counted in
order (R171), and the ring's setup discarded (R169). -/

namespace Sys2Proof.Machine

open Sys2Proof

/-- Whether a record handed on now is placed: overrun off, the ring not full, and fewer than 8 records in the record
write queue (R170). -/
def canPlace (s : State) : Bool :=
  !s.report.overrun && (s.report.produced - s.report.consumed).toNat < s.ringSize &&
    (s.report.produced - s.report.written).toNat < Config.recordCapacity

/-- The ring line of a sequence number: base + (n mod 2^size) (R170, R171). -/
def ringLine (s : State) (sequence : Word32) : Nat := s.report.base + sequence.toNat % s.ringSize

/-- A record is placed: it takes sequence number P and the wall time, its write is taken by the DRAM Port, a
Write-back Queue entry of the line not granted is removed, and P rises by 1 (R170, R171, R50). -/
def placeRecord (r : Record) (s : State) : State :=
  let n := s.report.produced
  let line := ringLine s n
  let bytes := r.bytes n s.wall (isCritical s r.region)
  let s := { s with report := { s.report with produced := n + 1
                                              queue := s.report.queue ++ [{ sequence := n, performed := false }] } }
  count .recordsPlaced (takeAccess line (.recordWrite n bytes) .waiting (wbCancel line s))

/-- A record is lost: the lost count and `records_lost` rise, overrun turns on and OVERRUN is raised (R172). -/
def loseRecord (s : State) : State :=
  raise .overrun (count .recordsLost
    { s with report := { s.report with lost := satAdd s.report.lost 1, overrun := true } })

/-- A record is handed to the Report Unit: discarded before any setup, placed, or lost (R169, R170, R172). -/
def handRecord (r : Record) (s : State) : State :=
  if s.report.setUp then if canPlace s then placeRecord r s else loseRecord s else s

/-- The oldest records of the queue that have been performed leave it in order, W rising with each (R171). -/
def countWritten : List QueuedRecord → State → State
  | [], s => { s with report.queue := [] }
  | q :: rest, s =>
    if q.performed then
      countWritten rest
        (addUnannounced (count .recordsWritten { s with report := { s.report with written := s.report.written + 1 } }))
    else { s with report.queue := q :: rest }

/-- A record's write has been performed (R171). -/
def recordPerformed (sequence : Word32) (s : State) : State :=
  countWritten (s.report.queue.map fun q => if q.sequence = sequence then { q with performed := true } else q) s

/-- The ring's counts return to 0 with overrun off and RECORDS_READY's count and timer stopped (R168, R169). -/
def resetRing (s : State) : State :=
  { s with report := { s.report with produced := 0, written := 0, consumed := 0, lost := 0, overrun := false
                                     queue := [], unannounced := 0, ageStart := none } }

end Sys2Proof.Machine
end

