-- ==== Sys2Proof/Machine/Repair.lean ====
section
/-! DEFINITION. The Repair Engine (chapter 8): retire requests and jobs taken (R138, R139), the row copy (R140, R141,
R144, R145, R146), the abort by channel clear (R147), and the erasure sets (R151 to R154), with what the Fault Table
does when it is told of them (R123, R127). -/

namespace Sys2Proof.Machine

open Sys2Proof

/-- The non-FREE row entry that describes a physical row, if any (R111, R115). -/
def faultFind (s : State) (rank bank row : Nat) : Option Nat :=
  s.fault.entries.findIdx? fun e => e.state != .free && e.rank == rank && e.bank == bank && e.row == row

/-- The row entry that describes a physical row changed, if there is one. -/
def faultModify (rank bank row : Nat) (f : FaultEntry → FaultEntry) (s : State) : State :=
  match faultFind s rank bank row with
  | some i => setFault i (f (faultAt s i)) s
  | none => s

/-- The Fault Table is told that a job was taken: the entry of the source row becomes RETIRING (R123). -/
def faultJobTaken (rank bank row : Nat) (s : State) : State :=
  faultModify rank bank row (fun e => { e with state := .retiring, reason := none }) s

/-- The Fault Table is told that a copy has completed: the entry of the source row becomes RETIRED (R123). -/
def faultJobDone (rank bank row : Nat) (s : State) : State :=
  match faultFind s rank bank row with
  | some i => count .entriesRetired (setFault i { faultAt s i with state := .retired, reason := none } s)
  | none => s

/-- The Fault Table is told that a job was aborted: a RETIRING entry of the source row becomes SUSPECT (R123). -/
def faultJobAborted (rank bank row : Nat) (s : State) : State :=
  faultModify rank bank row (fun e => if e.state = .retiring then { e with state := .suspect } else e) s

/-! ## The row copy -/

/-- Whether a copy pair, or what is left of one, is in line order. -/
def pairOutstanding (s : State) : Bool := s.port.accesses.any fun a => a.kind.isCopy

/-- The head of the repair queue with its counts changed. -/
def setRunningJob (j : Job) (s : State) : State :=
  match s.repair.jobs with
  | _ :: rest => { s with repair.jobs := j :: rest }
  | [] => s

/-- The copy pair of the running job's column at the cursor is taken: forwarded from a Write-back Queue entry of the
line under the conditions of R28, or else as a read with the write directly behind it (R141, R29). -/
def takePair (s : State) : State :=
  match s.repair.jobs with
  | [] => s
  | j :: _ =>
    match slotAt s j.rank j.bank j.target with
    | .copying _ cursor =>
      let line := s.port.geom.lineOf j.rank j.bank j.logical cursor
      let row := spareRow s j.target
      match forwardEntry s line with
      | some e =>
        count .writebacksForwarded
          (setRunningJob { j with taken := j.taken + 1 }
            (takeAccess line (.copyWrite row (some (e.data, e.kind.form)) true) .waiting s))
      | none => takeAccess line (.copyWrite row none false) .waiting (takeAccess line .copyRead .waiting s)
    | _ => s

/-- The running copy takes its next pair, unless a window is open or its pair is still in line order (R141, R144). -/
def resumeCopy (s : State) : State := if s.quiet || pairOutstanding s then s else takePair s

/-- The oldest job starts: its target slot becomes COPYING with cursor 0, and the pair of column 0 is taken unless a
window is open (R140). -/
def startJob (s : State) : State :=
  match s.repair.jobs with
  | [] => s
  | j :: _ =>
    match slotAt s j.rank j.bank j.target with
    | .reserved t => resumeCopy (setSlot j.rank j.bank j.target (.copying t 0) s)
    | _ => s

/-- A retirement is taken: the slot is reserved, the job enters the queue, the Fault Table is told, and the job starts
if the queue was empty (R138, R140). -/
def takeJob (rank bank logical k : Nat) (origin : Origin) (s : State) : State :=
  let target := match activeSlotOf s rank bank logical with
    | some source => SlotTarget.move source
    | none => .row logical
  let sourceRow := servedRow s rank bank logical
  let wasEmpty := s.repair.jobs.isEmpty
  let s := setSlot rank bank k (.reserved target) s
  let s := { s with repair.jobs := s.repair.jobs ++
    [{ rank := rank, bank := bank, logical := logical, target := k, sourceRow := sourceRow, origin := origin }] }
  let s := count .repairJobsTaken (faultJobTaken rank bank sourceRow s)
  if wasEmpty then startJob s else s

/-- Whether the repair queue holds a job for a logical row (R137). -/
def hasJob (s : State) (rank bank logical : Nat) : Bool :=
  s.repair.jobs.any fun j => j.rank == rank && j.bank == bank && j.logical == logical

/-- The Repair Engine's answer to a retire request (R138). -/
inductive RetireAnswer where
  | taken | noSpare | queueFull | inProgress | notInService
deriving DecidableEq, Repr

/-- Whether a physical row is a spare whose slot is RESERVED or COPYING (case 2 of R138). -/
def isCopyTarget (s : State) (rank bank row : Nat) : Bool :=
  s.port.geom.visible ≤ row &&
    match slotAt s rank bank (row - s.port.geom.visible) with
    | .reserved _ => true
    | .copying _ _ => true
    | _ => false

/-- A retire request of the Fault Table, answered at once by the first case of R138 that applies. -/
def retireRequest (rank bank row : Nat) (s : State) : RetireAnswer × State :=
  match heldRow s rank bank row with
  | none => (.notInService, s)
  | some logical =>
    if row < s.port.geom.visible && (activeSlotOf s rank bank logical).isSome then (.notInService, s)
    else if isCopyTarget s rank bank row || hasJob s rank bank logical then (.inProgress, s)
    else match freeSlotOf s rank bank with
      | none => (.noSpare, count .retireNoSpare (raise .sparesExhausted s))
      | some k =>
        if Config.repairCapacity ≤ s.repair.jobs.length then (.queueFull, count .retireQueueFull s)
        else (.taken, takeJob rank bank logical k .faultTable s)

/-- The ROW_RETIRED record of a completed copy (R145, R176). -/
def rowRetiredRecord (j : Job) (source : Option Nat) (s : State) : Record :=
  let line := s.port.geom.lineOf j.rank j.bank j.logical 0
  { kind := 6, source := Source.code .repair, region := regionOf s line, line := line, rank := j.rank, bank := j.bank
    row := spareRow s j.target, slotOrCount := j.target
    detail := [(38, 4, j.sourceRow), (42, 1, source.getD 255), (43, 1, j.origin.code), (44, 2, j.clean),
               (46, 2, j.corrected), (48, 2, j.poisoned), (50, 2, j.taken)] }

/-- The source slot of a target that is a move. -/
def SlotTarget.source? : SlotTarget → Option Nat
  | .move k => some k
  | .row _ => none

/-- A copy completes (R145, R146). The record is handed on before its cause is raised, in the order of R145's list.
DESIGN CHOICE (notes/assumptions/50.md). -/
def completeCopy (j : Job) (t : SlotTarget) (s : State) : State :=
  let s := setSlot j.rank j.bank j.target (.active j.logical) s
  let s := match t.source? with
    | some k => setSlot j.rank j.bank k .dead s
    | none => s
  let s := count .repairJobsDone { s with repair.jobs := s.repair.jobs.tail }
  let s := faultJobDone j.rank j.bank j.sourceRow s
  let s := raise .rowRetired (handRecord (rowRetiredRecord j t.source? s) s)
  startJob s

/-- A copy write has been performed: the cursor rises, and the copy completes or its next pair is taken. A write of
a job aborted since then moves nothing (R141, R144, R145, R147). -/
def copyWritten (s : State) : State :=
  match s.repair.jobs with
  | [] => s
  | j :: _ =>
    match slotAt s j.rank j.bank j.target with
    | .copying t cursor =>
      if cursor + 1 < s.port.geom.columns then
        resumeCopy (setSlot j.rank j.bank j.target (.copying t (cursor + 1)) s)
      else completeCopy j t s
    | _ => s

/-- The running job's counts after its copy read was decoded (R141). -/
def countCopied (outcome : Outcome) (s : State) : State :=
  match s.repair.jobs with
  | [] => s
  | j :: _ =>
    setRunningJob (match outcome with
      | .clean => { j with clean := j.clean + 1 }
      | .corrected => { j with corrected := j.corrected + 1 }
      | .uncorrectable => { j with poisoned := j.poisoned + 1 }
      | .poisoned => { j with poisoned := j.poisoned + 1 }) s

/-- One job of the repair queue is aborted: its slot becomes FREE and the Fault Table is told (R147). -/
def abortJob (j : Job) (s : State) : State :=
  count .repairJobsAborted
    (faultJobAborted j.rank j.bank j.sourceRow (setSlot j.rank j.bank j.target .free s))

/-- Every job of the repair queue is aborted (R147). -/
def abortJobs (s : State) : State :=
  { s.repair.jobs.foldl (fun s j => abortJob j s) s with repair.jobs := [] }

/-! ## Device erasure -/

/-- The spread of a device: the non-FREE entries of its rank whose device set holds it (R125). -/
def spreadOf (s : State) (rank device : Nat) : Nat :=
  s.fault.entries.countP fun e => e.state != .free && e.rank == rank && e.devices.getLsbD device

/-- The device set that holds one device. -/
def deviceBit (device : Nat) : BitVec 20 := BitVec.ofNat 20 (2 ^ device)

/-- Whether the erasure of a device frees an entry: its device set was exactly that device, and it is OBSERVED or
SUSPECT (R127). -/
def freedByErasure (rank device : Nat) (e : FaultEntry) : Bool :=
  (e.state == .observed || e.state == .suspect) && e.rank == rank && e.devices == deviceBit device

/-- An entry after the cleanup of an erasure (R127). -/
def cleanedEntry (rank device : Nat) (e : FaultEntry) : FaultEntry :=
  if freedByErasure rank device e then {}
  else if e.state != .free && e.rank == rank then { e with devices := e.devices &&& ~~~deviceBit device } else e

/-- The Fault Table's cleanup when a device is added to an erasure set (R127). -/
def erasureCleanup (rank device : Nat) (s : State) : State :=
  let freed := s.fault.entries.countP (freedByErasure rank device)
  let s := { s with fault.entries := s.fault.entries.map (cleanedEntry rank device) }
  let s := setDevice rank device { deviceAt s rank device with limitReported := false } s
  countBy .entriesFreedByErasure freed s

/-- The DEVICE_ERASED record: score and spread at the addition, and the erasure set after it (R152, R176). -/
def deviceErasedRecord (rank device spread origin : Nat) (s : State) : Record :=
  { kind := 7, rank := rank, device := device, score := (deviceAt s rank device).score, slotOrCount := spread
    detail := [(38, 1, (erasureSet s rank).getD 0 255), (39, 1, (erasureSet s rank).getD 1 255), (40, 1, origin)] }

/-- A device is added to the end of its rank's erasure set; origin is 0 AUTOMATIC or 1 REQUESTED. The record is handed
on with the spread taken before the cleanup, and an automatic erasure raises its cause (R151 to R153, R127). The cause
follows the record, as R153 names them. DESIGN CHOICE (notes/assumptions/50.md). -/
def addErasure (rank device origin : Nat) (s : State) : State :=
  let spread := spreadOf s rank device
  let s := { s with repair.erasures := s.repair.erasures.set rank (erasureSet s rank ++ [device]) }
  let s := handRecord (deviceErasedRecord rank device spread origin s) s
  let s := if origin = 0 then raise .deviceErased s else s
  erasureCleanup rank device (count .devicesErased s)

end Sys2Proof.Machine
end

