-- ==== Sys2Proof/Machine/Patrol.lean ====
section
/-! DEFINITION. The Patrol Engine, the Targeted Scrub Queue and the quiet window (chapters 5 and 6): pace, the opening
and closing of the window, the override, the start and the completion of a sweep, selection, the issue of lines, the
service of targeted jobs, and settle, the immediate actions of the engine that close a command. -/

namespace Sys2Proof.Machine

open Sys2Proof

/-! ## Pace (R73, R74) -/

/-- A region's period in µs (R72). -/
def RegionEntry.periodUs (e : RegionEntry) : Nat := e.period * 100000

/-- The margin of a sweep's region: one eighth of the period (R73). -/
def RegionEntry.margin (e : RegionEntry) : Nat := e.periodUs / 8

/-- The pace and the at-risk flag of a sweep, computed anew (R73). slack is T = deadline - margin - now. -/
def pacedSweep (mode : AccessMode) (minPace : Nat) (slack : Int) (w : Sweep) : Sweep :=
  match mode with
  | .sustained => { w with pace := minPace, atRisk := decide (slack ≤ 0 ∧ 0 < w.remaining) }
  | .single | .burst =>
    if w.remaining = 0 then w
    else if slack ≤ 0 then { w with pace := minPace, atRisk := true }
    else
      let q := slack.toNat * 16 / w.remaining
      if q ≤ minPace then { w with pace := minPace, atRisk := true }
      else if 65536 < q then { w with pace := 65535, atRisk := false }
      else { w with pace := q - 1, atRisk := false }

/-- SWEEP_AT_RISK is raised once for a sweep whose at-risk flag is set (R73). -/
def reportRisk (s : State) : State :=
  match s.patrol.active with
  | some w =>
    if w.atRisk && !w.atRiskReported then
      count .sweepsAtRisk (raise .sweepAtRisk { s with patrol.active := some { w with atRiskReported := true } })
    else s
  | none => s

/-- The time from now to the active sweep's safe point, with a sign: T of R73. -/
def slackOf (s : State) (w : Sweep) : Int :=
  elapsedDiff w.deadline s.now - (regionAt s w.region).entry.margin

/-- The pace of the active sweep is recomputed (R74). -/
def recompute (s : State) : State :=
  match s.patrol.active with
  | some w =>
    let paced := pacedSweep (regionAt s w.region).entry.mode s.params.minPace (slackOf s w) w
    reportRisk { s with patrol.active := some paced }
  | none => s

/-! ## The quiet window (R102, R103, R105, R107) -/

/-- A sweep whose burst in progress is stopped at its first line not issued (R78, R83, R86). -/
def Sweep.stopBurst (w : Sweep) : Sweep := { w with burstLeft := 0 }

/-- The window opens: a RUNNING engine becomes PAUSED and a burst in progress stops (R102). -/
def openWindow (endTime : Elapsed) (s : State) : State :=
  { s with
    window := some { endTime := endTime, override := none }
    patrol := { s.patrol with engine := if s.patrol.engine = .running then .paused else s.patrol.engine
                              active := s.patrol.active.map Sweep.stopBurst } }

/-- The window closes: a PAUSED engine becomes RUNNING and recomputes its pace, and a copy goes on (R103, R144). The
targeted jobs and the write-backs it held back are eligible again, which settle and the arbiter find. -/
def closeWindow (s : State) : State :=
  let s := { s with window := none }
  let s := if s.patrol.engine = .paused then recompute { s with patrol.engine := .running } else s
  resumeCopy s

/-- The QUIET_OVERRIDE record of the active sweep (R107, R176). -/
def overrideRecord (endTime override : Elapsed) (s : State) : Record :=
  match s.patrol.active with
  | some w =>
    { kind := 11, source := Source.code .patrol, region := some w.region, line := w.cursor
      detail := [(38, 6, endTime.toNat), (44, 6, override.toNat), (50, 6, w.deadline.toNat), (56, 4, w.remaining),
                 (60, 2, s.params.minPace)] }
  | none =>
    { kind := 11, source := Source.code .patrol
      detail := [(38, 6, endTime.toNat), (44, 6, override.toNat), (60, 2, s.params.minPace)] }

/-- The window closes by override (R107). The steps are taken in the order of R107's list, which states none: the
release with its recompute, the cause, then the record. DESIGN CHOICE (notes/assumptions/50.md): the ALERT that
QUIET_OVERRIDDEN sends at once has no OVERRUN of its own record. -/
def overrideWindow (endTime override : Elapsed) (s : State) : State :=
  let r := overrideRecord endTime override s
  count .quietOverrides (handRecord r (raise .quietOverridden (closeWindow s)))

/-- The time the remaining lines of a sweep need at the fastest pace: ceil(R * (`min_pace` + 1) / 16) µs (R105). -/
def neededTime (minPace remaining : Nat) : Nat := (remaining * (minPace + 1) + 15) / 16

/-- The override time of an open window is computed anew, which may end the window at once (R105, R106). -/
def reviewOverride (s : State) : State :=
  match s.window with
  | none => s
  | some win =>
    match s.patrol.active with
    | some w =>
      if s.params.quietOverride = 1 ∧ 0 < w.remaining then
        let safe := slackOf s w - neededTime s.params.minPace w.remaining
        if elapsedDiff win.endTime s.now ≤ safe then { s with window := some { win with override := none } }
        else if 0 < safe then { s with window := some { win with override := some (s.now + BitVec.ofInt 48 safe) } }
        else overrideWindow win.endTime (s.now + BitVec.ofInt 48 safe) s
      else { s with window := some { win with override := none } }
    | none => { s with window := some { win with override := none } }

/-! ## The start of a sweep (R72) -/

/-- The whole periods skipped: the smallest k with D + k * period + period later than now (R72). -/
def skippedPeriods (now due : Elapsed) (period : Nat) : Nat := (elapsedDiff now due).toNat / period

/-- A sweep of a region starts in the empty active slot (R72). -/
def startSweep (i : Nat) (host : Bool) (s : State) : State :=
  let g := regionAt s i
  let period := g.entry.periodUs
  let k := if host then 0 else skippedPeriods s.now g.status.due period
  let due := (if host then s.now else g.status.due) + BitVec.ofNat 48 (k * period)
  let deadline := due + BitVec.ofNat 48 period
  let s := setRegion i { g with status := { g.status with
    state := .active, due := deadline, lastStart := s.now, missed := satAdd g.status.missed k, corrected := 0
    uncorrectable := 0 } } s
  let s := { s with patrol := { s.patrol with
    engine := if s.quiet then .paused else .running
    active := some { region := i, hostPlaced := host, cursor := g.entry.base, remaining := g.entry.length, inFlight := 0
                     issued := 0, due := due, deadline := deadline, pace := 0, nextIssue := s.maint.now, atRisk := false
                     atRiskReported := false, burstLeft := 0, jobSince := false, deferred := false } } }
  reviewOverride (recompute s)

/-- Whether the engine selects: IDLE, RUNNING or PAUSED (R71). -/
def EngineState.selects : EngineState → Bool
  | .idle => true
  | .running => true
  | .paused => true
  | .disabled => false
  | .halted => false

/-- The staged sweep moves to the empty active slot and starts (R71). -/
def promote (s : State) : State :=
  match s.patrol.active, s.patrol.staged with
  | none, some p =>
    if s.patrol.engine.selects then startSweep p.region p.hostPlaced { s with patrol.staged := none } else s
  | _, _ => s

/-! ## Selection (R71) -/

/-- Whether a region is one the engine keeps a due-time timer for: valid, patrol on and IDLE (R71). -/
def Region.waits (g : Region) : Bool := g.entry.valid && g.entry.patrol && g.status.state == .idle

/-- Whether a region is a candidate: due at or before now (R71). -/
def Region.candidate (now : Elapsed) (g : Region) : Bool := g.waits && reached now g.status.due

/-- Whether a candidate comes before another of lower index: an earlier due time, or the same due time and a higher
class (R71, R67). -/
def Region.ahead (g h : Region) : Bool :=
  elapsedBefore g.status.due h.status.due || (g.status.due == h.status.due && g.entry.cls.code < h.entry.cls.code)

/-- The candidate selection chooses, among regions numbered from i on, with the best found so far (R71). -/
def chooseFrom (now : Elapsed) : List Region → Nat → Option (Nat × Region) → Option (Nat × Region)
  | [], _, best => best
  | g :: rest, i, best =>
    chooseFrom now rest (i + 1)
      (if g.candidate now then
        match best with
        | some b => if g.ahead b.2 then some (i, g) else some b
        | none => some (i, g)
      else best)

/-- Selection fills the empty staged slot (R71). -/
def selectStaged (s : State) : State :=
  if s.patrol.engine.selects && s.patrol.staged.isNone then
    match chooseFrom s.now s.regions 0 none with
    | some c => setSweepState c.1 .staged { s with patrol.staged := some { region := c.1, hostPlaced := false } }
    | none => s
  else s

/-- Selection, with the move to an empty active slot and the selection that this move brings (R71). -/
def runSelection (s : State) : State :=
  let s := selectStaged s
  if s.patrol.active.isNone && s.patrol.staged.isSome then selectStaged (promote s) else s

/-- The earliest due time among the regions that wait (R71). -/
def earliestDue (s : State) : Option Elapsed :=
  s.regions.foldl (fun best g =>
    if g.waits then
      match best with
      | some t => if elapsedBefore g.status.due t then some g.status.due else some t
      | none => some g.status.due
    else best) none

/-! ## The completion of a sweep (R81, R82) -/

/-- A SWEEP_DONE (9) or SWEEP_LATE (10) record, made at the completion (R81, R176). -/
def sweepRecord (kind : Nat) (w : Sweep) (s : State) : Record :=
  let g := regionAt s w.region
  { kind := kind, source := Source.code .patrol, region := some w.region, line := g.entry.base
    detail := [(38, 6, w.due.toNat), (44, 6, w.deadline.toNat), (50, 6, g.status.lastStart.toNat),
               (56, 4, g.status.corrected), (60, 4, g.status.uncorrectable)] }

/-- A completed sweep's region status, records and causes (R81): the SWEEP_LATE record, its cause, then the SWEEP_DONE
record, in the order of R81's list. DESIGN CHOICE (notes/assumptions/50.md). -/
def finishSweep (w : Sweep) (s : State) : State :=
  let g := regionAt s w.region
  let late := elapsedBefore w.deadline s.now
  let s := setRegion w.region { g with status := { g.status with
    state := .idle, lastEnd := s.now, completed := satAdd g.status.completed 1
    late := satAdd g.status.late late.toNat } } s
  let s := if late then raise .sweepLate (handRecord (sweepRecord 10 w s) s) else s
  if g.entry.sweepRecords then handRecord (sweepRecord 9 w s) s else s

/-- The active sweep completes: the staged sweep moves up, selection runs, and STAGED_EMPTY may be raised (R81, R82). -/
def completeActive (w : Sweep) (s : State) : State :=
  let s := finishSweep w s
  let s := reviewOverride { s with patrol := { s.patrol with active := none, engine := .idle } }
  let s := runSelection (promote s)
  if s.patrol.staged.isNone then raise .stagedEmpty s else s

/-- The held sweep completes: nothing moves and no selection runs (R81, R82). -/
def completeHeld (w : Sweep) (s : State) : State := finishSweep w { s with patrol.held := none }

/-! ## The issue of lines (R76 to R79) -/

/-- One line of the active sweep is issued: skipped when the Write-back Queue holds its line, else taken (R76, R29);
after each 4,096th line the pace is recomputed (R74). -/
def issueLine (w : Sweep) (s : State) : State :=
  let skip := (wbFind s w.cursor).isSome
  let s := count .patrolLines { s with patrol.active := some { w with
    cursor := w.cursor + 1, remaining := w.remaining - 1, issued := w.issued + 1
    inFlight := if skip then w.inFlight else w.inFlight + 1, jobSince := false, deferred := false } }
  let s := if skip then count .scrubLinesSkipped s else takeAccess w.cursor (.patrolRead true) .waiting s
  if (w.issued + 1) % 4096 = 0 then recompute s else s

/-- The lines the burst at the cursor will hold: B, or the lines to the row end or the region end (R78). -/
def burstLines (s : State) (w : Sweep) : Nat :=
  min (regionAt s w.region).entry.burst
    (min (s.port.geom.columns - s.port.geom.colOf w.cursor) w.remaining)

/-- The issue at a line boundary: one line in SINGLE and SUSTAINED mode, the first line of a burst in BURST mode, with
the next issue time counted from now (R77, R78, R79). -/
def issueBoundary (w : Sweep) (s : State) : State :=
  match (regionAt s w.region).entry.mode with
  | .single => issueLine { w with nextIssue := s.maint.now.later ((w.pace + 1) * 5) } s
  | .burst =>
    let n := burstLines s w
    issueLine { w with nextIssue := s.maint.now.later (n * (w.pace + 1) * 5), burstLeft := n - 1 } s
  | .sustained => issueLine w s

/-! ## The Targeted Scrub Queue (R91 to R96) -/

/-- Whether an entry is eligible for service (R93). -/
def TsqEntry.eligible (quiet : Bool) (e : TsqEntry) : Bool := !quiet || e.neighbour

/-- Whether an entry names a row. -/
def TsqEntry.names (rank bank row : Nat) (e : TsqEntry) : Bool := e.rank == rank && e.bank == bank && e.row == row

/-- An entry changed in place. -/
def setTsq (e : TsqEntry) (s : State) : State :=
  { s with patrol.tsq := s.patrol.tsq.map fun f => if f.names e.rank e.bank e.row then e else f }

/-- An entry removed. -/
def removeTsq (e : TsqEntry) (s : State) : State :=
  { s with patrol.tsq := s.patrol.tsq.filter fun f => !f.names e.rank e.bank e.row }

/-- A job is handed to the Targeted Scrub Queue, which decides it by the first case of R92 that applies. -/
def tsqInsert (rank bank row : Nat) (neighbour : Bool) (s : State) : State :=
  if s.maint.clearing then s
  else match s.patrol.tsq.find? (TsqEntry.names rank bank row) with
    | some e =>
      count .tsqMerged (setTsq { e with recheck := e.recheck || !neighbour, neighbour := e.neighbour || neighbour } s)
    | none =>
      if s.patrol.tsq.length < Config.tsqCapacity then
        count .tsqInserted { s with patrol.tsq := s.patrol.tsq ++
          [{ rank := rank, bank := bank, row := row, recheck := !neighbour, neighbour := neighbour, nextCol := 0
             inService := false, reading := false }] }
      else raise .tsqDropped (count .tsqDropped s)

/-- The entry the engine would begin or resume: the eligible one in service, or the oldest eligible one, when no job is
being read (R94). -/
def nextJob (s : State) : Option TsqEntry :=
  if s.patrol.tsq.any TsqEntry.reading then none
  else
    match s.patrol.tsq.find? fun e => e.inService && e.eligible s.quiet with
    | some e => some e
    | none => s.patrol.tsq.find? (TsqEntry.eligible s.quiet)

/-- A job is begun or resumed (R94). -/
def beginJob (e : TsqEntry) (s : State) : State := setTsq { e with inService := true, reading := true } s

/-- The active sweep reaches its line boundary: a job that may take it does, and the sweep's issue is deferred;
otherwise the sweep issues (R94). -/
def atBoundary (w : Sweep) (s : State) : State :=
  if w.deferred then s
  else
    match (if w.jobSince then none else nextJob s) with
    | some e => beginJob e { s with patrol.active := some { w with deferred := true } }
    | none => issueBoundary w s

/-- The boundary a job held is given back to the active sweep, if it was deferred (R94). -/
def releaseBoundary (s : State) : State :=
  { s with patrol.active := s.patrol.active.map fun w => { w with deferred := false } }

/-- The deferred issue of the active sweep, if there is one and the engine is RUNNING (R96). -/
def deferredIssue (s : State) : State :=
  match s.patrol.active with
  | some w => if w.deferred && s.patrol.engine == .running then issueBoundary w s else releaseBoundary s
  | none => s

/-- A job's last line is done (R96). -/
def completeJob (e : TsqEntry) (s : State) : State :=
  let s := count .targetedJobsDone (removeTsq e s)
  let s := { s with patrol := { s.patrol with
    active := s.patrol.active.map fun w => { w with jobSince := true }
    held := s.patrol.held.map fun w => { w with jobSince := true } } }
  deferredIssue (recompute s)

/-- A job of a row that holds no logical row is removed; a boundary it held is reached again (R95, R94). -/
def discardJob (e : TsqEntry) (s : State) : State :=
  let s := count .targetedJobsDiscarded (removeTsq e s)
  match s.patrol.active with
  | some w =>
    if w.deferred && s.patrol.engine == .running then atBoundary { w with deferred := false } (releaseBoundary s)
    else releaseBoundary s
  | none => s

/-- Whether a line of a physical row is not read because its slot is RESERVED, or COPYING with the column at or above
the cursor (R143). -/
def unreadLine (s : State) (rank bank row col : Nat) : Bool :=
  s.port.geom.visible ≤ row &&
    match slotAt s rank bank (row - s.port.geom.visible) with
    | .reserved _ => true
    | .copying _ cursor => cursor ≤ col
    | _ => false

/-- The job being read goes on from a line that is done: it completes, stops at its line boundary when it has become
ineligible, is discarded, or issues its next column (R93, R95, R96, R143). -/
def advanceJob (e : TsqEntry) (s : State) : State :=
  if s.port.geom.columns ≤ e.nextCol then completeJob e s
  else if !e.eligible s.quiet then releaseBoundary (setTsq { e with reading := false } s)
  else match heldRow s e.rank e.bank e.row with
    | none => discardJob e s
    | some logical =>
      let line := s.port.geom.lineOf e.rank e.bank logical e.nextCol
      let t := setTsq { e with nextCol := e.nextCol + 1 } s
      if unreadLine s e.rank e.bank e.row e.nextCol then t
      else if (wbFind s line).isSome then count .scrubLinesSkipped t
      else takeAccess line (.targetedRead e.row) .waiting t

/-! ## The immediate actions of the engine -/

/-- Whether a targeted read of an entry's row is in line order. -/
def readOutstanding (s : State) (e : TsqEntry) : Bool :=
  s.port.accesses.any fun a =>
    a.kind == .targetedRead e.row && s.port.geom.rankOf a.line == e.rank && s.port.geom.bankOf a.line == e.bank

/-- The job being read, when its last issued line is done. -/
def jobToAdvance (s : State) : Option TsqEntry :=
  match s.patrol.tsq.find? TsqEntry.reading with
  | some e => if readOutstanding s e then none else some e
  | none => none

/-- The sweep that has issued all its lines and has none in flight (R81). -/
def Sweep.isDone (w : Sweep) : Bool := w.remaining == 0 && w.inFlight == 0

/-- Whether the next line of a burst may be issued: the read of the line before it has been granted or skipped (R78). -/
def burstReady (s : State) (w : Sweep) : Bool :=
  s.patrol.engine == .running && 0 < w.burstLeft &&
    !s.port.accesses.any fun a => a.kind == .patrolRead true && a.phase == .waiting

/-- Whether a SUSTAINED sweep stands at a line boundary (R79). -/
def sustainedReady (s : State) (w : Sweep) : Bool :=
  s.patrol.engine == .running && (regionAt s w.region).entry.mode == .sustained && w.inFlight < 4 &&
    0 < w.remaining && !w.deferred

/-- Whether no sweep is issuing, so that a job begins as soon as an entry is eligible (R94). -/
def noSweepIssuing (s : State) : Bool := s.patrol.active.isNone || s.patrol.engine != .running

/-- The first immediate action of the engine that applies, if any: a sweep completes, the job being read goes on, a
burst goes on, a SUSTAINED sweep issues or gives its boundary to a job, a job begins (notes/assumptions/14.md). -/
def settleOnce (s : State) : Option State :=
  match s.patrol.active.filter Sweep.isDone with
  | some w => some (completeActive w s)
  | none =>
    match s.patrol.held.filter Sweep.isDone with
    | some w => some (completeHeld w s)
    | none =>
      match jobToAdvance s with
      | some e => some (advanceJob e s)
      | none =>
        match s.patrol.active.filter (burstReady s) with
        | some w => some (issueLine { w with burstLeft := w.burstLeft - 1 } s)
        | none =>
          match s.patrol.active.filter (sustainedReady s) with
          | some w => some (atBoundary w s)
          | none => if noSweepIssuing s then (nextJob s).map fun e => beginJob e s else none

/-- The immediate actions of the engine, one after another until none applies. -/
def settleWith : Nat → State → State
  | 0, s => s
  | fuel + 1, s =>
    match settleOnce s with
    | some t => settleWith fuel t
    | none => s

/-- The immediate actions that close a command (notes/assumptions/14.md). -/
def settle (s : State) : State := settleWith Config.settleFuel s

end Sys2Proof.Machine
end

