-- ==== Sys2Proof/Machine/Faults.lean ====
section
/-! DEFINITION. The Fault Table (chapter 7): taking a fault event whole (R114 to R122), decay (R124), the erase decision
and the limit flags (R125, R126). -/

namespace Sys2Proof.Machine

open Sys2Proof

/-- A fault event (R11): device and bit count are those of a CORRECTED event, none for an UNCORRECTABLE one. -/
structure FaultEvent where
  rank : Nat
  bank : Nat
  row : Nat
  col : Nat
  line : Nat
  /-- The located device and its bit count of a CORRECTED event; none says that the event is UNCORRECTABLE. -/
  located : Option (Nat × Nat)
  source : Source
  region : Option Nat
  poisoned : Bool
deriving DecidableEq, Repr

/-- Whether an event is UNCORRECTABLE (R11). -/
def FaultEvent.isUncorrectable (ev : FaultEvent) : Bool := ev.located.isNone

/-- The weight of an event (R114). -/
def FaultEvent.weight (ev : FaultEvent) : Nat :=
  match ev.located with
  | none => 64
  | some (_, bits) => if bits ≤ 1 then 1 else if bits ≤ 4 then 4 else 16

/-- The device an event scores: its located device, unless that device is erased (R114). -/
def scoredDevice (s : State) (ev : FaultEvent) : Option Nat :=
  match ev.located with
  | some (d, _) => if isErased s ev.rank d then none else some d
  | none => none

/-- An 8-bit count increased by n, saturating at 255 (R111). -/
def satByte (x n : Nat) : Nat := min (x + n) 255

/-- An event scored on the entry that describes its row (R115). -/
def scoredEntry (ev : FaultEvent) (device : Option Nat) (now : Elapsed) (e : FaultEntry) : FaultEntry :=
  { e with
    score := min 1023 (e.score + ev.weight)
    events := satByte e.events 1
    uncorrectables := satByte e.uncorrectables ev.isUncorrectable.toNat
    lastSeen := now
    lastCol := ev.col
    devices := match device with
      | some d => e.devices ||| deviceBit d
      | none => e.devices
    lastDevice := device.getD e.lastDevice }

/-- The entry an event takes afresh (R116). -/
def takenEntry (ev : FaultEvent) (device : Option Nat) (now : Elapsed) : FaultEntry :=
  { state := .observed, rank := ev.rank, bank := ev.bank, row := ev.row, score := ev.weight
    devices := match device with
      | some d => deviceBit d
      | none => 0
    events := 1, uncorrectables := ev.isUncorrectable.toNat, firstSeen := now, lastSeen := now, lastCol := ev.col
    lastDevice := device.getD 255 }

/-- Whether an OBSERVED entry is replaced before another of lower index: a lower score, or the same score and an older
last-seen (R116). -/
def FaultEntry.lighter (e f : FaultEntry) : Bool :=
  e.score < f.score || (e.score == f.score && elapsedBefore e.lastSeen f.lastSeen)

/-- The OBSERVED entry that R116 would replace, among entries numbered from i on. -/
def lightestFrom : List FaultEntry → Nat → Option (Nat × FaultEntry) → Option (Nat × FaultEntry)
  | [], _, best => best
  | e :: rest, i, best =>
    lightestFrom rest (i + 1)
      (if e.state = .observed then
        match best with
        | some b => if e.lighter b.2 then some (i, e) else some b
        | none => some (i, e)
      else best)

/-- Where an event is scored: on an entry found, on an entry taken, or nowhere (R115, R116). -/
inductive Scored where
  | found (i : Nat)
  | taken (i : Nat)
  | untracked
deriving DecidableEq, Repr

/-- The entry of a scored event. -/
def Scored.entry? : Scored → Option Nat
  | .found i => some i
  | .taken i => some i
  | .untracked => none

/-- The row entry of an event is found and scored, or taken, or the event is untracked (R115, R116). -/
def scoreRow (ev : FaultEvent) (s : State) : Scored × State :=
  let device := scoredDevice s ev
  match faultFind s ev.rank ev.bank ev.row with
  | some i => (.found i, setFault i (scoredEntry ev device s.now (faultAt s i)) s)
  | none =>
    match s.fault.entries.findIdx? fun e => e.state == .free with
    | some i => (.taken i, setFault i (takenEntry ev device s.now) s)
    | none =>
      match lightestFrom s.fault.entries 0 none with
      | some (i, e) =>
        if e.score < ev.weight then (.taken i, count .entriesReplaced (setFault i (takenEntry ev device s.now) s))
        else (.untracked, count .untrackedEvents s)
      | none => (.untracked, count .untrackedEvents s)

/-- The device score of a CORRECTED event is raised (R117). -/
def scoreDevice (ev : FaultEvent) (s : State) : State :=
  match scoredDevice s ev with
  | some d =>
    let e := deviceAt s ev.rank d
    setDevice ev.rank d { e with score := min 4095 (e.score + ev.weight) } s
  | none => s

/-! ## Records of an event (R118, R119, R121) -/

/-- The CORRECTED or UNCORRECTABLE record of an event (R118, R176). -/
def eventRecord (ev : FaultEvent) (entry : Option Nat) (s : State) : Record :=
  { kind := if ev.isUncorrectable then 2 else 1
    source := ev.source.code, region := ev.region, poisoned := ev.poisoned, line := ev.line, rank := ev.rank
    bank := ev.bank, device := (ev.located.map Prod.fst).getD 255, bitCount := (ev.located.map Prod.snd).getD 0
    row := ev.row, col := ev.col
    score := match entry with
      | some i => (faultAt s i).score
      | none => 0
    detail := [(38, 1, entry.getD 255)] }

/-- The ROW_SUSPECT record of an entry, and with a block reason the RETIRE_BLOCKED record (R119, R121, R176). -/
def rowRecord (kind : Nat) (reason : Option BlockReason) (ev : FaultEvent) (i : Nat) (s : State) : Record :=
  let e := faultAt s i
  { kind := kind, region := ev.region, line := ev.line, rank := e.rank, bank := e.bank, device := e.lastDevice
    row := e.row, score := e.score
    detail := [(38, 1, i), (39, 1, e.events), (40, 1, e.uncorrectables), (41, 1, reasonCode reason),
               (42, 3, e.devices.toNat)] }

/-- The causes of an UNCORRECTABLE event with its record, and the CORRECTED record of an event that took an entry or was
untracked (R114 step 3, R118). The record is first and UNCORRECTABLE before CRITICAL_UNCORRECTABLE (R12, and step 8 of
section 10.7, where one ALERT sent by the second carries both). -/
def reportEvent (ev : FaultEvent) (where_ : Scored) (s : State) : State :=
  if ev.isUncorrectable then
    let s := raise .uncorrectable (handRecord (eventRecord ev where_.entry? s) s)
    if isCritical s ev.region then raise .criticalUncorrectable s else s
  else match where_ with
    | .found _ => s
    | _ => handRecord (eventRecord ev where_.entry? s) s

/-- The CORRECTED record called for by a change of the entry's state, unless the event has its record already
(R114 step 4, R118). -/
def reportChange (ev : FaultEvent) (reported : Bool) (i : Nat) (s : State) : State :=
  if reported || ev.isUncorrectable then s else handRecord (eventRecord ev (some i) s) s

/-! ## The suspect check and the retire check (R119 to R121) -/

/-- The suspect check: whether the event has its record after it, and the state (R119). -/
def suspectCheck (ev : FaultEvent) (i : Nat) (reported : Bool) (s : State) : Bool × State :=
  let e := faultAt s i
  if e.state = .observed ∧ s.params.rowSuspect ≤ e.score then
    let s := reportChange ev reported i (setFault i { e with state := .suspect } s)
    let s := tsqInsert e.rank e.bank e.row false s
    (true, count .rowsSuspect (handRecord (rowRecord 4 none ev i s) s))
  else (reported, s)

/-- An entry becomes BLOCKED (R121). -/
def blockEntry (ev : FaultEvent) (i : Nat) (reported : Bool) (reason : BlockReason) (s : State) : State :=
  let s := setFault i { faultAt s i with state := .blocked, reason := some reason } s
  let s := reportChange ev reported i s
  count .retireBlocked (handRecord (rowRecord 5 (some reason) ev i s) s)

/-- The retire check (R120). A retire request has all its effects at its answer, the start of a job taken into an empty
queue among them, before the records of the change are handed on (notes/assumptions/47.md). -/
def retireCheck (ev : FaultEvent) (i : Nat) (reported : Bool) (s : State) : State :=
  let e := faultAt s i
  if (e.state = .observed ∨ e.state = .suspect) ∧ s.params.rowRetire ≤ e.score ∧ ¬ s.maint.clearing then
    if s.params.autoRetire = 0 then blockEntry ev i reported .autoOff s
    else
      match retireRequest e.rank e.bank e.row (count .retireRequests s) with
      | (.taken, s) => reportChange ev reported i s
      | (.noSpare, s) => blockEntry ev i reported .noSpare s
      | (.queueFull, s) => blockEntry ev i reported .queueFull s
      | (.inProgress, s) => s
      | (.notInService, s) => reportChange ev reported i (setFault i { faultAt s i with state := .retired } s)
  else s

/-! ## The erase decision (R125, R126) -/

/-- The ERASURE_LIMIT record of a device (R126, R176). -/
def erasureLimitRecord (rank device : Nat) (s : State) : Record :=
  { kind := 8, rank := rank, device := device, score := (deviceAt s rank device).score
    slotOrCount := spreadOf s rank device
    detail := [(38, 1, (erasureSet s rank).getD 0 255), (39, 1, (erasureSet s rank).getD 1 255)] }

/-- Whether a device stands past the conditions of R125 other than the last. -/
def pastErase (s : State) (rank device : Nat) : Bool :=
  s.params.autoErase == 1 && !isErased s rank device && s.params.deviceErase ≤ (deviceAt s rank device).score &&
    s.params.deviceSpread ≤ spreadOf s rank device

/-- The erase decision for one device: it is erased, or the limit is reported once (R125, R126), the record before the
cause, as R126 names them. DESIGN CHOICE (notes/assumptions/50.md). -/
def eraseDecision (rank device : Nat) (s : State) : State :=
  if pastErase s rank device then
    if (erasureSet s rank).length < 2 then addErasure rank device 0 (count .eraseDecisions s)
    else if (deviceAt s rank device).limitReported then s
    else
      let s := raise .erasureLimit (handRecord (erasureLimitRecord rank device s) s)
      count .erasureLimits (setDevice rank device { deviceAt s rank device with limitReported := true } s)
  else s

/-- The erase decision for every device of a rank, in ascending order (R125). -/
def eraseRank (rank : Nat) (s : State) : State := (List.range 20).foldl (fun s d => eraseDecision rank d s) s

/-- The erase decision for every device of every rank of the geometry (R125). -/
def eraseAll (s : State) : State :=
  if s.port.geomSet then (List.range s.port.geom.ranks).foldl (fun s n => eraseRank n s) s else s

/-- The limit flags of devices whose score is below the `device_erase` in force are cleared (R126). -/
def reviewLimits (s : State) : State :=
  { s with fault.devices := s.fault.devices.map fun d =>
      if d.score < s.params.deviceErase then { d with limitReported := false } else d }

/-! ## Taking an event (R114) -/

/-- Whether an event is scored without a state change: an event of the running copy's own reads, or of a targeted read
of a row that does not serve its logical row at the decode (R122, R143; notes/assumptions/42.md). -/
def scoredOnly (ev : FaultEvent) (s : State) : Bool :=
  match ev.source with
  | .demand => false
  | .rmw => false
  | .patrol => false
  | .targeted => !serves s ev.rank ev.bank ev.row
  | .repair => s.repair.jobs.head?.any fun j => j.rank == ev.rank && j.bank == ev.bank && j.sourceRow == ev.row

/-- The checks of an event's entry (R114 step 4, R122). -/
def checkEntry (ev : FaultEvent) (where_ : Scored) (s : State) : State :=
  if scoredOnly ev s then s
  else match where_ with
    | .untracked => s
    | .found i =>
      let r := suspectCheck ev i false s
      retireCheck ev i r.1 r.2
    | .taken i =>
      let r := suspectCheck ev i true s
      retireCheck ev i r.1 r.2

/-- The erase decision an event calls for (R114 step 5). -/
def decideDevice (ev : FaultEvent) (s : State) : State :=
  match ev.located with
  | some (d, _) => eraseDecision ev.rank d s
  | none => s

/-- The Fault Table takes a fault event whole (R114). -/
def takeEvent (ev : FaultEvent) (s : State) : State :=
  let r := scoreRow ev (count .faultEvents s)
  let s := scoreDevice ev r.2
  let s := reportEvent ev r.1 s
  let s := checkEntry ev r.1 s
  decideDevice ev s

/-! ## Decay (R124) -/

/-- An entry after a decay epoch (R124). -/
def decayedEntry (e : FaultEntry) : FaultEntry :=
  match e.state with
  | .free => e
  | .retiring => e
  | .retired => {}
  | .blocked => { e with score := e.score / 2 }
  | .observed => if e.score / 2 = 0 then {} else { e with score := e.score / 2 }
  | .suspect => if e.score / 2 = 0 then {} else { e with score := e.score / 2 }

/-- The device scores after a decay epoch: those of devices not erased are halved (R124). -/
def decayedDevices (s : State) : List DeviceScore :=
  s.fault.devices.zipIdx.map fun d =>
    if isErased s (d.2 / 20) (d.2 % 20) then d.1 else { d.1 with score := d.1.score / 2 }

/-- One decay epoch (R124). -/
def decay (s : State) : State :=
  count .decayEpochs (reviewLimits { s with fault := { s.fault with
    entries := s.fault.entries.map decayedEntry, devices := decayedDevices s } })

end Sys2Proof.Machine
end

