-- ==== Sys2Proof/Machine/Hammer.lean ====
section
/-! DEFINITION. The Disturbance Watch (chapter 9): which activations count, the counting of an activation table, the
trigger with its neighbour jobs and record, the review of a changed threshold, and the window's expiry. -/

namespace Sys2Proof.Machine

open Sys2Proof

/-- Whether the watch counts an activation, by its requester (R157). -/
def Requester.counted : Requester → Bool
  | .demandRead => true
  | .demandWrite => true
  | .maskedWrite => true
  | .writeBack => true
  | .recordWrite => true
  | .patrolRead => false
  | .targetedRead => false
  | .copyRead => false
  | .copyWrite => false

/-- The activation table of a rank (R156). -/
def hammerTable (s : State) (rank : Nat) : List (Option HammerEntry) := s.hammer.tables.getD rank []

/-- An entry of a rank's table. -/
def hammerAt (s : State) (rank i : Nat) : Option HammerEntry := (hammerTable s rank).getD i none

/-- An entry of a rank's table replaced. -/
def setHammer (rank i : Nat) (e : HammerEntry) (s : State) : State :=
  { s with hammer.tables := s.hammer.tables.set rank ((hammerTable s rank).set i (some e)) }

/-- Every entry of every table becomes free (R166, R21). -/
def emptyHammer (s : State) : State :=
  { s with hammer.tables := s.hammer.tables.map fun t => t.map fun _ => none }

/-! ## The trigger (R160 to R162) -/

/-- Whether a slot's row is worth a neighbour job: it holds a logical row (R161). -/
def Slot.holdsRow : Slot → Bool
  | .reserved _ => true
  | .copying _ _ => true
  | .active _ => true
  | .free => false
  | .dead => false

/-- Whether a physical row qualifies as a neighbour (R161). -/
def qualifies (s : State) (rank bank row : Nat) : Bool :=
  row < s.port.geom.rows &&
    (row < s.port.geom.visible || (slotAt s rank bank (row - s.port.geom.visible)).holdsRow)

/-- The neighbour below a row, when it exists and qualifies (R161). -/
def lowerNeighbour (s : State) (rank bank row : Nat) : Option Nat :=
  if 0 < row ∧ qualifies s rank bank (row - 1) then some (row - 1) else none

/-- The neighbour above a row, when it exists and qualifies (R161). -/
def upperNeighbour (s : State) (rank bank row : Nat) : Option Nat :=
  if qualifies s rank bank (row + 1) then some (row + 1) else none

/-- A neighbour row that qualifies is handed to the Targeted Scrub Queue (R161). -/
def handNeighbour (rank bank : Nat) (row : Option Nat) (s : State) : State :=
  match row with
  | some x => tsqInsert rank bank x true (count .hammerNeighbourJobs s)
  | none => s

/-- The HAMMER record of a trigger (R162, R176; notes/assumptions/29.md). -/
def hammerRecord (rank i : Nat) (e : HammerEntry) (requester : Option Requester) (lower upper : Option Nat)
    (s : State) : Record :=
  let line := (heldRow s rank e.bank e.row).map fun l => s.port.geom.lineOf rank e.bank l 0
  { kind := 12, region := line.bind (regionOf s), line := line.getD 0, rank := rank, bank := e.bank, row := e.row
    slotOrCount := s.params.hammerThreshold
    detail := [(38, 1, i), (39, 1, requesterCode requester), (40, 4, lower.getD 4294967295),
               (44, 4, upper.getD 4294967295)] }

/-- An entry triggers: its neighbours are handed on, its count returns to 0, and its record is handed on when
`hammer_records` is 1 (R160). -/
def trigger (rank i : Nat) (e : HammerEntry) (requester : Option Requester) (s : State) : State :=
  let lower := lowerNeighbour s rank e.bank e.row
  let upper := upperNeighbour s rank e.bank e.row
  let s := handNeighbour rank e.bank upper (handNeighbour rank e.bank lower s)
  let s := count .hammerTriggers (setHammer rank i { e with count := 0 } s)
  if s.params.hammerRecords = 1 then handRecord (hammerRecord rank i e requester lower upper s) s else s

/-! ## Counting (R157 to R159) -/

/-- Whether an entry in use holds a bank and physical row. -/
def holdsPlace (bank row : Nat) : Option HammerEntry → Bool
  | some e => e.bank == bank && e.row == row
  | none => false

/-- The lowest-numbered entry among those with the smallest count, among entries numbered from i on. -/
def smallestFrom : List (Option HammerEntry) → Nat → Option (Nat × Nat) → Option (Nat × Nat)
  | [], _, best => best
  | none :: rest, i, best => smallestFrom rest (i + 1) best
  | some e :: rest, i, best =>
    smallestFrom rest (i + 1)
      (match best with
        | some b => if e.count < b.2 then some (i, e.count) else some b
        | none => some (i, e.count))

/-- The count of an entry is set, and the entry triggers when it has reached the threshold (R158, R159). -/
def credit (rank i : Nat) (e : HammerEntry) (requester : Requester) (s : State) : State :=
  let s := setHammer rank i e s
  if e.count = s.params.hammerThreshold then trigger rank i e (some requester) s else s

/-- A counted activation reaches the rank's table (R158, R159). -/
def countActivation (rank bank row : Nat) (requester : Requester) (s : State) : State :=
  match (hammerTable s rank).findIdx? (holdsPlace bank row) with
  | some i =>
    match hammerAt s rank i with
    | some e => credit rank i { e with count := e.count + 1 } requester s
    | none => s
  | none =>
    match (hammerTable s rank).findIdx? Option.isNone with
    | some i => credit rank i { bank := bank, row := row, count := 1 } requester s
    | none =>
      match smallestFrom (hammerTable s rank) 0 none with
      | some m => credit rank m.1 { bank := bank, row := row, count := m.2 + 1 } requester (count .hammerReplacements s)
      | none => s

/-- The DRAM Port reports an activation: it is counted in `activations` (R35), and in the watch by its requester
(R157). -/
def reportActivation (rank bank row : Nat) (requester : Requester) (s : State) : State :=
  let s := count .activations s
  if requester.counted then countActivation rank bank row requester (count .hammerCounted s) else s

/-! ## The threshold and the window (R163, R164) -/

/-- An entry at or above a changed threshold triggers (R164). -/
def reviewEntry (rank i : Nat) (s : State) : State :=
  match hammerAt s rank i with
  | some e => if s.params.hammerThreshold ≤ e.count then trigger rank i e none s else s
  | none => s

/-- The review of a change of `hammer_threshold`: rank by rank, and within a rank in order of entry index (R164). -/
def reviewThreshold (s : State) : State :=
  (List.range 4).foldl
    (fun s rank => (List.range Config.hammerEntries).foldl (fun s i => reviewEntry rank i s) s) s

/-- Every count of every table returns to 0 (R163). -/
def zeroHammer (s : State) : State :=
  { s with hammer.tables := s.hammer.tables.map fun t => t.map fun e => e.map fun h => { h with count := 0 } }

end Sys2Proof.Machine
end

