-- ==== Sys2Proof/Machine/Service.lean ====
section
/-! DEFINITION. The dispatch of a maintenance request (R192, R193): the checks the Maintenance Unit makes, the owner's
decision, the response, and the meanings of the requests the Maintenance Unit, the Report Unit's statistics and the Link
Interface own (chapter 12, R182, R188). -/

namespace Sys2Proof.Machine

open Sys2Proof

/-! ## Dispatch -/

/-- What an owner decides: the status, the result words and the state it leaves. -/
structure Answered where
  status : Status
  results : List Word32
  state : State
deriving DecidableEq, Repr

/-- A request refused: it changes nothing (R193). -/
def refuse (status : Status) (s : State) : Answered := { status := status, results := [], state := s }

/-- A request carried out. -/
def accept (results : List Word32) (s : State) : Answered := { status := .ok, results := results, state := s }

/-- An argument word as a number. -/
def argOf (args : List Word32) (i : Nat) : Nat := (args.getD i 0).toNat

/-- The MAINT_RESP is handed to the Link Interface and the request leaves the queue (R192). -/
def respond (tag : Nat) (r : Answered) : State :=
  let s := handReturn (.maintResp tag r.status r.results) r.state
  { s with maint.queue := s.maint.queue.tail }

/-- The request at the head of the queue, when it is one of the code given and may be dispatched: none is while a channel
clear is in progress, since the clear stays at the head (R192). -/
def headRequest (code : Nat) (s : State) : Option MaintRequest :=
  if s.maint.clearing then none else s.maint.queue.head?.filter fun q => q.code == code

/-- The decision on a request: too few argument words are BAD_ARGUMENT, else the owner decides (R193). -/
def decideRequest (needed : Nat) (owner : List Word32 → State → Answered) (args : List Word32) (s : State) : Answered :=
  if args.length < needed then refuse .badArgument s else owner args s

/-- The dispatch of the request at the head of the queue, when it is of the code given: it is counted, decided, answered
and leaves the queue, and what follows its answer is done (R192, R193). Its own dispatch is counted before the owner
decides, so READ_STATS and STATS_CLEAR meet it counted (R182; notes/assumptions/46.md). -/
def serveThen (after : State → State) (code needed : Nat) (owner : List Word32 → State → Answered) (s : State) : State :=
  match headRequest code s with
  | some q => after (respond q.tag (decideRequest needed owner q.args (count .maintRequests s)))
  | none => s

/-- A dispatch that nothing follows. -/
def serve (code needed : Nat) (owner : List Word32 → State → Answered) (s : State) : State :=
  serveThen (fun t => t) code needed owner s

/-- A dispatch after which the Patrol Engine takes its immediate actions (notes/assumptions/14.md). -/
def serveSettled (code needed : Nat) (owner : List Word32 → State → Answered) (s : State) : State :=
  serveThen settle code needed owner s

/-- A part of a result list that may be longer than eight words, the part being an optional argument (R193). -/
def acceptPart (part : Nat) (results : List Word32) (s : State) : Answered :=
  if results.length ≤ 8 * part then refuse .badArgument s else accept (partOf results part) s

/-! ## IDENTIFY, time, parameters (R195 to R197) -/

/-- The six fixed words of IDENTIFY (R195). -/
def identityWords : List Word32 :=
  [0x0731, 0x4208, 1, word (Config.tagCount + 65536 * Config.regionCount),
   word (Config.faultEntries + 65536 * Config.tsqCapacity), word (Config.wbqCapacity + 65536 * Config.repairCapacity)]

/-- The elapsed time and the wall time (R196). -/
def doReadTime (_ : List Word32) (s : State) : Answered := accept (timeWords s.now ++ wideWords s.wall) s

/-- The wall time of a SET_TIME, low word first (R194). -/
def wallOf (args : List Word32) : BitVec 64 :=
  (args.getD 1 0).setWidth 64 <<< 32 ||| (args.getD 0 0).setWidth 64

/-- The offset becomes wall less the elapsed time (R196). -/
def doSetTime (args : List Word32) (s : State) : Answered :=
  accept [] { s with maint.wallOffset := wallOf args - s.now.setWidth 64 }

/-- A parameter's range (R197). -/
def paramRange : Nat → Option (Nat × Nat)
  | 0 => some (0, 1000)
  | 1 => some (10, 1000)
  | 2 => some (0, 65535)
  | 3 => some (0, 1)
  | 4 => some (1, 1023)
  | 5 => some (1, 1023)
  | 6 => some (0, 1)
  | 7 => some (1, 3600)
  | 8 => some (1, 4095)
  | 9 => some (1, 64)
  | 10 => some (0, 1)
  | 11 => some (1024, 65535)
  | 12 => some (8, 128)
  | 13 => some (0, 1)
  | 14 => some (1, 64)
  | 15 => some (0, 1000000)
  | 16 => some (0, 65535)
  | _ => none

/-- A value clamped to a range (R197). -/
def clampTo (range : Nat × Nat) (v : Nat) : Nat := if v < range.1 then range.1 else if range.2 < v then range.2 else v

/-- The parameter of an id, by the gathered table (R197). -/
def Params.get (p : Params) : Nat → Nat
  | 0 => p.pageHold
  | 1 => p.refreshInterval
  | 2 => p.minPace
  | 3 => p.quietOverride
  | 4 => p.rowSuspect
  | 5 => p.rowRetire
  | 6 => p.autoRetire
  | 7 => p.decayEpoch
  | 8 => p.deviceErase
  | 9 => p.deviceSpread
  | 10 => p.autoErase
  | 11 => p.hammerThreshold
  | 12 => p.hammerWindow
  | 13 => p.hammerRecords
  | 14 => p.readyCount
  | 15 => p.readyAge
  | 16 => p.alertHoldoff
  | _ => 0

/-- The parameter of an id takes a value. -/
def Params.put (p : Params) (id v : Nat) : Params :=
  match id with
  | 0 => { p with pageHold := v }
  | 1 => { p with refreshInterval := v }
  | 2 => { p with minPace := v }
  | 3 => { p with quietOverride := v }
  | 4 => { p with rowSuspect := v }
  | 5 => { p with rowRetire := v }
  | 6 => { p with autoRetire := v }
  | 7 => { p with decayEpoch := v }
  | 8 => { p with deviceErase := v }
  | 9 => { p with deviceSpread := v }
  | 10 => { p with autoErase := v }
  | 11 => { p with hammerThreshold := v }
  | 12 => { p with hammerWindow := v }
  | 13 => { p with hammerRecords := v }
  | 14 => { p with readyCount := v }
  | 15 => { p with readyAge := v }
  | 16 => { p with alertHoldoff := v }
  | _ => p

/-- What a change of a parameter does at once; the others apply when next read (R197): `min_pace` (R90, R106),
`quiet_override` (R108), `device_erase`, `device_spread` and `auto_erase` (R125, R126), `hammer_threshold` (R164),
`ready_count` and `ready_age` (R179). -/
def paramChanged (id : Nat) (s : State) : State :=
  match id with
  | 2 => settle (reviewOverride (recompute s))
  | 3 => settle (reviewOverride s)
  | 8 => eraseAll (reviewLimits s)
  | 9 => eraseAll s
  | 10 => eraseAll s
  | 11 => settle (reviewThreshold s)
  | 14 => reviewReadyCount s
  | 15 => reviewReadyAge s
  | _ => s

/-- SET_PARAM's decision (R197). -/
def doSetParam (args : List Word32) (s : State) : Answered :=
  match paramRange (argOf args 0) with
  | none => refuse .badArgument s
  | some range =>
    let v := clampTo range (argOf args 1)
    accept [word v] (paramChanged (argOf args 0) { s with params := s.params.put (argOf args 0) v })

/-! ## Statistics (R182) -/

/-- READ_STATS' decision: up to eight counters of a block from the first on (R182). -/
def doReadStats (args : List Word32) (s : State) : Answered :=
  let block := Ctr.ofBlock (argOf args 0)
  if 10 < argOf args 0 ∨ block.length ≤ argOf args 1 then refuse .badArgument s
  else accept (((block.drop (argOf args 1)).take 8).map fun c => word (s.counters.get c)) s

/-- STATS_CLEAR's decision (R182). -/
def doStatsClear (_ : List Word32) (s : State) : Answered := accept [] { s with counters := {} }

/-! ## GO_ONLINE (R188) -/

/-- GO_ONLINE's decision (R188). -/
def doGoOnline (_ : List Word32) (s : State) : Answered :=
  if s.port.geomSet then accept [] { s with link.channel := .online } else refuse .notConfigured s

/-! ## The meanings -/

/-- IDENTIFY (R195). -/
def execIdentify (s : State) : Answer := .next (serve 1 0 (fun _ => accept identityWords) s)

/-- READ_TIME (R196). -/
def execReadTime (s : State) : Answer := .next (serve 2 0 doReadTime s)

/-- SET_TIME (R196). -/
def execSetTime (s : State) : Answer := .next (serve 3 2 doSetTime s)

/-- SET_PARAM (R197). -/
def execSetParam (s : State) : Answer := .next (serve 4 2 doSetParam s)

/-- READ_STATS (R182). -/
def execReadStats (s : State) : Answer := .next (serve 5 2 doReadStats s)

/-- STATS_CLEAR (R182). -/
def execStatsClear (s : State) : Answer := .next (serve 6 0 doStatsClear s)

/-- GO_ONLINE (R188). -/
def execGoOnline (s : State) : Answer := .next (serve 7 0 doGoOnline s)

/-- BAD_REQUEST (R193): the request at the head has a code that no request has. -/
def execBadRequest (s : State) : Answer :=
  match s.maint.queue with
  | q :: _ =>
    if ¬ s.maint.clearing ∧ (q.code < 1 ∨ 35 < q.code) then
      .next (respond q.tag (refuse .badRequest (count .maintBadRequest (count .maintRequests s))))
    else .next s
  | [] => .next s

end Sys2Proof.Machine
end

