-- ==== Sys2Proof/Machine/Clear.lean ====
section
/-! DEFINITION. The channel clear (R198): what each block does at its dispatch, when it completes and what its completion
does, and the geometry change (R20, R21). -/

namespace Sys2Proof.Machine

open Sys2Proof

/-! ## The dispatch of a clear -/

/-- The tag of a waiting demand request, which a clear discards (R38). -/
def discardedTag (a : Access) : Option Nat :=
  if a.phase = .waiting then
    match a.kind with
    | .demandRead tag => some tag
    | .demandWrite tag _ => some tag
    | .maskedWrite tag _ _ _ => some tag
    | _ => none
  else none

/-- Every waiting demand request is discarded, and its tag becomes free (R38, R198). -/
def discardDemand (s : State) : State :=
  let tags := s.port.accesses.filterMap discardedTag
  let s := { s with port.accesses := s.port.accesses.filter fun a => (discardedTag a).isNone }
  tags.foldl (fun s tag => freeTag tag s) s

/-- Whether an access is a write-back not granted. -/
def Access.heldWriteback (a : Access) : Bool := a.kind == .writeBack && a.phase == .waiting

/-- Every entry of the Write-back Queue not granted is removed with its write, uncounted (R52). -/
def withdrawEntries (s : State) : State :=
  { s with wbq := s.wbq.filter WbEntry.granted
           port.accesses := s.port.accesses.filter fun a => !a.heldWriteback }

/-- Whether an access is a patrol or targeted read. -/
def AccessKind.isScrub : AccessKind → Bool
  | .patrolRead _ => true
  | .targetedRead _ => true
  | _ => false

/-- Whether an access is a patrol read. -/
def AccessKind.isPatrol : AccessKind → Bool
  | .patrolRead _ => true
  | _ => false

/-- A patrol read of a sweep abandoned: it counts towards no sweep any more (R80, R88). -/
def Access.disown (a : Access) : Access :=
  match a.kind with
  | .patrolRead _ => { a with kind := .patrolRead false }
  | _ => a

/-- The patrol reads of the sweeps in the slots are abandoned: those not granted are withdrawn, those granted count
towards no sweep (R80). -/
def abandonReads (s : State) : State :=
  { s with port.accesses := (s.port.accesses.filter fun a => !(a.kind.isPatrol && a.phase == .waiting)).map Access.disown }

/-- A region becomes IDLE with its due time kept (R57). -/
def idleRegion (region : Option Nat) (s : State) : State :=
  match region with
  | some i => setSweepState i .idle s
  | none => s

/-- The active slot, the staged slot and the held record become empty, and their regions IDLE (R68, R88, R97). -/
def emptySlots (s : State) : State :=
  let s := idleRegion (s.patrol.active.map Sweep.region) s
  let s := idleRegion (s.patrol.staged.map Staged.region) s
  let s := idleRegion (s.patrol.held.map Sweep.region) s
  abandonReads { s with patrol := { s.patrol with active := none, staged := none, held := none } }

/-- The Targeted Scrub Queue is emptied and its reads not granted are withdrawn (R97). -/
def emptyTsq (s : State) : State :=
  { s with patrol := { s.patrol with tsq := [] }
           port.accesses := s.port.accesses.filter fun a => !(a.kind.isScrub && a.phase == .waiting) }

/-- Whether a clear withdraws a copy access: a pair whose read waits, or whose forwarded write waits (R147;
notes/assumptions/28.md). -/
def withdrawnCopy (readWaits : Bool) (a : Access) : Bool :=
  a.phase == .waiting &&
    match a.kind with
    | .copyRead => true
    | .copyWrite _ payload forwarded => forwarded || (payload.isNone && readWaits)
    | _ => false

/-- The copy pair not granted is withdrawn, read and write together, and every job is aborted (R147). -/
def abandonCopies (s : State) : State :=
  let readWaits := s.port.accesses.any fun a => a.kind == .copyRead && a.phase == .waiting
  abortJobs { s with port.accesses := s.port.accesses.filter fun a => !withdrawnCopy readWaits a }

/-- The engine after the dispatch of a clear (R97). -/
def clearedEngine : EngineState → EngineState
  | .disabled => .disabled
  | .idle => .idle
  | .running => .idle
  | .paused => .idle
  | .halted => .idle

/-- The Patrol Engine's part at the dispatch, with the override time of an open window discarded (R97, R106, R109). -/
def clearPatrol (s : State) : State :=
  let s := emptyTsq (emptySlots s)
  reviewOverride { s with patrol := { s.patrol with engine := clearedEngine s.patrol.engine } }

/-- The pending and alerted flags of every cause are cleared, and the holdoff timer stops (R181). -/
def clearCauses (s : State) : State :=
  { s with report := { s.report with pending := 0, alerted := 0, holdoffEnd := none } }

/-- The dispatch of a channel clear: each block begins its part (R198). -/
def beginClear (s : State) : State :=
  let s := { s with link.channel := .config, maint.clearing := true }
  emptyHammer (abandonCopies (clearPatrol (withdrawEntries (discardDemand (clearCauses s)))))

/-- CHANNEL_CLEAR (R198): the request is dispatched, and stays at the head of the queue until the clear completes. -/
def execChannelClear (s : State) : Answer :=
  match headRequest 8 s with
  | some _ => .next (beginClear (count .maintRequests s))
  | none => .next s

/-! ## The completion of a clear -/

/-- Whether every block has finished its part: no record write is pending, and no access remains (R38, R198;
notes/assumptions/26.md). -/
def clearFinished (s : State) : Bool := s.report.queue.isEmpty && s.port.accesses.isEmpty

/-- The DRAM Port at the completion: rows close, the write-drain condition turns off, the pass counts return to 0 (R38). -/
def clearPort (s : State) : State :=
  { s with port := { s.port with openRows := [], drain := false, passCounts := List.replicate 10 0 } }

/-- A window still open closes at the completion of a clear, uncounted (R109). -/
def closeAtClear (s : State) : State := if s.quiet then closeWindow s else s

/-- What belongs to the completion, in either of the two orders R109 gives (notes/assumptions/27.md). With selection first,
the sweep that starts is an event of R106 while the window is still OPEN, so the review of the override time may end the
window by R107 before it closes uncounted (notes/assumptions/48.md). -/
def afterClear (selectionFirst : Bool) (s : State) : State :=
  if selectionFirst then closeAtClear (runSelection s) else runSelection (closeAtClear s)

/-- The completion: the response, the count, the request out of the queue (R198). -/
def endClear (tag : Nat) (s : State) : State :=
  respond tag (accept [] (count .channelClears { clearPort s with maint.clearing := false }))

/-- CHANNEL_CLEAR_COMPLETE (R198). -/
def execChannelClearComplete (selectionFirst : Bool) (s : State) : Answer :=
  match s.maint.queue with
  | q :: _ =>
    if s.maint.clearing ∧ clearFinished s then .next (settle (afterClear selectionFirst (endClear q.tag s)))
    else .next s
  | [] => .next s

/-! ## CONFIGURE_GEOMETRY (R20, R21) -/

/-- The geometry of a request. -/
def geometryOf (args : List Word32) : Geometry :=
  { ranks := argOf args 0, rowBits := argOf args 1, colExp := argOf args 2, spares := argOf args 3 }

/-- Whether internal work bound to the present geometry is outstanding (R20). -/
def boundWork (s : State) : Bool :=
  s.patrol.active.isSome || s.patrol.staged.isSome || s.patrol.held.isSome || !s.patrol.tsq.isEmpty ||
    !s.wbq.isEmpty || !s.repair.jobs.isEmpty || s.report.produced != s.report.written ||
    s.port.accesses.any fun a => a.kind.isScrub || a.kind.isCopy

/-- A region after a geometry change: invalid when it reaches beyond the capacity (R21, R68). -/
def Region.fitted (capacity : Nat) (g : Region) : Region :=
  if g.entry.valid ∧ capacity < g.entry.base + g.entry.length then { g with entry.valid := false } else g

/-- A row entry after a geometry change: FREE when its row no longer exists (R21, R132). -/
def FaultEntry.fitted (g : Geometry) (e : FaultEntry) : FaultEntry :=
  if g.ranks ≤ e.rank ∨ g.rows ≤ e.row then {} else e

/-- The erasure sets after a geometry change (R21, R151). -/
def fittedErasures (ranks : Nat) (sets : List (List Nat)) : List (List Nat) :=
  sets.zipIdx.map fun p => if p.2 < ranks then p.1 else []

/-- The device scores after a geometry change (R21, R132). -/
def fittedDevices (ranks : Nat) (devices : List DeviceScore) : List DeviceScore :=
  devices.zipIdx.map fun p => if p.2 / 20 < ranks then p.1 else {}

/-- The refresh timers after a geometry change: a timer with nothing owed for each rank it includes (R21, R36). -/
def startRefresh (ranks : Nat) (s : State) : List Refresh :=
  (List.range 4).map fun n =>
    { timer := if n < ranks then some (s.maint.now.later (s.params.refreshInterval * 8)) else none, owed := [] }

/-- A ring that no longer fits within the capacity is discarded (R21, R169). -/
def fitRing (s : State) : State :=
  if s.report.setUp ∧ s.port.geom.capacity < s.report.base + s.ringSize then
    resetRing { s with report.setUp := false }
  else s

/-- An accepted CONFIGURE_GEOMETRY (R21). -/
def takeGeometry (g : Geometry) (s : State) : State :=
  let refresh := startRefresh g.ranks s
  let s := { s with
    port := { s.port with geomSet := true, geom := g, openRows := [], refresh := refresh }
    regions := s.regions.map (Region.fitted g.capacity)
    repair := { s.repair with slots := [], erasures := fittedErasures g.ranks s.repair.erasures }
    fault := { s.fault with entries := s.fault.entries.map (FaultEntry.fitted g)
                            devices := fittedDevices g.ranks s.fault.devices } }
  fitRing (emptyHammer s)

/-- CONFIGURE_GEOMETRY's decision (R20). -/
def doConfigureGeometry (args : List Word32) (s : State) : Answered :=
  if s.link.channel = .online then refuse .busy s
  else if ¬ (geometryOf args).allowed then refuse .badArgument s
  else if boundWork s then refuse .busy s
  else accept [] (takeGeometry (geometryOf args) s)

/-- CONFIGURE_GEOMETRY (R20). -/
def execConfigureGeometry (s : State) : Answer := .next (serve 9 4 doConfigureGeometry s)

end Sys2Proof.Machine
end

