-- ==== Sys2Proof/Machine/Arbiter.lean ====
section
/-! DEFINITION. The arbiter of the DRAM Port and the open rows (chapter 2): eligibility and classes (R31), the choice
within a class (R33), the grant with its activations (R23, R34, R35, R142), refresh (R37), and what performing an access
does to line order and to the open row (R26, R34). -/

namespace Sys2Proof.Machine

open Sys2Proof

/-! ## The place of an access (R22, R23) -/

/-- The rank of an access. -/
def rankOfAccess (s : State) (a : Access) : Nat := s.port.geom.rankOf a.line

/-- The bank of an access. -/
def bankOfAccess (s : State) (a : Access) : Nat := s.port.geom.bankOf a.line

/-- The bank of an access as a key. -/
def keyOfAccess (s : State) (a : Access) : Nat := bankKey (rankOfAccess s a) (bankOfAccess s a)

/-- The physical row an access is made to, looked up at its grant: a targeted read and a copy write name their row, every
other access asks the Remap Table (R23). -/
def lookupRow (s : State) (a : Access) : Nat :=
  match a.kind with
  | .targetedRead row => row
  | .copyWrite spare _ _ => spare
  | _ => servedRow s (rankOfAccess s a) (bankOfAccess s a) (s.port.geom.logicalOf a.line)

/-- The requester of an access (R35). -/
def AccessKind.requester : AccessKind → Requester
  | .demandRead _ => .demandRead
  | .demandWrite _ _ => .demandWrite
  | .maskedWrite _ _ _ _ => .maskedWrite
  | .writeBack => .writeBack
  | .recordWrite _ _ => .recordWrite
  | .copyRead => .copyRead
  | .copyWrite _ _ _ => .copyWrite
  | .patrolRead _ => .patrolRead
  | .targetedRead _ => .targetedRead

/-- Whether an access would now write a line that a copy must follow (R142): a demand write, the write of a masked-write
unit, a report record write. -/
def AccessKind.changesLine : AccessKind → Bool
  | .demandWrite _ _ => true
  | .maskedWrite _ _ _ (some _) => true
  | .recordWrite _ _ => true
  | _ => false

/-- The spare row a write is doubled to at its grant: that of the COPYING slot of its logical row, when the line has been
copied already (R142). -/
def doubleRow (s : State) (a : Access) : Option Nat :=
  if a.kind.changesLine then
    match copyOf s (rankOfAccess s a) (bankOfAccess s a) (s.port.geom.logicalOf a.line) with
    | some c => if s.port.geom.colOf a.line < c.2 then some (spareRow s c.1) else none
    | none => none
  else none

/-! ## Eligibility and classes (R26, R31) -/

/-- The first access of every line's list, in order of taking (R26). -/
def frontAccesses : List Access → List Nat → List Access
  | [], _ => []
  | a :: rest, seen =>
    if seen.contains a.line then frontAccesses rest seen else a :: frontAccesses rest (a.line :: seen)

/-- Whether the owner of an access counts it eligible: a WINDOWED entry not while a window is open (R46), a copy write
once what it writes is fixed (R141). -/
def ownerAllows (s : State) (a : Access) : Bool :=
  match a.kind with
  | .writeBack => !s.quiet || (wbFind s a.line).any fun e => e.policy == .immediate
  | .copyWrite _ payload _ => payload.isSome
  | _ => true

/-- Whether the patrol reads of the sweep in the active slot are in class 2: it is SUSTAINED and the engine is RUNNING
(R31, R79). -/
def sustainedNow (s : State) : Bool :=
  s.patrol.engine == .running &&
    match s.patrol.active with
    | some w => (regionAt s w.region).entry.mode == .sustained
    | none => false

/-- The class of an access (R31). -/
def classOf (s : State) (a : Access) : Nat :=
  match a.kind with
  | .demandRead _ => 3
  | .demandWrite _ _ => 4
  | .maskedWrite _ _ _ _ => 4
  | .writeBack => 5
  | .recordWrite _ _ => 6
  | .copyRead => 7
  | .copyWrite _ _ _ => 7
  | .patrolRead owned => if owned && sustainedNow s then 2 else 8
  | .targetedRead _ => 8

/-- The classes from the highest down: class 4 goes before class 3 while the write-drain condition holds (R31, R32). -/
def classOrder (drain : Bool) : List Nat := if drain then [1, 2, 4, 3, 5, 6, 7, 8, 9] else [1, 2, 3, 4, 5, 6, 7, 8, 9]

/-- The eligible accesses, in order of taking; accept says to which banks the DRAM can accept an access (R31). -/
def eligibleAccesses (accept : BitVec 64) (s : State) : List Access :=
  (frontAccesses s.port.accesses []).filter fun a =>
    a.phase != .granted && ownerAllows s a && accept.getLsbD (keyOfAccess s a)

/-! ## The choice (R33) -/

/-- Whether an access is a row hit: its physical row is the open row of its bank (R33). -/
def isRowHit (s : State) (a : Access) : Bool :=
  match AMap.get? s.port.openRows (keyOfAccess s a) with
  | some o => o.row == lookupRow s a
  | none => false

/-- The winner at a grant opportunity: an access with the class it wins in and the class's pass count after the grant, or
a refresh of a rank. -/
inductive Winner where
  | access (a : Access) (cls passes : Nat)
  | refresh (rank : Nat)
deriving DecidableEq, Repr

/-- The access a class would grant: its oldest eligible one, or its oldest eligible row hit while the pass count is below
4 (R33). -/
def accessWinner (eligible : List Access) (cls : Nat) (s : State) : Option Winner :=
  let mine := eligible.filter fun a => classOf s a == cls
  let passes := s.port.passCounts.getD cls 0
  match mine with
  | [] => none
  | oldest :: _ =>
    match (if passes < 4 then mine.find? (isRowHit s) else none) with
    | some hit => some (if hit = oldest then .access oldest cls 0 else .access hit cls (passes + 1))
    | none => some (.access oldest cls 0)

/-- Whether a rank's owed refreshes put its request in a class (R37). -/
def refreshClass (owed : Nat) : Nat := if owed = 0 then 0 else if 6 ≤ owed then 1 else 9

/-- The rank whose refresh a class would grant: that whose oldest owed refresh became owed earliest, the lower rank
between equal ones, among ranks numbered from n on (R33, R37). -/
def refreshFrom (refresh : BitVec 4) (cls : Nat) :
    List Refresh → Nat → Option (Nat × FineTime) → Option (Nat × FineTime)
  | [], _, best => best
  | r :: rest, n, best =>
    refreshFrom refresh cls rest (n + 1)
      (match r.owed with
        | [] => best
        | t :: _ =>
          if refreshClass r.owed.length = cls ∧ refresh.getLsbD n then
            match best with
            | some b => if fineDiff t b.2 < 0 then some (n, t) else some b
            | none => some (n, t)
          else best)

/-- What a class would grant. -/
def classWinner (refresh : BitVec 4) (eligible : List Access) (s : State) (cls : Nat) : Option Winner :=
  if cls = 1 ∨ cls = 9 then (refreshFrom refresh cls s.port.refresh 0 none).map fun w => .refresh w.1
  else accessWinner eligible cls s

/-- The winner: what the highest class that holds an eligible request grants (R31). -/
def winner (accept : BitVec 64) (refresh : BitVec 4) (s : State) : Option Winner :=
  (classOrder s.port.drain).findSome? (classWinner refresh (eligibleAccesses accept s) s)

/-! ## Open rows (R34, R35) -/

/-- A granted access reaches a row of a bank: a row hit when the row is open, or else an activation, which closes the
bank's open row and is reported (R34, R35; notes/assumptions/23.md). -/
def openRow (rank bank row : Nat) (requester : Requester) (s : State) : State :=
  match AMap.get? s.port.openRows (bankKey rank bank) with
  | some o =>
    if o.row = row then s
    else reportActivation rank bank row requester
      { s with port.openRows := AMap.insert s.port.openRows (bankKey rank bank) { row := row, holdEnd := none } }
  | none =>
    reportActivation rank bank row requester
      { s with port.openRows := AMap.insert s.port.openRows (bankKey rank bank) { row := row, holdEnd := none } }

/-- Whether an access uses a row. -/
def Access.usesRow (row : Nat) (a : Access) : Bool := a.row == row || a.double == some row

/-- Whether a granted access to a row of a bank remains unperformed. -/
def rowBusy (s : State) (rank bank row : Nat) : Bool :=
  s.port.accesses.any fun a =>
    a.phase == .granted && rankOfAccess s a == rank && bankOfAccess s a == bank && a.usesRow row

/-- An access to the open row of a bank has been performed: the hold restarts, and with `page_hold` 0 the row closes as
soon as its last granted access is performed (R34). -/
def restartHold (rank bank row : Nat) (s : State) : State :=
  match AMap.get? s.port.openRows (bankKey rank bank) with
  | some o =>
    if o.row = row then
      if s.params.pageHold = 0 ∧ ¬ rowBusy s rank bank row then
        { s with port.openRows := AMap.erase s.port.openRows (bankKey rank bank) }
      else
        let o := { row := row, holdEnd := some (s.now + BitVec.ofNat 48 s.params.pageHold) }
        { s with port.openRows := AMap.insert s.port.openRows (bankKey rank bank) o }
    else s
  | none => s

/-! ## The grant -/

/-- The first access of a line's list changed. -/
def updateFirst (line : Nat) (f : Access → Access) : List Access → List Access
  | [] => []
  | a :: rest => if a.line = line then f a :: rest else a :: updateFirst line f rest

/-- The first access of a line's list removed: it has been performed (R26). -/
def removeFirst (line : Nat) : List Access → List Access
  | [] => []
  | a :: rest => if a.line = line then rest else a :: removeFirst line rest

/-- The access, granted. -/
def Access.given (row : Nat) (double : Option Nat) (grantNo : Nat) (a : Access) : Access :=
  { a with phase := .granted, row := row, double := double, grantNo := grantNo, refreshes := 0 }

/-- The entry of a granted write-back becomes granted (R47). -/
def markGranted (a : Access) (s : State) : State :=
  if a.kind = .writeBack then
    { s with wbq := s.wbq.map fun e => if e.line == a.line then { e with granted := true } else e }
  else s

/-- The second row of a doubled write is opened behind the first, and the doubling is counted (R142;
notes/assumptions/16.md). -/
def openDouble (rank bank : Nat) (double : Option Nat) (requester : Requester) (s : State) : State :=
  match double with
  | some row => openRow rank bank row requester (count .writesDoubled s)
  | none => s

/-- An access is granted the port (R23, R31, R33, R34, R35, R47, R142). -/
def grantAccess (a : Access) (cls passes : Nat) (s : State) : State :=
  let row := lookupRow s a
  let double := doubleRow s a
  let rank := rankOfAccess s a
  let bank := bankOfAccess s a
  let s := { s with port := { s.port with
    accesses := updateFirst a.line (Access.given row double s.port.grants) s.port.accesses
    passCounts := s.port.passCounts.set cls passes, grants := s.port.grants + 1 } }
  let s := openRow rank bank row a.kind.requester (markGranted a s)
  openDouble rank bank double a.kind.requester s

/-- The open rows of a rank close (R35). -/
def closeRank (rank : Nat) (s : State) : State :=
  { s with port.openRows := s.port.openRows.filter fun p => p.1 / 16 != rank }

/-- A granted access of a rank whose refresh is granted: one more refresh stands between it and what is granted from now
on (R35). -/
def Access.passed (g : Geometry) (rank : Nat) (a : Access) : Access :=
  if a.phase = .granted ∧ g.rankOf a.line = rank then { a with refreshes := a.refreshes + 1 } else a

/-- Every granted access of a rank is passed by a refresh of the rank (R35). -/
def passAccesses (rank : Nat) (s : State) : State :=
  { s with port.accesses := s.port.accesses.map (Access.passed s.port.geom rank) }

/-- A refresh of a rank is granted: its open rows close, their granted accesses being performed before whatever opens
them again (R35, R37; notes/assumptions/23.md). -/
def grantRefresh (rank : Nat) (s : State) : State :=
  let r := s.port.refresh.getD rank { timer := none, owed := [] }
  let s := closeRank rank (passAccesses rank s)
  count .refreshesIssued { s with port.refresh := s.port.refresh.set rank { r with owed := r.owed.tail } }

/-- The winner is granted the port. -/
def grant (w : Winner) (s : State) : State :=
  match w with
  | .access a cls passes => grantAccess a cls passes s
  | .refresh rank => grantRefresh rank s

/-! ## Performing an access (R26) -/

/-- The row an access leaves open: the spare of a doubled write, else its row. -/
def Access.lastRow (a : Access) : Nat := a.double.getD a.row

/-- Whether an access granted before another, to the same bank, must be performed first: the other needs a row opened
that closes the row this one uses, or a refresh granted between them closed that row (R35). -/
def mustPrecede (s : State) (a b : Access) : Bool :=
  b.phase == .granted && b.grantNo < a.grantNo && keyOfAccess s b == keyOfAccess s a &&
    (a.row != b.lastRow || a.double.isSome || a.refreshes < b.refreshes)

/-- Whether an access can now be performed: it has been granted, and no granted access must precede it (R35). -/
def canPerform (s : State) (a : Access) : Bool :=
  a.phase == .granted && !s.port.accesses.any (mustPrecede s a)

/-- The granted access of a line that can now be performed: the first of the line's list (R26). -/
def performable (s : State) (line : Nat) : Option Access :=
  (s.port.accesses.find? fun a => a.line == line).filter (canPerform s)

/-- The hold of the row an access leaves open restarts at its performing (R34). -/
def restartHoldOf (a : Access) (s : State) : State := restartHold (rankOfAccess s a) (bankOfAccess s a) a.lastRow s

/-- An access has been performed: it leaves line order, and the hold of its row restarts (R26, R34). -/
def finishAccess (a : Access) (s : State) : State :=
  restartHoldOf a { s with port.accesses := removeFirst a.line s.port.accesses }

/-- A line written to one row of the DRAM. -/
def writeRow (a : Access) (row : Nat) (v : Line) (s : State) : State :=
  let place := placeOf (rankOfAccess s a) (bankOfAccess s a) row (s.port.geom.colOf a.line)
  { s with dram := dramWrite s.dram place v }

/-- A line written as an access's grant decided: to its row, and to the spare as well when it is doubled (R3, R142). -/
def writeLine (a : Access) (data : Data) (form : Form) (s : State) : State :=
  let v := encodeLine s.code data form
  let t := writeRow a a.row v s
  match a.double with
  | some spare => writeRow a spare v t
  | none => t

end Sys2Proof.Machine
end

