-- ==== Sys2Proof/Machine/Frames.lean ====
section
/-! DEFINITION. The meanings of POWER_ON, of the six commands by which a command frame arrives, and of RETURN_FRAME_SENT
(chapter 11), with what the DRAM Port does with the requests it takes (R24 to R30) and the lock check (R64, R65). -/

namespace Sys2Proof.Machine

open Sys2Proof

/-! ## Answers of the Link Interface (R187) -/

/-- A READ accepted in CONFIG is answered NOT_READY with 64 zero bytes (R187). -/
def notReadyData (tag : Nat) (s : State) : State :=
  count .notReadyAnswers (handReturn (.data tag .notReady 0) s)

/-- A WRITE or WRITE_MASKED accepted in CONFIG is answered NOT_READY (R187). -/
def notReadyAck (tag : Nat) (s : State) : State :=
  count .notReadyAnswers (handReturn (.ack tag .notReady) s)

/-! ## What the DRAM Port does with a READ (R24, R28) -/

/-- The DATA outcome of a READ forwarded from an entry (R28). -/
def WbKind.dataOutcome : WbKind → DataOutcome
  | .rewrite => .corrected
  | .poison => .poisoned

/-- A READ with a valid line address is taken: forwarded from an entry of the Write-back Queue, or into line order
(R28). -/
def takeRead (tag line : Nat) (s : State) : State :=
  match forwardEntry s line with
  | some e => count .writebacksForwarded (handReturn (.data tag e.kind.dataOutcome e.data) s)
  | none => takeAccess line (.demandRead tag) .waiting s

/-- A READ reaches the DRAM Port (R24). -/
def portRead (tag line : Nat) (s : State) : State :=
  if s.capacity ≤ line then count .addressErrors (handReturn (.data tag .addressError 0) s)
  else takeRead tag line s

/-! ## The lock check (R64, R65) -/

/-- The locked region that refuses a write without permit, if any (R64). -/
def lockingRegion (s : State) (line : Nat) (permit : Bool) : Option Nat :=
  (regionOf s line).filter fun i => (regionAt s i).entry.locked && !permit

/-- The LOCK_FAULT record of a refused write (R65, R176). -/
def lockRecord (source : Source) (region line : Nat) (s : State) : Record :=
  let g := s.port.geom
  { kind := 3, source := source.code, region := some region, line := line, rank := g.rankOf line, bank := g.bankOf line
    row := servedRow s (g.rankOf line) (g.bankOf line) (g.logicalOf line), col := g.colOf line }

/-- A write fails the lock check: ACK, record, cause and count (R65). The ACK stands in the return queue before an ALERT
that the record or the cause makes due at once (notes/assumptions/43.md). -/
def failLock (source : Source) (tag region line : Nat) (s : State) : State :=
  let s := handReturn (.ack tag .lockFault) s
  count .lockFaults (raise .lockFault (handRecord (lockRecord source region line s) s))

/-! ## What the DRAM Port does with a write (R17, R24, R27, R30) -/

/-- A WRITE, or a WRITE_MASKED with a full mask, is taken: it cancels the pending write-back of its line and joins line
order and the drain count (R25, R27, R32, R49). -/
def takeWrite (tag line : Nat) (data : Data) (s : State) : State :=
  reviewDrain (takeAccess line (.demandWrite tag data) .waiting (wbCancel line s))

/-- Data bytes of the frame where the mask selects them, of the base elsewhere (R15). -/
def overlay (mask : BitVec 64) (frame base : Data) : Data :=
  let keep : Data := xorAll ((List.range 64).map fun i =>
    if mask.getLsbD i then BitVec.ofNat 512 (255 * 2 ^ (8 * i)) else 0)
  frame &&& keep ||| base &&& ~~~keep

/-- A WRITE_MASKED with a partial mask is taken as one same-line unit: forwarded from an entry, which is removed unless
granted, or with its read waiting in line order (R30, R50). -/
def takeMasked (tag line : Nat) (data : Data) (mask : BitVec 64) (s : State) : State :=
  match forwardEntry s line with
  | some e =>
    let unit := .maskedWrite tag data mask (some (overlay mask data e.data, e.kind.form))
    reviewDrain (takeAccess line unit .merging (wbCancel line (count .writebacksForwarded s)))
  | none => reviewDrain (takeAccess line (.maskedWrite tag data mask none) .waiting s)

/-- The mask test of a WRITE_MASKED: an empty mask is answered OK, a full one is a full write, any other is a unit (R15,
R30). -/
def testMask (tag line : Nat) (data : Data) (mask : BitVec 64) (s : State) : State :=
  if mask = 0 then handReturn (.ack tag .ok) s
  else if mask = BitVec.allOnes 64 then takeWrite tag line data s
  else takeMasked tag line data mask s

/-- A write reaches the DRAM Port: the address check and the lock check, and then what is given (R24, R64). -/
def portWrite (source : Source) (tag line : Nat) (permit : Bool) (passed : State → State) (s : State) : State :=
  if s.capacity ≤ line then count .addressErrors (handReturn (.ack tag .addressError) s)
  else
    match lockingRegion s line permit with
    | some i => failLock source tag i line s
    | none => passed s

/-! ## MAINT (R192) -/

/-- A maintenance request arrives: it enters the tail of the request queue, or is answered BUSY when the queue holds 4
(R192). -/
def takeRequest (tag code : Nat) (args : List Word32) (s : State) : State :=
  if s.maint.queue.length < Config.maintCapacity then
    { s with maint.queue := s.maint.queue ++ [{ tag := tag, code := code, args := args }] }
  else count .maintBusy (handReturn (.maintResp tag .busy []) s)

/-! ## Frames that belong to no kind (R185) -/

/-- Whether the bytes of a frame have a kind byte above 4 or a check that does not match (R184, R185). -/
def isMalformed (bytes : List Byte) : Bool :=
  match bytes with
  | [] => true
  | kind :: _ => 4 < kind.toNat || bytes != sealFrame (bytes.take (bytes.length - 2))

/-! ## The meanings -/

/-- POWER_ON (R199, R39, R98, R110, R133, R155, R167, R181, R191): every block takes its power-on state and work in flight
is lost. The DRAM keeps what was written, and the line code is a property of the part (notes/assumptions/34.md). -/
def execPowerOn (s : State) : Answer :=
  .next { State.reset with dram := s.dram, code := s.code, pending := s.pending }

/-- IDLE (R185): the frame is consumed with no effect, or discarded for a bad check. -/
def execIdle (byte1 byte2 byte3 : Byte) (check : BitVec 16) (s : State) : Answer :=
  if check = crc16 (idleBody byte1 byte2 byte3) then .next s else .next (discardFrame s)

/-- READ (R28, R185, R187). -/
def execRead (tag byte2 byte3 : Byte) (line : BitVec 64) (check : BitVec 16) (s : State) : Answer :=
  if frameRefused (readBody tag byte2 byte3 line) check tag false s then .next (discardFrame s)
  else
    let s := acceptFrame tag s
    match s.link.channel with
    | .config => .next (notReadyData tag.toNat s)
    | .online => .next (portRead tag.toNat line.toNat s)

/-- WRITE (R17, R185, R187). -/
def execWrite (tag flags byte3 : Byte) (line : BitVec 64) (data : Data) (check : BitVec 16) (s : State) : Answer :=
  if frameRefused (writeBody tag flags byte3 line data) check tag false s then .next (discardFrame s)
  else
    let s := acceptFrame tag s
    match s.link.channel with
    | .config => .next (notReadyAck tag.toNat s)
    | .online =>
      .next (portWrite .demand tag.toNat line.toNat (permitOf flags) (takeWrite tag.toNat line.toNat data) s)

/-- WRITE_MASKED (R15, R30, R185, R187). -/
def execWriteMasked (tag flags byte3 : Byte) (line : BitVec 64) (data : Data) (mask : BitVec 64) (check : BitVec 16)
    (s : State) : Answer :=
  if frameRefused (writeMaskedBody tag flags byte3 line data mask) check tag false s then .next (discardFrame s)
  else
    let s := acceptFrame tag s
    match s.link.channel with
    | .config => .next (notReadyAck tag.toNat s)
    | .online =>
      .next (portWrite .rmw tag.toNat line.toNat (permitOf flags) (testMask tag.toNat line.toNat data mask) s)

/-- MAINT (R185, R187, R192): accepted in CONFIG and ONLINE alike. -/
def execMaint (tag byte2 : Byte) (code pad : BitVec 16) (args : List Word32) (check : BitVec 16) (s : State) : Answer :=
  if frameRefused (maintBody tag byte2 code pad args) check tag (8 < args.length) s then .next (discardFrame s)
  else .next (takeRequest tag.toNat code.toNat args (acceptFrame tag s))

/-- MALFORMED_FRAME (R185): a frame that belongs to no kind is discarded. Bytes that make a good frame of some kind are no
such event (notes/assumptions/5.md). -/
def execMalformedFrame (bytes : List Byte) (s : State) : Answer :=
  if isMalformed bytes then .next (discardFrame s) else .next s

/-- The tag of a frame that has been sent becomes free (R186). -/
def releaseTag (f : ReturnFrame) (s : State) : State :=
  match f.tag? with
  | some tag => freeTag tag s
  | none => s

/-- The frame at the head of the return queue has left the part: its tag becomes free, and the next frame of the queue
begins to be sent (R186, R189). -/
def frameLeft (f : ReturnFrame) (rest : List ReturnFrame) (s : State) : State :=
  releaseTag f { s with link := { s.link with returns := rest, begun := !rest.isEmpty, sent := sealFrame f.body } }

/-- An IDLE frame has left the part, and the frame at the head of the return queue, if any, begins to be sent (R189). -/
def idleLeft (s : State) : State :=
  { s with link := { s.link with begun := !s.link.returns.isEmpty, sent := sealFrame idleReturnBody } }

/-- RETURN_FRAME_SENT (R186, R189): the last byte of the frame on the link leaves the part: the head of the return queue
when it has begun, or else the IDLE frame that the link carried when the queue was empty (notes/assumptions/11.md). -/
def execReturnFrameSent (s : State) : Answer :=
  match s.link.returns with
  | f :: rest => if s.link.begun then .next (frameLeft f rest s) else .next (idleLeft s)
  | [] => .next (idleLeft s)

end Sys2Proof.Machine
end

