-- ==== Sys2Proof/Machine/Decodes.lean ====
section
/-! DEFINITION. The arrival of a read's data (chapter 1, sections 1.5 and 1.6): the decode, the fault event it makes
(R11), the write-back it hands to the Write-back Queue (R27, R41 to R45, R143), and the meanings of the four decode
commands (R13 to R16). -/

namespace Sys2Proof.Machine

open Sys2Proof

/-! ## The decode -/

/-- The line as it arrives: as last written, but for the bits of the damage (R5; notes/assumptions/7.md). -/
def arrivedLine (s : State) (a : Access) (damage : Line) : Line :=
  dramRead s.dram (placeOf (rankOfAccess s a) (bankOfAccess s a) a.row (s.port.geom.colOf a.line)) ^^^ damage

/-- The decode of an access's line, with the erasure set of its rank as it stands (R4). -/
def decodeAccess (s : State) (a : Access) (damage : Line) : Decoded :=
  decodeLine s.code (erasureSet s (rankOfAccess s a)) (arrivedLine s a damage)

/-- What a fault event says of the device: none for UNCORRECTABLE, the located device for CORRECTED and for POISONED with
a located device; no event in every other case (R9, R11). -/
def Decoded.fault? (d : Decoded) : Option (Option (Nat × Nat)) :=
  match d.outcome with
  | .clean => none
  | .corrected => d.located.map some
  | .uncorrectable => some none
  | .poisoned => d.located.map some

/-- The fault event of a decode, if it makes one (R11). Its line address is the access's own, also when the slot of its
spare row has become DEAD or FREE since the grant (notes/assumptions/45.md). -/
def eventOf (source : Source) (a : Access) (d : Decoded) (s : State) : Option FaultEvent :=
  d.fault?.map fun located =>
    { rank := rankOfAccess s a, bank := bankOfAccess s a, row := a.row, col := s.port.geom.colOf a.line, line := a.line
      located := located, source := source, region := regionOf s a.line, poisoned := d.outcome == .poisoned }

/-- The event of a decode, if any, is handed to the Fault Table (R12). -/
def handEvent (ev : Option FaultEvent) (s : State) : State :=
  match ev with
  | some e => takeEvent e s
  | none => s

/-! ## Write-backs (R27, R41 to R45) -/

/-- The kind of the write-back a decode calls for (R41). -/
def Decoded.writeback? (d : Decoded) : Option WbKind :=
  match d.outcome with
  | .clean => none
  | .corrected => some .rewrite
  | .uncorrectable => some .poison
  | .poisoned => if d.located.isSome then some .poison else none

/-- The write-back policy for a line, from the region that holds it (R42). -/
def policyOf (s : State) (line : Nat) : Policy :=
  match regionOf s line with
  | some i => (regionAt s i).entry.policy
  | none => .immediate

/-- Whether a write-back of a line is superseded by a write that is in line order (R27, case 2 of R43;
notes/assumptions/25.md). -/
def superseded (s : State) (line : Nat) : Bool :=
  (lineList s line).any fun a => a.kind.isDemandWrite || a.kind.isRecordWrite

/-- An entry replaced in place (R44). -/
def replaceEntry (line : Nat) (data : Data) (kind : WbKind) (policy : Policy) (s : State) : State :=
  count .writebacksReplaced
    { s with wbq := s.wbq.map fun e =>
        if e.line == line then { e with data := data, kind := kind, policy := policy } else e }

/-- A new entry at the tail, its write taken (case 4 of R43). -/
def insertEntry (line : Nat) (data : Data) (kind : WbKind) (policy : Policy) (s : State) : State :=
  let e := { line := line, data := data, kind := kind, policy := policy, inserted := s.now, granted := false }
  count .writebacksInserted (takeAccess line .writeBack .waiting { s with wbq := s.wbq ++ [e] })

/-- A write-back is handed to the Write-back Queue, which decides it by the first case of R43 that applies, R27
superseding it first. -/
def handWriteback (line : Nat) (data : Data) (kind : WbKind) (policy : Policy) (s : State) : State :=
  if s.maint.clearing then s
  else if superseded s line then s
  else if (wbFind s line).isSome then replaceEntry line data kind policy s
  else if s.wbq.length < Config.wbqCapacity then insertEntry line data kind policy s
  else count .writebacksDropped s

/-- The write-back of a decode, if it calls for one, handed on with the policy given. -/
def handDecoded (line : Nat) (d : Decoded) (policy : Policy) (s : State) : State :=
  match d.writeback? with
  | some kind => handWriteback line d.data kind policy s
  | none => s

/-! ## What each owner does with its line -/

/-- The DATA outcome of a decode (R13). -/
def Decoded.dataOutcome (d : Decoded) : DataOutcome :=
  match d.outcome with
  | .clean => .clean
  | .corrected => .corrected
  | .uncorrectable => .poisoned
  | .poisoned => .poisoned

/-- The form a line is written in after its decode: fresh after CLEAN and CORRECTED, with the poison mark after
UNCORRECTABLE and POISONED (R15, R16). -/
def Decoded.form (d : Decoded) : Form :=
  match d.outcome with
  | .clean => .fresh
  | .corrected => .fresh
  | .uncorrectable => .poison
  | .poisoned => .poison

/-- A line of a sweep is done (R76, R80). -/
def lineDone (s : State) : State :=
  let done := fun w : Sweep => { w with inFlight := w.inFlight - 1 }
  { s with patrol := { s.patrol with active := s.patrol.active.map done, held := s.patrol.held.map done } }

/-- The region of the sweep in the active slot or the held record. -/
def sweptRegion (s : State) : Option Nat :=
  match s.patrol.active with
  | some w => some w.region
  | none => s.patrol.held.map Sweep.region

/-- A fault event of a line the sweep issued is counted against its region (R58). -/
def countSweepEvent (ev : Option FaultEvent) (s : State) : State :=
  match ev, sweptRegion s with
  | some e, some i =>
    let g := regionAt s i
    setRegion i { g with status := { g.status with
      corrected := satAdd g.status.corrected (!e.isUncorrectable).toNat
      uncorrectable := satAdd g.status.uncorrectable e.isUncorrectable.toNat } } s
  | _, _ => s

/-- The read of a demand access has been decoded: DATA, the event, the write-back (R13; notes/assumptions/13.md). -/
def demandDecoded (a : Access) (tag : Nat) (d : Decoded) (s : State) : State :=
  let ev := eventOf .demand a d s
  let policy := policyOf s a.line
  let s := handDemandReturn tag (.data tag d.dataOutcome d.data) (finishAccess a s)
  handDecoded a.line d policy (handEvent ev s)

/-- The read of a sweep has been decoded: the event, its count, the write-back, the line done (R14, R58, R76). -/
def patrolDecoded (a : Access) (owned : Bool) (d : Decoded) (s : State) : State :=
  let ev := eventOf .patrol a d s
  let policy := policyOf s a.line
  let s := handEvent ev (finishAccess a s)
  let s := if owned then countSweepEvent ev s else s
  let s := handDecoded a.line d policy s
  if owned then lineDone s else s

/-- The read of a targeted job has been decoded: the event, and the write-back when the row serves its logical row (R14,
R143). -/
def targetedDecoded (a : Access) (d : Decoded) (s : State) : State :=
  let ev := eventOf .targeted a d s
  let policy := policyOf s a.line
  let serving := serves s (rankOfAccess s a) (bankOfAccess s a) a.row
  let s := handEvent ev (finishAccess a s)
  if serving then handDecoded a.line d policy s else s

/-- The merge of a masked-write unit: it becomes merging and keeps its place in line order (R15, R30). -/
def mergeUnit (a : Access) (tag : Nat) (data : Data) (mask : BitVec 64) (d : Decoded) (s : State) : State :=
  let unit := .maskedWrite tag data mask (some (overlay mask data d.data, d.form))
  let merged := fun b : Access => { b with kind := unit, phase := .merging }
  restartHoldOf a { s with port.accesses := updateFirst a.line merged s.port.accesses }

/-- The payload of a copy write fixed by its read's decode (R16). -/
def fixPayload (line : Nat) (payload : Data × Form) (b : Access) : Access :=
  match b.kind with
  | .copyWrite spare none forwarded =>
    if b.line = line then { b with kind := .copyWrite spare (some payload) forwarded } else b
  | _ => b

/-- The read of a copy pair has been decoded: the pair's write takes the form R16 requires, the job counts the line, and
the event is handed on (R141). -/
def copyDecoded (a : Access) (d : Decoded) (s : State) : State :=
  let ev := eventOf .repair a d s
  let s := finishAccess a s
  let s := { s with port.accesses := s.port.accesses.map (fixPayload a.line (d.data, d.form)) }
  handEvent ev (countCopied d.outcome s)

/-! ## The meanings -/

/-- DEMAND_READ_DECODE (R13): the data of the granted demand read of the line arrive. -/
def execDemandReadDecode (line : Nat) (damage : Line) (s : State) : Answer :=
  match performable s line with
  | some a =>
    match a.kind with
    | .demandRead tag => .next (settle (demandDecoded a tag (decodeAccess s a damage) s))
    | _ => .next s
  | none => .next s

/-- SCRUB_READ_DECODE (R14): the data of the granted patrol or targeted read of the line arrive. -/
def execScrubReadDecode (line : Nat) (damage : Line) (s : State) : Answer :=
  match performable s line with
  | some a =>
    match a.kind with
    | .patrolRead owned => .next (settle (patrolDecoded a owned (decodeAccess s a damage) s))
    | .targetedRead _ => .next (settle (targetedDecoded a (decodeAccess s a damage) s))
    | _ => .next s
  | none => .next s

/-- RMW_READ_DECODE (R15, R30): the data of the granted read of a masked-write unit arrive; the unit merges, and its
fault event is handed on. -/
def execRmwReadDecode (line : Nat) (damage : Line) (s : State) : Answer :=
  match performable s line with
  | some a =>
    match a.kind with
    | .maskedWrite tag data mask none =>
      let d := decodeAccess s a damage
      .next (settle (handEvent (eventOf .rmw a d s) (mergeUnit a tag data mask d s)))
    | _ => .next s
  | none => .next s

/-- COPY_READ_DECODE (R16, R141): the data of the granted copy read of the line arrive. -/
def execCopyReadDecode (line : Nat) (damage : Line) (s : State) : Answer :=
  match performable s line with
  | some a =>
    match a.kind with
    | .copyRead => .next (settle (copyDecoded a (decodeAccess s a damage) s))
    | _ => .next s
  | none => .next s

end Sys2Proof.Machine
end

