-- ==== Sys2Proof/Machine/Performed.lean ====
section
/-! DEFINITION. The meanings of ARBITER_GRANT and of the five commands by which the DRAM performs a write (chapters 2, 3, 8
and 10). -/

namespace Sys2Proof.Machine

open Sys2Proof

/-! ## What follows each write -/

/-- A demand write has been performed: its line is written, it leaves line order and the drain count, and its ACK is handed
to the Link Interface (R17, R26, R32, R34). -/
def demandWritten (a : Access) (tag : Nat) (data : Data) (s : State) : State :=
  handDemandReturn tag (.ack tag .ok) (reviewDrain (finishAccess a (writeLine a data .fresh s)))

/-- The status of a masked write's ACK, from the form its merged line was written in (R15). -/
def mergeStatus : Form → AckStatus
  | .fresh => .ok
  | .poison => .poisonedMerge

/-- The write of a masked-write unit has been performed (R15, R30, R32). -/
def maskedWritten (a : Access) (tag : Nat) (data : Data) (form : Form) (s : State) : State :=
  handDemandReturn tag (.ack tag (mergeStatus form)) (reviewDrain (finishAccess a (writeLine a data form s)))

/-- The counter of a written entry (R48). -/
def WbKind.counter : WbKind → Ctr
  | .rewrite => .rewritesWritten
  | .poison => .poisonMarksWritten

/-- An entry's write has been performed: the entry leaves the queue and line order, and is counted by its kind (R48). -/
def entryWritten (a : Access) (e : WbEntry) (s : State) : State :=
  let s := finishAccess a (writeLine a e.data e.kind.form s)
  count e.kind.counter { s with wbq := s.wbq.filter fun f => f.line != a.line }

/-- A record write has been performed (R171). -/
def recordWritten (a : Access) (sequence : Word32) (data : Data) (s : State) : State :=
  recordPerformed sequence (finishAccess a (writeLine a data .fresh s))

/-- A copy write has been performed: its line is in the spare, `copy_lines` is counted, and the cursor rises (R141). -/
def spareWritten (a : Access) (data : Data) (form : Form) (s : State) : State :=
  copyWritten (count .copyLines (finishAccess a (writeLine a data form s)))

/-! ## The meanings -/

/-- ARBITER_GRANT (R31): the port is granted to the winner, if any request is eligible. -/
def execArbiterGrant (accept : BitVec 64) (refresh : BitVec 4) (s : State) : Answer :=
  match winner accept refresh s with
  | some w => .next (settle (grant w s))
  | none => .next s

/-- DEMAND_WRITE_PERFORMED (R17): the DRAM has taken the data of the granted demand write of the line. -/
def execDemandWritePerformed (line : Nat) (s : State) : Answer :=
  match performable s line with
  | some a =>
    match a.kind with
    | .demandWrite tag data => .next (demandWritten a tag data s)
    | _ => .next s
  | none => .next s

/-- MASKED_WRITE_PERFORMED (R30): the DRAM has taken the data of the granted write of a masked-write unit. -/
def execMaskedWritePerformed (line : Nat) (s : State) : Answer :=
  match performable s line with
  | some a =>
    match a.kind with
    | .maskedWrite tag _ _ (some merged) => .next (maskedWritten a tag merged.1 merged.2 s)
    | _ => .next s
  | none => .next s

/-- WRITEBACK_PERFORMED (R48): the DRAM has taken the data of the granted entry of the line. -/
def execWritebackPerformed (line : Nat) (s : State) : Answer :=
  match performable s line, wbFind s line with
  | some a, some e => if a.kind = .writeBack then .next (entryWritten a e s) else .next s
  | _, _ => .next s

/-- RECORD_WRITE_PERFORMED (R171): the DRAM has taken the granted record write of the line. -/
def execRecordWritePerformed (line : Nat) (s : State) : Answer :=
  match performable s line with
  | some a =>
    match a.kind with
    | .recordWrite sequence data => .next (recordWritten a sequence data s)
    | _ => .next s
  | none => .next s

/-- COPY_WRITE_PERFORMED (R141): the DRAM has taken the granted copy write of the line. -/
def execCopyWritePerformed (line : Nat) (s : State) : Answer :=
  match performable s line with
  | some a =>
    match a.kind with
    | .copyWrite _ (some payload) _ => .next (spareWritten a payload.1 payload.2 s)
    | _ => .next s
  | none => .next s

end Sys2Proof.Machine
end

