-- ==== Sys2Proof/Machine/Scrub.lean ====
section
/-! DEFINITION. The meanings of the requests of the Region Table (R59 to R63), the Patrol Engine (R84 to R89) and Quiet
Window Control (R100, R101). -/

namespace Sys2Proof.Machine

open Sys2Proof

/-! ## The Region Table -/

/-- The region entry a REGION_LOAD gives, with its period and burst length clamped, when its class and mode are named
values (R59, R60, R194; notes/assumptions/32.md for a period above 65535). -/
def loadedEntry (args : List Word32) : Option RegionEntry :=
  let packed := args.getD 5 0
  match classOf? (packed.extractLsb' 1 2).toNat, modeOf? (packed.extractLsb' 3 2).toNat with
  | some cls, some mode =>
    some { valid := true, base := argOf args 1, length := argOf args 2, patrol := packed.getLsbD 0
           period := clampTo (1, 65535) (argOf args 3), cls := cls, mode := mode, burst := clampTo (2, 16) (argOf args 4)
           policy := if packed.getLsbD 5 then .windowed else .immediate, locked := packed.getLsbD 6
           sweepRecords := packed.getLsbD 7 }
  | _, _ => none

/-- Whether two ranges share a line. -/
def RegionEntry.meets (e f : RegionEntry) : Bool := e.base < f.base + f.length && f.base < e.base + e.length

/-- The lowest index of another valid region that shares a line with an entry (R59). -/
def overlapOf (s : State) (i : Nat) (e : RegionEntry) : Option Nat :=
  (List.range Config.regionCount).find? fun j =>
    j != i && (regionAt s j).entry.valid && e.meets (regionAt s j).entry

/-- An accepted load: the entry with its status set anew, due now, and the selection it brings (R60, R71). -/
def loadRegion (i : Nat) (e : RegionEntry) (s : State) : State :=
  runSelection (setRegion i { entry := e, status := { due := s.now } } s)

/-- REGION_LOAD's decision (R59, R60). -/
def doRegionLoad (args : List Word32) (s : State) : Answered :=
  let i := argOf args 0
  if ¬ s.port.geomSet then refuse .notConfigured s
  else
    match loadedEntry args with
    | none => refuse .badArgument s
    | some e =>
      if 31 < i ∨ e.length = 0 ∨ s.port.geom.capacity < e.base + e.length then refuse .badArgument s
      else
        match overlapOf s i e with
        | some j => { status := .overlap, results := [word j], state := s }
        | none =>
          if (regionAt s i).status.state ≠ .idle then refuse .busy s
          else accept (regionLoadWords i e) (loadRegion i e s)

/-- REGION_CLEAR's decision (R62). -/
def doRegionClear (args : List Word32) (s : State) : Answered :=
  let i := argOf args 0
  if 31 < i then refuse .badArgument s
  else if (regionAt s i).status.state ≠ .idle then refuse .busy s
  else accept [] (setRegion i { regionAt s i with entry.valid := false } s)

/-- REGION_READ's decision (R63). -/
def doRegionRead (args : List Word32) (s : State) : Answered :=
  if 31 < argOf args 0 then refuse .badArgument s
  else acceptPart (argOf args 1) (regionWords (regionAt s (argOf args 0))) s

/-- REGION_LOAD (R59, R60). -/
def execRegionLoad (s : State) : Answer := .next (serveSettled 10 6 doRegionLoad s)

/-- REGION_CLEAR (R62). -/
def execRegionClear (s : State) : Answer := .next (serve 11 1 doRegionClear s)

/-- REGION_READ (R63). -/
def execRegionRead (s : State) : Answer := .next (serve 12 1 doRegionRead s)

/-! ## The Patrol Engine -/

/-- What the five requests of the Patrol Engine are answered with: the engine state and the regions in the active slot, the
staged slot and the held record (R70). -/
def patrolWords (s : State) : List Word32 :=
  [word s.patrol.engine.code, placeWord (s.patrol.active.map Sweep.region),
   placeWord (s.patrol.staged.map Staged.region), placeWord (s.patrol.held.map Sweep.region)]

/-- A patrol request refused: it changes nothing, and is answered with the words of R70
(notes/assumptions/19.md). -/
def refusePatrol (status : Status) (s : State) : Answered := { status := status, results := patrolWords s, state := s }

/-- A patrol request carried out, answered with the words as it leaves them (R70). -/
def acceptPatrol (s : State) : Answered := accept (patrolWords s) s

/-- The engine's state. -/
def setEngine (e : EngineState) (s : State) : State := { s with patrol := { s.patrol with engine := e } }

/-- SCRUB_ENABLE's decision (R89). -/
def doScrubEnable (_ : List Word32) (s : State) : Answered :=
  if s.patrol.engine = .disabled then acceptPatrol (runSelection (setEngine .idle s)) else acceptPatrol s

/-- SCRUB_DISABLE's decision (R88, R106). -/
def doScrubDisable (_ : List Word32) (s : State) : Answered :=
  if s.patrol.engine = .disabled then acceptPatrol s
  else acceptPatrol (reviewOverride (setEngine .disabled (emptySlots s)))

/-- The sweep of SWEEP_NOW takes the staged slot, an auto-staged sweep of another region leaving it with its due time kept
(R84). -/
def stageHost (i : Nat) (s : State) : State :=
  let s := idleRegion (s.patrol.staged.map Staged.region) s
  setSweepState i .staged { s with patrol := { s.patrol with staged := some { region := i, hostPlaced := true } } }

/-- Whether the staged slot holds a host-placed sweep. -/
def hostStaged (s : State) : Bool := s.patrol.staged.any Staged.hostPlaced

/-- SWEEP_NOW's decision (R84). -/
def doSweepNow (args : List Word32) (s : State) : Answered :=
  let i := argOf args 0
  let state := (regionAt s i).status.state
  if 31 < i ∨ ¬ (regionAt s i).entry.valid then refusePatrol .badArgument s
  else if s.patrol.engine = .disabled ∨ state = .active ∨ state = .held ∨ hostStaged s then refusePatrol .busy s
  else acceptPatrol (runSelection (stageHost i s))

/-- A sweep goes from the active slot to the held record, its burst stopped and its boundary given up (R86). -/
def holdSweep (s : State) : State :=
  match s.patrol.active with
  | some w =>
    setSweepState w.region .held
      { s with patrol := { s.patrol with active := none, held := some { w.stopBurst with deferred := false } } }
  | none => s

/-- SWEEP_HALT's decision (R86, R106). -/
def doSweepHalt (_ : List Word32) (s : State) : Answered :=
  if s.patrol.engine = .halted ∨ s.patrol.engine = .disabled then refusePatrol .busy s
  else acceptPatrol (reviewOverride (setEngine .halted (holdSweep s)))

/-- The held sweep returns to the active slot, its pace recomputed (R87, R106). -/
def returnSweep (w : Sweep) (s : State) : State :=
  let s := setSweepState w.region .active
    { s with patrol := { s.patrol with active := some w, held := none
                                       engine := if s.quiet then .paused else .running } }
  reviewOverride (recompute s)

/-- The patrol goes on from HALTED: with the held sweep, or with the staged one if there is one (R87). -/
def resumePatrol (s : State) : State :=
  match s.patrol.held with
  | some w => runSelection (returnSweep w s)
  | none => runSelection (setEngine .idle s)

/-- SWEEP_RESUME's decision (R87). -/
def doSweepResume (_ : List Word32) (s : State) : Answered :=
  if s.patrol.engine = .halted then acceptPatrol (resumePatrol s) else refusePatrol .busy s

/-- SCRUB_ENABLE (R89). -/
def execScrubEnable (s : State) : Answer := .next (serveSettled 13 0 doScrubEnable s)

/-- SCRUB_DISABLE (R88). -/
def execScrubDisable (s : State) : Answer := .next (serveSettled 14 0 doScrubDisable s)

/-- SWEEP_NOW (R84). -/
def execSweepNow (s : State) : Answer := .next (serveSettled 15 1 doSweepNow s)

/-- SWEEP_HALT (R86). -/
def execSweepHalt (s : State) : Answer := .next (serveSettled 16 0 doSweepHalt s)

/-- SWEEP_RESUME (R87). -/
def execSweepResume (s : State) : Answer := .next (serveSettled 17 0 doSweepResume s)

/-! ## Quiet windows -/

/-- The state of the window as a result word: CLOSED 0, OPEN 1 (R193). -/
def windowCode (s : State) : Nat := if s.quiet then 1 else 0

/-- The override time as it is returned: 0 when there is none (R100). -/
def overrideTime (s : State) : Elapsed := (s.window.bind Window.override).getD 0

/-- A window opens, or the end time of an open one is replaced (R100). -/
def setWindow (endTime : Elapsed) (s : State) : State :=
  match s.window with
  | none => count .quietOpened (openWindow endTime s)
  | some win => count .quietExtended { s with window := some { win with endTime := endTime } }

/-- QUIET_BEGIN's decision (R100). -/
def doQuietBegin (args : List Word32) (s : State) : Answered :=
  let d := clampTo (1, 10000000) (argOf args 0)
  let endTime := s.now + BitVec.ofNat 48 d
  let t := reviewOverride (setWindow endTime s)
  accept ([word d] ++ timeWords endTime ++ timeWords (overrideTime t) ++ [word (windowCode t)]) t

/-- QUIET_END's decision (R101). -/
def doQuietEnd (_ : List Word32) (s : State) : Answered :=
  match s.window with
  | none => refuse .busy s
  | some win => accept (timeWords win.endTime) (count .quietEnded (closeWindow s))

/-- QUIET_BEGIN (R100). -/
def execQuietBegin (s : State) : Answer := .next (serveSettled 18 1 doQuietBegin s)

/-- QUIET_END (R101). -/
def execQuietEnd (s : State) : Answer := .next (serveSettled 19 0 doQuietEnd s)

end Sys2Proof.Machine
end

