-- ==== Sys2Proof/Machine/Tables.lean ====
section
/-! DEFINITION. The meanings of the requests of the Fault Table (R128 to R130), the Repair Engine (R139, R148 to R150, R152,
R154) and the Report Unit (R168, R173, R174, R178). -/

namespace Sys2Proof.Machine

open Sys2Proof

/-! ## The Fault Table -/

/-- FAULT_READ's decision (R128; notes/assumptions/20.md). -/
def doFaultRead (args : List Word32) (s : State) : Answered :=
  if 63 < argOf args 0 then refuse .badArgument s
  else acceptPart (argOf args 1) (faultWords (faultAt s (argOf args 0))) s

/-- FAULT_CLEAR's decision (R129). -/
def doFaultClear (args : List Word32) (s : State) : Answered :=
  if 63 < argOf args 0 then refuse .badArgument s
  else if (faultAt s (argOf args 0)).state = .retiring then refuse .busy s
  else accept [] (setFault (argOf args 0) {} s)

/-- Whether the geometry in force includes a rank. -/
def includesRank (s : State) (rank : Nat) : Bool := s.port.geomSet && rank < s.port.geom.ranks

/-- The word DEVICE_READ gives for a device: zero in a rank the geometry does not include (R130, R193). -/
def deviceResult (s : State) (rank device : Nat) : Word32 :=
  if includesRank s rank then deviceWord (deviceAt s rank device) (isErased s rank device) else 0

/-- DEVICE_READ's decision (R130). -/
def doDeviceRead (args : List Word32) (s : State) : Answered :=
  if 3 < argOf args 0 then refuse .badArgument s
  else acceptPart (argOf args 1) ((List.range 20).map (deviceResult s (argOf args 0))) s

/-- FAULT_READ (R128). -/
def execFaultRead (s : State) : Answer := .next (serve 20 1 doFaultRead s)

/-- FAULT_CLEAR (R129). -/
def execFaultClear (s : State) : Answer := .next (serve 21 1 doFaultClear s)

/-- DEVICE_READ (R130). -/
def execDeviceRead (s : State) : Answer := .next (serve 22 1 doDeviceRead s)

/-! ## The Repair Engine -/

/-- Whether a rank, bank and logical row are those of a place of the geometry (R139, R148). -/
def isPlace (s : State) (rank bank logical : Nat) : Bool :=
  rank < s.port.geom.ranks && bank ≤ 15 && logical < s.port.geom.visible

/-- RETIRE_ROW's decision (R139). -/
def doRetireRow (args : List Word32) (s : State) : Answered :=
  let rank := argOf args 0
  let bank := argOf args 1
  let logical := argOf args 2
  if ¬ s.port.geomSet then refuse .notConfigured s
  else if ¬ isPlace s rank bank logical then refuse .badArgument s
  else if hasJob s rank bank logical then refuse .busy s
  else
    match freeSlotOf s rank bank with
    | none => refuse .noSpare (count .retireNoSpare s)
    | some k =>
      if Config.repairCapacity ≤ s.repair.jobs.length then refuse .busy (count .retireQueueFull s)
      else
        accept [word k, word (spareRow s k), word (servedRow s rank bank logical)]
          (takeJob rank bank logical k .requested s)

/-- Whether a slot of a bank names a logical row (R148). -/
def isNamed (s : State) (rank bank logical : Nat) : Bool :=
  (slotNumbers s).any fun k => slotLogical s rank bank k == some logical

/-- REMAP_LOAD's decision (R148). -/
def doRemapLoad (args : List Word32) (s : State) : Answered :=
  let rank := argOf args 0
  let bank := argOf args 1
  let logical := argOf args 2
  let k := argOf args 3
  if ¬ s.port.geomSet then refuse .notConfigured s
  else if s.link.channel = .online then refuse .busy s
  else if ¬ isPlace s rank bank logical ∨ s.port.geom.spares ≤ k ∨ slotAt s rank bank k ≠ .free ∨
      isNamed s rank bank logical then refuse .badArgument s
  else accept [word (spareRow s k)] (setSlot rank bank k (.active logical) s)

/-- SPARE_KILL's decision (R149). -/
def doSpareKill (args : List Word32) (s : State) : Answered :=
  let rank := argOf args 0
  let bank := argOf args 1
  let k := argOf args 2
  if ¬ s.port.geomSet then refuse .notConfigured s
  else if s.link.channel = .online then refuse .busy s
  else if s.port.geom.ranks ≤ rank ∨ 15 < bank ∨ s.port.geom.spares ≤ k ∨ slotAt s rank bank k ≠ .free then
    refuse .badArgument s
  else accept [] (setSlot rank bank k .dead s)

/-- REMAP_READ's decision (R150). -/
def doRemapRead (args : List Word32) (s : State) : Answered :=
  let rank := argOf args 0
  let bank := argOf args 1
  let first := argOf args 2
  if ¬ s.port.geomSet then refuse .notConfigured s
  else if s.port.geom.ranks ≤ rank ∨ 15 < bank ∨ (s.port.geom.spares ≤ first ∧ first ≠ 0) then refuse .badArgument s
  else accept (((slotNumbers s).drop first).take 8 |>.map fun k => slotWord (slotAt s rank bank k)) s

/-- ERASE's decision (R152). -/
def doErase (args : List Word32) (s : State) : Answered :=
  let rank := argOf args 0
  let device := argOf args 1
  if ¬ s.port.geomSet then refuse .notConfigured s
  else if s.port.geom.ranks ≤ rank ∨ 19 < device ∨ isErased s rank device then refuse .badArgument s
  else if 2 ≤ (erasureSet s rank).length then refuse .limit s
  else accept [erasureWord (erasureSet s rank ++ [device])] (addErasure rank device 1 s)

/-- A device is removed from its rank's erasure set, its score returns to 0 with its flag clear, and the erase decision is
made for the rank's devices (R127, R154). -/
def removeErasure (rank device : Nat) (s : State) : State :=
  let s := { s with repair.erasures := s.repair.erasures.set rank ((erasureSet s rank).erase device) }
  eraseRank rank (count .devicesUnerased (setDevice rank device {} s))

/-- UNERASE's decision (R154; notes/assumptions/33.md). -/
def doUnerase (args : List Word32) (s : State) : Answered :=
  let rank := argOf args 0
  let device := argOf args 1
  if ¬ s.port.geomSet then refuse .notConfigured s
  else if s.link.channel = .online then refuse .busy s
  else if s.port.geom.ranks ≤ rank ∨ 19 < device ∨ ¬ isErased s rank device then refuse .badArgument s
  else accept [erasureWord ((erasureSet s rank).erase device)] (removeErasure rank device s)

/-- RETIRE_ROW (R139). -/
def execRetireRow (s : State) : Answer := .next (serve 23 3 doRetireRow s)

/-- REMAP_LOAD (R148). -/
def execRemapLoad (s : State) : Answer := .next (serve 24 4 doRemapLoad s)

/-- SPARE_KILL (R149). -/
def execSpareKill (s : State) : Answer := .next (serve 25 3 doSpareKill s)

/-- REMAP_READ (R150). -/
def execRemapRead (s : State) : Answer := .next (serve 26 3 doRemapRead s)

/-- ERASE (R152). -/
def execErase (s : State) : Answer := .next (serve 27 2 doErase s)

/-- UNERASE (R154). -/
def execUnerase (s : State) : Answer := .next (serve 28 2 doUnerase s)

/-! ## The report ring -/

/-- An accepted REPORT_SETUP (R168). -/
def setupRing (base sizeExp : Nat) (s : State) : State :=
  resetRing { s with report := { s.report with setUp := true, base := base, sizeExp := sizeExp } }

/-- REPORT_SETUP's decision (R168). -/
def doReportSetup (args : List Word32) (s : State) : Answered :=
  let base := argOf args 0
  let sizeExp := argOf args 1
  if ¬ s.port.geomSet then refuse .notConfigured s
  else if sizeExp < 6 ∨ 16 < sizeExp ∨ s.port.geom.capacity < base + 2 ^ sizeExp then refuse .badArgument s
  else if s.report.produced ≠ s.report.written then refuse .busy s
  else accept [word (2 ^ sizeExp)] (setupRing base sizeExp s)

/-- The ring's counts: P, W, C, the lost count, the overrun state and the ring size (R173). -/
def ringWords (s : State) : List Word32 :=
  [s.report.produced, s.report.written, s.report.consumed, word s.report.lost, flagWord s.report.overrun,
   word s.ringSize]

/-- REPORT_RELEASE's decision: either response carries the counts (R173). -/
def doReportRelease (args : List Word32) (s : State) : Answered :=
  let c := args.getD 0 0
  if ¬ s.report.setUp then refuse .notConfigured s
  else if s.report.written - s.report.consumed < c - s.report.consumed then
    { status := .badArgument, results := ringWords s, state := s }
  else
    let t := { s with report.consumed := c }
    accept (ringWords t) t

/-- The RECORDS_LOST record (R174, R176). -/
def recordsLostRecord (s : State) : Record := { kind := 13, detail := [(38, 4, s.report.lost)] }

/-- Overrun ends: the RECORDS_LOST record is placed, and the lost count becomes 0 (R174). -/
def restartRing (s : State) : State :=
  let t := placeRecord (recordsLostRecord s) { s with report.overrun := false }
  { t with report.lost := 0 }

/-- REPORT_RESTART's decision (R174). -/
def doReportRestart (_ : List Word32) (s : State) : Answered :=
  if ¬ s.report.setUp then refuse .notConfigured s
  else if ¬ s.report.overrun then accept [] s
  else if (s.report.produced - s.report.consumed).toNat = s.ringSize ∨
      Config.recordCapacity ≤ (s.report.produced - s.report.written).toNat then refuse .busy s
  else accept [s.report.produced, word s.report.lost] (restartRing s)

/-- REPORT_SETUP (R168). -/
def execReportSetup (s : State) : Answer := .next (serve 29 2 doReportSetup s)

/-- REPORT_RELEASE (R173). -/
def execReportRelease (s : State) : Answer := .next (serve 30 1 doReportRelease s)

/-- REPORT_RESTART (R174). -/
def execReportRestart (s : State) : Answer := .next (serve 31 0 doReportRestart s)

/-! ## Causes (R178) -/

/-- A set of causes as a result word. -/
def causeWord (set : BitVec 16) : Word32 := set.setWidth 32

/-- READ_CAUSES' decision (R178). -/
def doReadCauses (_ : List Word32) (s : State) : Answered :=
  let p := s.report.pending
  accept [causeWord p, causeWord s.report.mask]
    { s with report := { s.report with pending := 0, alerted := s.report.alerted &&& ~~~p } }

/-- A cause word with any of bits 16 to 31 set (R178). -/
def badCauses (args : List Word32) : Bool := (args.getD 0 0).extractLsb' 16 16 != 0

/-- The causes of a cause word. -/
def causesOf (args : List Word32) : BitVec 16 := (args.getD 0 0).setWidth 16

/-- CAUSE_SET's decision (R178). -/
def doCauseSet (args : List Word32) (s : State) : Answered :=
  if badCauses args then refuse .badArgument s else accept [] (raiseSet (causesOf args) s)

/-- MASK_SET's decision (R178). -/
def doMaskSet (args : List Word32) (s : State) : Answered :=
  let m := s.report.mask ||| causesOf args
  if badCauses args then refuse .badArgument s else accept [causeWord m] { s with report.mask := m }

/-- MASK_CLEAR's decision: the test for a due alert follows (R178, R180). -/
def doMaskClear (args : List Word32) (s : State) : Answered :=
  let m := s.report.mask &&& ~~~causesOf args
  if badCauses args then refuse .badArgument s else accept [causeWord m] (testAlert { s with report.mask := m })

/-- READ_CAUSES (R178). -/
def execReadCauses (s : State) : Answer := .next (serve 32 0 doReadCauses s)

/-- CAUSE_SET (R178). -/
def execCauseSet (s : State) : Answer := .next (serve 33 1 doCauseSet s)

/-- MASK_SET (R178). -/
def execMaskSet (s : State) : Answer := .next (serve 34 1 doMaskSet s)

/-- MASK_CLEAR (R178). -/
def execMaskClear (s : State) : Answer := .next (serve 35 1 doMaskClear s)

end Sys2Proof.Machine
end

