-- ==== Sys2Proof/Machine/Timers.lean ====
section
/-! DEFINITION. The meanings of the commands that are events of the part's own timers. Each brings the elapsed time to its
own moment (notes/assumptions/4.md), and where its timer goes on, the next interval begins at that moment
(notes/assumptions/31.md). -/

namespace Sys2Proof.Machine

open Sys2Proof

/-! ## The DRAM Port -/

/-- The open row of a bank closes. -/
def closeRow (rank bank : Nat) (s : State) : State :=
  { s with port.openRows := AMap.erase s.port.openRows (bankKey rank bank) }

/-- ROW_HOLD_EXPIRY (R34): the hold end time of the open row is reached with no granted access to it outstanding. -/
def execRowHoldExpiry (rank bank : Nat) (s : State) : Answer :=
  match AMap.get? s.port.openRows (bankKey rank bank) with
  | some o =>
    match o.holdEnd with
    | some t => if rowBusy s rank bank o.row then .next s else .next (closeRow rank bank (arrive (onMicrosecond t) s))
    | none => .next s
  | none => .next s

/-- A rank's refresh timer. -/
def refreshAt (s : State) (rank : Nat) : Refresh := s.port.refresh.getD rank { timer := none, owed := [] }

/-- A rank's refresh timer runs out at t: the next interval begins, and the owed count rises or `refresh_missed` is counted
(R36). -/
def refreshDue (rank : Nat) (t : FineTime) (s : State) : State :=
  let r := refreshAt s rank
  let timer := some (t.later (s.params.refreshInterval * 8))
  if r.owed.length < 8 then
    { s with port.refresh := s.port.refresh.set rank { timer := timer, owed := r.owed ++ [t] } }
  else count .refreshMissed { s with port.refresh := s.port.refresh.set rank { r with timer := timer } }

/-- REFRESH_TIMER_EXPIRY (R36). -/
def execRefreshTimerExpiry (rank : Nat) (s : State) : Answer :=
  match (refreshAt s rank).timer with
  | some t => .next (refreshDue rank t (arrive t s))
  | none => .next s

/-! ## The Patrol Engine -/

/-- Selection at a due time that has arrived (R71). A due time that arrives while a channel clear is in progress is met
by the selection of the clear's completion (R97, R109; notes/assumptions/44.md). -/
def reachDue (s : State) : State := if s.maint.clearing then s else runSelection s

/-- REGION_DUE (R71): the earliest due time arrives. -/
def execRegionDue (s : State) : Answer :=
  match earliestDue s with
  | some t => .next (settle (reachDue (arrive (onMicrosecond t) s)))
  | none => .next s

/-- Whether a paced sweep stands at its line boundary, its next issue time aside: its lines are done, lines remain, and
the engine is RUNNING (R77, R78). -/
def atPacedBoundary (mode : AccessMode) (s : State) (w : Sweep) : Bool :=
  s.patrol.engine == .running && (regionAt s w.region).entry.mode == mode && w.inFlight == 0 && w.burstLeft == 0 &&
    0 < w.remaining && !w.deferred

/-- The next issue time of the active sweep arrives: its line boundary is issued, or given to a job (R77, R78, R94). -/
def reachIssue (s : State) : State :=
  match s.patrol.active with
  | some w => atBoundary w s
  | none => s

/-- PATROL_LINE_ISSUE (R77). -/
def execPatrolLineIssue (s : State) : Answer :=
  match s.patrol.active with
  | some w =>
    if atPacedBoundary .single s w then .next (settle (reachIssue (arrive w.nextIssue s))) else .next s
  | none => .next s

/-- BURST_ISSUE (R78). -/
def execBurstIssue (s : State) : Answer :=
  match s.patrol.active with
  | some w =>
    if atPacedBoundary .burst s w then .next (settle (reachIssue (arrive w.nextIssue s))) else .next s
  | none => .next s

/-! ## Quiet windows -/

/-- QUIET_EXPIRY (R104). -/
def execQuietExpiry (s : State) : Answer :=
  match s.window with
  | some win => .next (settle (count .quietExpired (closeWindow (arrive (onMicrosecond win.endTime) s))))
  | none => .next s

/-- QUIET_OVERRIDE (R107). -/
def execQuietOverride (s : State) : Answer :=
  match s.window with
  | some win =>
    match win.override with
    | some t => .next (settle (overrideWindow win.endTime t (arrive (onMicrosecond t) s)))
    | none => .next s
  | none => .next s

/-! ## Decay, the activation window, alerts -/

/-- The decay timer begins its next interval at t (R124). -/
def restartDecay (t : Elapsed) (s : State) : State :=
  { s with fault.decayEnd := t + BitVec.ofNat 48 (s.params.decayEpoch * 1000000) }

/-- DECAY_EPOCH (R124). -/
def execDecayEpoch (s : State) : Answer :=
  .next (decay (restartDecay s.fault.decayEnd (arrive (onMicrosecond s.fault.decayEnd) s)))

/-- The window timer of the Disturbance Watch begins its next interval at t (R163). -/
def restartHammer (t : Elapsed) (s : State) : State :=
  { s with hammer.windowEnd := t + BitVec.ofNat 48 (s.params.hammerWindow * 1000) }

/-- HAMMER_WINDOW_EXPIRY (R163). -/
def execHammerWindowExpiry (s : State) : Answer :=
  .next (count .hammerWindows
    (zeroHammer (restartHammer s.hammer.windowEnd (arrive (onMicrosecond s.hammer.windowEnd) s))))

/-- The holdoff timer stops. -/
def stopHoldoff (s : State) : State := { s with report.holdoffEnd := none }

/-- HOLDOFF_EXPIRY (R180): the test for a due alert is made with the holdoff stopped. -/
def execHoldoffExpiry (s : State) : Answer :=
  match s.report.holdoffEnd with
  | some t => .next (testAlert (stopHoldoff (arrive (onMicrosecond t) s)))
  | none => .next s

/-- READY_AGE_EXPIRY (R179): the oldest unannounced record reaches `ready_age`. -/
def execReadyAgeExpiry (s : State) : Answer :=
  match s.report.ageStart with
  | some t => .next (announce (arrive (onMicrosecond (t + BitVec.ofNat 48 s.params.readyAge)) s))
  | none => .next s

end Sys2Proof.Machine
end

