-- ==== Sys2Proof/Machine/Dispatch.lean ====
section
/-! DEFINITION. One arm per command: the meaning of each. -/

namespace Sys2Proof.Machine

open Sys2Proof

/-- The effect of a command on everything but the queue of waiting commands. -/
def exec (i : Instr) (s : State) : Host.Outcome State Fault Refusal :=
  match i with
  | .powerOn => Sys2Proof.Machine.execPowerOn s
  | .idle byte1 byte2 byte3 check => Sys2Proof.Machine.execIdle byte1 byte2 byte3 check s
  | .read tag byte2 byte3 line check => Sys2Proof.Machine.execRead tag byte2 byte3 line check s
  | .write tag flags byte3 line data check => Sys2Proof.Machine.execWrite tag flags byte3 line data check s
  | .writeMasked tag flags byte3 line data mask check => Sys2Proof.Machine.execWriteMasked tag flags byte3 line data mask check s
  | .maint tag byte2 code pad args check => Sys2Proof.Machine.execMaint tag byte2 code pad args check s
  | .arbiterGrant accept refresh => Sys2Proof.Machine.execArbiterGrant accept refresh s
  | .demandReadDecode line damage => Sys2Proof.Machine.execDemandReadDecode line damage s
  | .scrubReadDecode line damage => Sys2Proof.Machine.execScrubReadDecode line damage s
  | .rmwReadDecode line damage => Sys2Proof.Machine.execRmwReadDecode line damage s
  | .copyReadDecode line damage => Sys2Proof.Machine.execCopyReadDecode line damage s
  | .demandWritePerformed line => Sys2Proof.Machine.execDemandWritePerformed line s
  | .maskedWritePerformed line => Sys2Proof.Machine.execMaskedWritePerformed line s
  | .writebackPerformed line => Sys2Proof.Machine.execWritebackPerformed line s
  | .recordWritePerformed line => Sys2Proof.Machine.execRecordWritePerformed line s
  | .copyWritePerformed line => Sys2Proof.Machine.execCopyWritePerformed line s
  | .returnFrameSent => Sys2Proof.Machine.execReturnFrameSent s
  | .rowHoldExpiry rank bank => Sys2Proof.Machine.execRowHoldExpiry rank bank s
  | .refreshTimerExpiry rank => Sys2Proof.Machine.execRefreshTimerExpiry rank s
  | .regionDue => Sys2Proof.Machine.execRegionDue s
  | .patrolLineIssue => Sys2Proof.Machine.execPatrolLineIssue s
  | .burstIssue => Sys2Proof.Machine.execBurstIssue s
  | .quietExpiry => Sys2Proof.Machine.execQuietExpiry s
  | .quietOverride => Sys2Proof.Machine.execQuietOverride s
  | .decayEpoch => Sys2Proof.Machine.execDecayEpoch s
  | .hammerWindowExpiry => Sys2Proof.Machine.execHammerWindowExpiry s
  | .holdoffExpiry => Sys2Proof.Machine.execHoldoffExpiry s
  | .readyAgeExpiry => Sys2Proof.Machine.execReadyAgeExpiry s
  | .identify => Sys2Proof.Machine.execIdentify s
  | .readTime => Sys2Proof.Machine.execReadTime s
  | .setTime => Sys2Proof.Machine.execSetTime s
  | .setParam => Sys2Proof.Machine.execSetParam s
  | .readStats => Sys2Proof.Machine.execReadStats s
  | .statsClear => Sys2Proof.Machine.execStatsClear s
  | .goOnline => Sys2Proof.Machine.execGoOnline s
  | .channelClear => Sys2Proof.Machine.execChannelClear s
  | .channelClearComplete selectionFirst => Sys2Proof.Machine.execChannelClearComplete selectionFirst s
  | .configureGeometry => Sys2Proof.Machine.execConfigureGeometry s
  | .regionLoad => Sys2Proof.Machine.execRegionLoad s
  | .regionClear => Sys2Proof.Machine.execRegionClear s
  | .regionRead => Sys2Proof.Machine.execRegionRead s
  | .scrubEnable => Sys2Proof.Machine.execScrubEnable s
  | .scrubDisable => Sys2Proof.Machine.execScrubDisable s
  | .sweepNow => Sys2Proof.Machine.execSweepNow s
  | .sweepHalt => Sys2Proof.Machine.execSweepHalt s
  | .sweepResume => Sys2Proof.Machine.execSweepResume s
  | .quietBegin => Sys2Proof.Machine.execQuietBegin s
  | .quietEnd => Sys2Proof.Machine.execQuietEnd s
  | .faultRead => Sys2Proof.Machine.execFaultRead s
  | .faultClear => Sys2Proof.Machine.execFaultClear s
  | .deviceRead => Sys2Proof.Machine.execDeviceRead s
  | .retireRow => Sys2Proof.Machine.execRetireRow s
  | .remapLoad => Sys2Proof.Machine.execRemapLoad s
  | .spareKill => Sys2Proof.Machine.execSpareKill s
  | .remapRead => Sys2Proof.Machine.execRemapRead s
  | .erase => Sys2Proof.Machine.execErase s
  | .unerase => Sys2Proof.Machine.execUnerase s
  | .reportSetup => Sys2Proof.Machine.execReportSetup s
  | .reportRelease => Sys2Proof.Machine.execReportRelease s
  | .reportRestart => Sys2Proof.Machine.execReportRestart s
  | .readCauses => Sys2Proof.Machine.execReadCauses s
  | .causeSet => Sys2Proof.Machine.execCauseSet s
  | .maskSet => Sys2Proof.Machine.execMaskSet s
  | .maskClear => Sys2Proof.Machine.execMaskClear s
  | .badRequest => Sys2Proof.Machine.execBadRequest s
  | .malformedFrame bytes => Sys2Proof.Machine.execMalformedFrame bytes s

end Sys2Proof.Machine
end

