-- ==== Sys2Proof/Safety.lean ====
section
/-! DEFINITION. What a safe run is, in the terms the statements use: what the chapters promise of every table and queue
at all times, and the few words the statements share (a frame that passes its checks, a request at its dispatch, its
answer). -/

namespace Sys2Proof.Machine

open Sys2Proof

/-- A step is safe when it answers a next state: nothing stops the part. -/
def SafeStep (s : State) : Prop := ∃ t, step s = .next t

/-! ## What the chapters promise at all times -/

/-- The Write-back Queue never holds more than 8 entries, nor two entries for the same line address (R40). -/
def WritebacksBounded (s : State) : Prop :=
  s.wbq.length ≤ Config.wbqCapacity ∧ (s.wbq.map WbEntry.line).Nodup

/-- The place of a targeted job. -/
def TsqEntry.place (e : TsqEntry) : Nat × Nat × Nat := (e.rank, e.bank, e.row)

/-- At most 16 jobs, no two with the same rank, bank and physical row (R91). -/
def TsqBounded (tsq : List TsqEntry) : Prop :=
  tsq.length ≤ Config.tsqCapacity ∧ (tsq.map TsqEntry.place).Nodup

/-- The Targeted Scrub Queue never holds more than 16 entries, nor two entries with the same rank, bank and physical row
(R91). -/
def JobsBounded (s : State) : Prop := TsqBounded s.patrol.tsq

/-- The request queue holds at most 4 requests (R192), and the repair queue at most 4 jobs (R137). -/
def QueuesBounded (s : State) : Prop :=
  s.maint.queue.length ≤ Config.maintCapacity ∧ s.repair.jobs.length ≤ Config.repairCapacity

/-- Each of the four ranks has a set of at most 2 devices, none twice (R151). -/
def SetsBounded (sets : List (List Nat)) : Prop := sets.length = 4 ∧ ∀ set ∈ sets, set.length ≤ 2 ∧ set.Nodup

/-- No rank's erasure set holds more than 2 devices (R151). -/
def ErasuresBounded (s : State) : Prop := SetsBounded s.repair.erasures

/-- Every parameter lies in its range (R197). -/
def ParamsLegal (s : State) : Prop :=
  ∀ id ∈ List.range 17, ∀ range ∈ paramRange id, range.1 ≤ s.params.get id ∧ s.params.get id ≤ range.2

/-- The record write queue holds the records from sequence W to P - 1, at most 8 of them, oldest first and the oldest not
yet performed (R170, R171). -/
def Report.InOrder (r : Report) : Prop :=
  r.queue.length ≤ Config.recordCapacity ∧
  r.produced = r.written + BitVec.ofNat 32 r.queue.length ∧
  r.queue.map QueuedRecord.sequence = (List.range r.queue.length).map (fun n => r.written + BitVec.ofNat 32 n) ∧
  ∀ q ∈ r.queue.head?, q.performed = false

/-- With the ring set up, its size exponent is 6 to 16, P - C never exceeds the ring size, and nothing unwritten has been
released (R168, R170, R173). -/
def Report.Fits (r : Report) : Prop :=
  r.setUp = true →
    6 ≤ r.sizeExp ∧ r.sizeExp ≤ 16 ∧ r.queue.length ≤ (r.produced - r.consumed).toNat ∧
    (r.produced - r.consumed).toNat ≤ 2 ^ r.sizeExp

/-- The report ring's counts and queue are in order, and the ring holds what is placed in it (R168 to R173). -/
def RecordsInOrder (s : State) : Prop := s.report.InOrder ∧ s.report.Fits

/-- Row scores are at most 1023, event counts at most 255 and device scores at most 4095 (R111, R113, R114). -/
def FaultTable.Bounded (f : FaultTable) : Prop :=
  (∀ e ∈ f.entries, e.score ≤ 1023 ∧ e.events ≤ 255 ∧ e.uncorrectables ≤ 255) ∧ ∀ d ∈ f.devices, d.score ≤ 4095

/-- Every score and count of the Fault Table is within its limit (R111, R113). -/
def ScoresBounded (s : State) : Prop := s.fault.Bounded

/-- Two row entries describe different rows, or one of them describes none. -/
def FaultEntry.apart (e f : FaultEntry) : Prop :=
  e.state = .free ∨ f.state = .free ∨ (e.rank, e.bank, e.row) ≠ (f.rank, f.bank, f.row)

/-- No two non-FREE entries describe the same row, a FREE entry holds its power-on values, and an entry has a block reason
exactly when it is BLOCKED (R111). -/
def FaultTable.Legal (f : FaultTable) : Prop :=
  f.entries.Pairwise FaultEntry.apart ∧
  ∀ e ∈ f.entries, (e.state = .free → e = {}) ∧ (e.reason.isSome ↔ e.state = .blocked)

/-- The row entries are as R111 promises. -/
def FaultTableLegal (s : State) : Prop := s.fault.Legal

/-- The engine state agrees with the slots and the window (R69, R70): RUNNING has a sweep in the active slot and no window
open, PAUSED a sweep in the active slot and a window open; a sweep is in the active slot only then, and in the held
record only in HALTED. -/
def EngineLegal (s : State) : Prop :=
  (s.patrol.engine = .running → s.patrol.active.isSome ∧ s.window = none) ∧
  (s.patrol.engine = .paused → s.patrol.active.isSome ∧ s.window.isSome) ∧
  (s.patrol.active.isSome → s.patrol.engine = .running ∨ s.patrol.engine = .paused) ∧
  (s.patrol.held.isSome → s.patrol.engine = .halted)

/-- Two places of an activation table hold different rows, or one of them is free. -/
def HammerEntry.apart (e f : Option HammerEntry) : Prop :=
  ∀ g ∈ e, ∀ h ∈ f, (g.bank, g.row) ≠ (h.bank, h.row)

/-- There are four activation tables of 16 places; every count is below the threshold, and no two entries of one table
hold the same row (R156). -/
def Hammer.Below (h : Hammer) (threshold : Nat) : Prop :=
  h.tables.length = 4 ∧
  ∀ table ∈ h.tables, table.length = Config.hammerEntries ∧
    (∀ place ∈ table, ∀ e ∈ place, e.count < threshold) ∧ table.Pairwise HammerEntry.apart

/-- At rest every count is below `hammer_threshold`, which is at least 1024 (R156, R164). -/
def HammerLegal (s : State) : Prop :=
  1024 ≤ s.params.hammerThreshold ∧ s.hammer.Below s.params.hammerThreshold

/-- There are 32 regions; a valid one needs a geometry, has a length, a period and a burst length in range and lies within
the capacity, and no two valid ones share a line (R54). -/
def RegionsFit (s : State) : Prop :=
  s.regions.length = Config.regionCount ∧
  (∀ g ∈ s.regions, g.entry.valid = true →
    0 < g.entry.length ∧ g.entry.base + g.entry.length ≤ s.capacity ∧
    1 ≤ g.entry.period ∧ g.entry.period ≤ 65535 ∧ 2 ≤ g.entry.burst ∧ g.entry.burst ≤ 16) ∧
  s.regions.Pairwise (fun g h => g.entry.valid = true → h.entry.valid = true → g.entry.meets h.entry = false)

/-- A geometry that is set has allowed values (R19). -/
def GeometryAllowed (s : State) : Prop := s.port.geomSet = true → s.port.geom.allowed = true

/-- A frame that has begun to be sent stands at the head of the return queue, and at most one ALERT has not begun (R189,
R190). -/
def OneAlertWaits (l : Link) : Prop :=
  (l.begun = true → l.returns ≠ []) ∧ l.waiting.countP ReturnFrame.isAlert ≤ 1

/-- The return queue holds at most one ALERT not begun to be sent (R189, R190). -/
def AlertsBounded (s : State) : Prop := OneAlertWaits s.link

/-- The phase of the write of a Write-back Queue entry: it waits until the entry is granted (R43, R47). -/
def WbEntry.phase (e : WbEntry) : Phase := if e.granted then .granted else .waiting

/-- Each Write-back Queue entry has its one write in the line order of its line, granted when the entry is, and no other
write-back stands in line order (R26, R43, R47, R48). -/
def WritebacksListed (s : State) : Prop :=
  ∀ line, (s.port.accesses.filter fun a => a.kind == .writeBack && a.line == line).map Access.phase =
    (s.wbq.filter fun e => e.line == line).map WbEntry.phase

/-- The tag of a demand access. -/
def AccessKind.tag? : AccessKind → Option Nat
  | .demandRead tag => some tag
  | .demandWrite tag _ => some tag
  | .maskedWrite tag _ _ _ => some tag
  | _ => none

/-- How many demand accesses, requests waiting for their answer and return frames not sent name a tag. -/
def outstanding (s : State) (tag : Nat) : Nat :=
  (s.port.accesses.countP fun a => a.kind.tag? == some tag) + (s.maint.queue.countP fun q => q.tag == tag) +
    s.link.returns.countP fun f => f.tag? == some tag

/-- A tag in use is that of exactly one demand access, request or return frame, and a free tag of none (R186). -/
def TagsMatch (s : State) : Prop := ∀ tag, outstanding s tag = (s.link.tags.getLsbD tag).toNat

/-- The regions whose sweeps stand in the active slot, the staged slot and the held record (R57, R70). -/
def slotRegions (s : State) : List Nat :=
  (s.patrol.active.map Sweep.region).toList ++ (s.patrol.staged.map Staged.region).toList ++
    (s.patrol.held.map Sweep.region).toList

/-- The sweep state of each region says which of the three places holds its sweep, no region stands in two of them, and an
invalid entry is IDLE (R57). -/
def SlotsAgree (s : State) : Prop :=
  (slotRegions s).Nodup ∧ (∀ i ∈ slotRegions s, i < s.regions.length) ∧
  ∀ i < s.regions.length,
    (regionAt s i).status.state =
      (if s.patrol.active.map Sweep.region = some i then .active
      else if s.patrol.staged.map Staged.region = some i then .staged
      else if s.patrol.held.map Sweep.region = some i then .held else .idle) ∧
    ((regionAt s i).entry.valid = false → (regionAt s i).status.state = .idle)

/-- The logical row a slot names by its own fields; the target of a move names none (R134). -/
def Slot.names? : Slot → Option Nat
  | .reserved (.row l) => some l
  | .copying (.row l) _ => some l
  | .active l => some l
  | _ => none

/-- What a RESERVED or COPYING slot is filled from. -/
def Slot.target? : Slot → Option SlotTarget
  | .reserved t => some t
  | .copying t _ => some t
  | _ => none

/-- What the slot of a job is filled from: the job's logical row, or for a move the ACTIVE slot that names it (R134, R146). -/
def JobTarget (s : State) (j : Job) (t : SlotTarget) : Prop :=
  t = .row j.logical ∨ ∃ k < s.port.geom.spares, t = .move k ∧ slotAt s j.rank j.bank k = .active j.logical

/-- No two slots of a bank name the same logical row; the repair queue holds one job for each RESERVED or COPYING slot, and
for no logical row two (R134, R137). -/
def RemapLegal (s : State) : Prop :=
  s.port.geom.spares ≤ 32 ∧
  (∀ rank, ∀ bank < 16, ∀ k < s.port.geom.spares, ∀ m < s.port.geom.spares, ∀ l,
    (slotAt s rank bank k).names? = some l → (slotAt s rank bank m).names? = some l → k = m) ∧
  (∀ rank, ∀ bank < 16, ∀ k < s.port.geom.spares, (slotAt s rank bank k).target?.isSome →
    ∃ j ∈ s.repair.jobs, j.rank = rank ∧ j.bank = bank ∧ j.target = k) ∧
  (∀ j ∈ s.repair.jobs, j.bank < 16 ∧ j.target < s.port.geom.spares ∧
    ∃ t, (slotAt s j.rank j.bank j.target).target? = some t ∧ JobTarget s j t) ∧
  (s.repair.jobs.map fun j => (j.rank, j.bank, j.logical)).Nodup ∧
  (s.repair.jobs.map fun j => (j.rank, j.bank, j.target)).Nodup

/-- The DRAM as last written stands in its canonical form. -/
def DramCanonical (s : State) : Prop := dramWf s.dram = true

/-- The map of open rows and the Remap Table are listed in rising order of key. -/
def MapsRising (s : State) : Prop :=
  AMap.rising s.port.openRows = true ∧ AMap.rising s.repair.slots = true

/-! ## Words the statements share -/

/-- The sweeps that keep times: those of the active slot and of the held record (R70). -/
def timedSweeps (s : State) : List Sweep := s.patrol.active.toList ++ s.patrol.held.toList

/-- Every elapsed time in whole µs that the part keeps; a FREE row entry keeps none (R196; notes/assumptions/22.md). -/
def elapsedTimes (s : State) : List Elapsed :=
  s.wbq.map WbEntry.inserted ++ s.regions.flatMap (fun g => [g.status.due, g.status.lastStart, g.status.lastEnd]) ++
    (timedSweeps s).flatMap (fun w => [w.due, w.deadline]) ++
    s.window.toList.flatMap (fun w => w.endTime :: w.override.toList) ++
    (s.fault.entries.filter fun e => e.state != .free).flatMap (fun e => [e.firstSeen, e.lastSeen]) ++
    [s.fault.decayEnd, s.hammer.windowEnd] ++ s.report.ageStart.toList ++ s.report.holdoffEnd.toList ++
    s.port.openRows.filterMap fun p => p.2.holdEnd

/-- Every moment that the part keeps in fractions of a µs: next issue times, refresh timers and owed refreshes (R196). -/
def fineTimes (s : State) : List FineTime :=
  (timedSweeps s).map Sweep.nextIssue ++ s.port.refresh.flatMap fun r => r.timer.toList ++ r.owed

/-- A frame that names a tag passes the checks of R185: its check is right, its tag is one of the 64 and free. -/
def FrameGood (body : List Byte) (check : BitVec 16) (tag : Byte) (s : State) : Prop :=
  check = crc16 body ∧ tag.toNat ≤ 63 ∧ tagInUse s tag.toNat = false

/-- The state once an accepted frame's tag is in use and `frames_accepted` is counted (R186, R187). -/
def accepted (tag : Byte) (s : State) : State :=
  { s with
    link := { s.link with tags := s.link.tags ||| BitVec.ofNat 64 (2 ^ tag.toNat) }
    counters := { s.counters with framesAccepted := satAdd s.counters.framesAccepted 1 } }

/-- The request q stands at the head of the queue with the code given, and no channel clear is in progress (R192). -/
def AtHead (s : State) (q : MaintRequest) (code : Nat) : Prop :=
  s.maint.clearing = false ∧ s.maint.queue.head? = some q ∧ q.code = code

/-- `maint_requests` counted for a dispatch (R192). -/
def dispatched (s : State) : State :=
  { s with counters := { s.counters with maintRequests := satAdd s.counters.maintRequests 1 } }

/-- The MAINT_RESP at the tail of the return queue, and the request out of the request queue (R192). -/
def answered (q : MaintRequest) (status : Status) (results : List Word32) (s : State) : State :=
  { s with
    link := { s.link with returns := s.link.returns ++ [.maintResp q.tag status results] }
    maint := { s.maint with queue := s.maint.queue.tail } }

/-- The returns that are not ALERTs: what the tags of the channel receive, in order. -/
def plain (returns : List ReturnFrame) : List ReturnFrame := returns.filter fun f => !f.isAlert

/-- A frame is discarded: nothing moves but `frames_dropped`, the FRAME_ERROR cause and what alerts follow from it (R185). -/
def Discarded (s t : State) : Prop :=
  t.counters.framesDropped = satAdd s.counters.framesDropped 1 ∧ plain t.link.returns = plain s.link.returns ∧
  t = { s with
    link := { s.link with returns := t.link.returns }
    report := { s.report with pending := s.report.pending ||| Cause.frameError.mark, alerted := t.report.alerted
                              holdoffEnd := t.report.holdoffEnd }
    counters := { s.counters with
      framesDropped := t.counters.framesDropped, alertsSent := t.counters.alertsSent
      alertsMerged := t.counters.alertsMerged } }

/-- No region refuses a write of the line: none holds it, the one that does is not locked, or the frame has permit (R64). -/
def LockPassed (s : State) (line : Nat) (permit : Bool) : Prop :=
  ∀ i, regionOf s line = some i → (regionAt s i).entry.locked = false ∨ permit = true

/-- No demand write, masked write or report record write of the line waits in line order (R28). -/
def LineClear (s : State) (line : Nat) : Prop :=
  ∀ a ∈ s.port.accesses, a.line = line → a.kind.isDemandWrite = false ∧ a.kind.isRecordWrite = false

/-- The write-drain condition after the drain count has become n (R32). -/
def drainAfter (n : Nat) (was : Bool) : Bool := if 24 ≤ n then true else if n ≤ 16 then false else was

/-- A counter that is counted once if b holds. -/
def countedIf (b : Bool) (n : Nat) : Nat := if b then satAdd n 1 else n

/-- A pending write-back of the line that a write taken now cancels: one not granted (R49, R50). -/
def cancels (s : State) (line : Nat) : Bool := (wbFind s line).any fun e => !e.granted

/-- The accesses left in line order when the pending write-back of the line, if not granted, is cancelled (R49, R50). -/
def accessesLeft (s : State) (line : Nat) : List Access :=
  if cancels s line then s.port.accesses.filter fun a => !(a.line == line && a.kind == .writeBack) else s.port.accesses

/-- The Write-back Queue left when the pending entry of the line, if not granted, is cancelled (R49, R50). -/
def entriesLeft (s : State) (line : Nat) : List WbEntry :=
  if cancels s line then s.wbq.filter fun e => e.line != line else s.wbq

/-- A full write is taken: the pending write-back of its line is cancelled, it joins line order and the drain count, and
nothing else moves (R17, R25, R27, R32, R49). -/
def WriteTaken (tag line : Nat) (data : Data) (s t : State) : Prop :=
  t.port.accesses = accessesLeft s line ++ [{ line := line, kind := .demandWrite tag data, phase := .waiting }] ∧
  t.wbq = entriesLeft s line ∧ t.port.drain = drainAfter (drainCount s + 1) s.port.drain ∧
  t = { s with
    port := { s.port with accesses := t.port.accesses, drain := t.port.drain }, wbq := t.wbq
    counters := { s.counters with
      writebacksCancelled := countedIf (cancels s line) s.counters.writebacksCancelled
      drainEntries := countedIf (t.port.drain && !s.port.drain) s.counters.drainEntries } }

/-- What becomes of line order while the blocks do their own work: no access leaves it but write-backs, and what joins it
joins behind, waiting, and is no demand access (R26). -/
def JoinsBehind (s t : State) : Prop :=
  ∃ joined : List Access,
    (∀ a ∈ joined, a.phase = .waiting ∧ a.kind.isDemandWrite = false ∧ ∀ tag, a.kind ≠ .demandRead tag) ∧
    (t.port.accesses.filter fun a => a.kind != .writeBack) =
      (s.port.accesses.filter fun a => a.kind != .writeBack) ++ joined

/-- A granted write-back stays, and only record writes cancel the others (R49, R50): before the ring is set up none goes. -/
def GrantedStay (s t : State) : Prop :=
  (∀ line e, wbFind s line = some e → e.granted = true →
    wbFind t line = some e ∧
    (t.port.accesses.filter fun a => a.kind == .writeBack && a.line == line) =
      s.port.accesses.filter fun a => a.kind == .writeBack && a.line == line) ∧
  (s.report.setUp = false → t.wbq = s.wbq)

/-- A rank whose owed refresh the DRAM can accept now (R31, R37): its number, its class and the moment its oldest owed
refresh became owed. -/
def Refreshable (refresh : BitVec 4) (s : State) (rank cls : Nat) (since : FineTime) : Prop :=
  ∃ r, s.port.refresh[rank]? = some r ∧ r.owed.head? = some since ∧ refresh.getLsbD rank = true ∧
    cls = if 6 ≤ r.owed.length then 1 else 9

/-- The place of a line of an access in a row of its bank. -/
def placeIn (s : State) (a : Access) (row : Nat) : Nat :=
  placeOf (s.port.geom.rankOf a.line) (s.port.geom.bankOf a.line) row (s.port.geom.colOf a.line)

/-- The line of an access is written to its row, and to the spare of a doubled write, and no other line of the DRAM changes
(R3, R142). -/
def Written (a : Access) (data : Data) (form : Form) (s t : State) : Prop :=
  ∀ place, dramRead t.dram place =
    if place = placeIn s a a.row ∨ ∃ spare, a.double = some spare ∧ place = placeIn s a spare then
      encodeLine s.code data form
    else dramRead s.dram place

/-- A record handed on now is placed: the ring is set up, overrun is off, the ring is not full and fewer than 8 record
writes are pending (R170). -/
def RingOpen (s : State) : Prop :=
  s.report.setUp = true ∧ s.report.overrun = false ∧
  (s.report.produced - s.report.consumed).toNat < 2 ^ s.report.sizeExp ∧
  (s.report.produced - s.report.written).toNat < 8

/-- The wall time (R196). -/
def wallTime (s : State) : BitVec 64 := s.maint.now.us.setWidth 64 + s.maint.wallOffset

/-- The write of a record placed now: sequence number P, the ring line P mod 2^size, the 64 bytes with the wall time and
the critical-class flag of this moment (R170, R171, R175). -/
def recordWriteOf (r : Record) (s : State) : Access :=
  { line := s.report.base + s.report.produced.toNat % 2 ^ s.report.sizeExp
    kind := .recordWrite s.report.produced (r.bytes s.report.produced (wallTime s) (isCritical s r.region))
    phase := .waiting }

end Sys2Proof.Machine
end

