-- ==== Sys2Proof/WellFormed.lean ====
section
/-! DEFINITION. Which commands can be sent: the operands that a frame or an event of the part can have. -/

namespace Sys2Proof

/-- A bank of the largest channel: ranks 0 to 3, banks 0 to 15 (R19). -/
def isBankPlace (rank bank : Nat) : Bool := rank < 4 && bank < 16

/-- A line address of the largest channel: below 2^31 (R19). -/
def isLineAddress (line : Nat) : Bool := line < 2147483648

/-- Whether a command can be sent. The fields of a frame and the accept bits of a grant are bit vectors and need no check;
a MAINT frame carries its argument count in one byte (R183), an event names a place of the largest channel (R19), and a
MALFORMED_FRAME is a frame that belongs to no kind (R185). -/
def Instr.wf : Instr → Bool
  | .powerOn => true
  | .idle _ _ _ _ => true
  | .read _ _ _ _ _ => true
  | .write _ _ _ _ _ _ => true
  | .writeMasked _ _ _ _ _ _ _ => true
  | .maint _ _ _ _ args _ => args.length ≤ 255
  | .arbiterGrant _ _ => true
  | .demandReadDecode line _ => isLineAddress line
  | .scrubReadDecode line _ => isLineAddress line
  | .rmwReadDecode line _ => isLineAddress line
  | .copyReadDecode line _ => isLineAddress line
  | .demandWritePerformed line => isLineAddress line
  | .maskedWritePerformed line => isLineAddress line
  | .writebackPerformed line => isLineAddress line
  | .recordWritePerformed line => isLineAddress line
  | .copyWritePerformed line => isLineAddress line
  | .returnFrameSent => true
  | .rowHoldExpiry rank bank => isBankPlace rank bank
  | .refreshTimerExpiry rank => rank < 4
  | .regionDue => true
  | .patrolLineIssue => true
  | .burstIssue => true
  | .quietExpiry => true
  | .quietOverride => true
  | .decayEpoch => true
  | .hammerWindowExpiry => true
  | .holdoffExpiry => true
  | .readyAgeExpiry => true
  | .identify => true
  | .readTime => true
  | .setTime => true
  | .setParam => true
  | .readStats => true
  | .statsClear => true
  | .goOnline => true
  | .channelClear => true
  | .channelClearComplete _ => true
  | .configureGeometry => true
  | .regionLoad => true
  | .regionClear => true
  | .regionRead => true
  | .scrubEnable => true
  | .scrubDisable => true
  | .sweepNow => true
  | .sweepHalt => true
  | .sweepResume => true
  | .quietBegin => true
  | .quietEnd => true
  | .faultRead => true
  | .faultClear => true
  | .deviceRead => true
  | .retireRow => true
  | .remapLoad => true
  | .spareKill => true
  | .remapRead => true
  | .erase => true
  | .unerase => true
  | .reportSetup => true
  | .reportRelease => true
  | .reportRestart => true
  | .readCauses => true
  | .causeSet => true
  | .maskSet => true
  | .maskClear => true
  | .badRequest => true
  | .malformedFrame bytes => Machine.isMalformed bytes

end Sys2Proof
end

