-- ==== Sys2Proof/Certificates/Slice0/Obligations.lean ====
section
/-! DEFINITION. The statements for the provers, chapter by chapter of the manual. Each cites the numbered rules it rests
on; a sentence "the model's choice" names the log entry of a convention the manual leaves open. -/

section

open Sys2Proof Sys2Proof.Machine

/-! ## Steps -/

/-- The command at the front of the queue runs with the rest of the queue left waiting. -/
def Obligations.StepRunsTheFrontCommand : Prop :=
  ∀ (c : Instr) (rest : List Instr) (s : State), s.pending = c :: rest →
    step s = exec c { s with pending := rest }

/-- On an empty queue one tick of the time base passes, an eightieth of a µs (the model's choice,
notes/assumptions/3.md); eighty ticks are one µs. A time that the part keeps stands as it stood, or, once it lies more
than 2^46 µs behind, moves forward to 2^46 µs behind; none lies further behind (R196, R56; which times these are is
notes/assumptions/22.md). -/
def Obligations.EmptyQueueTicks : Prop :=
  (∀ s : State, s.pending = [] → ∃ t, step s = .next t ∧
    t.maint = { s.maint with now := s.maint.now.later 1 } ∧ t.link = s.link ∧ t.repair = s.repair ∧
    t.params = s.params ∧ t.counters = s.counters ∧ t.dram = s.dram ∧ t.pending = [] ∧
    t.port.accesses = s.port.accesses ∧ t.report.pending = s.report.pending ∧
    t.regions.map Region.entry = s.regions.map Region.entry ∧
    let now := t.maint.now
    let oldest := now.us - BitVec.ofNat 48 (2 ^ 46)
    elapsedTimes t = (elapsedTimes s).map (fun x => if 2 ^ 46 < elapsedDiff now.us x then oldest else x) ∧
    fineTimes t = (fineTimes s).map (fun x => if 2 ^ 46 * 80 < fineDiff now x then { now with us := oldest } else x) ∧
    (∀ x ∈ elapsedTimes t, elapsedDiff now.us x ≤ 2 ^ 46) ∧ ∀ x ∈ fineTimes t, fineDiff now x ≤ 2 ^ 46 * 80) ∧
  ∀ m : FineTime, (fun n : FineTime => n.later 1)^[80] m = { us := m.us + 1, sub := m.sub }

/-- Every command answers a next state, whatever the state, and no command touches the line code or the commands that
wait (the row's aim; R2 for the code). -/
def Obligations.EveryCommandCompletes : Prop :=
  ∀ (c : Instr) (s : State), ∃ t, exec c s = .next t ∧ t.code = s.code ∧ t.pending = s.pending

/-! ## What every step keeps -/

/-- Every step keeps the Write-back Queue at no more than 8 entries of different lines (R40), each with its one write
in line order, granted when the entry is (R43, R47), the Targeted Scrub Queue at no more than 16 jobs of different rows
(R91), the request queue and the repair queue within 4 and every erasure set within 2 (R192, R137, R151), and at most
one ALERT waiting that has not begun to be sent (R189, R190); and the tags in use are those of the demand accesses, the
requests and the return frames outstanding, each of one of them (R186). -/
def Obligations.StepsKeepQueuesAndSetsBounded : Prop :=
  ∀ s t : State, step s = .next t →
    (WritebacksBounded s → WritebacksBounded t) ∧ (JobsBounded s → JobsBounded t) ∧
    (QueuesBounded s ∧ ErasuresBounded s → QueuesBounded t ∧ ErasuresBounded t) ∧ (AlertsBounded s → AlertsBounded t) ∧
    (WritebacksBounded s ∧ WritebacksListed s → WritebacksListed t) ∧ (TagsMatch s → TagsMatch t)

/-- Every step keeps every parameter in its range (R197), the regions within the capacity and disjoint (R54), and the
geometry at allowed values (R19). -/
def Obligations.StepsKeepParamsAndRegionsLegal : Prop :=
  ∀ s t : State, step s = .next t →
    (ParamsLegal s → ParamsLegal t) ∧ (RegionsFit s ∧ GeometryAllowed s → RegionsFit t ∧ GeometryAllowed t)

/-- Every step keeps the record write queue the run of records from W to P - 1, within 8 records and within the ring
(R168, R170 to R173). -/
def Obligations.StepsKeepRecordsInOrder : Prop :=
  ∀ s t : State, RecordsInOrder s → step s = .next t → RecordsInOrder t

/-- Every step keeps the Fault Table's scores and counts within their limits and its entries legal (R111, R113). -/
def Obligations.StepsKeepFaultTableLegal : Prop :=
  ∀ s t : State, ScoresBounded s ∧ FaultTableLegal s → step s = .next t → ScoresBounded t ∧ FaultTableLegal t

/-- Every step keeps the engine state in agreement with the slots and the window (R69, R70), and the sweep state of
each region in agreement with the active slot, the staged slot and the held record (R57). -/
def Obligations.StepsKeepEngineLegal : Prop :=
  ∀ s t : State, EngineLegal s → step s = .next t → EngineLegal t ∧ (SlotsAgree s → SlotsAgree t)

/-- Every step leaves every activation count below the threshold, and no row twice in a table (R156, R164). -/
def Obligations.StepsKeepHammerLegal : Prop :=
  ∀ s t : State, HammerLegal s → step s = .next t → HammerLegal t

/-- Every step keeps the DRAM as last written, the open rows and the Remap Table in their canonical forms, and the
slots of a bank naming different logical rows, with one job in the repair queue for each slot being filled and none
for the same logical row twice (R134, R137). -/
def Obligations.StepsKeepMapsCanonical : Prop :=
  ∀ s t : State, DramCanonical s ∧ MapsRising s → step s = .next t →
    DramCanonical t ∧ MapsRising t ∧ (RemapLegal s → RemapLegal t)

/-- The state after power-on meets every invariant (R199). -/
def Obligations.ResetMeetsEveryInvariant : Prop :=
  WritebacksBounded .reset ∧ JobsBounded .reset ∧ QueuesBounded .reset ∧ ErasuresBounded .reset ∧ ParamsLegal .reset ∧
  RecordsInOrder .reset ∧ ScoresBounded .reset ∧ FaultTableLegal .reset ∧ EngineLegal .reset ∧ HammerLegal .reset ∧
  RegionsFit .reset ∧ GeometryAllowed .reset ∧ AlertsBounded .reset ∧ DramCanonical .reset ∧ MapsRising .reset ∧
  WritebacksListed .reset ∧ TagsMatch .reset ∧ SlotsAgree .reset ∧ RemapLegal .reset

/-! ## The Integrity Codec -/

/-- A line is written with its data bytes as its data symbols, each codeword with its own check symbols, and with the
poison mark every check symbol complemented; the code is linear (R1, R2, R3). -/
def Obligations.EncodingIsSystematic : Prop :=
  ∀ (code : Code) (data : Data),
    (encodeLine code data .fresh).setWidth 512 = data ∧ (encodeLine code data .poison).setWidth 512 = data ∧
    (∀ k < 4, ∀ d < 16, ∀ b < 8, (codewordOf (encodeLine code data .fresh) k).getLsbD (8 * d + b) =
      data.getLsbD (32 * d + 8 * k + b)) ∧
    (∀ k < 4, (codewordOf (encodeLine code data .fresh) k).extractLsb' 128 32 =
      checkSymbols code ((codewordOf (encodeLine code data .fresh) k).setWidth 128)) ∧
    (∀ k < 4, (codewordOf (encodeLine code data .poison) k).extractLsb' 128 32 =
      ~~~checkSymbols code ((codewordOf (encodeLine code data .poison) k).setWidth 128)) ∧
    ∀ a b : BitVec 128, encodeWord code (a ^^^ b) = encodeWord code a ^^^ encodeWord code b

/-- A decode that names a device names one of the twenty that is not erased, with a bit count of 1 to 32, only while
at most one device is erased, and only with the outcome CORRECTED or POISONED (R5, R6, R9, R10). -/
def Obligations.LocatedDevicesAreNotErased : Prop :=
  ∀ (code : Code) (erased : List Nat) (line : Line) (device bits : Nat), erased.length ≤ 2 → erased.Nodup →
    (∀ d ∈ erased, d < 20) → (decodeLine code erased line).located = some (device, bits) →
    device < 20 ∧ device ∉ erased ∧ 1 ≤ bits ∧ bits ≤ 32 ∧ erased.length ≤ 1 ∧
    ((decodeLine code erased line).outcome = .corrected ∨ (decodeLine code erased line).outcome = .poisoned)

/-- A decode within the guarantee delivers the data last written and names the one device in error, erased devices
being rebuilt whatever they give; one device more than that, with none or two erased, is UNCORRECTABLE (R5 to R10; the
cells of R7 beyond these are notes/assumptions/40.md). For every line code of which no word of weight 1 to 3 has the
syndrome of a codeword or of the poison pattern, as those of R2 have. A line with the poison mark is POISONED with no
device in error, or with one while at most one device is erased; the data delivered are those last written, and the
device in error is named (R8, R9, R10). For every line code of which no word of weight 1 to 3 has the syndrome of a
codeword, as those of R2 have. -/
def Obligations.DecodeKeepsItsGuarantee : Prop :=
  (∀ (code : Code) (erased : List Nat) (data : Data) (damage : Line),
    (∀ w : Codeword, w ≠ 0 → symbolWeight w ≤ 3 → syndrome code w ≠ 0 ∧ syndrome code w ≠ BitVec.allOnes 32) →
    erased.length ≤ 2 → erased.Nodup → (∀ d ∈ erased, d < 20) →
    let bad := (List.range 20).filter fun d => !erased.contains d && damage.extractLsb' (32 * d) 32 != 0
    let read := encodeLine code data .fresh ^^^ damage
    (bad = [] → decodeLine code erased read = { outcome := .clean, data := data, located := none }) ∧
    (∀ d, bad = [d] → erased.length ≤ 1 → decodeLine code erased read =
      { outcome := .corrected, data := data
        located := some (d, countOnes (damage.extractLsb' (32 * d) 32).toNat 32) }) ∧
    (bad.length = 1 ∧ erased.length = 2 ∨ bad.length = 2 ∧ erased = [] → decodeLine code erased read =
      { outcome := .uncorrectable, data := read.setWidth 512, located := none })) ∧
  (∀ (code : Code) (erased : List Nat) (data : Data) (damage : Line),
    (∀ w : Codeword, w ≠ 0 → symbolWeight w ≤ 3 → syndrome code w ≠ 0) →
    erased.length ≤ 2 → erased.Nodup → (∀ d ∈ erased, d < 20) →
    let bad := (List.range 20).filter fun d => !erased.contains d && damage.extractLsb' (32 * d) 32 != 0
    let read := encodeLine code data .poison ^^^ damage
    (bad = [] → decodeLine code erased read = { outcome := .poisoned, data := data, located := none }) ∧
    (∀ d, bad = [d] → erased.length ≤ 1 → decodeLine code erased read =
      { outcome := .poisoned, data := data
        located := some (d, countOnes (damage.extractLsb' (32 * d) 32).toNat 32) }))

/-! ## Address mapping -/

/-- With the geometry set, each of ranks * 16 * V * 2^c line addresses stands for one place, rank, bank, logical row
and column, and each place for one line address (R19, R22). -/
def Obligations.AddressMappingIsOneToOne : Prop :=
  ∀ g : Geometry, g.allowed = true →
    g.capacity = g.ranks * 16 * (2 ^ g.rowBits - g.spares) * 2 ^ g.colExp ∧
    (∀ line, line < g.capacity ↔ g.logicalOf line < 2 ^ g.rowBits - g.spares) ∧
    (∀ line < g.capacity,
      g.rankOf line < g.ranks ∧ g.bankOf line < 16 ∧ g.logicalOf line < 2 ^ g.rowBits - g.spares ∧
      g.colOf line < 2 ^ g.colExp ∧ g.lineOf (g.rankOf line) (g.bankOf line) (g.logicalOf line) (g.colOf line) = line) ∧
    (∀ rank bank logical col, rank < g.ranks → bank < 16 → logical < 2 ^ g.rowBits - g.spares → col < 2 ^ g.colExp →
      let line := ((logical * g.ranks + rank) * 16 + bank) * 2 ^ g.colExp + col
      line < g.capacity ∧ g.rankOf line = rank ∧ g.bankOf line = bank ∧ g.logicalOf line = logical ∧ g.colOf line = col)

/-! ## Command frames and return frames -/

/-- POWER_ON brings every block to its power-on state, whatever the state (R39, R40, R54, R69, R99, R111, R134, R156,
R181, R191, R199). That the DRAM, the line code and the commands that wait are kept is the model's choice, and so are
the values of the power-on state the manual leaves open (notes/assumptions/34.md, 2.md). Every parameter stands at its
default (R197). -/
def Obligations.PowerOnResetsEveryBlock : Prop :=
  ∀ s : State, ∃ t, exec .powerOn s = .next t ∧
    t = { State.reset with dram := s.dram, code := s.code, pending := s.pending } ∧
    t.link.channel = .config ∧ t.link.tags = 0 ∧ t.link.returns = [] ∧ t.port.geomSet = false ∧ t.capacity = 0 ∧
    t.port.accesses = [] ∧ t.port.openRows = [] ∧ t.port.drain = false ∧ t.port.passCounts = List.replicate 10 0 ∧
    t.wbq = [] ∧ (∀ g ∈ t.regions, g.entry.valid = false) ∧ t.patrol.engine = .disabled ∧ t.patrol.active = none ∧
    t.patrol.staged = none ∧ t.patrol.held = none ∧ t.patrol.tsq = [] ∧ t.window = none ∧
    (∀ e ∈ t.fault.entries, e.state = .free) ∧ (∀ d ∈ t.fault.devices, d = {}) ∧ t.repair.slots = [] ∧ t.repair.jobs = [] ∧
    (∀ set ∈ t.repair.erasures, set = []) ∧ (∀ table ∈ t.hammer.tables, ∀ place ∈ table, place = none) ∧
    t.report.setUp = false ∧ t.report.queue = [] ∧ t.report.pending = 0 ∧ t.report.mask = 0 ∧ t.report.alerted = 0 ∧
    t.report.holdoffEnd = none ∧ t.maint.queue = [] ∧ t.maint.now = { us := 0, sub := 0 } ∧ t.maint.wallOffset = 0 ∧
    t.params = {} ∧ (List.range 17).map t.params.get =
      [0, 39, 7, 1, 8, 48, 1, 60, 768, 4, 1, 16384, 32, 0, 8, 1000, 100] ∧
    t.counters = {} ∧ t.hammer.windowEnd = 32000 ∧ t.fault.decayEnd = 60000000

/-- A frame with a bad check, a tag byte above 63, a tag in use, more than 8 arguments or an unknown kind is discarded:
counted, FRAME_ERROR raised, no access and no return, and no other count moves but those of alerts; a good IDLE frame
has no effect (R185). Bytes that are a good frame of some kind are no MALFORMED_FRAME and change nothing (the model's
choice, notes/assumptions/5.md). -/
def Obligations.BadFramesAreDiscarded : Prop :=
  ∀ (s : State) (tag b2 b3 : Byte) (line : BitVec 64) (data : Data) (mask : BitVec 64) (code pad : BitVec 16)
      (args : List Word32) (check : BitVec 16) (bytes : List Byte),
    (check = crc16 (idleBody tag b2 b3) → exec (.idle tag b2 b3 check) s = .next s) ∧
    (check ≠ crc16 (idleBody tag b2 b3) → ∃ t, exec (.idle tag b2 b3 check) s = .next t ∧ Discarded s t) ∧
    (¬ FrameGood (readBody tag b2 b3 line) check tag s →
      ∃ t, exec (.read tag b2 b3 line check) s = .next t ∧ Discarded s t) ∧
    (¬ FrameGood (writeBody tag b2 b3 line data) check tag s →
      ∃ t, exec (.write tag b2 b3 line data check) s = .next t ∧ Discarded s t) ∧
    (¬ FrameGood (writeMaskedBody tag b2 b3 line data mask) check tag s →
      ∃ t, exec (.writeMasked tag b2 b3 line data mask check) s = .next t ∧ Discarded s t) ∧
    (¬ FrameGood (maintBody tag b2 code pad args) check tag s ∨ 8 < args.length →
      ∃ t, exec (.maint tag b2 code pad args check) s = .next t ∧ Discarded s t) ∧
    (isMalformed bytes = true → ∃ t, exec (.malformedFrame bytes) s = .next t ∧ Discarded s t) ∧
    (isMalformed bytes = false → exec (.malformedFrame bytes) s = .next s)

/-- A demand frame accepted in CONFIG is answered NOT_READY, and one of a line beyond the capacity ADDRESS_ERROR;
neither does anything else (R24, R186, R187). A write of a locked region without permit fails the lock check: ACK,
LOCK_FAULT record, cause and count, and nothing is taken: line order and the Write-back Queue stand as they stood, but
for the record's write in the ring line, when the ring takes the record (R64, R65). -/
def Obligations.UnservedFramesAreAnswered : Prop :=
  (∀ (s : State) (tag b2 b3 : Byte) (line : BitVec 64) (data : Data) (mask : BitVec 64) (check : BitVec 16),
    let reply := fun (f : ReturnFrame) (k : Counters) =>
      { accepted tag s with link := { (accepted tag s).link with returns := s.link.returns ++ [f] }, counters := k }
    let k := (accepted tag s).counters
    let refused := { k with notReadyAnswers := satAdd s.counters.notReadyAnswers 1 }
    let beyond := { k with addressErrors := satAdd s.counters.addressErrors 1 }
    (FrameGood (readBody tag b2 b3 line) check tag s →
      (s.link.channel = .config →
        exec (.read tag b2 b3 line check) s = .next (reply (.data tag.toNat .notReady 0) refused)) ∧
      (s.link.channel = .online → s.capacity ≤ line.toNat →
        exec (.read tag b2 b3 line check) s = .next (reply (.data tag.toNat .addressError 0) beyond))) ∧
    (FrameGood (writeBody tag b2 b3 line data) check tag s →
      (s.link.channel = .config →
        exec (.write tag b2 b3 line data check) s = .next (reply (.ack tag.toNat .notReady) refused)) ∧
      (s.link.channel = .online → s.capacity ≤ line.toNat →
        exec (.write tag b2 b3 line data check) s = .next (reply (.ack tag.toNat .addressError) beyond))) ∧
    (FrameGood (writeMaskedBody tag b2 b3 line data mask) check tag s →
      (s.link.channel = .config →
        exec (.writeMasked tag b2 b3 line data mask check) s = .next (reply (.ack tag.toNat .notReady) refused)) ∧
      (s.link.channel = .online → s.capacity ≤ line.toNat →
        exec (.writeMasked tag b2 b3 line data mask check) s = .next (reply (.ack tag.toNat .addressError) beyond)))) ∧
  (∀ (s : State) (tag b2 b3 : Byte) (line : BitVec 64) (data : Data) (mask : BitVec 64) (check : BitVec 16) (i : Nat),
    s.link.channel = .online → line.toNat < s.capacity → regionOf s line.toNat = some i →
    (regionAt s i).entry.locked = true → b2.getLsbD 0 = false →
    let failed := fun (source : Nat) (t : State) =>
      let ringLine := s.report.base + s.report.produced.toNat % 2 ^ s.report.sizeExp
      plain t.link.returns = plain s.link.returns ++ [.ack tag.toNat .lockFault] ∧
      t.report.pending.getLsbD 13 = true ∧
      (RingOpen s → t.wbq = entriesLeft s ringLine ∧ t.port.accesses = accessesLeft s ringLine ++ [recordWriteOf
          { kind := 3, source := source, region := some i, line := line.toNat
            rank := s.port.geom.rankOf line.toNat, bank := s.port.geom.bankOf line.toNat
            row := servedRow s (s.port.geom.rankOf line.toNat) (s.port.geom.bankOf line.toNat)
              (s.port.geom.logicalOf line.toNat)
            col := s.port.geom.colOf line.toNat } s] ∧
        t.counters.recordsPlaced = satAdd s.counters.recordsPlaced 1 ∧
        t.counters.recordsLost = s.counters.recordsLost ∧ t.counters.writebacksCancelled =
          countedIf (cancels s ringLine) s.counters.writebacksCancelled) ∧
      (¬ RingOpen s → t.port = s.port ∧ t.wbq = s.wbq ∧ t.counters.recordsPlaced = s.counters.recordsPlaced ∧
        t.counters.recordsLost = countedIf s.report.setUp s.counters.recordsLost ∧
        t.counters.writebacksCancelled = s.counters.writebacksCancelled) ∧
      t = { s with
        link := { (accepted tag s).link with returns := t.link.returns }
        port := { s.port with accesses := t.port.accesses }, wbq := t.wbq, report := t.report
        counters := { (accepted tag s).counters with
          lockFaults := satAdd s.counters.lockFaults 1, recordsPlaced := t.counters.recordsPlaced
          recordsLost := t.counters.recordsLost, writebacksCancelled := t.counters.writebacksCancelled
          alertsSent := t.counters.alertsSent, alertsMerged := t.counters.alertsMerged } }
    (FrameGood (writeBody tag b2 b3 line data) check tag s →
      ∃ t, exec (.write tag b2 b3 line data check) s = .next t ∧ failed 1 t) ∧
    (FrameGood (writeMaskedBody tag b2 b3 line data mask) check tag s →
      ∃ t, exec (.writeMasked tag b2 b3 line data mask check) s = .next t ∧ failed 2 t))

/-- A READ of a valid line is answered from the Write-back Queue entry of its line while no write of the line waits
before it, and is otherwise taken into line order behind every access taken before it (R25, R26, R28). -/
def Obligations.ReadsAreForwardedOrTaken : Prop :=
  ∀ (s : State) (tag b2 b3 : Byte) (line : BitVec 64) (check : BitVec 16),
    FrameGood (readBody tag b2 b3 line) check tag s → s.link.channel = .online → line.toNat < s.capacity →
    (∀ e, wbFind s line.toNat = some e → LineClear s line.toNat →
      exec (.read tag b2 b3 line check) s = .next { accepted tag s with
        link := { (accepted tag s).link with
          returns := s.link.returns ++ [.data tag.toNat (if e.kind = .rewrite then .corrected else .poisoned) e.data] }
        counters := { (accepted tag s).counters with
          writebacksForwarded := satAdd s.counters.writebacksForwarded 1 } }) ∧
    ((∀ e ∈ s.wbq, e.line ≠ line.toNat) ∨ ¬ LineClear s line.toNat →
      exec (.read tag b2 b3 line check) s = .next { accepted tag s with
        port := { s.port with accesses := s.port.accesses ++
          [{ line := line.toNat, kind := .demandRead tag.toNat, phase := .waiting }] } })

/-- A WRITE, or a WRITE_MASKED with a full mask, that passes the checks is taken: it cancels the pending write-back
of its line and joins line order and the drain count (R17, R25, R27, R32, R49, R64). A WRITE_MASKED with an empty
mask is answered OK and not taken; one with a partial mask is taken as one unit, merged at once onto the Write-back
Queue entry of its line while no write of the line waits before it, and otherwise with its read waiting (R15, R25,
R28, R30, R32, R50, R64). -/
def Obligations.WritesAreTaken : Prop :=
  (∀ (s : State) (tag b2 b3 : Byte) (line : BitVec 64) (data : Data) (check : BitVec 16),
    s.link.channel = .online → line.toNat < s.capacity → LockPassed s line.toNat (b2.getLsbD 0) →
    (FrameGood (writeBody tag b2 b3 line data) check tag s →
      ∃ t, exec (.write tag b2 b3 line data check) s = .next t ∧
        WriteTaken tag.toNat line.toNat data (accepted tag s) t) ∧
    (FrameGood (writeMaskedBody tag b2 b3 line data (BitVec.allOnes 64)) check tag s →
      ∃ t, exec (.writeMasked tag b2 b3 line data (BitVec.allOnes 64) check) s = .next t ∧
        WriteTaken tag.toNat line.toNat data (accepted tag s) t)) ∧
  (∀ (s : State) (tag b2 b3 : Byte) (line : BitVec 64) (data : Data) (mask : BitVec 64) (check : BitVec 16),
    FrameGood (writeMaskedBody tag b2 b3 line data mask) check tag s → s.link.channel = .online →
    line.toNat < s.capacity → LockPassed s line.toNat (b2.getLsbD 0) → mask ≠ BitVec.allOnes 64 →
    (mask = 0 → exec (.writeMasked tag b2 b3 line data mask check) s = .next { accepted tag s with
      link := { (accepted tag s).link with returns := s.link.returns ++ [.ack tag.toNat .ok] } }) ∧
    (mask ≠ 0 → ∃ t, exec (.writeMasked tag b2 b3 line data mask check) s = .next t ∧
      t.port.drain = drainAfter (drainCount s + 1) s.port.drain ∧
      t.counters.drainEntries = countedIf (t.port.drain && !s.port.drain) s.counters.drainEntries ∧
      t = { accepted tag s with
        port := { s.port with accesses := t.port.accesses, drain := t.port.drain }, wbq := t.wbq
        counters := { (accepted tag s).counters with
          writebacksForwarded := t.counters.writebacksForwarded
          writebacksCancelled := t.counters.writebacksCancelled, drainEntries := t.counters.drainEntries } } ∧
      ((∀ e ∈ s.wbq, e.line ≠ line.toNat) ∨ ¬ LineClear s line.toNat →
        t.wbq = s.wbq ∧ t.counters.writebacksForwarded = s.counters.writebacksForwarded ∧
        t.counters.writebacksCancelled = s.counters.writebacksCancelled ∧
        t.port.accesses = s.port.accesses ++
          [{ line := line.toNat, kind := .maskedWrite tag.toNat data mask none, phase := .waiting }]) ∧
      (∀ e, wbFind s line.toNat = some e → LineClear s line.toNat →
        t.wbq = entriesLeft s line.toNat ∧
        t.counters.writebacksForwarded = satAdd s.counters.writebacksForwarded 1 ∧
        t.counters.writebacksCancelled = countedIf (!e.granted) s.counters.writebacksCancelled ∧
        ∃ merged : Data,
          (∀ i < 64, merged.extractLsb' (8 * i) 8 =
            if mask.getLsbD i then data.extractLsb' (8 * i) 8 else e.data.extractLsb' (8 * i) 8) ∧
          t.port.accesses = accessesLeft s line.toNat ++
            [{ line := line.toNat, phase := .merging, kind := .maskedWrite tag.toNat data mask
                (some (merged, if e.kind = .rewrite then .fresh else .poison)) }])))

/-- A MAINT frame's request enters the tail of the request queue in either channel state, and is answered BUSY when
the queue holds 4 (R187, R192). -/
def Obligations.MaintFramesAreQueued : Prop :=
  ∀ (s : State) (tag b2 : Byte) (code pad : BitVec 16) (args : List Word32) (check : BitVec 16),
    FrameGood (maintBody tag b2 code pad args) check tag s → args.length ≤ 8 →
    (s.maint.queue.length < 4 → exec (.maint tag b2 code pad args check) s = .next { accepted tag s with
      maint := { s.maint with
        queue := s.maint.queue ++ [{ tag := tag.toNat, code := code.toNat, args := args }] } }) ∧
    (4 ≤ s.maint.queue.length → exec (.maint tag b2 code pad args check) s = .next { accepted tag s with
      link := { (accepted tag s).link with returns := s.link.returns ++ [.maintResp tag.toNat .busy []] }
      counters := { (accepted tag s).counters with maintBusy := satAdd s.counters.maintBusy 1 } })

/-- RETURN_FRAME_SENT: when the frame at the head of the return queue has begun, it leaves the part with its check, low
byte first, its tag, and no other, becomes free, and the next frame begins; otherwise the IDLE frame on the link leaves
the part, and the head of the queue, if any, begins (R184, R186, R189, R190). That the event then only replaces the
link's output, and that a frame begins when the frame before it has left, is the model's reading
(notes/assumptions/11.md). -/
def Obligations.SentReturnsFreeTheirTags : Prop :=
  ∀ s : State, ∃ t, exec .returnFrameSent s = .next t ∧
    t = { s with link := { s.link with
      tags := t.link.tags, returns := t.link.returns, begun := t.link.begun, sent := t.link.sent } } ∧
    t.link.begun = !t.link.returns.isEmpty ∧
    (s.link.returns = [] ∨ s.link.begun = false → t.link.returns = s.link.returns ∧ t.link.tags = s.link.tags ∧
      t.link.sent = [0, 0, 0, 0] ++ leBytes (crc16 [0, 0, 0, 0]).toNat 2) ∧
    (∀ f ∈ s.link.returns.head?, s.link.begun = true →
      t.link.returns = s.link.returns.tail ∧ t.link.sent = f.body ++ leBytes (crc16 f.body).toNat 2 ∧
      ∀ tag < 64, t.link.tags.getLsbD tag = (s.link.tags.getLsbD tag && decide (f.tag? ≠ some tag)))

/-! ## The arbiter -/

/-- The eligible accesses are, in order of taking, those that are first of their line, not granted, counted eligible by
their owner and to a bank the DRAM can accept, which the command carries (the model's choice, notes/assumptions/9.md);
the winner is of the highest class with an eligible request, a rank that owes 6 refreshes above every access and one
that owes 1 to 5 below; and there is a winner when there is a request (R26, R31, R32, R37). Within the class the oldest
eligible access wins, unless its pass count is below 4 and a row hit is eligible: then the oldest row hit wins, and the
pass count rises if it passes an older access. Among refreshes the rank whose oldest owed refresh is oldest wins, and
the lower rank between equal ones (R33). The times of owed refreshes are those R196 keeps. The class of each kind of
access, the reads of a SUSTAINED sweep in class 2 while the engine is RUNNING (R31, R79); a WINDOWED write-back is not
eligible while a window is open, nor a copy write before what it writes is fixed, and every other access is (R46,
R141). -/
def Obligations.TheArbiterPicksItsWinner : Prop :=
  (∀ (accept : BitVec 64) (refresh : BitVec 4) (s : State),
    (eligibleAccesses accept s).Sublist s.port.accesses ∧
    (∀ a, a ∈ eligibleAccesses accept s ↔ ∃ before after, s.port.accesses = before ++ a :: after ∧
      (∀ b ∈ before, b.line ≠ a.line) ∧ a.phase ≠ .granted ∧ ownerAllows s a = true ∧
      accept.getLsbD (16 * s.port.geom.rankOf a.line + s.port.geom.bankOf a.line) = true) ∧
    (∀ a cls passes, winner accept refresh s = some (.access a cls passes) →
      a ∈ eligibleAccesses accept s ∧ classOf s a = cls ∧ (∀ rank since, ¬ Refreshable refresh s rank 1 since) ∧
      ∀ b ∈ eligibleAccesses accept s, classOf s b = cls ∨
        if s.port.drain = true ∧ (classOf s b = 3 ∨ classOf s b = 4) ∧ (cls = 3 ∨ cls = 4) then cls = 4
        else cls < classOf s b) ∧
    (∀ rank, winner accept refresh s = some (.refresh rank) → ∃ cls since, Refreshable refresh s rank cls since ∧
      (cls = 9 → eligibleAccesses accept s = [] ∧ ∀ n t, ¬ Refreshable refresh s n 1 t)) ∧
    (winner accept refresh s = none ↔
      eligibleAccesses accept s = [] ∧ ∀ rank cls since, ¬ Refreshable refresh s rank cls since)) ∧
  (∀ (accept : BitVec 64) (refresh : BitVec 4) (s : State),
    (∀ a cls passes, winner accept refresh s = some (.access a cls passes) →
      let mine := (eligibleAccesses accept s).filter fun b => classOf s b == cls
      let count := s.port.passCounts.getD cls 0
      let hits := mine.filter fun b =>
        (AMap.get? s.port.openRows (16 * s.port.geom.rankOf b.line + s.port.geom.bankOf b.line)).any fun o =>
          o.row == lookupRow s b
      if count < 4 ∧ hits ≠ [] then
        hits.head? = some a ∧ passes = (if mine.head? = some a then 0 else count + 1)
      else mine.head? = some a ∧ passes = 0) ∧
    (∀ rank, winner accept refresh s = some (.refresh rank) →
      (∀ r ∈ s.port.refresh, ∀ t ∈ r.owed, 0 ≤ fineDiff s.maint.now t ∧ fineDiff s.maint.now t ≤ 2 ^ 46 * 80) →
      ∀ cls since n t, Refreshable refresh s rank cls since → Refreshable refresh s n cls t →
        0 ≤ fineDiff t since ∧ (n < rank → 0 < fineDiff t since))) ∧
  (∀ (s : State) (a : Access),
    let sustained := s.patrol.engine == .running && s.patrol.active.any fun w =>
      (regionAt s w.region).entry.mode == .sustained
    classOf s a = (match a.kind with
      | .demandRead _ => 3
      | .demandWrite _ _ => 4
      | .maskedWrite _ _ _ _ => 4
      | .writeBack => 5
      | .recordWrite _ _ => 6
      | .copyRead => 7
      | .copyWrite _ _ _ => 7
      | .patrolRead owned => if owned && sustained then 2 else 8
      | .targetedRead _ => 8) ∧
    (a.kind = .writeBack →
      (ownerAllows s a = true ↔ s.window = none ∨ ∃ e, wbFind s a.line = some e ∧ e.policy = .immediate)) ∧
    (∀ row payload forwarded, a.kind = .copyWrite row payload forwarded →
      (ownerAllows s a = true ↔ ∃ fixed, payload = some fixed)) ∧
    (a.kind ≠ .writeBack → (∀ row payload forwarded, a.kind ≠ .copyWrite row payload forwarded) →
      ownerAllows s a = true))

/-- A granted access is looked up at its grant, takes its place among the grants and its class's pass count, and opens
its row, and then the spare row when its write is doubled, each an activation unless the row is open; then come the
immediate actions (R23, R26, R31, R34, R35, R47, R142; their order is the model's choice, notes/assumptions/14.md, and
that `writes_doubled` is counted here is its reading, 16.md). DRAM, time, parameters, region entries, Fault Table and
Remap Table stand, and in line order only accesses of the blocks' own join behind. That the open row changes at the
grant, performing being held back instead, is the model's choice (notes/assumptions/23.md). A granted refresh closes
every open row of its rank, stands between the granted accesses of the rank and those granted after it, takes the oldest
owed refresh from the rank and is counted; with no eligible request nothing happens (R31, R35, R37). That a refresh has
no performing of its own is the model's choice (notes/assumptions/24.md). -/
def Obligations.GrantsTakeThePort : Prop :=
  (∀ (accept : BitVec 64) (refresh : BitVec 4) (s : State) (a : Access) (cls passes : Nat),
    winner accept refresh s = some (.access a cls passes) →
    let rank := s.port.geom.rankOf a.line
    let bank := s.port.geom.bankOf a.line
    let logical := s.port.geom.logicalOf a.line
    let row := match a.kind with
      | .targetedRead named => named
      | .copyWrite spare _ _ => spare
      | _ => servedRow s rank bank logical
    let requester : Requester := match a.kind with
      | .demandRead _ => .demandRead
      | .demandWrite _ _ => .demandWrite
      | .maskedWrite _ _ _ _ => .maskedWrite
      | .writeBack => .writeBack
      | .recordWrite _ _ => .recordWrite
      | .patrolRead _ => .patrolRead
      | .targetedRead _ => .targetedRead
      | .copyRead => .copyRead
      | .copyWrite _ _ _ => .copyWrite
    ∃ (t u : State) (double : Option Nat), exec (.arbiterGrant accept refresh) s = .next t ∧
      let give := fun (b : Access) =>
        { b with phase := .granted, row := row, double := double, grantNo := s.port.grants, refreshes := 0 }
      double = (if a.kind.changesLine then
        (copyOf s rank bank logical).bind fun c =>
          if s.port.geom.colOf a.line < c.2 then some (s.port.geom.visible + c.1) else none
        else none) ∧
      u = { s with
        port := { s.port with accesses := updateFirst a.line give s.port.accesses }
        wbq := s.wbq.map fun e => if a.kind = .writeBack ∧ e.line = a.line then { e with granted := true } else e } ∧
      (let opened := openRow rank bank row requester
          { u with port := { u.port with passCounts := s.port.passCounts.set cls passes, grants := s.port.grants + 1 } };
        t = settle (match double with
          | some spare => openRow rank bank spare requester { opened with
              counters := { opened.counters with writesDoubled := satAdd opened.counters.writesDoubled 1 } }
          | none => opened)) ∧
      JoinsBehind u t ∧ GrantedStay u t ∧ t.port.passCounts = s.port.passCounts.set cls passes ∧
      t.port.grants = s.port.grants + 1 ∧ t.regions.map Region.entry = s.regions.map Region.entry ∧
      (∃ o, AMap.get? t.port.openRows (16 * rank + bank) = some o ∧ o.row = double.getD row) ∧
      (∀ key, key ≠ 16 * rank + bank → AMap.get? t.port.openRows key = AMap.get? s.port.openRows key) ∧
      t = { s with
        link := { s.link with returns := t.link.returns }
        port := { s.port with accesses := t.port.accesses, openRows := t.port.openRows, passCounts := t.port.passCounts
                              grants := t.port.grants }
        wbq := t.wbq, regions := t.regions, patrol := t.patrol, window := t.window, hammer := t.hammer
        repair := { s.repair with jobs := t.repair.jobs }, report := t.report, counters := t.counters }) ∧
  (∀ (accept : BitVec 64) (refresh : BitVec 4) (s : State),
    (∀ rank, winner accept refresh s = some (.refresh rank) →
      ∃ r, s.port.refresh[rank]? = some r ∧ r.owed ≠ [] ∧
      exec (.arbiterGrant accept refresh) s = .next (settle { s with
        port := { s.port with
          accesses := s.port.accesses.map fun b =>
            if b.phase = .granted ∧ s.port.geom.rankOf b.line = rank then { b with refreshes := b.refreshes + 1 } else b
          openRows := s.port.openRows.filter fun p => p.1 / 16 != rank
          refresh := s.port.refresh.set rank { r with owed := r.owed.tail } }
        counters := { s.counters with refreshesIssued := satAdd s.counters.refreshesIssued 1 } })) ∧
    (winner accept refresh s = none → exec (.arbiterGrant accept refresh) s = .next s))

/-- An access to a row that is not open activates it: the row becomes the bank's open row in the place of any other,
`activations` is counted, and from a requester that R157 lists the activation is counted in `hammer_counted` and in the
rank's table; from another it changes nothing more. A row hit activates nothing (R34, R35, R157). The open row changes
at the grant (the model's choice, notes/assumptions/23.md). -/
def Obligations.OpenRowsAreActivatedOnce : Prop :=
  ∀ (rank bank row : Nat) (requester : Requester) (s : State),
    let t := openRow rank bank row requester s
    let open_ := AMap.get? s.port.openRows (16 * rank + bank)
    ((∃ o, open_ = some o ∧ o.row = row) → t = s) ∧
    ((∀ o, open_ = some o → o.row ≠ row) →
      let u : State := { s with
        port := { s.port with
          openRows := AMap.insert s.port.openRows (16 * rank + bank) { row := row, holdEnd := none } }
        counters := { s.counters with activations := satAdd s.counters.activations 1 } }
      (requester ∈ [.demandRead, .demandWrite, .maskedWrite, .writeBack, .recordWrite] →
        t = countActivation rank bank row requester { u with
          counters := { u.counters with hammerCounted := satAdd s.counters.hammerCounted 1 } } ∧
        t.counters.hammerCounted = satAdd s.counters.hammerCounted 1) ∧
      (requester ∈ [.patrolRead, .targetedRead, .copyRead, .copyWrite] → t = u) ∧
      t.counters.activations = satAdd s.counters.activations 1 ∧
      AMap.get? t.port.openRows (16 * rank + bank) = some { row := row, holdEnd := none } ∧
      ∀ key, key ≠ 16 * rank + bank → AMap.get? t.port.openRows key = AMap.get? s.port.openRows key)

/-! ## Accesses performed -/

/-- Only the first access of a line is performed, once granted, and not before an earlier grant of its bank whose row it
would close, or whose row a refresh between the two grants has closed; performed, it leaves line order, and the hold of
the row it leaves open restarts, or with `page_hold` 0 and no other granted access to it the row closes (R26, R34, R35).
That performing waits for the earlier grants of its bank, and for those before a refresh granted between, is the model's
choice (notes/assumptions/23.md). -/
def Obligations.PerformedAccessesLeaveLineOrder : Prop :=
  ∀ (s : State) (line : Nat) (a : Access), performable s line = some a →
    let rank := s.port.geom.rankOf line
    let bank := s.port.geom.bankOf line
    let t := finishAccess a s
    let open_ := AMap.get? s.port.openRows (16 * rank + bank)
    (∃ before after, s.port.accesses = before ++ a :: after ∧ t.port.accesses = before ++ after ∧
      (∀ b ∈ before, b.line ≠ line) ∧
      ((∃ b ∈ before ++ after, b.phase = .granted ∧ s.port.geom.rankOf b.line = rank ∧
        s.port.geom.bankOf b.line = bank ∧ (b.row = a.lastRow ∨ b.double = some a.lastRow)) ↔
        rowBusy t rank bank a.lastRow = true)) ∧
    a.line = line ∧ a.phase = .granted ∧
    (∀ b ∈ s.port.accesses, b.phase = .granted → b.grantNo < a.grantNo → s.port.geom.rankOf b.line = rank →
      s.port.geom.bankOf b.line = bank → a.row = b.lastRow ∧ a.double = none ∧ b.refreshes ≤ a.refreshes) ∧
    (∀ o, open_ = some o → o.row = a.lastRow →
      (s.params.pageHold = 0 ∧ rowBusy t rank bank a.lastRow = false →
        t.port.openRows = AMap.erase s.port.openRows (16 * rank + bank)) ∧
      (s.params.pageHold ≠ 0 ∨ rowBusy t rank bank a.lastRow = true → AMap.get? t.port.openRows (16 * rank + bank) =
        some { row := a.lastRow, holdEnd := some (s.maint.now.us + BitVec.ofNat 48 s.params.pageHold) })) ∧
    ((∀ o, open_ = some o → o.row ≠ a.lastRow) → t.port.openRows = s.port.openRows) ∧
    t = { s with port := { s.port with accesses := t.port.accesses, openRows := t.port.openRows } }

/-- A demand write performed, and the write of a masked-write unit: its line is written fresh or with the poison mark,
it leaves the drain count, and its ACK follows, or during a clear its tag becomes free (R3, R15, R17, R18, R30, R32,
R142). A write-back performed: the line holds the entry's data, fresh or with the poison mark, and the entry leaves the
queue and line order, counted by its kind (R3, R26, R41, R48). A record write and a copy write performed are written
likewise and leave line order (R3, R26, R141, R171). -/
def Obligations.WritesArePerformed : Prop :=
  (∀ (s : State) (line : Nat) (a : Access) (tag : Nat) (data frame : Data) (mask : BitVec 64) (form : Form) (status : AckStatus)
      (c : Instr),
    DramCanonical s → performable s line = some a →
    (c = .demandWritePerformed line ∧ a.kind = .demandWrite tag data ∧ form = .fresh ∧ status = .ok) ∨
      (c = .maskedWritePerformed line ∧ a.kind = .maskedWrite tag frame mask (some (data, form)) ∧
        status = if form = .fresh then .ok else .poisonedMerge) →
    ∃ t, exec c s = .next t ∧ Written a data form s t ∧
      t.port.drain = drainAfter (drainCount s - 1) s.port.drain ∧
      (s.maint.clearing = false →
        t.link = { s.link with returns := s.link.returns ++ [.ack tag status] }) ∧
      (s.maint.clearing = true →
        t.link = { s.link with tags := s.link.tags &&& ~~~BitVec.ofNat 64 (2 ^ tag) }) ∧
      t = { finishAccess a s with
        link := t.link, dram := t.dram, port := { (finishAccess a s).port with drain := t.port.drain }
        counters := { s.counters with
          drainEntries := countedIf (t.port.drain && !s.port.drain) s.counters.drainEntries } }) ∧
  (∀ (s : State) (line : Nat) (a : Access) (e : WbEntry),
    DramCanonical s → performable s line = some a → a.kind = .writeBack → wbFind s line = some e →
    ∃ t, exec (.writebackPerformed line) s = .next t ∧
      Written a e.data (if e.kind = .rewrite then .fresh else .poison) s t ∧
      t = { finishAccess a s with
        dram := t.dram, wbq := s.wbq.filter fun f => f.line != line
        counters := if e.kind = .rewrite then
            { s.counters with rewritesWritten := satAdd s.counters.rewritesWritten 1 }
          else { s.counters with poisonMarksWritten := satAdd s.counters.poisonMarksWritten 1 } }) ∧
  (∀ (s : State) (line : Nat) (a : Access) (n : Word32) (data : Data),
    DramCanonical s → performable s line = some a → a.kind = .recordWrite n data →
    ∃ t, exec (.recordWritePerformed line) s = .next t ∧ Written a data .fresh s t ∧ t.port = (finishAccess a s).port) ∧
  (∀ (s : State) (line : Nat) (a : Access) (row : Nat) (payload : Data × Form) (forwarded : Bool),
    DramCanonical s → performable s line = some a → a.kind = .copyWrite row (some payload) forwarded →
    ∃ t, exec (.copyWritePerformed line) s = .next t ∧ Written a payload.1 payload.2 s t ∧
      JoinsBehind (finishAccess a s) t)

/-- A record handed on is discarded before the ring is set up, placed while the ring takes it, or else lost: overrun
turns on and OVERRUN is raised (R169, R170, R171, R172). A record write performed: its record is in the ring's line,
and W advances over the records written in order, each announced in its turn (R3, R171). Each record counted as written
adds one to the unannounced count and starts the age timer with the first; at `ready_count` of them, or with
`ready_age` 0, RECORDS_READY is raised, the count returns to 0 and the timer stops (R179). That the age timer starts at
the moment of the counting, also when the record was performed before, is the model's choice (notes/assumptions/49.md).
-/
def Obligations.RecordWritesAreAnnounced : Prop :=
  (∀ (s : State) (line : Nat) (a : Access) (n : Word32) (data : Data),
    DramCanonical s → performable s line = some a → a.kind = .recordWrite n data →
    let marked := s.report.queue.map fun q => if q.sequence = n then { q with performed := true } else q
    let written := fun (x : State) => addUnannounced { x with
      report := { x.report with written := x.report.written + 1 }
      counters := { x.counters with recordsWritten := satAdd x.counters.recordsWritten 1 } }
    ∃ t u, exec (.recordWritePerformed line) s = .next t ∧ Written a data .fresh s t ∧
      u = written^[(marked.takeWhile QueuedRecord.performed).length] { finishAccess a s with dram := t.dram } ∧
      t = { u with report := { u.report with queue := marked.dropWhile QueuedRecord.performed } } ∧
      t.report.written = s.report.written + BitVec.ofNat 32 (marked.takeWhile QueuedRecord.performed).length ∧
      t.report.mask = s.report.mask ∧ plain t.link.returns = plain s.link.returns) ∧
  (∀ s : State,
    let t := addUnannounced s
    (s.report.unannounced + 1 < s.params.readyCount → s.params.readyAge ≠ 0 →
      t = { s with report := { s.report with
        unannounced := s.report.unannounced + 1
        ageStart := if s.report.unannounced = 0 then some s.maint.now.us else s.report.ageStart } }) ∧
    (s.params.readyCount ≤ s.report.unannounced + 1 ∨ s.params.readyAge = 0 →
      t = testAlert { s with report := { s.report with
        unannounced := 0, ageStart := none, pending := s.report.pending ||| 1 } } ∧
      t.report.unannounced = 0 ∧ t.report.ageStart = none ∧ t.report.pending = s.report.pending ||| 1 ∧
      t.report.queue = s.report.queue ∧ t.report.written = s.report.written ∧ t.port = s.port ∧ t.wbq = s.wbq)) ∧
  (∀ (r : Record) (s : State),
    let line := s.report.base + s.report.produced.toNat % 2 ^ s.report.sizeExp
    (s.report.setUp = false → handRecord r s = s) ∧
    (RingOpen s → handRecord r s = { s with
      port := { s.port with accesses := accessesLeft s line ++ [recordWriteOf r s] }
      wbq := entriesLeft s line
      report := { s.report with
        produced := s.report.produced + 1
        queue := s.report.queue ++ [{ sequence := s.report.produced, performed := false }] }
      counters := { s.counters with
        recordsPlaced := satAdd s.counters.recordsPlaced 1
        writebacksCancelled := countedIf (cancels s line) s.counters.writebacksCancelled } }) ∧
    (s.report.setUp = true → ¬ RingOpen s → handRecord r s = testAlert { s with
      report := { s.report with
        lost := satAdd s.report.lost 1, overrun := true, pending := s.report.pending ||| 8 }
      counters := { s.counters with recordsLost := satAdd s.counters.recordsLost 1 } }))

/-- A copy write performed: the spare's line holds the data in the form fixed at its read, the cursor rises, and the
next pair follows unless a window is open; at the last column the slot is ACTIVE, a move's source slot DEAD, the job
done, its ROW_RETIRED record handed on, the cause raised, and the next job starts (R3, R141, R144, R145, R146, R123).
The next pair is the copy read with the copy write directly behind it, or, while the Write-back Queue holds the line
and no write of the line waits, the copy write alone with the entry's data (R29, R141). The oldest job starts with its
slot COPYING from column 0 (R140). A slot changes alone (R134). That the record comes before the cause is the model's
choice (notes/assumptions/50.md). -/
def Obligations.CopiesFillTheSpare : Prop :=
  (∀ (s : State) (line : Nat) (a : Access) (row : Nat) (payload : Data × Form) (forwarded : Bool) (j : Job)
      (rest : List Job) (target : SlotTarget) (cursor : Nat),
    DramCanonical s → performable s line = some a → a.kind = .copyWrite row (some payload) forwarded →
    s.repair.jobs = j :: rest → slotAt s j.rank j.bank j.target = .copying target cursor →
    target ≠ .move j.target →
    ∃ t, exec (.copyWritePerformed line) s = .next t ∧ Written a payload.1 payload.2 s t ∧
      t.counters.copyLines = satAdd s.counters.copyLines 1 ∧ JoinsBehind (finishAccess a s) t ∧
      (let u : State := { finishAccess a s with
        dram := t.dram, counters := { s.counters with copyLines := satAdd s.counters.copyLines 1 } }
      let v := setSlot j.rank j.bank j.target (.active j.logical) u
      let w := match target with
        | .move k => setSlot j.rank j.bank k .dead v
        | .row _ => v
      let done : State := { w with
        repair := { w.repair with jobs := rest }
        counters := { u.counters with repairJobsDone := satAdd s.counters.repairJobsDone 1 } }
      let told : State := match faultFind s j.rank j.bank j.sourceRow with
        | some i => { done with
            fault := { s.fault with
              entries := s.fault.entries.set i { faultAt s i with state := .retired, reason := none } }
            counters := { done.counters with entriesRetired := satAdd s.counters.entriesRetired 1 } }
        | none => done
      let first := s.port.geom.lineOf j.rank j.bank j.logical 0
      let record : Record :=
        { kind := 6, source := 5, region := regionOf s first, line := first, rank := j.rank, bank := j.bank
          row := s.port.geom.visible + j.target, slotOrCount := j.target
          detail := [(38, 4, j.sourceRow), (42, 1, match target with
            | .move k => k
            | .row _ => 255), (43, 1, if j.origin = .requested then 1 else 0), (44, 2, j.clean), (46, 2, j.corrected),
            (48, 2, j.poisoned), (50, 2, j.taken)] }
      t = if cursor + 1 < s.port.geom.columns then
          resumeCopy (setSlot j.rank j.bank j.target (.copying target (cursor + 1)) u)
        else startJob (raise .rowRetired (handRecord record told))) ∧
      (cursor + 1 < s.port.geom.columns →
        slotAt t j.rank j.bank j.target = .copying target (cursor + 1) ∧ t.fault = s.fault ∧ t.report = s.report ∧
        t.link = s.link ∧ (t.repair.jobs.map Job.target) = (s.repair.jobs.map Job.target) ∧
        (s.window.isSome → t.port = (finishAccess a s).port)) ∧
      (s.port.geom.columns ≤ cursor + 1 →
        slotAt t j.rank j.bank j.target = .active j.logical ∧
        (∀ k, target = .move k → slotAt t j.rank j.bank k = .dead) ∧
        (t.repair.jobs.map Job.target) = (rest.map Job.target) ∧
        t.counters.repairJobsDone = satAdd s.counters.repairJobsDone 1 ∧ t.report.pending.getLsbD 8 = true ∧
        (∀ i, faultFind s j.rank j.bank j.sourceRow = some i →
          t.fault.entries = s.fault.entries.set i { faultAt s i with state := .retired, reason := none }) ∧
        (faultFind s j.rank j.bank j.sourceRow = none → t.fault = s.fault)) ∧
      t = { s with
        link := { s.link with returns := t.link.returns }
        port := { s.port with accesses := t.port.accesses, openRows := (finishAccess a s).port.openRows }
        wbq := t.wbq, fault := { s.fault with entries := t.fault.entries }
        repair := { s.repair with slots := t.repair.slots, jobs := t.repair.jobs }, report := t.report
        dram := t.dram, counters := t.counters }) ∧
  (∀ (s : State) (j : Job) (rest : List Job) (target : SlotTarget) (cursor : Nat),
    s.repair.jobs = j :: rest → slotAt s j.rank j.bank j.target = .copying target cursor →
    let line := s.port.geom.lineOf j.rank j.bank j.logical cursor
    let row := s.port.geom.visible + j.target
    (s.window.isSome ∨ (∃ b ∈ s.port.accesses, b.kind.isCopy = true) → resumeCopy s = s) ∧
    (s.window = none → (∀ b ∈ s.port.accesses, b.kind.isCopy = false) →
      ((∀ e ∈ s.wbq, e.line ≠ line) ∨ ¬ LineClear s line → resumeCopy s = { s with
        port := { s.port with accesses := s.port.accesses ++
          [{ line := line, kind := .copyRead, phase := .waiting },
           { line := line, kind := .copyWrite row none false, phase := .waiting }] } }) ∧
      (∀ e, wbFind s line = some e → LineClear s line →
        let fixed : Data × Form := (e.data, if e.kind = .rewrite then .fresh else .poison)
        resumeCopy s = { s with
        port := { s.port with accesses := s.port.accesses ++
          [{ line := line, kind := .copyWrite row (some fixed) true, phase := .waiting }] }
        repair := { s.repair with jobs := { j with taken := j.taken + 1 } :: rest }
        counters := { s.counters with writebacksForwarded := satAdd s.counters.writebacksForwarded 1 } }))) ∧
  (∀ s : State, (s.repair.jobs = [] → startJob s = s) ∧
    ∀ (j : Job) (rest : List Job) (target : SlotTarget), s.repair.jobs = j :: rest →
      slotAt s j.rank j.bank j.target = .reserved target →
      startJob s = resumeCopy (setSlot j.rank j.bank j.target (.copying target 0) s)) ∧
  (∀ (s : State) (rank bank k : Nat) (slot : Slot), AMap.rising s.repair.slots = true →
    let t := setSlot rank bank k slot s
    t = { s with repair := { s.repair with slots := t.repair.slots } } ∧
    (∀ key, (AMap.get? t.repair.slots key).getD .free =
      if key = slotKey rank bank k then slot else (AMap.get? s.repair.slots key).getD .free))

/-! ## Reads decoded -/

/-- What a decode gives its event: none after CLEAN and after POISONED without a located device, and otherwise one
with the place read, the located device, the source, the region of the line and the poisoned indication (R9, R11). A
decode hands on a REWRITE after CORRECTED, and a POISON entry after UNCORRECTABLE and after POISONED with a located
device; it is discarded during a clear and behind a waiting write, replaces the entry of its line, enters the tail of
a queue with room, and is dropped from a full one (R13, R18, R27, R40, R41, R43, R44, R45). A merging masked write
counts as waiting (the model's choice, notes/assumptions/25.md). That the event has the line address of the access, and
the region of that line, also when the slot of its spare row has become DEAD or FREE since the grant, is the model's
choice (notes/assumptions/45.md). -/
def Obligations.DecodesHandOnTheirWork : Prop :=
  (∀ (source : Source) (a : Access) (d : Decoded) (s : State),
    (d.outcome = .clean ∨ (d.outcome = .poisoned ∨ d.outcome = .corrected) ∧ d.located = none →
      eventOf source a d s = none) ∧
    (d.outcome = .uncorrectable ∨ (d.outcome = .poisoned ∨ d.outcome = .corrected) ∧ d.located ≠ none →
      eventOf source a d s = some
        { rank := s.port.geom.rankOf a.line, bank := s.port.geom.bankOf a.line, row := a.row
          col := s.port.geom.colOf a.line, line := a.line
          located := if d.outcome = .uncorrectable then none else d.located, source := source
          region := regionOf s a.line, poisoned := decide (d.outcome = .poisoned) })) ∧
  (∀ (s : State) (line : Nat) (d : Decoded) (policy : Policy),
    let t := handDecoded line d policy s
    (d.outcome = .clean ∨ d.outcome = .poisoned ∧ d.located = none → t = s) ∧
    (s.maint.clearing = true ∨ ¬ LineClear s line → t = s) ∧
    ∀ kind : WbKind, s.maint.clearing = false → LineClear s line →
      (kind = .rewrite ∧ d.outcome = .corrected) ∨
        (kind = .poison ∧ (d.outcome = .uncorrectable ∨ d.outcome = .poisoned ∧ d.located ≠ none)) →
      (∀ e, wbFind s line = some e → t = { s with
        wbq := s.wbq.map fun f => if f.line = line then { f with data := d.data, kind := kind, policy := policy } else f
        counters := { s.counters with writebacksReplaced := satAdd s.counters.writebacksReplaced 1 } }) ∧
      ((∀ e ∈ s.wbq, e.line ≠ line) → s.wbq.length < 8 → t = { s with
        wbq := s.wbq ++
          [{ line := line, data := d.data, kind := kind, policy := policy, inserted := s.maint.now.us, granted := false }]
        port := { s.port with accesses := s.port.accesses ++ [{ line := line, kind := .writeBack, phase := .waiting }] }
        counters := { s.counters with writebacksInserted := satAdd s.counters.writebacksInserted 1 } }) ∧
      ((∀ e ∈ s.wbq, e.line ≠ line) → 8 ≤ s.wbq.length → t = { s with
        counters := { s.counters with writebacksDropped := satAdd s.counters.writebacksDropped 1 } }))

/-- A demand read decoded: it leaves line order, its DATA frame is handed on with the outcome of R13, or during a
clear its tag becomes free, and then come the event and the write-back, with the policy of the line's region; other
demand accesses stand as they stood (R13, R18, R25, R26, R42). The order of the return before the event is the
model's choice (notes/assumptions/13.md), and so is the order of what follows (notes/assumptions/14.md). -/
def Obligations.DemandReadsAreAnswered : Prop :=
  ∀ (s : State) (line : Nat) (damage : Line) (a : Access) (tag : Nat),
    performable s line = some a → a.kind = .demandRead tag →
    let d := decodeLine s.code (erasureSet s (s.port.geom.rankOf line))
      (dramRead s.dram (placeIn s a a.row) ^^^ damage)
    let outcome : DataOutcome := match d.outcome with
      | .clean => .clean
      | .corrected => .corrected
      | _ => .poisoned
    let policy := match regionOf s line with
      | some i => (regionAt s i).entry.policy
      | none => .immediate
    let u := { finishAccess a s with link :=
      if s.maint.clearing then { s.link with tags := s.link.tags &&& ~~~BitVec.ofNat 64 (2 ^ tag) }
      else { s.link with returns := s.link.returns ++ [.data tag outcome d.data] } }
    let v := match eventOf .demand a d s with
      | some ev => takeEvent ev u
      | none => u
    ∃ t, exec (.demandReadDecode line damage) s = .next t ∧ t = settle (handDecoded line d policy v) ∧
      JoinsBehind u t ∧ plain t.link.returns = plain u.link.returns ∧ t.link.tags = u.link.tags ∧
      t.port.openRows = u.port.openRows ∧ t.dram = s.dram ∧ t.maint = s.maint ∧ t.params = s.params ∧
      t.hammer = s.hammer ∧ t.regions.map Region.entry = s.regions.map Region.entry ∧
      (eventOf .demand a d s = none → t.fault = s.fault)

/-- A patrol or targeted read decoded: its event and write-back as for a demand read but with no return frame; a line
of the sweep is done and its event counted against the region, and a targeted read of a row that does not serve its
logical row hands on no write-back (R14, R18, R42, R58, R76, R80, R143). The order is the model's choice
(notes/assumptions/13.md, 14.md). -/
def Obligations.ScrubReadsAreDone : Prop :=
  ∀ (s : State) (line : Nat) (damage : Line) (a : Access), performable s line = some a →
    let rank := s.port.geom.rankOf line
    let bank := s.port.geom.bankOf line
    let d := decodeLine s.code (erasureSet s rank) (dramRead s.dram (placeIn s a a.row) ^^^ damage)
    let policy := match regionOf s line with
      | some i => (regionAt s i).entry.policy
      | none => .immediate
    let after := fun source => match eventOf source a d s with
      | some ev => takeEvent ev (finishAccess a s)
      | none => finishAccess a s
    let done := fun (w : Sweep) => { w with inFlight := w.inFlight - 1 }
    let lineIsDone := fun (u : State) =>
      { u with patrol := { u.patrol with active := u.patrol.active.map done, held := u.patrol.held.map done } }
    (a.kind = .patrolRead false →
      exec (.scrubReadDecode line damage) s = .next (settle (handDecoded line d policy (after .patrol)))) ∧
    (a.kind = .patrolRead true →
      let v := countSweepEvent (eventOf .patrol a d s) (after .patrol)
      (eventOf .patrol a d s = none → v = finishAccess a s) ∧
      (∀ (ev : FaultEvent) (w : Sweep), eventOf .patrol a d s = some ev →
        (s.patrol.active = some w ∨ s.patrol.active = none ∧ s.patrol.held = some w) →
        let g := (regionAt s w.region).status
        w.region < s.regions.length → regionAt v w.region = { regionAt s w.region with status :=
          if ev.located = none then
            { g with corrected := satAdd g.corrected 0, uncorrectable := satAdd g.uncorrectable 1 }
          else { g with corrected := satAdd g.corrected 1, uncorrectable := satAdd g.uncorrectable 0 } }) ∧
      exec (.scrubReadDecode line damage) s = .next (settle (lineIsDone (handDecoded line d policy v)))) ∧
    (∀ row, a.kind = .targetedRead row →
      exec (.scrubReadDecode line damage) s = .next (settle
        (match heldRow s rank bank a.row with
          | some l =>
            if servedRow s rank bank l = a.row then handDecoded line d policy (after .targeted) else after .targeted
          | none => after .targeted))) ∧
    (a.kind.isScrub = true → ∃ t, exec (.scrubReadDecode line damage) s = .next t ∧ JoinsBehind (finishAccess a s) t ∧
      plain t.link.returns = plain s.link.returns ∧ t.link.tags = s.link.tags ∧ t.dram = s.dram ∧ t.maint = s.maint)

/-- A masked write's read decoded: the unit becomes merging where it stands, with the frame's bytes where the mask
selects them and the decode's elsewhere, and the form of R15; its event follows, no write-back and no return (R15,
R18, R30). A copy read decoded: it leaves line order, the pair's write takes the decoded data in the form of R16, the
job counts the line by its outcome, and the event follows; no write-back and no return (R16, R18, R141). That the
immediate actions close each command is the model's choice (notes/assumptions/14.md). -/
def Obligations.MergesAndCopiesAreFixed : Prop :=
  (∀ (s : State) (line : Nat) (damage : Line) (a : Access) (tag : Nat) (data : Data) (mask : BitVec 64),
    performable s line = some a → a.kind = .maskedWrite tag data mask none →
    let d := decodeLine s.code (erasureSet s (s.port.geom.rankOf line)) (dramRead s.dram (placeIn s a a.row) ^^^ damage)
    let form : Form := if d.outcome = .clean ∨ d.outcome = .corrected then .fresh else .poison
    ∃ (merged : Data) (u t : State),
      (∀ i < 64, merged.extractLsb' (8 * i) 8 =
        if mask.getLsbD i then data.extractLsb' (8 * i) 8 else d.data.extractLsb' (8 * i) 8) ∧
      u.port.accesses = updateFirst line
        (fun b => { b with kind := .maskedWrite tag data mask (some (merged, form)), phase := .merging })
        s.port.accesses ∧
      u = { s with port := { s.port with openRows := u.port.openRows, accesses := u.port.accesses } } ∧
      exec (.rmwReadDecode line damage) s = .next t ∧
      t = settle (match eventOf .rmw a d s with
        | some ev => takeEvent ev u
        | none => u) ∧
      JoinsBehind u t ∧ t.wbq.Sublist s.wbq ∧ plain t.link.returns = plain s.link.returns ∧ t.link.tags = s.link.tags ∧
      t.dram = s.dram ∧ t.maint = s.maint ∧ t.params = s.params) ∧
  (∀ (s : State) (line : Nat) (damage : Line) (a : Access), performable s line = some a → a.kind = .copyRead →
    let d := decodeLine s.code (erasureSet s (s.port.geom.rankOf line)) (dramRead s.dram (placeIn s a a.row) ^^^ damage)
    let form : Form := if d.outcome = .clean ∨ d.outcome = .corrected then .fresh else .poison
    let fixed := fun (b : Access) => match b.kind with
      | .copyWrite spare none forwarded =>
        if b.line = line then { b with kind := .copyWrite spare (some (d.data, form)) forwarded } else b
      | _ => b
    let counted := fun (j : Job) => match d.outcome with
      | .clean => { j with clean := j.clean + 1 }
      | .corrected => { j with corrected := j.corrected + 1 }
      | _ => { j with poisoned := j.poisoned + 1 }
    let u := { finishAccess a s with
      port := { (finishAccess a s).port with accesses := (finishAccess a s).port.accesses.map fixed }
      repair := { s.repair with jobs := match s.repair.jobs with
        | j :: rest => counted j :: rest
        | [] => [] } }
    ∃ t, exec (.copyReadDecode line damage) s = .next t ∧
      t = settle (match eventOf .repair a d s with
        | some ev => takeEvent ev u
        | none => u) ∧
      JoinsBehind u t ∧ t.wbq.Sublist s.wbq ∧ plain t.link.returns = plain s.link.returns ∧ t.link.tags = s.link.tags ∧
      t.dram = s.dram ∧ t.maint = s.maint ∧ t.params = s.params)

/-! ## The DRAM Port's timers -/

/-- ROW_HOLD_EXPIRY closes the row whose hold end time is reached when no granted access to it remains, and nothing
else happens; REFRESH_TIMER_EXPIRY begins the next interval at once and adds an owed refresh below 8, or counts
`refresh_missed` (R34, R36). That an event brings the elapsed time to its own moment, and that the next interval is
counted from that moment, are the model's choices (notes/assumptions/4.md, 31.md). -/
def Obligations.PortTimersExpire : Prop :=
  (∀ (m : FineTime) (s : State),
    (fineDiff m s.maint.now ≤ 0 → arrive m s = s) ∧ (0 < fineDiff m s.maint.now → (arrive m s).maint.now = m) ∧
    (arrive m s).port.accesses = s.port.accesses ∧ (arrive m s).link = s.link ∧ (arrive m s).dram = s.dram) ∧
  (∀ (s : State) (rank bank : Nat) (o : OpenRow) (t : Elapsed),
    AMap.get? s.port.openRows (16 * rank + bank) = some o → o.holdEnd = some t →
    let v := arrive { us := t, sub := 0 } s
    exec (.rowHoldExpiry rank bank) s = .next
      (if rowBusy s rank bank o.row then s
      else { v with port := { v.port with openRows := AMap.erase v.port.openRows (16 * rank + bank) } })) ∧
  ∀ (s : State) (rank : Nat) (r : Refresh) (m : FineTime),
    s.port.refresh[rank]? = some r → r.timer = some m →
    let v := arrive m s
    let next := m.later (s.params.refreshInterval * 8)
    let owed := (refreshAt v rank).owed
    owed.length = r.owed.length ∧
    exec (.refreshTimerExpiry rank) s = .next
      (if r.owed.length < 8 then
        { v with port := { v.port with refresh := v.port.refresh.set rank { timer := some next, owed := owed ++ [m] } } }
      else { v with
        port := { v.port with refresh := v.port.refresh.set rank { timer := some next, owed := owed } }
        counters := { s.counters with refreshMissed := satAdd s.counters.refreshMissed 1 } })

/-! ## The Patrol Engine -/

/-- The pace of a recompute: Q = floor(T * 16 / R) less one, between `min_pace` and 65535, the at-risk flag set when it
would be below or T is not positive; a SUSTAINED sweep has `min_pace`, and with no line remaining the others stay as
they are; the override's needed time is what `min_pace` needs, so a sweep resumed at its override time is not at risk
(R73, R105, R107). That a SUSTAINED sweep with no line remaining is not at risk is the model's reading
(notes/assumptions/17.md). A recompute takes T from the deadline, the margin of an eighth of the period and now, and
raises SWEEP_AT_RISK, counted, once for a sweep (R73, R74). The start of a sweep: the due time with the whole periods
skipped, or now for a sweep of the host; the deadline a period later; the region's status and the slot; and then the
pace and the override time (R72, R85, R106). That a job begun before holds no boundary of the sweep is the model's
choice (notes/assumptions/15.md). -/
def Obligations.SweepsStartAtTheirPace : Prop :=
  (∀ (w : Sweep) (minPace : Nat) (slack : Int),
    pacedSweep .burst minPace slack w = pacedSweep .single minPace slack w ∧
    pacedSweep .sustained minPace slack w =
      { w with pace := minPace, atRisk := decide (slack ≤ 0 ∧ 0 < w.remaining) } ∧
    (w.remaining = 0 → pacedSweep .single minPace slack w = w) ∧
    (0 < w.remaining → slack ≤ 0 → pacedSweep .single minPace slack w = { w with pace := minPace, atRisk := true }) ∧
    (0 < w.remaining → 0 < slack →
      let q := slack * 16 / w.remaining
      (q - 1 < minPace → pacedSweep .single minPace slack w = { w with pace := minPace, atRisk := true }) ∧
      (minPace ≤ q - 1 → q - 1 ≤ 65535 →
        pacedSweep .single minPace slack w = { w with pace := (q - 1).toNat, atRisk := false }) ∧
      (minPace ≤ q - 1 → 65535 < q - 1 →
        pacedSweep .single minPace slack w = { w with pace := 65535, atRisk := false })) ∧
    (0 < w.remaining → w.remaining * (minPace + 1) ≤ neededTime minPace w.remaining * 16 ∧
      neededTime minPace w.remaining * 16 < w.remaining * (minPace + 1) + 16 ∧
      (pacedSweep .single minPace (neededTime minPace w.remaining) w).atRisk = false)) ∧
  (∀ s : State, (s.patrol.active = none → recompute s = s) ∧ ∀ w : Sweep, s.patrol.active = some w →
    let entry := (regionAt s w.region).entry
    let slack : Int := elapsedDiff w.deadline s.maint.now.us - (entry.period * 100000 / 8 : Nat)
    let paced := pacedSweep entry.mode s.params.minPace slack w
    (paced.atRisk = false ∨ w.atRiskReported = true →
      recompute s = { s with patrol := { s.patrol with active := some paced } }) ∧
    (paced.atRisk = true → w.atRiskReported = false →
      let u := testAlert { s with
        patrol := { s.patrol with active := some { paced with atRiskReported := true } }
        report := { s.report with pending := s.report.pending ||| 0x0010 } }
      recompute s = { u with
        counters := { u.counters with sweepsAtRisk := satAdd s.counters.sweepsAtRisk 1 } })) ∧
  (∀ (s : State) (i : Nat) (host : Bool), 0 < (regionAt s i).entry.period →
    let g := regionAt s i
    let period := g.entry.period * 100000
    ∃ (k : Nat) (due : Elapsed),
      (host = true → k = 0 ∧ due = s.maint.now.us) ∧
      (host = false → due = g.status.due + BitVec.ofNat 48 (k * period) ∧
        elapsedDiff s.maint.now.us g.status.due < k * period + period ∧
        ∀ j < k, j * period + period ≤ elapsedDiff s.maint.now.us g.status.due) ∧
      startSweep i host s = reviewOverride (recompute { s with
        regions := s.regions.set i { g with status := { g.status with
          state := .active, due := due + BitVec.ofNat 48 period, lastStart := s.maint.now.us
          missed := satAdd g.status.missed k, corrected := 0, uncorrectable := 0 } }
        patrol := { s.patrol with
          engine := if s.window.isSome then .paused else .running
          active := some { region := i, hostPlaced := host, cursor := g.entry.base, remaining := g.entry.length
                           inFlight := 0, issued := 0, due := due, deadline := due + BitVec.ofNat 48 period, pace := 0
                           nextIssue := s.maint.now, atRisk := false, atRiskReported := false, burstLeft := 0
                           jobSince := false, deferred := false } } }))

/-- Selection stages the candidate with the earliest due time, the higher class between equal ones and then the lower
index; with no candidate, a staged sweep, or an engine that does not select it changes nothing (R67, R71). REGION_DUE
runs selection at the earliest due time of the regions that wait for one (R71). That the event brings the elapsed time
to that moment, that with none waiting it changes nothing, and that the immediate actions close it, are the model's
choices (notes/assumptions/4.md, 5.md, 14.md); that while a channel clear is in progress selection is left to its
completion is the model's reading (R97, R109; notes/assumptions/44.md). A staged sweep moves to an empty active slot at
once, and selection runs again (R71). -/
def Obligations.SelectionTakesTheEarliestDue : Prop :=
  (∀ s : State,
    let t := selectStaged s
    let age := fun (i : Nat) => elapsedDiff s.maint.now.us (regionAt s i).status.due
    let candidate := fun (i : Nat) => i < s.regions.length ∧ (regionAt s i).entry.valid = true ∧
      (regionAt s i).entry.patrol = true ∧ (regionAt s i).status.state = .idle ∧ 0 ≤ age i
    let selects := s.patrol.staged = none ∧
      (s.patrol.engine = .idle ∨ s.patrol.engine = .running ∨ s.patrol.engine = .paused)
    (¬ selects ∨ (∀ i, ¬ candidate i) → t = s) ∧
    (selects → ∀ i, candidate i →
      (∀ j, candidate j → j ≠ i → age j < age i ∨
        age j = age i ∧ ((regionAt s i).entry.cls.code < (regionAt s j).entry.cls.code ∨
          (regionAt s i).entry.cls = (regionAt s j).entry.cls ∧ i < j)) →
      t = { s with
        patrol := { s.patrol with staged := some { region := i, hostPlaced := false } }
        regions := s.regions.set i
          { regionAt s i with status := { (regionAt s i).status with state := .staged } } })) ∧
  (∀ s : State,
    ((∀ g ∈ s.regions, ¬ (g.entry.valid = true ∧ g.entry.patrol = true ∧ g.status.state = .idle)) →
      exec .regionDue s = .next s) ∧
    (∀ g ∈ s.regions, g.entry.valid = true → g.entry.patrol = true → g.status.state = .idle →
      (∀ h ∈ s.regions, h.entry.valid = true → h.entry.patrol = true → h.status.state = .idle →
        0 ≤ elapsedDiff h.status.due g.status.due) →
      (∀ h ∈ s.regions, elapsedDiff s.maint.now.us h.status.due ≤ 2 ^ 46 ∧
        -(2 ^ 46) < elapsedDiff s.maint.now.us h.status.due) →
      let v := arrive { us := g.status.due, sub := 0 } s
      exec .regionDue s = .next (settle (if s.maint.clearing = true then v else runSelection v))) ∧
    (s.patrol.active.isSome → runSelection s = selectStaged s) ∧
    (∀ p, (selectStaged s).patrol.staged = some p → s.patrol.active = none → s.patrol.engine.selects = true →
      runSelection s = selectStaged (startSweep p.region p.hostPlaced
        { selectStaged s with patrol := { (selectStaged s).patrol with staged := none } })))

/-- PATROL_LINE_ISSUE and BURST_ISSUE: at its next issue time a SINGLE or BURST sweep whose lines are done gives its
line boundary to an eligible targeted job, unless one has completed since its last issue, and otherwise issues the line
at its cursor, skipped when the Write-back Queue holds it, with the next issue time counted from this issue (R76, R77,
R78, R94). A sweep completes when its last line is done: its region is IDLE with its end, its count and its lateness,
SWEEP_LATE is raised of a late one, and in the active slot the staged sweep follows, or STAGED_EMPTY is raised when none
is staged after it (R81, R82). The other immediate actions: the job being read goes on when its last line is done (R95,
R96); the later lines of a burst are issued while the one before is granted or skipped (R78); a SUSTAINED sweep issues
at each line boundary while fewer than 4 of its lines are in flight, or gives the boundary to a job (R79, R94); with no
sweep issuing, a job begins, the eligible one in service before the oldest eligible (R93, R94). That they are taken in
this order, and that the two commands bring the elapsed time to the next issue time, are the model's choices
(notes/assumptions/14.md, 4.md). -/
def Obligations.SweepsIssueAndComplete : Prop :=
  (∀ (s : State) (w : Sweep) (c : Instr) (mode : AccessMode),
    (c = .patrolLineIssue ∧ mode = .single ∨ c = .burstIssue ∧ mode = .burst) →
    s.patrol.active = some w → s.patrol.engine = .running → (regionAt s w.region).entry.mode = mode →
    w.inFlight = 0 → w.burstLeft = 0 → 0 < w.remaining → w.deferred = false →
    let v := arrive w.nextIssue s
    ∃ w' : Sweep, v.patrol.active = some w' ∧ w'.cursor = w.cursor ∧ w'.remaining = w.remaining ∧
      w'.issued = w.issued ∧ w'.pace = w.pace ∧
      (∀ e, (if w.jobSince then none else nextJob v) = some e →
        exec c s = .next (settle (setTsq { e with inService := true, reading := true }
          { v with patrol := { v.patrol with active := some { w' with deferred := true } } }))) ∧
      ((if w.jobSince then none else nextJob v) = none →
        let n := if mode = .single then 1 else min (regionAt s w.region).entry.burst
          (min (s.port.geom.columns - s.port.geom.colOf w.cursor) w.remaining)
        let held := (wbFind s w.cursor).isSome
        let issued : Sweep := { w' with
          nextIssue := v.maint.now.later (n * (w.pace + 1) * 5), burstLeft := n - 1, cursor := w.cursor + 1
          remaining := w.remaining - 1, issued := w.issued + 1, inFlight := if held then 0 else 1, jobSince := false }
        let u := { v with
          patrol := { v.patrol with active := some issued }
          port := { v.port with accesses := if held then v.port.accesses else v.port.accesses ++
            [{ line := w.cursor, kind := .patrolRead true, phase := .waiting }] }
          counters := { s.counters with
            patrolLines := satAdd s.counters.patrolLines 1
            scrubLinesSkipped := countedIf held s.counters.scrubLinesSkipped } }
        exec c s = .next (settle (if (w.issued + 1) % 4096 = 0 then recompute u else u)))) ∧
  (∀ (s : State) (w : Sweep), w.region < s.regions.length →
    let t := finishSweep w s
    let u := completeActive w s
    let g := regionAt s w.region
    let late : Bool := decide (elapsedDiff w.deadline s.maint.now.us < 0)
    regionAt t w.region = { g with status := { g.status with
      state := .idle, lastEnd := s.maint.now.us, completed := satAdd g.status.completed 1
      late := satAdd g.status.late late.toNat } } ∧
    (∀ i, i ≠ w.region → regionAt t i = regionAt s i) ∧ t.patrol = s.patrol ∧
    (late = true → t.report.pending.getLsbD 5 = true) ∧
    (late = false → g.entry.sweepRecords = false → t = { s with regions := t.regions }) ∧
    (late = false → g.entry.sweepRecords = true → RingOpen s → t.port.accesses.getLast? = some (recordWriteOf
      { kind := 9, source := 3, region := some w.region, line := g.entry.base
        detail := [(38, 6, w.due.toNat), (44, 6, w.deadline.toNat), (50, 6, g.status.lastStart.toNat),
                   (56, 4, g.status.corrected), (60, 4, g.status.uncorrectable)] } s)) ∧
    (s.patrol.active = some w → w.remaining = 0 → w.inFlight = 0 → settleOnce s = some u) ∧
    (u.patrol.staged = none → u.report.pending.getLsbD 6 = true) ∧
    (u.patrol.active = none → u.patrol.engine = .idle) ∧
    (∀ p, s.patrol.staged = some p → ∃ v, u.patrol.active = some v ∧ v.region = p.region)) ∧
  (∀ s : State, (∀ w ∈ s.patrol.active, ¬ (w.remaining = 0 ∧ w.inFlight = 0)) →
    let readOf := fun (e : TsqEntry) => ∃ b ∈ s.port.accesses, b.kind = .targetedRead e.row ∧
      s.port.geom.rankOf b.line = e.rank ∧ s.port.geom.bankOf b.line = e.bank
    let begun := fun (e : TsqEntry) (t : State) => setTsq { e with inService := true, reading := true } t
    (∀ w, s.patrol.held = some w → w.remaining = 0 → w.inFlight = 0 →
      settleOnce s = some (finishSweep w { s with patrol := { s.patrol with held := none } })) ∧
    ((∀ w ∈ s.patrol.held, ¬ (w.remaining = 0 ∧ w.inFlight = 0)) →
      (∀ e, s.patrol.tsq.find? TsqEntry.reading = some e → ¬ readOf e → settleOnce s = some (advanceJob e s)) ∧
      ((∀ e, s.patrol.tsq.find? TsqEntry.reading = some e → readOf e) →
        (∀ w, s.patrol.active = some w → s.patrol.engine = .running → 0 < w.burstLeft →
          (∀ b ∈ s.port.accesses, b.kind = .patrolRead true → b.phase ≠ .waiting) →
          settleOnce s = some (issueLine { w with burstLeft := w.burstLeft - 1 } s)) ∧
        (∀ w, s.patrol.active = some w → s.patrol.engine = .running → w.burstLeft = 0 →
          (regionAt s w.region).entry.mode = .sustained → w.inFlight < 4 → 0 < w.remaining → w.deferred = false →
          settleOnce s = some (match if w.jobSince then none else nextJob s with
            | some e => begun e { s with patrol := { s.patrol with active := some { w with deferred := true } } }
            | none => issueLine w s)) ∧
        (s.patrol.active = none ∨ s.patrol.engine ≠ .running → settleOnce s = (nextJob s).map fun e => begun e s)))) ∧
  (∀ s : State,
    let eligible := fun (e : TsqEntry) => s.window.isNone || e.neighbour
    nextJob s = (if s.patrol.tsq.any TsqEntry.reading then none
      else match s.patrol.tsq.find? fun e => e.inService && eligible e with
        | some e => some e
        | none => s.patrol.tsq.find? eligible)) ∧
  (∀ (w : Sweep) (s : State),
    let held := (wbFind s w.cursor).isSome
    let u : State := { s with
      patrol := { s.patrol with active := some { w with
        cursor := w.cursor + 1, remaining := w.remaining - 1, issued := w.issued + 1
        inFlight := if held then w.inFlight else w.inFlight + 1, jobSince := false, deferred := false } }
      port := { s.port with accesses := if held then s.port.accesses else s.port.accesses ++
        [{ line := w.cursor, kind := .patrolRead true, phase := .waiting }] }
      counters := { s.counters with
        patrolLines := satAdd s.counters.patrolLines 1
        scrubLinesSkipped := countedIf held s.counters.scrubLinesSkipped } }
    issueLine w s = if (w.issued + 1) % 4096 = 0 then recompute u else u)

/-- SCRUB_ENABLE and SCRUB_DISABLE, answered OK with the engine's words in every state (R70, R88, R89). SWEEP_NOW,
SWEEP_HALT and SWEEP_RESUME: what each refuses, and what each does to the slots (R70, R84, R86, R87, R106). The words
of a refused request are the model's reading (notes/assumptions/19.md); that an ALERT which a request makes due stands
before its response, and that the immediate actions follow it, are the model's choices (notes/assumptions/12.md, 14.md).
-/
def Obligations.PatrolRequestsMoveTheEngine : Prop :=
  (∀ (s : State) (q : MaintRequest),
    (AtHead s q 13 →
      let t := if s.patrol.engine = .disabled then
        runSelection { dispatched s with patrol := { s.patrol with engine := .idle } } else dispatched s
      exec .scrubEnable s = .next (settle (answered q .ok (patrolWords t) t))) ∧
    (AtHead s q 14 → s.patrol.engine = .disabled →
      exec .scrubDisable s = .next (settle (answered q .ok (patrolWords s) (dispatched s)))) ∧
    (AtHead s q 14 → s.patrol.engine ≠ .disabled →
      ∃ t, exec .scrubDisable s = .next (settle (answered q .ok [0, 255, 255, 255] t)) ∧
        t.patrol = { s.patrol with engine := .disabled, active := none, staged := none, held := none } ∧
        (∀ i < s.regions.length, (regionAt t i).entry = (regionAt s i).entry ∧
          (regionAt t i).status = { (regionAt s i).status with
            state := if s.patrol.active.map Sweep.region = some i ∨ s.patrol.staged.map Staged.region = some i ∨
              s.patrol.held.map Sweep.region = some i then .idle else (regionAt s i).status.state }) ∧
        t.port.accesses = (s.port.accesses.filter fun a => !(a.kind.isPatrol && a.phase == .waiting)).map (fun a =>
          match a.kind with
          | .patrolRead _ => { a with kind := .patrolRead false }
          | _ => a) ∧
        t.window = s.window.map (fun win => { win with override := none }) ∧
        t = { dispatched s with
          patrol := t.patrol, regions := t.regions, window := t.window
          port := { s.port with accesses := t.port.accesses } })) ∧
  (∀ (s : State) (q : MaintRequest),
    (AtHead s q 15 → ∀ (index : Word32) (more : List Word32), q.args = index :: more →
      let g := regionAt s index.toNat
      let displaced := fun (r : Region) => { r with status := { r.status with state := .idle } }
      let cleared := match s.patrol.staged with
        | some p => s.regions.set p.region (displaced (regionAt s p.region))
        | none => s.regions
      let u := { dispatched s with
        regions := cleared.set index.toNat { g with status := { g.status with state := .staged } }
        patrol := { s.patrol with staged := some { region := index.toNat, hostPlaced := true } } }
      exec .sweepNow s = .next (settle
        (if 31 < index.toNat ∨ g.entry.valid = false then answered q .badArgument (patrolWords s) (dispatched s)
        else if s.patrol.engine = .disabled ∨ g.status.state = .active ∨ g.status.state = .held ∨
            (∃ p ∈ s.patrol.staged, p.hostPlaced = true) then
          answered q .busy (patrolWords s) (dispatched s)
        else answered q .ok (patrolWords (runSelection u)) (runSelection u)))) ∧
    (AtHead s q 16 →
      let u := match s.patrol.active with
        | some w => { dispatched s with
            regions := s.regions.set w.region { regionAt s w.region with status :=
              { (regionAt s w.region).status with state := .held } }
            patrol := { s.patrol with
              engine := .halted, active := none, held := some { w with burstLeft := 0, deferred := false } } }
        | none => { dispatched s with patrol := { s.patrol with engine := .halted } }
      let t := { u with window := s.window.map fun win => { win with override := none } }
      exec .sweepHalt s = .next (settle
        (if s.patrol.engine = .halted ∨ s.patrol.engine = .disabled then answered q .busy (patrolWords s) (dispatched s)
        else answered q .ok (patrolWords t) t))) ∧
    (AtHead s q 17 → s.patrol.engine ≠ .halted →
      exec .sweepResume s = .next (settle (answered q .busy (patrolWords s) (dispatched s)))) ∧
    (AtHead s q 17 → s.patrol.engine = .halted →
      let t := match s.patrol.held with
        | some w => runSelection (reviewOverride (recompute { dispatched s with
            regions := s.regions.set w.region { regionAt s w.region with status :=
              { (regionAt s w.region).status with state := .active } }
            patrol := { s.patrol with
              active := some w, held := none, engine := if s.window.isSome then .paused else .running } }))
        | none => runSelection { dispatched s with patrol := { s.patrol with engine := .idle } }
      exec .sweepResume s = .next (settle (answered q .ok (patrolWords t) t))))

/-- An insertion into the Targeted Scrub Queue is discarded during a clear, merged into the entry of its row, placed
at the tail of a queue with room, or dropped with TSQ_DROPPED raised (R92). A targeted job reads its row by columns:
it completes after the last, stops at a line boundary when a window makes it ineligible, is discarded when its row
holds no logical row, and otherwise issues its next column, which is not read in a slot being filled and is skipped
when the Write-back Queue holds the line (R29, R93, R95, R96, R143). The order of the last two tests is the model's
choice (notes/assumptions/36.md). At a completion the pace of the active sweep is recomputed and its deferred issue is
made when the engine is RUNNING; a discarded job gives its boundary back, to the next job that may take it or to the
sweep's issue (R94, R95, R96). -/
def Obligations.TargetedJobsReadTheirRow : Prop :=
  (∀ (s : State) (rank bank row : Nat) (neighbour : Bool), JobsBounded s →
    let t := tsqInsert rank bank row neighbour s
    (s.maint.clearing = true → t = s) ∧
    (s.maint.clearing = false →
      (∀ e ∈ s.patrol.tsq, e.place = (rank, bank, row) → t = { s with
        patrol := { s.patrol with tsq := s.patrol.tsq.map fun f => if f.place = (rank, bank, row) then
          { f with recheck := f.recheck || !neighbour, neighbour := f.neighbour || neighbour } else f }
        counters := { s.counters with tsqMerged := satAdd s.counters.tsqMerged 1 } }) ∧
      ((∀ e ∈ s.patrol.tsq, e.place ≠ (rank, bank, row)) → s.patrol.tsq.length < 16 → t = { s with
        patrol := { s.patrol with tsq := s.patrol.tsq ++
          [{ rank := rank, bank := bank, row := row, recheck := !neighbour, neighbour := neighbour, nextCol := 0
             inService := false, reading := false }] }
        counters := { s.counters with tsqInserted := satAdd s.counters.tsqInserted 1 } }) ∧
      ((∀ e ∈ s.patrol.tsq, e.place ≠ (rank, bank, row)) → s.patrol.tsq.length = 16 →
        t.patrol = s.patrol ∧ t.counters.tsqDropped = satAdd s.counters.tsqDropped 1 ∧
        t.report.pending.getLsbD 12 = true ∧ t.port = s.port))) ∧
  (∀ (s : State) (e : TsqEntry), JobsBounded s → e ∈ s.patrol.tsq →
    let t := advanceJob e s
    let columns := 2 ^ s.port.geom.colExp
    let others := s.patrol.tsq.filter fun f => f.place != e.place
    let released := fun (v : State) => { v with patrol := { v.patrol with
      active := v.patrol.active.map fun w => { w with deferred := false } } }
    let issued := fun (w : Sweep) (v : State) =>
      let entry := (regionAt v w.region).entry
      let n := min entry.burst (min (v.port.geom.columns - v.port.geom.colOf w.cursor) w.remaining)
      match entry.mode with
      | .single => issueLine { w with nextIssue := v.maint.now.later ((w.pace + 1) * 5) } v
      | .burst => issueLine
          { w with nextIssue := v.maint.now.later (n * (w.pace + 1) * 5), burstLeft := n - 1 } v
      | .sustained => issueLine w v
    (columns ≤ e.nextCol → t.counters.targetedJobsDone = satAdd s.counters.targetedJobsDone 1 ∧
      t.patrol.tsq = others ∧
      let v := recompute { s with
        patrol := { s.patrol with
          active := s.patrol.active.map fun w => { w with jobSince := true }
          held := s.patrol.held.map fun w => { w with jobSince := true }, tsq := others }
        counters := { s.counters with targetedJobsDone := satAdd s.counters.targetedJobsDone 1 } }
      t = match v.patrol.active with
        | some w => if w.deferred = true ∧ s.patrol.engine = .running then issued w v else released v
        | none => v) ∧
    (e.nextCol < columns → s.window.isSome → e.neighbour = false → t = { s with patrol := { s.patrol with
      active := s.patrol.active.map fun w => { w with deferred := false }
      tsq := s.patrol.tsq.map fun f => if f.place = e.place then { e with reading := false } else f } }) ∧
    (e.nextCol < columns → s.window = none ∨ e.neighbour = true →
      (heldRow s e.rank e.bank e.row = none →
        t.counters.targetedJobsDiscarded = satAdd s.counters.targetedJobsDiscarded 1 ∧
        e.place ∉ t.patrol.tsq.map TsqEntry.place ∧
        let v := released { s with
          patrol := { s.patrol with tsq := others }
          counters := { s.counters with targetedJobsDiscarded := satAdd s.counters.targetedJobsDiscarded 1 } }
        ((∀ w ∈ s.patrol.active, w.deferred = false ∨ s.patrol.engine ≠ .running) → t = v) ∧
        ∀ w, s.patrol.active = some w → w.deferred = true → s.patrol.engine = .running →
          t = match (if w.jobSince then none else nextJob v) with
            | some f => setTsq { f with inService := true, reading := true }
                { v with patrol := { v.patrol with active := some w } }
            | none => issued { w with deferred := false } v) ∧
      ∀ l, heldRow s e.rank e.bank e.row = some l →
        let line := ((l * s.port.geom.ranks + e.rank) * 16 + e.bank) * columns + e.nextCol
        let unread := s.port.geom.visible ≤ e.row ∧
          ((∃ g, slotAt s e.rank e.bank (e.row - s.port.geom.visible) = .reserved g) ∨
            ∃ g c, slotAt s e.rank e.bank (e.row - s.port.geom.visible) = .copying g c ∧ c ≤ e.nextCol)
        let held := ∃ f ∈ s.wbq, f.line = line
        t.patrol = { s.patrol with tsq := s.patrol.tsq.map fun f =>
          if f.place = e.place then { e with nextCol := e.nextCol + 1 } else f } ∧
        (unread ∨ held → t.port = s.port) ∧
        (¬ unread → ¬ held → t.port.accesses = s.port.accesses ++
          [{ line := line, kind := .targetedRead e.row, phase := .waiting }]) ∧
        (¬ unread → held → t.counters.scrubLinesSkipped = satAdd s.counters.scrubLinesSkipped 1) ∧
        t = { s with patrol := t.patrol, port := { s.port with accesses := t.port.accesses }, counters := t.counters }))

/-! ## Quiet windows -/

/-- QUIET_EXPIRY closes the window at its end time, QUIET_OVERRIDE at its override time with the cause and the record
(R103, R104, R107). That an event brings the elapsed time to its moment, that with no window, or no override time,
nothing happens, and that the immediate actions follow, are the model's choices (notes/assumptions/4.md, 5.md, 14.md).
A closing makes a PAUSED engine RUNNING with its pace recomputed, and the copy goes on with its next pair (R103, R144).
An override closes the window, raises QUIET_OVERRIDDEN and hands on the QUIET_OVERRIDE record of the active sweep
(R107, R176); that the cause comes before the record is the model's choice (notes/assumptions/50.md), and at once, the
record carries the safe time as its override time (the model's reading, notes/assumptions/18.md).
The override time of an open window: none unless `quiet_override` is 1 and the active sweep has lines left; none when
the safe time is at or after the end time, the safe time when it is still ahead, and otherwise the window ends at once
(R105). -/
def Obligations.WindowsEndAtTheirTimes : Prop :=
  (∀ s : State,
    (s.window = none → exec .quietExpiry s = .next s ∧ exec .quietOverride s = .next s) ∧
    ∀ win, s.window = some win →
      (∃ t, exec .quietExpiry s = .next (settle t) ∧
        (let c := closeWindow (arrive { us := win.endTime, sub := 0 } s);
          t = { c with counters := { c.counters with quietExpired := satAdd c.counters.quietExpired 1 } }) ∧
        t.window = none ∧ t.counters.quietExpired = satAdd s.counters.quietExpired 1 ∧
        (s.patrol.engine = .paused → t.patrol.engine = .running) ∧
        (s.patrol.engine ≠ .paused → t.patrol.engine = s.patrol.engine)) ∧
      (win.override = none → exec .quietOverride s = .next s) ∧
      ∀ m, win.override = some m → ∃ t, exec .quietOverride s = .next (settle t) ∧
        t = overrideWindow win.endTime m (arrive { us := m, sub := 0 } s) ∧ t.window = none ∧
        t.counters.quietOverrides = satAdd s.counters.quietOverrides 1 ∧ t.report.pending.getLsbD 7 = true ∧
        (s.patrol.engine = .paused → t.patrol.engine = .running)) ∧
  (∀ (s : State) (win : Window), s.window = some win →
    let t := reviewOverride s
    let none_ := { s with window := some { endTime := win.endTime, override := none } }
    (s.patrol.active = none ∨ s.params.quietOverride ≠ 1 ∨ (∃ w ∈ s.patrol.active, w.remaining = 0) → t = none_) ∧
    ∀ w, s.patrol.active = some w → s.params.quietOverride = 1 → 0 < w.remaining →
      let margin := (regionAt s w.region).entry.period * 100000 / 8
      let needed := (w.remaining * (s.params.minPace + 1) + 15) / 16
      let ahead := elapsedDiff w.deadline s.maint.now.us - margin - needed
      (elapsedDiff win.endTime s.maint.now.us ≤ ahead → t = none_) ∧
      (ahead < elapsedDiff win.endTime s.maint.now.us → 0 < ahead → t = { s with
        window := some { endTime := win.endTime, override := some (s.maint.now.us + BitVec.ofInt 48 ahead) } }) ∧
      (ahead < elapsedDiff win.endTime s.maint.now.us → ahead ≤ 0 →
        t = overrideWindow win.endTime (s.maint.now.us + BitVec.ofInt 48 ahead) s ∧ t.window = none ∧
        t.counters.quietOverrides = satAdd s.counters.quietOverrides 1 ∧
        t.report.pending.getLsbD 7 = true ∧ t.patrol.staged = s.patrol.staged ∧ t.patrol.held = s.patrol.held ∧
        (s.patrol.engine = .paused → t.patrol.engine = .running))) ∧
  (∀ s : State,
    closeWindow s = resumeCopy (if s.patrol.engine = .paused then
        recompute { s with window := none, patrol := { s.patrol with engine := .running } }
      else { s with window := none })) ∧
  (∀ (s : State) (w : Sweep) (endTime override : Elapsed), s.patrol.active = some w →
    let u := handRecord
      { kind := 11, source := 3, region := some w.region, line := w.cursor
        detail := [(38, 6, endTime.toNat), (44, 6, override.toNat), (50, 6, w.deadline.toNat), (56, 4, w.remaining),
                   (60, 2, s.params.minPace)] } (raise .quietOverridden (closeWindow s))
    overrideWindow endTime override s =
      { u with counters := { u.counters with quietOverrides := satAdd u.counters.quietOverrides 1 } })

/-- QUIET_BEGIN opens a window, or replaces the end time of an open one, and then computes the override time; QUIET_END
closes an open window with the end time it had, and is refused BUSY with none (R100, R101, R102). That an ALERT of an
override or of SWEEP_AT_RISK stands before the response, and that the immediate actions follow it, are the model's
choices (notes/assumptions/12.md, 14.md). -/
def Obligations.QuietRequestsOpenAndClose : Prop :=
  ∀ (s : State) (q : MaintRequest),
    (AtHead s q 18 → ∀ (duration : Word32) (more : List Word32), q.args = duration :: more →
      let d := max 1 (min 10000000 duration.toNat)
      let endTime := s.maint.now.us + BitVec.ofNat 48 d
      let k := (dispatched s).counters
      let u := match s.window with
        | none => { dispatched s with
            window := some { endTime := endTime, override := none }
            patrol := { s.patrol with
              engine := if s.patrol.engine = .running then .paused else s.patrol.engine
              active := s.patrol.active.map fun w => { w with burstLeft := 0 } }
            counters := { k with quietOpened := satAdd k.quietOpened 1 } }
        | some win => { dispatched s with
            window := some { endTime := endTime, override := win.override }
            counters := { k with quietExtended := satAdd k.quietExtended 1 } }
      let t := reviewOverride u
      let override := (t.window.bind Window.override).getD 0
      exec .quietBegin s = .next (settle (answered q .ok
        [word d, endTime.setWidth 32, (endTime >>> 32).setWidth 32, override.setWidth 32, (override >>> 32).setWidth 32,
         if t.window.isSome then 1 else 0] t))) ∧
    (AtHead s q 19 →
      (s.window = none → exec .quietEnd s = .next (settle (answered q .busy [] (dispatched s)))) ∧
      ∀ win, s.window = some win →
        let u := closeWindow (dispatched s)
        exec .quietEnd s = .next (settle (answered q .ok
          [win.endTime.setWidth 32, (win.endTime >>> 32).setWidth 32]
          { u with counters := { u.counters with quietEnded := satAdd s.counters.quietEnded 1 } })))

/-! ## The Fault Table -/

/-- A fault event is scored on the entry of its row; or takes the lowest FREE entry; or replaces the lightest
OBSERVED entry, the oldest and lowest between equal ones, if that is lighter than the event; or is untracked; and a
device that is not erased is scored with it (R115, R116, R117). The Fault Table takes an event whole: it is counted,
scored on its row and then on its device, reported with its record and its causes, its entry is checked, and the erase
decision is made for its device, in this order (R114). -/
def Obligations.FaultEventsAreScored : Prop :=
  ∀ (s : State) (ev : FaultEvent),
    let t := scoreDevice ev (scoreRow ev s).2
    let w := match ev.located with
      | none => 64
      | some d => if d.2 ≤ 1 then 1 else if d.2 ≤ 4 then 4 else 16
    let device := ev.located.bind fun d => if d.1 ∈ erasureSet s ev.rank then none else some d.1
    let set := match device with
      | some d => BitVec.ofNat 20 (2 ^ d)
      | none => 0
    let here := fun (e : FaultEntry) => e.state ≠ .free ∧ e.rank = ev.rank ∧ e.bank = ev.bank ∧ e.row = ev.row
    let taken : FaultEntry :=
      { state := .observed, rank := ev.rank, bank := ev.bank, row := ev.row, score := w, devices := set, events := 1
        uncorrectables := if ev.located = none then 1 else 0, firstSeen := s.maint.now.us, lastSeen := s.maint.now.us
        lastCol := ev.col, lastDevice := device.getD 255 }
    let lighter := fun (i j : Nat) => (faultAt s i).score < (faultAt s j).score ∨
      (faultAt s i).score = (faultAt s j).score ∧ (elapsedDiff (faultAt s i).lastSeen (faultAt s j).lastSeen < 0 ∨
        (faultAt s i).lastSeen = (faultAt s j).lastSeen ∧ i < j)
    (∀ i < s.fault.entries.length, here (faultAt s i) → (∀ j < i, ¬ here (faultAt s j)) →
      (scoreRow ev s).1 = .found i ∧ t.counters = s.counters ∧
      t.fault.entries = s.fault.entries.set i { faultAt s i with
        score := min 1023 ((faultAt s i).score + w), events := min 255 ((faultAt s i).events + 1)
        uncorrectables := min 255 ((faultAt s i).uncorrectables + if ev.located = none then 1 else 0)
        lastSeen := s.maint.now.us, lastCol := ev.col, devices := (faultAt s i).devices ||| set
        lastDevice := device.getD (faultAt s i).lastDevice }) ∧
    ((∀ e ∈ s.fault.entries, ¬ here e) →
      (∀ i < s.fault.entries.length, (faultAt s i).state = .free → (∀ j < i, (faultAt s j).state ≠ .free) →
        (scoreRow ev s).1 = .taken i ∧ t.counters = s.counters ∧ t.fault.entries = s.fault.entries.set i taken) ∧
      ((∀ e ∈ s.fault.entries, e.state ≠ .free) →
        (∀ i < s.fault.entries.length, (faultAt s i).state = .observed →
          (∀ e ∈ s.fault.entries, 0 ≤ elapsedDiff s.maint.now.us e.lastSeen) →
          (∀ j < s.fault.entries.length, j ≠ i → (faultAt s j).state = .observed → lighter i j) →
          ((faultAt s i).score < w → (scoreRow ev s).1 = .taken i ∧ t.fault.entries = s.fault.entries.set i taken ∧
            t.counters = { s.counters with entriesReplaced := satAdd s.counters.entriesReplaced 1 }) ∧
          (w ≤ (faultAt s i).score → (scoreRow ev s).1 = .untracked ∧ t.fault.entries = s.fault.entries ∧
            t.counters = { s.counters with untrackedEvents := satAdd s.counters.untrackedEvents 1 })) ∧
        ((∀ e ∈ s.fault.entries, e.state ≠ .observed) → (scoreRow ev s).1 = .untracked ∧
          t.fault.entries = s.fault.entries ∧
          t.counters = { s.counters with untrackedEvents := satAdd s.counters.untrackedEvents 1 }))) ∧
    t.fault.devices = (match device with
      | some d => s.fault.devices.set (ev.rank * 20 + d)
          { deviceAt s ev.rank d with score := min 4095 ((deviceAt s ev.rank d).score + w) }
      | none => s.fault.devices) ∧
    t = { s with fault := { s.fault with entries := t.fault.entries, devices := t.fault.devices }, counters := t.counters } ∧
    (let v := { s with counters := { s.counters with faultEvents := satAdd s.counters.faultEvents 1 } }
      let where_ := (scoreRow ev v).1
      let checked := checkEntry ev where_ (reportEvent ev where_ (scoreDevice ev (scoreRow ev v).2))
      takeEvent ev s = match ev.located with
        | some d => eraseDecision ev.rank d.1 checked
        | none => checked)

/-- The records and causes of an event, and the checks of its entry. An UNCORRECTABLE event has its record,
UNCORRECTABLE and, in a region of class CRITICAL, the critical cause; a CORRECTED event has its record when it takes an
entry, is untracked, or changes an entry's state (R118). The entry becomes SUSPECT with a recheck job and the
ROW_SUSPECT record at `row_suspect` (R119), and at `row_retire`, outside a clear, BLOCKED with the RETIRE_BLOCKED
record when `auto_retire` is off or by the Repair Engine's refusal, RETIRED when the row is not in service, and
RETIRING when the job is taken (R120, R121, R123). An event of the running copy's reads, or of a targeted read of a row
that does not serve its logical row, makes no check at all (R122, R143; that this holds for the entry it takes too is
notes/assumptions/42.md). That the records of a change follow all that the Repair Engine does at its answer, and the
CORRECTED record precedes the recheck, is the model's choice (notes/assumptions/47.md). -/
def Obligations.ChecksFollowTheScore : Prop :=
  ∀ (s : State) (ev : FaultEvent) (i : Nat) (reported : Bool), i < s.fault.entries.length →
    let e := faultAt s i
    let suspect := (suspectCheck ev i reported s).2
    let t := retireCheck ev i reported s
    let only : Prop :=
      (ev.source = .repair ∧ ∃ j, s.repair.jobs.head? = some j ∧ j.rank = ev.rank ∧ j.bank = ev.bank ∧
        j.sourceRow = ev.row) ∨
      (ev.source = .targeted ∧ serves s ev.rank ev.bank ev.row = false)
    let eventRecord := fun (entry score : Nat) =>
      ({ kind := if ev.located = none then 2 else 1, source := ev.source.code, region := ev.region
         poisoned := ev.poisoned, line := ev.line, rank := ev.rank, bank := ev.bank
         device := (ev.located.map Prod.fst).getD 255, bitCount := (ev.located.map Prod.snd).getD 0, row := ev.row
         col := ev.col, score := score, detail := [(38, 1, entry)] } : Record)
    let rowRecord := fun (kind reason : Nat) =>
      ({ kind := kind, region := ev.region, line := ev.line, rank := e.rank, bank := e.bank, device := e.lastDevice
         row := e.row, score := e.score
         detail := [(38, 1, i), (39, 1, e.events), (40, 1, e.uncorrectables), (41, 1, reason),
                    (42, 3, e.devices.toNat)] } : Record)
    let changed := fun (u : State) =>
      if reported = true ∨ ev.located = none then u else handRecord (eventRecord i e.score) u
    let becomes := fun (f : FaultEntry) (u : State) => { u with fault := { u.fault with entries := u.fault.entries.set i f } }
    (only → ∀ where_ : Scored, checkEntry ev where_ s = s) ∧
    (¬ only → checkEntry ev .untracked s = s ∧
      (let r := suspectCheck ev i false s; checkEntry ev (.found i) s = retireCheck ev i r.1 r.2) ∧
      (let r := suspectCheck ev i true s; checkEntry ev (.taken i) s = retireCheck ev i r.1 r.2)) ∧
    (ev.located = none → ∀ where_ : Scored,
      let u := reportEvent ev where_ s
      let v := raise .uncorrectable (handRecord (match where_ with
        | .found k => eventRecord k (faultAt s k).score
        | .taken k => eventRecord k (faultAt s k).score
        | .untracked => eventRecord 255 0) s)
      u = (if isCritical s ev.region then raise .criticalUncorrectable v else v) ∧
      u.report.pending.getLsbD 1 = true ∧ u.fault = s.fault ∧
      (isCritical s ev.region = true → u.report.pending.getLsbD 2 = true)) ∧
    (ev.located ≠ none → reportEvent ev (.found i) s = s ∧
      reportEvent ev (.taken i) s = handRecord (eventRecord i e.score) s ∧
      reportEvent ev .untracked s = handRecord (eventRecord 255 0) s) ∧
    (¬ (e.state = .observed ∧ s.params.rowSuspect ≤ e.score) → suspectCheck ev i reported s = (reported, s)) ∧
    (e.state = .observed → s.params.rowSuspect ≤ e.score →
      (suspectCheck ev i reported s).1 = true ∧
      (let u := handRecord (rowRecord 4 0)
          (tsqInsert e.rank e.bank e.row false (changed (becomes { e with state := .suspect } s)));
        suspect = { u with counters := { u.counters with rowsSuspect := satAdd s.counters.rowsSuspect 1 } }) ∧
      suspect.fault = { s.fault with entries := s.fault.entries.set i { e with state := .suspect } } ∧
      ((∀ f ∈ s.patrol.tsq, f.place ≠ (e.rank, e.bank, e.row)) → s.patrol.tsq.length < 16 → s.maint.clearing = false →
        suspect.patrol.tsq = s.patrol.tsq ++
          [{ rank := e.rank, bank := e.bank, row := e.row, recheck := true, neighbour := false, nextCol := 0
             inService := false, reading := false }])) ∧
    (¬ ((e.state = .observed ∨ e.state = .suspect) ∧ s.params.rowRetire ≤ e.score ∧ s.maint.clearing = false) → t = s) ∧
    ((e.state = .observed ∨ e.state = .suspect) → s.params.rowRetire ≤ e.score → s.maint.clearing = false →
      let asked := { s with counters := { s.counters with retireRequests := satAdd s.counters.retireRequests 1 } }
      let answer := (retireRequest e.rank e.bank e.row asked).1
      let v := (retireRequest e.rank e.bank e.row asked).2
      let blocked := fun (reason : BlockReason) (code : Nat) (u : State) =>
        (let x := handRecord (rowRecord 5 code) (changed (becomes { e with state := .blocked, reason := some reason } u));
          t = { x with counters := { x.counters with retireBlocked := satAdd s.counters.retireBlocked 1 } }) ∧
        t.fault.entries = s.fault.entries.set i { e with state := .blocked, reason := some reason }
      (s.params.autoRetire = 0 → blocked .autoOff 3 s ∧ t.repair = s.repair) ∧
      (s.params.autoRetire ≠ 0 →
        (answer = .noSpare → blocked .noSpare 1 v ∧ t.repair = s.repair ∧ t.report.pending.getLsbD 9 = true) ∧
        (answer = .queueFull → blocked .queueFull 2 v ∧ t.repair = s.repair) ∧
        (answer = .inProgress → t = asked) ∧
        (answer = .notInService → t = changed (becomes { e with state := .retired } asked) ∧ t.repair = s.repair) ∧
        (answer = .taken → t = changed v ∧ t.repair.jobs.length = s.repair.jobs.length + 1 ∧
          t.counters.repairJobsTaken = satAdd s.counters.repairJobsTaken 1 ∧
          (faultFind s e.rank e.bank e.row = some i → serves s e.rank e.bank e.row = true →
            t.fault.entries = s.fault.entries.set i { e with state := .retiring, reason := none }))))

/-- DECAY_EPOCH halves every score, frees entries and reviews the limit flags; HAMMER_WINDOW_EXPIRY returns every
count to 0; each timer goes on (R124, R126, R163). That an event brings the elapsed time to its moment and that the
next interval is counted from that moment are the model's choices (notes/assumptions/4.md, 31.md). -/
def Obligations.EpochsAndWindowsPass : Prop :=
  ∀ s : State,
    (let v := arrive { us := s.fault.decayEnd, sub := 0 } s;
      ∃ t, exec .decayEpoch s = .next t ∧
      t.fault.entries = v.fault.entries.map (fun e =>
        if e.state = .retired ∨ (e.state = .observed ∨ e.state = .suspect) ∧ e.score / 2 = 0 then {}
        else if e.state = .observed ∨ e.state = .suspect ∨ e.state = .blocked then { e with score := e.score / 2 }
        else e) ∧
      (∀ rank, ∀ device < 20, rank * 20 + device < s.fault.devices.length →
        let score := if device ∈ erasureSet s rank then (deviceAt s rank device).score
          else (deviceAt s rank device).score / 2
        deviceAt t rank device =
          { score := score
            limitReported := (deviceAt s rank device).limitReported && decide (s.params.deviceErase ≤ score) }) ∧
      t = { v with
        fault := { entries := t.fault.entries, devices := t.fault.devices
                   decayEnd := s.fault.decayEnd + BitVec.ofNat 48 (s.params.decayEpoch * 1000000) }
        counters := { s.counters with decayEpochs := satAdd s.counters.decayEpochs 1 } }) ∧
    (let v := arrive { us := s.hammer.windowEnd, sub := 0 } s;
      exec .hammerWindowExpiry s = .next { v with
        hammer := { windowEnd := s.hammer.windowEnd + BitVec.ofNat 48 (s.params.hammerWindow * 1000)
                    tables := s.hammer.tables.map (List.map (Option.map fun e => { e with count := 0 })) }
        counters := { s.counters with hammerWindows := satAdd s.counters.hammerWindows 1 } })

/-! ## The Disturbance Watch -/

/-- A counted activation adds one to its row's entry, or takes the lowest free entry with count 1, or the lowest
entry of the smallest count with one more; below the threshold nothing else happens, and at the threshold the entry
triggers (R156, R158, R159). -/
def Obligations.ActivationsAreCounted : Prop :=
  ∀ (s : State) (rank bank row : Nat) (requester : Requester), HammerLegal s → rank < 4 →
    let t := countActivation rank bank row requester s
    let with_ := fun (i count : Nat) => (hammerTable s rank).set i (some { bank := bank, row := row, count := count })
    let put := fun (i count : Nat) (u : State) =>
      { u with hammer := { s.hammer with tables := s.hammer.tables.set rank (with_ i count) } }
    let credited := fun (i count : Nat) (u : State) =>
      if count = s.params.hammerThreshold then
        t = trigger rank i { bank := bank, row := row, count := count } (some requester) (put i count u)
      else t = put i count u
    (∀ i < 16, ∀ e, hammerAt s rank i = some e → e.bank = bank → e.row = row → credited i (e.count + 1) s) ∧
    ((∀ i < 16, ∀ e, hammerAt s rank i = some e → (e.bank, e.row) ≠ (bank, row)) →
      (∀ i < 16, hammerAt s rank i = none → (∀ j < i, hammerAt s rank j ≠ none) → t = put i 1 s) ∧
      ((∀ i < 16, hammerAt s rank i ≠ none) → ∀ i < 16, ∀ e, hammerAt s rank i = some e →
        (∀ j < 16, ∀ f, hammerAt s rank j = some f → e.count < f.count ∨ e.count = f.count ∧ i ≤ j) →
        credited i (e.count + 1)
          { s with counters := { s.counters with hammerReplacements := satAdd s.counters.hammerReplacements 1 } }))

/-- A trigger hands the neighbours that qualify to the Targeted Scrub Queue, the lower first, returns the entry's count
to 0, is counted, and with `hammer_records` 1 hands on a HAMMER record of the row, its requester and the rows handed on
(R160, R161, R162, R176). A row that holds no logical row has line address 0 in its record (the model's choice,
notes/assumptions/29.md). -/
def Obligations.TriggersScrubTheNeighbours : Prop :=
  ∀ (s : State) (rank i : Nat) (e : HammerEntry) (requester : Option Requester),
    let worth := fun (x : Nat) => x < s.port.geom.visible ∨
      x < s.port.geom.rows ∧ ((∃ t, slotAt s rank e.bank (x - s.port.geom.visible) = .reserved t) ∨
        (∃ t c, slotAt s rank e.bank (x - s.port.geom.visible) = .copying t c) ∨
        ∃ l, slotAt s rank e.bank (x - s.port.geom.visible) = .active l)
    let t := trigger rank i e requester s
    let place := fun (x : Nat) => (rank, e.bank, x)
    let handed := fun (u : State) (x : Nat) => tsqInsert rank e.bank x true
      { u with counters := { u.counters with hammerNeighbourJobs := satAdd u.counters.hammerNeighbourJobs 1 } }
    let first := (heldRow s rank e.bank e.row).map fun l => s.port.geom.lineOf rank e.bank l 0
    let requesterCode := match requester with
      | some .demandRead => 1
      | some .demandWrite => 2
      | some .maskedWrite => 3
      | some .writeBack => 4
      | some .recordWrite => 5
      | _ => 0
    (∃ rows : List Nat, (∀ x, x ∈ rows ↔ (x + 1 = e.row ∨ x = e.row + 1) ∧ worth x) ∧ rows.Pairwise (· < ·) ∧
      let u := rows.foldl handed s
      let v : State := { u with
        hammer := { s.hammer with
          tables := s.hammer.tables.set rank ((hammerTable s rank).set i (some { e with count := 0 })) }
        counters := { u.counters with hammerTriggers := satAdd s.counters.hammerTriggers 1 } }
      t = if s.params.hammerRecords = 1 then handRecord
          { kind := 12, region := first.bind (regionOf s), line := first.getD 0, rank := rank, bank := e.bank
            row := e.row, slotOrCount := s.params.hammerThreshold
            detail := [(38, 1, i), (39, 1, requesterCode), (40, 4, (rows.find? (· < e.row)).getD 4294967295),
                       (44, 4, (rows.find? (e.row < ·)).getD 4294967295)] } v
        else v) ∧
    (s.params.hammerRecords ≠ 1 → t.report.produced = s.report.produced ∧ t.port = s.port) ∧
    (s.maint.clearing = true → t.patrol = s.patrol) ∧
    (s.maint.clearing = false → s.patrol.tsq.length ≤ 14 →
      (∀ x, place x ∈ t.patrol.tsq.map TsqEntry.place ↔ place x ∈ s.patrol.tsq.map TsqEntry.place ∨
        (x + 1 = e.row ∨ x = e.row + 1) ∧ worth x) ∧
      ∀ f ∈ t.patrol.tsq, f ∈ s.patrol.tsq ∨ f.neighbour = true ∧ ∃ x, f.place = place x ∧
        (x + 1 = e.row ∨ x = e.row + 1) ∧ worth x)

/-! ## Causes and alerts -/

/-- An alert is due for a cause pending, not masked and not alerted; it is sent when the holdoff is stopped or an
urgent cause is due, with every pending unmasked cause, each marked alerted, and the holdoff starts; it takes the place
of an ALERT that waits and has not begun, or enters the tail (R180, R190). A cause raised is pending in its bit, and
the test follows (R177). HOLDOFF_EXPIRY stops the holdoff and makes the test for a due alert; READY_AGE_EXPIRY raises
RECORDS_READY with the count returned to 0 and the timer stopped (R179, R180). That an event brings the elapsed time to
its moment is the model's choice (notes/assumptions/4.md). -/
def Obligations.AlertsAreSentAndTimed : Prop :=
  (∀ s : State,
    let t := testAlert s
    let due := s.report.pending &&& ~~~s.report.mask &&& ~~~s.report.alerted
    let sent := s.report.pending &&& ~~~s.report.mask
    let started := if s.link.begun then 1 else 0
    let merges := (s.link.returns.drop started).any ReturnFrame.isAlert
    (due = 0 → t = s) ∧ (s.report.holdoffEnd.isSome → due &&& 0x0084 = 0 → t = s) ∧
    (due ≠ 0 → s.report.holdoffEnd = none ∨ due &&& 0x0084 ≠ 0 →
      t.link.returns = (if merges then s.link.returns.take started ++
          (s.link.returns.drop started).map fun f => if f.isAlert then .alert sent (wallTime s) else f
        else s.link.returns ++ [.alert sent (wallTime s)]) ∧
      t = { s with
        link := { s.link with returns := t.link.returns }
        report := { s.report with
          alerted := s.report.alerted ||| sent
          holdoffEnd := if s.params.alertHoldoff = 0 then none
            else some (s.maint.now.us + BitVec.ofNat 48 s.params.alertHoldoff) }
        counters := { s.counters with
          alertsSent := satAdd s.counters.alertsSent 1
          alertsMerged := countedIf merges s.counters.alertsMerged } })) ∧
  (∀ p ∈ [(Cause.recordsReady, 0), (.uncorrectable, 1), (.criticalUncorrectable, 2), (.overrun, 3), (.sweepAtRisk, 4),
      (.sweepLate, 5), (.stagedEmpty, 6), (.quietOverridden, 7), (.rowRetired, 8), (.sparesExhausted, 9),
      (.deviceErased, 10), (.erasureLimit, 11), (.tsqDropped, 12), (.lockFault, 13), (.frameError, 14), (.software, 15)],
    ∀ s : State, raise p.1 s = testAlert { s with
      report := { s.report with pending := s.report.pending ||| BitVec.ofNat 16 (2 ^ p.2) } }) ∧
  (∀ (s : State) (m : Elapsed),
    (s.report.holdoffEnd = some m →
      let v := arrive { us := m, sub := 0 } s
      exec .holdoffExpiry s = .next (testAlert { v with report := { v.report with holdoffEnd := none } })) ∧
    (s.report.ageStart = some m →
      let v := arrive { us := m + BitVec.ofNat 48 s.params.readyAge, sub := 0 } s
      ∃ t, exec .readyAgeExpiry s = .next t ∧
        t.report.unannounced = 0 ∧ t.report.ageStart = none ∧ t.report.pending = s.report.pending ||| 1 ∧
        t = { v with link := t.link, report := t.report, counters := t.counters } ∧
        t.report.queue = s.report.queue ∧ plain t.link.returns = plain s.link.returns))

/-! ## The channel clear -/

/-- CHANNEL_CLEAR, at its dispatch: what each block gives up, and that the request stays at the head with no answer yet
(R38, R52, R57, R80, R97, R109, R147, R166, R181, R188, R198, R123). That a pair forwarded and not granted is withdrawn
is the model's reading (notes/assumptions/28.md). CHANNEL_CLEAR_COMPLETE: once no record write is pending and no access
remains, the request is answered, the rows close, a window still open closes and selection runs (R38, R97, R109, R198).
When the port has finished, and which of the last two is first, are the model's readings (notes/assumptions/26.md,
27.md); that the event changes nothing until then, or with no clear in progress, is its choice
(notes/assumptions/5.md), and so are the immediate actions that close it (14.md), and that with selection first the
sweep that starts may end the window by override (48.md). -/
def Obligations.ChannelClearStopsAndCompletes : Prop :=
  (∀ (s : State) (q : MaintRequest), AtHead s q 8 → MapsRising s → FaultTableLegal s →
    let demandTag := fun (a : Access) => match a.kind with
      | .demandRead tag => some tag
      | .demandWrite tag _ => some tag
      | .maskedWrite tag _ _ _ => some tag
      | _ => none
    let stays := fun (a : Access) => a.phase != .waiting || match a.kind with
      | .recordWrite _ _ => true
      | .copyWrite _ payload forwarded => !forwarded &&
          (payload.isSome || !s.port.accesses.any fun b => b.kind == .copyRead && b.phase == .waiting)
      | _ => false
    let swept := fun (i : Nat) => s.patrol.active.map Sweep.region = some i ∨
      s.patrol.staged.map Staged.region = some i ∨ s.patrol.held.map Sweep.region = some i
    ∃ t, exec .channelClear s = .next t ∧
      t.link.channel = .config ∧ t.maint = { s.maint with clearing := true } ∧ t.link.returns = s.link.returns ∧
      (∀ tag < 64, t.link.tags.getLsbD tag = (s.link.tags.getLsbD tag &&
        !s.port.accesses.any fun a => a.phase == .waiting && demandTag a == some tag)) ∧
      t.port.accesses = (s.port.accesses.filter stays).map (fun a => match a.kind with
        | .patrolRead _ => { a with kind := .patrolRead false }
        | _ => a) ∧
      t.wbq = s.wbq.filter WbEntry.granted ∧
      t.patrol = { engine := if s.patrol.engine = .disabled then .disabled else .idle
                   active := none, staged := none, held := none, tsq := [] } ∧
      (∀ i < s.regions.length, (regionAt t i).entry = (regionAt s i).entry ∧
        (regionAt t i).status = { (regionAt s i).status with
          state := if swept i then .idle else (regionAt s i).status.state }) ∧
      t.window = s.window.map (fun win => { win with override := none }) ∧
      t.repair.jobs = [] ∧ t.repair.erasures = s.repair.erasures ∧
      (∀ rank bank k, slotAt t rank bank k =
        if s.repair.jobs.any (fun j => slotKey j.rank j.bank j.target == slotKey rank bank k) then .free
        else slotAt s rank bank k) ∧
      (∀ i < s.fault.entries.length, faultAt t i =
        if (faultAt s i).state = .retiring ∧ s.repair.jobs.any (fun j => j.rank == (faultAt s i).rank &&
            j.bank == (faultAt s i).bank && j.sourceRow == (faultAt s i).row) = true then
          { faultAt s i with state := .suspect } else faultAt s i) ∧
      t.hammer = { s.hammer with tables := s.hammer.tables.map fun table => table.map fun _ => none } ∧
      t.report = { s.report with pending := 0, alerted := 0, holdoffEnd := none } ∧
      t = { s with
        link := { s.link with channel := .config, tags := t.link.tags }, maint := t.maint
        port := { s.port with accesses := t.port.accesses }, wbq := t.wbq, patrol := t.patrol, regions := t.regions
        window := t.window, repair := t.repair, fault := { s.fault with entries := t.fault.entries }
        hammer := t.hammer, report := t.report
        counters := { (dispatched s).counters with
          repairJobsAborted := (fun n => satAdd n 1)^[s.repair.jobs.length] s.counters.repairJobsAborted } }) ∧
  (∀ (s : State) (q : MaintRequest) (rest : List MaintRequest) (selectionFirst : Bool), s.maint.queue = q :: rest →
    let finished := s.report.queue = [] ∧ s.port.accesses = []
    (s.maint.clearing = false ∨ ¬ finished → exec (.channelClearComplete selectionFirst) s = .next s) ∧
    (s.maint.clearing = true → finished →
      let u := { s with
        link := { s.link with returns := s.link.returns ++ [.maintResp q.tag .ok []] }
        maint := { s.maint with queue := rest, clearing := false }
        port := { s.port with openRows := [], drain := false, passCounts := List.replicate 10 0 }
        counters := { s.counters with channelClears := satAdd s.counters.channelClears 1 } }
      let close := fun (x : State) => if x.window.isSome then closeWindow x else x
      ∃ t, exec (.channelClearComplete selectionFirst) s = .next (settle t) ∧
        t = (if selectionFirst then close (runSelection u) else runSelection (close u)) ∧ t.window = none ∧
        plain t.link.returns = plain u.link.returns ∧
        t.link.channel = s.link.channel ∧ t.maint = u.maint ∧ t.port.openRows = [] ∧ t.port.drain = false ∧
        (s.patrol.engine = .disabled → t.patrol = s.patrol)))

/-! ## Events that cannot arise -/

/-- An event that the part's state rules out changes nothing (the model's choice, notes/assumptions/5.md): no granted
access of the line that can be performed, or one of another kind; no running timer, a row with no hold end, or a sweep
that does not stand at a boundary of the event's mode; no request at the head, one of another code, or a clear in
progress. -/
def Obligations.UntimelyEventsChangeNothing : Prop :=
  ∀ s : State,
    (∀ line, performable s line = none → ∀ damage,
      ∀ c ∈ [Instr.demandReadDecode line damage, .scrubReadDecode line damage, .rmwReadDecode line damage,
        .copyReadDecode line damage, .demandWritePerformed line, .maskedWritePerformed line, .writebackPerformed line,
        .recordWritePerformed line, .copyWritePerformed line], exec c s = .next s) ∧
    (∀ line a damage, performable s line = some a →
      ((∀ tag, a.kind ≠ .demandRead tag) → exec (.demandReadDecode line damage) s = .next s) ∧
      (a.kind.isScrub = false → exec (.scrubReadDecode line damage) s = .next s) ∧
      ((∀ tag data mask, a.kind ≠ .maskedWrite tag data mask none) → exec (.rmwReadDecode line damage) s = .next s) ∧
      (a.kind ≠ .copyRead → exec (.copyReadDecode line damage) s = .next s) ∧
      ((∀ tag data, a.kind ≠ .demandWrite tag data) → exec (.demandWritePerformed line) s = .next s) ∧
      ((∀ tag data mask merged, a.kind ≠ .maskedWrite tag data mask (some merged)) →
        exec (.maskedWritePerformed line) s = .next s) ∧
      (a.kind ≠ .writeBack ∨ wbFind s line = none → exec (.writebackPerformed line) s = .next s) ∧
      ((∀ n data, a.kind ≠ .recordWrite n data) → exec (.recordWritePerformed line) s = .next s) ∧
      ((∀ row payload forwarded, a.kind ≠ .copyWrite row (some payload) forwarded) →
        exec (.copyWritePerformed line) s = .next s)) ∧
    (∀ rank bank, (∀ o, AMap.get? s.port.openRows (16 * rank + bank) = some o → o.holdEnd = none) →
      exec (.rowHoldExpiry rank bank) s = .next s) ∧
    (∀ rank, (refreshAt s rank).timer = none → exec (.refreshTimerExpiry rank) s = .next s) ∧
    (s.patrol.active = none ∨ s.patrol.engine ≠ .running →
      exec .patrolLineIssue s = .next s ∧ exec .burstIssue s = .next s) ∧
    (∀ w, s.patrol.active = some w →
      let ready := w.inFlight = 0 ∧ w.burstLeft = 0 ∧ 0 < w.remaining ∧ w.deferred = false
      ((regionAt s w.region).entry.mode ≠ .single ∨ ¬ ready → exec .patrolLineIssue s = .next s) ∧
      ((regionAt s w.region).entry.mode ≠ .burst ∨ ¬ ready → exec .burstIssue s = .next s)) ∧
    (s.report.holdoffEnd = none → exec .holdoffExpiry s = .next s) ∧
    (s.report.ageStart = none → exec .readyAgeExpiry s = .next s) ∧
    (∀ p ∈ [(Instr.identify, 1), (.readTime, 2), (.setTime, 3), (.setParam, 4), (.readStats, 5), (.statsClear, 6),
        (.goOnline, 7), (.channelClear, 8), (.configureGeometry, 9), (.regionLoad, 10), (.regionClear, 11),
        (.regionRead, 12), (.scrubEnable, 13), (.scrubDisable, 14), (.sweepNow, 15), (.sweepHalt, 16), (.sweepResume, 17),
        (.quietBegin, 18), (.quietEnd, 19), (.faultRead, 20), (.faultClear, 21), (.deviceRead, 22), (.retireRow, 23),
        (.remapLoad, 24), (.spareKill, 25), (.remapRead, 26), (.erase, 27), (.unerase, 28), (.reportSetup, 29),
        (.reportRelease, 30), (.reportRestart, 31), (.readCauses, 32), (.causeSet, 33), (.maskSet, 34), (.maskClear, 35)],
      s.maint.clearing = true ∨ (∀ q, s.maint.queue.head? = some q → q.code ≠ p.2) → exec p.1 s = .next s) ∧
    (s.maint.clearing = true ∨ (∀ q, s.maint.queue.head? = some q → 1 ≤ q.code ∧ q.code ≤ 35) →
      exec .badRequest s = .next s)

/-! ## Maintenance requests -/

/-- IDENTIFY's six words, whatever the state (R195). -/
def Obligations.IdentifyReturnsSixFixedWords : Prop :=
  ∀ (s : State) (q : MaintRequest), AtHead s q 1 →
    exec .identify s = .next (answered q .ok [0x0731, 0x4208, 1, 0x00200040, 0x00100040, 0x00040008] (dispatched s))

/-- READ_TIME, READ_STATS, REGION_READ, FAULT_READ, DEVICE_READ and REMAP_READ are answered with their words, and
nothing else moves (R196, R182, R63, R128, R130, R150, R193, R194); and the words of a region, of a row entry, of a
device and of a slot, field by field. A FREE entry's last device is returned as R111 keeps it, and READ_STATS
returns `maint_requests` with its own dispatch counted (the model's choices, notes/assumptions/20.md, 46.md). -/
def Obligations.ReadRequestsReturnTheirWords : Prop :=
  (∀ (s : State) (q : MaintRequest),
    (AtHead s q 2 →
      exec .readTime s = .next (answered q .ok
        [s.maint.now.us.setWidth 32, (s.maint.now.us >>> 32).setWidth 32,
         (s.maint.now.us.setWidth 64 + s.maint.wallOffset).setWidth 32,
         ((s.maint.now.us.setWidth 64 + s.maint.wallOffset) >>> 32).setWidth 32] (dispatched s))) ∧
    (AtHead s q 5 → ∀ (block first : Word32) (more : List Word32), q.args = block :: first :: more →
      block.toNat ≤ 10 → first.toNat < (Ctr.ofBlock block.toNat).length →
      exec .readStats s = .next (answered q .ok
        ((((Ctr.ofBlock block.toNat).drop first.toNat).take 8).map fun c =>
          BitVec.ofNat 32 ((dispatched s).counters.get c)) (dispatched s))) ∧
    (AtHead s q 12 → ∀ (index : Word32) (more : List Word32), q.args = index :: more → index.toNat ≤ 31 →
      8 * (more.getD 0 0).toNat < 23 →
      exec .regionRead s = .next (answered q .ok
        (((regionWords (regionAt s index.toNat)).drop (8 * (more.getD 0 0).toNat)).take 8) (dispatched s))) ∧
    (AtHead s q 20 → ∀ (index : Word32) (more : List Word32), q.args = index :: more → index.toNat ≤ 63 →
      8 * (more.getD 0 0).toNat < 15 →
      exec .faultRead s = .next (answered q .ok
        (((faultWords (faultAt s index.toNat)).drop (8 * (more.getD 0 0).toNat)).take 8) (dispatched s))) ∧
    (AtHead s q 22 → ∀ (rank : Word32) (more : List Word32), q.args = rank :: more → rank.toNat ≤ 3 →
      8 * (more.getD 0 0).toNat < 20 →
      exec .deviceRead s = .next (answered q .ok
        ((((List.range 20).map fun d =>
            if s.port.geomSet = true ∧ rank.toNat < s.port.geom.ranks then
              deviceWord (deviceAt s rank.toNat d) ((erasureSet s rank.toNat).contains d)
            else 0).drop (8 * (more.getD 0 0).toNat)).take 8) (dispatched s))) ∧
    (AtHead s q 26 → ∀ (rank bank first : Word32) (more : List Word32), q.args = rank :: bank :: first :: more →
      s.port.geomSet = true → rank.toNat < s.port.geom.ranks → bank.toNat ≤ 15 →
      (first.toNat < s.port.geom.spares ∨ first.toNat = 0) →
      exec .remapRead s = .next (answered q .ok
        ((((List.range s.port.geom.spares).drop first.toNat).take 8).map fun k =>
          slotWord (slotAt s rank.toNat bank.toNat k)) (dispatched s)))) ∧
  (∀ g : Region, regionWords g =
    [if g.entry.valid then 1 else 0, word g.entry.base, word g.entry.length, if g.entry.patrol then 1 else 0,
     word g.entry.period,
     match g.entry.cls with
      | .critical => 0
      | .standard => 1
      | .bulk => 2,
     match g.entry.mode with
      | .single => 0
      | .burst => 1
      | .sustained => 2,
     word g.entry.burst, if g.entry.policy = .windowed then 1 else 0, if g.entry.locked then 1 else 0,
     if g.entry.sweepRecords then 1 else 0,
     match g.status.state with
      | .idle => 0
      | .staged => 1
      | .active => 2
      | .held => 3,
     g.status.due.setWidth 32, (g.status.due >>> 32).setWidth 32, g.status.lastStart.setWidth 32,
     (g.status.lastStart >>> 32).setWidth 32, g.status.lastEnd.setWidth 32, (g.status.lastEnd >>> 32).setWidth 32,
     word g.status.completed, word g.status.missed, word g.status.late, word g.status.corrected,
     word g.status.uncorrectable]) ∧
  (∀ e : FaultEntry, faultWords e =
    [match e.state with
      | .free => 0
      | .observed => 1
      | .suspect => 2
      | .retiring => 3
      | .retired => 4
      | .blocked => 5,
     match e.reason with
      | none => 0
      | some .noSpare => 1
      | some .queueFull => 2
      | some .autoOff => 3,
     word e.rank, word e.bank, word e.row, word e.score, e.devices.setWidth 32, word e.events, word e.uncorrectables,
     e.firstSeen.setWidth 32, (e.firstSeen >>> 32).setWidth 32, e.lastSeen.setWidth 32, (e.lastSeen >>> 32).setWidth 32,
     word e.lastCol, word e.lastDevice]) ∧
  (∀ (d : DeviceScore) (erased : Bool), d.score < 2 ^ 16 →
    (deviceWord d erased).extractLsb' 0 16 = BitVec.ofNat 16 d.score ∧ (deviceWord d erased).getLsbD 16 = erased ∧
    (deviceWord d erased).getLsbD 17 = d.limitReported ∧ (deviceWord d erased).extractLsb' 18 14 = 0) ∧
  (∀ x : Slot, slotWord x = match x with
    | .free => 0
    | .reserved (.row l) => word (1 + 2 ^ 13 * l)
    | .reserved (.move k) => word (1 + 2 ^ 3 + 2 ^ 13 * k)
    | .copying (.row l) cursor => word (2 + 2 ^ 4 * cursor + 2 ^ 13 * l)
    | .copying (.move k) cursor => word (2 + 2 ^ 3 + 2 ^ 4 * cursor + 2 ^ 13 * k)
    | .active l => word (3 + 2 ^ 13 * l)
    | .dead => 4)

/-- SET_TIME, STATS_CLEAR, GO_ONLINE, REGION_CLEAR and FAULT_CLEAR: the one thing each changes (R196, R182, R188,
R62, R129). That STATS_CLEAR leaves `maint_requests` at 0, its own dispatch counted before, is the model's choice
(notes/assumptions/46.md). -/
def Obligations.PlainRequestsChangeOneThing : Prop :=
  ∀ (s : State) (q : MaintRequest),
    (AtHead s q 3 → ∀ (low high : Word32) (more : List Word32), q.args = low :: high :: more →
      exec .setTime s = .next (answered q .ok [] { dispatched s with
        maint := { s.maint with
          wallOffset := (high.setWidth 64 <<< 32 ||| low.setWidth 64) - s.maint.now.us.setWidth 64 } })) ∧
    (AtHead s q 6 → exec .statsClear s = .next (answered q .ok [] { s with counters := {} })) ∧
    (AtHead s q 7 → s.port.geomSet = true →
      exec .goOnline s = .next (answered q .ok [] { dispatched s with link := { s.link with channel := .online } })) ∧
    (AtHead s q 11 → ∀ (index : Word32) (more : List Word32), q.args = index :: more → index.toNat ≤ 31 →
      exec .regionClear s = .next
        (if (regionAt s index.toNat).status.state = .idle then
          answered q .ok [] { dispatched s with
            regions := s.regions.set index.toNat
              { regionAt s index.toNat with entry := { (regionAt s index.toNat).entry with valid := false } } }
        else answered q .busy [] (dispatched s))) ∧
    (AtHead s q 21 → ∀ (index : Word32) (more : List Word32), q.args = index :: more → index.toNat ≤ 63 →
      exec .faultClear s = .next
        (if (faultAt s index.toNat).state = .retiring then answered q .busy [] (dispatched s)
        else answered q .ok [] { dispatched s with
          fault := { s.fault with entries := s.fault.entries.set index.toNat {} } }))

/-- READ_CAUSES, CAUSE_SET, MASK_SET and MASK_CLEAR, and the refusal of a cause word with a bit above 15; after
CAUSE_SET and MASK_CLEAR comes the test for a due alert (R178, R180), which hands its frame before the response (the
model's choice, notes/assumptions/12.md). -/
def Obligations.CauseRequestsMoveTheFlags : Prop :=
  ∀ (s : State) (q : MaintRequest),
    (AtHead s q 32 →
      exec .readCauses s = .next (answered q .ok [s.report.pending.setWidth 32, s.report.mask.setWidth 32]
        { dispatched s with report := { s.report with
            pending := 0, alerted := s.report.alerted &&& ~~~s.report.pending } })) ∧
    ∀ (set : Word32) (more : List Word32), q.args = set :: more →
      (set.extractLsb' 16 16 = 0 →
        (AtHead s q 33 → exec .causeSet s = .next (answered q .ok [] (testAlert
          { dispatched s with report := { s.report with pending := s.report.pending ||| set.setWidth 16 } }))) ∧
        (AtHead s q 34 → exec .maskSet s = .next (answered q .ok [(s.report.mask ||| set.setWidth 16).setWidth 32]
          { dispatched s with report := { s.report with mask := s.report.mask ||| set.setWidth 16 } })) ∧
        (AtHead s q 35 → exec .maskClear s = .next
          (answered q .ok [(s.report.mask &&& ~~~(set.setWidth 16)).setWidth 32] (testAlert
            { dispatched s with report := { s.report with mask := s.report.mask &&& ~~~(set.setWidth 16) } })))) ∧
      (set.extractLsb' 16 16 ≠ 0 →
        (AtHead s q 33 → exec .causeSet s = .next (answered q .badArgument [] (dispatched s))) ∧
        (AtHead s q 34 → exec .maskSet s = .next (answered q .badArgument [] (dispatched s))) ∧
        (AtHead s q 35 → exec .maskClear s = .next (answered q .badArgument [] (dispatched s))))

/-- REPORT_SETUP, REPORT_RELEASE and REPORT_RESTART with the geometry set, and for the last two with the ring set up
(R168, R173, R174). With overrun off REPORT_RESTART answers no words (the model's choice, notes/assumptions/35.md). -/
def Obligations.RingRequestsKeepTheCounts : Prop :=
  ∀ (s : State) (q : MaintRequest), s.port.geomSet = true →
    (AtHead s q 29 → ∀ (base size : Word32) (more : List Word32), q.args = base :: size :: more →
      exec .reportSetup s = .next
        (if size.toNat < 6 ∨ 16 < size.toNat ∨ s.port.geom.capacity < base.toNat + 2 ^ size.toNat then
          answered q .badArgument [] (dispatched s)
        else if s.report.produced ≠ s.report.written then answered q .busy [] (dispatched s)
        else answered q .ok [word (2 ^ size.toNat)] { dispatched s with report := { s.report with
          setUp := true, base := base.toNat, sizeExp := size.toNat, produced := 0, written := 0, consumed := 0
          overrun := false, lost := 0, queue := [], unannounced := 0, ageStart := none } })) ∧
    (AtHead s q 30 → s.report.setUp = true → ∀ (c : Word32) (more : List Word32), q.args = c :: more →
      exec .reportRelease s = .next
        (if c - s.report.consumed ≤ s.report.written - s.report.consumed then
          answered q .ok [s.report.produced, s.report.written, c, word s.report.lost, flagWord s.report.overrun,
            word (2 ^ s.report.sizeExp)] { dispatched s with report := { s.report with consumed := c } }
        else
          answered q .badArgument [s.report.produced, s.report.written, s.report.consumed, word s.report.lost,
            flagWord s.report.overrun, word (2 ^ s.report.sizeExp)] (dispatched s))) ∧
    (AtHead s q 31 → s.report.setUp = true →
      (s.report.overrun = false → exec .reportRestart s = .next (answered q .ok [] (dispatched s))) ∧
      (s.report.overrun = true →
        (s.report.produced - s.report.consumed).toNat = 2 ^ s.report.sizeExp ∨
          8 ≤ (s.report.produced - s.report.written).toNat →
        exec .reportRestart s = .next (answered q .busy [] (dispatched s))) ∧
      (s.report.overrun = true → (s.report.produced - s.report.consumed).toNat ≠ 2 ^ s.report.sizeExp →
        (s.report.produced - s.report.written).toNat < 8 →
        ∃ t, exec .reportRestart s = .next (answered q .ok [s.report.produced, word s.report.lost] t) ∧
          t.report = { s.report with
            overrun := false, lost := 0, produced := s.report.produced + 1
            queue := s.report.queue ++ [{ sequence := s.report.produced, performed := false }] } ∧
          t.port.accesses.getLast? = some
            { line := s.report.base + s.report.produced.toNat % 2 ^ s.report.sizeExp, phase := .waiting
              kind := .recordWrite s.report.produced (Record.bytes { kind := 13, detail := [(38, 4, s.report.lost)] }
                s.report.produced (s.maint.now.us.setWidth 64 + s.maint.wallOffset) false) } ∧
          t.counters.recordsPlaced = satAdd s.counters.recordsPlaced 1 ∧ t.counters.recordsLost = s.counters.recordsLost ∧
          t = { s with port := { s.port with accesses := t.port.accesses }, wbq := t.wbq, report := t.report
                       counters := t.counters }))

/-- BAD_REQUEST, a request of too few arguments, and the refusals for want of a geometry or a ring, or in ONLINE (R193,
R188, R20, R59, R139, R148 to R150, R152, R154, R168, R169); the refusals of arguments out of range, of a repeated or
impossible target, and of a retirement with no spare or no room (R182, R63, R62, R59, R128, R129, R130, R139, R148,
R149, R150, R152, R154). A refused request changes nothing but what is counted; after REGION_LOAD, SWEEP_NOW and
QUIET_BEGIN come the immediate actions (the model's choice, notes/assumptions/14.md). -/
def Obligations.RefusedRequestsChangeNothing : Prop :=
  ∀ (s : State) (q : MaintRequest),
    (s.maint.clearing = false → s.maint.queue.head? = some q → (q.code = 0 ∨ 35 < q.code) →
      exec .badRequest s = .next (answered q .badRequest [] { dispatched s with
        counters := { (dispatched s).counters with maintBadRequest := satAdd s.counters.maintBadRequest 1 } })) ∧
    (∀ p ∈ [(Instr.setTime, 3, 2), (.setParam, 4, 2), (.readStats, 5, 2), (.configureGeometry, 9, 4), (.regionClear, 11, 1),
        (.regionRead, 12, 1), (.faultRead, 20, 1), (.faultClear, 21, 1), (.deviceRead, 22, 1), (.retireRow, 23, 3),
        (.remapLoad, 24, 4), (.spareKill, 25, 3), (.remapRead, 26, 3), (.erase, 27, 2), (.unerase, 28, 2),
        (.reportSetup, 29, 2), (.reportRelease, 30, 1), (.causeSet, 33, 1), (.maskSet, 34, 1), (.maskClear, 35, 1)],
      AtHead s q p.2.1 → q.args.length < p.2.2 → exec p.1 s = .next (answered q .badArgument [] (dispatched s))) ∧
    (∀ p ∈ [(Instr.regionLoad, 10, 6), (.sweepNow, 15, 1), (.quietBegin, 18, 1)],
      AtHead s q p.2.1 → q.args.length < p.2.2 →
        exec p.1 s = .next (settle (answered q .badArgument [] (dispatched s)))) ∧
    (s.port.geomSet = false →
      (∀ p ∈ [(Instr.goOnline, 7, 0), (.retireRow, 23, 3), (.remapLoad, 24, 4), (.spareKill, 25, 3), (.remapRead, 26, 3),
          (.erase, 27, 2), (.unerase, 28, 2), (.reportSetup, 29, 2)],
        AtHead s q p.2.1 → p.2.2 ≤ q.args.length → exec p.1 s = .next (answered q .notConfigured [] (dispatched s))) ∧
      (AtHead s q 10 → 6 ≤ q.args.length →
        exec .regionLoad s = .next (settle (answered q .notConfigured [] (dispatched s))))) ∧
    (s.report.setUp = false → ∀ p ∈ [(Instr.reportRelease, 30, 1), (.reportRestart, 31, 0)],
      AtHead s q p.2.1 → p.2.2 ≤ q.args.length → exec p.1 s = .next (answered q .notConfigured [] (dispatched s))) ∧
    (s.link.channel = .online → s.port.geomSet = true →
      ∀ p ∈ [(Instr.configureGeometry, 9, 4), (.remapLoad, 24, 4), (.spareKill, 25, 3), (.unerase, 28, 2)],
        AtHead s q p.2.1 → p.2.2 ≤ q.args.length → exec p.1 s = .next (answered q .busy [] (dispatched s))) ∧
    (∀ (a0 a1 : Word32) (more : List Word32), q.args = a0 :: a1 :: more →
      10 < a0.toNat ∨ (Ctr.ofBlock a0.toNat).length ≤ a1.toNat → AtHead s q 5 →
      exec .readStats s = .next (answered q .badArgument [] (dispatched s))) ∧
    (∀ (a0 : Word32) (more : List Word32), q.args = a0 :: more →
      (∀ p ∈ [(Instr.regionClear, 11, 31), (.regionRead, 12, 31), (.faultRead, 20, 63), (.faultClear, 21, 63),
          (.deviceRead, 22, 3)],
        AtHead s q p.2.1 → p.2.2 < a0.toNat → exec p.1 s = .next (answered q .badArgument [] (dispatched s))) ∧
      (∀ p ∈ [(Instr.regionRead, 12, 23), (.faultRead, 20, 15), (.deviceRead, 22, 20)],
        AtHead s q p.2.1 → p.2.2 ≤ 8 * (more.getD 0 0).toNat →
        exec p.1 s = .next (answered q .badArgument [] (dispatched s)))) ∧
    (s.port.geomSet = true →
      ∀ (a0 a1 : Word32) (more : List Word32), q.args = a0 :: a1 :: more →
      let a2 := (more.getD 0 0).toNat
      let a3 := (more.getD 1 0).toNat
      let noBank := s.port.geom.ranks ≤ a0.toNat ∨ 15 < a1.toNat
      (6 ≤ q.args.length → AtHead s q 10 →
        31 < a0.toNat ∨ a2 = 0 ∨ s.port.geom.capacity < a1.toNat + a2 ∨ (more.getD 3 0).extractLsb' 1 2 = 3 ∨
          (more.getD 3 0).extractLsb' 3 2 = 3 →
        exec .regionLoad s = .next (settle (answered q .badArgument [] (dispatched s)))) ∧
      (more ≠ [] → AtHead s q 23 →
        (noBank ∨ s.port.geom.visible ≤ a2 →
          exec .retireRow s = .next (answered q .badArgument [] (dispatched s))) ∧
        (¬ noBank → a2 < s.port.geom.visible →
          ((∃ j ∈ s.repair.jobs, j.rank = a0.toNat ∧ j.bank = a1.toNat ∧ j.logical = a2) →
            exec .retireRow s = .next (answered q .busy [] (dispatched s))) ∧
          ((∀ j ∈ s.repair.jobs, (j.rank, j.bank, j.logical) ≠ (a0.toNat, a1.toNat, a2)) →
            ((∀ k < s.port.geom.spares, slotAt s a0.toNat a1.toNat k ≠ .free) →
              exec .retireRow s = .next (answered q .noSpare [] { dispatched s with
                counters := { (dispatched s).counters with
                  retireNoSpare := satAdd s.counters.retireNoSpare 1 } })) ∧
            ((∃ k < s.port.geom.spares, slotAt s a0.toNat a1.toNat k = .free) → 4 ≤ s.repair.jobs.length →
              exec .retireRow s = .next (answered q .busy [] { dispatched s with
                counters := { (dispatched s).counters with
                  retireQueueFull := satAdd s.counters.retireQueueFull 1 } }))))) ∧
      (2 ≤ more.length → AtHead s q 24 → s.link.channel = .config →
        noBank ∨ s.port.geom.visible ≤ a2 ∨ s.port.geom.spares ≤ a3 ∨ slotAt s a0.toNat a1.toNat a3 ≠ .free ∨
          (∃ k < s.port.geom.spares, slotLogical s a0.toNat a1.toNat k = some a2) →
        exec .remapLoad s = .next (answered q .badArgument [] (dispatched s))) ∧
      (more ≠ [] → AtHead s q 26 → noBank ∨ s.port.geom.spares ≤ a2 ∧ a2 ≠ 0 →
        exec .remapRead s = .next (answered q .badArgument [] (dispatched s))) ∧
      (AtHead s q 27 → s.port.geom.ranks ≤ a0.toNat ∨ 19 < a1.toNat ∨ a1.toNat ∈ erasureSet s a0.toNat →
        exec .erase s = .next (answered q .badArgument [] (dispatched s))) ∧
      (AtHead s q 28 → s.link.channel = .config →
        s.port.geom.ranks ≤ a0.toNat ∨ 19 < a1.toNat ∨ a1.toNat ∉ erasureSet s a0.toNat →
        exec .unerase s = .next (answered q .badArgument [] (dispatched s))))

/-- SET_PARAM sets the one parameter of the id to the value clamped to its range, by the table of R197, and answers the
value taken; a parameter that applies at a later event changes nothing else; an id not listed is refused (R197). What
the others do at once: `min_pace` recomputes the pace and then the override time (R90, R106), `quiet_override` the
override time (R108), `device_erase`, `device_spread` and `auto_erase` make the erase decision of every device, rank by
rank, the first after it clears the limit flags of devices below it (R125, R126), `hammer_threshold` triggers every
entry at or above it, in order of rank and entry (R164), and `ready_count` and `ready_age` announce what they now reach
(R179). That the ALERTs these make due stand before the response, and that the immediate actions of some come before
it, are the model's choices (notes/assumptions/12.md, 14.md). -/
def Obligations.SetParamClampsOneParameter : Prop :=
  let ranges : List (Nat × Nat) :=
    [(0, 1000), (10, 1000), (0, 65535), (0, 1), (1, 1023), (1, 1023), (0, 1), (1, 3600), (1, 4095), (1, 64), (0, 1),
     (1024, 65535), (8, 128), (0, 1), (1, 64), (0, 1000000), (0, 65535)]
  (∀ id, paramRange id = ranges[id]?) ∧
  ∀ (s : State) (q : MaintRequest) (id value : Word32) (more : List Word32),
    AtHead s q 4 → q.args = id :: value :: more →
    (∀ low high, ranges[id.toNat]? = some (low, high) →
      ∃ t, exec .setParam s = .next (answered q .ok [word (max low (min high value.toNat))] t) ∧
        (∀ other < 17, t.params.get other =
          if other = id.toNat then max low (min high value.toNat) else s.params.get other) ∧
        (id.toNat ∈ [0, 1, 4, 5, 6, 7, 12, 13, 16] → t = { dispatched s with params := t.params }) ∧
        (let u : State := { dispatched s with params := t.params }
          let decided := fun (v : State) =>
            if v.port.geomSet then (List.range v.port.geom.ranks).foldl (fun x rank =>
              (List.range 20).foldl (fun y device => eraseDecision rank device y) x) v
            else v
          let triggered := fun (v : State) (rank i : Nat) => match hammerAt v rank i with
            | some e => if v.params.hammerThreshold ≤ e.count then trigger rank i e none v else v
            | none => v
          let announced := raise .recordsReady { u with report := { u.report with unannounced := 0, ageStart := none } }
          (id.toNat = 2 → t = settle (reviewOverride (recompute u))) ∧
          (id.toNat = 3 → t = settle (reviewOverride u)) ∧
          (id.toNat = 8 → t = decided { u with fault := { u.fault with devices := u.fault.devices.map fun d =>
            if d.score < t.params.deviceErase then { d with limitReported := false } else d } }) ∧
          (id.toNat = 9 ∨ id.toNat = 10 → t = decided u) ∧
          (id.toNat = 11 → t = settle ((List.range 4).foldl (fun v rank =>
            (List.range 16).foldl (fun x i => triggered x rank i) v) u)) ∧
          (id.toNat = 14 → t = if 0 < s.report.unannounced ∧ t.params.readyCount ≤ s.report.unannounced then announced
            else u) ∧
          (id.toNat = 15 → t = match s.report.ageStart with
            | some m => if 0 ≤ elapsedDiff s.maint.now.us (m + BitVec.ofNat 48 t.params.readyAge) then announced else u
            | none => u)) ∧
        t.link.tags = s.link.tags ∧ t.link.channel = s.link.channel ∧ t.port.geom = s.port.geom ∧ t.maint = s.maint ∧
        t.dram = s.dram) ∧
    (17 ≤ id.toNat → exec .setParam s = .next (answered q .badArgument [] (dispatched s)))

/-- An accepted REGION_LOAD: the entry with period and burst length clamped, its status anew and due now, and the
selection it brings; and the refusal OVERLAP with the lowest index met (R59, R60, R71, R194). A period above 65535 is
taken as 65535, an ALERT that the selection makes due stands before the response, and the immediate actions follow it
(the model's choices, notes/assumptions/32.md, 12.md, 14.md). -/
def Obligations.RegionLoadTakesTheRegion : Prop :=
  ∀ (s : State) (q : MaintRequest) (index base length period burst packed : Word32) (more : List Word32)
      (cls : RegionClass) (mode : AccessMode),
    AtHead s q 10 → q.args = index :: base :: length :: period :: burst :: packed :: more → s.port.geomSet = true →
    index.toNat ≤ 31 → length ≠ 0 → base.toNat + length.toNat ≤ s.port.geom.capacity →
    cls.code = packed.toNat / 2 % 4 → mode.code = packed.toNat / 8 % 4 →
    let e : RegionEntry :=
      { valid := true, base := base.toNat, length := length.toNat, patrol := packed.getLsbD 0
        period := max 1 (min 65535 period.toNat), cls := cls, mode := mode, burst := max 2 (min 16 burst.toNat)
        policy := if packed.getLsbD 5 then .windowed else .immediate, locked := packed.getLsbD 6
        sweepRecords := packed.getLsbD 7 }
    (∀ j ≤ 31, j ≠ index.toNat → (regionAt s j).entry.valid = true → e.meets (regionAt s j).entry = true →
      (∀ i < j, i ≠ index.toNat → (regionAt s i).entry.valid = true → e.meets (regionAt s i).entry = false) →
      exec .regionLoad s = .next (settle (answered q .overlap [word j] (dispatched s)))) ∧
    ((∀ j ≤ 31, j ≠ index.toNat → (regionAt s j).entry.valid = true → e.meets (regionAt s j).entry = false) →
      ((regionAt s index.toNat).status.state ≠ .idle →
        exec .regionLoad s = .next (settle (answered q .busy [] (dispatched s)))) ∧
      ((regionAt s index.toNat).status.state = .idle →
        exec .regionLoad s = .next (settle (answered q .ok
          [index, base, length, word e.period, word e.burst, word (packRegion e)]
          (runSelection { dispatched s with
            regions := s.regions.set index.toNat { entry := e, status := { due := s.maint.now.us } } })))))

/-- An accepted CONFIGURE_GEOMETRY takes the new values and has every effect of R21 and no other; values outside those
of R19, and work bound to the present geometry as R20 lists it, refuse it (R19, R20, R21). -/
def Obligations.ConfigureGeometryReachesEveryBlock : Prop :=
  ∀ (s : State) (q : MaintRequest) (ranks rowBits colExp spares : Word32) (more : List Word32),
    AtHead s q 9 → q.args = ranks :: rowBits :: colExp :: spares :: more → s.link.channel = .config →
    let g : Geometry := { ranks := ranks.toNat, rowBits := rowBits.toNat, colExp := colExp.toNat, spares := spares.toNat }
    let capacity := g.ranks * 16 * (2 ^ g.rowBits - g.spares) * 2 ^ g.colExp
    let allowed := g.ranks ∈ [1, 2, 4] ∧ 14 ≤ g.rowBits ∧ g.rowBits ≤ 17 ∧ 5 ≤ g.colExp ∧ g.colExp ≤ 8 ∧
      g.spares ∈ [0, 8, 16, 32]
    let bound := s.patrol.active ≠ none ∨ s.patrol.staged ≠ none ∨ s.patrol.held ≠ none ∨ s.patrol.tsq ≠ [] ∨
      s.wbq ≠ [] ∨ s.repair.jobs ≠ [] ∨ s.report.produced ≠ s.report.written ∨
      ∃ a ∈ s.port.accesses, (∃ owned, a.kind = .patrolRead owned) ∨ (∃ row, a.kind = .targetedRead row) ∨
        a.kind = .copyRead ∨ ∃ row payload forwarded, a.kind = .copyWrite row payload forwarded
    (¬ allowed → exec .configureGeometry s = .next (answered q .badArgument [] (dispatched s))) ∧
    (allowed → bound → exec .configureGeometry s = .next (answered q .busy [] (dispatched s))) ∧
    (allowed → ¬ bound →
      ∃ t, exec .configureGeometry s = .next (answered q .ok [] t) ∧
        t.port.geomSet = true ∧ t.port.geom = g ∧ t.capacity = capacity ∧ t.port.openRows = [] ∧
        (∀ n < 4, t.port.refresh.getD n { timer := none, owed := [] } =
          { timer := if n < g.ranks then some (s.maint.now.later (s.params.refreshInterval * 8)) else none, owed := [] }) ∧
        t.regions = s.regions.map (fun r =>
          if r.entry.valid = true ∧ capacity < r.entry.base + r.entry.length then
            { r with entry := { r.entry with valid := false } } else r) ∧
        t.repair.slots = [] ∧ t.repair.jobs = s.repair.jobs ∧
        (∀ n, erasureSet t n = if n < g.ranks then erasureSet s n else []) ∧
        t.fault.entries = s.fault.entries.map (fun e =>
          if g.ranks ≤ e.rank ∨ 2 ^ g.rowBits ≤ e.row then {} else e) ∧
        (∀ n, ∀ d < 20, deviceAt t n d = if n < g.ranks then deviceAt s n d else {}) ∧
        t.hammer.tables = s.hammer.tables.map (fun table => table.map fun _ => none) ∧
        (s.report.setUp = true → capacity < s.report.base + 2 ^ s.report.sizeExp →
          t.report = { s.report with
            setUp := false, produced := 0, written := 0, consumed := 0, lost := 0, overrun := false, queue := []
            unannounced := 0, ageStart := none }) ∧
        (s.report.setUp = false ∨ s.report.base + 2 ^ s.report.sizeExp ≤ capacity → t.report = s.report) ∧
        t = { s with
          port := { s.port with geomSet := true, geom := g, openRows := [], refresh := t.port.refresh }
          regions := t.regions, repair := { s.repair with slots := [], erasures := t.repair.erasures }
          fault := { s.fault with entries := t.fault.entries, devices := t.fault.devices }
          hammer := { s.hammer with tables := t.hammer.tables }, report := t.report
          counters := (dispatched s).counters })

/-- REMAP_LOAD and SPARE_KILL spend a FREE slot in CONFIG: it becomes ACTIVE and names the logical row, or DEAD, and
no other slot changes (R148, R149). RETIRE_ROW takes a repair job: the lowest FREE slot is reserved, the entry of the
source row becomes RETIRING, and in an empty queue the copy starts at once, taking its first pair unless a window is
open (R139, R123, R140, R141). A retire request of the Fault Table is answered by the first case of R138 that applies,
and taken as RETIRE_ROW's is. The two answers of the Remap Table: a logical row is served by the ACTIVE slot that names
it, and otherwise by the row of its own number; a visible row holds its own logical row, a spare the one its slot names,
for the target of a move the one its source slot names, and a FREE or DEAD one none (R136). -/
def Obligations.SparesAreSpentOnRows : Prop :=
  (∀ (s : State) (q : MaintRequest), s.port.geomSet = true → s.link.channel = .config →
    (AtHead s q 24 → ∀ (rank bank logical slot : Word32) (more : List Word32),
      q.args = rank :: bank :: logical :: slot :: more → rank.toNat < s.port.geom.ranks → bank.toNat ≤ 15 →
      logical.toNat < s.port.geom.visible → slot.toNat < s.port.geom.spares →
      slotAt s rank.toNat bank.toNat slot.toNat = .free →
      (∀ k < s.port.geom.spares, slotLogical s rank.toNat bank.toNat k ≠ some logical.toNat) →
      ∃ t, exec .remapLoad s = .next (answered q .ok [word (s.port.geom.visible + slot.toNat)] t) ∧
        t = { dispatched s with repair := { s.repair with slots := t.repair.slots } } ∧
        (∀ key, AMap.get? t.repair.slots key =
          if key = slotKey rank.toNat bank.toNat slot.toNat then some (.active logical.toNat)
          else AMap.get? s.repair.slots key) ∧
        servedRow t rank.toNat bank.toNat logical.toNat = s.port.geom.visible + slot.toNat) ∧
    (AtHead s q 25 → ∀ (rank bank slot : Word32) (more : List Word32), q.args = rank :: bank :: slot :: more →
      ∃ t, exec .spareKill s = .next
          (if rank.toNat < s.port.geom.ranks ∧ bank.toNat ≤ 15 ∧ slot.toNat < s.port.geom.spares ∧
              slotAt s rank.toNat bank.toNat slot.toNat = .free
            then answered q .ok [] t else answered q .badArgument [] (dispatched s)) ∧
        t = { dispatched s with repair := { s.repair with slots := t.repair.slots } } ∧
        ∀ key, AMap.get? t.repair.slots key =
          if key = slotKey rank.toNat bank.toNat slot.toNat then some .dead else AMap.get? s.repair.slots key)) ∧
  (∀ (s : State) (q : MaintRequest) (rank bank logical : Word32) (more : List Word32) (k : Nat),
    AtHead s q 23 → q.args = rank :: bank :: logical :: more → s.port.geomSet = true →
    rank.toNat < s.port.geom.ranks → bank.toNat ≤ 15 → logical.toNat < s.port.geom.visible →
    hasJob s rank.toNat bank.toNat logical.toNat = false →
    k < s.port.geom.spares → slotAt s rank.toNat bank.toNat k = .free →
    (∀ j < k, slotAt s rank.toNat bank.toNat j ≠ .free) → s.repair.jobs.length < 4 →
    let source := servedRow s rank.toNat bank.toNat logical.toNat
    let target := match activeSlotOf s rank.toNat bank.toNat logical.toNat with
      | some j => SlotTarget.move j
      | none => SlotTarget.row logical.toNat
    let line := s.port.geom.lineOf rank.toNat bank.toNat logical.toNat 0
    ∃ t, exec .retireRow s = .next (answered q .ok [word k, word (s.port.geom.visible + k), word source] t) ∧
      t.counters.repairJobsTaken = satAdd s.counters.repairJobsTaken 1 ∧
      (t.repair.jobs.map fun j => (j.rank, j.bank, j.logical, j.target, j.sourceRow, j.origin)) =
        (s.repair.jobs.map fun j => (j.rank, j.bank, j.logical, j.target, j.sourceRow, j.origin)) ++
          [(rank.toNat, bank.toNat, logical.toNat, k, source, Origin.requested)] ∧
      slotAt t rank.toNat bank.toNat k = (if s.repair.jobs = [] then .copying target 0 else .reserved target) ∧
      (∀ i, faultFind s rank.toNat bank.toNat source = some i →
        t.fault.entries = s.fault.entries.set i { faultAt s i with state := .retiring, reason := none }) ∧
      (faultFind s rank.toNat bank.toNat source = none → t.fault = s.fault) ∧
      (s.repair.jobs ≠ [] ∨ s.window.isSome → t.port = s.port) ∧
      (s.repair.jobs = [] → s.window = none → pairOutstanding s = false → wbFind s line = none →
        t.port.accesses = s.port.accesses ++
          [{ line := line, kind := .copyRead, phase := .waiting },
           { line := line, kind := .copyWrite (s.port.geom.visible + k) none false, phase := .waiting }]) ∧
      t = { s with port := { s.port with accesses := t.port.accesses }
                   repair := { s.repair with slots := t.repair.slots, jobs := t.repair.jobs }
                   fault := { s.fault with entries := t.fault.entries }, counters := t.counters }) ∧
  (∀ (s : State) (rank bank row : Nat),
    let answer := retireRequest rank bank row s
    (heldRow s rank bank row = none → answer = (.notInService, s)) ∧
    ∀ l, heldRow s rank bank row = some l →
      let moved := ∃ k < s.port.geom.spares, slotAt s rank bank k = .active l
      let filling := s.port.geom.visible ≤ row ∧
        ((∃ g, slotAt s rank bank (row - s.port.geom.visible) = .reserved g) ∨
          ∃ g c, slotAt s rank bank (row - s.port.geom.visible) = .copying g c)
      let queued := ∃ j ∈ s.repair.jobs, j.rank = rank ∧ j.bank = bank ∧ j.logical = l
      (row < s.port.geom.visible ∧ moved → answer = (.notInService, s)) ∧
      (s.port.geom.visible ≤ row ∨ ¬ moved →
        (filling ∨ queued → answer = (.inProgress, s)) ∧
        (¬ filling → ¬ queued →
          ((∀ k < s.port.geom.spares, slotAt s rank bank k ≠ .free) →
            let u := raise .sparesExhausted s
            answer = (.noSpare, { u with
              counters := { u.counters with retireNoSpare := satAdd s.counters.retireNoSpare 1 } })) ∧
          ∀ k < s.port.geom.spares, slotAt s rank bank k = .free → (∀ m < k, slotAt s rank bank m ≠ .free) →
            (4 ≤ s.repair.jobs.length → answer = (.queueFull, { s with
              counters := { s.counters with retireQueueFull := satAdd s.counters.retireQueueFull 1 } })) ∧
            (s.repair.jobs.length < 4 → answer = (.taken, takeJob rank bank l k .faultTable s))))) ∧
  (∀ (s : State) (rank bank logical k : Nat) (origin : Origin),
    let source := servedRow s rank bank logical
    let target := match activeSlotOf s rank bank logical with
      | some m => SlotTarget.move m
      | none => SlotTarget.row logical
    let u := setSlot rank bank k (.reserved target) s
    let v : State := { u with
      repair := { u.repair with jobs := s.repair.jobs ++ [{ rank := rank, bank := bank, logical := logical, target := k
                                                            sourceRow := source, origin := origin }] }
      fault := match faultFind s rank bank source with
        | some i => { s.fault with
            entries := s.fault.entries.set i { faultAt s i with state := .retiring, reason := none } }
        | none => s.fault
      counters := { s.counters with repairJobsTaken := satAdd s.counters.repairJobsTaken 1 } }
    takeJob rank bank logical k origin s = if s.repair.jobs = [] then startJob v else v) ∧
  (∀ (s : State) (rank bank logical row : Nat),
    (∀ k < s.port.geom.spares, slotAt s rank bank k = .active logical →
      (∀ m < k, slotAt s rank bank m ≠ .active logical) →
      servedRow s rank bank logical = s.port.geom.visible + k) ∧
    ((∀ k < s.port.geom.spares, slotAt s rank bank k ≠ .active logical) → servedRow s rank bank logical = logical) ∧
    (row < s.port.geom.visible → heldRow s rank bank row = some row) ∧
    (s.port.geom.visible + s.port.geom.spares ≤ row → heldRow s rank bank row = none) ∧
    ∀ k < s.port.geom.spares, row = s.port.geom.visible + k →
      let sourceOf := fun (t : SlotTarget) => match t with
        | .row l => some l
        | .move m => match slotAt s rank bank m with
          | .active l => some l
          | _ => none
      heldRow s rank bank row = match slotAt s rank bank k with
        | .free => none
        | .dead => none
        | .active l => some l
        | .reserved t => sourceOf t
        | .copying t _ => sourceOf t)

/-- ERASE adds the device at the end of its rank's set and cleans up the Fault Table; UNERASE takes it out, with its
score 0, and makes the rank's erase decisions (R152, R127, R154). Each answers the set as the request leaves it, before
the erase decisions of an UNERASE, and the ALERTs it makes due stand before its response (the model's choices,
notes/assumptions/33.md, 12.md). The erase decision: a device past every condition is erased, or, with its rank at two
erasures, its limit is reported once; and otherwise nothing happens (R125, R126, R153). -/
def Obligations.ErasuresFollowTheirRules : Prop :=
  (∀ (s : State) (q : MaintRequest) (rank device : Word32) (more : List Word32),
    q.args = rank :: device :: more → s.port.geomSet = true → rank.toNat < s.port.geom.ranks → device.toNat ≤ 19 →
    (AtHead s q 27 → device.toNat ∉ erasureSet s rank.toNat → (erasureSet s rank.toNat).length < 2 →
      ∃ t, exec .erase s =
          .next (answered q .ok [erasureWord (erasureSet s rank.toNat ++ [device.toNat])] t) ∧
        t.repair = { s.repair with
          erasures := s.repair.erasures.set rank.toNat (erasureSet s rank.toNat ++ [device.toNat]) } ∧
        t.fault.entries = s.fault.entries.map (fun e =>
          if (e.state = .observed ∨ e.state = .suspect) ∧ e.rank = rank.toNat ∧
              e.devices = BitVec.ofNat 20 (2 ^ device.toNat) then {}
          else if e.state ≠ .free ∧ e.rank = rank.toNat then
            { e with devices := e.devices &&& ~~~BitVec.ofNat 20 (2 ^ device.toNat) }
          else e) ∧
        t.fault.devices = s.fault.devices.set (rank.toNat * 20 + device.toNat)
          { deviceAt s rank.toNat device.toNat with limitReported := false } ∧
        t.counters.devicesErased = satAdd s.counters.devicesErased 1 ∧
        t.counters.eraseDecisions = s.counters.eraseDecisions ∧
        (RingOpen s → t.report.pending = s.report.pending ∧
          t.port.accesses.getLast? = some (recordWriteOf
            { kind := 7, rank := rank.toNat, device := device.toNat, score := (deviceAt s rank.toNat device.toNat).score
              slotOrCount := spreadOf s rank.toNat device.toNat
              detail := [(38, 1, (erasureSet t rank.toNat).getD 0 255), (39, 1, (erasureSet t rank.toNat).getD 1 255),
                         (40, 1, 1)] } s)) ∧
        (s.report.setUp = false → t.report = s.report ∧ t.port = s.port ∧ t.wbq = s.wbq) ∧
        t = { s with
          link := { s.link with returns := t.link.returns }, port := { s.port with accesses := t.port.accesses }
          wbq := t.wbq, fault := { s.fault with entries := t.fault.entries, devices := t.fault.devices }
          repair := t.repair, report := t.report, counters := t.counters }) ∧
    (AtHead s q 27 → device.toNat ∉ erasureSet s rank.toNat → 2 ≤ (erasureSet s rank.toNat).length →
      exec .erase s = .next (answered q .limit [] (dispatched s))) ∧
    (AtHead s q 28 → s.link.channel = .config → device.toNat ∈ erasureSet s rank.toNat →
      let u : State := { dispatched s with
        repair := { s.repair with
          erasures := s.repair.erasures.set rank.toNat ((erasureSet s rank.toNat).erase device.toNat) }
        fault := { s.fault with devices := s.fault.devices.set (rank.toNat * 20 + device.toNat) {} }
        counters := { (dispatched s).counters with devicesUnerased := satAdd s.counters.devicesUnerased 1 } }
      exec .unerase s = .next (answered q .ok [erasureWord ((erasureSet s rank.toNat).erase device.toNat)]
        (eraseRank rank.toNat u)) ∧
      (s.params.autoErase = 0 → eraseRank rank.toNat u = u))) ∧
  (∀ (s : State) (rank device : Nat),
    let past := s.params.autoErase = 1 ∧ device ∉ erasureSet s rank ∧
      s.params.deviceErase ≤ (deviceAt s rank device).score ∧
      s.params.deviceSpread ≤ s.fault.entries.countP (fun e =>
        e.state != .free && e.rank == rank && e.devices.getLsbD device)
    (¬ past → eraseDecision rank device s = s) ∧
    (past → (erasureSet s rank).length < 2 →
      let t := eraseDecision rank device s
      t.repair = { s.repair with erasures := s.repair.erasures.set rank (erasureSet s rank ++ [device]) } ∧
      t.counters.eraseDecisions = satAdd s.counters.eraseDecisions 1 ∧
      t.counters.devicesErased = satAdd s.counters.devicesErased 1 ∧
      (∀ e ∈ t.fault.entries, e.rank = rank → e.state ≠ .free → device < 20 → e.devices.getLsbD device = false) ∧
      t.report.pending.getLsbD 10 = true) ∧
    (past → 2 ≤ (erasureSet s rank).length →
      let t := eraseDecision rank device s
      ((deviceAt s rank device).limitReported = true → t = s) ∧
      ((deviceAt s rank device).limitReported = false →
        t.repair = s.repair ∧ t.fault.entries = s.fault.entries ∧
        t.fault.devices = s.fault.devices.set (rank * 20 + device)
          { deviceAt s rank device with limitReported := true } ∧
        t.counters.erasureLimits = satAdd s.counters.erasureLimits 1 ∧ t.report.pending.getLsbD 11 = true)))

end
end

