-- ==== Sys2Proof/Laws/State.lean ====
section
/-! SUPPORT. The fields of State after each of the small updates the meanings are made of: one lemma per field per update,
so that no proof unfolds an update. -/

namespace Sys2Proof.Machine

open Sys2Proof

/-! ## count: a statistics count -/

@[simp] theorem count_link (c : Ctr) (s : State) : (count c s).link = s.link := rfl
@[simp] theorem count_port (c : Ctr) (s : State) : (count c s).port = s.port := rfl
@[simp] theorem count_wbq (c : Ctr) (s : State) : (count c s).wbq = s.wbq := rfl
@[simp] theorem count_regions (c : Ctr) (s : State) : (count c s).regions = s.regions := rfl
@[simp] theorem count_patrol (c : Ctr) (s : State) : (count c s).patrol = s.patrol := rfl
@[simp] theorem count_window (c : Ctr) (s : State) : (count c s).window = s.window := rfl
@[simp] theorem count_fault (c : Ctr) (s : State) : (count c s).fault = s.fault := rfl
@[simp] theorem count_repair (c : Ctr) (s : State) : (count c s).repair = s.repair := rfl
@[simp] theorem count_hammer (c : Ctr) (s : State) : (count c s).hammer = s.hammer := rfl
@[simp] theorem count_report (c : Ctr) (s : State) : (count c s).report = s.report := rfl
@[simp] theorem count_maint (c : Ctr) (s : State) : (count c s).maint = s.maint := rfl
@[simp] theorem count_params (c : Ctr) (s : State) : (count c s).params = s.params := rfl
@[simp] theorem count_dram (c : Ctr) (s : State) : (count c s).dram = s.dram := rfl
@[simp] theorem count_code (c : Ctr) (s : State) : (count c s).code = s.code := rfl
@[simp] theorem count_pending (c : Ctr) (s : State) : (count c s).pending = s.pending := rfl

/-! ## countBy: several statistics counts -/

@[simp] theorem countBy_link (c : Ctr) (n : Nat) (s : State) : (countBy c n s).link = s.link := rfl
@[simp] theorem countBy_port (c : Ctr) (n : Nat) (s : State) : (countBy c n s).port = s.port := rfl
@[simp] theorem countBy_wbq (c : Ctr) (n : Nat) (s : State) : (countBy c n s).wbq = s.wbq := rfl
@[simp] theorem countBy_regions (c : Ctr) (n : Nat) (s : State) : (countBy c n s).regions = s.regions := rfl
@[simp] theorem countBy_patrol (c : Ctr) (n : Nat) (s : State) : (countBy c n s).patrol = s.patrol := rfl
@[simp] theorem countBy_window (c : Ctr) (n : Nat) (s : State) : (countBy c n s).window = s.window := rfl
@[simp] theorem countBy_fault (c : Ctr) (n : Nat) (s : State) : (countBy c n s).fault = s.fault := rfl
@[simp] theorem countBy_repair (c : Ctr) (n : Nat) (s : State) : (countBy c n s).repair = s.repair := rfl
@[simp] theorem countBy_hammer (c : Ctr) (n : Nat) (s : State) : (countBy c n s).hammer = s.hammer := rfl
@[simp] theorem countBy_report (c : Ctr) (n : Nat) (s : State) : (countBy c n s).report = s.report := rfl
@[simp] theorem countBy_maint (c : Ctr) (n : Nat) (s : State) : (countBy c n s).maint = s.maint := rfl
@[simp] theorem countBy_params (c : Ctr) (n : Nat) (s : State) : (countBy c n s).params = s.params := rfl
@[simp] theorem countBy_dram (c : Ctr) (n : Nat) (s : State) : (countBy c n s).dram = s.dram := rfl
@[simp] theorem countBy_code (c : Ctr) (n : Nat) (s : State) : (countBy c n s).code = s.code := rfl
@[simp] theorem countBy_pending (c : Ctr) (n : Nat) (s : State) : (countBy c n s).pending = s.pending := rfl

/-! ## useTag: a tag taken -/

@[simp] theorem useTag_port (tag : Nat) (s : State) : (useTag tag s).port = s.port := rfl
@[simp] theorem useTag_wbq (tag : Nat) (s : State) : (useTag tag s).wbq = s.wbq := rfl
@[simp] theorem useTag_regions (tag : Nat) (s : State) : (useTag tag s).regions = s.regions := rfl
@[simp] theorem useTag_patrol (tag : Nat) (s : State) : (useTag tag s).patrol = s.patrol := rfl
@[simp] theorem useTag_window (tag : Nat) (s : State) : (useTag tag s).window = s.window := rfl
@[simp] theorem useTag_fault (tag : Nat) (s : State) : (useTag tag s).fault = s.fault := rfl
@[simp] theorem useTag_repair (tag : Nat) (s : State) : (useTag tag s).repair = s.repair := rfl
@[simp] theorem useTag_hammer (tag : Nat) (s : State) : (useTag tag s).hammer = s.hammer := rfl
@[simp] theorem useTag_report (tag : Nat) (s : State) : (useTag tag s).report = s.report := rfl
@[simp] theorem useTag_maint (tag : Nat) (s : State) : (useTag tag s).maint = s.maint := rfl
@[simp] theorem useTag_params (tag : Nat) (s : State) : (useTag tag s).params = s.params := rfl
@[simp] theorem useTag_counters (tag : Nat) (s : State) : (useTag tag s).counters = s.counters := rfl
@[simp] theorem useTag_dram (tag : Nat) (s : State) : (useTag tag s).dram = s.dram := rfl
@[simp] theorem useTag_code (tag : Nat) (s : State) : (useTag tag s).code = s.code := rfl
@[simp] theorem useTag_pending (tag : Nat) (s : State) : (useTag tag s).pending = s.pending := rfl

/-! ## freeTag: a tag freed -/

@[simp] theorem freeTag_port (tag : Nat) (s : State) : (freeTag tag s).port = s.port := rfl
@[simp] theorem freeTag_wbq (tag : Nat) (s : State) : (freeTag tag s).wbq = s.wbq := rfl
@[simp] theorem freeTag_regions (tag : Nat) (s : State) : (freeTag tag s).regions = s.regions := rfl
@[simp] theorem freeTag_patrol (tag : Nat) (s : State) : (freeTag tag s).patrol = s.patrol := rfl
@[simp] theorem freeTag_window (tag : Nat) (s : State) : (freeTag tag s).window = s.window := rfl
@[simp] theorem freeTag_fault (tag : Nat) (s : State) : (freeTag tag s).fault = s.fault := rfl
@[simp] theorem freeTag_repair (tag : Nat) (s : State) : (freeTag tag s).repair = s.repair := rfl
@[simp] theorem freeTag_hammer (tag : Nat) (s : State) : (freeTag tag s).hammer = s.hammer := rfl
@[simp] theorem freeTag_report (tag : Nat) (s : State) : (freeTag tag s).report = s.report := rfl
@[simp] theorem freeTag_maint (tag : Nat) (s : State) : (freeTag tag s).maint = s.maint := rfl
@[simp] theorem freeTag_params (tag : Nat) (s : State) : (freeTag tag s).params = s.params := rfl
@[simp] theorem freeTag_counters (tag : Nat) (s : State) : (freeTag tag s).counters = s.counters := rfl
@[simp] theorem freeTag_dram (tag : Nat) (s : State) : (freeTag tag s).dram = s.dram := rfl
@[simp] theorem freeTag_code (tag : Nat) (s : State) : (freeTag tag s).code = s.code := rfl
@[simp] theorem freeTag_pending (tag : Nat) (s : State) : (freeTag tag s).pending = s.pending := rfl

/-! ## handReturn: a return frame handed on -/

@[simp] theorem handReturn_port (f : ReturnFrame) (s : State) : (handReturn f s).port = s.port := rfl
@[simp] theorem handReturn_wbq (f : ReturnFrame) (s : State) : (handReturn f s).wbq = s.wbq := rfl
@[simp] theorem handReturn_regions (f : ReturnFrame) (s : State) : (handReturn f s).regions = s.regions := rfl
@[simp] theorem handReturn_patrol (f : ReturnFrame) (s : State) : (handReturn f s).patrol = s.patrol := rfl
@[simp] theorem handReturn_window (f : ReturnFrame) (s : State) : (handReturn f s).window = s.window := rfl
@[simp] theorem handReturn_fault (f : ReturnFrame) (s : State) : (handReturn f s).fault = s.fault := rfl
@[simp] theorem handReturn_repair (f : ReturnFrame) (s : State) : (handReturn f s).repair = s.repair := rfl
@[simp] theorem handReturn_hammer (f : ReturnFrame) (s : State) : (handReturn f s).hammer = s.hammer := rfl
@[simp] theorem handReturn_report (f : ReturnFrame) (s : State) : (handReturn f s).report = s.report := rfl
@[simp] theorem handReturn_maint (f : ReturnFrame) (s : State) : (handReturn f s).maint = s.maint := rfl
@[simp] theorem handReturn_params (f : ReturnFrame) (s : State) : (handReturn f s).params = s.params := rfl
@[simp] theorem handReturn_counters (f : ReturnFrame) (s : State) : (handReturn f s).counters = s.counters := rfl
@[simp] theorem handReturn_dram (f : ReturnFrame) (s : State) : (handReturn f s).dram = s.dram := rfl
@[simp] theorem handReturn_code (f : ReturnFrame) (s : State) : (handReturn f s).code = s.code := rfl
@[simp] theorem handReturn_pending (f : ReturnFrame) (s : State) : (handReturn f s).pending = s.pending := rfl

/-! ## takeAccess: an access taken -/

@[simp] theorem takeAccess_link (line : Nat) (kind : AccessKind) (phase : Phase) (s : State) : (takeAccess line kind phase s).link = s.link := rfl
@[simp] theorem takeAccess_wbq (line : Nat) (kind : AccessKind) (phase : Phase) (s : State) : (takeAccess line kind phase s).wbq = s.wbq := rfl
@[simp] theorem takeAccess_regions (line : Nat) (kind : AccessKind) (phase : Phase) (s : State) : (takeAccess line kind phase s).regions = s.regions := rfl
@[simp] theorem takeAccess_patrol (line : Nat) (kind : AccessKind) (phase : Phase) (s : State) : (takeAccess line kind phase s).patrol = s.patrol := rfl
@[simp] theorem takeAccess_window (line : Nat) (kind : AccessKind) (phase : Phase) (s : State) : (takeAccess line kind phase s).window = s.window := rfl
@[simp] theorem takeAccess_fault (line : Nat) (kind : AccessKind) (phase : Phase) (s : State) : (takeAccess line kind phase s).fault = s.fault := rfl
@[simp] theorem takeAccess_repair (line : Nat) (kind : AccessKind) (phase : Phase) (s : State) : (takeAccess line kind phase s).repair = s.repair := rfl
@[simp] theorem takeAccess_hammer (line : Nat) (kind : AccessKind) (phase : Phase) (s : State) : (takeAccess line kind phase s).hammer = s.hammer := rfl
@[simp] theorem takeAccess_report (line : Nat) (kind : AccessKind) (phase : Phase) (s : State) : (takeAccess line kind phase s).report = s.report := rfl
@[simp] theorem takeAccess_maint (line : Nat) (kind : AccessKind) (phase : Phase) (s : State) : (takeAccess line kind phase s).maint = s.maint := rfl
@[simp] theorem takeAccess_params (line : Nat) (kind : AccessKind) (phase : Phase) (s : State) : (takeAccess line kind phase s).params = s.params := rfl
@[simp] theorem takeAccess_counters (line : Nat) (kind : AccessKind) (phase : Phase) (s : State) : (takeAccess line kind phase s).counters = s.counters := rfl
@[simp] theorem takeAccess_dram (line : Nat) (kind : AccessKind) (phase : Phase) (s : State) : (takeAccess line kind phase s).dram = s.dram := rfl
@[simp] theorem takeAccess_code (line : Nat) (kind : AccessKind) (phase : Phase) (s : State) : (takeAccess line kind phase s).code = s.code := rfl
@[simp] theorem takeAccess_pending (line : Nat) (kind : AccessKind) (phase : Phase) (s : State) : (takeAccess line kind phase s).pending = s.pending := rfl

/-! ## setRegion: a region replaced -/

@[simp] theorem setRegion_link (i : Nat) (g : Region) (s : State) : (setRegion i g s).link = s.link := rfl
@[simp] theorem setRegion_port (i : Nat) (g : Region) (s : State) : (setRegion i g s).port = s.port := rfl
@[simp] theorem setRegion_wbq (i : Nat) (g : Region) (s : State) : (setRegion i g s).wbq = s.wbq := rfl
@[simp] theorem setRegion_patrol (i : Nat) (g : Region) (s : State) : (setRegion i g s).patrol = s.patrol := rfl
@[simp] theorem setRegion_window (i : Nat) (g : Region) (s : State) : (setRegion i g s).window = s.window := rfl
@[simp] theorem setRegion_fault (i : Nat) (g : Region) (s : State) : (setRegion i g s).fault = s.fault := rfl
@[simp] theorem setRegion_repair (i : Nat) (g : Region) (s : State) : (setRegion i g s).repair = s.repair := rfl
@[simp] theorem setRegion_hammer (i : Nat) (g : Region) (s : State) : (setRegion i g s).hammer = s.hammer := rfl
@[simp] theorem setRegion_report (i : Nat) (g : Region) (s : State) : (setRegion i g s).report = s.report := rfl
@[simp] theorem setRegion_maint (i : Nat) (g : Region) (s : State) : (setRegion i g s).maint = s.maint := rfl
@[simp] theorem setRegion_params (i : Nat) (g : Region) (s : State) : (setRegion i g s).params = s.params := rfl
@[simp] theorem setRegion_counters (i : Nat) (g : Region) (s : State) : (setRegion i g s).counters = s.counters := rfl
@[simp] theorem setRegion_dram (i : Nat) (g : Region) (s : State) : (setRegion i g s).dram = s.dram := rfl
@[simp] theorem setRegion_code (i : Nat) (g : Region) (s : State) : (setRegion i g s).code = s.code := rfl
@[simp] theorem setRegion_pending (i : Nat) (g : Region) (s : State) : (setRegion i g s).pending = s.pending := rfl

/-! ## setSweepState: a sweep state changed -/

@[simp] theorem setSweepState_link (i : Nat) (v : SweepState) (s : State) : (setSweepState i v s).link = s.link := rfl
@[simp] theorem setSweepState_port (i : Nat) (v : SweepState) (s : State) : (setSweepState i v s).port = s.port := rfl
@[simp] theorem setSweepState_wbq (i : Nat) (v : SweepState) (s : State) : (setSweepState i v s).wbq = s.wbq := rfl
@[simp] theorem setSweepState_patrol (i : Nat) (v : SweepState) (s : State) : (setSweepState i v s).patrol = s.patrol := rfl
@[simp] theorem setSweepState_window (i : Nat) (v : SweepState) (s : State) : (setSweepState i v s).window = s.window := rfl
@[simp] theorem setSweepState_fault (i : Nat) (v : SweepState) (s : State) : (setSweepState i v s).fault = s.fault := rfl
@[simp] theorem setSweepState_repair (i : Nat) (v : SweepState) (s : State) : (setSweepState i v s).repair = s.repair := rfl
@[simp] theorem setSweepState_hammer (i : Nat) (v : SweepState) (s : State) : (setSweepState i v s).hammer = s.hammer := rfl
@[simp] theorem setSweepState_report (i : Nat) (v : SweepState) (s : State) : (setSweepState i v s).report = s.report := rfl
@[simp] theorem setSweepState_maint (i : Nat) (v : SweepState) (s : State) : (setSweepState i v s).maint = s.maint := rfl
@[simp] theorem setSweepState_params (i : Nat) (v : SweepState) (s : State) : (setSweepState i v s).params = s.params := rfl
@[simp] theorem setSweepState_counters (i : Nat) (v : SweepState) (s : State) : (setSweepState i v s).counters = s.counters := rfl
@[simp] theorem setSweepState_dram (i : Nat) (v : SweepState) (s : State) : (setSweepState i v s).dram = s.dram := rfl
@[simp] theorem setSweepState_code (i : Nat) (v : SweepState) (s : State) : (setSweepState i v s).code = s.code := rfl
@[simp] theorem setSweepState_pending (i : Nat) (v : SweepState) (s : State) : (setSweepState i v s).pending = s.pending := rfl

/-! ## setFault: a row entry replaced -/

@[simp] theorem setFault_link (i : Nat) (e : FaultEntry) (s : State) : (setFault i e s).link = s.link := rfl
@[simp] theorem setFault_port (i : Nat) (e : FaultEntry) (s : State) : (setFault i e s).port = s.port := rfl
@[simp] theorem setFault_wbq (i : Nat) (e : FaultEntry) (s : State) : (setFault i e s).wbq = s.wbq := rfl
@[simp] theorem setFault_regions (i : Nat) (e : FaultEntry) (s : State) : (setFault i e s).regions = s.regions := rfl
@[simp] theorem setFault_patrol (i : Nat) (e : FaultEntry) (s : State) : (setFault i e s).patrol = s.patrol := rfl
@[simp] theorem setFault_window (i : Nat) (e : FaultEntry) (s : State) : (setFault i e s).window = s.window := rfl
@[simp] theorem setFault_repair (i : Nat) (e : FaultEntry) (s : State) : (setFault i e s).repair = s.repair := rfl
@[simp] theorem setFault_hammer (i : Nat) (e : FaultEntry) (s : State) : (setFault i e s).hammer = s.hammer := rfl
@[simp] theorem setFault_report (i : Nat) (e : FaultEntry) (s : State) : (setFault i e s).report = s.report := rfl
@[simp] theorem setFault_maint (i : Nat) (e : FaultEntry) (s : State) : (setFault i e s).maint = s.maint := rfl
@[simp] theorem setFault_params (i : Nat) (e : FaultEntry) (s : State) : (setFault i e s).params = s.params := rfl
@[simp] theorem setFault_counters (i : Nat) (e : FaultEntry) (s : State) : (setFault i e s).counters = s.counters := rfl
@[simp] theorem setFault_dram (i : Nat) (e : FaultEntry) (s : State) : (setFault i e s).dram = s.dram := rfl
@[simp] theorem setFault_code (i : Nat) (e : FaultEntry) (s : State) : (setFault i e s).code = s.code := rfl
@[simp] theorem setFault_pending (i : Nat) (e : FaultEntry) (s : State) : (setFault i e s).pending = s.pending := rfl

/-! ## setDevice: a device score replaced -/

@[simp] theorem setDevice_link (rank device : Nat) (d : DeviceScore) (s : State) : (setDevice rank device d s).link = s.link := rfl
@[simp] theorem setDevice_port (rank device : Nat) (d : DeviceScore) (s : State) : (setDevice rank device d s).port = s.port := rfl
@[simp] theorem setDevice_wbq (rank device : Nat) (d : DeviceScore) (s : State) : (setDevice rank device d s).wbq = s.wbq := rfl
@[simp] theorem setDevice_regions (rank device : Nat) (d : DeviceScore) (s : State) : (setDevice rank device d s).regions = s.regions := rfl
@[simp] theorem setDevice_patrol (rank device : Nat) (d : DeviceScore) (s : State) : (setDevice rank device d s).patrol = s.patrol := rfl
@[simp] theorem setDevice_window (rank device : Nat) (d : DeviceScore) (s : State) : (setDevice rank device d s).window = s.window := rfl
@[simp] theorem setDevice_repair (rank device : Nat) (d : DeviceScore) (s : State) : (setDevice rank device d s).repair = s.repair := rfl
@[simp] theorem setDevice_hammer (rank device : Nat) (d : DeviceScore) (s : State) : (setDevice rank device d s).hammer = s.hammer := rfl
@[simp] theorem setDevice_report (rank device : Nat) (d : DeviceScore) (s : State) : (setDevice rank device d s).report = s.report := rfl
@[simp] theorem setDevice_maint (rank device : Nat) (d : DeviceScore) (s : State) : (setDevice rank device d s).maint = s.maint := rfl
@[simp] theorem setDevice_params (rank device : Nat) (d : DeviceScore) (s : State) : (setDevice rank device d s).params = s.params := rfl
@[simp] theorem setDevice_counters (rank device : Nat) (d : DeviceScore) (s : State) : (setDevice rank device d s).counters = s.counters := rfl
@[simp] theorem setDevice_dram (rank device : Nat) (d : DeviceScore) (s : State) : (setDevice rank device d s).dram = s.dram := rfl
@[simp] theorem setDevice_code (rank device : Nat) (d : DeviceScore) (s : State) : (setDevice rank device d s).code = s.code := rfl
@[simp] theorem setDevice_pending (rank device : Nat) (d : DeviceScore) (s : State) : (setDevice rank device d s).pending = s.pending := rfl

/-! ## setSlot: a spare slot replaced -/

@[simp] theorem setSlot_link (rank bank k : Nat) (v : Slot) (s : State) : (setSlot rank bank k v s).link = s.link := rfl
@[simp] theorem setSlot_port (rank bank k : Nat) (v : Slot) (s : State) : (setSlot rank bank k v s).port = s.port := rfl
@[simp] theorem setSlot_wbq (rank bank k : Nat) (v : Slot) (s : State) : (setSlot rank bank k v s).wbq = s.wbq := rfl
@[simp] theorem setSlot_regions (rank bank k : Nat) (v : Slot) (s : State) : (setSlot rank bank k v s).regions = s.regions := rfl
@[simp] theorem setSlot_patrol (rank bank k : Nat) (v : Slot) (s : State) : (setSlot rank bank k v s).patrol = s.patrol := rfl
@[simp] theorem setSlot_window (rank bank k : Nat) (v : Slot) (s : State) : (setSlot rank bank k v s).window = s.window := rfl
@[simp] theorem setSlot_fault (rank bank k : Nat) (v : Slot) (s : State) : (setSlot rank bank k v s).fault = s.fault := rfl
@[simp] theorem setSlot_hammer (rank bank k : Nat) (v : Slot) (s : State) : (setSlot rank bank k v s).hammer = s.hammer := rfl
@[simp] theorem setSlot_report (rank bank k : Nat) (v : Slot) (s : State) : (setSlot rank bank k v s).report = s.report := rfl
@[simp] theorem setSlot_maint (rank bank k : Nat) (v : Slot) (s : State) : (setSlot rank bank k v s).maint = s.maint := rfl
@[simp] theorem setSlot_params (rank bank k : Nat) (v : Slot) (s : State) : (setSlot rank bank k v s).params = s.params := rfl
@[simp] theorem setSlot_counters (rank bank k : Nat) (v : Slot) (s : State) : (setSlot rank bank k v s).counters = s.counters := rfl
@[simp] theorem setSlot_dram (rank bank k : Nat) (v : Slot) (s : State) : (setSlot rank bank k v s).dram = s.dram := rfl
@[simp] theorem setSlot_code (rank bank k : Nat) (v : Slot) (s : State) : (setSlot rank bank k v s).code = s.code := rfl
@[simp] theorem setSlot_pending (rank bank k : Nat) (v : Slot) (s : State) : (setSlot rank bank k v s).pending = s.pending := rfl

/-! ## setTsq: a targeted job changed -/

@[simp] theorem setTsq_link (e : TsqEntry) (s : State) : (setTsq e s).link = s.link := rfl
@[simp] theorem setTsq_port (e : TsqEntry) (s : State) : (setTsq e s).port = s.port := rfl
@[simp] theorem setTsq_wbq (e : TsqEntry) (s : State) : (setTsq e s).wbq = s.wbq := rfl
@[simp] theorem setTsq_regions (e : TsqEntry) (s : State) : (setTsq e s).regions = s.regions := rfl
@[simp] theorem setTsq_window (e : TsqEntry) (s : State) : (setTsq e s).window = s.window := rfl
@[simp] theorem setTsq_fault (e : TsqEntry) (s : State) : (setTsq e s).fault = s.fault := rfl
@[simp] theorem setTsq_repair (e : TsqEntry) (s : State) : (setTsq e s).repair = s.repair := rfl
@[simp] theorem setTsq_hammer (e : TsqEntry) (s : State) : (setTsq e s).hammer = s.hammer := rfl
@[simp] theorem setTsq_report (e : TsqEntry) (s : State) : (setTsq e s).report = s.report := rfl
@[simp] theorem setTsq_maint (e : TsqEntry) (s : State) : (setTsq e s).maint = s.maint := rfl
@[simp] theorem setTsq_params (e : TsqEntry) (s : State) : (setTsq e s).params = s.params := rfl
@[simp] theorem setTsq_counters (e : TsqEntry) (s : State) : (setTsq e s).counters = s.counters := rfl
@[simp] theorem setTsq_dram (e : TsqEntry) (s : State) : (setTsq e s).dram = s.dram := rfl
@[simp] theorem setTsq_code (e : TsqEntry) (s : State) : (setTsq e s).code = s.code := rfl
@[simp] theorem setTsq_pending (e : TsqEntry) (s : State) : (setTsq e s).pending = s.pending := rfl

/-! ## removeTsq: a targeted job removed -/

@[simp] theorem removeTsq_link (e : TsqEntry) (s : State) : (removeTsq e s).link = s.link := rfl
@[simp] theorem removeTsq_port (e : TsqEntry) (s : State) : (removeTsq e s).port = s.port := rfl
@[simp] theorem removeTsq_wbq (e : TsqEntry) (s : State) : (removeTsq e s).wbq = s.wbq := rfl
@[simp] theorem removeTsq_regions (e : TsqEntry) (s : State) : (removeTsq e s).regions = s.regions := rfl
@[simp] theorem removeTsq_window (e : TsqEntry) (s : State) : (removeTsq e s).window = s.window := rfl
@[simp] theorem removeTsq_fault (e : TsqEntry) (s : State) : (removeTsq e s).fault = s.fault := rfl
@[simp] theorem removeTsq_repair (e : TsqEntry) (s : State) : (removeTsq e s).repair = s.repair := rfl
@[simp] theorem removeTsq_hammer (e : TsqEntry) (s : State) : (removeTsq e s).hammer = s.hammer := rfl
@[simp] theorem removeTsq_report (e : TsqEntry) (s : State) : (removeTsq e s).report = s.report := rfl
@[simp] theorem removeTsq_maint (e : TsqEntry) (s : State) : (removeTsq e s).maint = s.maint := rfl
@[simp] theorem removeTsq_params (e : TsqEntry) (s : State) : (removeTsq e s).params = s.params := rfl
@[simp] theorem removeTsq_counters (e : TsqEntry) (s : State) : (removeTsq e s).counters = s.counters := rfl
@[simp] theorem removeTsq_dram (e : TsqEntry) (s : State) : (removeTsq e s).dram = s.dram := rfl
@[simp] theorem removeTsq_code (e : TsqEntry) (s : State) : (removeTsq e s).code = s.code := rfl
@[simp] theorem removeTsq_pending (e : TsqEntry) (s : State) : (removeTsq e s).pending = s.pending := rfl

/-! ## setHammer: an activation entry replaced -/

@[simp] theorem setHammer_link (rank i : Nat) (e : HammerEntry) (s : State) : (setHammer rank i e s).link = s.link := rfl
@[simp] theorem setHammer_port (rank i : Nat) (e : HammerEntry) (s : State) : (setHammer rank i e s).port = s.port := rfl
@[simp] theorem setHammer_wbq (rank i : Nat) (e : HammerEntry) (s : State) : (setHammer rank i e s).wbq = s.wbq := rfl
@[simp] theorem setHammer_regions (rank i : Nat) (e : HammerEntry) (s : State) : (setHammer rank i e s).regions = s.regions := rfl
@[simp] theorem setHammer_patrol (rank i : Nat) (e : HammerEntry) (s : State) : (setHammer rank i e s).patrol = s.patrol := rfl
@[simp] theorem setHammer_window (rank i : Nat) (e : HammerEntry) (s : State) : (setHammer rank i e s).window = s.window := rfl
@[simp] theorem setHammer_fault (rank i : Nat) (e : HammerEntry) (s : State) : (setHammer rank i e s).fault = s.fault := rfl
@[simp] theorem setHammer_repair (rank i : Nat) (e : HammerEntry) (s : State) : (setHammer rank i e s).repair = s.repair := rfl
@[simp] theorem setHammer_report (rank i : Nat) (e : HammerEntry) (s : State) : (setHammer rank i e s).report = s.report := rfl
@[simp] theorem setHammer_maint (rank i : Nat) (e : HammerEntry) (s : State) : (setHammer rank i e s).maint = s.maint := rfl
@[simp] theorem setHammer_params (rank i : Nat) (e : HammerEntry) (s : State) : (setHammer rank i e s).params = s.params := rfl
@[simp] theorem setHammer_counters (rank i : Nat) (e : HammerEntry) (s : State) : (setHammer rank i e s).counters = s.counters := rfl
@[simp] theorem setHammer_dram (rank i : Nat) (e : HammerEntry) (s : State) : (setHammer rank i e s).dram = s.dram := rfl
@[simp] theorem setHammer_code (rank i : Nat) (e : HammerEntry) (s : State) : (setHammer rank i e s).code = s.code := rfl
@[simp] theorem setHammer_pending (rank i : Nat) (e : HammerEntry) (s : State) : (setHammer rank i e s).pending = s.pending := rfl

/-! ## setEngine: the engine state set -/

@[simp] theorem setEngine_link (e : EngineState) (s : State) : (setEngine e s).link = s.link := rfl
@[simp] theorem setEngine_port (e : EngineState) (s : State) : (setEngine e s).port = s.port := rfl
@[simp] theorem setEngine_wbq (e : EngineState) (s : State) : (setEngine e s).wbq = s.wbq := rfl
@[simp] theorem setEngine_regions (e : EngineState) (s : State) : (setEngine e s).regions = s.regions := rfl
@[simp] theorem setEngine_window (e : EngineState) (s : State) : (setEngine e s).window = s.window := rfl
@[simp] theorem setEngine_fault (e : EngineState) (s : State) : (setEngine e s).fault = s.fault := rfl
@[simp] theorem setEngine_repair (e : EngineState) (s : State) : (setEngine e s).repair = s.repair := rfl
@[simp] theorem setEngine_hammer (e : EngineState) (s : State) : (setEngine e s).hammer = s.hammer := rfl
@[simp] theorem setEngine_report (e : EngineState) (s : State) : (setEngine e s).report = s.report := rfl
@[simp] theorem setEngine_maint (e : EngineState) (s : State) : (setEngine e s).maint = s.maint := rfl
@[simp] theorem setEngine_params (e : EngineState) (s : State) : (setEngine e s).params = s.params := rfl
@[simp] theorem setEngine_counters (e : EngineState) (s : State) : (setEngine e s).counters = s.counters := rfl
@[simp] theorem setEngine_dram (e : EngineState) (s : State) : (setEngine e s).dram = s.dram := rfl
@[simp] theorem setEngine_code (e : EngineState) (s : State) : (setEngine e s).code = s.code := rfl
@[simp] theorem setEngine_pending (e : EngineState) (s : State) : (setEngine e s).pending = s.pending := rfl

/-! ## What the small updates write -/

@[simp] theorem count_counters (c : Ctr) (s : State) :
    (count c s).counters = s.counters.put (satAdd (s.counters.get c) 1) c := rfl

@[simp] theorem countBy_counters (c : Ctr) (n : Nat) (s : State) :
    (countBy c n s).counters = s.counters.put (satAdd (s.counters.get c) n) c := rfl

@[simp] theorem handReturn_link (f : ReturnFrame) (s : State) :
    (handReturn f s).link = { s.link with returns := s.link.returns ++ [f] } := rfl

@[simp] theorem takeAccess_port (line : Nat) (kind : AccessKind) (phase : Phase) (s : State) :
    (takeAccess line kind phase s).port =
      { s.port with accesses := s.port.accesses ++ [{ line := line, kind := kind, phase := phase }] } := rfl

@[simp] theorem setRegion_regions (i : Nat) (g : Region) (s : State) :
    (setRegion i g s).regions = s.regions.set i g := rfl

@[simp] theorem setFault_fault (i : Nat) (e : FaultEntry) (s : State) :
    (setFault i e s).fault = { s.fault with entries := s.fault.entries.set i e } := rfl

@[simp] theorem setDevice_fault (rank device : Nat) (d : DeviceScore) (s : State) :
    (setDevice rank device d s).fault = { s.fault with devices := s.fault.devices.set (rank * 20 + device) d } := rfl

@[simp] theorem setEngine_patrol (e : EngineState) (s : State) :
    (setEngine e s).patrol = { s.patrol with engine := e } := rfl

/-- A counter's value after it is put. -/
theorem Counters.get_put_self (k : Counters) (v : Nat) (c : Ctr) : (k.put v c).get c = v := by cases c <;> rfl

/-- The other counters keep their values. -/
theorem Counters.get_put_other (k : Counters) (v : Nat) (c d : Ctr) (h : c ≠ d) : (k.put v c).get d = k.get d := by
  cases c <;> first
    | (cases d <;> first | rfl | exact absurd rfl h)

end Sys2Proof.Machine
end

