-- ==== Sys2Proof/Laws/Notes.lean ====
section
/-! SUPPORT. What raising a cause, sending an alert and handing on a record can do to the state, said once. -/

namespace Sys2Proof.Machine

open Sys2Proof

/-- What the return queue becomes by alerts alone: the tagged returns stay, and no second ALERT waits. -/
def AlertStep (l q : Link) : Prop :=
  q.begun = l.begun ∧ plain q.returns = plain l.returns ∧ (OneAlertWaits l → OneAlertWaits q)

theorem AlertStep.refl (l : Link) : AlertStep l l := ⟨rfl, rfl, id⟩

/-- An alert step that moves nothing but the return queue. -/
theorem AlertStep.only {l q : Link} (h : AlertStep l q) : AlertStep l { l with returns := q.returns } := by
  obtain ⟨h1, h2, h3⟩ := h
  refine ⟨rfl, h2, fun x => ?_⟩
  have := h3 x
  simp only [OneAlertWaits, Link.waiting, Link.underWay, h1] at this ⊢
  exact this

theorem AlertStep.trans {a b c : Link} (h : AlertStep a b) (k : AlertStep b c) : AlertStep a c :=
  ⟨k.1.trans h.1, k.2.1.trans h.2.1, fun x => k.2.2 (h.2.2 x)⟩

/-- Each entry of a Write-back Queue has its one write in line order (R43, R47), said of the two lists. -/
def Listed (l : List Access) (q : List WbEntry) : Prop :=
  ∀ line, (l.filter fun a => a.kind == .writeBack && a.line == line).map Access.phase =
    (q.filter fun e => e.line == line).map WbEntry.phase

theorem writebacksListed_iff (s : State) : WritebacksListed s ↔ Listed s.port.accesses s.wbq := Iff.rfl

/-- How many accesses in line order have a tag. -/
def tagged (l : List Access) (tag : Nat) : Nat := l.countP fun a => a.kind.tag? == some tag

/-- What becomes of line order and the Write-back Queue by the blocks' own work: entries leave the queue, each with its
write, none joins, and the demand accesses keep their tags. -/
def WorkStep (l : List Access) (q : List WbEntry) (m : List Access) (r : List WbEntry) : Prop :=
  r.Sublist q ∧ (Listed l q → Listed m r) ∧ ∀ tag, tagged m tag = tagged l tag

theorem WorkStep.refl (l : List Access) (q : List WbEntry) : WorkStep l q l q := ⟨List.Sublist.refl _, id, fun _ => rfl⟩

theorem WorkStep.trans {l m n : List Access} {q r v : List WbEntry} (h : WorkStep l q m r) (k : WorkStep m r n v) :
    WorkStep l q n v :=
  ⟨k.1.trans h.1, k.2.1 ∘ h.2.1, fun tag => (k.2.2 tag).trans (h.2.2 tag)⟩

/-- An access that is neither a write-back nor a demand access joins line order. -/
theorem WorkStep.join (l : List Access) (q : List WbEntry) (a : Access) (hw : a.kind ≠ .writeBack)
    (ht : a.kind.tag? = none) : WorkStep l q (l ++ [a]) q := by
  refine ⟨List.Sublist.refl _, fun h line => ?_, fun tag => ?_⟩
  · rw [List.filter_append]
    simpa [hw] using h line
  · simp [tagged, ht]

/-- The entries of a line leave the queue, with their writes. -/
theorem WorkStep.remove (l : List Access) (q : List WbEntry) (line : Nat) :
    WorkStep l q (l.filter fun a => !(a.line == line && a.kind == .writeBack)) (q.filter fun e => e.line != line) := by
  refine ⟨List.filter_sublist, fun h n => ?_, fun tag => ?_⟩
  · simp only [List.filter_filter]
    by_cases hn : n = line
    · subst hn
      rw [List.filter_eq_nil_iff.2, List.filter_eq_nil_iff.2]
      · rfl
      · intro e _ he
        simp only [Bool.and_eq_true, beq_iff_eq, bne_iff_ne] at he
        exact he.2 he.1
      · intro a _ ha
        simp only [Bool.and_eq_true, beq_iff_eq, Bool.not_eq_true', Bool.and_eq_false_iff] at ha
        rcases ha.2 with h1 | h1 <;> simp_all
    · have e1 : ∀ a : Access, ((a.kind == .writeBack && a.line == n) && !(a.line == line && a.kind == .writeBack)) =
          (a.kind == .writeBack && a.line == n) := by
        intro a
        by_cases ha : a.line = n
        · simp [ha, hn]
        · simp [ha]
      have e2 : ∀ e : WbEntry, (e.line == n && e.line != line) = (e.line == n) := by
        intro e
        by_cases he : e.line = n
        · simp [he, hn]
        · simp [he]
      simp only [e1, e2]
      exact h n
  · unfold tagged
    rw [List.countP_filter]
    refine List.countP_congr fun a _ => ?_
    by_cases hk : a.kind = .writeBack
    · simp [hk, AccessKind.tag?]
    · simp [hk]

/-- What the Report Unit's own state becomes by placing, losing and announcing: setup, C and masks stay, and the queue
stays in order. -/
def Report.Later (r p : Report) : Prop :=
  p.setUp = r.setUp ∧ p.base = r.base ∧ p.sizeExp = r.sizeExp ∧ p.consumed = r.consumed ∧ p.mask = r.mask ∧
  (r.InOrder → r.Fits → p.InOrder ∧ p.Fits)

theorem Report.Later.refl (r : Report) : r.Later r := ⟨rfl, rfl, rfl, rfl, rfl, fun h k => ⟨h, k⟩⟩

theorem Report.Later.trans {a b c : Report} (h : a.Later b) (k : b.Later c) : a.Later c := by
  obtain ⟨h1, h2, h3, h4, h5, h6⟩ := h
  obtain ⟨k1, k2, k3, k4, k5, k6⟩ := k
  exact ⟨k1.trans h1, k2.trans h2, k3.trans h3, k4.trans h4, k5.trans h5,
    fun x y => k6 (h6 x y).1 (h6 x y).2⟩

/-- The effect of causes, alerts and records: nothing else of the state moves. -/
def Noted (s t : State) : Prop :=
  AlertStep s.link t.link ∧ WorkStep s.port.accesses s.wbq t.port.accesses t.wbq ∧ s.report.Later t.report ∧
  t = { s with link := { s.link with returns := t.link.returns }
               port := { s.port with accesses := t.port.accesses }
               wbq := t.wbq, report := t.report, counters := t.counters }

theorem Noted.refl (s : State) : Noted s s := ⟨.refl _, .refl _ _, .refl _, rfl⟩

theorem Noted.trans {a b c : State} (h : Noted a b) (k : Noted b c) : Noted a c := by
  obtain ⟨h1, h2, h3, h4⟩ := h
  obtain ⟨k1, k2, k3, k4⟩ := k
  refine ⟨h1.trans k1, h2.trans k2, h3.trans k3, ?_⟩
  rw [k4, h4]

theorem Noted.count (c : Ctr) (s : State) : Noted s (count c s) :=
  ⟨.refl _, .refl _ _, .refl _, rfl⟩

theorem Noted.countBy (c : Ctr) (n : Nat) (s : State) : Noted s (countBy c n s) :=
  ⟨.refl _, .refl _ _, .refl _, rfl⟩

theorem Noted.takeAccess (line : Nat) (kind : AccessKind) (phase : Phase) (s : State) (hw : kind ≠ .writeBack)
    (ht : kind.tag? = none) : Noted s (takeAccess line kind phase s) :=
  ⟨.refl _, .join _ _ _ hw ht, .refl _, rfl⟩

/-- What causes, alerts and announcements change of the Report Unit: flags, the holdoff, the unannounced count and its
timer. -/
def Report.Flagged (r p : Report) : Prop :=
  p = { r with pending := p.pending, alerted := p.alerted, holdoffEnd := p.holdoffEnd, unannounced := p.unannounced
               ageStart := p.ageStart }

theorem Report.Flagged.refl (r : Report) : r.Flagged r := rfl

theorem Report.Flagged.trans {a b c : Report} (h : a.Flagged b) (k : b.Flagged c) : a.Flagged c := by
  unfold Report.Flagged at *
  rw [k, h]

theorem Report.Flagged.later {r p : Report} (h : r.Flagged p) : r.Later p := by
  rw [h]
  exact ⟨rfl, rfl, rfl, rfl, rfl, fun x y => ⟨x, y⟩⟩

/-- The effect of causes and alerts: nothing else of the state moves. -/
def Alerted (s t : State) : Prop :=
  AlertStep s.link t.link ∧ s.report.Flagged t.report ∧
  t = { s with link := { s.link with returns := t.link.returns }, report := t.report, counters := t.counters }

theorem Alerted.refl (s : State) : Alerted s s := ⟨.refl _, .refl _, rfl⟩

theorem Alerted.trans {a b c : State} (h : Alerted a b) (k : Alerted b c) : Alerted a c := by
  obtain ⟨h1, h2, h3⟩ := h
  obtain ⟨k1, k2, k3⟩ := k
  refine ⟨h1.trans k1, h2.trans k2, ?_⟩
  rw [k3, h3]

theorem Alerted.noted {s t : State} (h : Alerted s t) : Noted s t := by
  obtain ⟨h1, h2, h3⟩ := h
  rw [h3]
  exact ⟨h1.only, .refl _ _, h2.later, rfl⟩

theorem Alerted.count (c : Ctr) (s : State) : Alerted s (count c s) := ⟨.refl _, .refl _, rfl⟩

/-- A report changed within Flagged. -/
theorem Alerted.report (s : State) (p : Report) (h : s.report.Flagged p) : Alerted s { s with report := p } :=
  ⟨.refl _, h, rfl⟩

theorem plain_append (l q : List ReturnFrame) : plain (l ++ q) = plain l ++ plain q := by simp [plain]

/-- An ALERT at the tail or in the place of the waiting one. -/
theorem handAlert_step (f : ReturnFrame) (hf : f.isAlert = true) (s : State) :
    AlertStep s.link (handAlert f s).link := by
  unfold handAlert
  split
  · rename_i h
    simp only [count_link]
    have hm : ∀ l : List ReturnFrame,
        plain (l.map fun g => if g.isAlert then f else g) = plain l ∧
        (l.map fun g => if g.isAlert then f else g).countP ReturnFrame.isAlert = l.countP ReturnFrame.isAlert := by
      intro l
      induction l with
      | nil => exact ⟨rfl, rfl⟩
      | cons b l ih =>
        obtain ⟨i1, i2⟩ := ih
        simp only [plain] at i1
        by_cases hb : b.isAlert <;> simp_all [plain]
    have hs : s.link.returns = s.link.returns.take s.link.underWay ++ s.link.waiting :=
      (List.take_append_drop _ _).symm
    have hl : (s.link.returns.take s.link.underWay).length = min s.link.underWay s.link.returns.length := by simp
    refine ⟨rfl, ?_, ?_⟩
    · rw [plain_append, (hm _).1, ← plain_append, ← hs]
    · rintro ⟨hb, hw⟩
      refine ⟨fun hbg => ?_, ?_⟩
      · have := hb hbg
        intro hn
        have hn' := List.append_eq_nil_iff.mp hn
        exact this (hs.trans (by rw [hn'.1]; simpa using hn'.2))
      · show ((_ ++ _ : List ReturnFrame).drop s.link.underWay).countP ReturnFrame.isAlert ≤ 1
        have hu : s.link.underWay ≤ s.link.returns.length := by
          cases hbg : s.link.begun with
          | false => simp [Link.underWay, hbg]
          | true =>
            have := List.length_pos_iff.mpr (hb hbg)
            simp [Link.underWay, hbg]
            omega
        rw [List.drop_append_of_le_length (by rw [hl]; omega), List.drop_take_self, List.nil_append, (hm _).2]
        exact hw
  · rename_i h
    refine ⟨rfl, by simp [plain, hf], ?_⟩
    rintro ⟨hb, _⟩
    refine ⟨fun hbg => by simp [handReturn_link], ?_⟩
    have h0 : s.link.waiting.countP ReturnFrame.isAlert = 0 := by
      simpa [List.countP_eq_zero] using h
    show ((s.link.returns ++ [f]).drop s.link.underWay).countP ReturnFrame.isAlert ≤ 1
    rw [List.drop_append, List.countP_append]
    have : (([f] : List ReturnFrame).drop (s.link.underWay - s.link.returns.length)).countP ReturnFrame.isAlert ≤ 1 :=
      (List.countP_le_length).trans (by simp)
    have h1 : (s.link.returns.drop s.link.underWay).countP ReturnFrame.isAlert = 0 := h0
    omega

theorem handAlert_alerted (f : ReturnFrame) (hf : f.isAlert = true) (s : State) : Alerted s (handAlert f s) := by
  refine ⟨handAlert_step f hf s, ?_⟩
  unfold handAlert
  split
  · exact ⟨.refl _, rfl⟩
  · exact ⟨.refl _, rfl⟩

theorem Alerted.ite {p : Prop} [Decidable p] {s a b : State} (h : Alerted s a) (k : Alerted s b) :
    Alerted s (if p then a else b) := by split <;> assumption

theorem sendAlert_alerted (s : State) : Alerted s (sendAlert s) := by
  have h := handAlert_alerted (.alert (s.report.pending &&& ~~~s.report.mask) s.wall) rfl s
  have k : ∀ (u : State) (a : BitVec 16) (t : Option Elapsed),
      Alerted u (Machine.count .alertsSent { u with report := { u.report with alerted := a, holdoffEnd := t } }) :=
    fun _ _ _ => ⟨.refl _, rfl, rfl⟩
  exact h.trans (k _ _ _)

theorem testAlert_alerted (s : State) : Alerted s (testAlert s) := by
  unfold testAlert
  split
  · exact .refl _
  · split
    · exact sendAlert_alerted s
    · exact .refl _

theorem raiseSet_alerted (c : BitVec 16) (s : State) : Alerted s (raiseSet c s) :=
  (Alerted.report s { s.report with pending := s.report.pending ||| c } rfl).trans (testAlert_alerted _)

theorem raise_alerted (c : Cause) (s : State) : Alerted s (raise c s) := raiseSet_alerted _ s

theorem announce_alerted (s : State) : Alerted s (announce s) :=
  (Alerted.report s { s.report with unannounced := 0, ageStart := none } rfl).trans (raise_alerted _ _)

theorem addUnannounced_alerted (s : State) : Alerted s (addUnannounced s) := by
  have h : Alerted s { s with report := { s.report with
      unannounced := s.report.unannounced + 1
      ageStart := if s.report.unannounced = 0 then some s.now else s.report.ageStart } } := ⟨.refl _, rfl, rfl⟩
  exact h.trans (.ite (announce_alerted _) (.refl _))

theorem reviewReadyCount_alerted (s : State) : Alerted s (reviewReadyCount s) := by
  unfold reviewReadyCount
  split
  · exact announce_alerted s
  · exact .refl s

theorem reviewReadyAge_alerted (s : State) : Alerted s (reviewReadyAge s) := by
  unfold reviewReadyAge
  split
  · split
    · exact announce_alerted s
    · exact .refl s
  · exact .refl s

/-! ## Records -/

/-- A record joins the queue in order when the queue and the ring have room (R170). -/
theorem Report.Later.placed (r : Report) (h8 : (r.produced - r.written).toNat < 8)
    (hc : r.setUp = true → (r.produced - r.consumed).toNat < 2 ^ r.sizeExp) :
    r.Later { r with produced := r.produced + 1
                     queue := r.queue ++ [{ sequence := r.produced, performed := false }] } := by
  refine ⟨rfl, rfl, rfl, rfl, rfl, ?_⟩
  rintro ⟨i1, i2, i3, i4⟩ hf
  have hlen : r.queue.length < 8 := by
    have : Config.recordCapacity = 8 := rfl
    have e : r.produced - r.written = BitVec.ofNat 32 r.queue.length := by rw [i2]; bv_omega
    rw [e, BitVec.toNat_ofNat] at h8
    omega
  refine ⟨⟨?_, ?_, ?_, ?_⟩, ?_⟩
  · simp only [List.length_append, List.length_singleton]
    exact hlen
  · simp only [List.length_append, List.length_singleton]
    rw [i2]
    have : BitVec.ofNat 32 (r.queue.length + 1) = BitVec.ofNat 32 r.queue.length + 1 := by
      simp [BitVec.ofNat_add]
    rw [this, BitVec.add_assoc]
  · simp only [List.map_append, List.length_append, List.length_singleton, List.range_succ, i3]
    simp [i2]
  · intro q hq
    simp only [List.head?_append] at hq
    cases hh : r.queue.head? with
    | none => simp [hh] at hq; rw [← hq]
    | some x =>
      simp [hh] at hq
      exact hq ▸ i4 x (by simp [hh])
  · intro hs
    obtain ⟨f1, f2, f3, f4⟩ := hf hs
    have := hc hs
    have hp : 2 ^ r.sizeExp ≤ 2 ^ 16 := Nat.pow_le_pow_right (by omega) f2
    have e : (r.produced + 1 - r.consumed).toNat = (r.produced - r.consumed).toNat + 1 := by bv_omega
    refine ⟨f1, f2, ?_, ?_⟩
    · simp only [List.length_append, List.length_singleton, e]
      omega
    · simp only [e]
      omega

/-- A report changed within Later. -/
theorem Noted.report (s : State) (p : Report) (h : s.report.Later p) : Noted s { s with report := p } :=
  ⟨.refl _, .refl _ _, h, rfl⟩

theorem wbRemove_noted (line : Nat) (s : State) : Noted s (wbRemove line s) :=
  ⟨.refl _, .remove _ _ line, .refl _, rfl⟩

theorem wbCancel_noted (line : Nat) (s : State) : Noted s (wbCancel line s) := by
  unfold wbCancel
  split
  · split
    · exact .refl s
    · exact (wbRemove_noted line s).trans (.count _ _)
  · exact .refl s

/-- What placing a record does to the report: sequence P is taken and queued. -/
theorem placeRecord_report (r : Record) (s : State) :
    (placeRecord r s).report = { s.report with
      produced := s.report.produced + 1
      queue := s.report.queue ++ [{ sequence := s.report.produced, performed := false }] } := by
  unfold placeRecord
  simp only [count_report, takeAccess_report]
  unfold wbCancel
  split
  · split <;> rfl
  · rfl

theorem placeRecord_noted (r : Record) (s : State) (h8 : (s.report.produced - s.report.written).toNat < 8)
    (hc : s.report.setUp = true → (s.report.produced - s.report.consumed).toNat < 2 ^ s.report.sizeExp) :
    Noted s (placeRecord r s) := by
  unfold placeRecord
  exact (Noted.report s _ (.placed s.report h8 hc)).trans
    ((wbCancel_noted _ _).trans ((Noted.takeAccess _ _ _ _ (by simp) rfl).trans (.count _ _)))

theorem loseRecord_noted (s : State) : Noted s (loseRecord s) := by
  have h : Noted s { s with report := { s.report with lost := satAdd s.report.lost 1, overrun := true } } :=
    .report _ _ ⟨rfl, rfl, rfl, rfl, rfl, fun x y => ⟨x, y⟩⟩
  exact h.trans ((Noted.count .recordsLost _).trans (raise_alerted _ _).noted)

/-- Handing on a record changes nothing but returns, accesses, write-backs, the report and counters (R169 to R172). -/
theorem handRecord_noted (r : Record) (s : State) : Noted s (handRecord r s) := by
  unfold handRecord
  split
  · split
    · rename_i h
      simp only [canPlace, Bool.and_eq_true, decide_eq_true_eq] at h
      exact placeRecord_noted r s h.2 (fun _ => h.1.2)
    · exact loseRecord_noted s
  · exact .refl s

/-- The queue in line with W and P, whether or not its oldest record has been performed. -/
def Report.InLine (r : Report) : Prop :=
  r.queue.length ≤ Config.recordCapacity ∧
  r.produced = r.written + BitVec.ofNat 32 r.queue.length ∧
  r.queue.map QueuedRecord.sequence = (List.range r.queue.length).map (fun n => r.written + BitVec.ofNat 32 n)

/-- The oldest record leaves a queue in line: the rest is in line with W one higher. -/
theorem Report.InLine.rest {r : Report} {q : QueuedRecord} {rest : List QueuedRecord}
    (h : { r with queue := q :: rest }.InLine) :
    { r with queue := rest, written := r.written + 1 }.InLine := by
  obtain ⟨h1, h2, h3⟩ := h
  simp only [List.length_cons, List.map_cons, List.range_succ_eq_map, List.map_map] at h1 h2 h3
  refine ⟨by simp only; omega, ?_, ?_⟩
  · simp only [h2]
    have : BitVec.ofNat 32 (rest.length + 1) = BitVec.ofNat 32 rest.length + 1 := by simp [BitVec.ofNat_add]
    rw [this]
    bv_omega
  · have h4 := (List.cons.inj h3).2
    simp only [h4]
    refine List.map_congr_left ?_
    intro n _
    simp only [Function.comp_apply]
    have : BitVec.ofNat 32 n.succ = BitVec.ofNat 32 n + 1 := by simp [BitVec.ofNat_add]
    rw [this]
    bv_omega

/-- Records performed leave the queue in order (R171): only the report, the returns and the counters change. -/
theorem countWritten_spec (q : List QueuedRecord) (s : State) :
    AlertStep s.link (countWritten q s).link ∧
    (∃ w c n t p a h, (countWritten q s).report = { s.report with
        written := w, queue := c, unannounced := n, ageStart := t, pending := p, alerted := a, holdoffEnd := h }) ∧
    ({ s.report with queue := q }.InLine → { s.report with queue := q }.Fits →
      (countWritten q s).report.InOrder ∧ (countWritten q s).report.Fits) ∧
    countWritten q s = { s with link := { s.link with returns := (countWritten q s).link.returns }
                                report := (countWritten q s).report, counters := (countWritten q s).counters } := by
  induction q generalizing s with
  | nil =>
    refine ⟨.refl _, ⟨_, _, _, _, _, _, _, rfl⟩, ?_, rfl⟩
    intro h f
    exact ⟨⟨h.1, h.2.1, h.2.2, by simp [countWritten]⟩, f⟩
  | cons q rest ih =>
    by_cases hq : q.performed
    · generalize hm : count .recordsWritten { s with report := { s.report with written := s.report.written + 1 } } = m
      have hmf : m = { s with report := { s.report with written := s.report.written + 1 }, counters := m.counters } := by
        rw [← hm]; rfl
      have hmr : m.report = { s.report with written := s.report.written + 1 } := by rw [← hm]; rfl
      have hml : m.link = s.link := by rw [← hm]; rfl
      obtain ⟨u1, u2, u3⟩ := addUnannounced_alerted m
      obtain ⟨i1, i2, i3, i4⟩ := ih (addUnannounced m)
      have hc : countWritten (q :: rest) s = countWritten rest (addUnannounced m) := by
        simp only [countWritten, hq, if_true, hm]
      rw [hc]
      have hr : (addUnannounced m).report = { s.report with
          written := s.report.written + 1, pending := (addUnannounced m).report.pending
          alerted := (addUnannounced m).report.alerted, holdoffEnd := (addUnannounced m).report.holdoffEnd
          unannounced := (addUnannounced m).report.unannounced
          ageStart := (addUnannounced m).report.ageStart } := by
        have := u2
        unfold Report.Flagged at this
        rw [hmr] at this
        exact this
      refine ⟨?_, ?_, ?_, ?_⟩
      · rw [← hml]; exact u1.trans i1
      · obtain ⟨w, c, n, t, p, a, h, e⟩ := i2
        refine ⟨w, c, n, t, p, a, h, ?_⟩
        rw [e, hr]
      · intro h f
        have h' := h.rest
        refine i3 ?_ ?_
        · rw [hr]; exact h'
        · rw [hr]
          intro hs
          obtain ⟨f1, f2, f3, f4⟩ := f hs
          refine ⟨f1, f2, ?_, f4⟩
          simp only [List.length_cons] at f3 ⊢
          omega
      · rw [i4, u3, hmf]
    · have hc : countWritten (q :: rest) s = { s with report := { s.report with queue := q :: rest } } := by
        simp only [countWritten, hq]; rfl
      rw [hc]
      refine ⟨.refl _, ⟨_, _, _, _, _, _, _, rfl⟩, ?_, rfl⟩
      intro h f
      refine ⟨⟨h.1, h.2.1, h.2.2, ?_⟩, f⟩
      intro x hx
      simp at hx
      rw [← hx]
      simpa using hq

/-- A record performed keeps everything but the report, the returns and the counters, and keeps the queue in order. -/
theorem recordPerformed_noted (n : Word32) (s : State) : Noted s (recordPerformed n s) := by
  unfold recordPerformed
  obtain ⟨h1, ⟨w, c, m, t, p, a, hh, e⟩, h3, h4⟩ :=
    countWritten_spec (s.report.queue.map fun q => if q.sequence = n then { q with performed := true } else q) s
  refine ⟨h1, ?_, ?_, ?_⟩
  · rw [h4]
    exact .refl _ _
  · refine ⟨by rw [e], by rw [e], by rw [e], by rw [e], by rw [e], ?_⟩
    rintro ⟨i1, i2, i3, _⟩ f
    refine h3 ⟨by simpa using i1, by simpa using i2, ?_⟩ ?_
    · simp only [List.length_map, List.map_map]
      rw [← i3]
      refine List.map_congr_left ?_
      intro q _
      simp only [Function.comp_apply]
      split <;> rfl
    · intro hs
      have := f hs
      simpa using this
  · rw [h4]

/-- What a Noted step leaves as it was, field by field. -/
theorem Noted.fields {s t : State} (h : Noted s t) :
    t.link.channel = s.link.channel ∧ t.link.tags = s.link.tags ∧ t.link.sent = s.link.sent ∧
    t.port.geom = s.port.geom ∧ t.port.geomSet = s.port.geomSet ∧ t.port.openRows = s.port.openRows ∧
    t.regions = s.regions ∧ t.patrol = s.patrol ∧ t.window = s.window ∧ t.fault = s.fault ∧ t.repair = s.repair ∧
    t.hammer = s.hammer ∧ t.maint = s.maint ∧ t.params = s.params ∧ t.dram = s.dram ∧ t.code = s.code ∧
    t.pending = s.pending := by
  rw [h.2.2.2]
  exact ⟨rfl, rfl, rfl, rfl, rfl, rfl, rfl, rfl, rfl, rfl, rfl, rfl, rfl, rfl, rfl, rfl, rfl⟩

end Sys2Proof.Machine
end

