-- ==== Sys2Proof/Laws/Inner.lean ====
section
/-! SUPPORT. What the Fault Table, the Repair Engine, the Targeted Scrub Queue and the Disturbance Watch can do to the state
within one command, said once: Internal, which every operation of those blocks satisfies. -/

namespace Sys2Proof.Machine

open Sys2Proof

/-- The effect of the Fault Table, the Repair Engine and the Targeted Scrub Queue: what each table promises is kept, and
nothing else of the state moves. -/
def Internal (s t : State) : Prop :=
  AlertStep s.link t.link ∧ WorkStep s.port.accesses s.wbq t.port.accesses t.wbq ∧ s.report.Later t.report ∧
  (TsqBounded s.patrol.tsq → TsqBounded t.patrol.tsq) ∧
  (s.fault.Legal → t.fault.Legal) ∧ (s.fault.Bounded → t.fault.Bounded) ∧
  (SetsBounded s.repair.erasures → SetsBounded t.repair.erasures) ∧
  (s.repair.jobs.length ≤ Config.repairCapacity → t.repair.jobs.length ≤ Config.repairCapacity) ∧
  (AMap.rising s.repair.slots = true → AMap.rising t.repair.slots = true) ∧
  t = { s with link := { s.link with returns := t.link.returns }
               port := { s.port with accesses := t.port.accesses }
               wbq := t.wbq, patrol := { s.patrol with tsq := t.patrol.tsq }, fault := t.fault, repair := t.repair
               report := t.report, counters := t.counters }

theorem Internal.refl (s : State) : Internal s s :=
  ⟨.refl _, .refl _ _, .refl _, id, id, id, id, id, id, rfl⟩

theorem Internal.trans {a b c : State} (h : Internal a b) (k : Internal b c) : Internal a c := by
  obtain ⟨h1, h2, h3, h4, h5, h6, h7, h8, h9, h0⟩ := h
  obtain ⟨k1, k2, k3, k4, k5, k6, k7, k8, k9, k0⟩ := k
  refine ⟨h1.trans k1, h2.trans k2, h3.trans k3, k4 ∘ h4, k5 ∘ h5, k6 ∘ h6, k7 ∘ h7, k8 ∘ h8, k9 ∘ h9, ?_⟩
  rw [k0, h0]

theorem Internal.ite {p : Prop} [Decidable p] {s a b : State} (h : Internal s a) (k : Internal s b) :
    Internal s (if p then a else b) := by split <;> assumption

theorem Noted.inner {s t : State} (h : Noted s t) : Internal s t := by
  obtain ⟨h1, h2, h3, h4⟩ := h
  rw [h4]
  exact ⟨h1.only, h2, h3, id, id, id, id, id, id, rfl⟩

theorem Internal.count (c : Ctr) (s : State) : Internal s (count c s) := (Noted.count c s).inner

theorem Internal.raise (c : Cause) (s : State) : Internal s (raise c s) := (raise_alerted c s).noted.inner

theorem Internal.record (r : Record) (s : State) : Internal s (handRecord r s) := (handRecord_noted r s).inner

/-! ## Maps with number keys -/

/-- The first key of a map, if it is above every key below k. -/
theorem AMap.rising_cons {α : Type} (p : Nat × α) (m : AMap α) :
    AMap.rising (p :: m) = true ↔ (∀ q ∈ m.head?, p.1 < q.1) ∧ AMap.rising m = true := by
  cases m with
  | nil => simp [AMap.rising]
  | cons q m => simp [AMap.rising]

/-- In a rising map every later key is above the first. -/
theorem AMap.rising_lt {α : Type} (p : Nat × α) (m : AMap α) (h : AMap.rising (p :: m) = true) :
    ∀ q ∈ m, p.1 < q.1 := by
  induction m generalizing p with
  | nil => simp
  | cons q m ih =>
    rw [AMap.rising_cons] at h
    have hq := h.1 q (by simp)
    intro r hr
    rcases List.mem_cons.mp hr with rfl | hr
    · exact hq
    · exact lt_trans hq (ih q h.2 r hr)

theorem AMap.head_insert {α : Type} (m : AMap α) (k : Nat) (v : α) (b : Nat) (hb : b < k)
    (hm : ∀ q ∈ m.head?, b < q.1) : ∀ q ∈ (AMap.insert m k v).head?, b < q.1 := by
  cases m with
  | nil => simp [AMap.insert, hb]
  | cons p m =>
    obtain ⟨j, w⟩ := p
    simp only [AMap.insert]
    split
    · simp [hb]
    · split
      · simp [hb]
      · simpa using hm

theorem AMap.rising_insert {α : Type} (m : AMap α) (k : Nat) (v : α) (h : AMap.rising m = true) :
    AMap.rising (AMap.insert m k v) = true := by
  induction m with
  | nil => rfl
  | cons p m ih =>
    obtain ⟨j, w⟩ := p
    have h' := (AMap.rising_cons (j, w) m).mp h
    simp only [AMap.insert]
    split
    · rename_i hj
      rw [AMap.rising_cons]
      exact ⟨by simpa [hj] using h'.1, h'.2⟩
    · split
      · rename_i _ hk
        rw [AMap.rising_cons]
        exact ⟨by simpa using hk, h⟩
      · rename_i hj hk
        rw [AMap.rising_cons]
        exact ⟨AMap.head_insert m k v j (by simp only at *; omega) h'.1, ih h'.2⟩

theorem AMap.head_erase {α : Type} (m : AMap α) (k : Nat) (b : Nat) (h : AMap.rising m = true)
    (hm : ∀ q ∈ m.head?, b < q.1) : ∀ q ∈ (AMap.erase m k).head?, b < q.1 := by
  cases m with
  | nil => simp [AMap.erase]
  | cons p m =>
    obtain ⟨j, w⟩ := p
    simp only [List.head?_cons, Option.mem_def, Option.some.injEq] at hm
    have hj : b < j := hm (j, w) rfl
    simp only [AMap.erase]
    split
    · intro q hq
      have h' := (AMap.rising_cons (j, w) m).mp h
      exact lt_trans hj (h'.1 q hq)
    · split
      · simpa using hj
      · simpa using hj

theorem AMap.rising_erase {α : Type} (m : AMap α) (k : Nat) (h : AMap.rising m = true) :
    AMap.rising (AMap.erase m k) = true := by
  induction m with
  | nil => rfl
  | cons p m ih =>
    obtain ⟨j, w⟩ := p
    have h' := (AMap.rising_cons (j, w) m).mp h
    simp only [AMap.erase]
    split
    · exact h'.2
    · split
      · exact h
      · rw [AMap.rising_cons]
        exact ⟨AMap.head_erase m k j h'.2 h'.1, ih h'.2⟩

/-- Reading a map after an insertion. -/
theorem AMap.get_insert {α : Type} (m : AMap α) (k j : Nat) (v : α) :
    AMap.get? (AMap.insert m k v) j = if j = k then some v else AMap.get? m j := by
  induction m with
  | nil =>
    simp only [AMap.insert, AMap.get?]
    by_cases h : k = j
    · simp [h]
    · simp [h, Ne.symm h]
  | cons p m ih =>
    obtain ⟨i, w⟩ := p
    simp only [AMap.insert]
    by_cases h1 : i = k
    · subst h1
      simp only [if_true, AMap.get?]
      by_cases h2 : i = j
      · simp [h2]
      · simp [h2, Ne.symm h2]
    · simp only [h1, if_false]
      by_cases h2 : k < i
      · simp only [h2, if_true, AMap.get?]
        by_cases h3 : k = j
        · simp [h3]
        · simp [h3, Ne.symm h3]
      · simp only [h2, if_false, AMap.get?]
        by_cases h3 : i = j
        · have : ¬ j = k := by omega
          simp [h3, this]
        · simp [h3, ih]

/-- A key that no pair of the map has reads as absent. -/
theorem AMap.get_none {α : Type} (m : AMap α) (k : Nat) (h : ∀ q ∈ m, q.1 ≠ k) : AMap.get? m k = none := by
  induction m with
  | nil => rfl
  | cons p m ih =>
    obtain ⟨i, w⟩ := p
    have h1 : i ≠ k := h (i, w) (by simp)
    simp only [AMap.get?, h1, if_false]
    exact ih fun q hq => h q (by simp [hq])

/-- Reading a rising map after an erasure. -/
theorem AMap.get_erase {α : Type} (m : AMap α) (k j : Nat) (h : AMap.rising m = true) :
    AMap.get? (AMap.erase m k) j = if j = k then none else AMap.get? m j := by
  induction m with
  | nil => simp [AMap.erase, AMap.get?]
  | cons p m ih =>
    obtain ⟨i, w⟩ := p
    have h' := (AMap.rising_cons (i, w) m).mp h
    have hlt := AMap.rising_lt (i, w) m h
    simp only [AMap.erase]
    by_cases h1 : i = k
    · subst h1
      simp only [if_true, AMap.get?]
      by_cases h2 : j = i
      · subst h2
        simp only [if_true]
        exact AMap.get_none m j fun q hq => by have := hlt q hq; simp only at this; omega
      · simp [h2, Ne.symm h2]
    · simp only [h1, if_false]
      by_cases h2 : k < i
      · simp only [h2, if_true, AMap.get?]
        by_cases h3 : j = k
        · subst h3
          have h4 : ¬ i = j := by omega
          simp only [h4, if_false, if_true]
          exact AMap.get_none m j fun q hq => by have := hlt q hq; simp only at this; omega
        · simp [h3]
      · simp only [h2, if_false, AMap.get?, ih h'.2]
        by_cases h3 : i = j
        · have : ¬ j = k := by omega
          simp [h3, this]
        · simp [h3]

end Sys2Proof.Machine
end

