-- ==== Sys2Proof/Laws/Repairs.lean ====
section
/-! SUPPORT. The operations of the Repair Engine, and what the Fault Table does when it is told of them: each is an Internal
step. -/

namespace Sys2Proof.Machine

open Sys2Proof

/-! ## Row entries -/

theorem FaultEntry.apart_symm {e f : FaultEntry} (h : e.apart f) : f.apart e := by
  rcases h with h | h | h
  · exact .inr (.inl h)
  · exact .inl h
  · exact .inr (.inr h.symm)

/-- A row entry set to one that is apart from all others keeps the table legal. -/
theorem FaultTable.Legal.set {f : FaultTable} (h : f.Legal) (i : Nat) (e : FaultEntry)
    (ha : ∀ j (hj : j < f.entries.length), j ≠ i → e.apart f.entries[j])
    (hf : e.state = .free → e = {}) (hr : e.reason.isSome ↔ e.state = .blocked) :
    FaultTable.Legal { f with entries := f.entries.set i e } := by
  obtain ⟨h1, h2⟩ := h
  refine ⟨?_, ?_⟩
  · rw [List.pairwise_iff_getElem] at h1 ⊢
    intro a b ha' hb' hab
    simp only [List.length_set] at ha' hb'
    simp only [List.getElem_set]
    by_cases h3 : i = a
    · have h4 : ¬ i = b := by omega
      simp only [h3, if_true, if_neg (by omega : ¬ a = b)]
      exact ha b hb' (by omega)
    · by_cases h4 : i = b
      · have h5 : ¬ b = a := by omega
        simp only [h4, if_true, if_neg h5]
        exact FaultEntry.apart_symm (ha a ha' (by omega))
      · simp only [h3, h4, if_false]
        exact h1 a b ha' hb' hab
  · intro x hx
    rcases List.mem_or_eq_of_mem_set hx with hx | rfl
    · exact h2 x hx
    · exact ⟨hf, hr⟩

/-- A row entry that goes on describing its row keeps the table legal. -/
theorem FaultTable.Legal.modify {f : FaultTable} (h : f.Legal) (i : Nat) (hi : i < f.entries.length) (e : FaultEntry)
    (hp : (e.rank, e.bank, e.row) = (f.entries[i].rank, f.entries[i].bank, f.entries[i].row))
    (ho : f.entries[i].state ≠ .free) (hn : e.state ≠ .free) (hr : e.reason.isSome ↔ e.state = .blocked) :
    FaultTable.Legal { f with entries := f.entries.set i e } := by
  refine h.set i e ?_ (fun x => absurd x hn) hr
  intro j hj hji
  have h1 := List.pairwise_iff_getElem.mp h.1
  have h2 : f.entries[i].apart f.entries[j] := by
    rcases Nat.lt_or_gt_of_ne hji with h3 | h3
    · exact FaultEntry.apart_symm (h1 j i hj hi h3)
    · exact h1 i j hi hj h3
  rcases h2 with h2 | h2 | h2
  · exact absurd h2 ho
  · exact .inr (.inl h2)
  · exact .inr (.inr (hp ▸ h2))

/-- A row entry set within the limits keeps the scores bounded. -/
theorem FaultTable.Bounded.set {f : FaultTable} (h : f.Bounded) (i : Nat) (e : FaultEntry)
    (he : e.score ≤ 1023 ∧ e.events ≤ 255 ∧ e.uncorrectables ≤ 255) :
    FaultTable.Bounded { f with entries := f.entries.set i e } := by
  refine ⟨?_, h.2⟩
  intro x hx
  rcases List.mem_or_eq_of_mem_set hx with hx | rfl
  · exact h.1 x hx
  · exact he

/-- The entry faultFind finds. -/
theorem faultFind_some {s : State} {rank bank row i : Nat} (h : faultFind s rank bank row = some i) :
    ∃ hi : i < s.fault.entries.length, faultAt s i = s.fault.entries[i] ∧ (faultAt s i).state ≠ .free ∧
      (faultAt s i).rank = rank ∧ (faultAt s i).bank = bank ∧ (faultAt s i).row = row := by
  unfold faultFind at h
  rw [List.findIdx?_eq_some_iff_getElem] at h
  obtain ⟨hi, h1, _⟩ := h
  have e : faultAt s i = s.fault.entries[i] := by simp [faultAt, List.getD, hi]
  refine ⟨hi, e, ?_⟩
  rw [e]
  simpa [and_assoc] using h1

/-- No entry describes a row that faultFind does not find. -/
theorem faultFind_none {s : State} {rank bank row : Nat} (h : faultFind s rank bank row = none) :
    ∀ e ∈ s.fault.entries, e.state ≠ .free → (rank, bank, row) ≠ (e.rank, e.bank, e.row) := by
  unfold faultFind at h
  rw [List.findIdx?_eq_none_iff] at h
  intro e he hf hc
  have := h e he
  simp only [Prod.mk.injEq] at hc
  simp [hf, hc] at this

/-- The Fault Table's own fields replaced within what it promises. -/
theorem Internal.fault (s : State) (f : FaultTable) (h1 : s.fault.Legal → f.Legal) (h2 : s.fault.Bounded → f.Bounded) :
    Internal s { s with fault := f } :=
  ⟨.refl _, .refl _ _, .refl _, id, h1, h2, id, id, id, rfl⟩

/-- The Repair Engine's own fields replaced within what it promises. -/
theorem Internal.repair (s : State) (r : Repair)
    (h1 : SetsBounded s.repair.erasures → SetsBounded r.erasures)
    (h2 : s.repair.jobs.length ≤ Config.repairCapacity → r.jobs.length ≤ Config.repairCapacity)
    (h3 : AMap.rising s.repair.slots = true → AMap.rising r.slots = true) :
    Internal s { s with repair := r } :=
  ⟨.refl _, .refl _ _, .refl _, id, id, id, h1, h2, h3, rfl⟩

/-- A row entry that is changed and goes on describing its row. -/
theorem Internal.setFault (s : State) (i : Nat) (e : FaultEntry) (ho : (faultAt s i).state ≠ .free)
    (hp : (e.rank, e.bank, e.row) = ((faultAt s i).rank, (faultAt s i).bank, (faultAt s i).row)) (hn : e.state ≠ .free)
    (hr : s.fault.Legal → (e.reason.isSome ↔ e.state = .blocked))
    (hb : s.fault.Bounded → e.score ≤ 1023 ∧ e.events ≤ 255 ∧ e.uncorrectables ≤ 255) :
    Internal s (setFault i e s) := by
  by_cases hi : i < s.fault.entries.length
  · have ea : faultAt s i = s.fault.entries[i] := by simp [faultAt, List.getD, hi]
    rw [ea] at ho hp
    exact .fault s _ (fun h => h.modify i hi e hp ho hn (hr h)) (fun h => h.set i e (hb h))
  · have : faultAt s i = {} := by simp [faultAt, List.getD, hi]
    rw [this] at ho
    exact absurd rfl ho

/-- An entry of the table keeps its limits. -/
theorem FaultTable.Bounded.at {s : State} (h : s.fault.Bounded) (i : Nat) :
    (faultAt s i).score ≤ 1023 ∧ (faultAt s i).events ≤ 255 ∧ (faultAt s i).uncorrectables ≤ 255 := by
  by_cases hi : i < s.fault.entries.length
  · have ea : faultAt s i = s.fault.entries[i] := by simp [faultAt, List.getD, hi]
    rw [ea]
    exact h.1 _ (List.getElem_mem hi)
  · have : faultAt s i = {} := by simp [faultAt, List.getD, hi]
    rw [this]
    simp

/-- An entry of the table has a reason exactly when it is BLOCKED. -/
theorem FaultTable.Legal.at {s : State} (h : s.fault.Legal) (i : Nat) :
    (faultAt s i).reason.isSome ↔ (faultAt s i).state = .blocked := by
  by_cases hi : i < s.fault.entries.length
  · have ea : faultAt s i = s.fault.entries[i] := by simp [faultAt, List.getD, hi]
    rw [ea]
    exact (h.2 _ (List.getElem_mem hi)).2
  · have : faultAt s i = {} := by simp [faultAt, List.getD, hi]
    rw [this]
    simp

theorem faultJobTaken_inner (rank bank row : Nat) (s : State) : Internal s (faultJobTaken rank bank row s) := by
  unfold faultJobTaken faultModify
  split
  · rename_i i h
    obtain ⟨hi, _, hn, _⟩ := faultFind_some h
    exact .setFault s i _ hn rfl (by simp) (by simp) (fun hb => hb.at i)
  · exact .refl s

theorem faultJobDone_inner (rank bank row : Nat) (s : State) : Internal s (faultJobDone rank bank row s) := by
  unfold faultJobDone
  split
  · rename_i i h
    obtain ⟨hi, _, hn, _⟩ := faultFind_some h
    have h1 : Internal s (setFault i { faultAt s i with state := .retired, reason := none } s) :=
      .setFault s i _ hn rfl (by simp) (by simp) (fun hb => hb.at i)
    exact h1.trans (.count _ _)
  · exact .refl s

theorem faultJobAborted_inner (rank bank row : Nat) (s : State) : Internal s (faultJobAborted rank bank row s) := by
  unfold faultJobAborted faultModify
  split
  · rename_i i h
    obtain ⟨hi, _, hn, _⟩ := faultFind_some h
    dsimp only
    split
    · rename_i hs
      refine .setFault s i _ hn rfl (by simp) ?_ (fun hb => hb.at i)
      intro hl
      have := hl.at i
      simpa [hs] using this
    · exact .setFault s i _ hn rfl hn (fun hl => hl.at i) (fun hb => hb.at i)
  · exact .refl s

/-! ## Spare slots and jobs -/

theorem setSlot_inner (rank bank k : Nat) (v : Slot) (s : State) : Internal s (setSlot rank bank k v s) := by
  refine .repair s _ id id ?_
  intro h
  simp only
  split
  · exact AMap.rising_erase _ _ h
  · exact AMap.rising_insert _ _ _ h

theorem setRunningJob_inner (j : Job) (s : State) : Internal s (setRunningJob j s) := by
  unfold setRunningJob
  split
  · rename_i rest h
    refine .repair s _ id ?_ id
    rw [h]
    exact id
  · exact .refl s

theorem takePair_inner (s : State) : Internal s (takePair s) := by
  unfold takePair
  split
  · exact .refl s
  · split
    · dsimp only
      split
      · exact ((Noted.takeAccess _ _ _ _ (by simp) rfl).inner.trans (setRunningJob_inner _ _)).trans (.count _ _)
      · exact ((Noted.takeAccess _ _ _ _ (by simp) rfl).trans (.takeAccess _ _ _ _ (by simp) rfl)).inner
    · exact .refl s

theorem resumeCopy_inner (s : State) : Internal s (resumeCopy s) := .ite (.refl s) (takePair_inner s)

theorem startJob_inner (s : State) : Internal s (startJob s) := by
  unfold startJob
  split
  · exact .refl s
  · split
    · exact (setSlot_inner _ _ _ _ _).trans (resumeCopy_inner _)
    · exact .refl s

theorem takeJob_inner (rank bank logical k : Nat) (origin : Origin) (s : State)
    (h : s.repair.jobs.length < Config.repairCapacity) : Internal s (takeJob rank bank logical k origin s) := by
  have hp : ∀ (u : State) (j : Job), u.repair.jobs.length < Config.repairCapacity →
      Internal u { u with repair := { u.repair with jobs := u.repair.jobs ++ [j] } } := by
    intro u j hu
    refine .repair u _ id ?_ id
    intro _
    simp only [List.length_append, List.length_singleton]
    omega
  exact (((setSlot_inner _ _ _ _ _).trans (hp _ _ h)).trans
    ((faultJobTaken_inner _ _ _ _).trans (.count _ _))).trans (.ite (startJob_inner _) (.refl _))

theorem retireRequest_inner (rank bank row : Nat) (s : State) : Internal s (retireRequest rank bank row s).2 := by
  unfold retireRequest
  split
  · exact .refl s
  · split
    · exact .refl s
    · split
      · exact .refl s
      · split
        · exact (Internal.raise _ _).trans (.count _ _)
        · split
          · exact .count _ _
          · rename_i h
            exact takeJob_inner _ _ _ _ _ _ (by omega)

theorem completeCopy_inner (j : Job) (t : SlotTarget) (s : State) : Internal s (completeCopy j t s) := by
  unfold completeCopy
  have hs : ∀ u : State, Internal u (match t.source? with
      | some k => setSlot j.rank j.bank k .dead u
      | none => u) := by
    intro u
    split
    · exact setSlot_inner _ _ _ _ _
    · exact .refl u
  have hj : ∀ u : State, Internal u { u with repair := { u.repair with jobs := u.repair.jobs.tail } } := by
    intro u
    refine .repair u _ id ?_ id
    intro h
    simp only [List.length_tail]
    omega
  exact ((setSlot_inner _ _ _ _ _).trans (hs _)).trans (((hj _).trans (.count _ _)).trans
    ((faultJobDone_inner _ _ _ _).trans (((Internal.record _ _).trans (.raise _ _)).trans (startJob_inner _))))

theorem copyWritten_inner (s : State) : Internal s (copyWritten s) := by
  unfold copyWritten
  split
  · exact .refl s
  · split
    · split
      · exact (setSlot_inner _ _ _ _ _).trans (resumeCopy_inner _)
      · exact completeCopy_inner _ _ _
    · exact .refl s

theorem countCopied_inner (o : Outcome) (s : State) : Internal s (countCopied o s) := by
  unfold countCopied
  split
  · exact .refl s
  · exact setRunningJob_inner _ _

theorem abortJob_inner (j : Job) (s : State) : Internal s (abortJob j s) :=
  ((setSlot_inner _ _ _ _ _).trans (faultJobAborted_inner _ _ _ _)).trans (.count _ _)

theorem abortJobs_inner (s : State) : Internal s (abortJobs s) := by
  have h : ∀ (l : List Job) (u : State), Internal u (l.foldl (fun s j => abortJob j s) u) := by
    intro l
    induction l with
    | nil => exact fun u => .refl u
    | cons j l ih => exact fun u => (abortJob_inner j u).trans (ih _)
  refine (h s.repair.jobs s).trans ?_
  exact .repair _ _ id (fun _ => by simp) id

/-! ## Erasure -/

theorem cleanedEntry_place (rank device : Nat) (e : FaultEntry) (h : (cleanedEntry rank device e).state ≠ .free) :
    e.state ≠ .free ∧ (cleanedEntry rank device e).rank = e.rank ∧ (cleanedEntry rank device e).bank = e.bank ∧
      (cleanedEntry rank device e).row = e.row := by
  unfold cleanedEntry at h ⊢
  split
  · rename_i hf; simp [hf] at h
  · rename_i hf
    simp only [hf] at h ⊢
    split
    · rename_i hc
      simp only [Bool.and_eq_true, bne_iff_ne] at hc
      exact ⟨hc.1, rfl, rfl, rfl⟩
    · rename_i hc
      simp only [hc] at h
      exact ⟨h, rfl, rfl, rfl⟩

/-- A table mapped entry by entry, each result FREE or about the entry's own row, stays legal. -/
theorem FaultTable.Legal.map {f : FaultTable} (h : f.Legal) (g : FaultEntry → FaultEntry)
    (hp : ∀ e, (g e).state ≠ .free → e.state ≠ .free ∧ (g e).rank = e.rank ∧ (g e).bank = e.bank ∧ (g e).row = e.row)
    (hl : ∀ e, (e.state = .free → e = {}) ∧ (e.reason.isSome ↔ e.state = .blocked) →
      ((g e).state = .free → g e = {}) ∧ ((g e).reason.isSome ↔ (g e).state = .blocked)) (d : List DeviceScore)
    (t : Elapsed) : FaultTable.Legal { entries := f.entries.map g, devices := d, decayEnd := t } := by
  refine ⟨?_, ?_⟩
  · rw [List.pairwise_map]
    refine h.1.imp ?_
    intro a b hab
    by_cases ha : (g a).state = .free
    · exact .inl ha
    · by_cases hb : (g b).state = .free
      · exact .inr (.inl hb)
      · obtain ⟨a1, a2, a3, a4⟩ := hp a ha
        obtain ⟨b1, b2, b3, b4⟩ := hp b hb
        rcases hab with hab | hab | hab
        · exact absurd hab a1
        · exact absurd hab b1
        · refine .inr (.inr ?_)
          rw [a2, a3, a4, b2, b3, b4]
          exact hab
  · intro x hx
    obtain ⟨e, he, rfl⟩ := List.mem_map.mp hx
    exact hl e (h.2 e he)

/-- A table mapped entry by entry within the limits stays bounded. -/
theorem FaultTable.Bounded.map {f : FaultTable} (h : f.Bounded) (g : FaultEntry → FaultEntry)
    (hg : ∀ e, (e.score ≤ 1023 ∧ e.events ≤ 255 ∧ e.uncorrectables ≤ 255) →
      (g e).score ≤ 1023 ∧ (g e).events ≤ 255 ∧ (g e).uncorrectables ≤ 255) (d : List DeviceScore)
    (hd : ∀ x ∈ d, x.score ≤ 4095) (t : Elapsed) :
    FaultTable.Bounded { entries := f.entries.map g, devices := d, decayEnd := t } := by
  refine ⟨?_, hd⟩
  intro x hx
  obtain ⟨e, he, rfl⟩ := List.mem_map.mp hx
  exact hg e (h.1 e he)

/-- A device's element set within the limits. -/
theorem Internal.setDevice (rank device : Nat) (d : DeviceScore) (s : State)
    (hd : s.fault.Bounded → d.score ≤ 4095) : Internal s (setDevice rank device d s) := by
  refine .fault s _ id ?_
  intro h
  refine ⟨h.1, ?_⟩
  intro x hx
  rcases List.mem_or_eq_of_mem_set hx with hx | rfl
  · exact h.2 x hx
  · exact hd h

theorem FaultTable.Bounded.device {s : State} (h : s.fault.Bounded) (rank device : Nat) :
    (deviceAt s rank device).score ≤ 4095 := by
  unfold deviceAt
  by_cases hi : rank * 20 + device < s.fault.devices.length
  · simp only [List.getD, List.getElem?_eq_getElem hi, Option.getD_some]
    exact h.2 _ (List.getElem_mem hi)
  · simp [List.getD, hi]

theorem erasureCleanup_inner (rank device : Nat) (s : State) : Internal s (erasureCleanup rank device s) := by
  have h1 : Internal s { s with fault := { s.fault with entries := s.fault.entries.map (cleanedEntry rank device) } } := by
    refine .fault s _ (fun h => h.map _ (cleanedEntry_place rank device) ?_ _ _) (fun h => h.map _ ?_ _ h.2 _)
    · intro e he
      unfold cleanedEntry
      split
      · simp
      · split
        · rename_i hc
          simp only [Bool.and_eq_true, bne_iff_ne] at hc
          exact ⟨fun hx => absurd hx hc.1, he.2⟩
        · exact he
    · intro e he
      unfold cleanedEntry
      split
      · simp
      · split
        · exact he
        · exact he
  have h2 : ∀ u : State,
      Internal u (setDevice rank device { deviceAt u rank device with limitReported := false } u) := fun u =>
    .setDevice rank device _ u (fun h => h.device rank device)
  exact h1.trans ((h2 _).trans (Noted.countBy _ _ _).inner)

theorem SetsBounded.set {sets : List (List Nat)} (h : SetsBounded sets) (rank : Nat) (l : List Nat)
    (hl : l.length ≤ 2 ∧ l.Nodup) : SetsBounded (sets.set rank l) := by
  refine ⟨by simp [h.1], ?_⟩
  intro x hx
  rcases List.mem_or_eq_of_mem_set hx with hx | rfl
  · exact h.2 x hx
  · exact hl

theorem SetsBounded.at {s : State} (h : SetsBounded s.repair.erasures) (rank : Nat) :
    (erasureSet s rank).length ≤ 2 ∧ (erasureSet s rank).Nodup := by
  unfold erasureSet
  by_cases hi : rank < s.repair.erasures.length
  · simp only [List.getD, List.getElem?_eq_getElem hi, Option.getD_some]
    exact h.2 _ (List.getElem_mem hi)
  · simp [List.getD, hi]

theorem addErasure_inner (rank device origin : Nat) (s : State) (hn : isErased s rank device = false)
    (hl : (erasureSet s rank).length < 2) : Internal s (addErasure rank device origin s) := by
  have h1 : Internal s { s with repair := { s.repair with
      erasures := s.repair.erasures.set rank (erasureSet s rank ++ [device]) } } := by
    refine .repair s _ ?_ id id
    intro h
    refine h.set rank _ ⟨by simp; omega, ?_⟩
    have := (h.at (s := s) rank).2
    simp only [isErased, List.contains_eq_mem, decide_eq_false_iff_not] at hn
    rw [List.nodup_append]
    refine ⟨this, by simp, ?_⟩
    intro a ha b hb
    simp only [List.mem_singleton] at hb
    rintro rfl
    exact hn (hb ▸ ha)
  exact h1.trans ((Internal.record _ _).trans ((Internal.ite (.raise _ _) (.refl _)).trans
    ((Internal.count _ _).trans (erasureCleanup_inner _ _ _))))

end Sys2Proof.Machine
end

