-- ==== Sys2Proof/Laws/FaultLaws.lean ====
section
/-! SUPPORT. The Targeted Scrub Queue's insertion, and the operations of the Fault Table: each is an Internal step. -/

namespace Sys2Proof.Machine

open Sys2Proof

/-! ## The Targeted Scrub Queue -/

/-- The Targeted Scrub Queue replaced within what it promises. -/
theorem Internal.tsq (s : State) (l : List TsqEntry) (h : TsqBounded s.patrol.tsq → TsqBounded l) :
    Internal s { s with patrol := { s.patrol with tsq := l } } :=
  ⟨.refl _, .refl _ _, .refl _, h, id, id, id, id, id, rfl⟩

/-- An entry changed in place keeps the queue bounded. -/
theorem TsqBounded.setTsq {l : List TsqEntry} (h : TsqBounded l) (e : TsqEntry) :
    TsqBounded (l.map fun f => if f.names e.rank e.bank e.row then e else f) := by
  refine ⟨by simpa using h.1, ?_⟩
  rw [List.map_map]
  have : (TsqEntry.place ∘ fun f : TsqEntry => if f.names e.rank e.bank e.row then e else f) = TsqEntry.place := by
    funext f
    simp only [Function.comp_apply]
    split
    · rename_i hf
      simp only [TsqEntry.names, Bool.and_eq_true, beq_iff_eq] at hf
      simp [TsqEntry.place, hf.1.1, hf.1.2, hf.2]
    · rfl
  rw [this]
  exact h.2

theorem setTsq_inner (e : TsqEntry) (s : State) : Internal s (setTsq e s) := .tsq s _ fun h => h.setTsq e

theorem removeTsq_inner (e : TsqEntry) (s : State) : Internal s (removeTsq e s) := by
  refine .tsq s _ ?_
  intro h
  exact ⟨le_trans (List.length_filter_le _ _) h.1, (List.filter_sublist.map _).nodup h.2⟩

theorem tsqInsert_inner (rank bank row : Nat) (neighbour : Bool) (s : State) :
    Internal s (tsqInsert rank bank row neighbour s) := by
  unfold tsqInsert
  split
  · exact .refl s
  · split
    · exact (setTsq_inner _ _).trans (.count _ _)
    · rename_i hf
      split
      · rename_i hlen
        refine (Internal.tsq s _ ?_).trans (.count _ _)
        intro h
        refine ⟨by simp; omega, ?_⟩
        simp only [List.map_append, List.map_cons, List.map_nil, List.nodup_append]
        refine ⟨h.2, by simp, ?_⟩
        intro a ha b hb
        obtain ⟨f, hfm, rfl⟩ := List.mem_map.mp ha
        simp only [List.mem_singleton] at hb
        rw [List.find?_eq_none] at hf
        have := hf f hfm
        intro hc
        rw [hb] at hc
        simp only [TsqEntry.place, Prod.mk.injEq] at hc
        simp [TsqEntry.names, hc.1, hc.2.1, hc.2.2] at this
      · exact (Internal.count _ _).trans (.raise _ _)

/-! ## Taking an event -/

theorem weight_le (ev : FaultEvent) : ev.weight ≤ 64 := by
  unfold FaultEvent.weight
  split
  · exact le_refl _
  · split
    · omega
    · split <;> omega

/-- The lightest OBSERVED entry is one of the table. -/
theorem lightestFrom_spec (l : List FaultEntry) (n : Nat) (best : Option (Nat × FaultEntry)) (r : Nat × FaultEntry)
    (h : lightestFrom l n best = some r) :
    best = some r ∨ ∃ i, ∃ hi : i < l.length, r = (n + i, l[i]) ∧ l[i].state = .observed := by
  induction l generalizing n best with
  | nil => exact .inl h
  | cons e l ih =>
    simp only [lightestFrom] at h
    rcases ih _ _ h with h1 | ⟨i, hi, h1, h2⟩
    · by_cases he : e.state = .observed
      · simp only [he, if_true] at h1
        cases best with
        | none =>
          simp only [Option.some.injEq] at h1
          exact .inr ⟨0, by simp, by simp [← h1], by simpa using he⟩
        | some b =>
          simp only at h1
          split at h1
          · simp only [Option.some.injEq] at h1
            exact .inr ⟨0, by simp, by simp [← h1], by simpa using he⟩
          · exact .inl h1
      · simp only [he, if_false] at h1
        exact .inl h1
    · exact .inr ⟨i + 1, by simpa using hi, by simp [h1]; omega, by simpa using h2⟩

theorem takenEntry_bounded (ev : FaultEvent) (d : Option Nat) (now : Elapsed) :
    (takenEntry ev d now).score ≤ 1023 ∧ (takenEntry ev d now).events ≤ 255 ∧
      (takenEntry ev d now).uncorrectables ≤ 255 := by
  have := weight_le ev
  refine ⟨by simp only [takenEntry]; omega, by simp [takenEntry], ?_⟩
  simp only [takenEntry]
  cases ev.isUncorrectable <;> simp

/-- An entry taken for a row that none describes. -/
theorem Internal.taken (ev : FaultEvent) (d : Option Nat) (i : Nat) (s : State)
    (hn : faultFind s ev.rank ev.bank ev.row = none) : Internal s (Machine.setFault i (takenEntry ev d s.now) s) := by
  refine .fault s _ ?_ (fun h => h.set i _ (takenEntry_bounded ev d s.now))
  intro h
  refine h.set i _ ?_ (by simp [takenEntry]) (by simp [takenEntry])
  intro j hj _
  by_cases hs : s.fault.entries[j].state = .free
  · exact .inr (.inl hs)
  · exact .inr (.inr (faultFind_none hn _ (List.getElem_mem hj) hs))

theorem scoreRow_inner (ev : FaultEvent) (s : State) : Internal s (scoreRow ev s).2 := by
  unfold scoreRow
  dsimp only
  split
  · rename_i i h
    obtain ⟨hi, _, hn, _⟩ := faultFind_some h
    refine .setFault s i _ hn rfl hn (fun hl => hl.at i) ?_
    intro hb
    have := hb.at i
    refine ⟨by simp only [scoredEntry]; omega, by simp only [scoredEntry, satByte]; omega, ?_⟩
    simp only [scoredEntry, satByte]
    omega
  · rename_i h
    split
    · exact .taken ev _ _ s h
    · split
      · split
        · exact (Internal.taken ev _ _ s h).trans (.count _ _)
        · exact .count _ _
      · exact .count _ _

theorem scoreDevice_inner (ev : FaultEvent) (s : State) : Internal s (scoreDevice ev s) := by
  unfold scoreDevice
  split
  · exact .setDevice _ _ _ s fun _ => by simp only; omega
  · exact .refl s

theorem reportEvent_noted (ev : FaultEvent) (w : Scored) (s : State) : Noted s (reportEvent ev w s) := by
  unfold reportEvent
  split
  · have h : Noted s (raise .uncorrectable (handRecord (eventRecord ev w.entry? s) s)) :=
      (handRecord_noted _ _).trans (raise_alerted _ _).noted
    dsimp only
    split
    · exact h.trans (raise_alerted _ _).noted
    · exact h
  · split
    · exact .refl s
    · exact handRecord_noted _ _

theorem reportChange_noted (ev : FaultEvent) (r : Bool) (i : Nat) (s : State) : Noted s (reportChange ev r i s) := by
  unfold reportChange
  split
  · exact .refl s
  · exact handRecord_noted _ _

/-- The state of a row entry changed between states that have no block reason. -/
theorem Internal.setState (s : State) (i : Nat) (v : FaultState) (hv : v ≠ .free) (hb : v ≠ .blocked)
    (ho : (faultAt s i).state ≠ .free) (ho' : (faultAt s i).state ≠ .blocked) :
    Internal s (Machine.setFault i { faultAt s i with state := v } s) := by
  refine .setFault s i _ ho rfl hv ?_ (fun h => h.at i)
  intro hl
  have := hl.at i
  simpa [ho', hb] using this

theorem suspectCheck_inner (ev : FaultEvent) (i : Nat) (r : Bool) (s : State) : Internal s (suspectCheck ev i r s).2 := by
  unfold suspectCheck
  dsimp only
  split
  · rename_i h
    have h1 : Internal s (setFault i { faultAt s i with state := .suspect } s) :=
      .setState s i _ (by simp) (by simp) (by simp [h.1]) (by simp [h.1])
    exact (h1.trans (reportChange_noted _ _ _ _).inner).trans ((tsqInsert_inner _ _ _ _ _).trans
      ((Internal.record _ _).trans (.count _ _)))
  · exact .refl s

theorem blockEntry_inner (ev : FaultEvent) (i : Nat) (r : Bool) (reason : BlockReason) (s : State)
    (ho : (faultAt s i).state ≠ .free) : Internal s (blockEntry ev i r reason s) := by
  have h1 : Internal s (setFault i { faultAt s i with state := .blocked, reason := some reason } s) :=
    .setFault s i _ ho rfl (by simp) (by simp) (fun h => h.at i)
  exact (h1.trans (reportChange_noted _ _ _ _).inner).trans ((Internal.record _ _).trans (.count _ _))

/-- A retire request that is not taken leaves the Fault Table as it was. -/
theorem retireRequest_fault (rank bank row : Nat) (s : State) (h : (retireRequest rank bank row s).1 ≠ .taken) :
    (retireRequest rank bank row s).2.fault = s.fault := by
  unfold retireRequest at h ⊢
  split
  · rfl
  · rename_i l hl
    simp only [hl] at h
    split
    · rfl
    · rename_i h1
      simp only [h1] at h
      split
      · rfl
      · rename_i h2
        simp only [h2] at h
        split
        · simp only [count_fault]
          exact (raise_alerted _ s).noted.fields.2.2.2.2.2.2.2.2.2.1
        · rename_i k hk
          simp only [hk] at h
          split
          · rfl
          · rename_i h3
            simp [h3] at h

theorem retireCheck_inner (ev : FaultEvent) (i : Nat) (r : Bool) (s : State) : Internal s (retireCheck ev i r s) := by
  unfold retireCheck
  dsimp only
  split
  · rename_i h
    have hf : (faultAt s i).state ≠ .free := by rcases h.1 with h | h <;> simp [h]
    have hb : (faultAt s i).state ≠ .blocked := by rcases h.1 with h | h <;> simp [h]
    split
    · exact blockEntry_inner ev i r _ s hf
    · have hq := retireRequest_inner (faultAt s i).rank (faultAt s i).bank (faultAt s i).row (count .retireRequests s)
      have hk := retireRequest_fault (faultAt s i).rank (faultAt s i).bank (faultAt s i).row (count .retireRequests s)
      generalize retireRequest (faultAt s i).rank (faultAt s i).bank (faultAt s i).row (count .retireRequests s) = q at hq hk
      obtain ⟨a, t⟩ := q
      have ht : Internal s t := (Internal.count _ s).trans hq
      have hat : a ≠ .taken → faultAt t i = faultAt s i := by
        intro ha
        have := hk ha
        simp only [faultAt]
        rw [this]
        rfl
      cases a with
      | taken => exact ht.trans (reportChange_noted _ _ _ _).inner
      | noSpare => exact ht.trans (blockEntry_inner _ _ _ _ _ (by rw [hat (by simp)]; exact hf))
      | queueFull => exact ht.trans (blockEntry_inner _ _ _ _ _ (by rw [hat (by simp)]; exact hf))
      | inProgress => exact ht
      | notInService =>
        have h1 : Internal t (setFault i { faultAt t i with state := .retired } t) :=
          .setState t i _ (by simp) (by simp) (by rw [hat (by simp)]; exact hf) (by rw [hat (by simp)]; exact hb)
        exact ht.trans (h1.trans (reportChange_noted _ _ _ _).inner)
  · exact .refl s

theorem eraseDecision_inner (rank device : Nat) (s : State) : Internal s (eraseDecision rank device s) := by
  unfold eraseDecision
  split
  · rename_i h
    simp only [pastErase, Bool.and_eq_true, Bool.not_eq_eq_eq_not, Bool.not_true] at h
    split
    · rename_i hl
      exact (Internal.count _ s).trans (addErasure_inner _ _ _ _ h.1.1.2 hl)
    · split
      · exact .refl s
      · have h1 : ∀ u : State, Internal u (setDevice rank device { deviceAt u rank device with limitReported := true } u) :=
          fun u => .setDevice rank device _ u (fun hb => hb.device rank device)
        exact ((Internal.record _ _).trans (.raise _ _)).trans ((h1 _).trans (.count _ _))
  · exact .refl s

/-- A fold of Internal steps is an Internal step. -/
theorem Internal.foldl {α : Type} (f : State → α → State) (hf : ∀ s a, Internal s (f s a)) (l : List α) (s : State) :
    Internal s (l.foldl f s) := by
  induction l generalizing s with
  | nil => exact .refl s
  | cons a l ih => exact (hf s a).trans (ih _)

theorem eraseRank_inner (rank : Nat) (s : State) : Internal s (eraseRank rank s) :=
  .foldl _ (fun _ _ => eraseDecision_inner _ _ _) _ _

theorem eraseAll_inner (s : State) : Internal s (eraseAll s) :=
  .ite (.foldl _ (fun _ _ => eraseRank_inner _ _) _ _) (.refl s)

theorem reviewLimits_inner (s : State) : Internal s (reviewLimits s) := by
  refine .fault s _ id ?_
  intro h
  refine ⟨h.1, ?_⟩
  intro x hx
  obtain ⟨d, hd, rfl⟩ := List.mem_map.mp hx
  have := h.2 d hd
  split
  · exact this
  · exact this

theorem checkEntry_inner (ev : FaultEvent) (w : Scored) (s : State) : Internal s (checkEntry ev w s) := by
  unfold checkEntry
  refine .ite (.refl s) ?_
  split
  · exact .refl s
  · exact (suspectCheck_inner _ _ _ _).trans (retireCheck_inner _ _ _ _)
  · exact (suspectCheck_inner _ _ _ _).trans (retireCheck_inner _ _ _ _)

theorem decideDevice_inner (ev : FaultEvent) (s : State) : Internal s (decideDevice ev s) := by
  unfold decideDevice
  split
  · exact eraseDecision_inner _ _ _
  · exact .refl s

/-- The Fault Table takes an event: every table it can reach keeps what its chapter promises (R114). -/
theorem takeEvent_inner (ev : FaultEvent) (s : State) : Internal s (takeEvent ev s) :=
  ((Internal.count _ _).trans (scoreRow_inner _ _)).trans (((scoreDevice_inner _ _).trans
    (reportEvent_noted _ _ _).inner).trans ((checkEntry_inner _ _ _).trans (decideDevice_inner _ _)))

theorem decay_inner (s : State) : Internal s (decay s) := by
  have h : Internal s { s with fault := { s.fault with
      entries := s.fault.entries.map decayedEntry, devices := decayedDevices s } } := by
    refine .fault s _ (fun h => h.map _ ?_ ?_ _ _) (fun h => h.map _ ?_ _ ?_ _)
    · intro e he
      unfold decayedEntry at he ⊢
      cases hs : e.state <;> simp only [hs] at he ⊢ <;> (try split at he) <;> (try split) <;> simp_all
    · intro e he
      unfold decayedEntry
      cases hs : e.state <;> simp only [hs] at he ⊢ <;> (try split) <;> simp_all
    · intro e he
      unfold decayedEntry
      cases e.state <;> simp only <;> (try split) <;> simp_all <;> omega
    · intro x hx
      simp only [decayedDevices] at hx
      obtain ⟨d, hd, rfl⟩ := List.mem_map.mp hx
      have hd' : d.1 ∈ s.fault.devices := by
        have := List.mem_map_of_mem (f := Prod.fst) hd
        rwa [List.zipIdx_map_fst] at this
      have := h.2 _ hd'
      split
      · exact this
      · simp only; omega
  exact (h.trans (reviewLimits_inner _)).trans (.count _ _)

end Sys2Proof.Machine
end

