-- ==== Sys2Proof/Laws/LineCode.lean ====
section
/-! SUPPORT. The line code at reset has the properties of R2 that the codec's guarantee needs: no word of weight 1 to 3 has
the syndrome of a codeword or of the poison pattern. The check eliminates the columns of every choice of three devices. -/

namespace Sys2Proof.Laws.LineCode

open Sys2Proof Sys2Proof.Machine

/-- A number with bit p cleared by the exclusive-or of one that has it. -/
def cleared (v p u : Nat) : Nat := Nat.xor u (Nat.mul v (Nat.land (Nat.shiftRight u p) 1))

theorem cleared_eq (v p u : Nat) : cleared v p u = if u.testBit p then u ^^^ v else u := by
  show u ^^^ v * ((u >>> p) &&& 1) = _
  rw [Nat.testBit, Nat.and_comm 1]
  rcases Nat.mod_two_eq_zero_or_one (u >>> p) with h | h <;> simp [Nat.and_one_is_mod, h]

/-- Whether columns are independent and a target lies outside their span, by elimination of one column after the other. -/
def independent : Nat → List Nat → Nat → Bool
  | _, [], t => t != 0
  | 0, _, _ => false
  | n + 1, v :: rest, t =>
    match v.testBit v.log2 with
    | true => independent n (rest.map (cleared v v.log2)) (cleared v v.log2 t)
    | false => false

/-- The exclusive-or of the columns chosen. -/
def chosen : List (Bool × Nat) → Nat
  | [] => 0
  | c :: rest => (if c.1 then c.2 else 0) ^^^ chosen rest

theorem chosen_reduced (v p : Nat) (l : List (Bool × Nat)) :
    (∃ k : Bool, chosen (l.map fun c => (c.1, if c.2.testBit p then c.2 ^^^ v else c.2)) =
      chosen l ^^^ (if k then v else 0)) := by
  induction l with
  | nil => exact ⟨false, by simp [chosen]⟩
  | cons c l ih =>
    obtain ⟨k, hk⟩ := ih
    obtain ⟨b, u⟩ := c
    refine ⟨k ^^ (b && u.testBit p), ?_⟩
    simp only [List.map_cons, chosen, hk]
    cases b <;> cases k <;> cases h : u.testBit p <;> simp [Nat.xor_assoc, Nat.xor_comm, Nat.xor_left_comm] <;>
      simp [← Nat.xor_assoc]

theorem chosen_low (v p : Nat) (hv : v.testBit p = true) (l : List (Bool × Nat)) :
    (chosen (l.map fun c => (c.1, if c.2.testBit p then c.2 ^^^ v else c.2))).testBit p = false := by
  induction l with
  | nil => simp [chosen]
  | cons c l ih =>
    obtain ⟨b, u⟩ := c
    simp only [List.map_cons, chosen, Nat.testBit_xor, ih]
    cases b <;> cases h : u.testBit p <;> simp [h, hv]

theorem eliminated (v x t p : Nat) (b k : Bool) (hv : v.testBit p = true) (hx : x.testBit p = false)
    (e : (if b then v else 0) ^^^ (x ^^^ if k then v else 0) = t) :
    x = if t.testBit p then t ^^^ v else t := by
  have hself : v ^^^ (x ^^^ v) = x := by rw [Nat.xor_comm x v, ← Nat.xor_assoc, Nat.xor_self, Nat.zero_xor]
  have hself' : v ^^^ x ^^^ v = x := by rw [Nat.xor_assoc, hself]
  have hbit : t.testBit p = (b ^^ k) := by
    rw [← e]; cases b <;> cases k <;> simp [hx, hv]
  rw [hbit, ← e]
  cases b <;> cases k <;> simp [hself, hself', Nat.xor_assoc]

theorem none_chosen (l : List (Bool × Nat)) (h : ∀ c ∈ l, c.1 = false) : chosen l = 0 := by
  induction l with
  | nil => rfl
  | cons c l ih =>
    simp only [List.mem_cons, forall_eq_or_imp] at h
    simp [chosen, h.1, ih h.2]

theorem independent_sound (n : Nat) (l : List (Bool × Nat)) (t : Nat)
    (h : independent n (l.map Prod.snd) t = true) :
    chosen l ≠ t ∧ ((∃ c ∈ l, c.1 = true) → chosen l ≠ 0) := by
  induction n generalizing l t with
  | zero =>
    cases l with
    | nil => simp [independent] at h; simpa [chosen] using Ne.symm h
    | cons c l => simp [independent] at h
  | succ n ih =>
    cases l with
    | nil => simp [independent] at h; simpa [chosen] using Ne.symm h
    | cons c l =>
      obtain ⟨b, v⟩ := c
      simp only [List.map_cons, independent] at h
      obtain ⟨p, hp⟩ : ∃ p, p = v.log2 := ⟨_, rfl⟩
      rw [← hp] at h
      cases hv : v.testBit p
      · simp [hv] at h
      simp only [hv] at h
      obtain ⟨r, hr⟩ : ∃ r, r = l.map fun c : Bool × Nat => (c.1, if c.2.testBit p then c.2 ^^^ v else c.2) :=
        ⟨_, rfl⟩
      have hm : (l.map Prod.snd).map (cleared v p) = r.map Prod.snd := by
        simp [hr, cleared_eq]
      rw [hm, cleared_eq] at h
      obtain ⟨k, hk⟩ := chosen_reduced v p l
      have hlow := chosen_low v p hv l
      rw [← hr] at hk hlow
      obtain ⟨h1, h2⟩ := ih r _ h
      have hany : (∃ c ∈ r, c.1 = true) ↔ ∃ c ∈ l, c.1 = true := by simp [hr]
      have hl : chosen l = chosen r ^^^ (if k then v else 0) := by
        rw [hk]; cases k <;> simp [Nat.xor_assoc]
      constructor
      · intro e
        exact h1 (eliminated v _ t p b k hv hlow (by rw [← hl]; exact e))
      · intro hc e
        have h0 : chosen r = 0 := by simpa using eliminated v _ 0 p b k hv hlow (by rw [← hl]; exact e)
        have hnone : ∀ c ∈ l, c.1 = false := by
          intro c hcm
          cases hc1 : c.1
          · rfl
          · exact absurd h0 (h2 (hany.2 ⟨c, hcm, hc1⟩))
        have hz := none_chosen l hnone
        have hv0 : v ≠ 0 := by rintro rfl; simp at hv
        cases b
        · obtain ⟨c, hcm, hc1⟩ := hc
          simp only [List.mem_cons] at hcm
          rcases hcm with rfl | hcm
          · simp at hc1
          · simp [hnone c hcm] at hc1
        · simp [chosen, hz] at e
          exact hv0 e

/-- The sublists of at most n elements. -/
def smallSublists : Nat → List Nat → List (List Nat)
  | _, [] => [[]]
  | 0, _ => [[]]
  | n + 1, a :: l => (smallSublists n l).map (a :: ·) ++ smallSublists (n + 1) l

theorem nil_mem_small (n : Nat) (l : List Nat) : [] ∈ smallSublists n l := by
  induction l generalizing n with
  | nil => cases n <;> simp [smallSublists]
  | cons a l ih => cases n <;> simp [smallSublists, ih]

theorem mem_small {n : Nat} {k l : List Nat} (h : k.Sublist l) (hk : k.length ≤ n) : k ∈ smallSublists n l := by
  induction h generalizing n with
  | slnil => exact nil_mem_small n []
  | cons a h ih =>
    cases n with
    | zero => simp at hk; subst hk; exact nil_mem_small _ _
    | succ n => simp [smallSublists, ih hk]
  | cons_cons a h ih =>
    cases n with
    | zero => simp at hk
    | succ n => simp only [List.length_cons, Nat.add_le_add_iff_right] at hk; simp [smallSublists, ih hk]

/-- The columns of every device of the code at reset, as numbers. -/
def resetColumns : List (List Nat) :=
  (List.range 20).map fun d => (deviceColumns Config.resetCode d).map BitVec.toNat

/-- The check over every choice of at most three devices whose first is the one given. -/
def codeCheck (table : List (List Nat)) (first : Nat) : Bool :=
  (smallSublists 2 ((List.range 20).drop (first + 1))).all fun rest =>
    independent 24 ((first :: rest).flatMap fun d => table.getD d []) 4294967295

/-- The same columns, written out. -/
def columnTable : List (List Nat) := [[117803597, 235538842, 471077417, 942154834, 1884309668, 3768619093, 3713875370, 2814016073],
  [910156088, 1820254064, 3640435680, 2917489629, 1205319335, 2394124627, 24896166, 49731921],
  [2451482029, 960255815, 1920511630, 3840950529, 3590160898, 3085375748, 1943220744, 3871040528],
  [1737146596, 3456736725, 2165450679, 522473075, 1044946150, 2089821649, 4164766399, 3984233571],
  [2790003999, 1368926782, 2720879740, 1499113720, 2998160877, 2037750471, 4075432339, 4190720571],
  [4112697945, 4148464050, 4085780345, 4211941106, 3944365305, 3409213679, 2338910403, 198245787],
  [3833951483, 3575113963, 3073297867, 1935443851, 3870823179, 3513591318, 3218754604, 1672058968],
  [1229850739, 2459701478, 958734545, 1917468863, 3834937443, 3577028038, 3077192337, 1943303231],
  [1743842162, 3472739300, 2179435477, 533924791, 1052448371, 2087398630, 4174797009, 3987845311],
  [3709469471, 2805204542, 1399327868, 2798655736, 1371353325, 2724683975, 1506721939, 2994838843],
  [3372728486, 2400099665, 52176802, 104353369, 208706738, 417342841, 819809010, 1621595385],
  [1444166918, 2888333836, 1162933272, 2325804336, 157153120, 314241984, 610925469, 1221782311],
  [1499239818, 2998417161, 2037214738, 4074429476, 4188644680, 4014954384, 3281956413, 2602647930],
  [3916949490, 3488535545, 2210511855, 463432643, 908318363, 1816572203, 3633086294, 2902851244],
  [3859222299, 3507363382, 3206298732, 1664645336, 3329290413, 2447441223, 1071507342, 2124927745],
  [4272693603, 3779412678, 3750397073, 2735281471, 1527917182, 3055834364, 1900587237, 3801107927],
  [1, 2, 4, 8, 16, 32, 64, 128],
  [256, 512, 1024, 2048, 4096, 8192, 16384, 32768],
  [65536, 131072, 262144, 524288, 1048576, 2097152, 4194304, 8388608],
  [16777216, 33554432, 67108864, 134217728, 268435456, 536870912, 1073741824, 2147483648]]

theorem columnTable_eq : resetColumns = columnTable := by decide +kernel
theorem columnTable_check : (List.range 20).all (codeCheck columnTable) = true := by decide +kernel

theorem chosen_append (l m : List (Bool × Nat)) : chosen (l ++ m) = chosen l ^^^ chosen m := by
  induction l with
  | nil => simp [chosen]
  | cons c l ih => simp [chosen, ih, Nat.xor_assoc]

theorem foldl_chosen (l : List (Bool × Word32)) (a : Word32) :
    ((l.map fun c => if c.1 then c.2 else 0).foldl (fun x y => x ^^^ y) a).toNat =
      a.toNat ^^^ chosen (l.map fun c => (c.1, c.2.toNat)) := by
  induction l generalizing a with
  | nil => simp [chosen]
  | cons c l ih =>
    rw [List.map_cons, List.foldl_cons, ih]
    cases h : c.1 <;> simp [chosen, h, Nat.xor_assoc]

/-- A word's bits as columns of their own. -/
theorem chosen_bits (v : Nat → Bool) (k i : Nat) :
    (chosen ((List.range k).map fun m => (v m, 2 ^ m))).testBit i = (decide (i < k) && v i) := by
  induction k with
  | zero => simp [chosen]
  | succ k ih =>
    rw [List.range_succ, List.map_append, chosen_append, Nat.testBit_xor, ih]
    simp only [List.map_cons, List.map_nil, chosen, Nat.xor_zero]
    rcases Nat.lt_trichotomy i k with h | h | h
    · have h1 : k ≠ i := by omega
      have h2 : i < k + 1 := by omega
      cases v k <;> simp [Nat.testBit_two_pow, h, h1, h2]
    · subst h; cases hv : v i <;> simp [hv]
    · have h1 : k ≠ i := by omega
      have h2 : ¬ i < k + 1 := by omega
      have h3 : ¬ i < k := by omega
      cases v k <;> simp [Nat.testBit_two_pow, h1, h2, h3]

/-- The columns of one device with the bits that a word has there. -/
def deviceBits (code : Code) (w : Codeword) (d : Nat) : List (Bool × Nat) :=
  (List.range 8).map fun b => (w.getLsbD (8 * d + b), (codeColumn code d b).toNat)

theorem syndrome_chosen (code : Code) (w : Codeword) :
    (syndrome code w).toNat = chosen ((List.range 20).flatMap (deviceBits code w)) := by
  have h1 : (checkSymbols code (w.setWidth 128)).toNat = chosen ((List.range 16).flatMap (deviceBits code w)) := by
    have e : (List.range 16).flatMap (deviceBits code w) =
        ((List.range 128).map fun n => (w.getLsbD n, codeColumn code (n / 8) (n % 8))).map
          fun c => (c.1, c.2.toNat) := by
      simp [deviceBits, List.range, List.range.loop]
    have h := foldl_chosen ((List.range 128).map fun n => (w.getLsbD n, codeColumn code (n / 8) (n % 8))) 0
    rw [show (0 : Word32).toNat = 0 from rfl, Nat.zero_xor] at h
    rw [e, ← h, checkSymbols, xorAll, List.map_map]
    congr 2
    apply List.map_congr_left
    intro n hn
    simp at hn
    simp [hn]
  have h2 : (w.extractLsb' 128 32).toNat = chosen ([16, 17, 18, 19].flatMap (deviceBits code w)) := by
    have e : [16, 17, 18, 19].flatMap (deviceBits code w) =
        (List.range 32).map fun m => (w.getLsbD (128 + m), 2 ^ m) := by
      simp [deviceBits, List.range, List.range.loop, codeColumn]
    rw [e]
    apply Nat.eq_of_testBit_eq
    intro i
    rw [chosen_bits (fun m => w.getLsbD (128 + m)) 32 i, ← BitVec.getLsbD, BitVec.getLsbD_extractLsb']
  have h3 : (List.range 20) = List.range 16 ++ [16, 17, 18, 19] := by decide
  rw [h3, List.flatMap_append, chosen_append, ← h1, ← h2, syndrome, BitVec.toNat_xor]

theorem chosen_support (code : Code) (w : Codeword) (l : List Nat) :
    chosen (l.flatMap (deviceBits code w)) =
      chosen ((l.filter fun d => w.extractLsb' (8 * d) 8 != 0).flatMap (deviceBits code w)) := by
  induction l with
  | nil => rfl
  | cons d l ih =>
    rw [List.flatMap_cons, chosen_append, ih, List.filter_cons]
    split
    · rw [List.flatMap_cons, chosen_append]
    · rename_i h
      have hz : w.extractLsb' (8 * d) 8 = 0 := by simpa using h
      rw [none_chosen (deviceBits code w d), Nat.zero_xor]
      intro c hc
      simp only [deviceBits, List.mem_map, List.mem_range] at hc
      obtain ⟨b, hb, rfl⟩ := hc
      have := congrArg (fun v => v.getLsbD b) hz
      simpa [hb] using this

/-- The line code at reset has the properties that DecodeKeepsItsGuarantee asks of a code, by elimination over every
choice of three devices. -/
theorem resetCode_distance (w : Codeword) (h0 : w ≠ 0) (h3 : symbolWeight w ≤ 3) :
    syndrome Config.resetCode w ≠ 0 ∧ syndrome Config.resetCode w ≠ BitVec.allOnes 32 := by
  have hn : ∀ v : Word32, (syndrome Config.resetCode w).toNat ≠ v.toNat → syndrome Config.resetCode w ≠ v :=
    fun v h e => h (by rw [e])
  suffices h : chosen ((List.range 20).flatMap (deviceBits Config.resetCode w)) ≠ 4294967295 ∧
      chosen ((List.range 20).flatMap (deviceBits Config.resetCode w)) ≠ 0 by
    rw [← syndrome_chosen] at h
    exact ⟨hn 0 h.2, hn (BitVec.allOnes 32) h.1⟩
  rw [chosen_support]
  obtain ⟨l, hl⟩ : ∃ l, l = (List.range 20).filter fun d => w.extractLsb' (8 * d) 8 != 0 := ⟨_, rfl⟩
  have hsub : l.Sublist (List.range 20) := by rw [hl]; exact List.filter_sublist
  have hlen : l.length ≤ 3 := by rw [hl, ← List.countP_eq_length_filter]; exact h3
  rw [← hl]
  have hany : ∃ c ∈ l.flatMap (deviceBits Config.resetCode w), c.1 = true := by
    by_contra hno
    push Not at hno
    apply h0
    apply BitVec.eq_of_getLsbD_eq
    intro i hi
    by_contra hb
    have hb : w.getLsbD i = true := by simpa using hb
    have hd : i / 8 ∈ l := by
      rw [hl, List.mem_filter]
      refine ⟨by simp; omega, ?_⟩
      simp only [bne_iff_ne, ne_eq]
      intro hz
      have := congrArg (fun v => v.getLsbD (i % 8)) hz
      simp [Nat.mod_lt, Nat.div_add_mod, hb] at this
    refine hno (w.getLsbD i, (codeColumn Config.resetCode (i / 8) (i % 8)).toNat) ?_ hb
    rw [List.mem_flatMap]
    refine ⟨i / 8, hd, ?_⟩
    simp only [deviceBits, List.mem_map, List.mem_range]
    exact ⟨i % 8, Nat.mod_lt _ (by omega), by rw [Nat.div_add_mod]⟩
  have hcheck : ∀ n < 20, codeCheck columnTable n = true := by
    intro n hn
    have := columnTable_check
    rw [List.all_eq_true] at this
    exact this n (by simpa using hn)
  cases l with
  | nil => simp at hany
  | cons d rest =>
    have hd : d < 20 := by simpa using hsub.subset (List.mem_cons_self)
    have hrest : rest.Sublist ((List.range 20).drop (d + 1)) := by
      have hp : (d :: rest).Pairwise (· < ·) := List.pairwise_lt_range.sublist hsub
      have hf : rest.Sublist ((List.range 20).filter fun x => d < x) := by
        have h1 : rest.filter (fun x => d < x) = rest := by
          rw [List.filter_eq_self]
          intro x hx
          simpa using (List.pairwise_cons.1 hp).1 x hx
        rw [← h1]
        exact ((List.sublist_cons_self d rest).trans hsub).filter _
      have h2 : ((List.range 20).filter fun x => d < x) = (List.range 20).drop (d + 1) := by
        have : ∀ d < 20, ((List.range 20).filter fun x => d < x) = (List.range 20).drop (d + 1) := by decide
        exact this d hd
      rwa [h2] at hf
    have hm := mem_small hrest (n := 2) (by simp at hlen; omega)
    have hc := hcheck d hd
    rw [codeCheck, List.all_eq_true] at hc
    have hi := hc rest hm
    have hcols : ((d :: rest).flatMap fun d => columnTable.getD d []) =
        ((d :: rest).flatMap (deviceBits Config.resetCode w)).map Prod.snd := by
      rw [List.map_flatMap, List.flatMap_def, List.flatMap_def]
      congr 1
      apply List.map_congr_left
      intro x hx
      have hx : x < 20 := by simpa using hsub.subset hx
      rw [← columnTable_eq]
      simp [resetColumns, hx, deviceBits, deviceColumns, Function.comp_def]
    rw [hcols] at hi
    obtain ⟨a, b⟩ := independent_sound _ _ _ hi
    exact ⟨a, b hany⟩

end Sys2Proof.Laws.LineCode
end

