-- ==== Sys2Proof/Laws/PatrolLaws.lean ====
section
/-! SUPPORT. The operations of the Patrol Engine, the quiet window and settle: each is a Settled step, which moves no region
entry, opens no window and touches nothing outside the patrol's reach, and each keeps the engine state in agreement with
the slots and the window. -/

namespace Sys2Proof.Machine

open Sys2Proof

/-- The effect of the Patrol Engine's own actions. -/
def Settled (s t : State) : Prop :=
  AlertStep s.link t.link ∧ WorkStep s.port.accesses s.wbq t.port.accesses t.wbq ∧ s.report.Later t.report ∧
  (TsqBounded s.patrol.tsq → TsqBounded t.patrol.tsq) ∧
  t.repair.jobs.length = s.repair.jobs.length ∧
  t.regions.map Region.entry = s.regions.map Region.entry ∧
  (s.window = none → t.window = none) ∧
  t = { s with link := { s.link with returns := t.link.returns }
               port := { s.port with accesses := t.port.accesses }
               wbq := t.wbq, regions := t.regions, patrol := t.patrol, window := t.window
               repair := { s.repair with jobs := t.repair.jobs }, report := t.report, counters := t.counters }

theorem Settled.refl (s : State) : Settled s s := ⟨.refl _, .refl _ _, .refl _, id, rfl, rfl, id, rfl⟩

theorem Settled.trans {a b c : State} (h : Settled a b) (k : Settled b c) : Settled a c := by
  obtain ⟨h1, h2, h3, h4, h5, h6, h7, h8⟩ := h
  obtain ⟨k1, k2, k3, k4, k5, k6, k7, k8⟩ := k
  refine ⟨h1.trans k1, h2.trans k2, h3.trans k3, k4 ∘ h4, k5.trans h5, k6.trans h6, k7 ∘ h7, ?_⟩
  rw [k8, h8]

theorem Settled.ite {p : Prop} [Decidable p] {s a b : State} (h : Settled s a) (k : Settled s b) :
    Settled s (if p then a else b) := by split <;> assumption

theorem Noted.settled {s t : State} (h : Noted s t) : Settled s t := by
  obtain ⟨h1, h2, h3, h4⟩ := h
  rw [h4]
  exact ⟨h1.only, h2, h3, id, rfl, rfl, id, rfl⟩

theorem Settled.count (c : Ctr) (s : State) : Settled s (count c s) := (Noted.count c s).settled

theorem Settled.raise (c : Cause) (s : State) : Settled s (raise c s) := (raise_alerted c s).noted.settled

theorem Settled.record (r : Record) (s : State) : Settled s (handRecord r s) := (handRecord_noted r s).settled

theorem Settled.take (line : Nat) (kind : AccessKind) (phase : Phase) (s : State) (hw : kind ≠ .writeBack)
    (ht : kind.tag? = none) : Settled s (takeAccess line kind phase s) := (Noted.takeAccess line kind phase s hw ht).settled

/-- The patrol's state replaced, the queue of targeted jobs within what it promises. -/
theorem Settled.patrol (s : State) (p : Patrol) (h : TsqBounded s.patrol.tsq → TsqBounded p.tsq) :
    Settled s { s with patrol := p } :=
  ⟨.refl _, .refl _ _, .refl _, h, rfl, rfl, id, rfl⟩

/-- The open window changed, or none opened. -/
theorem Settled.window (s : State) (w : Option Window) (h : s.window = none → w = none) :
    Settled s { s with window := w } :=
  ⟨.refl _, .refl _ _, .refl _, id, rfl, rfl, h, rfl⟩

/-- A region replaced by one with the same entry keeps every entry. -/
theorem entries_set (l : List Region) (i : Nat) (g : Region) (h : g.entry = (l.getD i {}).entry) :
    (l.set i g).map Region.entry = l.map Region.entry := by
  apply List.ext_getElem
  · simp
  · intro n h1 h2
    simp only [List.getElem_map, List.getElem_set]
    split
    · rename_i hn
      subst hn
      simp only [List.length_map] at h2
      rw [h]
      simp [List.getD, h2]
    · rfl

/-- A region whose status alone changes. -/
theorem Settled.region (i : Nat) (g : Region) (s : State) (h : g.entry = (regionAt s i).entry) :
    Settled s (setRegion i g s) :=
  ⟨.refl _, .refl _ _, .refl _, id, rfl, entries_set _ _ _ h, id, rfl⟩

theorem Settled.sweepState (i : Nat) (v : SweepState) (s : State) : Settled s (setSweepState i v s) :=
  .region i _ s rfl

theorem setRunningJob_settled (j : Job) (s : State) : Settled s (setRunningJob j s) := by
  unfold setRunningJob
  split
  · rename_i rest h
    refine ⟨.refl _, .refl _ _, .refl _, id, ?_, rfl, id, rfl⟩
    rw [h]
    rfl
  · exact .refl s

theorem takePair_settled (s : State) : Settled s (takePair s) := by
  unfold takePair
  split
  · exact .refl s
  · split
    · dsimp only
      split
      · exact ((Settled.take _ _ _ _ (by simp) rfl).trans (setRunningJob_settled _ _)).trans (.count _ _)
      · exact (Settled.take _ _ _ _ (by simp) rfl).trans (.take _ _ _ _ (by simp) rfl)
    · exact .refl s

theorem resumeCopy_settled (s : State) : Settled s (resumeCopy s) := .ite (.refl s) (takePair_settled s)

/-! ## The engine state, the slots and the window in agreement -/

/-- What a region shows of its sweep: whether its entry is valid, and its sweep state (R57). -/
def Region.standing (g : Region) : Bool × SweepState := (g.entry.valid, g.status.state)

/-- The regions named by the slots and the held record, and what each region shows of its sweep, as they were. -/
def SlotSame (s t : State) : Prop :=
  t.patrol.active.map Sweep.region = s.patrol.active.map Sweep.region ∧
  t.patrol.staged.map Staged.region = s.patrol.staged.map Staged.region ∧
  t.patrol.held.map Sweep.region = s.patrol.held.map Sweep.region ∧
  t.regions.map Region.standing = s.regions.map Region.standing

theorem SlotSame.refl (s : State) : SlotSame s s := ⟨rfl, rfl, rfl, rfl⟩

theorem SlotSame.trans {a b c : State} (h : SlotSame a b) (k : SlotSame b c) : SlotSame a c :=
  ⟨k.1.trans h.1, k.2.1.trans h.2.1, k.2.2.1.trans h.2.2.1, k.2.2.2.trans h.2.2.2⟩

theorem SlotSame.ite {p : Prop} [Decidable p] {s a b : State} (h : SlotSame s a) (k : SlotSame s b) :
    SlotSame s (if p then a else b) := by split <;> assumption

/-- The engine state, whether a window is open, the regions named by the slots and the held record, and what each region
shows of its sweep, as they were. -/
def EngineSame (s t : State) : Prop :=
  t.patrol.engine = s.patrol.engine ∧ t.window.isSome = s.window.isSome ∧ SlotSame s t

theorem EngineSame.refl (s : State) : EngineSame s s := ⟨rfl, rfl, .refl s⟩

theorem EngineSame.trans {a b c : State} (h : EngineSame a b) (k : EngineSame b c) : EngineSame a c :=
  ⟨k.1.trans h.1, k.2.1.trans h.2.1, h.2.2.trans k.2.2⟩

theorem EngineSame.legal {s t : State} (h : EngineSame s t) (k : EngineLegal s) : EngineLegal t := by
  obtain ⟨h1, h4, a, _, b, _⟩ := h
  have h2 : t.patrol.active.isSome = s.patrol.active.isSome := by simpa using congrArg Option.isSome a
  have h3 : t.patrol.held.isSome = s.patrol.held.isSome := by simpa using congrArg Option.isSome b
  obtain ⟨k1, k2, k3, k4⟩ := k
  have hw : s.window = none ↔ t.window = none := by
    cases hs : s.window <;> cases ht : t.window <;> simp [hs, ht] at h4 ⊢
  refine ⟨?_, ?_, ?_, ?_⟩
  · rw [h1, h2, ← hw]; exact k1
  · rw [h1, h2, h4]; exact k2
  · rw [h1, h2]; exact k3
  · rw [h1, h3]; exact k4

theorem Noted.engine {s t : State} (h : Noted s t) : EngineSame s t := by
  have := h.fields
  refine ⟨?_, ?_, ?_, ?_, ?_, ?_⟩ <;> simp [this]

theorem Alerted.engine {s t : State} (h : Alerted s t) : EngineSame s t := h.noted.engine

theorem resumeCopy_engine (s : State) : EngineSame s (resumeCopy s) := by
  obtain ⟨_, _, _, _, _, _, _, _, _, h⟩ := resumeCopy_inner s
  have hw : (resumeCopy s).window = s.window := by rw [h]
  have hp : (resumeCopy s).patrol = { s.patrol with tsq := (resumeCopy s).patrol.tsq } := by
    conv => lhs; rw [h]
  have hr : (resumeCopy s).regions = s.regions := by rw [h]
  exact ⟨by rw [hp], by rw [hw], by rw [hp], by rw [hp], by rw [hp], by rw [hr]⟩

/-! ## Pace and the window -/

theorem pacedSweep_region (m : AccessMode) (p : Nat) (t : Int) (w : Sweep) : (pacedSweep m p t w).region = w.region := by
  unfold pacedSweep
  cases m <;> dsimp only <;> repeat' split
  all_goals rfl

theorem reportRisk_settled (s : State) : Settled s (reportRisk s) := by
  unfold reportRisk
  split
  · split
    · exact (Settled.patrol s { s.patrol with active := some _ } id).trans ((Settled.raise _ _).trans (.count _ _))
    · exact .refl s
  · exact .refl s

theorem reportRisk_engine (s : State) : EngineSame s (reportRisk s) := by
  unfold reportRisk
  split
  · rename_i w h
    split
    · have h1 : EngineSame s { s with patrol := { s.patrol with active := some { w with atRiskReported := true } } } :=
        ⟨rfl, rfl, by simp [h], rfl, rfl, rfl⟩
      exact h1.trans ((raise_alerted _ _).engine.trans (Noted.count _ _).engine)
    · exact .refl s
  · exact .refl s

theorem recompute_settled (s : State) : Settled s (recompute s) := by
  unfold recompute
  split
  · exact (Settled.patrol s { s.patrol with active := some _ } id).trans (reportRisk_settled _)
  · exact .refl s

theorem recompute_engine (s : State) : EngineSame s (recompute s) := by
  unfold recompute
  split
  · rename_i w h
    have h1 : ∀ v : Sweep, v.region = w.region → EngineSame s { s with patrol := { s.patrol with active := some v } } :=
      fun v hv => ⟨rfl, rfl, by simp [h, hv], rfl, rfl, rfl⟩
    exact (h1 _ (pacedSweep_region _ _ _ _)).trans (reportRisk_engine _)
  · exact .refl s

theorem closeWindow_settled (s : State) : Settled s (closeWindow s) := by
  have h : ∀ u : State, Settled u (if u.patrol.engine = .paused
      then recompute { u with patrol := { u.patrol with engine := .running } } else u) := fun u =>
    .ite ((Settled.patrol u _ id).trans (recompute_settled _)) (.refl u)
  exact ((Settled.window s none fun _ => rfl).trans (h _)).trans (resumeCopy_settled _)

theorem closeWindow_window (s : State) : (closeWindow s).window = none := by
  have h : ∀ u : State, u.window = none → (if u.patrol.engine = .paused
      then recompute { u with patrol := { u.patrol with engine := .running } } else u).window = none := by
    intro u hu
    split
    · exact (recompute_settled _).2.2.2.2.2.2.1 hu
    · exact hu
  exact (resumeCopy_settled _).2.2.2.2.2.2.1 (h { s with window := none } rfl)

theorem closeWindow_legal (s : State) (h : EngineLegal s) : EngineLegal (closeWindow s) := by
  have hc : ∀ u : State, u.window = none → EngineLegal { u with window := s.window } →
      EngineLegal (if u.patrol.engine = .paused
        then recompute { u with patrol := { u.patrol with engine := .running } } else u) := by
    intro u hu hl
    obtain ⟨l1, l2, l3, l4⟩ := hl
    split
    · rename_i hp
      refine (recompute_engine _).legal ⟨fun _ => ⟨(l2 hp).1, hu⟩, by simp, by simp, ?_⟩
      intro hh
      have := l4 hh
      simp [hp] at this
    · rename_i hp
      exact ⟨fun hr => ⟨(l1 hr).1, hu⟩, fun hr => absurd hr hp, l3, l4⟩
  exact (resumeCopy_engine _).legal (hc { s with window := none } rfl h)

theorem overrideWindow_settled (a b : Elapsed) (s : State) : Settled s (overrideWindow a b s) :=
  (closeWindow_settled s).trans ((Settled.raise _ _).trans ((Settled.record _ _).trans (.count _ _)))

theorem overrideWindow_legal (a b : Elapsed) (s : State) (h : EngineLegal s) : EngineLegal (overrideWindow a b s) :=
  ((raise_alerted _ _).engine.trans ((handRecord_noted _ _).engine.trans (Noted.count _ _).engine)).legal
    (closeWindow_legal s h)

theorem overrideWindow_window (a b : Elapsed) (s : State) : (overrideWindow a b s).window = none := by
  have h := closeWindow_window s
  exact ((Settled.raise _ _).trans ((Settled.record _ _).trans (.count _ _))).2.2.2.2.2.2.1 h

theorem reviewOverride_settled (s : State) : Settled s (reviewOverride s) := by
  unfold reviewOverride
  split
  · exact .refl s
  · rename_i win hw
    have h : ∀ w : Option Window, Settled s { s with window := w } := fun w =>
      .window s w (fun hn => by rw [hw] at hn; cases hn)
    split
    · split
      · dsimp only
        split
        · exact h _
        · split
          · exact h _
          · exact overrideWindow_settled _ _ _
      · exact h _
    · exact h _

theorem reviewOverride_legal (s : State) (hl : EngineLegal s) : EngineLegal (reviewOverride s) := by
  unfold reviewOverride
  split
  · exact hl
  · rename_i win hw
    have h : ∀ w : Window, EngineLegal { s with window := some w } := fun w =>
      EngineSame.legal (s := s) ⟨rfl, by simp [hw], .refl s⟩ hl
    split
    · split
      · dsimp only
        split
        · exact h _
        · split
          · exact h _
          · exact overrideWindow_legal _ _ _ hl
      · exact h _
    · exact h _

/-! ## Sweeps -/

theorem startSweep_settled (i : Nat) (host : Bool) (s : State) : Settled s (startSweep i host s) := by
  have h1 : ∀ st : RegionStatus, Settled s (setRegion i { regionAt s i with status := st } s) :=
    fun st => .region i _ s rfl
  have h2 : ∀ (u : State) (e : EngineState) (w : Option Sweep),
      Settled u { u with patrol := { u.patrol with engine := e, active := w } } := fun u e w => .patrol u _ id
  exact ((h1 _).trans (h2 _ _ _)).trans ((recompute_settled _).trans (reviewOverride_settled _))

theorem startSweep_legal (i : Nat) (host : Bool) (s : State) (h : s.patrol.held = none) :
    EngineLegal (startSweep i host s) := by
  have key : ∀ (u : State) (w : Sweep), u.patrol.held = none → EngineLegal { u with patrol := { u.patrol with
      engine := if u.quiet then .paused else .running, active := some w } } := by
    intro u w hu
    cases hw : u.window <;> simp [EngineLegal, State.quiet, hw, hu]
  have h1 : ∀ st : RegionStatus, (setRegion i { regionAt s i with status := st } s).patrol.held = none := fun _ => h
  exact reviewOverride_legal _ ((recompute_engine _).legal (key _ _ (h1 _)))

theorem EngineLegal.held_none {s : State} (h : EngineLegal s) (hs : s.patrol.engine.selects = true) :
    s.patrol.held = none := by
  cases hh : s.patrol.held with
  | none => rfl
  | some w =>
    have := h.2.2.2 (by simp [hh])
    rw [this] at hs
    simp [EngineState.selects] at hs

theorem promote_settled (s : State) : Settled s (promote s) := by
  unfold promote
  split
  · exact .ite ((Settled.patrol s { s.patrol with staged := none } id).trans (startSweep_settled _ _ _)) (.refl s)
  · exact .refl s

theorem promote_legal (s : State) (h : EngineLegal s) : EngineLegal (promote s) := by
  unfold promote
  split
  · split
    · rename_i hs
      exact startSweep_legal _ _ _ (h.held_none hs)
    · exact h
  · exact h

theorem selectStaged_settled (s : State) : Settled s (selectStaged s) := by
  unfold selectStaged
  split
  · split
    · exact (Settled.patrol s { s.patrol with staged := some _ } id).trans (.sweepState _ _ _)
    · exact .refl s
  · exact .refl s

theorem selectStaged_legal (s : State) (h : EngineLegal s) : EngineLegal (selectStaged s) := by
  unfold selectStaged
  split
  · split
    · exact h
    · exact h
  · exact h

theorem runSelection_settled (s : State) : Settled s (runSelection s) :=
  (selectStaged_settled s).trans (.ite ((promote_settled _).trans (selectStaged_settled _)) (.refl _))

theorem runSelection_legal (s : State) (h : EngineLegal s) : EngineLegal (runSelection s) := by
  have h1 := selectStaged_legal s h
  have h2 := selectStaged_legal _ (promote_legal _ h1)
  unfold runSelection
  dsimp only
  split
  · exact h2
  · exact h1

/-- A completed sweep's region becomes IDLE; the slots, the engine and the window stay (R81). -/
theorem finishSweep_spec (w : Sweep) (s : State) :
    Settled s (finishSweep w s) ∧ (finishSweep w s).patrol = s.patrol ∧ (finishSweep w s).window = s.window ∧
    (finishSweep w s).regions.map Region.standing = (s.regions.map Region.standing).set w.region
      ((regionAt s w.region).entry.valid, .idle) := by
  have hr : ∀ st : RegionStatus, st.state = .idle →
      let u := setRegion w.region { regionAt s w.region with status := st } s
      Settled s u ∧ u.patrol = s.patrol ∧ u.window = s.window ∧ u.regions.map Region.standing =
        (s.regions.map Region.standing).set w.region ((regionAt s w.region).entry.valid, .idle) := fun st hst =>
    ⟨.region _ _ s rfl, rfl, rfl, by simp [setRegion, List.map_set, Region.standing, hst]⟩
  have hn : ∀ (b c : State) (l : List (Bool × SweepState)),
      (Settled s b ∧ b.patrol = s.patrol ∧ b.window = s.window ∧ b.regions.map Region.standing = l) → Noted b c →
      Settled s c ∧ c.patrol = s.patrol ∧ c.window = s.window ∧ c.regions.map Region.standing = l := fun b c l h k =>
    ⟨h.1.trans k.settled, k.fields.2.2.2.2.2.2.2.1.trans h.2.1, k.fields.2.2.2.2.2.2.2.2.1.trans h.2.2.1,
      by rw [k.fields.2.2.2.2.2.2.1]; exact h.2.2.2⟩
  unfold finishSweep
  dsimp only
  have h2 : ∀ (u : State) (p : Prop) [Decidable p], Noted u (if p then
      raise .sweepLate (handRecord (sweepRecord 10 w u) u) else u) := by
    intro u p _
    split
    · exact (handRecord_noted _ _).trans (raise_alerted _ _).noted
    · exact .refl u
  have h3 := hn _ _ _ (hr { (regionAt s w.region).status with
    state := .idle, lastEnd := s.now, completed := satAdd (regionAt s w.region).status.completed 1
    late := satAdd (regionAt s w.region).status.late (elapsedBefore w.deadline s.now).toNat } rfl) (h2 _ (elapsedBefore w.deadline s.now = true))
  split
  · exact hn _ _ _ h3 (handRecord_noted _ _)
  · exact h3

theorem completeActive_settled (w : Sweep) (s : State) : Settled s (completeActive w s) := by
  have h1 := (finishSweep_spec w s).1
  have h2 : ∀ u : State, Settled u { u with patrol := { u.patrol with active := none, engine := .idle } } :=
    fun u => .patrol u _ id
  have h3 := ((h1.trans (h2 _)).trans (reviewOverride_settled _)).trans ((promote_settled _).trans (runSelection_settled _))
  exact h3.trans (.ite (.raise _ _) (.refl _))

theorem completeActive_legal (w : Sweep) (s : State) (h : EngineLegal s) (ha : s.patrol.active.isSome) :
    EngineLegal (completeActive w s) := by
  obtain ⟨_, h3, _⟩ := finishSweep_spec w s
  have hh : (finishSweep w s).patrol.held = none := by
    rw [h3]
    cases hc : s.patrol.held with
    | none => rfl
    | some v =>
      have h4 := h.2.2.2 (by simp [hc])
      have h5 := h.2.2.1 ha
      simp [h4] at h5
  have h4 : EngineLegal { finishSweep w s with
      patrol := { (finishSweep w s).patrol with active := none, engine := .idle } } :=
    ⟨by simp, by simp, by simp, by simp [hh]⟩
  have h5 := runSelection_legal _ (promote_legal _ (reviewOverride_legal _ h4))
  unfold completeActive
  dsimp only
  split
  · exact (raise_alerted _ _).engine.legal h5
  · exact h5

theorem completeHeld_settled (w : Sweep) (s : State) : Settled s (completeHeld w s) :=
  (Settled.patrol s { s.patrol with held := none } id).trans (finishSweep_spec w _).1

theorem completeHeld_legal (w : Sweep) (s : State) (h : EngineLegal s) : EngineLegal (completeHeld w s) := by
  obtain ⟨_, h1, h2, _⟩ := finishSweep_spec w { s with patrol := { s.patrol with held := none } }
  unfold completeHeld EngineLegal
  rw [h1, h2]
  exact ⟨h.1, h.2.1, h.2.2.1, by simp⟩

/-! ## The issue of lines -/

/-- The active sweep replaced by another. -/
theorem engine_active (s : State) (v : Sweep) (h : s.patrol.active.map Sweep.region = some v.region) :
    EngineSame s { s with patrol := { s.patrol with active := some v } } := ⟨rfl, rfl, by simp [h], rfl, rfl, rfl⟩

theorem issueLine_settled (w : Sweep) (s : State) : Settled s (issueLine w s) := by
  have h1 : ∀ v : Sweep, Settled s (count .patrolLines { s with patrol := { s.patrol with active := some v } }) :=
    fun v => (Settled.patrol s { s.patrol with active := some v } id).trans (.count _ _)
  have h2 : ∀ (u : State) (p : Prop) [Decidable p], Settled u (if p then count .scrubLinesSkipped u
      else takeAccess w.cursor (.patrolRead true) .waiting u) := fun u p _ => .ite (.count _ _) (.take _ _ _ _ (by simp) rfl)
  exact ((h1 _).trans (h2 _ _)).trans (.ite (recompute_settled _) (.refl _))

theorem issueLine_engine (w : Sweep) (s : State) (h : s.patrol.active.map Sweep.region = some w.region) :
    EngineSame s (issueLine w s) := by
  have h1 : ∀ v : Sweep, v.region = w.region →
      EngineSame s (count .patrolLines { s with patrol := { s.patrol with active := some v } }) :=
    fun v hv => (engine_active s v (hv ▸ h)).trans (Noted.count _ _).engine
  have h2 : ∀ (u : State) (p : Prop) [Decidable p], EngineSame u (if p then count .scrubLinesSkipped u
      else takeAccess w.cursor (.patrolRead true) .waiting u) := by
    intro u p _
    split
    · exact (Noted.count _ _).engine
    · exact (Noted.takeAccess _ _ _ _ (by simp) rfl).engine
  have h3 : ∀ (u : State) (p : Prop) [Decidable p], EngineSame u (if p then recompute u else u) := by
    intro u p _
    split
    · exact recompute_engine u
    · exact .refl u
  exact ((h1 { w with
    cursor := w.cursor + 1, remaining := w.remaining - 1, issued := w.issued + 1
    inFlight := if (wbFind s w.cursor).isSome then w.inFlight else w.inFlight + 1, jobSince := false
    deferred := false } rfl).trans (h2 _ _)).trans (h3 _ _)

theorem issueBoundary_settled (w : Sweep) (s : State) : Settled s (issueBoundary w s) := by
  unfold issueBoundary
  split
  · exact issueLine_settled _ _
  · exact issueLine_settled _ _
  · exact issueLine_settled _ _

theorem issueBoundary_engine (w : Sweep) (s : State) (h : s.patrol.active.map Sweep.region = some w.region) :
    EngineSame s (issueBoundary w s) := by
  unfold issueBoundary
  split
  · exact issueLine_engine _ _ h
  · exact issueLine_engine _ _ h
  · exact issueLine_engine _ _ h

/-! ## Targeted jobs -/

theorem setTsq_settled (e : TsqEntry) (s : State) : Settled s (setTsq e s) :=
  .patrol s _ fun h => h.setTsq e

theorem setTsq_engine (e : TsqEntry) (s : State) : EngineSame s (setTsq e s) := ⟨rfl, rfl, .refl _⟩

theorem removeTsq_settled (e : TsqEntry) (s : State) : Settled s (removeTsq e s) :=
  .patrol s _ fun h => ⟨le_trans (List.length_filter_le _ _) h.1, (List.filter_sublist.map _).nodup h.2⟩

theorem removeTsq_engine (e : TsqEntry) (s : State) : EngineSame s (removeTsq e s) := ⟨rfl, rfl, .refl _⟩

theorem atBoundary_settled (w : Sweep) (s : State) : Settled s (atBoundary w s) := by
  unfold atBoundary
  split
  · exact .refl s
  · split
    · exact (Settled.patrol s { s.patrol with active := some _ } id).trans (setTsq_settled _ _)
    · exact issueBoundary_settled _ _

theorem atBoundary_engine (w : Sweep) (s : State) (h : s.patrol.active.map Sweep.region = some w.region) :
    EngineSame s (atBoundary w s) := by
  unfold atBoundary
  split
  · exact .refl s
  · split
    · exact (engine_active s _ h).trans (setTsq_engine _ _)
    · exact issueBoundary_engine _ _ h

theorem releaseBoundary_settled (s : State) : Settled s (releaseBoundary s) := .patrol s _ id

theorem releaseBoundary_engine (s : State) : EngineSame s (releaseBoundary s) :=
  ⟨rfl, rfl, by simp [releaseBoundary, Function.comp_def], rfl, rfl, rfl⟩

theorem deferredIssue_settled (s : State) : Settled s (deferredIssue s) := by
  unfold deferredIssue
  split
  · exact .ite (issueBoundary_settled _ _) (releaseBoundary_settled _)
  · exact .refl s

theorem deferredIssue_engine (s : State) : EngineSame s (deferredIssue s) := by
  unfold deferredIssue
  split
  · rename_i w h
    split
    · exact issueBoundary_engine _ _ (by simp [h])
    · exact releaseBoundary_engine _
  · exact .refl s

/-- Whether a job has completed since the last issue, noted in both slots. -/
theorem jobSince_steps (s : State) :
    Settled s { s with patrol := { s.patrol with
      active := s.patrol.active.map fun w => { w with jobSince := true }
      held := s.patrol.held.map fun w => { w with jobSince := true } } } ∧
    EngineSame s { s with patrol := { s.patrol with
      active := s.patrol.active.map fun w => { w with jobSince := true }
      held := s.patrol.held.map fun w => { w with jobSince := true } } } :=
  ⟨.patrol s _ id, rfl, rfl, by simp [Function.comp_def], rfl, by simp [Function.comp_def], rfl⟩

theorem completeJob_settled (e : TsqEntry) (s : State) : Settled s (completeJob e s) :=
  (((removeTsq_settled e s).trans (.count _ _)).trans (jobSince_steps _).1).trans
    ((recompute_settled _).trans (deferredIssue_settled _))

theorem completeJob_engine (e : TsqEntry) (s : State) : EngineSame s (completeJob e s) :=
  (((removeTsq_engine e s).trans (Noted.count _ _).engine).trans (jobSince_steps _).2).trans
    ((recompute_engine _).trans (deferredIssue_engine _))

theorem discardJob_settled (e : TsqEntry) (s : State) : Settled s (discardJob e s) := by
  have h : Settled s (count .targetedJobsDiscarded (removeTsq e s)) := (removeTsq_settled e s).trans (.count _ _)
  unfold discardJob
  dsimp only
  split
  · split
    · exact h.trans ((releaseBoundary_settled _).trans (atBoundary_settled _ _))
    · exact h.trans (releaseBoundary_settled _)
  · exact h

theorem discardJob_engine (e : TsqEntry) (s : State) : EngineSame s (discardJob e s) := by
  have h : EngineSame s (count .targetedJobsDiscarded (removeTsq e s)) :=
    (removeTsq_engine e s).trans (Noted.count _ _).engine
  unfold discardJob
  dsimp only
  split
  · rename_i w hw
    split
    · refine h.trans ((releaseBoundary_engine _).trans (atBoundary_engine _ _ ?_))
      have hw' : s.patrol.active = some w := hw
      simp [releaseBoundary, Machine.count_patrol, removeTsq, hw']
    · exact h.trans (releaseBoundary_engine _)
  · exact h

theorem advanceJob_settled (e : TsqEntry) (s : State) : Settled s (advanceJob e s) := by
  unfold advanceJob
  split
  · exact completeJob_settled e s
  · split
    · exact (setTsq_settled _ _).trans (releaseBoundary_settled _)
    · split
      · exact discardJob_settled e s
      · dsimp only
        split
        · exact setTsq_settled _ _
        · split
          · exact (setTsq_settled _ _).trans (.count _ _)
          · exact (setTsq_settled _ _).trans (.take _ _ _ _ (by simp) rfl)

theorem advanceJob_engine (e : TsqEntry) (s : State) : EngineSame s (advanceJob e s) := by
  unfold advanceJob
  split
  · exact completeJob_engine e s
  · split
    · exact (setTsq_engine _ _).trans (releaseBoundary_engine _)
    · split
      · exact discardJob_engine e s
      · dsimp only
        split
        · exact setTsq_engine _ _
        · split
          · exact (setTsq_engine _ _).trans (Noted.count _ _).engine
          · exact (setTsq_engine _ _).trans (Noted.takeAccess _ _ _ _ (by simp) rfl).engine

/-! ## Settle -/

/-- One immediate action of the engine is a Settled step and keeps the engine state legal. -/
theorem settleOnce_spec (s t : State) (h : settleOnce s = some t) :
    Settled s t ∧ (EngineLegal s → EngineLegal t) := by
  unfold settleOnce at h
  split at h
  · rename_i w hw
    simp only [Option.some.injEq] at h
    rw [← h]
    have ha : s.patrol.active.isSome := by
      cases hc : s.patrol.active with
      | none => simp [hc] at hw
      | some v => rfl
    exact ⟨completeActive_settled w s, fun hl => completeActive_legal w s hl ha⟩
  · split at h
    · simp only [Option.some.injEq] at h
      rw [← h]
      exact ⟨completeHeld_settled _ s, fun hl => completeHeld_legal _ s hl⟩
    · split at h
      · simp only [Option.some.injEq] at h
        rw [← h]
        exact ⟨advanceJob_settled _ s, fun hl => (advanceJob_engine _ s).legal hl⟩
      · split at h
        · rename_i w hw
          simp only [Option.some.injEq] at h
          rw [← h]
          have ha := (Option.filter_eq_some_iff.mp hw).1
          exact ⟨issueLine_settled _ s, fun hl => (issueLine_engine _ s (by simp [ha])).legal hl⟩
        · split at h
          · rename_i w hw
            simp only [Option.some.injEq] at h
            rw [← h]
            have ha := (Option.filter_eq_some_iff.mp hw).1
            exact ⟨atBoundary_settled w s, fun hl => (atBoundary_engine w s (by simp [ha])).legal hl⟩
          · split at h
            · obtain ⟨e, _, rfl⟩ := Option.map_eq_some_iff.mp h
              exact ⟨setTsq_settled _ s, fun hl => (setTsq_engine _ s).legal hl⟩
            · cases h

theorem settleWith_spec (n : Nat) (s : State) :
    Settled s (settleWith n s) ∧ (EngineLegal s → EngineLegal (settleWith n s)) := by
  induction n generalizing s with
  | zero => exact ⟨.refl s, id⟩
  | succ n ih =>
    simp only [settleWith]
    split
    · rename_i t ht
      obtain ⟨h1, h2⟩ := settleOnce_spec s t ht
      obtain ⟨i1, i2⟩ := ih t
      exact ⟨h1.trans i1, i2 ∘ h2⟩
    · exact ⟨.refl s, id⟩

/-- What the immediate actions that close a command can do. -/
theorem settle_settled (s : State) : Settled s (settle s) := (settleWith_spec _ s).1

theorem settle_legal (s : State) (h : EngineLegal s) : EngineLegal (settle s) := (settleWith_spec _ s).2 h

end Sys2Proof.Machine
end

