-- ==== Sys2Proof/Laws/PortLaws.lean ====
section
/-! SUPPORT. The Disturbance Watch and the DRAM Port: what a counted activation, a grant and the performing of an access can
do, and the DRAM as last written. -/

namespace Sys2Proof.Machine

open Sys2Proof

/-! ## The Disturbance Watch -/

/-- The effect of the Disturbance Watch while the threshold stands: its tables keep what R156 promises, and nothing else
moves but the queue of targeted jobs, records, causes and counters. -/
def Watched (s t : State) : Prop :=
  AlertStep s.link t.link ∧ WorkStep s.port.accesses s.wbq t.port.accesses t.wbq ∧ s.report.Later t.report ∧
  (TsqBounded s.patrol.tsq → TsqBounded t.patrol.tsq) ∧
  t = { s with link := { s.link with returns := t.link.returns }
               port := { s.port with accesses := t.port.accesses }
               wbq := t.wbq, patrol := { s.patrol with tsq := t.patrol.tsq }, hammer := t.hammer
               report := t.report, counters := t.counters }

theorem Watched.refl (s : State) : Watched s s := ⟨.refl _, .refl _ _, .refl _, id, rfl⟩

theorem Watched.trans {a b c : State} (h : Watched a b) (k : Watched b c) : Watched a c := by
  obtain ⟨h1, h2, h3, h4, h5⟩ := h
  obtain ⟨k1, k2, k3, k4, k5⟩ := k
  refine ⟨h1.trans k1, h2.trans k2, h3.trans k3, k4 ∘ h4, ?_⟩
  rw [k5, h5]

theorem Noted.watched {s t : State} (h : Noted s t) : Watched s t := by
  obtain ⟨h1, h2, h3, h4⟩ := h
  rw [h4]
  exact ⟨h1.only, h2, h3, id, rfl⟩

/-- The activation tables replaced. -/
theorem Watched.hammer (s : State) (h : Hammer) : Watched s { s with hammer := h } :=
  ⟨.refl _, .refl _ _, .refl _, id, rfl⟩

/-- An insertion into the Targeted Scrub Queue leaves everything but the queue, causes and counters. -/
theorem tsqInsert_watched (rank bank row : Nat) (n : Bool) (s : State) :
    Watched s (tsqInsert rank bank row n s) ∧ (tsqInsert rank bank row n s).hammer = s.hammer := by
  have hb := (tsqInsert_inner rank bank row n s).2.2.2.1
  refine ⟨⟨(tsqInsert_inner rank bank row n s).1, (tsqInsert_inner rank bank row n s).2.1,
    (tsqInsert_inner rank bank row n s).2.2.1, hb, ?_⟩, ?_⟩
  · unfold tsqInsert
    split
    · rfl
    · split
      · rfl
      · split
        · rfl
        · obtain ⟨_, _, h3⟩ := raise_alerted .tsqDropped (count .tsqDropped s)
          rw [h3]
          rfl
  · have h := (tsqInsert_inner rank bank row n s).2.2.2.2.2.2.2.2.2
    rw [h]

theorem handNeighbour_watched (rank bank : Nat) (row : Option Nat) (s : State) :
    Watched s (handNeighbour rank bank row s) ∧ (handNeighbour rank bank row s).hammer = s.hammer := by
  unfold handNeighbour
  split
  · obtain ⟨h1, h2⟩ := tsqInsert_watched rank bank _ true (count .hammerNeighbourJobs s)
    exact ⟨(Noted.count _ _).watched.trans h1, h2⟩
  · exact ⟨.refl s, rfl⟩

/-- A trigger leaves its entry with count 0 and the other entries as they were (R160). -/
theorem trigger_watched (rank i : Nat) (e : HammerEntry) (r : Option Requester) (s : State) :
    Watched s (trigger rank i e r s) ∧
      (trigger rank i e r s).hammer = (setHammer rank i { e with count := 0 } s).hammer := by
  have h1 := handNeighbour_watched rank e.bank (lowerNeighbour s rank e.bank e.row) s
  have h2 := handNeighbour_watched rank e.bank (upperNeighbour s rank e.bank e.row)
    (handNeighbour rank e.bank (lowerNeighbour s rank e.bank e.row) s)
  have h3 : ∀ u : State, Watched u (count .hammerTriggers (setHammer rank i { e with count := 0 } u)) := fun u =>
    (Watched.hammer u _).trans (Noted.count _ _).watched
  have h4 : ∀ (u : State) (p : Prop) [Decidable p] (rec : Record),
      Watched u (if p then handRecord rec u else u) ∧ (if p then handRecord rec u else u).hammer = u.hammer := by
    intro u p _ rec
    split
    · exact ⟨(handRecord_noted _ _).watched, (handRecord_noted rec u).fields.2.2.2.2.2.2.2.2.2.2.2.1⟩
    · exact ⟨.refl u, rfl⟩
  refine ⟨((h1.1.trans h2.1).trans (h3 _)).trans (h4 _ _ _).1, ?_⟩
  refine (h4 _ _ _).2.trans ?_
  have e1 : (handNeighbour rank e.bank (upperNeighbour s rank e.bank e.row)
    (handNeighbour rank e.bank (lowerNeighbour s rank e.bank e.row) s)).hammer = s.hammer := h2.2.trans h1.2
  show Hammer.mk _ _ = Hammer.mk _ _
  simp only [hammerTable, e1]

theorem credit_watched (rank i : Nat) (e : HammerEntry) (r : Requester) (s : State) : Watched s (credit rank i e r s) := by
  unfold credit
  dsimp only
  split
  · exact (Watched.hammer s _).trans (trigger_watched _ _ _ _ _).1
  · exact .hammer s _

theorem countActivation_watched (rank bank row : Nat) (r : Requester) (s : State) :
    Watched s (countActivation rank bank row r s) := by
  unfold countActivation
  split
  · split
    · exact credit_watched _ _ _ _ _
    · exact .refl s
  · split
    · exact credit_watched _ _ _ _ _
    · split
      · exact (Noted.count _ _).watched.trans (credit_watched _ _ _ _ _)
      · exact .refl s

theorem reportActivation_watched (rank bank row : Nat) (r : Requester) (s : State) :
    Watched s (reportActivation rank bank row r s) := by
  unfold reportActivation
  dsimp only
  split
  · exact ((Noted.count _ _).trans (Noted.count _ _)).watched.trans (countActivation_watched _ _ _ _ _)
  · exact (Noted.count _ _).watched

/-- A table with one place replaced by an entry below the threshold that no other place holds. -/
theorem table_set (table : List (Option HammerEntry)) (i : Nat) (e : HammerEntry) (th : Nat)
    (h : table.length = 16 ∧ (∀ place ∈ table, ∀ e ∈ place, e.count < th) ∧ table.Pairwise HammerEntry.apart)
    (hc : e.count < th)
    (ha : ∀ j (hj : j < table.length), j ≠ i → ∀ g ∈ table[j], (e.bank, e.row) ≠ (g.bank, g.row)) :
    (table.set i (some e)).length = 16 ∧ (∀ place ∈ table.set i (some e), ∀ e ∈ place, e.count < th) ∧
      (table.set i (some e)).Pairwise HammerEntry.apart := by
  obtain ⟨h1, h2, h3⟩ := h
  refine ⟨by simpa using h1, ?_, ?_⟩
  · intro p hp x hx
    rcases List.mem_or_eq_of_mem_set hp with hp | rfl
    · exact h2 p hp x hx
    · simp only [Option.mem_def, Option.some.injEq] at hx
      rw [← hx]; exact hc
  · rw [List.pairwise_iff_getElem] at h3 ⊢
    intro a b ha' hb' hab
    simp only [List.length_set] at ha' hb'
    simp only [List.getElem_set]
    by_cases h4 : i = a
    · subst h4
      rw [if_pos rfl, if_neg (by omega)]
      intro g hg k hk
      simp only [Option.mem_def, Option.some.injEq] at hg
      rw [← hg]
      exact ha b hb' (by omega) k hk
    · by_cases h5 : i = b
      · subst h5
        rw [if_neg h4, if_pos rfl]
        intro g hg k hk
        simp only [Option.mem_def, Option.some.injEq] at hk
        rw [← hk]
        exact (ha a ha' (by omega) g hg).symm
      · rw [if_neg h4, if_neg h5]
        exact h3 a b ha' hb' hab

/-- Tables with one entry of one rank replaced. -/
theorem below_set {s : State} {th : Nat} (h : s.hammer.Below th) (rank i : Nat) (e : HammerEntry) (hc : e.count < th)
    (ha : ∀ j (hj : j < (hammerTable s rank).length), j ≠ i →
      ∀ g ∈ (hammerTable s rank)[j], (e.bank, e.row) ≠ (g.bank, g.row)) :
    (setHammer rank i e s).hammer.Below th := by
  obtain ⟨h1, h2⟩ := h
  refine ⟨by simpa [setHammer] using h1, ?_⟩
  intro t ht
  simp only [setHammer] at ht
  by_cases hr : rank < s.hammer.tables.length
  · have et : hammerTable s rank = s.hammer.tables[rank] := by simp [hammerTable, List.getD, hr]
    rcases List.mem_or_eq_of_mem_set ht with ht | rfl
    · exact h2 t ht
    · exact table_set _ i e th (et ▸ h2 _ (List.getElem_mem hr)) hc ha
  · rw [List.set_eq_of_length_le (by omega)] at ht
    exact h2 t ht

/-- Two places of one rank's table hold different rows. -/
theorem below_apart {s : State} {th : Nat} (h : s.hammer.Below th) (rank i j : Nat) (hij : j ≠ i)
    (hi : i < (hammerTable s rank).length) (hj : j < (hammerTable s rank).length) :
    ∀ e ∈ (hammerTable s rank)[i], ∀ g ∈ (hammerTable s rank)[j], (e.bank, e.row) ≠ (g.bank, g.row) := by
  by_cases hr : rank < s.hammer.tables.length
  · have et : hammerTable s rank = s.hammer.tables[rank] := by simp [hammerTable, List.getD, hr]
    have h3 := (h.2 _ (List.getElem_mem hr)).2.2
    rw [← et] at h3
    rw [List.pairwise_iff_getElem] at h3
    intro e he g hg
    rcases Nat.lt_or_gt_of_ne hij with h4 | h4
    · exact (h3 j i hj hi h4 g hg e he).symm
    · exact h3 i j hi hj h4 e he g hg
  · simp [hammerTable, List.getD, hr] at hi

theorem below_count {s : State} {th : Nat} (h : s.hammer.Below th) (rank : Nat) :
    ∀ place ∈ hammerTable s rank, ∀ e ∈ place, e.count < th := by
  by_cases hr : rank < s.hammer.tables.length
  · have et : hammerTable s rank = s.hammer.tables[rank] := by simp [hammerTable, List.getD, hr]
    rw [et]
    exact (h.2 _ (List.getElem_mem hr)).2.1
  · simp [hammerTable, List.getD, hr]

/-- An entry credited with a count of at most the threshold, for a row no other place holds, leaves the tables below the
threshold (R158 to R160). -/
theorem credit_below (rank i : Nat) (e : HammerEntry) (r : Requester) (s : State) (ht : 0 < s.params.hammerThreshold)
    (h : s.hammer.Below s.params.hammerThreshold) (hc : e.count ≤ s.params.hammerThreshold)
    (ha : ∀ j (hj : j < (hammerTable s rank).length), j ≠ i →
      ∀ g ∈ (hammerTable s rank)[j], (e.bank, e.row) ≠ (g.bank, g.row)) :
    (credit rank i e r s).hammer.Below s.params.hammerThreshold := by
  unfold credit
  dsimp only
  split
  · rw [(trigger_watched _ _ _ _ _).2]
    have hs : (setHammer rank i { e with count := 0 } (setHammer rank i e s)).hammer =
        (setHammer rank i { e with count := 0 } s).hammer := by
      by_cases hr : rank < s.hammer.tables.length
      · simp [setHammer, hammerTable, List.getD, hr]
      · simp [setHammer, hammerTable, List.getD, hr, List.set_eq_of_length_le (Nat.le_of_not_lt hr)]
    rw [hs]
    exact below_set h rank i _ ht ha
  · rename_i hn
    exact below_set h rank i e (lt_of_le_of_ne hc hn) ha

/-- The smallest count of a table is that of one of its entries. -/
theorem smallestFrom_spec (l : List (Option HammerEntry)) (n : Nat) (best : Option (Nat × Nat)) (r : Nat × Nat)
    (h : smallestFrom l n best = some r) : best = some r ∨ ∃ e, some e ∈ l ∧ r.2 = e.count := by
  induction l generalizing n best with
  | nil => exact .inl h
  | cons p l ih =>
    cases p with
    | none =>
      rcases ih _ _ h with h1 | ⟨e, h1, h2⟩
      · exact .inl h1
      · exact .inr ⟨e, by simp [h1], h2⟩
    | some e =>
      simp only [smallestFrom] at h
      rcases ih _ _ h with h1 | ⟨e', h1, h2⟩
      · cases best with
        | none =>
          simp only [Option.some.injEq] at h1
          exact .inr ⟨e, by simp, by simp [← h1]⟩
        | some b =>
          simp only at h1
          split at h1
          · simp only [Option.some.injEq] at h1
            exact .inr ⟨e, by simp, by simp [← h1]⟩
          · exact .inl h1
      · exact .inr ⟨e', by simp [h1], h2⟩

theorem countActivation_below (rank bank row : Nat) (r : Requester) (s : State) (ht : 1024 ≤ s.params.hammerThreshold)
    (h : s.hammer.Below s.params.hammerThreshold) :
    (countActivation rank bank row r s).hammer.Below s.params.hammerThreshold := by
  have hfresh : (hammerTable s rank).findIdx? (holdsPlace bank row) = none →
      ∀ j (hj : j < (hammerTable s rank).length), ∀ g ∈ (hammerTable s rank)[j], (bank, row) ≠ (g.bank, g.row) := by
    intro hn j hj g hg hc
    rw [List.findIdx?_eq_none_iff] at hn
    have := hn _ (List.getElem_mem hj)
    simp only [Option.mem_def] at hg
    simp only [Prod.mk.injEq] at hc
    simp [hg, holdsPlace, hc.1, hc.2] at this
  unfold countActivation
  split
  · rename_i i hi
    split
    · rename_i e he
      rw [List.findIdx?_eq_some_iff_getElem] at hi
      obtain ⟨hlt, _, _⟩ := hi
      have e1 : (hammerTable s rank)[i] = some e := by
        simpa [hammerAt, List.getD, hlt] using he
      have hc := below_count h rank _ (List.getElem_mem hlt) e (by simp [e1])
      refine credit_below _ _ _ _ s (by omega) h (by simp only; omega) ?_
      intro j hj hji g hg
      exact below_apart h rank i j hji hlt hj e (by simp [e1]) g hg
    · exact h
  · rename_i hn
    split
    · exact credit_below _ _ _ _ s (by omega) h (by simp only; omega) fun j hj _ g hg => hfresh hn j hj g hg
    · split
      · rename_i m hm
        rcases smallestFrom_spec _ _ _ _ hm with h1 | ⟨e, h1, h2⟩
        · cases h1
        · have hc := below_count h rank _ h1 e (by simp)
          exact credit_below _ _ _ _ (count .hammerReplacements s) (by simp only [count_params]; omega) h
            (by simp only [count_params]; omega) fun j hj _ g hg => hfresh hn j hj g hg
      · exact h

theorem reportActivation_below (rank bank row : Nat) (r : Requester) (s : State) (ht : 1024 ≤ s.params.hammerThreshold)
    (h : s.hammer.Below s.params.hammerThreshold) :
    (reportActivation rank bank row r s).hammer.Below s.params.hammerThreshold := by
  unfold reportActivation
  dsimp only
  split
  · exact countActivation_below _ _ _ _ (count .hammerCounted (count .activations s)) ht h
  · exact h

/-! ## The DRAM as last written -/

theorem dramRead_write (m : AMap Line) (p q : Nat) (v : Line) (h : dramWf m = true) :
    dramRead (dramWrite m p v) q = if q = p then v else dramRead m q := by
  simp only [dramWf, Bool.and_eq_true] at h
  unfold dramWrite dramRead
  split
  · rename_i hv
    rw [AMap.get_erase _ _ _ h.1]
    split
    · simp [hv]
    · rfl
  · rw [AMap.get_insert]
    split
    · rfl
    · rfl

theorem mem_erase {α : Type} (m : AMap α) (k : Nat) : ∀ q ∈ AMap.erase m k, q ∈ m := by
  induction m with
  | nil => simp [AMap.erase]
  | cons p m ih =>
    obtain ⟨j, w⟩ := p
    simp only [AMap.erase]
    intro q hq
    split at hq
    · exact List.mem_cons_of_mem _ hq
    · split at hq
      · exact hq
      · rcases List.mem_cons.mp hq with rfl | hq
        · simp
        · exact List.mem_cons_of_mem _ (ih q hq)

theorem mem_insert {α : Type} (m : AMap α) (k : Nat) (v : α) : ∀ q ∈ AMap.insert m k v, q = (k, v) ∨ q ∈ m := by
  induction m with
  | nil => simp [AMap.insert]
  | cons p m ih =>
    obtain ⟨j, w⟩ := p
    simp only [AMap.insert]
    intro q hq
    split at hq
    · rcases List.mem_cons.mp hq with rfl | hq
      · exact .inl rfl
      · exact .inr (List.mem_cons_of_mem _ hq)
    · split at hq
      · rcases List.mem_cons.mp hq with rfl | hq
        · exact .inl rfl
        · exact .inr hq
      · rcases List.mem_cons.mp hq with rfl | hq
        · simp
        · rcases ih q hq with h | h
          · exact .inl h
          · exact .inr (List.mem_cons_of_mem _ h)

/-- A write keeps the canonical form of the DRAM. -/
theorem dramWf_write (m : AMap Line) (p : Nat) (v : Line) (h : dramWf m = true) : dramWf (dramWrite m p v) = true := by
  simp only [dramWf, Bool.and_eq_true, List.all_eq_true] at h ⊢
  unfold dramWrite
  split
  · exact ⟨AMap.rising_erase _ _ h.1, fun q hq => h.2 q (mem_erase m p q hq)⟩
  · rename_i hv
    refine ⟨AMap.rising_insert _ _ _ h.1, fun q hq => ?_⟩
    rcases mem_insert m p v q hq with rfl | hq
    · simpa using hv
    · exact h.2 q hq

/-! ## Grants and performed accesses -/

/-- An opened row: the watch is told of the activation, and the row stands open (R34, R35). -/
theorem openRow_spec (rank bank row : Nat) (r : Requester) (s : State) :
    ∃ m : AMap OpenRow, (AMap.rising s.port.openRows = true → AMap.rising m = true) ∧
      Watched { s with port := { s.port with openRows := m } } (openRow rank bank row r s) ∧
      (∃ o, AMap.get? m (bankKey rank bank) = some o ∧ o.row = row) ∧
      (1024 ≤ s.params.hammerThreshold → s.hammer.Below s.params.hammerThreshold →
        (openRow rank bank row r s).hammer.Below s.params.hammerThreshold) := by
  unfold openRow
  split
  · rename_i o ho
    split
    · rename_i hr
      exact ⟨s.port.openRows, id, .refl s, ⟨o, ho, hr⟩, fun _ h => h⟩
    · exact ⟨_, AMap.rising_insert _ _ _, reportActivation_watched _ _ _ _ _,
        ⟨{ row := row, holdEnd := none }, by simp [AMap.get_insert], rfl⟩, fun ht h => reportActivation_below _ _ _ _ _ ht h⟩
  · exact ⟨_, AMap.rising_insert _ _ _, reportActivation_watched _ _ _ _ _,
      ⟨{ row := row, holdEnd := none }, by simp [AMap.get_insert], rfl⟩, fun ht h => reportActivation_below _ _ _ _ _ ht h⟩

/-- The restart of a hold touches the open rows alone (R34). -/
theorem restartHold_spec (rank bank row : Nat) (s : State) :
    ∃ m : AMap OpenRow, (AMap.rising s.port.openRows = true → AMap.rising m = true) ∧
      restartHold rank bank row s = { s with port := { s.port with openRows := m } } := by
  unfold restartHold
  split
  · split
    · split
      · exact ⟨_, AMap.rising_erase _ _, rfl⟩
      · exact ⟨_, AMap.rising_insert _ _ _, rfl⟩
    · exact ⟨_, id, rfl⟩
  · exact ⟨_, id, rfl⟩

/-- An access performed: it leaves line order and the hold of its row restarts (R26, R34). -/
theorem finishAccess_spec (a : Access) (s : State) :
    ∃ m : AMap OpenRow, (AMap.rising s.port.openRows = true → AMap.rising m = true) ∧
      finishAccess a s =
        { s with port := { s.port with accesses := removeFirst a.line s.port.accesses, openRows := m } } := by
  obtain ⟨m, h1, h2⟩ := restartHold_spec (rankOfAccess s a) (bankOfAccess s a) a.lastRow
    { s with port := { s.port with accesses := removeFirst a.line s.port.accesses } }
  exact ⟨m, h1, h2⟩

/-- The write-drain condition and its count are all that its review touches (R32). -/
theorem reviewDrain_spec (s : State) :
    ∃ (d : Bool) (k : Counters), reviewDrain s = { s with port := { s.port with drain := d }, counters := k } := by
  unfold reviewDrain
  split
  · split
    · exact ⟨_, _, rfl⟩
    · exact ⟨_, _, rfl⟩
  · split
    · exact ⟨_, _, rfl⟩
    · exact ⟨_, _, rfl⟩

/-- A written line touches the DRAM alone, and keeps its canonical form (R3, R142). -/
theorem writeLine_spec (a : Access) (data : Data) (form : Form) (s : State) :
    ∃ m : AMap Line, (dramWf s.dram = true → dramWf m = true) ∧ writeLine a data form s = { s with dram := m } := by
  unfold writeLine
  dsimp only
  split
  · exact ⟨_, fun h => dramWf_write _ _ _ (dramWf_write _ _ _ h), rfl⟩
  · exact ⟨_, fun h => dramWf_write _ _ _ h, rfl⟩

end Sys2Proof.Machine
end

