-- ==== Sys2Proof/Laws/ServiceLaws.lean ====
section
/-! SUPPORT. What the dispatch of the request at the head of the queue is, said once: refused for too few arguments, or
decided by its owner and answered. -/

namespace Sys2Proof.Machine

open Sys2Proof

theorem headRequest_of {s : State} {q : MaintRequest} {code : Nat} (h : AtHead s q code) :
    headRequest code s = some q := by
  obtain ⟨h1, h2, h3⟩ := h
  simp [headRequest, h1, h2, h3, Option.filter]

/-- A response is the answer at the tail of the return queue, over the state the owner leaves. -/
theorem respond_eq (q : MaintRequest) (r : Answered) : respond q.tag r = answered q r.status r.results r.state := rfl

/-- The dispatch of a request with enough argument words is its owner's decision, answered. -/
theorem serveThen_eq {s : State} {q : MaintRequest} {code needed : Nat} (after : State → State)
    (owner : List Word32 → State → Answered) (h : AtHead s q code) (hn : needed ≤ q.args.length) {r : Answered}
    (hr : owner q.args (dispatched s) = r) :
    serveThen after code needed owner s = after (answered q r.status r.results r.state) := by
  have hd : dispatched s = count .maintRequests s := rfl
  rw [hd] at hr
  simp only [serveThen, headRequest_of h, decideRequest, Nat.not_lt.2 hn, if_false, hr]
  rfl

theorem serve_eq {s : State} {q : MaintRequest} {code needed : Nat}
    (owner : List Word32 → State → Answered) (h : AtHead s q code) (hn : needed ≤ q.args.length) {r : Answered}
    (hr : owner q.args (dispatched s) = r) :
    serve code needed owner s = answered q r.status r.results r.state :=
  serveThen_eq _ owner h hn hr

theorem serveSettled_eq {s : State} {q : MaintRequest} {code needed : Nat}
    (owner : List Word32 → State → Answered) (h : AtHead s q code) (hn : needed ≤ q.args.length) {r : Answered}
    (hr : owner q.args (dispatched s) = r) :
    serveSettled code needed owner s = settle (answered q r.status r.results r.state) :=
  serveThen_eq _ owner h hn hr

/-- The dispatch of a request with too few argument words is answered BAD_ARGUMENT and changes nothing (R193). -/
theorem serveThen_short {s : State} {q : MaintRequest} {code needed : Nat} (after : State → State)
    (owner : List Word32 → State → Answered) (h : AtHead s q code) (hn : q.args.length < needed) :
    serveThen after code needed owner s = after (answered q .badArgument [] (dispatched s)) := by
  simp only [serveThen, headRequest_of h, decideRequest, hn, if_true]
  rfl

theorem serve_short {s : State} {q : MaintRequest} {code needed : Nat}
    (owner : List Word32 → State → Answered) (h : AtHead s q code) (hn : q.args.length < needed) :
    serve code needed owner s = answered q .badArgument [] (dispatched s) := serveThen_short _ owner h hn

theorem serveSettled_short {s : State} {q : MaintRequest} {code needed : Nat}
    (owner : List Word32 → State → Answered) (h : AtHead s q code) (hn : q.args.length < needed) :
    serveSettled code needed owner s = settle (answered q .badArgument [] (dispatched s)) :=
  serveThen_short _ owner h hn

/-- A meaning that is one dispatch answers as its owner decides. -/
theorem serve_next {s : State} {q : MaintRequest} {code needed : Nat} {owner : List Word32 → State → Answered}
    (h : AtHead s q code) (hn : needed ≤ q.args.length) {status : Status} {results : List Word32} {t : State}
    (hr : owner q.args (dispatched s) = { status := status, results := results, state := t }) :
    (.next (serve code needed owner s) : Answer) = .next (answered q status results t) :=
  congrArg Host.Outcome.next (serve_eq owner h hn hr)

theorem serveSettled_next {s : State} {q : MaintRequest} {code needed : Nat} {owner : List Word32 → State → Answered}
    (h : AtHead s q code) (hn : needed ≤ q.args.length) {status : Status} {results : List Word32} {t : State}
    (hr : owner q.args (dispatched s) = { status := status, results := results, state := t }) :
    (.next (serveSettled code needed owner s) : Answer) = .next (settle (answered q status results t)) :=
  congrArg Host.Outcome.next (serveSettled_eq owner h hn hr)

theorem dispatched_link (s : State) : (dispatched s).link = s.link := rfl
theorem dispatched_port (s : State) : (dispatched s).port = s.port := rfl
theorem dispatched_report (s : State) : (dispatched s).report = s.report := rfl
theorem dispatched_patrol (s : State) : (dispatched s).patrol = s.patrol := rfl
theorem dispatched_regionAt (s : State) (i : Nat) : regionAt (dispatched s) i = regionAt s i := rfl
theorem dispatched_faultAt (s : State) (i : Nat) : faultAt (dispatched s) i = faultAt s i := rfl
theorem dispatched_slotAt (s : State) (r b k : Nat) : slotAt (dispatched s) r b k = slotAt s r b k := rfl

theorem argOf_zero (a : Word32) (l : List Word32) : argOf (a :: l) 0 = a.toNat := rfl

theorem argOf_succ (a : Word32) (l : List Word32) (n : Nat) : argOf (a :: l) (n + 1) = argOf l n := rfl

end Sys2Proof.Machine
end

