-- ==== Sys2Proof/Laws/WorkLaws.lean ====
section
/-! SUPPORT. Line order, the Write-back Queue and the tags: what a grant, an insertion, a performed access and the parts of a
pair do to the agreement of entries and writes and to the number of accesses that have a tag. -/

namespace Sys2Proof.Machine

open Sys2Proof

/-! ## Tags -/

/-- An ALERT names no tag, so the other returns alone count. -/
theorem returns_tagged (l : List ReturnFrame) (tag : Nat) :
    l.countP (fun f => f.tag? == some tag) = (plain l).countP fun f => f.tag? == some tag := by
  induction l with
  | nil => rfl
  | cons f l ih =>
    cases f <;> simp [plain, ReturnFrame.isAlert, ReturnFrame.tag?, List.countP_cons] at ih ⊢ <;> omega

/-- The work outstanding of a tag is the same when the tagged accesses, the requests and the other returns are. -/
theorem outstanding_congr {s t : State} (hr : plain t.link.returns = plain s.link.returns)
    (hq : t.maint.queue = s.maint.queue) (tag : Nat) (ha : tagged t.port.accesses tag = tagged s.port.accesses tag) :
    outstanding t tag = outstanding s tag := by
  unfold outstanding
  rw [returns_tagged t.link.returns, returns_tagged s.link.returns, hr, hq]
  simp only [tagged] at ha
  omega

theorem TagsMatch.congr {s t : State} (h : TagsMatch s) (ht : t.link.tags = s.link.tags)
    (hr : plain t.link.returns = plain s.link.returns) (hq : t.maint.queue = s.maint.queue)
    (ha : ∀ tag, tagged t.port.accesses tag = tagged s.port.accesses tag) : TagsMatch t := fun tag => by
  rw [outstanding_congr hr hq tag (ha tag), ht]
  exact h tag

theorem Noted.tags {s t : State} (h : Noted s t) (k : TagsMatch s) : TagsMatch t := by
  obtain ⟨h1, h2, _, h4⟩ := h
  refine k.congr ?_ h1.2.1 ?_ h2.2.2 <;> rw [h4]

theorem Internal.tags {s t : State} (h : Internal s t) (k : TagsMatch s) : TagsMatch t := by
  obtain ⟨h1, h2, _, _, _, _, _, _, _, h4⟩ := h
  refine k.congr ?_ h1.2.1 ?_ h2.2.2 <;> rw [h4]

theorem Settled.tags {s t : State} (h : Settled s t) (k : TagsMatch s) : TagsMatch t := by
  obtain ⟨h1, h2, _, _, _, _, _, h4⟩ := h
  refine k.congr ?_ h1.2.1 ?_ h2.2.2 <;> rw [h4]

theorem Watched.tags {s t : State} (h : Watched s t) (k : TagsMatch s) : TagsMatch t := by
  obtain ⟨h1, h2, _, _, h4⟩ := h
  refine k.congr ?_ h1.2.1 ?_ h2.2.2 <;> rw [h4]

/-- The tags match the work outstanding but for one, whose work is in hand. -/
def TagsLack (tag : Nat) (s : State) : Prop :=
  ∀ n, outstanding s n + (decide (n = tag)).toNat = (s.link.tags.getLsbD n).toNat

theorem TagsLack.congr {tag : Nat} {s t : State} (h : TagsLack tag s) (ht : t.link.tags = s.link.tags)
    (hr : plain t.link.returns = plain s.link.returns) (hq : t.maint.queue = s.maint.queue)
    (ha : ∀ tag, tagged t.port.accesses tag = tagged s.port.accesses tag) : TagsLack tag t := fun n => by
  rw [outstanding_congr hr hq n (ha n), ht]
  exact h n

/-- A flag of the tag table, alone. -/
theorem tagBit (tag n : Nat) (h : tag < 64) : (BitVec.ofNat 64 (2 ^ tag)).getLsbD n = decide (n = tag) := by
  rw [BitVec.getLsbD_ofNat, Nat.testBit_two_pow]
  by_cases hn : n = tag
  · subst hn; simp [h]
  · simp [hn, Ne.symm hn]

/-- An accepted frame's tag, which was free, is in use, and its work is in hand (R186, R187). -/
theorem TagsMatch.accepted {s : State} (h : TagsMatch s) (tag : Byte) (hl : tag.toNat ≤ 63)
    (hf : tagInUse s tag.toNat = false) : TagsLack tag.toNat (Machine.accepted tag s) := fun n => by
  have e : outstanding (Machine.accepted tag s) n = outstanding s n := rfl
  rw [e, h n]
  simp only [Machine.accepted, BitVec.getLsbD_or, tagBit _ _ (by omega : tag.toNat < 64)]
  by_cases hn : n = tag.toNat
  · subst hn
    have : s.link.tags.getLsbD tag.toNat = false := hf
    simp [this]
  · simp [hn]

/-- The work in hand is answered: a return with its tag (R189). -/
theorem TagsLack.returned {tag : Nat} {s : State} (h : TagsLack tag s) (f : ReturnFrame) (hf : f.tag? = some tag) :
    TagsMatch (handReturn f s) := fun n => by
  have := h n
  simp only [outstanding, handReturn, List.countP_append, List.countP_singleton, hf] at this ⊢
  by_cases hn : n = tag
  · subst hn; simp at this ⊢; omega
  · simp [hn, Ne.symm hn] at this ⊢; omega

/-- The work in hand is taken as an access with its tag (R25). -/
theorem TagsLack.taken {tag : Nat} {s : State} (h : TagsLack tag s) (line : Nat) (kind : AccessKind) (phase : Phase)
    (hk : kind.tag? = some tag) : TagsMatch (takeAccess line kind phase s) := fun n => by
  have := h n
  simp only [outstanding, takeAccess, List.countP_append, List.countP_singleton, hk] at this ⊢
  by_cases hn : n = tag
  · subst hn; simp at this ⊢; omega
  · simp [hn, Ne.symm hn] at this ⊢; omega

/-- The work in hand waits as a request (R192). -/
theorem TagsLack.queued {tag : Nat} {s : State} (h : TagsLack tag s) (q : MaintRequest) (hq : q.tag = tag) :
    TagsMatch { s with maint := { s.maint with queue := s.maint.queue ++ [q] } } := fun n => by
  have := h n
  simp only [outstanding, List.countP_append, List.countP_singleton, hq] at this ⊢
  by_cases hn : n = tag
  · subst hn; simp at this ⊢; omega
  · simp [hn, Ne.symm hn] at this ⊢; omega

/-- The work in hand is given up: its tag becomes free (R198). -/
theorem TagsLack.freed {tag : Nat} {s : State} (h : TagsLack tag s) : TagsMatch (freeTag tag s) := fun n => by
  have h1 := h n
  have e : outstanding (freeTag tag s) n = outstanding s n := rfl
  rw [e]
  have hl : tag < 64 := by
    have h2 := h tag
    by_contra hc
    rw [BitVec.getLsbD_of_ge _ _ (by omega)] at h2
    simp at h2
  by_cases hn64 : n < 64
  · simp only [freeTag, BitVec.getLsbD_and, BitVec.getLsbD_not, tagBit _ _ hl, hn64, decide_true, Bool.true_and]
    by_cases hn : n = tag
    · subst hn
      cases hb : s.link.tags.getLsbD n <;> simp [hb] at h1 ⊢
      omega
    · simpa [hn] using h1
  · rw [BitVec.getLsbD_of_ge _ _ (by omega)] at h1 ⊢
    simp at h1 ⊢
    omega

/-- A demand access's return, or during a clear its tag, puts the tags in agreement again (R18, R198). -/
theorem TagsLack.demand {tag : Nat} {s : State} (h : TagsLack tag s) (f : ReturnFrame) (hf : f.tag? = some tag) :
    TagsMatch (handDemandReturn tag f s) := by
  unfold handDemandReturn
  split
  · exact h.freed
  · exact h.returned f hf

/-- The request at the head leaves the queue: its work is in hand. -/
theorem TagsMatch.dequeued {s : State} (h : TagsMatch s) (q : MaintRequest) (hq : s.maint.queue.head? = some q) :
    TagsLack q.tag { s with maint := { s.maint with queue := s.maint.queue.tail } } := fun n => by
  have := h n
  cases hl : s.maint.queue with
  | nil => simp [hl] at hq
  | cons r rest =>
    have e : r = q := by simpa [hl] using hq
    subst e
    simp only [outstanding, hl, List.countP_cons, List.tail_cons] at this ⊢
    by_cases hn : n = r.tag
    · subst hn; simp at this ⊢; omega
    · simp [hn, Ne.symm hn] at this ⊢; omega

/-- The answer of a request keeps the tags in agreement (R192). -/
theorem TagsMatch.answered {s : State} (h : TagsMatch s) (q : MaintRequest) (hq : s.maint.queue.head? = some q)
    (status : Status) (results : List Word32) : TagsMatch (Machine.answered q status results s) :=
  (h.dequeued q hq).returned (.maintResp q.tag status results) rfl

/-- A frame that leaves the return queue frees its tag, if it has one (R186). -/
theorem TagsMatch.left {s : State} (h : TagsMatch s) (f : ReturnFrame) (rest : List ReturnFrame)
    (hr : s.link.returns = f :: rest) :
    let u := { s with link := { s.link with returns := rest } }
    (f.tag? = none → TagsMatch u) ∧ (∀ tag, f.tag? = some tag → TagsMatch (freeTag tag u)) := by
  refine ⟨fun hf n => ?_, fun tag hf => TagsLack.freed fun n => ?_⟩
  · have := h n
    simpa [outstanding, hr, List.countP_cons, hf] using this
  · have := h n
    simp only [outstanding, hr, List.countP_cons, hf] at this ⊢
    by_cases hn : n = tag
    · subst hn; simp at this ⊢; omega
    · simp [hn, Ne.symm hn] at this ⊢; omega

/-! ## The first access of a line -/

/-- The access is the first of its line. -/
def Fronts (a : Access) (l : List Access) : Prop := l.find? (fun b => b.line == a.line) = some a

/-- The write-backs of a line, in line order. -/
def writesOf (l : List Access) (line : Nat) : List Access := l.filter fun a => a.kind == .writeBack && a.line == line

theorem performable_fronts {s : State} {line : Nat} {a : Access} (h : performable s line = some a) :
    a.line = line ∧ Fronts a s.port.accesses ∧ a.phase = .granted := by
  simp only [performable, Option.filter_eq_some_iff] at h
  obtain ⟨h1, h2⟩ := h
  have hl : a.line = line := by simpa using List.find?_some h1
  refine ⟨hl, by simpa [Fronts, hl] using h1, ?_⟩
  simp only [canPerform, Bool.and_eq_true, beq_iff_eq] at h2
  exact h2.1

/-- The first access of a line changed, its line and whether it is a write-back kept. -/
theorem writesOf_update (f : Access → Access) (l : List Access) (a : Access) (h : Fronts a l)
    (hl : (f a).line = a.line) (hk : (f a).kind = .writeBack ↔ a.kind = .writeBack) (n : Nat) :
    (n ≠ a.line ∨ a.kind ≠ .writeBack → writesOf (updateFirst a.line f l) n = writesOf l n) ∧
    (a.kind = .writeBack → ∃ rest, writesOf l a.line = a :: rest ∧
      writesOf (updateFirst a.line f l) a.line = f a :: rest) := by
  induction l with
  | nil => simp [Fronts] at h
  | cons b l ih =>
    by_cases hb : b.line = a.line
    · have e : b = a := by simpa [Fronts, hb] using h
      subst e
      refine ⟨fun hn => ?_, fun hw => ⟨writesOf l b.line, ?_, ?_⟩⟩
      · rcases hn with hn | hn
        · simp [updateFirst, writesOf, hl, hn.symm]
        · simp [updateFirst, writesOf, hn, hk]
      · simp [writesOf, hw]
      · simp [updateFirst, writesOf, hl, hk.2 hw]
    · have h' : Fronts a l := by simpa [Fronts, hb] using h
      obtain ⟨i1, i2⟩ := ih h'
      refine ⟨fun hn => ?_, fun hw => ?_⟩
      · simp only [updateFirst, hb, if_false, writesOf, List.filter_cons] at i1 ⊢
        rw [i1 hn]
      · obtain ⟨rest, e1, e2⟩ := i2 hw
        refine ⟨rest, ?_, ?_⟩
        · simpa [writesOf, List.filter_cons, hb] using e1
        · simpa [updateFirst, hb, writesOf, List.filter_cons] using e2

/-- The first access of a line removed. -/
theorem writesOf_remove (l : List Access) (a : Access) (h : Fronts a l) (n : Nat) :
    (n ≠ a.line ∨ a.kind ≠ .writeBack → writesOf (removeFirst a.line l) n = writesOf l n) ∧
    (a.kind = .writeBack → writesOf l a.line = a :: writesOf (removeFirst a.line l) a.line) := by
  induction l with
  | nil => simp [Fronts] at h
  | cons b l ih =>
    by_cases hb : b.line = a.line
    · have e : b = a := by simpa [Fronts, hb] using h
      subst e
      refine ⟨fun hn => ?_, fun hw => ?_⟩
      · rcases hn with hn | hn
        · simp [removeFirst, writesOf, hn.symm]
        · simp [removeFirst, writesOf, hn]
      · simp [removeFirst, writesOf, hw]
    · have h' : Fronts a l := by simpa [Fronts, hb] using h
      obtain ⟨i1, i2⟩ := ih h'
      refine ⟨fun hn => ?_, fun hw => ?_⟩
      · simp only [removeFirst, hb, if_false, writesOf, List.filter_cons] at i1 ⊢
        rw [i1 hn]
      · simpa [removeFirst, hb, writesOf, List.filter_cons] using i2 hw

/-- The first access of a line changed, its tag kept. -/
theorem tagged_update (f : Access → Access) (l : List Access) (a : Access) (h : Fronts a l)
    (ht : (f a).kind.tag? = a.kind.tag?) (tag : Nat) : tagged (updateFirst a.line f l) tag = tagged l tag := by
  induction l with
  | nil => rfl
  | cons b l ih =>
    by_cases hb : b.line = a.line
    · have e : b = a := by simpa [Fronts, hb] using h
      subst e
      simp [updateFirst, tagged, List.countP_cons, ht]
    · have h' : Fronts a l := by simpa [Fronts, hb] using h
      have := ih h'
      simp only [tagged, updateFirst, hb, if_false, List.countP_cons] at this ⊢
      rw [this]

/-- The first access of a line removed: its tag, if it has one, is counted once less. -/
theorem tagged_remove (l : List Access) (a : Access) (h : Fronts a l) (tag : Nat) :
    tagged l tag = tagged (removeFirst a.line l) tag + (a.kind.tag? == some tag).toNat := by
  induction l with
  | nil => simp [Fronts] at h
  | cons b l ih =>
    by_cases hb : b.line = a.line
    · have e : b = a := by simpa [Fronts, hb] using h
      subst e
      simp only [removeFirst, tagged, List.countP_cons, if_true]
      cases h2 : b.kind.tag? == some tag <;> simp
    · have h' : Fronts a l := by simpa [Fronts, hb] using h
      have := ih h'
      simp only [tagged, removeFirst, hb, if_false, List.countP_cons] at this ⊢
      omega

/-! ## Entries and their writes -/

/-- A queue that names no line twice has at most one entry of a line. -/
theorem entries_at_most_one {q : List WbEntry} (h : (q.map WbEntry.line).Nodup) (line : Nat) :
    (q.filter fun e => e.line == line).length ≤ 1 := by
  induction q with
  | nil => simp
  | cons e q ih =>
    simp only [List.map_cons, List.nodup_cons] at h
    by_cases he : e.line = line
    · have : (q.filter fun e => e.line == line) = [] := by
        refine List.filter_eq_nil_iff.2 fun x hx => ?_
        have : x.line ≠ e.line := fun hc => h.1 (hc ▸ List.mem_map_of_mem hx)
        simpa [← he] using this
      simp [he, this]
    · simpa [List.filter_cons, he] using ih h.2

/-- An access that is no write-back changed, its line, its tag and its being none kept. -/
theorem WorkStep.update (f : Access → Access) (l : List Access) (q : List WbEntry) (a : Access) (h : Fronts a l)
    (hl : (f a).line = a.line) (hw : a.kind ≠ .writeBack) (hf : (f a).kind ≠ .writeBack)
    (ht : (f a).kind.tag? = a.kind.tag?) : WorkStep l q (updateFirst a.line f l) q := by
  refine ⟨List.Sublist.refl _, fun k n => ?_, tagged_update f l a h ht⟩
  have := (writesOf_update f l a h hl (by simp [hw, hf]) n).1 (.inr hw)
  simp only [writesOf] at this
  rw [this]
  exact k n

/-- Accesses changed in place, the lines, tags and phases kept. -/
theorem WorkStep.map (f : Access → Access) (l : List Access) (q : List WbEntry)
    (h : ∀ a, (f a).line = a.line ∧ (f a).phase = a.phase ∧ ((f a).kind = .writeBack ↔ a.kind = .writeBack) ∧
      (f a).kind.tag? = a.kind.tag?) : WorkStep l q (l.map f) q := by
  refine ⟨List.Sublist.refl _, fun k n => ?_, fun tag => ?_⟩
  · have e : ((l.map f).filter fun a => a.kind == .writeBack && a.line == n).map Access.phase =
        (l.filter fun a => a.kind == .writeBack && a.line == n).map Access.phase := by
      clear k
      induction l with
      | nil => rfl
      | cons a l ih =>
        obtain ⟨h1, h2, h3, _⟩ := h a
        have hb : ((f a).kind == .writeBack) = (a.kind == .writeBack) := by rw [Bool.eq_iff_iff, beq_iff_eq, beq_iff_eq, h3]
        simp only [List.map_cons, List.filter_cons, h1, hb]
        split
        · simp only [List.map_cons, h2, ih]
        · exact ih
    rw [e]
    exact k n
  · simp [tagged, List.countP_map, Function.comp_def, h]

/-- The first access of a line removed that is no write-back: the entries keep their writes. -/
theorem Listed.remove {l : List Access} {q : List WbEntry} (k : Listed l q) (a : Access) (h : Fronts a l)
    (hw : a.kind ≠ .writeBack) : Listed (removeFirst a.line l) q := fun n => by
  have := (writesOf_remove l a h n).1 (.inr hw)
  simp only [writesOf] at this
  rw [this]
  exact k n

/-- A write-back performed: it leaves line order and its entry leaves the queue (R48). -/
theorem Listed.written {l : List Access} {q : List WbEntry} (k : Listed l q) (hn : (q.map WbEntry.line).Nodup)
    (a : Access) (h : Fronts a l) (hw : a.kind = .writeBack) :
    Listed (removeFirst a.line l) (q.filter fun e => e.line != a.line) := fun n => by
  by_cases hl : n = a.line
  · subst hl
    have e1 := (writesOf_remove l a h a.line).2 hw
    have e2 := k a.line
    have e3 := entries_at_most_one hn a.line
    have e4 : (q.filter fun e => e.line == a.line).length = (writesOf l a.line).length := by
      simpa [writesOf] using (congrArg List.length e2).symm
    have e5 : (writesOf (removeFirst a.line l) a.line) = [] := by
      rw [e1] at e4
      simp only [List.length_cons] at e4
      exact List.eq_nil_of_length_eq_zero (by omega)
    simp only [writesOf] at e5
    rw [e5, List.filter_filter, List.filter_eq_nil_iff.2]
    · rfl
    · intro e _ he
      simp only [Bool.and_eq_true, beq_iff_eq, bne_iff_ne] at he
      exact he.2 he.1
  · have := (writesOf_remove l a h n).1 (.inl hl)
    simp only [writesOf] at this
    rw [this, List.filter_filter]
    have e : ∀ e : WbEntry, (e.line == n && e.line != a.line) = (e.line == n) := by
      intro e
      by_cases he : e.line = n
      · simp [he, hl]
      · simp [he]
    simp only [e]
    exact k n

/-- A write-back granted: its entry is granted with it (R47). -/
theorem Listed.granted {l : List Access} {q : List WbEntry} (k : Listed l q) (hn : (q.map WbEntry.line).Nodup)
    (a : Access) (h : Fronts a l) (hw : a.kind = .writeBack) (f : Access → Access) (hl : (f a).line = a.line)
    (hk : (f a).kind = .writeBack) (hp : (f a).phase = .granted) :
    Listed (updateFirst a.line f l) (q.map fun e => if e.line == a.line then { e with granted := true } else e) :=
  fun n => by
  have hm : ((q.map fun e => if e.line == a.line then { e with granted := true } else e).filter fun e => e.line == n) =
      (q.filter fun e => e.line == n).map fun e => if e.line == a.line then { e with granted := true } else e := by
    clear k hn
    induction q with
    | nil => rfl
    | cons e q ih =>
      have : ((if e.line == a.line then { e with granted := true } else e : WbEntry).line == n) = (e.line == n) := by
        split <;> rfl
      simp only [List.map_cons, List.filter_cons, this, ih]
      split <;> rfl
  rw [hm]
  by_cases hln : n = a.line
  · subst hln
    obtain ⟨rest, e1, e2⟩ := (writesOf_update f l a h hl (by simp [hw, hk]) a.line).2 hw
    have e3 := k a.line
    simp only [writesOf] at e1 e2
    rw [e1] at e3
    rw [e2]
    have e4 := entries_at_most_one hn a.line
    cases hq : q.filter fun e => e.line == a.line with
    | nil => simp [hq] at e3
    | cons e es =>
      rw [hq] at e3 e4
      have he : e.line = a.line := by
        have := List.of_mem_filter (hq ▸ List.mem_cons_self : e ∈ q.filter fun e => e.line == a.line)
        simpa using this
      simp only [List.length_cons] at e4
      have hes : es = [] := List.eq_nil_of_length_eq_zero (by omega)
      subst hes
      simp only [List.map_cons, List.map_nil, List.cons.injEq, List.map_eq_nil_iff] at e3 ⊢
      simp [e3.2, hp, he, WbEntry.phase]
  · have e1 := (writesOf_update f l a h hl (by simp [hw, hk]) n).1 (.inl hln)
    simp only [writesOf] at e1
    rw [e1, List.map_map]
    have : ∀ e ∈ q.filter (fun e => e.line == n),
        (WbEntry.phase ∘ fun e => if e.line == a.line then { e with granted := true } else e) e = e.phase := by
      intro e he
      have hel : e.line = n := by simpa using List.of_mem_filter he
      simp [hel, hln]
    rw [List.map_congr_left this]
    exact k n

/-- An entry inserted with its write (case 4 of R43). -/
theorem Listed.insert {l : List Access} {q : List WbEntry} (k : Listed l q) (e : WbEntry) (hg : e.granted = false) :
    Listed (l ++ [{ line := e.line, kind := .writeBack, phase := .waiting }]) (q ++ [e]) := fun n => by
  simp only [List.filter_append, List.map_append, k n]
  congr 1
  by_cases he : e.line = n
  · simp [he, WbEntry.phase, hg]
  · simp [he]

/-- An entry replaced in place keeps its write (R44). -/
theorem Listed.replace {l : List Access} {q : List WbEntry} (k : Listed l q) (f : WbEntry → WbEntry)
    (hf : ∀ e, (f e).line = e.line ∧ (f e).granted = e.granted) : Listed l (q.map f) := fun n => by
  rw [k n]
  clear k
  induction q with
  | nil => rfl
  | cons e q ih =>
    obtain ⟨h1, h2⟩ := hf e
    simp only [List.map_cons, List.filter_cons, h1]
    split
    · simp only [List.map_cons, ih, WbEntry.phase, h2]
    · exact ih

/-- What a decode hands to the Write-back Queue keeps entries and writes in agreement, and no tag moves (R43). -/
theorem handWriteback_listed (line : Nat) (data : Data) (kind : WbKind) (policy : Policy) (s : State) :
    (WritebacksListed s → WritebacksListed (handWriteback line data kind policy s)) ∧
    (TagsMatch s → TagsMatch (handWriteback line data kind policy s)) := by
  unfold handWriteback
  split
  · exact ⟨id, id⟩
  · split
    · exact ⟨id, id⟩
    · split
      · refine ⟨fun h => ?_, fun h => h.congr rfl rfl rfl fun _ => rfl⟩
        exact Listed.replace h _ fun e => by split <;> simp
      · split
        · refine ⟨fun h => ?_, fun h => h.congr rfl rfl rfl fun tag => ?_⟩
          · exact Listed.insert h
              { line := line, data := data, kind := kind, policy := policy, inserted := s.now, granted := false } rfl
          · simp [insertEntry, takeAccess, tagged, AccessKind.tag?]
        · exact ⟨id, fun h => h.congr rfl rfl rfl fun _ => rfl⟩

/-- A refresh passes its rank's granted accesses and moves no entry, write or tag (R35). -/
theorem passAccesses_work (rank : Nat) (s : State) :
    WorkStep s.port.accesses s.wbq (passAccesses rank s).port.accesses (passAccesses rank s).wbq := by
  refine .map _ _ _ fun a => ?_
  unfold Access.passed
  split <;> simp

/-- The payload of a copy write fixed moves no entry, write or tag (R16). -/
theorem fixPayload_work (line : Nat) (payload : Data × Form) (l : List Access) (q : List WbEntry) :
    WorkStep l q (l.map (fixPayload line payload)) q := by
  refine .map _ _ _ fun a => ?_
  unfold fixPayload
  split
  · rename_i hk
    split
    · simp [hk, AccessKind.tag?]
    · simp
  · simp

/-! ## Grants and performed accesses -/

/-- A demand access performed or decoded leaves line order: its work is in hand (R13, R17). -/
theorem TagsMatch.finish {s : State} (h : TagsMatch s) (a : Access) (hf : Fronts a s.port.accesses) (tag : Nat)
    (ht : a.kind.tag? = some tag) : TagsLack tag (finishAccess a s) := by
  obtain ⟨m, _, e⟩ := finishAccess_spec a s
  rw [e]
  intro n
  have h1 := h n
  have h2 := tagged_remove s.port.accesses a hf n
  simp only [tagged, ht] at h2
  simp only [outstanding] at h1 ⊢
  by_cases hn : n = tag
  · subst hn; simp at h2 ⊢; omega
  · have hb : (tag == n) = false := by simpa using Ne.symm hn
    simp [hn, hb] at h2 ⊢; omega

/-- Any other access that leaves line order moves no tag. -/
theorem TagsMatch.done {s : State} (h : TagsMatch s) (a : Access) (hf : Fronts a s.port.accesses)
    (ht : a.kind.tag? = none) : TagsMatch (finishAccess a s) := by
  obtain ⟨m, _, e⟩ := finishAccess_spec a s
  rw [e]
  refine h.congr rfl rfl rfl fun n => ?_
  have h2 := tagged_remove s.port.accesses a hf n
  simp only [ht] at h2
  simp at h2
  simp only [h2]

theorem WritebacksListed.finish {s : State} (h : WritebacksListed s) (a : Access) (hf : Fronts a s.port.accesses)
    (hw : a.kind ≠ .writeBack) : WritebacksListed (finishAccess a s) := by
  obtain ⟨m, _, e⟩ := finishAccess_spec a s
  rw [e]
  exact Listed.remove h a hf hw

theorem frontAccesses_fronts (l : List Access) (seen : List Nat) (a : Access) (h : a ∈ frontAccesses l seen) :
    a.line ∉ seen ∧ Fronts a l := by
  induction l generalizing seen with
  | nil => simp [frontAccesses] at h
  | cons b l ih =>
    simp only [frontAccesses] at h
    split at h
    · rename_i hs
      obtain ⟨h1, h2⟩ := ih seen h
      have hb : b.line ≠ a.line := by
        intro hc
        exact h1 (by simpa [hc] using hs)
      exact ⟨h1, by simpa [Fronts, hb] using h2⟩
    · rename_i hs
      rcases List.mem_cons.1 h with rfl | h
      · exact ⟨by simpa using hs, by simp [Fronts]⟩
      · obtain ⟨h1, h2⟩ := ih _ h
        simp only [List.mem_cons, not_or] at h1
        exact ⟨h1.2, by simpa [Fronts, Ne.symm h1.1] using h2⟩

/-- The access a class grants is one of the eligible accesses. -/
theorem accessWinner_mem {eligible : List Access} {cls : Nat} {s : State} {a : Access} {c p : Nat}
    (h : accessWinner eligible cls s = some (.access a c p)) : a ∈ eligible := by
  unfold accessWinner at h
  dsimp only at h
  split at h
  · cases h
  · rename_i oldest rest hm
    have hold : oldest ∈ eligible := by
      have : oldest ∈ eligible.filter fun a => classOf s a == cls := by rw [hm]; simp
      exact List.mem_of_mem_filter this
    split at h
    · rename_i hit hh
      have hhit : hit ∈ eligible := by
        split at hh
        · exact List.mem_of_mem_filter (List.mem_of_find?_eq_some hh)
        · cases hh
      split at h
      · cases h; exact hold
      · cases h; exact hhit
    · cases h; exact hold

/-- The winner's access is the first of its line, not granted, and its owner counts it eligible (R26, R31). -/
theorem winner_access {accept : BitVec 64} {refresh : BitVec 4} {s : State} {a : Access} {c p : Nat}
    (h : winner accept refresh s = some (.access a c p)) :
    Fronts a s.port.accesses ∧ a.phase ≠ .granted ∧ ownerAllows s a = true := by
  obtain ⟨cls, _, h1⟩ := List.exists_of_findSome?_eq_some h
  unfold classWinner at h1
  split at h1
  · simp at h1
  · have hm := accessWinner_mem h1
    unfold eligibleAccesses at hm
    rw [List.mem_filter] at hm
    obtain ⟨h2, h3⟩ := hm
    simp only [Bool.and_eq_true, bne_iff_ne] at h3
    exact ⟨(frontAccesses_fronts _ _ _ h2).2, h3.1.1, h3.1.2⟩

/-- An opened row moves no entry, write or tag of its own; records may cancel write-backs (R34, R49). -/
theorem openRow_work (rank bank row : Nat) (r : Requester) (s : State) :
    WorkStep s.port.accesses s.wbq (openRow rank bank row r s).port.accesses (openRow rank bank row r s).wbq ∧
    (TagsMatch s → TagsMatch (openRow rank bank row r s)) := by
  obtain ⟨m, _, h, _⟩ := openRow_spec rank bank row r s
  exact ⟨h.2.1, fun k => h.tags (k.congr rfl rfl rfl fun _ => rfl)⟩

theorem openDouble_work (rank bank : Nat) (d : Option Nat) (r : Requester) (s : State) :
    WorkStep s.port.accesses s.wbq (openDouble rank bank d r s).port.accesses (openDouble rank bank d r s).wbq ∧
    (TagsMatch s → TagsMatch (openDouble rank bank d r s)) := by
  unfold openDouble
  split
  · obtain ⟨h1, h2⟩ := openRow_work rank bank _ r (count .writesDoubled s)
    exact ⟨h1, fun k => h2 (k.congr rfl rfl rfl fun _ => rfl)⟩
  · exact ⟨.refl _ _, id⟩

/-- A grant keeps entries and writes in agreement and moves no tag (R47). -/
theorem grantAccess_work (a : Access) (cls passes : Nat) (s : State) (hf : Fronts a s.port.accesses) :
    ((s.wbq.map WbEntry.line).Nodup → WritebacksListed s → WritebacksListed (grantAccess a cls passes s)) ∧
    (TagsMatch s → TagsMatch (grantAccess a cls passes s)) := by
  unfold grantAccess
  dsimp only
  generalize hg : ({ s with port := { s.port with
    accesses := updateFirst a.line (Access.given (lookupRow s a) (doubleRow s a) s.port.grants) s.port.accesses
    passCounts := s.port.passCounts.set cls passes, grants := s.port.grants + 1 } } : State) = g
  have ha : (markGranted a g).port.accesses =
      updateFirst a.line (Access.given (lookupRow s a) (doubleRow s a) s.port.grants) s.port.accesses := by
    rw [← hg]
    unfold markGranted
    split <;> rfl
  obtain ⟨w1, t1⟩ := openRow_work (rankOfAccess s a) (bankOfAccess s a) (lookupRow s a) a.kind.requester (markGranted a g)
  obtain ⟨w2, t2⟩ := openDouble_work (rankOfAccess s a) (bankOfAccess s a) (doubleRow s a) a.kind.requester
    (openRow (rankOfAccess s a) (bankOfAccess s a) (lookupRow s a) a.kind.requester (markGranted a g))
  refine ⟨fun hn h => w2.2.1 (w1.2.1 ?_), fun h => t2 (t1 ?_)⟩
  · rw [ha]
    by_cases hw : a.kind = .writeBack
    · have e : (markGranted a g).wbq = s.wbq.map fun e => if e.line == a.line then { e with granted := true } else e := by
        rw [← hg]
        simp only [markGranted, hw, if_true]
      rw [e]
      exact Listed.granted h hn a hf hw _ rfl hw rfl
    · have e : (markGranted a g).wbq = s.wbq := by
        rw [← hg]
        simp only [markGranted, hw, if_false]
      rw [e]
      exact (WorkStep.update _ _ _ a hf rfl hw hw rfl).2.1 h
  · refine h.congr ?_ ?_ ?_ fun tag => ?_
    · rw [← hg]; unfold markGranted; split <;> rfl
    · rw [← hg]; unfold markGranted; split <;> rfl
    · rw [← hg]; unfold markGranted; split <;> rfl
    · rw [ha]; exact tagged_update _ _ a hf rfl tag

end Sys2Proof.Machine
end

