-- ==== Sys2Proof/Laws/SlotLaws.lean ====
section
/-! SUPPORT. The sweep states of the regions and the places that hold their sweeps (R57): what each move of a sweep does to
their agreement, and that the engine's own actions and the five patrol requests keep it. -/

namespace Sys2Proof.Machine

open Sys2Proof

/-! ## The agreement, said of the three places and of what the regions show -/

/-- The regions in the active slot, the staged slot and the held record, as a list. -/
def places (a p h : Option Nat) : List Nat := a.toList ++ p.toList ++ h.toList

/-- The sweep state a region shows by the three places. -/
def placedState (a p h : Option Nat) (i : Nat) : SweepState :=
  if a = some i then .active else if p = some i then .staged else if h = some i then .held else .idle

/-- The sweep states say which place holds each region's sweep (R57). -/
def Standing (a p h : Option Nat) (l : List (Bool × SweepState)) : Prop :=
  (places a p h).Nodup ∧ (∀ i ∈ places a p h, i < l.length) ∧
  ∀ i, ∀ g ∈ l[i]?, g.2 = placedState a p h i ∧ (g.1 = false → g.2 = .idle)

theorem standing_at (s : State) (i : Nat) (hi : i < s.regions.length) :
    (s.regions.map Region.standing)[i]? = some (regionAt s i).standing := by
  simp [regionAt, List.getD, hi]

theorem slotsAgree_iff (s : State) : SlotsAgree s ↔
    Standing (s.patrol.active.map Sweep.region) (s.patrol.staged.map Staged.region) (s.patrol.held.map Sweep.region)
      (s.regions.map Region.standing) := by
  constructor
  · rintro ⟨h1, h2, h3⟩
    refine ⟨h1, fun i hi => by rw [List.length_map]; exact h2 i hi, fun i g hg => ?_⟩
    by_cases hi : i < s.regions.length
    · rw [standing_at s i hi] at hg
      obtain rfl := Option.some.inj hg
      exact h3 i hi
    · simp [hi] at hg
  · rintro ⟨h1, h2, h3⟩
    refine ⟨h1, fun i hi => by rw [← List.length_map]; exact h2 i hi, fun i hi => h3 i (regionAt s i).standing ?_⟩
    rw [standing_at s i hi]
    exact rfl

theorem SlotSame.agree {s t : State} (h : SlotSame s t) (k : SlotsAgree s) : SlotsAgree t := by
  obtain ⟨h1, h2, h3, h4⟩ := h
  rw [slotsAgree_iff] at k ⊢
  rw [h1, h2, h3, h4]
  exact k

/-! ## The moves of a sweep -/

/-- A region's sweep goes from one place to another, or to none: if the rest of the places and the region's new state are
as the move asks, the agreement is kept. -/
theorem Standing.move {a p h a' p' h' : Option Nat} {l : List (Bool × SweepState)} (k : Standing a p h l) (i : Nat)
    (v : Bool) (hn : (places a' p' h').Nodup) (hl : ∀ j ∈ places a' p' h', j ∈ places a p h ∨ j = i ∧ i < l.length)
    (ho : ∀ j, j ≠ i → placedState a' p' h' j = placedState a p h j)
    (hv : v = false → placedState a' p' h' i = .idle) :
    Standing a' p' h' (l.set i (v, placedState a' p' h' i)) := by
  obtain ⟨_, k2, k3⟩ := k
  refine ⟨hn, fun j hj => ?_, fun j g hg => ?_⟩
  · rw [List.length_set]
    rcases hl j hj with h1 | ⟨rfl, h1⟩
    · exact k2 j h1
    · exact h1
  · by_cases hj : j = i
    · subst hj
      rw [List.getElem?_set] at hg
      by_cases hlt : j < l.length
      · simp only [if_true, hlt, Option.mem_def, Option.some.injEq] at hg
        subst hg
        exact ⟨rfl, hv⟩
      · simp [hlt] at hg
    · rw [List.getElem?_set_ne (Ne.symm hj)] at hg
      rw [ho j hj]
      exact k3 j g hg

/-- The staged sweep moves to the empty active slot (R71). -/
theorem Standing.promote {h : Option Nat} {l : List (Bool × SweepState)} {i : Nat} (k : Standing none (some i) h l)
    (v : Bool) (hv : ∀ g ∈ l[i]?, g.1 = v) : Standing (some i) none h (l.set i (v, .active)) := by
  have hi : i < l.length := k.2.1 i (by simp [places])
  have e : placedState (some i) none h i = .active := by simp [placedState]
  rw [← e]
  refine k.move i v ?_ ?_ (fun j hj => ?_) fun hf => ?_
  · simpa [places] using k.1
  · intro j hj
    exact .inl (by simpa [places] using hj)
  · simp [placedState, Ne.symm hj]
  · have h1 := k.2.2 i l[i] (by simp [hi])
    have h2 := hv l[i] (by simp [hi])
    have h3 := h1.2 (h2.trans hf)
    rw [h1.1] at h3
    simp [placedState] at h3

/-- An IDLE region that is valid is staged (R71, R84). -/
theorem Standing.stage {a h : Option Nat} {l : List (Bool × SweepState)} {i : Nat} (k : Standing a none h l)
    (hi : l[i]? = some (true, .idle)) : Standing a (some i) h (l.set i (true, .staged)) := by
  have h1 := (k.2.2 i _ hi).1
  have hlt : i < l.length := by
    by_contra hc
    simp [hc] at hi
  have ha : a ≠ some i := fun hc => by simp [placedState, hc] at h1
  have hh : h ≠ some i := fun hc => by
    simp [placedState, ha, hc] at h1
  have e : placedState a (some i) h i = .staged := by simp [placedState, ha]
  rw [← e]
  refine k.move i true ?_ ?_ (fun j hj => ?_) fun hf => by cases hf
  · have := k.1
    cases a <;> cases h <;> simp_all [places]
    all_goals omega
  · intro j hj
    simp only [places, List.mem_append, Option.mem_toList] at hj ⊢
    rcases hj with (hj | hj) | hj
    · exact .inl (.inl (.inl hj))
    · exact .inr ⟨(Option.some.inj hj).symm, hlt⟩
    · exact .inl (.inr hj)
  · simp [placedState, Ne.symm hj]

/-- The sweep in the active slot leaves it and its region becomes IDLE (R81, R88). -/
theorem Standing.leaveActive {p h : Option Nat} {l : List (Bool × SweepState)} {i : Nat} (k : Standing (some i) p h l)
    (v : Bool) : Standing none p h (l.set i (v, .idle)) := by
  have hp : p ≠ some i := fun hc => by have := k.1; simp [places, hc] at this
  have hh : h ≠ some i := fun hc => by have := k.1; simp [places, hc] at this
  have e : placedState none p h i = .idle := by simp [placedState, hp, hh]
  rw [← e]
  refine k.move i v ?_ (fun j hj => .inl ?_) (fun j hj => ?_) fun _ => e
  · have := k.1
    simp only [places, Option.toList_some, List.cons_append, List.nodup_cons] at this
    simpa [places] using this.2
  · simp only [places, List.mem_append, Option.mem_toList] at hj ⊢
    rcases hj with (hj | hj) | hj
    · cases hj
    · exact .inl (.inr hj)
    · exact .inr hj
  · simp [placedState, Ne.symm hj]

/-- The staged sweep leaves its slot and its region becomes IDLE (R84, R88). -/
theorem Standing.leaveStaged {a h : Option Nat} {l : List (Bool × SweepState)} {i : Nat} (k : Standing a (some i) h l)
    (v : Bool) : Standing a none h (l.set i (v, .idle)) := by
  have ha : a ≠ some i := fun hc => by have := k.1; simp [places, hc] at this
  have hh : h ≠ some i := fun hc => by
    have := k.1
    cases a <;> simp [places, hc] at this
  have e : placedState a none h i = .idle := by simp [placedState, ha, hh]
  rw [← e]
  refine k.move i v ?_ (fun j hj => .inl ?_) (fun j hj => ?_) fun _ => e
  · have := k.1
    cases a <;> cases h <;> simp_all [places]
  · simp only [places, List.mem_append, Option.mem_toList] at hj ⊢
    rcases hj with (hj | hj) | hj
    · exact .inl (.inl hj)
    · cases hj
    · exact .inr hj
  · simp [placedState, Ne.symm hj]

/-- The held sweep leaves the held record and its region becomes IDLE (R81, R88). -/
theorem Standing.leaveHeld {a p : Option Nat} {l : List (Bool × SweepState)} {i : Nat} (k : Standing a p (some i) l)
    (v : Bool) : Standing a p none (l.set i (v, .idle)) := by
  have ha : a ≠ some i := fun hc => by have := k.1; cases p <;> simp [places, hc] at this
  have hp : p ≠ some i := fun hc => by
    have := k.1
    cases a <;> simp [places, hc] at this
  have e : placedState a p none i = .idle := by simp [placedState, ha, hp]
  rw [← e]
  refine k.move i v ?_ (fun j hj => .inl ?_) (fun j hj => ?_) fun _ => e
  · have := k.1
    cases a <;> cases p <;> simp_all [places]
  · simp only [places, List.mem_append, Option.mem_toList] at hj ⊢
    rcases hj with (hj | hj) | hj
    · exact .inl (.inl hj)
    · exact .inl (.inr hj)
    · cases hj
  · simp [placedState, Ne.symm hj]

/-- The active sweep goes to the empty held record (R86). -/
theorem Standing.hold {p : Option Nat} {l : List (Bool × SweepState)} {i : Nat} (k : Standing (some i) p none l)
    (v : Bool) (hv : ∀ g ∈ l[i]?, g.1 = v) : Standing none p (some i) (l.set i (v, .held)) := by
  have hi : i < l.length := k.2.1 i (by simp [places])
  have hp : p ≠ some i := fun hc => by have := k.1; simp [places, hc] at this
  have e : placedState none p (some i) i = .held := by simp [placedState, hp]
  rw [← e]
  refine k.move i v ?_ (fun j hj => .inl ?_) (fun j hj => ?_) fun hf => ?_
  · have := k.1
    cases p <;> simp_all [places]
  · simp only [places, List.mem_append, Option.mem_toList] at hj ⊢
    rcases hj with (hj | hj) | hj
    · cases hj
    · exact .inl (.inr hj)
    · exact .inl (.inl hj)
  · simp [placedState, Ne.symm hj]
  · have h1 := k.2.2 i l[i] (by simp [hi])
    have h2 := hv l[i] (by simp [hi])
    have h3 := h1.2 (h2.trans hf)
    rw [h1.1] at h3
    simp [placedState] at h3

/-- The held sweep returns to the empty active slot (R87). -/
theorem Standing.resume {p : Option Nat} {l : List (Bool × SweepState)} {i : Nat} (k : Standing none p (some i) l)
    (v : Bool) (hv : ∀ g ∈ l[i]?, g.1 = v) : Standing (some i) p none (l.set i (v, .active)) := by
  have hi : i < l.length := k.2.1 i (by simp [places])
  have hp : p ≠ some i := fun hc => by have := k.1; simp [places, hc] at this
  have e : placedState (some i) p none i = .active := by simp [placedState]
  rw [← e]
  refine k.move i v ?_ (fun j hj => .inl ?_) (fun j hj => ?_) fun hf => ?_
  · have := k.1
    cases p <;> simp_all [places]
    all_goals omega
  · simp only [places, List.mem_append, Option.mem_toList] at hj ⊢
    rcases hj with (hj | hj) | hj
    · exact .inr hj
    · exact .inl (.inr hj)
    · cases hj
  · simp [placedState, Ne.symm hj]
  · have h1 := k.2.2 i l[i] (by simp [hi])
    have h2 := hv l[i] (by simp [hi])
    have h3 := h1.2 (h2.trans hf)
    rw [h1.1] at h3
    simp [placedState, hp] at h3

/-- An IDLE region is loaded or cleared (R60, R62). -/
theorem Standing.entry {a p h : Option Nat} {l : List (Bool × SweepState)} {i : Nat} (k : Standing a p h l)
    (hi : ∀ g ∈ l[i]?, g.2 = .idle) (v : Bool) : Standing a p h (l.set i (v, .idle)) := by
  by_cases hlt : i < l.length
  · have h1 := k.2.2 i l[i] (by simp [hlt])
    have e : placedState a p h i = .idle := by rw [← h1.1]; exact hi _ (by simp [hlt])
    rw [← e]
    exact k.move i v k.1 (fun j hj => .inl hj) (fun _ _ => rfl) fun _ => e
  · rw [List.set_eq_of_length_le (by omega)]
    exact k

/-! ## Pace, window and selection -/

theorem closeWindow_slots (s : State) : SlotSame s (closeWindow s) := by
  have h : ∀ u : State, SlotSame u (if u.patrol.engine = .paused
      then recompute { u with patrol := { u.patrol with engine := .running } } else u) := fun u =>
    .ite (SlotSame.trans (b := { u with patrol := { u.patrol with engine := .running } }) ⟨rfl, rfl, rfl, rfl⟩
      (recompute_engine _).2.2) (.refl u)
  exact (SlotSame.trans (b := { s with window := none }) ⟨rfl, rfl, rfl, rfl⟩ (h _)).trans (resumeCopy_engine _).2.2

theorem overrideWindow_slots (a b : Elapsed) (s : State) : SlotSame s (overrideWindow a b s) :=
  (closeWindow_slots s).trans
    ((raise_alerted _ _).engine.trans ((handRecord_noted _ _).engine.trans (Noted.count _ _).engine)).2.2

theorem reviewOverride_slots (s : State) : SlotSame s (reviewOverride s) := by
  unfold reviewOverride
  split
  · exact .refl s
  · split
    · split
      · dsimp only
        split
        · exact ⟨rfl, rfl, rfl, rfl⟩
        · split
          · exact ⟨rfl, rfl, rfl, rfl⟩
          · exact overrideWindow_slots _ _ _
      · exact ⟨rfl, rfl, rfl, rfl⟩
    · exact ⟨rfl, rfl, rfl, rfl⟩

/-- A sweep started stands in the active slot, and its region is ACTIVE (R72). -/
theorem startSweep_slots (i : Nat) (host : Bool) (s : State) :
    let t := startSweep i host s
    t.patrol.active.map Sweep.region = some i ∧ t.patrol.staged.map Staged.region = s.patrol.staged.map Staged.region ∧
    t.patrol.held.map Sweep.region = s.patrol.held.map Sweep.region ∧
    t.regions.map Region.standing = (s.regions.map Region.standing).set i ((regionAt s i).entry.valid, .active) := by
  have key : ∀ (st : RegionStatus) (w : Sweep) (e : EngineState), st.state = .active → w.region = i →
      let u := setRegion i { regionAt s i with status := st } s
      let v := { u with patrol := { u.patrol with engine := e, active := some w } }
      let t := reviewOverride (recompute v)
      t.patrol.active.map Sweep.region = some i ∧ t.patrol.staged.map Staged.region = s.patrol.staged.map Staged.region ∧
      t.patrol.held.map Sweep.region = s.patrol.held.map Sweep.region ∧
      t.regions.map Region.standing = (s.regions.map Region.standing).set i ((regionAt s i).entry.valid, .active) := by
    intro st w e h1 h2 u v t
    obtain ⟨k1, k2, k3, k4⟩ := ((recompute_engine v).2.2).trans (reviewOverride_slots _)
    refine ⟨k1.trans (by simp [v, h2]), k2, k3, k4.trans ?_⟩
    simp [v, u, setRegion, List.map_set, Region.standing, h1]
  unfold startSweep
  refine key _ _ _ ?_ ?_ <;> rfl

theorem standing_valid (s : State) (i : Nat) :
    ∀ g ∈ (s.regions.map Region.standing)[i]?, g.1 = (regionAt s i).entry.valid := by
  intro g hg
  by_cases hi : i < s.regions.length
  · rw [standing_at s i hi] at hg
    rw [← Option.some.inj hg]
    rfl
  · simp [hi] at hg

theorem promote_agree (s : State) (h : SlotsAgree s) : SlotsAgree (promote s) := by
  unfold promote
  split
  · rename_i p ha hp
    split
    · obtain ⟨h1, h2, h3, h4⟩ := startSweep_slots p.region p.hostPlaced
        { s with patrol := { s.patrol with staged := none } }
      rw [slotsAgree_iff] at h ⊢
      rw [h1, h2, h3, h4]
      rw [ha, hp] at h
      exact h.promote _ (standing_valid s p.region)
    · exact h
  · exact h

/-- The region selection chooses is a candidate (R71). -/
theorem chooseFrom_spec (now : Elapsed) (l : List Region) (n : Nat) (best : Option (Nat × Region)) (c : Nat × Region)
    (h : chooseFrom now l n best = some c) :
    best = some c ∨ ∃ k, l[k]? = some c.2 ∧ c.1 = n + k ∧ c.2.candidate now = true := by
  induction l generalizing n best with
  | nil => exact .inl h
  | cons g l ih =>
    simp only [chooseFrom] at h
    have later : ∀ b, (∃ k, l[k]? = some c.2 ∧ c.1 = n + 1 + k ∧ c.2.candidate now = true) → b ∨
        ∃ k, (g :: l)[k]? = some c.2 ∧ c.1 = n + k ∧ c.2.candidate now = true := by
      rintro b ⟨k, h1, h2, h3⟩
      exact .inr ⟨k + 1, by simpa using h1, by omega, h3⟩
    rcases ih _ _ h with h1 | h1
    · split at h1
      · rename_i hc
        have here : some (n, g) = some c → ∃ k, (g :: l)[k]? = some c.2 ∧ c.1 = n + k ∧ c.2.candidate now = true := by
          intro e
          obtain rfl := Option.some.inj e
          exact ⟨0, by simp, by simp, hc⟩
        split at h1
        · split at h1
          · exact .inr (here h1)
          · exact .inl h1
        · exact .inr (here h1)
      · exact .inl h1
    · exact later _ h1

/-- A region put into the empty staged slot, IDLE and valid before (R71, R84). -/
theorem stage_agree (i : Nat) (host : Bool) (s : State) (h : SlotsAgree s) (hs : s.patrol.staged = none)
    (hi : (s.regions.map Region.standing)[i]? = some (true, .idle)) :
    SlotsAgree (setSweepState i .staged { s with patrol := { s.patrol with
      staged := some { region := i, hostPlaced := host } } }) := by
  rw [slotsAgree_iff] at h ⊢
  rw [hs] at h
  have hv := standing_valid s i _ hi
  have e : (setSweepState i .staged { s with patrol := { s.patrol with
      staged := some { region := i, hostPlaced := host } } }).regions.map Region.standing =
      (s.regions.map Region.standing).set i (true, .staged) := by
    simp only [setSweepState, setRegion, List.map_set, Region.standing]
    congr 2
    exact hv.symm
  rw [e]
  exact h.stage hi

theorem selectStaged_agree (s : State) (h : SlotsAgree s) : SlotsAgree (selectStaged s) := by
  unfold selectStaged
  split
  · rename_i hs
    simp only [Bool.and_eq_true, Option.isNone_iff_eq_none] at hs
    split
    · rename_i c hc
      rcases chooseFrom_spec _ _ _ _ _ hc with h1 | ⟨k, h1, h2, h3⟩
      · cases h1
      · refine stage_agree c.1 false s h hs.2 ?_
        simp only [Region.candidate, Region.waits, Bool.and_eq_true, beq_iff_eq] at h3
        have : k = c.1 := by omega
        subst this
        simp [h1, Region.standing, h3.1.1.1, h3.1.2]
    · exact h
  · exact h

theorem runSelection_agree (s : State) (h : SlotsAgree s) : SlotsAgree (runSelection s) := by
  have h1 := selectStaged_agree s h
  unfold runSelection
  dsimp only
  split
  · exact selectStaged_agree _ (promote_agree _ h1)
  · exact h1

/-! ## Completion -/

theorem completeActive_agree (w : Sweep) (s : State) (h : SlotsAgree s) (ha : s.patrol.active = some w) :
    SlotsAgree (completeActive w s) := by
  obtain ⟨_, h2, _, h4⟩ := finishSweep_spec w s
  have h5 : SlotsAgree { finishSweep w s with
      patrol := { (finishSweep w s).patrol with active := none, engine := .idle } } := by
    rw [slotsAgree_iff] at h ⊢
    simp only [h2, h4]
    rw [ha] at h
    exact h.leaveActive _
  have h6 := runSelection_agree _ (promote_agree _ ((reviewOverride_slots _).agree h5))
  unfold completeActive
  dsimp only
  split
  · exact (raise_alerted _ _).engine.2.2.agree h6
  · exact h6

theorem completeHeld_agree (w : Sweep) (s : State) (h : SlotsAgree s) (hh : s.patrol.held = some w) :
    SlotsAgree (completeHeld w s) := by
  obtain ⟨_, h2, _, h4⟩ := finishSweep_spec w { s with patrol := { s.patrol with held := none } }
  unfold completeHeld
  rw [slotsAgree_iff] at h ⊢
  rw [h2, h4]
  rw [hh] at h
  exact h.leaveHeld _

/-- One immediate action of the engine keeps the agreement. -/
theorem settleOnce_agree (s t : State) (h : settleOnce s = some t) (k : SlotsAgree s) : SlotsAgree t := by
  unfold settleOnce at h
  split at h
  · rename_i w hw
    obtain rfl := Option.some.inj h
    exact completeActive_agree w s k (Option.filter_eq_some_iff.mp hw).1
  · split at h
    · rename_i w hw
      obtain rfl := Option.some.inj h
      exact completeHeld_agree w s k (Option.filter_eq_some_iff.mp hw).1
    · split at h
      · obtain rfl := Option.some.inj h
        exact (advanceJob_engine _ s).2.2.agree k
      · split at h
        · rename_i w hw
          obtain rfl := Option.some.inj h
          exact (issueLine_engine _ s (by simp [(Option.filter_eq_some_iff.mp hw).1])).2.2.agree k
        · split at h
          · rename_i w hw
            obtain rfl := Option.some.inj h
            exact (atBoundary_engine w s (by simp [(Option.filter_eq_some_iff.mp hw).1])).2.2.agree k
          · split at h
            · obtain ⟨e, _, rfl⟩ := Option.map_eq_some_iff.mp h
              exact (setTsq_engine _ s).2.2.agree k
            · cases h

theorem settle_agree (s : State) (h : SlotsAgree s) : SlotsAgree (settle s) := by
  have key : ∀ (n : Nat) (u : State), SlotsAgree u → SlotsAgree (settleWith n u) := by
    intro n
    induction n with
    | zero => exact fun _ hu => hu
    | succ n ih =>
      intro u hu
      simp only [settleWith]
      split
      · rename_i t ht
        exact ih t (settleOnce_agree u t ht hu)
      · exact hu
  exact key _ s h

/-! ## The requests that move a sweep -/

/-- A staged region becomes IDLE, its slot empty (R84). -/
theorem unstage_agree (s : State) (h : SlotsAgree s) :
    let u := idleRegion (s.patrol.staged.map Staged.region) s
    SlotsAgree { u with patrol := { u.patrol with staged := none } } := by
  rw [slotsAgree_iff] at h ⊢
  unfold idleRegion
  cases hp : s.patrol.staged with
  | none => simpa [hp] using h
  | some p =>
    rw [hp] at h
    have := h.leaveStaged (regionAt s p.region).entry.valid
    simpa [setSweepState, setRegion, List.map_set, Region.standing] using this

/-- A region named by a place, if any, becomes IDLE and shows it; the places themselves stay. -/
theorem idleRegion_shows (o : Option Nat) (s : State) :
    (idleRegion o s).patrol = s.patrol ∧ (o = none → idleRegion o s = s) ∧
    ∀ i, o = some i → (idleRegion o s).regions.map Region.standing =
      (s.regions.map Region.standing).set i ((regionAt s i).entry.valid, .idle) := by
  unfold idleRegion
  cases o with
  | none => exact ⟨rfl, fun _ => rfl, fun i hi => by cases hi⟩
  | some i =>
    refine ⟨rfl, fun h => (by cases h), fun j hj => ?_⟩
    obtain rfl := Option.some.inj hj
    simp [setSweepState, setRegion, List.map_set, Region.standing]

/-- The slots and the held record emptied leave every region of theirs IDLE (R57, R88, R97). -/
theorem emptySlots_agree (s : State) (h : SlotsAgree s) : SlotsAgree (emptySlots s) := by
  rw [slotsAgree_iff] at h
  obtain ⟨_, a2, a3⟩ := idleRegion_shows (s.patrol.active.map Sweep.region) s
  generalize hu : idleRegion (s.patrol.active.map Sweep.region) s = u at a2 a3
  have h1 : Standing none (s.patrol.staged.map Staged.region) (s.patrol.held.map Sweep.region)
      (u.regions.map Region.standing) := by
    cases ha : s.patrol.active.map Sweep.region with
    | none => rw [a2 ha, ← ha]; exact h
    | some i => rw [a3 i ha]; rw [ha] at h; exact h.leaveActive _
  have e1 : u.patrol = s.patrol := by rw [← hu]; exact (idleRegion_shows _ _).1
  obtain ⟨_, b2, b3⟩ := idleRegion_shows (u.patrol.staged.map Staged.region) u
  generalize hv : idleRegion (u.patrol.staged.map Staged.region) u = v at b2 b3
  have h2 : Standing none none (s.patrol.held.map Sweep.region) (v.regions.map Region.standing) := by
    rw [← e1] at h1 ⊢
    cases hp : u.patrol.staged.map Staged.region with
    | none => rw [b2 hp]; rw [hp] at h1; exact h1
    | some i => rw [b3 i hp]; rw [hp] at h1; exact h1.leaveStaged _
  have e2 : v.patrol = u.patrol := by rw [← hv]; exact (idleRegion_shows _ _).1
  obtain ⟨_, c2, c3⟩ := idleRegion_shows (v.patrol.held.map Sweep.region) v
  generalize hw : idleRegion (v.patrol.held.map Sweep.region) v = w at c2 c3
  have h3 : Standing none none none (w.regions.map Region.standing) := by
    rw [← e1, ← e2] at h2
    cases hh : v.patrol.held.map Sweep.region with
    | none => rw [c2 hh]; rw [hh] at h2; exact h2
    | some i => rw [c3 i hh]; rw [hh] at h2; exact h2.leaveHeld _
  rw [slotsAgree_iff]
  have e : emptySlots s = abandonReads { w with patrol := { w.patrol with active := none, staged := none, held := none } } := by
    rw [← hw, ← hv, ← hu]
    rfl
  rw [e]
  exact h3

/-- The active sweep goes to the held record, with none held (R86). -/
theorem holdSweep_agree (s : State) (h : SlotsAgree s) (hh : s.patrol.held = none) : SlotsAgree (holdSweep s) := by
  unfold holdSweep
  split
  · rename_i w hw
    rw [slotsAgree_iff] at h ⊢
    rw [hw, hh] at h
    have := h.hold _ (standing_valid s w.region)
    simpa [setSweepState, setRegion, List.map_set, Region.standing, Sweep.stopBurst, regionAt] using this
  · exact h

/-- The held sweep returns to the empty active slot (R87). -/
theorem returnSweep_agree (w : Sweep) (s : State) (h : SlotsAgree s) (hh : s.patrol.held = some w)
    (ha : s.patrol.active = none) : SlotsAgree (returnSweep w s) := by
  unfold returnSweep
  dsimp only
  refine (((recompute_engine _).2.2).trans (reviewOverride_slots _)).agree ?_
  rw [slotsAgree_iff] at h ⊢
  rw [ha, hh] at h
  have := h.resume _ (standing_valid s w.region)
  simpa [setSweepState, setRegion, List.map_set, Region.standing, regionAt] using this

/-- A valid region that is neither ACTIVE nor HELD is staged for the host, the region staged before leaving its slot
(R84). -/
theorem stageHost_agree (i : Nat) (s : State) (h : SlotsAgree s) (hi : i < s.regions.length)
    (hv : (regionAt s i).entry.valid = true) (ha : (regionAt s i).status.state ≠ .active)
    (hh : (regionAt s i).status.state ≠ .held) : SlotsAgree (stageHost i s) := by
  have h1 := unstage_agree s h
  obtain ⟨e1, b2, b3⟩ := idleRegion_shows (s.patrol.staged.map Staged.region) s
  rw [slotsAgree_iff] at h
  have hst := (h.2.2 i (regionAt s i).standing (standing_at s i hi)).1
  unfold stageHost
  dsimp only at h1 ⊢
  generalize hu : idleRegion (s.patrol.staged.map Staged.region) s = u at h1 b2 b3 e1
  refine stage_agree i true { u with patrol := { u.patrol with staged := none } } h1 rfl ?_
  show (u.regions.map Region.standing)[i]? = some (true, .idle)
  by_cases hp : s.patrol.staged.map Staged.region = some i
  · rw [b3 i hp, hv, List.getElem?_set_self (by simpa using hi)]
  · have hst' : (regionAt s i).status.state = placedState _ _ _ i := hst
    have hidle : (regionAt s i).standing = (true, .idle) := by
      rw [hst'] at ha hh
      have : (regionAt s i).status.state = .idle := by
        rw [hst']
        simp only [placedState, hp, if_false] at ha hh ⊢
        split at ha
        · exact absurd rfl ha
        · rename_i hna
          rw [if_neg hna] at hh ⊢
          split at hh
          · exact absurd rfl hh
          · rename_i hnh
            rw [if_neg hnh]
      simp [Region.standing, hv, this]
    cases ho : s.patrol.staged.map Staged.region with
    | none => rw [b2 ho, standing_at s i hi, hidle]
    | some j =>
      have hj : j ≠ i := fun hc => hp (by rw [ho, hc])
      rw [b3 j ho, List.getElem?_set_ne hj, standing_at s i hi, hidle]

end Sys2Proof.Machine
end

