-- ==== Sys2Proof/Tests/Slice0.lean ====
section
/-! SUPPORT. Tests: the check of ill-formed commands, the manual's worked examples, and for every statement with hypotheses a
concrete state and operands that meet them. Expected results are the manual's own; a test's docstring says which. -/

namespace Sys2Proof.Tests

open Sys2Proof Sys2Proof.Machine

set_option Elab.async false

/-! ## Ill-formed commands are refused by WellFormed -/

theorem test_wf_line_too_large : Instr.wf (.demandReadDecode 2147483648 0) = false := by decide
theorem test_wf_last_line : Instr.wf (.demandReadDecode 2147483647 0) = true := by decide
theorem test_wf_written_line_too_large : Instr.wf (.copyWritePerformed 2147483648) = false := by decide
theorem test_wf_bank_too_large : Instr.wf (.rowHoldExpiry 0 16) = false := by decide
theorem test_wf_rank_too_large : Instr.wf (.rowHoldExpiry 4 0) = false := by decide
theorem test_wf_refresh_rank_too_large : Instr.wf (.refreshTimerExpiry 4) = false := by decide
theorem test_wf_too_many_arguments :
    Instr.wf (.maint 1 0 4 0 (List.replicate 256 0) 0) = false := by decide +kernel
theorem test_wf_good_frame_is_not_malformed :
    Instr.wf (.malformedFrame (sealFrame (idleBody 0 0 0))) = false := by decide +kernel
theorem test_wf_unknown_kind_is_malformed : Instr.wf (.malformedFrame [5, 0, 0, 0, 0, 0]) = true := by decide +kernel

/-! ## States of the tests -/

/-- The geometry of the manual's worked examples: 2 ranks, r = 16, c = 7, S = 16. -/
def exampleGeometry : Geometry := { ranks := 2, rowBits := 16, colExp := 7, spares := 16 }

/-- The state after power-on with the geometry of the worked examples. -/
def bare : State :=
  { State.reset with port := { State.reset.port with geomSet := true, geom := exampleGeometry } }

/-- The same, ONLINE. -/
def live : State := { bare with link := { bare.link with channel := .online } }

/-- A state with one request waiting, at the head. -/
def asked (code : Nat) (args : List Word32) (s : State) : State :=
  { s with maint := { s.maint with queue := [{ tag := 1, code := code, args := args }] } }

/-- A granted access of line 5. -/
def under (kind : AccessKind) : Access := { line := 5, kind := kind, phase := .granted }

/-- A waiting access. -/
def waits (line : Nat) (kind : AccessKind) : Access := { line := line, kind := kind, phase := .waiting }

/-- A state with accesses in line order. -/
def withAccesses (l : List Access) (s : State) : State := { s with port := { s.port with accesses := l } }

/-- A Write-back Queue entry. -/
def entry (line : Nat) (kind : WbKind) (granted : Bool) : WbEntry :=
  { line := line, data := 9, kind := kind, policy := .immediate, inserted := 0, granted := granted }

/-- A region of lines base to base + length - 1. -/
def region (base length : Nat) : Region :=
  { entry := { valid := true, base := base, length := length, patrol := true, period := 600, burst := 2 } }

/-- A sweep of region 0. -/
def sweep : Sweep :=
  { region := 0, hostPlaced := false, cursor := 3, remaining := 5, inFlight := 0, issued := 0, due := 0
    deadline := 60000000, pace := 24, nextIssue := { us := 10, sub := 0 }, atRisk := false, atRiskReported := false
    burstLeft := 0, jobSince := false, deferred := false }

/-- A state whose region 0 is being swept, in an access mode. -/
def swept (mode : AccessMode) : State :=
  { live with
    regions := live.regions.set 0
      { entry := { (region 0 64).entry with mode := mode }, status := { state := .active } }
    patrol := { live.patrol with engine := .running, active := some sweep } }

/-- A targeted job. -/
def job (row nextCol : Nat) (neighbour : Bool) : TsqEntry :=
  { rank := 0, bank := 0, row := row, recheck := !neighbour, neighbour := neighbour, nextCol := nextCol
    inService := false, reading := false }

/-- A state with the report ring set up. -/
def ringed (s : State) : State :=
  { s with report := { s.report with setUp := true, base := 1000, sizeExp := 6 } }

/-! ## The manual's worked examples -/

/-- The check of the nine ASCII bytes "123456789" (R184). -/
theorem test_crc_of_the_digits :
    crc16 [0x31, 0x32, 0x33, 0x34, 0x35, 0x36, 0x37, 0x38, 0x39] = 0x29B1 := by decide +kernel

/-- Damage of every bit of a device. -/
def garbage (device : Nat) : Line := deviceMask device

/-- One bit flipped: bit b of byte k of a device. -/
def flip (device k b : Nat) : Line := BitVec.ofNat 640 (2 ^ (32 * device + 8 * k + b))

/-- A line of data that is not all zero. -/
def someData : Data := BitVec.ofNat 512 0x1234567890abcdef

/-- Section 1.8, step 1: an erased device costs nothing. -/
theorem test_codec_erased_device :
    decodeLine Config.resetCode [7] (encodeLine Config.resetCode someData .fresh ^^^ garbage 7) =
      { outcome := .clean, data := someData, located := none } := by decide +kernel

/-- Section 1.8, step 2: device 3 byte 2 with one bit flipped is located with bit count 1. -/
theorem test_codec_located_device :
    decodeLine Config.resetCode [7] (encodeLine Config.resetCode someData .fresh ^^^ garbage 7 ^^^ flip 3 2 4) =
      { outcome := .corrected, data := someData, located := some (3, 1) } := by decide +kernel

/-- Section 1.8, step 3: two located devices exceed the reach, though each codeword has one. -/
theorem test_codec_two_devices :
    (decodeLine Config.resetCode [7] (encodeLine Config.resetCode someData .fresh ^^^ garbage 7 ^^^ flip 3 0 1 ^^^
      flip 12 3 0 ^^^ flip 12 3 5)).outcome = .uncorrectable := by decide +kernel

/-- Section 1.8, step 7: with two devices erased one flipped bit is not corrected. -/
theorem test_codec_two_erased :
    (decodeLine Config.resetCode [7, 12] (encodeLine Config.resetCode someData .fresh ^^^ garbage 7 ^^^ garbage 12 ^^^
      flip 0 1 3)).outcome = .uncorrectable := by decide +kernel

/-- Section 1.8, step 8: a line with the poison mark is decided by the poison test. -/
theorem test_codec_poison_mark :
    decodeLine Config.resetCode [7, 12] (encodeLine Config.resetCode someData .poison ^^^ garbage 7) =
      { outcome := .poisoned, data := someData, located := none } := by decide +kernel

/-- The mapping example of section 2.2: line 5,000,000 and the last line. -/
theorem test_mapping_example :
    (exampleGeometry.colOf 5000000, exampleGeometry.bankOf 5000000, exampleGeometry.rankOf 5000000,
      exampleGeometry.logicalOf 5000000) = (64, 6, 1, 1220) ∧
    (exampleGeometry.colOf 268369919, exampleGeometry.bankOf 268369919, exampleGeometry.rankOf 268369919,
      exampleGeometry.logicalOf 268369919) = (127, 15, 1, 65519) ∧
    exampleGeometry.capacity = 268369920 ∧ exampleGeometry.lineOf 1 6 1220 64 = 5000000 := by decide +kernel

/-- The pace example of section 5.4, its five starts: region 9 with 33,554,432 lines. -/
theorem test_pace_example :
    (([52500000, 32500000, 12500000, 2500000, 42500000] : List Int).map fun slack =>
      let w := pacedSweep .single 7 slack { sweep with remaining := 33554432 }
      (w.pace, w.atRisk)) = [(24, false), (14, false), (7, true), (7, true), (19, false)] := by decide +kernel

/-- The state of the override example of section 6.7: a sweep with 10,000,000 lines left, period 300, deadline
11,750,000. -/
def overrideExample (endTime : Elapsed) : State :=
  { live with
    regions := live.regions.set 0
      { entry := { (region 0 64).entry with period := 300 }, status := { state := .active } }
    patrol := { live.patrol with
      engine := .paused, active := some { sweep with remaining := 10000000, deadline := 11750000 } }
    window := some { endTime := endTime, override := none } }

/-- Section 6.7, step 1 and the window that would end before the safe time: the override time is 3,000,000, or none. -/
theorem test_override_example :
    (reviewOverride (overrideExample 5000000)).window = some { endTime := 5000000, override := some 3000000 } ∧
    (reviewOverride (overrideExample 2500000)).window = some { endTime := 2500000, override := none } := by
  decide +kernel

/-- The full table of section 9.8, threshold 1024. -/
def hammerExample : State :=
  let other := fun (i : Nat) => some { bank := 15, row := 100 + i, count := 10 }
  let table := (((((List.range 16).map other).set 0 (some { bank := 1, row := 4000, count := 12 })).set 3
    (some { bank := 6, row := 1220, count := 1023 })).set 7 (some { bank := 2, row := 500, count := 4 })).set 12
    (some { bank := 9, row := 33, count := 4 })
  { live with
    params := { live.params with hammerThreshold := 1024 }
    hammer := { live.hammer with tables := live.hammer.tables.set 0 table } }

/-- Section 9.8, step 4: the lowest entry of the smallest count is taken, with one more. -/
theorem test_hammer_replacement :
    hammerAt (countActivation 0 11 77 .demandWrite hammerExample) 0 7 = some { bank := 11, row := 77, count := 5 } ∧
    (countActivation 0 11 77 .demandWrite hammerExample).counters.hammerReplacements = 1 := by decide +kernel

/-- Section 9.8, step 6: at the threshold the entry triggers, and both neighbours are handed on. -/
theorem test_hammer_trigger :
    let t := countActivation 0 6 1220 .maskedWrite hammerExample
    hammerAt t 0 3 = some { bank := 6, row := 1220, count := 0 } ∧ t.patrol.tsq.map TsqEntry.row = [1219, 1221] ∧
    t.counters.hammerTriggers = 1 ∧ t.counters.hammerNeighbourJobs = 2 := by decide +kernel

/-- Section 9.9: the rows at the edges of a bank. -/
theorem test_hammer_edges :
    let slots : AMap Slot := [(192, .active 1), (193, .active 2), (194, .active 1220), (206, .dead), (207, .active 3)]
    let s := { live with repair := { live.repair with slots := slots } }
    ([0, 65519, 65522, 65535].map fun row =>
      (trigger 0 0 { bank := 6, row := row, count := 1024 } none s).patrol.tsq.map TsqEntry.row) =
      [[1], [65518, 65520], [65521], []] := by decide +kernel

/-- Section 7.10 at 70.5 s: a 12-bit correction raises score 3 to 19, and the row becomes SUSPECT with a recheck. -/
theorem test_fault_example :
    let e : FaultEntry := { state := .observed, rank := 0, bank := 6, row := 1220, score := 3, devices := 32, events := 3 }
    let s := { live with fault := { live.fault with entries := live.fault.entries.set 11 e } }
    let t := takeEvent { rank := 0, bank := 6, row := 1220, col := 64, line := 4997952, located := some (5, 12)
                         source := .demand, region := none, poisoned := false } s
    (faultAt t 11).score = 19 ∧ (faultAt t 11).state = .suspect ∧ (faultAt t 11).events = 4 ∧
    (deviceAt t 0 5).score = 16 ∧ t.patrol.tsq.map TsqEntry.place = [(0, 6, 1220)] := by decide +kernel

/-- Section 7.11, step 1: device 11 of rank 1 reaches 776 and is erased, and the entries it alone marked become FREE. -/
theorem test_erasure_example :
    let e := fun (bank row score : Nat) (devices : BitVec 20) (state : FaultState) =>
      ({ state := state, rank := 1, bank := bank, row := row, score := score, devices := devices
         reason := if state = .blocked then some .queueFull else none } : FaultEntry)
    let entries := (((live.fault.entries.set 2 (e 0 100 12 2048 .suspect)).set 5 (e 3 9000 6 2056 .observed)).set 9
      (e 12 40000 2 2048 .observed)).set 14 (e 6 1220 70 2064 .blocked)
    let s := { live with
      repair := { live.repair with erasures := [[], [7], [], []] }
      fault := { live.fault with
        entries := entries
        devices := live.fault.devices.set 31 { score := 760, limitReported := false } } }
    let t := takeEvent { rank := 1, bank := 9, row := 512, col := 0, line := 0, located := some (11, 6)
                         source := .patrol, region := none, poisoned := false } s
    erasureSet t 1 = [7, 11] ∧ (deviceAt t 1 11).score = 776 ∧
    ([2, 5, 9, 14].map fun i => ((faultAt t i).state, (faultAt t i).devices)) =
      [(.free, 0), (.observed, 8), (.free, 0), (.blocked, 16)] ∧
    t.counters.entriesFreedByErasure = 3 := by decide +kernel

/-- The ring of section 10.7 between steps 9 and 10: P 64, W 64, overrun on, 2 lost. -/
def restartExample (consumed : Word32) : State :=
  let s := ringed live
  { s with report := { s.report with produced := 64, written := 64, consumed := consumed, overrun := true, lost := 2 } }

/-- Section 10.7, steps 6 and 10: the restart of a full ring is refused; with room it is taken, with sequence 64 and
count 2. -/
theorem test_restart_example :
    (match exec .reportRestart (asked 31 [] (restartExample 0)) with
      | .next t => (t.link.returns, t.report.overrun)
      | _ => ([], false)) = ([.maintResp 1 .busy []], true) ∧
    (match exec .reportRestart (asked 31 [] (restartExample 40)) with
      | .next t => (t.link.returns, t.report.overrun, t.report.produced)
      | _ => ([], true, 0)) = ([.maintResp 1 .ok [64, 2]], false, 65) := by decide +kernel

/-- Section 2.8, step 4: a second READ of the line is forwarded from the REWRITE entry. -/
theorem test_forwarding_example :
    (match exec (.read 2 0 0 5000000 (crc16 (readBody 2 0 0 5000000)))
        { withAccesses [waits 5000000 .writeBack] live with wbq := [entry 5000000 .rewrite false] } with
      | .next t => (t.link.returns, t.port.accesses)
      | _ => ([], [])) = ([.data 2 .corrected 9], [waits 5000000 .writeBack]) := by decide +kernel

/-- Section 2.8, step 7: behind a waiting write the READ is taken into line order. -/
theorem test_not_forwarded_example :
    (match exec (.read 4 0 0 5000000 (crc16 (readBody 4 0 0 5000000)))
        { withAccesses [waits 5000000 (.demandWrite 3 1)] live with wbq := [entry 5000000 .rewrite true] } with
      | .next t => (t.link.returns, t.port.accesses)
      | _ => ([], [])) = ([], [waits 5000000 (.demandWrite 3 1), waits 5000000 (.demandRead 4)]) := by decide +kernel

/-! ## States and operands that meet the hypotheses of the statements -/

/-- Any request that stands at the head meets AtHead. -/
theorem test_request_is_at_head (code : Nat) (args : List Word32) (s : State) (h : s.maint.clearing = false) :
    AtHead (asked code args s) { tag := 1, code := code, args := args } code := ⟨h, rfl, rfl⟩

theorem test_premises_StepRunsTheFrontCommand :
    ({ live with pending := [.returnFrameSent] } : State).pending = .returnFrameSent :: [] := rfl

theorem test_premises_EmptyQueueTicks : State.reset.pending = [] := rfl

/-- R196: a kept time 2^46 µs before now stays; one tick later in whole µs it has moved forward with now. -/
theorem test_old_times_move_forward :
    let at_ := fun (us : Elapsed) => { live with
      maint := { live.maint with now := { us := us, sub := 79 } }, hammer := { live.hammer with windowEnd := 5 } }
    (tick (at_ 70368744177668)).hammer.windowEnd = 5 ∧ (tick (at_ 70368744177669)).hammer.windowEnd = 6 ∧
    elapsedTimes (at_ 0) ≠ [] ∧ fineTimes (swept .single) ≠ [] := by decide +kernel

/-- A state with work in it that meets every invariant, and a step from it: two entries, each with its write, a row
being copied, an ACK under way and an ALERT behind it. -/
def busy : State :=
  { ringed (withAccesses [waits 5 .writeBack, { under .writeBack with line := 6 }] (swept .single)) with
    wbq := [entry 5 .rewrite false, entry 6 .poison true], pending := [.returnFrameSent]
    link := { live.link with returns := [.ack 1 .ok, .alert 1 0], begun := true, tags := 2 }
    repair := { live.repair with
      jobs := [{ rank := 0, bank := 0, logical := 0, target := 2, sourceRow := 0, origin := .requested }]
      slots := [(2, .copying (.row 0) 5)] } }

theorem test_busy_lists_its_writebacks : WritebacksListed busy := by
  intro line
  by_cases h5 : line = 5
  · subst h5; decide +kernel
  · by_cases h6 : line = 6
    · subst h6; decide +kernel
    · have e : ∀ n : Nat, line ≠ n → (n == line) = false := fun n h => by simpa using fun e => h e.symm
      simp [busy, ringed, withAccesses, waits, under, entry, e 5 h5, e 6 h6]

theorem test_busy_matches_its_tags : TagsMatch busy := by
  intro tag
  by_cases h : tag < 64
  · have all : ∀ n < 64, outstanding busy n = (busy.link.tags.getLsbD n).toNat := by decide +kernel
    exact all tag h
  · rw [BitVec.getLsbD_of_ge _ _ (by omega)]
    have h1 : tag ≠ 1 := by omega
    simp [outstanding, busy, ringed, withAccesses, waits, under, swept, live, bare, State.reset, AccessKind.tag?,
      ReturnFrame.tag?, h1.symm]

/-- The slots of `busy`: one is listed. -/
theorem test_busy_slot (rank bank k : Nat) :
    slotAt busy rank bank k = if slotKey rank bank k = 2 then .copying (.row 0) 5 else .free := by
  have e : AMap.get? busy.repair.slots (slotKey rank bank k) =
      if 2 = slotKey rank bank k then some (.copying (.row 0) 5) else none := rfl
  rw [slotAt, e]
  by_cases h : slotKey rank bank k = 2
  · rw [if_pos h.symm, if_pos h]; rfl
  · rw [if_neg (Ne.symm h), if_neg h]; rfl

/-- Only slot 2 of rank 0, bank 0 has the key 2. -/
theorem test_busy_slot_key {rank bank k : Nat} (h : slotKey rank bank k = 2) : rank = 0 ∧ bank = 0 ∧ k = 2 := by
  simp only [slotKey, bankKey] at h
  omega

theorem test_busy_remaps_legally : RemapLegal busy := by
  refine ⟨by decide, ?_, ?_, ?_, by decide +kernel, by decide +kernel⟩
  · intro rank bank _ k _ m _ l hk hm
    rw [test_busy_slot] at hk hm
    split at hk <;> split at hm <;> simp_all [Slot.names?, slotKey]
    omega
  · intro rank bank _ k _ h
    rw [test_busy_slot] at h
    split at h
    · next hk =>
      obtain ⟨rfl, rfl, rfl⟩ := test_busy_slot_key hk
      exact ⟨_, List.mem_singleton.2 rfl, rfl, rfl, rfl⟩
    · simp [Slot.target?] at h
  · intro j hj
    obtain rfl := List.mem_singleton.1 hj
    exact ⟨by decide, by decide, .row 0, rfl, Or.inl rfl⟩

theorem test_premises_StepsKeepQueuesAndSetsBounded :
    (∃ t, step busy = .next t) ∧ WritebacksListed busy ∧ TagsMatch busy ∧ WritebacksBounded busy ∧ JobsBounded busy ∧
    QueuesBounded busy ∧ ErasuresBounded busy ∧ AlertsBounded busy := by
  refine ⟨⟨_, rfl⟩, test_busy_lists_its_writebacks, test_busy_matches_its_tags, ?_⟩
  simp only [WritebacksBounded, JobsBounded, TsqBounded, QueuesBounded, ErasuresBounded, SetsBounded, AlertsBounded,
    OneAlertWaits]
  decide +kernel

theorem test_premises_StepsKeepParamsAndRegionsLegal :
    (∃ t, step busy = .next t) ∧ ParamsLegal busy ∧ RegionsFit busy ∧ GeometryAllowed busy := by
  refine ⟨⟨_, rfl⟩, ?_, ?_⟩
  · have h : (List.range 17).all (fun id => (paramRange id).all fun r =>
        decide (r.1 ≤ busy.params.get id ∧ busy.params.get id ≤ r.2)) = true := by decide +kernel
    intro id hid r hr
    have := List.all_eq_true.1 h id hid
    rw [hr] at this
    simpa using this
  · simp only [RegionsFit, GeometryAllowed]
    decide +kernel

theorem test_premises_StepsKeepRecordsInOrder : (∃ t, step busy = .next t) ∧ RecordsInOrder busy := by
  refine ⟨⟨_, rfl⟩, ⟨?_, rfl, rfl, by simp [busy, ringed, withAccesses, swept, live, bare, State.reset]⟩, ?_⟩
  · decide +kernel
  · simp only [Report.Fits]
    decide +kernel

theorem test_premises_StepsKeepFaultTableLegal :
    (∃ t, step busy = .next t) ∧ ScoresBounded busy ∧ FaultTableLegal busy := by
  refine ⟨⟨_, rfl⟩, ?_⟩
  simp only [ScoresBounded, FaultTable.Bounded, FaultTableLegal, FaultTable.Legal]
  refine ⟨by decide +kernel, ?_, by decide +kernel⟩
  exact List.pairwise_replicate.2 (Or.inr (Or.inl rfl))

theorem test_premises_StepsKeepEngineLegal :
    (∃ t, step busy = .next t) ∧ EngineLegal busy ∧ SlotsAgree busy := by
  refine ⟨⟨_, rfl⟩, ?_⟩
  simp only [EngineLegal, SlotsAgree]
  decide +kernel

theorem test_premises_StepsKeepHammerLegal : (∃ t, step busy = .next t) ∧ HammerLegal busy := by
  refine ⟨⟨_, rfl⟩, by decide +kernel, rfl, ?_⟩
  intro table ht
  have : table = List.replicate 16 none := List.eq_of_mem_replicate (n := 4) ht
  subst this
  exact ⟨rfl, by decide +kernel, List.pairwise_replicate.2 (Or.inr (by intro g hg; simp at hg))⟩

theorem test_premises_StepsKeepMapsCanonical :
    (∃ t, step busy = .next t) ∧ RemapLegal busy ∧ DramCanonical busy ∧ MapsRising busy := by
  refine ⟨⟨_, rfl⟩, test_busy_remaps_legally, ?_⟩
  simp only [DramCanonical, MapsRising]
  decide +kernel

theorem test_premises_LocatedDevicesAreNotErased :
    [7].length ≤ 2 ∧ [7].Nodup ∧ (∀ d ∈ [7], d < 20) ∧
    (decodeLine Config.resetCode [7] (encodeLine Config.resetCode someData .fresh ^^^ garbage 7 ^^^ flip 3 2 4)).located =
      some (3, 1) := by decide +kernel

/-- The devices in error of a damage, as the statement lists them. -/
def badDevices (erased : List Nat) (damage : Line) : List Nat :=
  (List.range 20).filter fun d => !erased.contains d && damage.extractLsb' (32 * d) 32 != 0

/-- The code at reset is such a code (the first hypothesis), and each clause has its damage: none in error beside two
erased devices, one in error with none or one erased (the last device and the first), one beside two erased, two beside
none. -/
theorem test_premises_DecodeKeepsItsGuarantee :
    (∀ w : Codeword, w ≠ 0 → symbolWeight w ≤ 3 →
      syndrome Config.resetCode w ≠ 0 ∧ syndrome Config.resetCode w ≠ BitVec.allOnes 32) ∧
    ([0, 19].length ≤ 2 ∧ [0, 19].Nodup ∧ ∀ d ∈ [0, 19], d < 20) ∧
    badDevices [0, 19] (garbage 0 ^^^ garbage 19) = [] ∧ badDevices [] (flip 19 3 7) = [19] ∧
    badDevices [19] (flip 0 0 0 ^^^ garbage 19) = [0] ∧ (badDevices [0, 19] (flip 1 0 0)).length = 1 ∧
    (badDevices [] (flip 0 0 0 ^^^ flip 19 3 7)).length = 2 :=
  ⟨Laws.LineCode.resetCode_distance, by decide +kernel⟩

theorem test_premises_AddressMappingIsOneToOne :
    exampleGeometry.allowed = true ∧ 0 < exampleGeometry.capacity ∧ 268369919 < exampleGeometry.capacity ∧
    1 < exampleGeometry.ranks ∧ 65519 < 2 ^ exampleGeometry.rowBits - exampleGeometry.spares ∧
    127 < 2 ^ exampleGeometry.colExp := by decide +kernel

/-- A frame with a bad check, a tag above 63, a tag in use; and good ones, the last tag among them. -/
theorem test_premises_BadFramesAreDiscarded :
    (0 : BitVec 16) ≠ crc16 (idleBody 0 0 0) ∧
    ¬ FrameGood (readBody 1 0 0 5) 0 1 live ∧
    ¬ FrameGood (readBody 64 0 0 5) (crc16 (readBody 64 0 0 5)) 64 live ∧
    ¬ FrameGood (writeBody 1 0 0 5 7) (crc16 (writeBody 1 0 0 5 7)) 1
      { live with link := { live.link with tags := 2 } } ∧
    ¬ FrameGood (writeMaskedBody 64 0 0 5 7 1) (crc16 (writeMaskedBody 64 0 0 5 7 1)) 64 live ∧
    ¬ FrameGood (maintBody 1 0 1 0 []) 0 1 live ∧
    8 < (List.replicate 9 (0 : Word32)).length ∧ isMalformed [5, 0, 0, 0, 0, 0] = true ∧
    isMalformed (sealFrame (idleBody 0 0 0)) = false := by
  refine ⟨by decide +kernel, ?_, fun h => absurd h.2.1 (by decide), fun h => absurd h.2.2 (by decide),
    fun h => absurd h.2.1 (by decide), ?_, by decide +kernel⟩
  all_goals simp only [FrameGood]; decide +kernel

/-- A state whose region 0, lines 0 to 63, is locked. -/
def lockedState : State :=
  { live with regions := live.regions.set 0 { (region 0 64) with entry := { (region 0 64).entry with locked := true } } }

theorem test_premises_UnservedFramesAreAnswered :
    FrameGood (readBody 63 0 0 5) (crc16 (readBody 63 0 0 5)) 63 bare ∧
    FrameGood (writeBody 1 0 0 63 7) (crc16 (writeBody 1 0 0 63 7)) 1 lockedState ∧
    FrameGood (writeMaskedBody 1 0 0 63 7 1) (crc16 (writeMaskedBody 1 0 0 63 7 1)) 1 lockedState ∧
    bare.link.channel = .config ∧ live.link.channel = .online ∧ live.capacity ≤ (268369920 : BitVec 64).toNat ∧
    lockedState.link.channel = .online ∧ (63 : BitVec 64).toNat < lockedState.capacity ∧
    regionOf lockedState 63 = some 0 ∧ (regionAt lockedState 0).entry.locked = true ∧
    (0 : Byte).getLsbD 0 = false ∧ RingOpen (ringed lockedState) ∧ ¬ RingOpen lockedState := by
  refine ⟨⟨rfl, by decide, by decide⟩, ⟨rfl, by decide, by decide⟩, ⟨rfl, by decide, by decide⟩, ?_⟩
  simp only [RingOpen]
  decide +kernel

/-- A state with an entry of line 5, and one with a write waiting before it. -/
def forwards : State := { withAccesses [waits 5 .writeBack] live with wbq := [entry 5 .rewrite false] }

theorem test_premises_ReadsAreForwardedOrTaken :
    FrameGood (readBody 1 0 0 5) (crc16 (readBody 1 0 0 5)) 1 forwards ∧ forwards.link.channel = .online ∧
    (5 : BitVec 64).toNat < forwards.capacity ∧ wbFind forwards 5 = some (entry 5 .rewrite false) ∧ LineClear forwards 5 ∧
    (∀ e ∈ live.wbq, e.line ≠ 5) ∧
    ¬ LineClear (withAccesses [under .writeBack, waits 5 (.demandWrite 2 7)] forwards) 5 := by
  refine ⟨⟨rfl, by decide, by decide⟩, ?_⟩
  simp only [LineClear]
  decide +kernel

theorem test_premises_WritesAreTaken :
    FrameGood (writeBody 1 0 0 5 7) (crc16 (writeBody 1 0 0 5 7)) 1 forwards ∧ LockPassed forwards 5 false ∧
    LockPassed lockedState 5 true ∧
    FrameGood (writeMaskedBody 1 0 0 5 7 1) (crc16 (writeMaskedBody 1 0 0 5 7 1)) 1 forwards ∧
    FrameGood (writeMaskedBody 1 0 0 5 7 0) (crc16 (writeMaskedBody 1 0 0 5 7 0)) 1 forwards ∧
    FrameGood (writeMaskedBody 1 0 0 5 7 (BitVec.allOnes 64)) (crc16 (writeMaskedBody 1 0 0 5 7 (BitVec.allOnes 64))) 1
      forwards ∧
    (1 : BitVec 64) ≠ 0 ∧ (1 : BitVec 64) ≠ BitVec.allOnes 64 ∧
    (forwards.link.channel = .online ∧ (5 : BitVec 64).toNat < forwards.capacity) ∧
    (wbFind forwards 5 = some (entry 5 .rewrite false) ∧ LineClear forwards 5) ∧ ∀ e ∈ live.wbq, e.line ≠ 5 := by
  have h : regionOf forwards 5 = none := by decide +kernel
  refine ⟨⟨rfl, by decide, by decide⟩, fun i hi => by rw [h] at hi; simp at hi, fun i _ => Or.inr rfl,
    ⟨rfl, by decide, by decide⟩, ⟨rfl, by decide, by decide⟩, ⟨rfl, by decide, by decide⟩, ?_⟩
  simp only [LineClear]
  decide +kernel

theorem test_premises_MaintFramesAreQueued :
    FrameGood (maintBody 1 0 1 0 []) (crc16 (maintBody 1 0 1 0 [])) 1 bare ∧ ([] : List Word32).length ≤ 8 ∧
    bare.maint.queue.length < 4 ∧
    4 ≤ ({ bare with maint := { bare.maint with queue := List.replicate 4 { tag := 2, code := 1, args := [] } } } :
      State).maint.queue.length := by
  refine ⟨⟨rfl, by decide, by decide⟩, ?_⟩
  decide +kernel

theorem test_premises_SentReturnsFreeTheirTags :
    live.link.returns = [] ∧ live.link.begun = false ∧ (ReturnFrame.ack 1 .ok) ∈ busy.link.returns.head? ∧
    busy.link.begun = true ∧ 63 < 64 := by
  decide +kernel

/-- R190: an ALERT handed while the link carries an IDLE frame waits, so a second takes its place; once the IDLE frame has
left it has begun, and the second enters the tail. -/
theorem test_alerts_merge_until_begun :
    let first := handAlert (.alert 1 0) live
    let sent := match exec .returnFrameSent first with
      | .next t => t
      | _ => first
    ((handAlert (.alert 3 0) first).link.returns, (handAlert (.alert 3 0) first).counters.alertsMerged) =
      ([.alert 3 0], 1) ∧
    sent.link.begun = true ∧
    ((handAlert (.alert 3 0) sent).link.returns, (handAlert (.alert 3 0) sent).counters.alertsMerged) =
      ([.alert 1 0, .alert 3 0], 0) := by decide +kernel

/-- Two demand reads, the younger a row hit, with a pass count of class 3. -/
def hitBehind (passes : Nat) : State :=
  let s := withAccesses [waits 5 (.demandRead 1), waits 600 (.demandRead 2)] live
  { s with port := { s.port with
      openRows := [(4, { row := 0, holdEnd := none })], passCounts := s.port.passCounts.set 3 passes } }

/-- A state whose rank 1 owes refreshes. -/
def owes (n : Nat) (s : State) : State :=
  let r : Refresh := { timer := none, owed := List.replicate n { us := 0, sub := 0 } }
  { s with port := { s.port with refresh := s.port.refresh.set 1 r } }

/-- A state in the write-drain condition with a read and a write. -/
def draining : State :=
  let s := withAccesses [waits 5 (.demandRead 1), waits 600 (.demandWrite 2 7)] live
  { s with port := { s.port with drain := true } }

theorem test_premises_TheArbiterPicksItsWinner :
    winner (BitVec.allOnes 64) 0 (hitBehind 3) = some (.access (waits 600 (.demandRead 2)) 3 4) ∧
    winner (BitVec.allOnes 64) 0 (hitBehind 4) = some (.access (waits 5 (.demandRead 1)) 3 0) ∧
    winner (BitVec.allOnes 64) 0 draining = some (.access (waits 600 (.demandWrite 2 7)) 4 0) ∧
    winner 0 2 (owes 6 live) = some (.refresh 1) ∧ winner 0 2 (owes 1 live) = some (.refresh 1) ∧
    winner 0 15 live = none ∧ (waits 5 .writeBack).kind = .writeBack ∧
    (waits 5 (.copyWrite 9 none false)).kind = .copyWrite 9 none false ∧
    (∀ r ∈ (owes 6 live).port.refresh, ∀ t ∈ r.owed, 0 ≤ fineDiff (owes 6 live).maint.now t ∧
      fineDiff (owes 6 live).maint.now t ≤ 2 ^ 46 * 80) := by decide +kernel

theorem test_owed_refresh_is_refreshable : Refreshable 2 (owes 6 live) 1 1 { us := 0, sub := 0 } :=
  ⟨_, rfl, rfl, rfl, rfl⟩

theorem test_premises_GrantsTakeThePort :
    winner (BitVec.allOnes 64) 0 draining = some (.access (waits 600 (.demandWrite 2 7)) 4 0) ∧
    winner 0 2 (owes 1 live) = some (.refresh 1) ∧ winner 0 15 live = none := by decide +kernel

theorem test_premises_OpenRowsAreActivatedOnce :
    AMap.get? (hitBehind 0).port.openRows (16 * 0 + 4) = some { row := 0, holdEnd := none } ∧
    AMap.get? live.port.openRows (16 * 0 + 4) = none ∧
    Requester.writeBack ∈ [Requester.demandRead, .demandWrite, .maskedWrite, .writeBack, .recordWrite] ∧
    Requester.patrolRead ∈ [Requester.patrolRead, .targetedRead, .copyRead, .copyWrite] := by decide +kernel

/-- A state with a granted access of line 5, whose row 0 is open, and a state with `page_hold` 10. -/
def performing (kind : AccessKind) : State :=
  let s := withAccesses [under kind] live
  { s with port := { s.port with openRows := [(0, { row := 0, holdEnd := none })] } }

theorem test_premises_PerformedAccessesLeaveLineOrder :
    performable (performing (.demandRead 1)) 5 = some (under (.demandRead 1)) ∧
    AMap.get? (performing (.demandRead 1)).port.openRows 0 = some { row := 0, holdEnd := none } ∧
    (performing (.demandRead 1)).params.pageHold = 0 ∧
    rowBusy (finishAccess (under (.demandRead 1)) (performing (.demandRead 1))) 0 0 0 = false ∧
    rowBusy (finishAccess (under (.demandRead 1)) (withAccesses [under (.demandRead 1), { under .copyRead with line := 6 }]
      (performing (.demandRead 1)))) 0 0 0 = true ∧
    AMap.get? (withAccesses [under (.demandRead 1)] live).port.openRows 0 = none := by decide +kernel

/-- R35: of two accesses of one row with a refresh between their grants, the later is not performed before the earlier. -/
theorem test_refresh_stands_between_grants :
    let earlier : Access := { under (.demandRead 1) with grantNo := 0, refreshes := 1 }
    let later : Access := { under (.demandRead 2) with line := 6, grantNo := 1 }
    performable (withAccesses [earlier, later] live) 6 = none ∧
    performable (withAccesses [{ earlier with refreshes := 0 }, later] live) 6 = some later ∧
    performable (withAccesses [earlier, later] live) 5 = some earlier ∧
    (grantRefresh 0 (withAccesses [{ earlier with refreshes := 0 }, later] live)).port.accesses.map Access.refreshes =
      [1, 1] := by decide +kernel

theorem test_premises_WritesArePerformed :
    DramCanonical (performing (.demandWrite 1 7)) ∧
    performable (performing (.demandWrite 1 7)) 5 = some (under (.demandWrite 1 7)) ∧
    performable (performing (.maskedWrite 1 7 3 (some (9, .poison)))) 5 =
      some (under (.maskedWrite 1 7 3 (some (9, .poison)))) ∧
    (performing (.demandWrite 1 7)).maint.clearing = false ∧
    (performable (performing (.recordWrite 0 7)) 5 = some (under (.recordWrite 0 7)) ∧
      DramCanonical (performing (.recordWrite 0 7))) ∧
    (performable (performing (.copyWrite 9 (some (7, .fresh)) false)) 5 =
        some (under (.copyWrite 9 (some (7, .fresh)) false)) ∧
      DramCanonical (performing (.copyWrite 9 (some (7, .fresh)) false))) ∧
    performable { performing .writeBack with wbq := [entry 5 .poison true] } 5 = some (under .writeBack) ∧
    wbFind { performing .writeBack with wbq := [entry 5 .poison true] } 5 = some (entry 5 .poison true) := by
  simp only [DramCanonical]
  decide +kernel

/-- A state with the record of sequence 0 in its write queue and its write under way. -/
def recording : State :=
  let s := ringed (performing (.recordWrite 0 7))
  { s with report := { s.report with produced := 1, queue := [{ sequence := 0, performed := false }] } }

theorem test_premises_RecordWritesAreAnnounced :
    performable recording 5 = some (under (.recordWrite 0 7)) ∧ DramCanonical recording ∧
    recording.report.unannounced + 1 < recording.params.readyCount ∧ recording.params.readyAge ≠ 0 ∧
    ({ recording.report with unannounced := 7 } : Report).unannounced + 1 = recording.params.readyCount ∧
    live.report.setUp = false ∧ RingOpen recording ∧
    (restartExample 0).report.setUp = true ∧ ¬ RingOpen (restartExample 0) := by
  simp only [DramCanonical, RingOpen]
  decide +kernel

/-- A row copy of logical row 0 into slot 2, at a cursor, its write to line 5 under way. -/
def copying (cursor : Nat) (target : SlotTarget) : State :=
  let s := performing (.copyWrite 65522 (some (7, .fresh)) false)
  { s with repair := { s.repair with
      jobs := [{ rank := 0, bank := 0, logical := 0, target := 2, sourceRow := 0, origin := .requested }]
      slots := [(2, .copying target cursor)] } }

theorem test_premises_CopiesFillTheSpare :
    performable (copying 5 (.row 0)) 5 = some (under (.copyWrite 65522 (some (7, .fresh)) false)) ∧
    slotAt (copying 127 (.move 1)) 0 0 2 = .copying (.move 1) 127 ∧ SlotTarget.move 1 ≠ .move 2 ∧
    5 + 1 < (copying 5 (.row 0)).port.geom.columns ∧ (copying 127 (.row 0)).port.geom.columns ≤ 127 + 1 ∧
    DramCanonical (copying 5 (.row 0)) ∧ faultFind (copying 5 (.row 0)) 0 0 0 = none ∧
    (let s := withAccesses [] (copying 5 (.row 0));
      s.repair.jobs.length = 1 ∧ slotAt s 0 0 2 = .copying (.row 0) 5 ∧ s.window = none ∧
      s.port.accesses = [] ∧ (∀ e ∈ s.wbq, e.line ≠ s.port.geom.lineOf 0 0 0 5) ∧
      (let v := { s with wbq := [entry (s.port.geom.lineOf 0 0 0 5) .rewrite false] };
        wbFind v (s.port.geom.lineOf 0 0 0 5) = some (entry (s.port.geom.lineOf 0 0 0 5) .rewrite false) ∧
        LineClear v (s.port.geom.lineOf 0 0 0 5) ∧ v.window = none)) ∧
    (∃ b ∈ (copying 5 (.row 0)).port.accesses, b.kind.isCopy = true) ∧ (overrideExample 9).window.isSome ∧
    (let s := { live with repair := { (copying 0 (.row 0)).repair with slots := [(2, .reserved (.row 0))] } };
      slotAt s 0 0 2 = .reserved (.row 0)) ∧ live.repair.jobs = [] := by
  simp only [DramCanonical, LineClear]
  decide +kernel

/-- A decode of each outcome that hands something on. -/
def decodedAs (outcome : Outcome) (located : Option (Nat × Nat)) : Decoded := { outcome := outcome, data := 9, located := located }

theorem test_premises_DecodesHandOnTheirWork :
    (decodedAs .clean none).outcome = .clean ∧ (decodedAs .poisoned (some (3, 1))).located ≠ none ∧
    (decodedAs .uncorrectable none).outcome = .uncorrectable ∧
    live.maint.clearing = false ∧ LineClear live 5 ∧ ¬ LineClear (performing (.demandWrite 1 7)) 5 ∧
    wbFind forwards 5 = some (entry 5 .rewrite false) ∧ (∀ e ∈ live.wbq, e.line ≠ 5) ∧ live.wbq.length < 8 ∧
    (let s := { live with wbq := (List.range 8).map fun n => entry (n + 6) .rewrite false };
      (∀ e ∈ s.wbq, e.line ≠ 5) ∧ 8 ≤ s.wbq.length) := by
  simp only [LineClear]
  decide +kernel

theorem test_premises_DemandReadsAreAnswered :
    performable (performing (.demandRead 1)) 5 = some (under (.demandRead 1)) ∧
    eventOf .demand (under (.demandRead 1)) (decodedAs .clean none) (performing (.demandRead 1)) = none := by
  decide +kernel

theorem test_premises_ScrubReadsAreDone :
    performable (performing (.patrolRead true)) 5 = some (under (.patrolRead true)) ∧
    performable (performing (.patrolRead false)) 5 = some (under (.patrolRead false)) ∧
    performable (performing (.targetedRead 0)) 5 = some (under (.targetedRead 0)) ∧
    (eventOf .patrol (under (.patrolRead true)) (decodedAs .uncorrectable none) (swept .single)).isSome = true ∧
    eventOf .patrol (under (.patrolRead true)) (decodedAs .clean none) (swept .single) = none ∧
    (swept .single).patrol.active = some sweep ∧ sweep.region < (swept .single).regions.length ∧
    (under (.targetedRead 0)).kind.isScrub = true := by decide +kernel

theorem test_premises_MergesAndCopiesAreFixed :
    performable (performing (.maskedWrite 1 7 3 none)) 5 = some (under (.maskedWrite 1 7 3 none)) ∧
    performable (performing .copyRead) 5 = some (under .copyRead) := by decide +kernel

theorem test_premises_PortTimersExpire :
    (let s := { live with port := { live.port with openRows := [(0, { row := 0, holdEnd := some 9 })] } };
      AMap.get? s.port.openRows 0 = some { row := 0, holdEnd := some 9 }) ∧
    fineDiff live.maint.now live.maint.now ≤ 0 ∧ 0 < fineDiff { us := 9, sub := 0 } live.maint.now ∧
    (let s := { live with port := { live.port with refresh := [{ timer := some { us := 3, sub := 72 }, owed := [] }] } };
      s.port.refresh[0]? = some { timer := some { us := 3, sub := 72 }, owed := [] }) := by decide +kernel

/-- The three sizes of the pace: at 65536 * R / 16 the pace is the largest, at 8 * R / 16 the smallest; below, at risk. -/
theorem test_premises_SweepsStartAtTheirPace :
    sweep.remaining = 5 ∧ 0 < sweep.remaining ∧ (3 * 16 / 5 : Int) - 1 < 9 ∧
    ((7 : Int) ≤ 8 * 16 / 5 - 1 ∧ (8 * 16 / 5 : Int) - 1 ≤ 65535) ∧ (65535 : Int) < 20481 * 16 / 5 - 1 ∧
    ({ sweep with remaining := 0 } : Sweep).remaining = 0 ∧ live.patrol.active = none ∧
    (let paced := fun (w : Sweep) => pacedSweep .single 7
        (elapsedDiff w.deadline 0 - (600 * 100000 / 8 : Nat)) w;
      (swept .single).patrol.active = some sweep ∧ (swept .single).params.minPace = 7 ∧
      (paced sweep).atRisk = false ∧ (paced { sweep with deadline := 9 }).atRisk = true ∧
      sweep.atRiskReported = false) ∧
    0 < (regionAt (swept .single) 0).entry.period := by decide +kernel

/-- Regions 0 and 1 due together, 1 of the higher class; region 2 due later. -/
def dueState : State :=
  let one := region 64 64
  { live with
    regions := ((live.regions.set 0 (region 0 64)).set 1
      { one with entry := { one.entry with cls := .critical } }).set 2
      { entry := (region 128 64).entry, status := { due := 100 } }
    patrol := { live.patrol with engine := .idle } }

/-- How long a region of that state has been due. -/
def dueAge (i : Nat) : Int := elapsedDiff dueState.maint.now.us (regionAt dueState i).status.due

theorem test_premises_SelectionTakesTheEarliestDue :
    (∀ g ∈ live.regions, ¬ (g.entry.valid = true ∧ g.entry.patrol = true ∧ g.status.state = .idle)) ∧
    (∀ j < 32, j ≠ 1 → (regionAt dueState j).entry.valid = true → 0 ≤ dueAge j → dueAge j < dueAge 1 ∨
      dueAge j = dueAge 1 ∧ (regionAt dueState 1).entry.cls.code < (regionAt dueState j).entry.cls.code) ∧
    (regionAt dueState 1).entry.valid = true ∧ (regionAt dueState 1).status.state = .idle ∧
    dueState.patrol.staged = none ∧ dueState.patrol.engine = .idle ∧
    (∀ h ∈ dueState.regions, 0 ≤ elapsedDiff h.status.due (regionAt dueState 1).status.due ∧
      elapsedDiff dueState.maint.now.us h.status.due ≤ 2 ^ 46 ∧
      -(2 ^ 46) < elapsedDiff dueState.maint.now.us h.status.due) ∧
    (swept .single).patrol.active.isSome = true ∧
    (selectStaged dueState).patrol.staged = some { region := 1, hostPlaced := false } ∧
    dueState.patrol.active = none ∧ dueState.patrol.engine.selects = true :=
  ⟨by decide +kernel, by decide +kernel, by decide +kernel⟩

/-- R97 and R109: a due time that arrives during a clear starts no sweep; without a clear it starts region 1's and
stages region 0. -/
theorem test_due_time_during_a_clear :
    let due := fun (clearing : Bool) => match exec .regionDue { dueState with maint.clearing := clearing } with
      | .next t => (t.patrol.active.map Sweep.region, t.patrol.staged.map Staged.region)
      | _ => (none, none)
    due true = (none, none) ∧ due false = (some 1, some 0) := by decide +kernel

theorem test_premises_SweepsIssueAndComplete :
    (swept .burst).patrol.active = some sweep ∧ (swept .burst).patrol.engine = .running ∧
    (regionAt (swept .burst) sweep.region).entry.mode = .burst ∧
    (regionAt (swept .single) sweep.region).entry.mode = .single ∧
    sweep.inFlight = 0 ∧ sweep.burstLeft = 0 ∧ 0 < sweep.remaining ∧ sweep.deferred = false ∧ sweep.jobSince = false ∧
    nextJob (swept .single) = none ∧
    (nextJob { swept .single with patrol := { (swept .single).patrol with tsq := [job 9 0 true] } }).isSome = true ∧
    sweep.region < (swept .single).regions.length := by decide +kernel

/-- A state with a sweep of a region in the access mode given, and the jobs given. -/
def sweepingWith (mode : AccessMode) (w : Sweep) (jobs : List TsqEntry) : State :=
  let s := swept mode
  { s with patrol := { s.patrol with active := some w, tsq := jobs } }

/-- The immediate actions of SweepsIssueAndComplete: a finished held sweep, a job whose line is done and one whose read
stands, a burst and a SUSTAINED sweep going on, an idle engine with a job. -/
theorem test_premises_immediate_actions :
    (let s := { live with patrol := { live.patrol with engine := .halted, held := some { sweep with remaining := 0 } } };
      s.patrol.active = none ∧ s.patrol.held = some { sweep with remaining := 0 } ∧ sweep.inFlight = 0) ∧
    (let e := { job 9 4 true with inService := true, reading := true };
      let s := sweepingWith .burst { sweep with burstLeft := 1 } [e];
      s.patrol.tsq.find? TsqEntry.reading = some e ∧ s.port.accesses = [] ∧ s.patrol.held = none ∧
      (∀ w ∈ s.patrol.active, ¬ (w.remaining = 0 ∧ w.inFlight = 0)) ∧
      (let v := withAccesses [{ waits 0 (.targetedRead 9) with line := s.port.geom.lineOf 0 0 9 3 }] s;
        ∃ b ∈ v.port.accesses, b.kind = .targetedRead e.row ∧ v.port.geom.rankOf b.line = e.rank ∧
          v.port.geom.bankOf b.line = e.bank)) ∧
    (let s := withAccesses [under (.patrolRead true)] (sweepingWith .burst { sweep with burstLeft := 1, inFlight := 1 } []);
      s.patrol.tsq.find? TsqEntry.reading = none ∧ s.patrol.engine = .running ∧
      ∀ b ∈ s.port.accesses, b.kind = .patrolRead true → b.phase ≠ .waiting) ∧
    (let s := sweepingWith .sustained { sweep with inFlight := 3 } [];
      s.patrol.engine = .running ∧ (regionAt s sweep.region).entry.mode = .sustained ∧ sweep.deferred = false) ∧
    (let s := { live with patrol := { live.patrol with tsq := [job 9 0 true] } };
      s.patrol.active = none ∧ (nextJob s).isSome = true) := by decide +kernel

/-- The deadline of a finished sweep may lie before now, or not. -/
theorem test_late_and_punctual_sweeps :
    elapsedDiff ({ sweep with deadline := 5 } : Sweep).deadline 6 < 0 ∧ ¬ elapsedDiff sweep.deadline 6 < 0 := by
  decide +kernel

/-- The request that a state made by `asked` has at its head. -/
def request (code : Nat) (args : List Word32) : MaintRequest := { tag := 1, code := code, args := args }

theorem test_premises_PatrolRequestsMoveTheEngine :
    (AtHead (asked 13 [] live) (request 13 []) 13 ∧ (asked 13 [] live).patrol.engine = .disabled) ∧
    (AtHead (asked 14 [] live) (request 14 []) 14 ∧ (asked 14 [] live).patrol.engine = .disabled) ∧
    (AtHead (asked 14 [] (swept .single)) (request 14 []) 14 ∧
      (asked 14 [] (swept .single)).patrol.engine ≠ .disabled) ∧
    (AtHead (asked 15 [31] dueState) (request 15 [31]) 15 ∧ (request 15 [31]).args = 31 :: []) ∧
    AtHead (asked 16 [] (swept .single)) (request 16 []) 16 ∧
    (AtHead (asked 17 [] dueState) (request 17 []) 17 ∧ (asked 17 [] dueState).patrol.engine ≠ .halted) ∧
    (let s := asked 17 [] { live with patrol := { live.patrol with engine := .halted, held := some sweep } };
      AtHead s (request 17 []) 17 ∧ s.patrol.engine = .halted) := by
  simp only [AtHead]
  decide +kernel

theorem test_premises_TargetedJobsReadTheirRow :
    (let s := { live with patrol := { live.patrol with tsq := [job 9 127 true, job 10 128 false] } };
      JobsBounded s ∧ job 9 127 true ∈ s.patrol.tsq ∧ s.maint.clearing = false ∧
      (∀ e ∈ s.patrol.tsq, e.place ≠ (0, 0, 8)) ∧ s.patrol.tsq.length < 16 ∧ heldRow s 0 0 9 = some 9) ∧
    (let s := { live with patrol := { live.patrol with tsq := (List.range 16).map fun n => job n 0 true } };
      JobsBounded s ∧ s.patrol.tsq.length = 16 ∧ ∀ e ∈ s.patrol.tsq, e.place ≠ (0, 0, 16)) ∧
    2 ^ live.port.geom.colExp ≤ (job 10 128 false).nextCol ∧ (job 9 127 true).nextCol < 2 ^ live.port.geom.colExp ∧
    (overrideExample 9).window.isSome = true ∧ (job 10 128 false).neighbour = false ∧
    heldRow live 0 0 65523 = none := by
  simp only [JobsBounded, TsqBounded]
  decide +kernel

/-- A job that completes, and one to be discarded, each while it holds the boundary of a RUNNING sweep; with another job
waiting, the discarded one gives the boundary to it. -/
theorem test_premises_boundaries_given_back :
    (let s := sweepingWith .single { sweep with deferred := true } [job 9 128 true];
      JobsBounded s ∧ job 9 128 true ∈ s.patrol.tsq ∧ 2 ^ s.port.geom.colExp ≤ (job 9 128 true).nextCol) ∧
    (let s := sweepingWith .burst { sweep with deferred := true } [job 65523 0 true, job 9 0 true];
      JobsBounded s ∧ job 65523 0 true ∈ s.patrol.tsq ∧ s.window = none ∧ s.patrol.engine = .running ∧
      heldRow s 0 0 65523 = none ∧
      (advanceJob (job 65523 0 true) s).patrol.tsq = [{ job 9 0 true with inService := true, reading := true }] ∧
      ((advanceJob (job 65523 0 true) s).patrol.active.map fun w => (w.deferred, w.cursor)) =
        some (true, sweep.cursor)) := by
  simp only [JobsBounded, TsqBounded]
  decide +kernel

theorem test_premises_WindowsEndAtTheirTimes :
    live.window = none ∧ (overrideExample 5000000).window = some { endTime := 5000000, override := none } ∧
    (reviewOverride (overrideExample 5000000)).window = some { endTime := 5000000, override := some 3000000 } ∧
    (overrideExample 9).patrol.active = some { sweep with remaining := 10000000, deadline := 11750000 } ∧
    (overrideExample 9).params.quietOverride = 1 ∧ live.patrol.active = none ∧
    (let margin := (regionAt (overrideExample 9) 0).entry.period * 100000 / 8;
      let needed := (10000000 * (7 + 1) + 15) / 16;
      (elapsedDiff 11750000 0 - margin - needed = 3000000)) := by decide +kernel

theorem test_premises_QuietRequestsOpenAndClose :
    (AtHead (asked 18 [100] live) (request 18 [100]) 18 ∧ (request 18 [100]).args = 100 :: []) ∧
    (AtHead (asked 19 [] live) (request 19 []) 19 ∧ (asked 19 [] live).window = none) ∧
    (AtHead (asked 19 [] (overrideExample 9)) (request 19 []) 19 ∧
      (asked 19 [] (overrideExample 9)).window = some { endTime := 9, override := none }) := by
  simp only [AtHead]
  decide +kernel

/-- A row entry of rank 0, bank 0. -/
def rowEntry (state : FaultState) (row score : Nat) : FaultEntry :=
  { state := state, row := row, score := score, reason := if state = .blocked then some .noSpare else none }

/-- A state with the row entries given. -/
def tracking (entries : List FaultEntry) (s : State) : State := { s with fault := { s.fault with entries := entries } }

/-- A full table: a BLOCKED entry, a SUSPECT one, and OBSERVED ones of which the last two are the lightest. -/
def fullTable : State :=
  tracking ((List.range 64).map fun n => if n = 0 then rowEntry .blocked 100 0 else if n = 1 then rowEntry .suspect 101 0
    else rowEntry .observed (n + 200) (if n < 62 then 9 else 3)) live

/-- A one-bit correction by device 5 of row 7. -/
def oneBit : FaultEvent :=
  { rank := 0, bank := 0, row := 7, col := 3, line := 5, located := some (5, 1), source := .demand, region := none
    poisoned := false }

/-- The entry that describes a row, as the statement tells it. -/
def describes (e : FaultEntry) (ev : FaultEvent) : Bool :=
  e.state != .free && e.rank == ev.rank && e.bank == ev.bank && e.row == ev.row

theorem test_premises_FaultEventsAreScored :
    (let s := tracking [rowEntry .suspect 6 1, rowEntry .suspect 7 1, {}] live;
      1 < s.fault.entries.length ∧ describes (faultAt s 1) oneBit = true ∧ describes (faultAt s 0) oneBit = false) ∧
    (let s := tracking [rowEntry .suspect 6 1, {}, {}] live;
      (∀ e ∈ s.fault.entries, describes e oneBit = false) ∧ (faultAt s 1).state = .free ∧ (faultAt s 0).state ≠ .free) ∧
    (∀ e ∈ fullTable.fault.entries, describes e oneBit = false ∧ e.state ≠ .free ∧
      0 ≤ elapsedDiff fullTable.maint.now.us e.lastSeen) ∧
    (faultAt fullTable 62).state = .observed ∧ (faultAt fullTable 62).score = 3 ∧
    (∀ j < 64, j ≠ 62 → (faultAt fullTable j).state = .observed → 3 < (faultAt fullTable j).score ∨
      3 = (faultAt fullTable j).score ∧ (faultAt fullTable 62).lastSeen = (faultAt fullTable j).lastSeen ∧ 62 < j) ∧
    (let s := tracking [rowEntry .blocked 6 1, rowEntry .retired 8 1] live;
      ∀ e ∈ s.fault.entries, e.state ≠ .free ∧ e.state ≠ .observed ∧ describes e oneBit = false) := by decide +kernel

/-- A state whose row 7 has a score, with the Repair Engine as given. -/
def retiring (state : FaultState) (score : Nat) (repair : Repair) : State :=
  { tracking [rowEntry state 7 score] live with repair := repair }

/-- A Repair Engine whose bank 0 of rank 0 has only DEAD slots. -/
def noSpares : Repair := { live.repair with slots := (List.range 16).map fun n => (n, .dead) }

/-- A repair job of a row of rank 0, bank 1. -/
def someJob (logical : Nat) : Job :=
  { rank := 0, bank := 1, logical := logical, target := logical, sourceRow := logical, origin := .requested }

/-- R143: an uncorrectable targeted read of a retired original row is scored, and its entry stays OBSERVED. -/
theorem test_retired_original_is_scored_only :
    let s := { live with repair := { live.repair with slots := [(0, .active 7)] } }
    let ev := { oneBit with rank := 0, bank := 0, row := 7, located := none }
    (faultAt (takeEvent { ev with source := .targeted } s) 0).state = .observed ∧
    (faultAt (takeEvent { ev with source := .targeted } s) 0).score = 64 ∧
    (faultAt (takeEvent { ev with source := .demand } s) 0).state = .retired ∧
    scoredOnly { ev with source := .repair } { live with repair.jobs := [{ someJob 7 with bank := 0 }] } = true ∧
    scoredOnly { ev with source := .targeted } live = false := by decide +kernel

theorem test_premises_ChecksFollowTheScore :
    0 < (retiring .observed 8 live.repair).fault.entries.length ∧ oneBit.located ≠ none ∧
    ({ oneBit with located := none } : FaultEvent).located = none ∧ RingOpen (ringed live) ∧
    (8 ≤ (faultAt (retiring .observed 8 live.repair) 0).score ∧ live.params.rowSuspect = 8 ∧
      (faultAt (retiring .observed 8 live.repair) 0).state = .observed ∧ live.patrol.tsq.length < 16) ∧
    (live.params.rowRetire = 48 ∧ (faultAt (retiring .suspect 48 live.repair) 0).score = 48 ∧
      live.params.autoRetire ≠ 0 ∧ ({ live.params with autoRetire := 0 } : Params).autoRetire = 0) ∧
    (retireRequest 0 0 7 (retiring .suspect 48 live.repair)).1 = .taken ∧
    (let s := retiring .suspect 48 live.repair; faultFind s 0 0 7 = some 0 ∧ serves s 0 0 7 = true) ∧
    (retireRequest 0 0 7 (retiring .suspect 48 noSpares)).1 = .noSpare ∧
    (retireRequest 0 0 7 (retiring .suspect 48 { live.repair with jobs := (List.range 4).map someJob })).1 = .queueFull ∧
    (retireRequest 0 1 3 (retiring .suspect 48 { live.repair with jobs := (List.range 4).map someJob })).1 =
      .inProgress ∧
    (retireRequest 0 0 7 (retiring .suspect 48 { live.repair with slots := [(0, .active 7)] })).1 = .notInService := by
  simp only [RingOpen]
  decide +kernel

theorem test_premises_EpochsAndWindowsPass : 3 * 20 + 19 < live.fault.devices.length := by decide +kernel

theorem test_premises_ActivationsAreCounted :
    HammerLegal hammerExample ∧
    hammerAt hammerExample 0 3 = some { bank := 6, row := 1220, count := 1023 } ∧
    (∀ i < 16, hammerAt live 0 i = none) ∧
    (∀ i < 16, ∀ e ∈ hammerAt hammerExample 0 i, (e.bank, e.row) ≠ (11, 77) ∧ (e.count < 4 → False)) ∧
    hammerAt hammerExample 0 7 = some { bank := 2, row := 500, count := 4 } := by
  refine ⟨⟨by decide +kernel, rfl, ?_⟩, by decide +kernel⟩
  intro table ht
  have : table ∈ [hammerTable hammerExample 0, List.replicate 16 none] := by
    have e : hammerExample.hammer.tables =
        [hammerTable hammerExample 0, List.replicate 16 none, List.replicate 16 none, List.replicate 16 none] := by
      decide +kernel
    rw [e] at ht
    simpa using ht
  have hall : ∀ table ∈ [hammerTable hammerExample 0, List.replicate 16 none], table.length = 16 ∧
      (∀ place ∈ table, ∀ e ∈ place, e.count < 1024) ∧
      table.Pairwise (fun e f => e.all fun g => f.all fun h => decide ((g.bank, g.row) ≠ (h.bank, h.row))) := by
    decide +kernel
  obtain ⟨h1, h2, h3⟩ := hall table this
  refine ⟨h1, h2, h3.imp ?_⟩
  intro e f hef g hg h hh
  cases hg
  cases hh
  simp at hef
  simp only [ne_eq, Prod.mk.injEq, not_and]
  tauto

theorem test_premises_TriggersScrubTheNeighbours :
    live.params.hammerRecords ≠ 1 ∧ ({ live.params with hammerRecords := 1 } : Params).hammerRecords = 1 ∧
    RingOpen (ringed live) ∧ ({ live.maint with clearing := true } : Maint).clearing = true ∧
    live.maint.clearing = false ∧ live.patrol.tsq.length ≤ 14 := by
  simp only [RingOpen]
  decide +kernel

/-- A state with causes pending, and the holdoff stopped or running. -/
def raised (pending : BitVec 16) (holdoffEnd : Option Elapsed) : State :=
  { live with report := { live.report with pending := pending, holdoffEnd := holdoffEnd } }

theorem test_premises_AlertsAreSentAndTimed :
    (let due := fun (s : State) => s.report.pending &&& ~~~s.report.mask &&& ~~~s.report.alerted;
      due live = 0 ∧ due (raised 1 none) ≠ 0 ∧ due (raised 2 (some 9)) &&& 0x0084 = 0 ∧
      due (raised 0x84 (some 9)) &&& 0x0084 ≠ 0) ∧
    (raised 1 none).report.holdoffEnd = none ∧ (raised 2 (some 9)).report.holdoffEnd = some 9 ∧
    ({ live.report with ageStart := some 3 } : Report).ageStart = some 3 := by decide +kernel

theorem test_premises_ChannelClearStopsAndCompletes :
    (AtHead (asked 8 [] (swept .single)) (request 8 []) 8 ∧ MapsRising (asked 8 [] (swept .single))) ∧
    FaultTableLegal (asked 8 [] (swept .single)) ∧
    ((asked 8 [] live).maint.queue = [request 8 []] ∧ live.report.queue = [] ∧ live.port.accesses = [] ∧
      (asked 8 [] (withAccesses [waits 5 .copyRead] live)).port.accesses ≠ []) ∧
    ({ live.maint with clearing := true } : Maint).clearing = true ∧ live.maint.clearing = false := by
  refine ⟨?_, ⟨List.pairwise_replicate.2 (Or.inr (Or.inl rfl)), ?_⟩, by decide +kernel⟩
  · simp only [AtHead, MapsRising]
    decide +kernel
  · decide +kernel

theorem test_premises_UntimelyEventsChangeNothing :
    performable live 5 = none ∧
    performable (performing .writeBack) 5 = some (under .writeBack) ∧ wbFind (performing .writeBack) 5 = none ∧
    performable (performing .copyRead) 5 = some (under .copyRead) ∧ (under .copyRead).kind.isScrub = false ∧
    (AMap.get? (performing .copyRead).port.openRows (16 * 0 + 0) = some { row := 0, holdEnd := none }) ∧
    ((swept .burst).patrol.active = some sweep ∧ (regionAt (swept .burst) sweep.region).entry.mode ≠ .single) ∧
    ((asked 36 [] live).maint.queue.head? = some (request 36 []) ∧ (request 36 []).code ≠ 1) ∧
    (1 ≤ (request 35 []).code ∧ (request 35 []).code ≤ 35) ∧ AMap.get? live.port.openRows (16 * 1 + 3) = none ∧ (refreshAt live 0).timer = none ∧
    live.patrol.active = none ∧ (overrideExample 9).patrol.engine ≠ .running ∧ live.report.holdoffEnd = none ∧
    live.report.ageStart = none ∧ live.maint.queue = [] ∧
    ({ live.maint with clearing := true } : Maint).clearing = true := by decide +kernel

theorem test_premises_IdentifyReturnsSixFixedWords : AtHead (asked 1 [] State.reset) (request 1 []) 1 := ⟨rfl, rfl, rfl⟩

theorem test_premises_ReadRequestsReturnTheirWords :
    AtHead (asked 2 [] live) (request 2 []) 2 ∧
    (AtHead (asked 5 [10, 3] live) (request 5 [10, 3]) 5 ∧ (10 : Word32).toNat ≤ 10 ∧
      (3 : Word32).toNat < (Ctr.ofBlock 10).length) ∧
    (AtHead (asked 12 [31, 2] live) (request 12 [31, 2]) 12 ∧ (31 : Word32).toNat ≤ 31 ∧ 8 * (2 : Word32).toNat < 23) ∧
    (AtHead (asked 20 [63, 1] live) (request 20 [63, 1]) 20 ∧ (63 : Word32).toNat ≤ 63 ∧ 8 * (1 : Word32).toNat < 15) ∧
    (AtHead (asked 22 [3, 2] bare) (request 22 [3, 2]) 22 ∧ (3 : Word32).toNat ≤ 3 ∧ 8 * (2 : Word32).toNat < 20) ∧
    ({ score := 4095 } : DeviceScore).score < 2 ^ 16 ∧
    (AtHead (asked 26 [1, 15, 8] live) (request 26 [1, 15, 8]) 26 ∧ (1 : Word32).toNat < live.port.geom.ranks ∧
      (15 : Word32).toNat ≤ 15 ∧ (8 : Word32).toNat < live.port.geom.spares ∧ live.port.geomSet = true) := by
  simp only [AtHead]
  decide +kernel

theorem test_premises_PlainRequestsChangeOneThing :
    AtHead (asked 3 [5, 6] live) (request 3 [5, 6]) 3 ∧ AtHead (asked 6 [] live) (request 6 []) 6 ∧
    (AtHead (asked 7 [] bare) (request 7 []) 7 ∧ (asked 7 [] bare).port.geomSet = true) ∧
    (AtHead (asked 11 [31] live) (request 11 [31]) 11 ∧ (31 : Word32).toNat ≤ 31) ∧
    (AtHead (asked 21 [63] live) (request 21 [63]) 21 ∧ (63 : Word32).toNat ≤ 63) := by
  simp only [AtHead]
  decide +kernel

theorem test_premises_CauseRequestsMoveTheFlags :
    AtHead (asked 32 [] live) (request 32 []) 32 ∧
    (AtHead (asked 33 [0xffff] live) (request 33 [0xffff]) 33 ∧ (0xffff : Word32).extractLsb' 16 16 = 0) ∧
    (AtHead (asked 34 [0x10000] live) (request 34 [0x10000]) 34 ∧ (0x10000 : Word32).extractLsb' 16 16 ≠ 0) ∧
    AtHead (asked 35 [1] live) (request 35 [1]) 35 := by
  simp only [AtHead]
  decide +kernel

theorem test_premises_RingRequestsKeepTheCounts :
    (AtHead (asked 29 [268369856, 6] live) (request 29 [268369856, 6]) 29 ∧ live.port.geomSet = true) ∧
    (AtHead (asked 30 [40] (restartExample 0)) (request 30 [40]) 30 ∧ (restartExample 0).report.setUp = true) ∧
    (AtHead (asked 31 [] (ringed live)) (request 31 []) 31 ∧ (ringed live).report.overrun = false) ∧
    (AtHead (asked 31 [] (restartExample 0)) (request 31 []) 31 ∧ (restartExample 0).report.overrun = true ∧
      ((restartExample 0).report.produced - (restartExample 0).report.consumed).toNat =
        2 ^ (restartExample 0).report.sizeExp) ∧
    (((restartExample 40).report.produced - (restartExample 40).report.consumed).toNat ≠
        2 ^ (restartExample 40).report.sizeExp ∧
      ((restartExample 40).report.produced - (restartExample 40).report.written).toNat < 8) := by
  simp only [AtHead]
  decide +kernel

theorem test_premises_RefusedRequestsChangeNothing :
    ((asked 36 [] live).maint.clearing = false ∧ (asked 36 [] live).maint.queue.head? = some (request 36 []) ∧
      35 < (request 36 []).code) ∧
    (AtHead (asked 24 [0, 0, 0] live) (request 24 [0, 0, 0]) 24 ∧ (request 24 [0, 0, 0]).args.length < 4) ∧
    (AtHead (asked 10 [0, 0, 0, 0, 0] live) (request 10 [0, 0, 0, 0, 0]) 10 ∧
      (request 10 [0, 0, 0, 0, 0]).args.length < 6) ∧
    (AtHead (asked 7 [] State.reset) (request 7 []) 7 ∧ (asked 7 [] State.reset).port.geomSet = false) ∧
    (AtHead (asked 31 [] live) (request 31 []) 31 ∧ (asked 31 [] live).report.setUp = false) ∧
    (AtHead (asked 28 [0, 0] live) (request 28 [0, 0]) 28 ∧ (asked 28 [0, 0] live).link.channel = .online) := by
  simp only [AtHead]
  decide +kernel

/-- A state with the slots and jobs given. -/
def repairing (slots : AMap Slot) (jobs : List Job) (s : State) : State :=
  { s with repair := { s.repair with slots := slots, jobs := jobs } }

/-- Arguments out of range, repeated or impossible targets, and retirements with no spare or no room. -/
theorem test_premises_refused_arguments :
    (AtHead (asked 5 [0, 99] live) (request 5 [0, 99]) 5 ∧ (Ctr.ofBlock 0).length ≤ (99 : Word32).toNat) ∧
    (AtHead (asked 22 [4] live) (request 22 [4]) 22 ∧ 3 < (4 : Word32).toNat) ∧
    (AtHead (asked 12 [31, 3] live) (request 12 [31, 3]) 12 ∧ 23 ≤ 8 * (3 : Word32).toNat) ∧
    live.port.geomSet = true ∧
    (AtHead (asked 10 [31, 268369919, 2, 600, 0, 0] live) (request 10 [31, 268369919, 2, 600, 0, 0]) 10 ∧
      live.port.geom.capacity < (268369919 : Word32).toNat + (2 : Word32).toNat) ∧
    (AtHead (asked 26 [0, 0, 16] live) (request 26 [0, 0, 16]) 26 ∧
      live.port.geom.spares ≤ (16 : Word32).toNat ∧ (16 : Word32).toNat ≠ 0) ∧
    (AtHead (asked 27 [1, 20] live) (request 27 [1, 20]) 27 ∧ 19 < (20 : Word32).toNat) ∧
    (AtHead (asked 28 [1, 5] bare) (request 28 [1, 5]) 28 ∧ (5 : Word32).toNat ∉ erasureSet bare 1) := by
  simp only [AtHead]
  decide +kernel

/-- Retirements and loads of rows out of range, being retired, without a spare, without room, and mapped twice. -/
theorem test_premises_refused_rows :
    (AtHead (asked 23 [1, 15, 65520] live) (request 23 [1, 15, 65520]) 23 ∧
      live.port.geom.visible ≤ (65520 : Word32).toNat) ∧
    (let s := repairing [] [{ someJob 9 with rank := 1, bank := 15 }] live;
      AtHead (asked 23 [1, 15, 9] s) (request 23 [1, 15, 9]) 23 ∧ (9 : Word32).toNat < s.port.geom.visible ∧
      (s.repair.jobs.any fun j => j.rank == 1 && j.bank == 15 && j.logical == 9) = true) ∧
    (let s := repairing noSpares.slots [] live;
      AtHead (asked 23 [0, 0, 9] s) (request 23 [0, 0, 9]) 23 ∧ s.repair.jobs = [] ∧
      ∀ k < s.port.geom.spares, slotAt s 0 0 k ≠ .free) ∧
    (let s := repairing [] ((List.range 4).map someJob) live;
      AtHead (asked 23 [0, 0, 9] s) (request 23 [0, 0, 9]) 23 ∧ 4 ≤ s.repair.jobs.length ∧
      (∀ j ∈ s.repair.jobs, (j.rank, j.bank, j.logical) ≠ (0, 0, 9)) ∧
      0 < s.port.geom.spares ∧ slotAt s 0 0 0 = .free) ∧
    (let s := repairing [(2, .active 9)] [] bare;
      AtHead (asked 24 [0, 0, 9, 3] s) (request 24 [0, 0, 9, 3]) 24 ∧ s.link.channel = .config ∧
      2 < s.port.geom.spares ∧ slotLogical s 0 0 2 = some (9 : Word32).toNat) := by
  simp only [AtHead]
  decide +kernel

theorem test_premises_SetParamClampsOneParameter :
    AtHead (asked 4 [16, 70000] live) (request 4 [16, 70000]) 4 ∧
    paramRange (16 : Word32).toNat = some (0, 65535) ∧ paramRange (17 : Word32).toNat = none ∧
    17 ≤ (17 : Word32).toNat ∧
    (16 : Word32).toNat ∈ [0, 1, 4, 5, 6, 7, 12, 13, 16] ∧
    [2, 3, 8, 9, 10, 11, 14, 15].all (fun id => (paramRange id).isSome) = true := by
  simp only [AtHead]
  decide +kernel

/-- Regions 0 and 1 loaded; region 0 staged. -/
def loaded : State :=
  { dueState with regions := dueState.regions.set 0 { region 0 64 with status := { state := .staged } } }

theorem test_premises_RegionLoadTakesTheRegion :
    (let q := request 10 [31, 100, 64, 70000, 1, 9];
      AtHead (asked 10 q.args loaded) q 10 ∧ loaded.port.geomSet = true ∧ (31 : Word32).toNat ≤ 31 ∧ (64 : Word32) ≠ 0 ∧
      (100 : Word32).toNat + (64 : Word32).toNat ≤ loaded.port.geom.capacity ∧
      RegionClass.critical.code = (9 : Word32).toNat / 2 % 4 ∧ AccessMode.burst.code = (9 : Word32).toNat / 8 % 4) ∧
    (let e : RegionEntry := { valid := true, base := 100, length := 64 };
      e.meets (regionAt loaded 1).entry = true ∧ e.meets (regionAt loaded 0).entry = false ∧
      (∀ j ≤ 31, j ≠ 31 → (regionAt loaded j).entry.valid = true →
        ({ e with base := 192 } : RegionEntry).meets (regionAt loaded j).entry = false)) ∧
    (regionAt loaded 0).status.state ≠ .idle ∧ (regionAt loaded 31).status.state = .idle := by
  simp only [AtHead]
  decide +kernel

theorem test_premises_ConfigureGeometryReachesEveryBlock :
    (AtHead (asked 9 [4, 17, 8, 0] State.reset) (request 9 [4, 17, 8, 0]) 9 ∧
      (asked 9 [4, 17, 8, 0] State.reset).link.channel = .config) ∧
    ({ ranks := 4, rowBits := 17, colExp := 8, spares := 0 } : Geometry).allowed = true ∧
    4 ∈ [1, 2, 4] ∧ 0 ∈ [0, 8, 16, 32] ∧ 3 ∉ [1, 2, 4] ∧
    ({ ranks := 3, rowBits := 17, colExp := 8, spares := 0 } : Geometry).allowed = false ∧
    boundWork (asked 9 [4, 17, 8, 0] State.reset) = false ∧ boundWork (swept .single) = true ∧
    (swept .single).patrol.active ≠ none ∧
    (let s := State.reset;
      s.patrol.active = none ∧ s.patrol.staged = none ∧ s.patrol.held = none ∧ s.patrol.tsq = [] ∧ s.wbq = [] ∧
      s.repair.jobs = [] ∧ s.report.produced = s.report.written ∧ s.port.accesses = []) ∧
    ((ringed bare).report.setUp = true ∧ 8372224 < 268369856 + 2 ^ (ringed bare).report.sizeExp) := by
  simp only [AtHead]
  decide +kernel

theorem test_premises_SparesAreSpentOnRows :
    (AtHead (asked 24 [1, 15, 9, 3] bare) (request 24 [1, 15, 9, 3]) 24 ∧ bare.link.channel = .config ∧
      bare.port.geomSet = true ∧ (1 : Word32).toNat < bare.port.geom.ranks ∧ (15 : Word32).toNat ≤ 15 ∧
      (9 : Word32).toNat < bare.port.geom.visible ∧ (3 : Word32).toNat < bare.port.geom.spares ∧
      slotAt bare 1 15 3 = .free ∧ ∀ k < bare.port.geom.spares, slotLogical bare 1 15 k ≠ some 9) ∧
    AtHead (asked 25 [1, 15, 3] bare) (request 25 [1, 15, 3]) 25 ∧
    (AtHead (asked 23 [1, 15, 9] live) (request 23 [1, 15, 9]) 23 ∧ hasJob live 1 15 9 = false ∧
      0 < live.port.geom.spares ∧ slotAt live 1 15 0 = .free ∧ live.repair.jobs.length < 4) ∧
    (live.repair.jobs = [] ∧ live.window = none ∧ pairOutstanding live = false ∧ wbFind live 5 = none) ∧
    (let s := { live with repair := { live.repair with slots := [(992, .dead)], jobs := [someJob 0] } };
      slotAt s 1 15 1 = .free ∧ (∀ j < 1, slotAt s 1 15 j ≠ .free) ∧ s.repair.jobs ≠ []) ∧
    heldRow live 0 0 65523 = none ∧ heldRow live 1 15 9 = some 9 ∧
    (let s := { live with repair := { live.repair with slots := [(2, .active 9), (3, .copying (.row 4) 7)] } };
      (9 < s.port.geom.visible ∧ slotAt s 0 0 2 = .active 9 ∧ heldRow s 0 0 9 = some 9) ∧
      (s.port.geom.visible ≤ 65523 ∧ heldRow s 0 0 65523 = some 4 ∧
        slotAt s 0 0 (65523 - s.port.geom.visible) = .copying (.row 4) 7) ∧
      (s.port.geom.visible ≤ 65522 ∧ heldRow s 0 0 65522 = some 9) ∧
      (∀ m < 2, slotAt s 0 0 m ≠ .active 9) ∧ servedRow s 0 0 9 = 65522 ∧
      (∀ k < s.port.geom.spares, slotAt s 0 0 k ≠ .active 4) ∧ servedRow s 0 0 4 = 4 ∧
      s.port.geom.visible + s.port.geom.spares ≤ 65536) := by
  simp only [AtHead]
  decide +kernel

/-- A state with erased devices in rank 1. -/
def erasing (set : List Nat) (s : State) : State := { s with repair := { s.repair with erasures := [[], set, [], []] } }

theorem test_premises_ErasuresFollowTheirRules :
    (AtHead (asked 27 [1, 19] (erasing [0] live)) (request 27 [1, 19]) 27 ∧ (1 : Word32).toNat < live.port.geom.ranks ∧
      (19 : Word32).toNat ≤ 19 ∧ (19 : Word32).toNat ∉ erasureSet (erasing [0] live) 1 ∧
      (erasureSet (erasing [0] live) 1).length < 2) ∧
    (2 ≤ (erasureSet (erasing [0, 5] live) 1).length ∧ 19 ∉ erasureSet (erasing [0, 5] live) 1) ∧
    (AtHead (asked 28 [1, 5] (erasing [0, 5] bare)) (request 28 [1, 5]) 28 ∧
      (5 : Word32).toNat ∈ erasureSet (erasing [0, 5] bare) 1) ∧
    (live.params.autoErase = 1 ∧
      (let s := { erasing [7] live with params := { live.params with deviceErase := 0, deviceSpread := 0 } };
        s.params.deviceErase ≤ (deviceAt s 1 11).score ∧ s.params.deviceSpread ≤ s.fault.entries.countP (fun e =>
          e.state != .free && e.rank == 1 && e.devices.getLsbD 11) ∧ 11 ∉ erasureSet s 1)) ∧
    (deviceAt live 1 11).limitReported = false ∧ ({ limitReported := true } : DeviceScore).limitReported = true := by
  simp only [AtHead]
  decide +kernel

end Sys2Proof.Tests
end

