-- ==== Sys2Proof/Proofs/Bits.lean ====
section
/-! The exclusive-or of a list of vectors: its equations, its bits, and the case in which one vector alone has a bit. -/

namespace Sys2Proof.Machine

open Sys2Proof

variable {w : Nat}

theorem xorAll_foldl (l : List (BitVec w)) (a : BitVec w) : l.foldl (fun a b => a ^^^ b) a = a ^^^ xorAll l := by
  induction l generalizing a with
  | nil => simp [xorAll]
  | cons v l ih =>
    rw [xorAll, List.foldl_cons, List.foldl_cons, ih, ih (0 ^^^ v)]
    simp [BitVec.xor_assoc]

@[simp] theorem xorAll_nil : xorAll ([] : List (BitVec w)) = 0 := rfl

@[simp] theorem xorAll_cons (v : BitVec w) (l : List (BitVec w)) : xorAll (v :: l) = v ^^^ xorAll l := by
  rw [xorAll, List.foldl_cons, xorAll_foldl]
  simp

theorem xorAll_append (l m : List (BitVec w)) : xorAll (l ++ m) = xorAll l ^^^ xorAll m := by
  induction l with
  | nil => simp
  | cons v l ih => simp [ih, BitVec.xor_assoc]

/-- The exclusive-or of a family is linear in it. -/
theorem xorAll_map_xor {α : Type} (f g : α → BitVec w) (l : List α) :
    xorAll (l.map fun i => f i ^^^ g i) = xorAll (l.map f) ^^^ xorAll (l.map g) := by
  induction l with
  | nil => simp
  | cons i l ih =>
    simp only [List.map_cons, xorAll_cons, ih]
    ac_rfl

/-- What a bit chooses is linear in the bit. -/
theorem ite_xor (a b : Bool) (v : BitVec w) :
    (if (a ^^ b) = true then v else 0) = (if a = true then v else 0) ^^^ (if b = true then v else 0) := by
  cases a <;> cases b <;> simp

/-- A bit that no vector of the family has. -/
theorem getLsbD_xorAll_none {α : Type} (f : α → BitVec w) (l : List α) (n : Nat)
    (h : ∀ i ∈ l, (f i).getLsbD n = false) : (xorAll (l.map f)).getLsbD n = false := by
  induction l with
  | nil => simp
  | cons i l ih =>
    simp only [List.mem_cons, forall_eq_or_imp] at h
    simp [h.1, ih h.2]

/-- A bit that one member of the family alone can have. -/
theorem getLsbD_xorAll_one {α : Type} (f : α → BitVec w) (l : List α) (n : Nat) (i : α) (hd : l.Nodup) (hi : i ∈ l)
    (h : ∀ j ∈ l, j ≠ i → (f j).getLsbD n = false) : (xorAll (l.map f)).getLsbD n = (f i).getLsbD n := by
  induction l with
  | nil => simp at hi
  | cons k l ih =>
    simp only [List.mem_cons, forall_eq_or_imp] at h
    rw [List.nodup_cons] at hd
    rw [List.map_cons, xorAll_cons, BitVec.getLsbD_xor]
    by_cases hk : k = i
    · subst hk
      rw [getLsbD_xorAll_none f l n fun j hj => h.2 j hj fun hjk => hd.1 (hjk ▸ hj), Bool.xor_false]
    · rw [h.1 hk, ih hd.2 ((List.mem_cons.1 hi).resolve_left (Ne.symm hk)) h.2, Bool.false_xor]

end Sys2Proof.Machine
end

