-- ==== Sys2Proof/Proofs/Writes.lean ====
section
/-! The writes of line order and the Write-back Queue they meet: what waiting for a line means, the cancelling of a
write-back, the review of the drain count, and with them the taking of writes (R15, R17, R25 to R32, R49, R50) and what a
decode hands on (R9, R11, R41 to R45). -/

namespace Sys2Proof.Machine

open Sys2Proof

/-! ## A line of line order, and its entry -/

/-- A line is clear of waiting writes exactly when no write supersedes a write-back of it (R27, R28). -/
theorem lineClear_iff (s : State) (line : Nat) : LineClear s line ↔ superseded s line = false := by
  simp only [LineClear, superseded, lineList, List.any_filter, List.any_eq_false, Bool.and_eq_true, beq_iff_eq,
    Bool.or_eq_true, not_and, not_or, Bool.not_eq_true]

theorem forwardEntry_of_clear {s : State} {line : Nat} (h : LineClear s line) :
    forwardEntry s line = wbFind s line := by
  have hs := (lineClear_iff s line).1 h
  unfold superseded at hs
  simp [forwardEntry, hs]

theorem forwardEntry_of_not_clear {s : State} {line : Nat} (h : ¬ LineClear s line) : forwardEntry s line = none := by
  have hs := mt (lineClear_iff s line).2 h
  simp only [superseded, Bool.not_eq_false] at hs
  simp [forwardEntry, hs]

theorem wbFind_eq_none {s : State} {line : Nat} (h : ∀ e ∈ s.wbq, e.line ≠ line) : wbFind s line = none := by
  simpa [wbFind] using h

/-- Nothing is forwarded without an entry, or while a write of the line waits (R28). -/
theorem forwardEntry_eq_none {s : State} {line : Nat} (h : (∀ e ∈ s.wbq, e.line ≠ line) ∨ ¬ LineClear s line) :
    forwardEntry s line = none := by
  by_cases hc : LineClear s line
  · rw [forwardEntry_of_clear hc]
    exact wbFind_eq_none (h.resolve_right (not_not.2 hc))
  · exact forwardEntry_of_not_clear hc

theorem WbKind.form_eq (kind : WbKind) : kind.form = if kind = .rewrite then .fresh else .poison := by
  cases kind <;> rfl

/-- A write that makes a pending write-back of its line obsolete cancels it, unless it is granted (R49, R50). -/
theorem wbCancel_eq (line : Nat) (s : State) : wbCancel line s = { s with
    port := { s.port with accesses := accessesLeft s line }
    wbq := entriesLeft s line
    counters := { s.counters with
      writebacksCancelled := countedIf (cancels s line) s.counters.writebacksCancelled } } := by
  unfold wbCancel accessesLeft entriesLeft cancels
  cases hf : wbFind s line with
  | none => rfl
  | some e =>
    cases hg : e.granted
    · simp only [hg, Option.any_some]
      rfl
    · simp only [hg, Option.any_some]
      rfl

/-- The drain condition follows the drain count, and is counted when it turns on (R32). -/
theorem reviewDrain_eq (s : State) : reviewDrain s = { s with
    port := { s.port with drain := drainAfter (drainCount s) s.port.drain }
    counters := { s.counters with
      drainEntries := countedIf (drainAfter (drainCount s) s.port.drain && !s.port.drain) s.counters.drainEntries } } := by
  unfold reviewDrain drainAfter
  by_cases h24 : 24 ≤ drainCount s
  · cases hd : s.port.drain
    · simp only [h24, if_true]
      rfl
    · simp only [h24, if_true, Bool.not_true, Bool.and_false]
      rw [← hd]
      rfl
  · by_cases h16 : drainCount s ≤ 16
    · simp only [h24, h16, if_true, if_false]
      rfl
    · simp only [h24, h16, if_false, Bool.and_not_self]
      rfl

/-- The write of an entry is no demand write: its cancelling leaves the drain count (R32). -/
theorem accessesLeft_countP (s : State) (line : Nat) :
    (accessesLeft s line).countP (fun a => a.kind.isDemandWrite) = drainCount s := by
  unfold accessesLeft drainCount
  split
  · rw [List.countP_filter]
    refine List.countP_congr fun a _ => ?_
    by_cases hk : a.kind = .writeBack <;> simp [hk, AccessKind.isDemandWrite]
  · rfl

/-! ## Writes taken -/

theorem acceptFrame_eq (tag : Byte) (s : State) : acceptFrame tag s = accepted tag s := rfl

theorem FrameGood.not_refused {body : List Byte} {check : BitVec 16} {tag : Byte} {s : State}
    (h : FrameGood body check tag s) : frameRefused body check tag false s = false := by
  obtain ⟨hc, ht, hu⟩ := h
  simp [frameRefused, hc, hu, Nat.not_lt.2 ht]

/-- No region refuses a write that passes the lock check (R64). -/
theorem LockPassed.locking {s : State} {line : Nat} {permit : Bool} (h : LockPassed s line permit) :
    lockingRegion s line permit = none := by
  unfold lockingRegion
  cases hr : regionOf s line with
  | none => rfl
  | some i =>
    rcases h i hr with hl | hp
    · simp [hl]
    · simp [hp]

/-- A write with a valid line address that passes the lock check reaches its owner (R24, R64). -/
theorem portWrite_of_passed {source : Source} {tag line : Nat} {permit : Bool} {passed : State → State} {s : State}
    (hl : line < s.capacity) (hp : LockPassed s line permit) :
    portWrite source tag line permit passed s = passed s := by
  simp only [portWrite, Nat.not_le.2 hl, if_false, hp.locking]

theorem execWrite_online {s : State} {tag b2 b3 : Byte} {line : BitVec 64} {data : Data} {check : BitVec 16}
    (hf : FrameGood (writeBody tag b2 b3 line data) check tag s) (ho : s.link.channel = .online)
    (hl : line.toNat < s.capacity) (hp : LockPassed s line.toNat (b2.getLsbD 0)) :
    exec (.write tag b2 b3 line data check) s =
      .next (takeWrite tag.toNat line.toNat data (accepted tag s)) := by
  show execWrite tag b2 b3 line data check s = _
  have ho' : (accepted tag s).link.channel = .online := ho
  have hp' : LockPassed (accepted tag s) line.toNat (permitOf b2) := hp
  simp only [execWrite, hf.not_refused, acceptFrame_eq, ho', portWrite_of_passed (s := accepted tag s) hl hp',
    Bool.false_eq_true, if_false]

theorem execWriteMasked_online {s : State} {tag b2 b3 : Byte} {line : BitVec 64} {data : Data} {mask : BitVec 64}
    {check : BitVec 16} (hf : FrameGood (writeMaskedBody tag b2 b3 line data mask) check tag s)
    (ho : s.link.channel = .online) (hl : line.toNat < s.capacity) (hp : LockPassed s line.toNat (b2.getLsbD 0)) :
    exec (.writeMasked tag b2 b3 line data mask check) s =
      .next (testMask tag.toNat line.toNat data mask (accepted tag s)) := by
  show execWriteMasked tag b2 b3 line data mask check s = _
  have ho' : (accepted tag s).link.channel = .online := ho
  have hp' : LockPassed (accepted tag s) line.toNat (permitOf b2) := hp
  simp only [execWriteMasked, hf.not_refused, acceptFrame_eq, ho', portWrite_of_passed (s := accepted tag s) hl hp',
    Bool.false_eq_true, if_false]

theorem drainCount_wbCancel (line : Nat) (s : State) : drainCount (wbCancel line s) = drainCount s := by
  rw [wbCancel_eq]
  exact accessesLeft_countP s line

/-- A write joins line order and the drain count (R25, R32). -/
theorem reviewDrain_takeAccess (line : Nat) (kind : AccessKind) (phase : Phase) (s : State)
    (hk : kind.isDemandWrite = true) :
    let d := drainAfter (drainCount s + 1) s.port.drain
    reviewDrain (takeAccess line kind phase s) = { s with
      port := { s.port with
        accesses := s.port.accesses ++ [{ line := line, kind := kind, phase := phase }], drain := d }
      counters := { s.counters with drainEntries := countedIf (d && !s.port.drain) s.counters.drainEntries } } := by
  have hd : drainCount (takeAccess line kind phase s) = drainCount s + 1 := by simp [drainCount, hk]
  rw [reviewDrain_eq, hd]
  rfl

/-- A full write is taken as R17, R25, R27, R32 and R49 say. -/
theorem takeWrite_taken (tag line : Nat) (data : Data) (s : State) :
    WriteTaken tag line data s (takeWrite tag line data s) := by
  unfold takeWrite
  rw [reviewDrain_takeAccess line _ _ _ rfl, drainCount_wbCancel, wbCancel_eq]
  exact ⟨rfl, rfl, rfl, rfl⟩

/-- A partial write with nothing to be forwarded from waits for its read (R30). -/
theorem takeMasked_waiting (tag line : Nat) (data : Data) (mask : BitVec 64) (s : State)
    (h : forwardEntry s line = none) :
    let d := drainAfter (drainCount s + 1) s.port.drain
    takeMasked tag line data mask s = { s with
      port := { s.port with
        accesses := s.port.accesses ++
          [{ line := line, kind := .maskedWrite tag data mask none, phase := .waiting }]
        drain := d }
      counters := { s.counters with drainEntries := countedIf (d && !s.port.drain) s.counters.drainEntries } } := by
  simp only [takeMasked, h]
  exact reviewDrain_takeAccess line _ _ s rfl

/-- A partial write forwarded from an entry is merged at once, and the entry leaves unless it is granted (R30, R50). -/
theorem takeMasked_merging (tag line : Nat) (data : Data) (mask : BitVec 64) (s : State) (e : WbEntry)
    (h : forwardEntry s line = some e) :
    let d := drainAfter (drainCount s + 1) s.port.drain
    takeMasked tag line data mask s = { s with
      port := { s.port with
        accesses := accessesLeft s line ++
          [{ line := line, phase := .merging
             kind := .maskedWrite tag data mask (some (overlay mask data e.data, e.kind.form)) }]
        drain := d }
      wbq := entriesLeft s line
      counters := { s.counters with
        writebacksForwarded := satAdd s.counters.writebacksForwarded 1
        writebacksCancelled := countedIf (cancels s line) s.counters.writebacksCancelled
        drainEntries := countedIf (d && !s.port.drain) s.counters.drainEntries } } := by
  simp only [takeMasked, h]
  rw [reviewDrain_takeAccess line _ _ _ rfl, drainCount_wbCancel, wbCancel_eq]
  rfl

/-! ## The overlay of a masked write (R15) -/

theorem getLsbD_extract_byte {w : Nat} (v : BitVec w) (i b : Nat) (hb : b < 8) :
    (v.extractLsb' (8 * i) 8).getLsbD b = v.getLsbD (8 * i + b) := by
  simp [hb]

/-- Whether bit n lies in a byte that the mask selects. -/
theorem getLsbD_keep (mask : BitVec 64) (n : Nat) (hn : n < 512) :
    (xorAll ((List.range 64).map fun i =>
      if mask.getLsbD i then BitVec.ofNat 512 (255 * 2 ^ (8 * i)) else 0)).getLsbD n = mask.getLsbD (n / 8) := by
  have h255 : ∀ k : Nat, Nat.testBit 255 k = decide (k < 8) := fun k => Nat.testBit_two_pow_sub_one 8 k
  have bit : ∀ i : Nat, (BitVec.ofNat 512 (255 * 2 ^ (8 * i))).getLsbD n = decide (i = n / 8) := fun i => by
    rw [BitVec.getLsbD_ofNat, Nat.testBit_mul_two_pow, h255]
    simp only [hn, decide_true, Bool.true_and, ← Bool.decide_and, decide_eq_decide]
    omega
  rw [getLsbD_xorAll_one _ _ n (n / 8) List.nodup_range (List.mem_range.2 (by omega))]
  · cases mask.getLsbD (n / 8) <;> simp [bit]
  · intro i _ hi
    cases mask.getLsbD i <;> simp [bit, hi]

/-- The overlay has the frame's bytes where the mask selects them, and the base's elsewhere (R15). -/
theorem overlay_byte (mask : BitVec 64) (frame base : Data) (i : Nat) (hi : i < 64) :
    (overlay mask frame base).extractLsb' (8 * i) 8 =
      if mask.getLsbD i then frame.extractLsb' (8 * i) 8 else base.extractLsb' (8 * i) 8 := by
  refine BitVec.eq_of_getLsbD_eq fun b hb => ?_
  have hk := getLsbD_keep mask (8 * i + b) (by omega)
  rw [show (8 * i + b) / 8 = i by omega] at hk
  have hn : 8 * i + b < 512 := by omega
  rw [apply_ite (fun v : Byte => v.getLsbD b)]
  simp only [getLsbD_extract_byte _ _ _ hb, overlay, BitVec.getLsbD_or, BitVec.getLsbD_and, BitVec.getLsbD_not, hk, hn]
  cases mask.getLsbD i <;> simp

theorem testMask_full (tag line : Nat) (data : Data) (s : State) :
    testMask tag line data (BitVec.allOnes 64) s = takeWrite tag line data s := by
  have h : BitVec.allOnes 64 ≠ 0 := by decide
  simp only [testMask, h, if_true, if_false]

theorem testMask_partial (tag line : Nat) (data : Data) (mask : BitVec 64) (s : State) (h0 : mask ≠ 0)
    (h1 : mask ≠ BitVec.allOnes 64) : testMask tag line data mask s = takeMasked tag line data mask s := by
  simp only [testMask, h0, h1, if_false]

/-- Settles O20: each mask leads to one of the takings above, full, empty, forwarded or waiting. -/
theorem writesAreTaken : Obligations.WritesAreTaken := by
  refine ⟨fun s tag b2 b3 line data check ho hl hp => ⟨fun hf => ?_, fun hf => ?_⟩,
    fun s tag b2 b3 line data mask check hf ho hl hp h1 => ⟨fun h0 => ?_, fun h0 => ?_⟩⟩
  · exact ⟨_, execWrite_online hf ho hl hp, takeWrite_taken _ _ _ _⟩
  · exact ⟨_, execWriteMasked_online hf ho hl hp, testMask_full .. ▸ takeWrite_taken _ _ _ _⟩
  · rw [execWriteMasked_online hf ho hl hp, h0]
    rfl
  · refine ⟨_, execWriteMasked_online hf ho hl hp, ?_⟩
    rw [testMask_partial _ _ _ _ _ h0 h1]
    cases hfw : forwardEntry (accepted tag s) line.toNat with
    | none =>
      rw [takeMasked_waiting _ _ _ _ _ hfw]
      refine ⟨rfl, rfl, rfl, fun _ => ⟨rfl, rfl, rfl, rfl⟩, fun e he hc => ?_⟩
      rw [forwardEntry_of_clear (s := accepted tag s) hc] at hfw
      exact absurd (hfw.symm.trans he) (by simp)
    | some e =>
      rw [takeMasked_merging _ _ _ _ _ e hfw]
      refine ⟨rfl, rfl, rfl, fun hn => ?_, fun f he hc => ?_⟩
      · exact absurd (hfw.symm.trans (forwardEntry_eq_none (s := accepted tag s) hn)) (by simp)
      · have hfe : f = e := Option.some.inj (he.symm.trans ((forwardEntry_of_clear (s := accepted tag s) hc).symm.trans hfw))
        subst hfe
        have hg : cancels s line.toNat = !f.granted := by simp [cancels, he]
        refine ⟨rfl, rfl, congrArg (countedIf · _) hg, overlay mask data f.data, overlay_byte mask data f.data, ?_⟩
        rw [← WbKind.form_eq]
        rfl

end Sys2Proof.Machine
end

