-- ==== Sys2Proof/Proofs/HandedOn.lean ====
section
/-! What a decode hands on: its fault event (R9, R11), and its write-back, decided by the first case of R43 that applies. -/

namespace Sys2Proof.Machine

open Sys2Proof

/-! ## The event -/

/-- The event of a decode, for what the decode says of the device (R11). -/
def eventWith (source : Source) (a : Access) (d : Decoded) (s : State) (located : Option (Nat × Nat)) : FaultEvent :=
  { rank := s.port.geom.rankOf a.line, bank := s.port.geom.bankOf a.line, row := a.row
    col := s.port.geom.colOf a.line, line := a.line, located := located, source := source
    region := regionOf s a.line, poisoned := decide (d.outcome = .poisoned) }

theorem eventOf_eq (source : Source) (a : Access) (d : Decoded) (s : State) :
    eventOf source a d s = d.fault?.map (eventWith source a d s) := by
  have hp : (d.outcome == .poisoned) = decide (d.outcome = .poisoned) := by cases d.outcome <;> rfl
  simp only [eventOf, hp]
  rfl

/-- The event's bank is that of a line address, below 16 (R22). -/
theorem eventOf_bank {source : Source} {a : Access} {d : Decoded} {s : State} {ev : FaultEvent}
    (h : eventOf source a d s = some ev) : ev.bank < 16 := by
  rw [eventOf_eq] at h
  obtain ⟨located, _, rfl⟩ := Option.map_eq_some_iff.1 h
  exact Nat.mod_lt _ (by decide)

/-- The decodes that make no event (R9, R11). -/
theorem Decoded.fault_none {d : Decoded}
    (h : d.outcome = .clean ∨ (d.outcome = .poisoned ∨ d.outcome = .corrected) ∧ d.located = none) :
    d.fault? = none := by
  rcases h with h | ⟨h | h, hl⟩ <;> simp [Decoded.fault?, *]

/-- The decodes that make an event, and what it says of the device (R9, R11). -/
theorem Decoded.fault_some {d : Decoded}
    (h : d.outcome = .uncorrectable ∨ (d.outcome = .poisoned ∨ d.outcome = .corrected) ∧ d.located ≠ none) :
    d.fault? = some (if d.outcome = .uncorrectable then none else d.located) := by
  rcases h with h | ⟨h, hl⟩
  · simp [Decoded.fault?, h]
  · obtain ⟨x, hx⟩ := Option.ne_none_iff_exists'.1 hl
    rcases h with h | h <;> simp [Decoded.fault?, h, hx]

/-! ## The write-back -/

theorem handDecoded_of_none {d : Decoded} (h : d.outcome = .clean ∨ d.outcome = .poisoned ∧ d.located = none)
    (line : Nat) (policy : Policy) (s : State) : handDecoded line d policy s = s := by
  have hw : d.writeback? = none := by rcases h with h | ⟨h, hl⟩ <;> simp [Decoded.writeback?, *]
  simp [handDecoded, hw]

/-- The kind of write-back that each outcome calls for (R41). -/
theorem Decoded.writeback_of {d : Decoded} {kind : WbKind}
    (h : (kind = .rewrite ∧ d.outcome = .corrected) ∨
      (kind = .poison ∧ (d.outcome = .uncorrectable ∨ d.outcome = .poisoned ∧ d.located ≠ none))) :
    d.writeback? = some kind := by
  rcases h with ⟨rfl, h⟩ | ⟨rfl, h | ⟨h, hl⟩⟩
  · simp [Decoded.writeback?, h]
  · simp [Decoded.writeback?, h]
  · simp [Decoded.writeback?, h, Option.isSome_iff_ne_none.2 hl]

/-- A write-back is discarded during a clear, and behind a waiting write of its line (R27, case 1 and 2 of R43). -/
theorem handWriteback_discarded {s : State} {line : Nat} (h : s.maint.clearing = true ∨ ¬ LineClear s line)
    (data : Data) (kind : WbKind) (policy : Policy) : handWriteback line data kind policy s = s := by
  unfold handWriteback
  rcases h with h | h
  · simp [h]
  · simp [Bool.not_eq_false _ ▸ mt (lineClear_iff s line).2 h]

section

variable {s : State} {line : Nat} (hc : s.maint.clearing = false) (hl : LineClear s line)
variable (data : Data) (kind : WbKind) (policy : Policy)
include hc hl

/-- An entry of the line is replaced in place (R44). -/
theorem handWriteback_replaced {e : WbEntry} (he : wbFind s line = some e) :
    handWriteback line data kind policy s = replaceEntry line data kind policy s := by
  simp [handWriteback, hc, (lineClear_iff s line).1 hl, he]

/-- Without one, the write-back enters a queue with room and is dropped from a full one (cases 4 and 5 of R43). -/
theorem handWriteback_new (hn : ∀ e ∈ s.wbq, e.line ≠ line) : handWriteback line data kind policy s =
    if s.wbq.length < 8 then insertEntry line data kind policy s else count .writebacksDropped s := by
  simp only [handWriteback, hc, (lineClear_iff s line).1 hl, wbFind_eq_none hn, Option.isSome_none, Bool.false_eq_true,
    if_false]
  rfl

end

/-- Settles O30: the event by the outcome and the located device, the write-back by the cases of R43. -/
theorem decodesHandOnTheirWork : Obligations.DecodesHandOnTheirWork := by
  refine ⟨fun source a d s => ⟨fun h => ?_, fun h => ?_⟩,
    fun s line d policy => ⟨fun h => handDecoded_of_none h line policy s, fun h => ?_, fun kind hc hl hk => ?_⟩⟩
  · rw [eventOf_eq, Decoded.fault_none h, Option.map_none]
  · rw [eventOf_eq, Decoded.fault_some h]
    rfl
  · unfold handDecoded
    split
    · exact handWriteback_discarded h _ _ _
    · rfl
  · have hd : handDecoded line d policy s = handWriteback line d.data kind policy s := by
      simp [handDecoded, Decoded.writeback_of hk]
    simp only [hd]
    refine ⟨fun e he => ?_, fun hn hq => ?_, fun hn hq => ?_⟩
    · rw [handWriteback_replaced hc hl _ _ _ he]
      simp only [replaceEntry, beq_iff_eq]
      rfl
    · rw [handWriteback_new hc hl _ _ _ hn, if_pos hq]
      rfl
    · rw [handWriteback_new hc hl _ _ _ hn, if_neg (Nat.not_lt.2 hq)]
      rfl

end Sys2Proof.Machine
end

