-- ==== Sys2Proof/Proofs/Lines.lean ====
section
/-! Lines and codewords (R1 to R3): the bits of a codeword and of a line made of codewords, the symbols of a codeword, and
the systematic, linear encoding. -/

namespace Sys2Proof.Machine

open Sys2Proof

/-! ## Placement (R1) -/

/-- The bits of a byte moved up. -/
theorem getLsbD_shifted (x : Byte) (w m n : Nat) :
    (x.setWidth w <<< m).getLsbD n = (decide (n < w ∧ m ≤ n) && x.getLsbD (n - m)) := by
  by_cases hn : n < w
  · by_cases hm : m ≤ n
    · simp [hn, hm, Nat.not_lt.2 hm]
    · simp [hn, hm, Nat.lt_of_not_le hm]
  · simp [hn]

theorem getLsbD_symbolOf (line : Line) (d k b : Nat) :
    (symbolOf line d k).getLsbD b = (decide (b < 8) && line.getLsbD (32 * d + 8 * k + b)) := by
  simp [symbolOf]

/-- The bits of a codeword of a line (R1). -/
theorem getLsbD_codewordOf (line : Line) (k n : Nat) (hn : n < 160) :
    (codewordOf line k).getLsbD n = line.getLsbD (32 * (n / 8) + 8 * k + n % 8) := by
  rw [codewordOf, getLsbD_xorAll_one _ _ n (n / 8) List.nodup_range (List.mem_range.2 (by omega))]
  · rw [getLsbD_shifted, getLsbD_symbolOf, show n - 8 * (n / 8) = n % 8 by omega]
    simp [hn, Nat.mul_div_le, Nat.mod_lt]
  · intro d _ hd
    rw [getLsbD_shifted, getLsbD_symbolOf]
    simp only [Bool.and_eq_false_iff, decide_eq_false_iff_not]
    omega

/-- The bits of a line with one codeword. -/
theorem getLsbD_spreadCodeword (w : Codeword) (k n : Nat) (hk : k < 4) (hn : n < 640) :
    (spreadCodeword w k).getLsbD n = (decide (n % 32 / 8 = k) && w.getLsbD (8 * (n / 32) + n % 8)) := by
  rw [spreadCodeword, getLsbD_xorAll_one _ _ n (n / 32) List.nodup_range (List.mem_range.2 (by omega))]
  · rw [getLsbD_shifted, BitVec.getLsbD_extractLsb']
    by_cases h : n % 32 / 8 = k
    · rw [show n - (32 * (n / 32) + 8 * k) = n % 8 by omega]
      simp [hn, h, Nat.mod_lt, show 32 * (n / 32) + 8 * k ≤ n by omega]
    · simp only [h, decide_false, Bool.false_and, Bool.and_eq_false_iff, decide_eq_false_iff_not]
      omega
  · intro d _ hd
    rw [getLsbD_shifted, BitVec.getLsbD_extractLsb']
    simp only [Bool.and_eq_false_iff, decide_eq_false_iff_not]
    omega

/-- A codeword of a line made of four codewords. -/
theorem codewordOf_spread (f : Nat → Codeword) (k : Nat) (hk : k < 4) :
    codewordOf (xorAll ((List.range 4).map fun j => spreadCodeword (f j) j)) k = f k := by
  refine BitVec.eq_of_getLsbD_eq fun n hn => ?_
  rw [getLsbD_codewordOf _ _ _ hn, getLsbD_xorAll_one _ _ _ k List.nodup_range (List.mem_range.2 hk)]
  · rw [getLsbD_spreadCodeword _ _ _ hk (by omega),
      show (32 * (n / 8) + 8 * k + n % 8) % 32 / 8 = k by omega,
      show 8 * ((32 * (n / 8) + 8 * k + n % 8) / 32) + (32 * (n / 8) + 8 * k + n % 8) % 8 = n by omega]
    simp
  · intro j hj hjk
    rw [getLsbD_spreadCodeword _ _ _ (List.mem_range.1 hj) (by omega),
      show (32 * (n / 8) + 8 * k + n % 8) % 32 / 8 = k by omega]
    simp [Ne.symm hjk]

/-- A line is made of its codewords. -/
theorem spread_codewordOf (line : Line) :
    xorAll ((List.range 4).map fun k => spreadCodeword (codewordOf line k) k) = line := by
  refine BitVec.eq_of_getLsbD_eq fun n hn => ?_
  rw [getLsbD_xorAll_one _ _ _ (n % 32 / 8) List.nodup_range (List.mem_range.2 (by omega))]
  · rw [getLsbD_spreadCodeword _ _ _ (by omega) hn, getLsbD_codewordOf _ _ _ (by omega),
      show 32 * ((8 * (n / 32) + n % 8) / 8) + 8 * (n % 32 / 8) + (8 * (n / 32) + n % 8) % 8 = n by omega]
    simp
  · intro j hj hjn
    rw [getLsbD_spreadCodeword _ _ _ (List.mem_range.1 hj) hn]
    simp [Ne.symm hjn]

theorem codewordOf_xor (a b : Line) (k : Nat) : codewordOf (a ^^^ b) k = codewordOf a k ^^^ codewordOf b k := by
  refine BitVec.eq_of_getLsbD_eq fun n hn => ?_
  simp only [BitVec.getLsbD_xor, getLsbD_codewordOf _ _ _ hn]

/-! ## The code (R2) -/

theorem checkSymbols_xor (code : Code) (a b : BitVec 128) :
    checkSymbols code (a ^^^ b) = checkSymbols code a ^^^ checkSymbols code b := by
  unfold checkSymbols
  rw [← xorAll_map_xor]
  refine congrArg xorAll (List.map_congr_left fun n _ => ?_)
  rw [BitVec.getLsbD_xor, ite_xor]

theorem getLsbD_encodeWord (code : Code) (data : BitVec 128) (n : Nat) (hn : n < 160) :
    (encodeWord code data).getLsbD n =
      if n < 128 then data.getLsbD n else (checkSymbols code data).getLsbD (n - 128) := by
  simp only [encodeWord, BitVec.getLsbD_or, BitVec.getLsbD_shiftLeft, BitVec.getLsbD_setWidth, hn, decide_true,
    Bool.true_and]
  by_cases h : n < 128
  · simp [h]
  · simp [h, show n - 128 < 160 by omega, BitVec.getLsbD_of_ge data n (by omega)]

theorem encodeWord_setWidth (code : Code) (data : BitVec 128) : (encodeWord code data).setWidth 128 = data := by
  refine BitVec.eq_of_getLsbD_eq fun n hn => ?_
  rw [BitVec.getLsbD_setWidth, getLsbD_encodeWord _ _ _ (by omega)]
  simp [hn]

theorem encodeWord_extract (code : Code) (data : BitVec 128) :
    (encodeWord code data).extractLsb' 128 32 = checkSymbols code data := by
  refine BitVec.eq_of_getLsbD_eq fun n hn => ?_
  rw [BitVec.getLsbD_extractLsb', getLsbD_encodeWord _ _ _ (by omega)]
  simp [hn, show ¬ 128 + n < 128 by omega]

theorem encodeWord_xor (code : Code) (a b : BitVec 128) :
    encodeWord code (a ^^^ b) = encodeWord code a ^^^ encodeWord code b := by
  refine BitVec.eq_of_getLsbD_eq fun n hn => ?_
  rw [BitVec.getLsbD_xor, getLsbD_encodeWord _ _ _ hn, getLsbD_encodeWord _ _ _ hn, getLsbD_encodeWord _ _ _ hn,
    checkSymbols_xor]
  split <;> simp

/-! ## Lines as they are written (R3) -/

theorem codewordOf_encodeFresh (code : Code) (data : Data) (k : Nat) (hk : k < 4) :
    codewordOf (encodeFresh code data) k = encodeWord code ((codewordOf (data.setWidth 640) k).setWidth 128) := by
  unfold encodeFresh
  rw [codewordOf_spread _ k hk]

/-- The data bytes of a fresh line are its data symbols (R1). -/
theorem encodeFresh_setWidth (code : Code) (data : Data) : (encodeFresh code data).setWidth 512 = data := by
  refine BitVec.eq_of_getLsbD_eq fun n hn => ?_
  have hc : (codewordOf (encodeFresh code data) (n % 32 / 8)).getLsbD (8 * (n / 32) + n % 8) =
      (codewordOf (data.setWidth 640) (n % 32 / 8)).getLsbD (8 * (n / 32) + n % 8) := by
    rw [codewordOf_encodeFresh _ _ _ (by omega), getLsbD_encodeWord _ _ _ (by omega), if_pos (by omega),
      BitVec.getLsbD_setWidth]
    simp [show 8 * (n / 32) + n % 8 < 128 by omega]
  rw [getLsbD_codewordOf _ _ _ (by omega), getLsbD_codewordOf _ _ _ (by omega),
    show 32 * ((8 * (n / 32) + n % 8) / 8) + 8 * (n % 32 / 8) + (8 * (n / 32) + n % 8) % 8 = n by omega] at hc
  rw [BitVec.getLsbD_setWidth, hc, BitVec.getLsbD_setWidth]
  simp [hn, show n < 640 by omega]

theorem getLsbD_checkMask (n : Nat) : checkMask.getLsbD n = decide (512 ≤ n ∧ n < 640) := by
  rw [checkMask, BitVec.getLsbD_ofNat, Nat.testBit_mul_two_pow, Nat.testBit_two_pow_sub_one]
  simp only [← Bool.decide_and, decide_eq_decide]
  omega

/-- The complement of the check symbols leaves the data symbols (R3). -/
theorem encodeLine_setWidth (code : Code) (data : Data) (form : Form) :
    (encodeLine code data form).setWidth 512 = data := by
  cases form with
  | fresh => exact encodeFresh_setWidth code data
  | poison =>
    have hm : checkMask.setWidth 512 = 0 := BitVec.eq_of_getLsbD_eq fun n hn => by
      rw [BitVec.getLsbD_setWidth, getLsbD_checkMask]
      simp [Nat.not_le.2 hn]
    rw [encodeLine, BitVec.setWidth_xor, encodeFresh_setWidth, hm]
    simp

/-- The poison mark complements the check symbols of every codeword and leaves its data symbols (R2, R3). -/
theorem getLsbD_codewordOf_checkMask (k n : Nat) (hk : k < 4) (hn : n < 160) :
    (codewordOf checkMask k).getLsbD n = decide (128 ≤ n) := by
  rw [getLsbD_codewordOf _ _ _ hn, getLsbD_checkMask, decide_eq_decide]
  omega

theorem codewordOf_checkMask_setWidth (k : Nat) (hk : k < 4) : (codewordOf checkMask k).setWidth 128 = 0 :=
  BitVec.eq_of_getLsbD_eq fun n hn => by
    rw [BitVec.getLsbD_setWidth, getLsbD_codewordOf_checkMask k n hk (by omega)]
    simp [Nat.not_le.2 hn]

theorem codewordOf_checkMask_extract (k : Nat) (hk : k < 4) :
    (codewordOf checkMask k).extractLsb' 128 32 = BitVec.allOnes 32 :=
  BitVec.eq_of_getLsbD_eq fun n hn => by
    rw [BitVec.getLsbD_extractLsb', getLsbD_codewordOf_checkMask k _ hk (by omega), BitVec.getLsbD_allOnes]
    simp

/-- Settles O12: the bits of the encoding are those of its codewords, and the code is linear. -/
theorem encodingIsSystematic : Obligations.EncodingIsSystematic := by
  intro code data
  refine ⟨encodeLine_setWidth code data .fresh, encodeLine_setWidth code data .poison, fun k hk d hd b hb => ?_,
    fun k hk => ?_, fun k hk => ?_, encodeWord_xor code⟩
  · rw [encodeLine, codewordOf_encodeFresh _ _ _ hk, getLsbD_encodeWord _ _ _ (by omega), if_pos (by omega),
      BitVec.getLsbD_setWidth, getLsbD_codewordOf _ _ _ (by omega), BitVec.getLsbD_setWidth,
      show 32 * ((8 * d + b) / 8) + 8 * k + (8 * d + b) % 8 = 32 * d + 8 * k + b by omega]
    simp [show 8 * d + b < 128 by omega, show 32 * d + 8 * k + b < 640 by omega]
  · rw [encodeLine, codewordOf_encodeFresh _ _ _ hk, encodeWord_extract, encodeWord_setWidth]
  · rw [encodeLine, codewordOf_xor, codewordOf_encodeFresh _ _ _ hk, BitVec.setWidth_xor, encodeWord_setWidth,
      codewordOf_checkMask_setWidth k hk, BitVec.extractLsb'_xor, encodeWord_extract, codewordOf_checkMask_extract k hk,
      BitVec.xor_allOnes]
    simp

end Sys2Proof.Machine
end

