-- ==== Sys2Proof/Proofs/Solver.lean ====
section
/-! The elimination behind the decoder of R5: solve answers a choice of columns whose exclusive-or is the target, and
answers one whenever there is any. -/

namespace Sys2Proof.Machine

open Sys2Proof

/-- The exclusive-or of the columns that a word chooses, bit n for column n. -/
def combine : List Word32 → Word32 → Word32
  | [], _ => 0
  | v :: rest, c => (if c.getLsbD 0 then v else 0) ^^^ combine rest (c >>> 1)

@[simp] theorem combine_nil (c : Word32) : combine [] c = 0 := rfl

theorem combine_cons (v : Word32) (rest : List Word32) (c : Word32) :
    combine (v :: rest) c = (if c.getLsbD 0 then v else 0) ^^^ combine rest (c >>> 1) := rfl

theorem combine_xor (columns : List Word32) (c d : Word32) :
    combine columns (c ^^^ d) = combine columns c ^^^ combine columns d := by
  induction columns generalizing c d with
  | nil => simp
  | cons v rest ih =>
    rw [combine_cons, combine_cons, combine_cons, BitVec.ushiftRight_xor_distrib, ih, BitVec.getLsbD_xor,
      ite_xor]
    ac_rfl

theorem combine_zero (columns : List Word32) : combine columns 0 = 0 := by
  have h := combine_xor columns 0 0
  simpa using h

/-- Only the bits that number columns count. -/
theorem combine_congr (columns : List Word32) (c d : Word32)
    (h : ∀ n < columns.length, c.getLsbD n = d.getLsbD n) : combine columns c = combine columns d := by
  induction columns generalizing c d with
  | nil => rfl
  | cons v rest ih =>
    rw [combine_cons, combine_cons, h 0 (by simp), ih (c >>> 1) (d >>> 1)]
    intro n hn
    simpa using h (1 + n) (by simp; omega)

theorem combine_append (l m : List Word32) (c : Word32) :
    combine (l ++ m) c = combine l c ^^^ combine m (c >>> l.length) := by
  induction l generalizing c with
  | nil => simp
  | cons v l ih =>
    rw [List.cons_append, combine_cons, combine_cons, ih, BitVec.xor_assoc, List.length_cons, Nat.add_comm,
      BitVec.shiftRight_add]

/-- One bit chooses one column. -/
theorem combine_single (columns : List Word32) (n : Nat) (hn : n < columns.length) (h32 : columns.length ≤ 32) :
    combine columns (BitVec.ofNat 32 (2 ^ n)) = columns[n] := by
  induction columns generalizing n with
  | nil => simp at hn
  | cons v rest ih =>
    simp only [List.length_cons] at hn h32
    rw [combine_cons]
    cases n with
    | zero =>
      have h1 : (1#32) >>> 1 = 0 := by decide
      simpa [h1] using combine_zero rest
    | succ n =>
      have hs : BitVec.ofNat 32 (2 ^ (n + 1)) >>> 1 = BitVec.ofNat 32 (2 ^ n) := by
        refine BitVec.eq_of_getLsbD_eq fun i hi => ?_
        rw [BitVec.getLsbD_ushiftRight, BitVec.getLsbD_ofNat, BitVec.getLsbD_ofNat, Nat.testBit_two_pow,
          Nat.testBit_two_pow, ← Bool.decide_and, ← Bool.decide_and, decide_eq_decide]
        omega
      rw [hs, ih n (by omega) (by omega), BitVec.getLsbD_ofNat, Nat.testBit_two_pow]
      simp

/-! ## Reduction by a basis -/

/-- A vector reduced by a basis, its columns aside. -/
def reduced (basis : List Reduced) (v : Word32) : Word32 := (reduceBy basis v 0).1

theorem reduceBy_cons (r : Reduced) (basis : List Reduced) (v c : Word32) : reduceBy (r :: basis) v c =
    if v.getLsbD r.pivot then reduceBy basis (v ^^^ r.value) (c ^^^ r.columns) else reduceBy basis v c := by
  simp only [reduceBy, List.foldl_cons]
  split <;> rfl

theorem reduceBy_fst (basis : List Reduced) (v c : Word32) : (reduceBy basis v c).1 = reduced basis v := by
  unfold reduced
  induction basis generalizing v c with
  | nil => rfl
  | cons r basis ih =>
    rw [reduceBy_cons, reduceBy_cons]
    split
    · rw [ih, ih _ (0 ^^^ r.columns)]
    · exact ih v c

@[simp] theorem reduced_nil (v : Word32) : reduced [] v = v := rfl

theorem reduced_cons (r : Reduced) (basis : List Reduced) (v : Word32) :
    reduced (r :: basis) v = reduced basis (v ^^^ if v.getLsbD r.pivot then r.value else 0) := by
  rw [reduced, reduceBy_cons]
  split
  · exact reduceBy_fst _ _ _
  · simpa using reduceBy_fst _ _ _

theorem reduced_append (l m : List Reduced) (v : Word32) : reduced (l ++ m) v = reduced m (reduced l v) := by
  induction l generalizing v with
  | nil => rfl
  | cons r l ih => rw [List.cons_append, reduced_cons, reduced_cons, ih]

/-- Reduction is linear. -/
theorem reduced_xor (basis : List Reduced) (v u : Word32) :
    reduced basis (v ^^^ u) = reduced basis v ^^^ reduced basis u := by
  induction basis generalizing v u with
  | nil => rfl
  | cons r basis ih =>
    rw [reduced_cons, reduced_cons, reduced_cons, ← ih, BitVec.getLsbD_xor, ite_xor]
    congr 1
    ac_rfl

theorem reduced_zero (basis : List Reduced) : reduced basis 0 = 0 := by
  have h := reduced_xor basis 0 0
  simpa using h

/-- The vectors of a basis are what their columns combine to. -/
def Reduced.Sound (columns : List Word32) (r : Reduced) : Prop := combine columns r.columns = r.value

/-- A reduction takes out of a vector what it takes into the columns. -/
theorem reduceBy_sound (columns : List Word32) (basis : List Reduced) (h : ∀ r ∈ basis, r.Sound columns)
    (v c : Word32) : (reduceBy basis v c).1 ^^^ combine columns (reduceBy basis v c).2 = v ^^^ combine columns c := by
  induction basis generalizing v c with
  | nil => rfl
  | cons r basis ih =>
    simp only [List.mem_cons, forall_eq_or_imp, Reduced.Sound] at h
    rw [reduceBy_cons]
    split
    · rw [ih h.2, combine_xor, h.1]
      calc v ^^^ r.value ^^^ (combine columns c ^^^ r.value)
          = v ^^^ combine columns c ^^^ (r.value ^^^ r.value) := by ac_rfl
        _ = v ^^^ combine columns c := by simp
    · exact ih h.2 v c

/-! ## A column taken into a basis -/

theorem exists_bit {v : Word32} (h : (List.range 32).find? (fun n => v.getLsbD n) = none) : v = 0 :=
  BitVec.eq_of_getLsbD_eq fun n hn => by
    have := List.find?_eq_none.1 h n (List.mem_range.2 hn)
    simpa using this

/-- A column taken reduces to nothing. -/
theorem addColumn_reduced (basis : List Reduced) (v c : Word32) : reduced (addColumn basis v c) v = 0 := by
  unfold addColumn
  dsimp only
  rw [reduceBy_fst]
  split
  · rename_i p hp
    have hb : (reduced basis v).getLsbD p = true := List.find?_some hp
    rw [reduced_append, reduced_cons, hb]
    simp
  · rename_i hp
    exact exists_bit hp

/-- What a basis reduces to nothing, it does with one column more. -/
theorem addColumn_keeps (basis : List Reduced) (v c u : Word32) (h : reduced basis u = 0) :
    reduced (addColumn basis v c) u = 0 := by
  unfold addColumn
  dsimp only
  split
  · rw [reduced_append, h, reduced_zero]
  · exact h

theorem addColumn_sound (columns : List Word32) (basis : List Reduced) (v c : Word32)
    (h : ∀ r ∈ basis, r.Sound columns) (hc : combine columns c = v) : ∀ r ∈ addColumn basis v c, r.Sound columns := by
  have hr := reduceBy_sound columns basis h v c
  rw [hc, BitVec.xor_self] at hr
  unfold addColumn
  dsimp only
  split
  · intro r hm
    rcases List.mem_append.1 hm with hm | hm
    · exact h r hm
    · rw [List.mem_singleton.1 hm]
      exact (BitVec.xor_eq_zero_iff.1 hr).symm
  · exact h

/-! ## The basis of a list of columns -/

/-- Columns taken one after another are sound, reduce to nothing, and keep what reduced to nothing before. -/
theorem foldl_addColumn (columns : List Word32) (l : List (Word32 × Nat)) (basis : List Reduced)
    (hb : ∀ r ∈ basis, r.Sound columns) (hl : ∀ c ∈ l, combine columns (BitVec.ofNat 32 (2 ^ c.2)) = c.1) :
    let after := l.foldl (fun basis c => addColumn basis c.1 (BitVec.ofNat 32 (2 ^ c.2))) basis
    (∀ r ∈ after, r.Sound columns) ∧ (∀ c ∈ l, reduced after c.1 = 0) ∧
      (∀ u, reduced basis u = 0 → reduced after u = 0) := by
  induction l generalizing basis with
  | nil => exact ⟨hb, by simp, fun _ h => h⟩
  | cons c l ih =>
    simp only [List.mem_cons, forall_eq_or_imp] at hl
    obtain ⟨h1, h2, h3⟩ := ih (addColumn basis c.1 (BitVec.ofNat 32 (2 ^ c.2)))
      (addColumn_sound columns basis _ _ hb hl.1) hl.2
    refine ⟨h1, ?_, fun u hu => h3 u (addColumn_keeps _ _ _ u hu)⟩
    simp only [List.mem_cons, forall_eq_or_imp]
    exact ⟨h3 _ (addColumn_reduced _ _ _), h2⟩

theorem basisOf_spec (columns : List Word32) (h32 : columns.length ≤ 32) :
    (∀ r ∈ basisOf columns, r.Sound columns) ∧ ∀ v ∈ columns, reduced (basisOf columns) v = 0 := by
  obtain ⟨h1, h2, _⟩ := foldl_addColumn columns columns.zipIdx [] (by simp) fun c hc => by
    obtain ⟨hn, hv⟩ := List.mem_zipIdx' hc
    rw [combine_single columns c.2 hn h32, hv]
  refine ⟨h1, fun v hv => ?_⟩
  obtain ⟨n, hn, rfl⟩ := List.getElem_of_mem hv
  exact h2 (columns[n], n) (List.mk_mem_zipIdx_iff_getElem?.2 (by simp [hn]))

/-- Every combination of columns that reduce to nothing reduces to nothing. -/
theorem reduced_combine (basis : List Reduced) (columns : List Word32) (h : ∀ v ∈ columns, reduced basis v = 0)
    (c : Word32) : reduced basis (combine columns c) = 0 := by
  induction columns generalizing c with
  | nil => exact reduced_zero basis
  | cons v rest ih =>
    simp only [List.mem_cons, forall_eq_or_imp] at h
    rw [combine_cons, reduced_xor, ih h.2]
    split
    · simp [h.1]
    · simpa using reduced_zero basis

/-- What solve answers is a solution. -/
theorem solve_sound {columns : List Word32} {target c : Word32} (h32 : columns.length ≤ 32)
    (h : solve columns target = some c) : combine columns c = target := by
  have hr := reduceBy_sound columns (basisOf columns) (basisOf_spec columns h32).1 target 0
  simp only [solve, Option.ite_none_right_eq_some, Option.some.injEq] at h
  rw [h.1, h.2, combine_zero] at hr
  simpa using hr

/-- solve answers whenever there is a solution. -/
theorem solve_complete {columns : List Word32} {c : Word32} (h32 : columns.length ≤ 32) :
    ∃ d, solve columns (combine columns c) = some d := by
  have hr : (reduceBy (basisOf columns) (combine columns c) 0).1 = 0 := by
    rw [reduceBy_fst]
    exact reduced_combine _ columns (basisOf_spec columns h32).2 c
  exact ⟨_, if_pos hr⟩

end Sys2Proof.Machine
end

