-- ==== Sys2Proof/Proofs/Decoder.lean ====
section
/-! The decoder of a codeword (R5): what an answer says of the syndrome, and the two cases in which the answer is known, the
error lying in the erased symbols or in them and one more. -/

namespace Sys2Proof.Machine

open Sys2Proof Sys2Proof.Laws.LineCode

/-! ## Symbols -/

/-- The symbol of a device in a codeword. -/
def symbolIn (w : Codeword) (device : Nat) : Byte := w.extractLsb' (8 * device) 8

/-- A codeword that is zero but for the symbol of one device. -/
def symbolAt (device : Nat) (x : Byte) : Codeword := x.setWidth 160 <<< (8 * device)

/-- A word that is zero outside the symbols of the devices given. -/
def Within (devices : List Nat) (w : Codeword) : Prop := ∀ d < 20, d ∉ devices → symbolIn w d = 0

theorem getLsbD_symbolIn (w : Codeword) (d b : Nat) :
    (symbolIn w d).getLsbD b = (decide (b < 8) && w.getLsbD (8 * d + b)) := by
  simp [symbolIn]

theorem symbolIn_xor (v w : Codeword) (d : Nat) : symbolIn (v ^^^ w) d = symbolIn v d ^^^ symbolIn w d :=
  BitVec.extractLsb'_xor

theorem symbolIn_zero (d : Nat) : symbolIn 0 d = 0 := by simp [symbolIn]

/-- A word is made of its symbols. -/
theorem codeword_ext {v w : Codeword} (h : ∀ d < 20, symbolIn v d = symbolIn w d) : v = w := by
  refine BitVec.eq_of_getLsbD_eq fun n hn => ?_
  have hd := congrArg (fun x : Byte => x.getLsbD (n % 8)) (h (n / 8) (by omega))
  simp only [getLsbD_symbolIn, Nat.div_add_mod] at hd
  simpa [Nat.mod_lt] using hd

theorem symbolIn_symbolAt (d e : Nat) (x : Byte) (he : e < 20) :
    symbolIn (symbolAt d x) e = if e = d then x else 0 := by
  refine BitVec.eq_of_getLsbD_eq fun b hb => ?_
  rw [getLsbD_symbolIn, symbolAt, getLsbD_shifted]
  split
  · rename_i h
    subst h
    simp [hb, show 8 * e + b < 160 by omega]
  · rename_i h
    by_cases hle : 8 * d ≤ 8 * e + b
    · simp [BitVec.getLsbD_of_ge x (8 * e + b - 8 * d) (by omega)]
    · simp [hle]

theorem symbolIn_codewordOf (line : Line) (k d : Nat) (hd : d < 20) :
    symbolIn (codewordOf line k) d = symbolOf line d k := by
  refine BitVec.eq_of_getLsbD_eq fun b hb => ?_
  rw [getLsbD_symbolIn, getLsbD_codewordOf _ _ _ (by omega), getLsbD_symbolOf,
    show 32 * ((8 * d + b) / 8) + 8 * k + (8 * d + b) % 8 = 32 * d + 8 * k + b by omega]

theorem Within.xor {l : List Nat} {v w : Codeword} (hv : Within l v) (hw : Within l w) : Within l (v ^^^ w) :=
  fun d hd hl => by rw [symbolIn_xor, hv d hd hl, hw d hd hl, BitVec.xor_self]; rfl

theorem Within.mono {l m : List Nat} {w : Codeword} (h : Within l w) (hs : l ⊆ m) : Within m w :=
  fun d hd hm => h d hd fun hl => hm (hs hl)

/-- A word within a list of devices has at most as many symbols. -/
theorem Within.weight {l : List Nat} {w : Codeword} (h : Within l w) : symbolWeight w ≤ l.length := by
  rw [symbolWeight, List.countP_eq_length_filter]
  refine (List.subperm_of_subset (List.nodup_range.filter _) fun d hd => ?_).length_le
  rw [List.mem_filter, List.mem_range] at hd
  by_contra hl
  have h0 : w.extractLsb' (8 * d) 8 = 0 := h d hd.1 hl
  simp [h0] at hd

/-! ## The syndrome -/

theorem syndrome_xor (code : Code) (v w : Codeword) : syndrome code (v ^^^ w) = syndrome code v ^^^ syndrome code w := by
  rw [syndrome, syndrome, syndrome, BitVec.setWidth_xor, checkSymbols_xor, BitVec.extractLsb'_xor]
  ac_rfl

/-- A word as it is encoded has the syndrome zero (R2). -/
theorem syndrome_encodeWord (code : Code) (data : BitVec 128) : syndrome code (encodeWord code data) = 0 := by
  rw [syndrome, encodeWord_setWidth, encodeWord_extract, BitVec.xor_self]
  rfl

/-- What a symbol of a device adds to the syndrome. -/
def syndromeAt (code : Code) (device : Nat) (x : Byte) : Word32 := combine (deviceColumns code device) (x.setWidth 32)

theorem combine_map_range (f : Nat → Word32) (n : Nat) (c : Word32) :
    combine ((List.range n).map f) c = xorAll ((List.range n).map fun b => if c.getLsbD b then f b else 0) := by
  induction n with
  | zero => rfl
  | succ n ih =>
    rw [List.range_succ, List.map_append, List.map_append, combine_append, ih, xorAll_append]
    simp [combine_cons]

theorem syndromeAt_eq (code : Code) (d : Nat) (x : Byte) :
    syndromeAt code d x = xorAll ((List.range 8).map fun b => if x.getLsbD b then codeColumn code d b else 0) := by
  rw [syndromeAt, deviceColumns, combine_map_range]
  refine congrArg xorAll (List.map_congr_left fun b hb => ?_)
  rw [BitVec.getLsbD_setWidth]
  simp [show b < 32 by have := List.mem_range.1 hb; omega]

/-- The syndrome of one symbol (R2). -/
theorem syndrome_symbolAt (code : Code) (d : Nat) (x : Byte) (hd : d < 20) :
    syndrome code (symbolAt d x) = syndromeAt code d x := by
  have hsym : ∀ e < 20, (symbolAt d x).extractLsb' (8 * e) 8 = if e = d then x else 0 :=
    fun e he => symbolIn_symbolAt d e x he
  have hbits : (syndromeAt code d x).toNat = chosen (deviceBits code (symbolAt d x) d) := by
    have h := foldl_chosen ((List.range 8).map fun b => (x.getLsbD b, codeColumn code d b)) 0
    rw [List.map_map, List.map_map] at h
    rw [syndromeAt_eq, xorAll]
    refine h.trans ((Nat.zero_xor _).trans (congrArg chosen (List.map_congr_left fun b hb => ?_)))
    have hx := congrArg (fun y : Byte => y.getLsbD b) (hsym d hd)
    simp only [BitVec.getLsbD_extractLsb', List.mem_range.1 hb, decide_true, Bool.true_and, if_true] at hx
    exact Prod.ext hx.symm rfl
  refine BitVec.eq_of_toNat_eq ?_
  rw [hbits, syndrome_chosen, chosen_support]
  by_cases h0 : x = 0
  · have hz : (symbolAt d x).extractLsb' (8 * d) 8 = 0 := by rw [hsym d hd, if_pos rfl, h0]
    have hs := chosen_support code (symbolAt d x) [d]
    rw [List.filter_eq_nil_iff.2 (by simp [hz])] at hs
    rw [List.filter_eq_nil_iff.2 fun e he => by rw [hsym e (List.mem_range.1 he), h0, ite_self]; decide]
    simpa using hs.symm
  · have hf : (List.range 20).filter (fun e => (symbolAt d x).extractLsb' (8 * e) 8 != 0) =
        (List.range 20).filter (fun e => decide (e = d)) := List.filter_congr fun e he => by
      rw [hsym e (List.mem_range.1 he)]
      by_cases h : e = d <;> simp [h, show x ≠ 0#8 from h0]
    have hd1 : ∀ d < 20, (List.range 20).filter (fun e => decide (e = d)) = [d] := by decide
    rw [hf, hd1 d hd, List.flatMap_cons, List.flatMap_nil, List.append_nil]

/-! ## Errors that choices of columns stand for -/

theorem columnsOf_cons (code : Code) (d : Nat) (l : List Nat) :
    columnsOf code (d :: l) = deviceColumns code d ++ columnsOf code l := List.flatMap_cons

theorem columnsOf_length (code : Code) (l : List Nat) : (columnsOf code l).length = 8 * l.length := by
  simp [columnsOf, deviceColumns, List.length_flatMap, Nat.mul_comm]

theorem errorOf_cons (d : Nat) (l : List Nat) (c : Word32) :
    errorOf (d :: l) c = symbolAt d (c.extractLsb' 0 8) ^^^ errorOf l (c >>> 8) := by
  have hz : (d :: l).zipIdx = (d, 0) :: l.zipIdx.map fun p => (p.1, p.2 + 1) := by
    rw [List.zipIdx_cons, List.zipIdx_succ]
  rw [errorOf, hz, List.map_cons, xorAll_cons, List.map_map]
  refine congrArg _ (congrArg xorAll (List.map_congr_left fun p _ => ?_))
  have he : c.extractLsb' (8 * (p.2 + 1)) 8 = (c >>> 8).extractLsb' (8 * p.2) 8 :=
    BitVec.eq_of_getLsbD_eq fun b hb => by
      simp [hb, show 8 * (p.2 + 1) + b = 8 + (8 * p.2 + b) by omega]
  simp only [Function.comp_apply, he]

/-- A choice of the columns of devices has the syndrome of the error it stands for. -/
theorem syndrome_errorOf (code : Code) (l : List Nat) (c : Word32) (hl : ∀ d ∈ l, d < 20) :
    syndrome code (errorOf l c) = combine (columnsOf code l) c := by
  induction l generalizing c with
  | nil =>
    have h0 := syndrome_xor code 0 0
    simpa [errorOf, columnsOf] using h0
  | cons d l ih =>
    simp only [List.mem_cons, forall_eq_or_imp] at hl
    rw [errorOf_cons, syndrome_xor, ih _ hl.2, syndrome_symbolAt _ _ _ hl.1, columnsOf_cons, combine_append]
    congr 1
    · refine combine_congr _ _ _ fun n hn => ?_
      have h8 : n < 8 := by simpa [deviceColumns] using hn
      simp [h8, show n < 32 by omega]

theorem errorOf_within (l : List Nat) (c : Word32) : Within l (errorOf l c) := by
  induction l generalizing c with
  | nil => exact fun d _ _ => symbolIn_zero d
  | cons d l ih =>
    intro e he hm
    simp only [List.mem_cons, not_or] at hm
    rw [errorOf_cons, symbolIn_xor, symbolIn_symbolAt _ _ _ he, if_neg hm.1, ih _ e he hm.2]
    rfl

/-- Every error within at most four devices is that of a choice of their columns. -/
theorem exists_choice (l : List Nat) (w : Codeword) (hw : Within l w) (hn : l.Nodup) (h4 : l.length ≤ 4) :
    ∃ c : Word32, errorOf l c = w ∧ ∀ n, 8 * l.length ≤ n → c.getLsbD n = false := by
  induction l generalizing w with
  | nil =>
    exact ⟨0, codeword_ext fun d hd => by rw [hw d hd (by simp)]; exact symbolIn_zero d, by simp⟩
  | cons d l ih =>
    rw [List.nodup_cons] at hn
    rw [List.length_cons] at h4
    have hw' : Within l (w ^^^ symbolAt d (symbolIn w d)) := fun e he hl => by
      rw [symbolIn_xor, symbolIn_symbolAt _ _ _ he]
      by_cases h : e = d
      · rw [if_pos h, h, BitVec.xor_self]
        rfl
      · rw [if_neg h, hw e he (by simp [h, hl])]
        rfl
    obtain ⟨c, hc, hb⟩ := ih _ hw' hn.2 (by omega)
    have hlow : ((symbolIn w d).setWidth 32 ||| c <<< 8).extractLsb' 0 8 = symbolIn w d :=
      BitVec.eq_of_getLsbD_eq fun b hb => by simp [hb, show b < 32 by omega]
    have hhigh : ((symbolIn w d).setWidth 32 ||| c <<< 8) >>> 8 = c := BitVec.eq_of_getLsbD_eq fun b hb32 => by
      by_cases h : 8 + b < 32
      · simp [h, BitVec.getLsbD_eq_getElem hb32]
      · simp [h, hb b (by omega)]
    refine ⟨(symbolIn w d).setWidth 32 ||| c <<< 8, ?_, fun n hl => ?_⟩
    · rw [errorOf_cons, hlow, hhigh, hc, BitVec.xor_comm, BitVec.xor_assoc, BitVec.xor_self, BitVec.xor_zero]
    · rw [List.length_cons] at hl
      simp [BitVec.getLsbD_of_ge (symbolIn w d) n (by omega), hb (n - 8) (by omega)]

/-! ## A correction at given devices -/

section

variable {code : Code} {l : List Nat} {w : Codeword}

/-- A correction lies within the devices and has the syndrome of the word (R5). -/
theorem correctAt_sound {e : Codeword} (hl : ∀ d ∈ l, d < 20) (h4 : l.length ≤ 4) (h : correctAt code l w = some e) :
    Within l e ∧ syndrome code e = syndrome code w := by
  obtain ⟨c, hc, rfl⟩ := Option.map_eq_some_iff.1 h
  have h32 : (columnsOf code l).length ≤ 32 := by rw [columnsOf_length]; omega
  exact ⟨errorOf_within l c, (syndrome_errorOf code l c hl).trans (solve_sound h32 hc)⟩

/-- There is a correction when an error within the devices has the syndrome of the word (R5). -/
theorem correctAt_complete {e : Codeword} (hl : ∀ d ∈ l, d < 20) (h4 : l.length ≤ 4) (hn : l.Nodup) (he : Within l e)
    (hs : syndrome code e = syndrome code w) : ∃ f, correctAt code l w = some f := by
  obtain ⟨c, rfl, _⟩ := exists_choice l e he hn h4
  have h32 : (columnsOf code l).length ≤ 32 := by rw [columnsOf_length]; omega
  obtain ⟨d, hd⟩ := solve_complete (c := c) h32
  rw [← syndrome_errorOf code l c hl, hs] at hd
  exact ⟨_, by rw [correctAt, hd, Option.map_some]⟩

end

/-! ## The decoder of a codeword (R5) -/

/-- A set of at most two of the twenty devices, none twice (R151). -/
structure ErasureSet (erased : List Nat) : Prop where
  two : erased.length ≤ 2
  nodup : erased.Nodup
  devices : ∀ d ∈ erased, d < 20

section

variable {code : Code} {erased : List Nat} {w : Codeword} (he : ErasureSet erased)
include he

theorem ErasureSet.cons {d : Nat} (hd : d < 20) (hn : d ∉ erased) :
    (∀ e ∈ d :: erased, e < 20) ∧ (d :: erased).Nodup := by
  simp only [List.mem_cons, forall_eq_or_imp, List.nodup_cons]
  exact ⟨⟨hd, he.devices⟩, hn, he.nodup⟩

/-- A consistent codeword: the error lies in the erased symbols. -/
theorem decodeWord_consistent {e : Codeword} (h : decodeWord code erased w = .consistent e) :
    Within erased e ∧ syndrome code e = syndrome code w := by
  have h2 := he.two
  unfold decodeWord at h
  split at h
  · rename_i f hf
    rw [← WordResult.consistent.inj h]
    exact correctAt_sound he.devices (by omega) hf
  · split at h
    · split at h <;> cases h
    · cases h

/-- A located symbol: it is not erased, and the error lies in it and the erased ones, and not in these alone. -/
theorem decodeWord_located {d : Nat} {e : Codeword} (h : decodeWord code erased w = .located d e) :
    erased.length ≤ 1 ∧ d < 20 ∧ d ∉ erased ∧ Within (d :: erased) e ∧ syndrome code e = syndrome code w ∧
      symbolIn e d ≠ 0 := by
  have h2 := he.two
  unfold decodeWord at h
  split at h
  · cases h
  · rename_i hnone
    split at h
    · rename_i h1
      split at h
      · rename_i f g hf
        cases h
        obtain ⟨f, hm, hs⟩ := List.exists_of_findSome?_eq_some hf
        obtain ⟨g, hg, hp⟩ := Option.map_eq_some_iff.1 hs
        cases hp
        simp only [List.mem_filter, List.mem_range, Bool.not_eq_true', List.contains_eq_mem,
          decide_eq_false_iff_not] at hm
        obtain ⟨hd, hn⟩ := hm
        obtain ⟨hw, hy⟩ := correctAt_sound (he.cons hd hn).1 (by simp; omega) hg
        refine ⟨h1, hd, hn, hw, hy, fun h0 => ?_⟩
        have hw' : Within erased e := fun x hx hxe => by
          by_cases hxd : x = d
          · rw [hxd, h0]
          · exact hw x hx (by simp [hxd, hxe])
        obtain ⟨f, hf⟩ := correctAt_complete he.devices (by omega) he.nodup hw' hy
        rw [hf] at hnone
        cases hnone
      · cases h
    · cases h

/-- A failed codeword: no error in the erased symbols has its syndrome, nor one in a symbol more where that is in reach. -/
theorem decodeWord_failed (h : decodeWord code erased w = .failed) {e : Codeword} (hy : syndrome code e = syndrome code w) :
    ¬ Within erased e ∧ (erased.length ≤ 1 → ∀ d < 20, d ∉ erased → ¬ Within (d :: erased) e) := by
  have h2 := he.two
  unfold decodeWord at h
  split at h
  · cases h
  · rename_i hnone
    refine ⟨fun hw => ?_, fun h1 d hd hn hw => ?_⟩
    · obtain ⟨f, hf⟩ := correctAt_complete he.devices (by omega) he.nodup hw hy
      rw [hf] at hnone
      cases hnone
    · rw [if_pos h1] at h
      split at h
      · cases h
      · rename_i hs
        obtain ⟨f, hf⟩ := correctAt_complete (he.cons hd hn).1 (by simp; omega) (he.cons hd hn).2 hw hy
        have := List.findSome?_eq_none_iff.1 hs d (by simp [hd, hn])
        rw [hf] at this
        cases this

end

/-! ## The decoder within the distance of the code -/

/-- No word of weight 1 to 3 has the syndrome of a codeword, as R2 gives it. -/
def Distance (code : Code) : Prop := ∀ w : Codeword, w ≠ 0 → symbolWeight w ≤ 3 → syndrome code w ≠ 0

section

variable {code : Code} (hc : Distance code) {erased : List Nat} (he : ErasureSet erased) {w u : Codeword}
include hc

/-- Within three symbols an error is known by its syndrome. -/
theorem Distance.eq {l : List Nat} {v : Codeword} (hv : Within l v) (hu : Within l u) (h3 : l.length ≤ 3)
    (hs : syndrome code v = syndrome code u) : v = u := by
  by_contra hn
  refine hc (v ^^^ u) (fun h => hn (BitVec.xor_eq_zero_iff.1 h)) ((hv.xor hu).weight.trans h3) ?_
  rw [syndrome_xor, hs, BitVec.xor_self]
  rfl

include he

/-- An error in the erased symbols alone is rebuilt (R5). -/
theorem decodeWord_of_within (hu : Within erased u) (hs : syndrome code u = syndrome code w) :
    decodeWord code erased w = .consistent u := by
  have h2 := he.two
  cases h : decodeWord code erased w with
  | consistent e =>
    obtain ⟨hw, hy⟩ := decodeWord_consistent he h
    rw [hc.eq hw hu (by omega) (hy.trans hs.symm)]
  | located d e =>
    obtain ⟨_, hd, hn, hw, hy, h0⟩ := decodeWord_located he h
    have hu' := hu.mono (List.subset_cons_self d erased)
    rw [hc.eq hw hu' (by simp; omega) (hy.trans hs.symm)] at h0
    exact absurd (hu d hd hn) h0
  | failed => exact absurd hu (decodeWord_failed he h hs).1

/-- An error in one symbol more is located, while at most one device is erased (R5). -/
theorem decodeWord_of_one (h1 : erased.length ≤ 1) {d : Nat} (hd : d < 20) (hn : d ∉ erased)
    (hu : Within (d :: erased) u) (h0 : symbolIn u d ≠ 0) (hs : syndrome code u = syndrome code w) :
    decodeWord code erased w = .located d u := by
  cases h : decodeWord code erased w with
  | consistent e =>
    obtain ⟨hw, hy⟩ := decodeWord_consistent he h
    have hw' := hw.mono (List.subset_cons_self d erased)
    rw [← hc.eq hw' hu (by simp; omega) (hy.trans hs.symm)] at h0
    exact absurd (hw d hd hn) h0
  | located f e =>
    obtain ⟨_, hf, hfn, hw, hy, hf0⟩ := decodeWord_located he h
    have hw' : Within (f :: d :: erased) e := hw.mono (List.cons_subset_cons f (List.subset_cons_self d erased))
    have hu' : Within (f :: d :: erased) u := hu.mono (List.subset_cons_self f _)
    have heu : e = u := hc.eq hw' hu' (by simp; omega) (hy.trans hs.symm)
    subst heu
    have hfd : f = d := by
      by_contra hfd
      exact hf0 (hu f hf (by simp [hfd, hfn]))
    rw [hfd]
  | failed => exact absurd hu ((decodeWord_failed he h hs).2 h1 d hd hn)

end

end Sys2Proof.Machine
end

