-- ==== Sys2Proof/Proofs/LineDecision.lean ====
section
/-! The decision on a line (R5, R6, R8): what its four codewords give together, the complemented view, and with them the
located device (R9, R10) and the guarantee of a decode (R5 to R10). -/

namespace Sys2Proof.Machine

open Sys2Proof

/-! ## What the four codewords give -/

/-- The result of codeword k of a line. -/
def resultAt (code : Code) (erased : List Nat) (line : Line) (k : Nat) : WordResult :=
  decodeWord code erased (codewordOf line k)

theorem decodeWords_eq (code : Code) (erased : List Nat) (line : Line) : decodeWords code erased line =
    { failed := ((List.range 4).map (resultAt code erased line)).contains .failed
      located := (((List.range 4).map (resultAt code erased line)).filterMap WordResult.device?).eraseDups
      error := xorAll ((List.range 4).map fun k => spreadCodeword (resultAt code erased line k).error k) } := rfl

section

variable {code : Code} {erased : List Nat} {line : Line}

theorem decodeWords_failed :
    (decodeWords code erased line).failed = true ↔ ∃ k < 4, resultAt code erased line k = .failed := by
  simp [decodeWords_eq, eq_comm]

theorem mem_located {d : Nat} :
    d ∈ (decodeWords code erased line).located ↔ ∃ k < 4, ∃ e, resultAt code erased line k = .located d e := by
  have hd : ∀ r : WordResult, r.device? = some d ↔ ∃ e, r = .located d e := fun r => by
    cases r <;> simp [WordResult.device?]
  simp [decodeWords_eq, List.mem_eraseDups, hd]

theorem codewordOf_error (k : Nat) (hk : k < 4) :
    codewordOf (decodeWords code erased line).error k = (resultAt code erased line k).error :=
  codewordOf_spread (fun k => (resultAt code erased line k).error) k hk

end

theorem lineResult_eq {r : LineResult} {failed : Bool} {located : List Nat} {error : Line} (hf : r.failed = failed)
    (hl : r.located = located) (he : r.error = error) :
    r = { failed := failed, located := located, error := error } := by
  cases r
  cases hf
  cases hl
  cases he
  rfl

/-- A list whose members are all the same has one member without its repetitions. -/
theorem eraseDups_eq_single {l : List Nat} {d : Nat} (h : ∀ x ∈ l, x = d) (hd : d ∈ l) : l.eraseDups = [d] := by
  cases l with
  | nil => simp at hd
  | cons a l =>
    have ha : a = d := h a (by simp)
    subst ha
    have hn : l.filter (fun b => !b == a) = [] := List.filter_eq_nil_iff.2 fun x hx => by simp [h x (by simp [hx])]
    rw [List.eraseDups_cons, hn, List.eraseDups_nil]

/-! ## Devices of a line -/

/-- The 32 bits that a device gives of a line. -/
def deviceOf (line : Line) (device : Nat) : BitVec 32 := line.extractLsb' (32 * device) 32

theorem deviceOf_xor (a b : Line) (d : Nat) : deviceOf (a ^^^ b) d = deviceOf a d ^^^ deviceOf b d :=
  BitVec.extractLsb'_xor

theorem getLsbD_deviceOf (line : Line) (d b : Nat) :
    (deviceOf line d).getLsbD b = (decide (b < 32) && line.getLsbD (32 * d + b)) := by
  simp [deviceOf]

theorem symbolOf_eq (line : Line) (d k : Nat) (hk : k < 4) : symbolOf line d k = (deviceOf line d).extractLsb' (8 * k) 8 :=
  BitVec.eq_of_getLsbD_eq fun b hb => by
    rw [getLsbD_symbolOf, BitVec.getLsbD_extractLsb', getLsbD_deviceOf, Nat.add_assoc]
    simp [show 8 * k + b < 32 by omega]

/-- A device that differs from 0 has a symbol that does. -/
theorem exists_symbol {line : Line} {d : Nat} (h : deviceOf line d ≠ 0) : ∃ k < 4, symbolOf line d k ≠ 0 := by
  by_contra hn
  push Not at hn
  refine h (BitVec.eq_of_getLsbD_eq fun b hb => ?_)
  have hz := congrArg (fun x : Byte => x.getLsbD (b % 8)) (hn (b / 8) (by omega))
  rw [symbolOf_eq _ _ _ (by omega)] at hz
  simpa [Nat.div_add_mod, Nat.mod_lt, hb] using hz

/-- The codewords of a line lie within the devices outside which it is 0. -/
theorem within_of_devices {line : Line} {l : List Nat} (h : ∀ d < 20, d ∉ l → deviceOf line d = 0) (k : Nat) (hk : k < 4) :
    Within l (codewordOf line k) := fun d hd hl => by
  rw [symbolIn_codewordOf _ _ _ hd, symbolOf_eq _ _ _ hk, h d hd hl]
  simp

/-! ## The bit count (R10) -/

theorem countOnes_le (x n : Nat) : countOnes x n ≤ n := by
  induction n with
  | zero => exact le_refl 0
  | succ n ih =>
    rw [countOnes]
    split <;> omega

theorem countOnes_pos {x n i : Nat} (hi : i < n) (h : x.testBit i = true) : 1 ≤ countOnes x n := by
  induction n with
  | zero => omega
  | succ n ih =>
    rw [countOnes]
    by_cases hn : i = n
    · rw [← hn, if_pos h]
      omega
    · have := ih (by omega)
      omega

theorem bitCountOf_pos {error : Line} {d : Nat} (h : deviceOf error d ≠ 0) : 1 ≤ bitCountOf error d := by
  by_contra hn
  refine h (BitVec.eq_of_getLsbD_eq fun b hb => ?_)
  by_contra hb1
  have hb2 : (deviceOf error d).getLsbD b = true := by simpa using hb1
  exact hn (countOnes_pos hb hb2)

theorem bitCountOf_le (error : Line) (d : Nat) : bitCountOf error d ≤ 32 := countOnes_le _ 32

/-- The error of a line has the symbol of every located device. -/
theorem deviceOf_error {code : Code} {erased : List Nat} {line : Line} (he : ErasureSet erased) {d : Nat}
    (h : d ∈ (decodeWords code erased line).located) : deviceOf (decodeWords code erased line).error d ≠ 0 := fun h0 => by
  obtain ⟨k, hk, e, hr⟩ := mem_located.1 h
  obtain ⟨_, hd, _, _, _, hs⟩ := decodeWord_located he hr
  have hc := codewordOf_error (code := code) (erased := erased) (line := line) k hk
  rw [hr, WordResult.error] at hc
  rw [← hc, symbolIn_codewordOf _ _ _ hd, symbolOf_eq _ _ _ hk, h0] at hs
  simp at hs

/-! ## The located device of a line (R6, R9, R10) -/

theorem ordinaryDecode_located {code : Code} {erased : List Nat} {line : Line} {d bits : Nat}
    (h : (ordinaryDecode code erased line).located = some (d, bits)) :
    erased.length ≤ 1 ∧ d ∈ (decodeWords code erased line).located ∧
      bits = bitCountOf (decodeWords code erased line).error d ∧ (ordinaryDecode code erased line).outcome = .corrected := by
  unfold ordinaryDecode at h ⊢
  dsimp only at h ⊢
  split at h
  · cases h
  · rename_i hr
    rw [if_neg hr]
    cases hl : (decodeWords code erased line).located with
    | nil =>
      rw [hl] at h
      cases h
    | cons e rest =>
      rw [hl] at h hr
      cases h
      refine ⟨?_, by simp, rfl, rfl⟩
      by_contra h1
      simp [reachOf, h1] at hr

theorem poisonTest_located {code : Code} {erased : List Nat} {line : Line} {r : Decoded} {d bits : Nat}
    (hr : poisonTest code erased line = some r) (h : r.located = some (d, bits)) :
    erased.length ≤ 1 ∧ d ∈ (decodeWords code erased (complementedView erased line)).located ∧
      bits = bitCountOf (decodeWords code erased (complementedView erased line)).error d ∧ r.outcome = .poisoned := by
  unfold poisonTest at hr
  dsimp only at hr
  split at hr
  · cases hr
  · split at hr
    · cases hr
      cases h
    · rename_i e hl
      split at hr
      · rename_i h1
        cases hr
        cases h
        exact ⟨h1, by rw [hl]; simp, rfl, rfl⟩
      · cases hr
    · cases hr

/-- A line decode that names a device names a located one, of the line as read or of its complemented view, while one is in
reach. -/
theorem decodeLine_located {code : Code} {erased : List Nat} {line : Line} {d bits : Nat}
    (h : (decodeLine code erased line).located = some (d, bits)) :
    erased.length ≤ 1 ∧ (∃ view, d ∈ (decodeWords code erased view).located ∧
      bits = bitCountOf (decodeWords code erased view).error d) ∧
    ((decodeLine code erased line).outcome = .corrected ∨ (decodeLine code erased line).outcome = .poisoned) := by
  unfold decodeLine at h ⊢
  cases hp : poisonTest code erased line with
  | none =>
    rw [hp, Option.getD_none] at h
    obtain ⟨h1, hm, hb, ho⟩ := ordinaryDecode_located h
    exact ⟨h1, ⟨line, hm, hb⟩, .inl ho⟩
  | some r =>
    rw [hp, Option.getD_some] at h
    obtain ⟨h1, hm, hb, ho⟩ := poisonTest_located hp h
    exact ⟨h1, ⟨_, hm, hb⟩, .inr ho⟩

/-- Settles O13: the located device is that of a codeword, and the error has its symbol. -/
theorem locatedDevicesAreNotErased : Obligations.LocatedDevicesAreNotErased := by
  intro code erased line d bits h2 hn hd h
  have he : ErasureSet erased := ⟨h2, hn, hd⟩
  obtain ⟨h1, ⟨view, hm, hb⟩, ho⟩ := decodeLine_located h
  rw [hb]
  obtain ⟨k, _, e, hr⟩ := mem_located.1 hm
  obtain ⟨_, hd20, hde, _⟩ := decodeWord_located he hr
  exact ⟨hd20, hde, bitCountOf_pos (deviceOf_error he hm), bitCountOf_le _ _, h1, ho⟩

/-! ## Damaged lines -/

/-- The devices not erased that a damage touches. -/
def badDevices (erased : List Nat) (damage : Line) : List Nat :=
  (List.range 20).filter fun d => !erased.contains d && damage.extractLsb' (32 * d) 32 != 0

theorem mem_badDevices {erased : List Nat} {damage : Line} {d : Nat} :
    d ∈ badDevices erased damage ↔ d < 20 ∧ d ∉ erased ∧ deviceOf damage d ≠ 0 := by
  simp [badDevices, deviceOf]

/-- A damage lies within the bad devices and the erased ones. -/
theorem damage_within (erased : List Nat) (damage : Line) (k : Nat) (hk : k < 4) :
    Within (badDevices erased damage ++ erased) (codewordOf damage k) := by
  refine within_of_devices (fun d hd hl => ?_) k hk
  by_contra h0
  simp only [List.mem_append, not_or, mem_badDevices] at hl
  exact hl.1 ⟨hd, hl.2, h0⟩

/-- A line whose every codeword is one of the code (R2). -/
def Valid (code : Code) (line : Line) : Prop := ∀ k < 4, syndrome code (codewordOf line k) = 0

theorem valid_encodeFresh (code : Code) (data : Data) : Valid code (encodeFresh code data) := fun k hk => by
  rw [codewordOf_encodeFresh _ _ _ hk, syndrome_encodeWord]

/-- The syndromes of a damaged line are those of the damage. -/
theorem Valid.syndrome_damaged {code : Code} {line : Line} (h : Valid code line) (damage : Line) (k : Nat) (hk : k < 4) :
    syndrome code (codewordOf damage k) = syndrome code (codewordOf (line ^^^ damage) k) := by
  rw [codewordOf_xor, syndrome_xor, h k hk]
  simp

section

variable {code : Code} {erased : List Nat} (hc : Distance code) (he : ErasureSet erased) {line : Line}
  (hv : Valid code line) {damage : Line}
include hc he hv

/-- Damage of erased devices alone: every codeword is consistent, and the error is the damage (R5). -/
theorem decodeWords_erased (hb : badDevices erased damage = []) :
    decodeWords code erased (line ^^^ damage) = { failed := false, located := [], error := damage } := by
  have hr : ∀ k < 4, resultAt code erased (line ^^^ damage) k = .consistent (codewordOf damage k) := fun k hk => by
    have hw := damage_within erased damage k hk
    rw [hb] at hw
    exact decodeWord_of_within hc he hw (hv.syndrome_damaged damage k hk)
  have hm : (List.range 4).map (resultAt code erased (line ^^^ damage)) =
      (List.range 4).map fun k => .consistent (codewordOf damage k) :=
    List.map_congr_left fun k hk => hr k (List.mem_range.1 hk)
  have hs : ((List.range 4).map fun k => spreadCodeword (resultAt code erased (line ^^^ damage) k).error k) =
      (List.range 4).map fun k => spreadCodeword (codewordOf damage k) k :=
    List.map_congr_left fun k hk => by rw [hr k (List.mem_range.1 hk)]; rfl
  rw [decodeWords_eq, hm, hs, spread_codewordOf]
  rfl

/-- One bad device beside at most one erased one: it is located, and the error is the damage (R5). -/
theorem decodeWords_one (h1 : erased.length ≤ 1) {d : Nat} (hb : badDevices erased damage = [d]) :
    decodeWords code erased (line ^^^ damage) = { failed := false, located := [d], error := damage } := by
  obtain ⟨hd, hde, hd0⟩ := mem_badDevices.1 (hb ▸ List.mem_singleton_self d)
  have hr : ∀ k < 4, resultAt code erased (line ^^^ damage) k =
      if symbolOf damage d k = 0 then .consistent (codewordOf damage k) else .located d (codewordOf damage k) := by
    intro k hk
    have hw := damage_within erased damage k hk
    rw [hb] at hw
    have hs := hv.syndrome_damaged damage k hk
    split
    · rename_i h0
      refine decodeWord_of_within hc he (fun x hx hxe => ?_) hs
      by_cases hxd : x = d
      · rw [hxd, symbolIn_codewordOf _ _ _ hd, h0]
      · exact hw x hx (by simp [hxd, hxe])
    · rename_i h0
      exact decodeWord_of_one hc he h1 hd hde hw (by rwa [symbolIn_codewordOf _ _ _ hd]) hs
  have herr : ∀ k < 4, (resultAt code erased (line ^^^ damage) k).error = codewordOf damage k := fun k hk => by
    rw [hr k hk]
    split <;> rfl
  have hs : ((List.range 4).map fun k => spreadCodeword (resultAt code erased (line ^^^ damage) k).error k) =
      (List.range 4).map fun k => spreadCodeword (codewordOf damage k) k :=
    List.map_congr_left fun k hk => by rw [herr k (List.mem_range.1 hk)]
  have hf : (decodeWords code erased (line ^^^ damage)).failed = false := by
    rw [Bool.eq_false_iff, Ne, decodeWords_failed]
    rintro ⟨k, hk, h⟩
    rw [hr k hk] at h
    split at h <;> cases h
  have hl : (decodeWords code erased (line ^^^ damage)).located = [d] := by
    refine eraseDups_eq_single (fun x hx => ?_) ?_
    · obtain ⟨k, hk, e, h⟩ := mem_located.1 (List.mem_eraseDups.2 hx)
      rw [hr k hk] at h
      split at h <;> cases h
      rfl
    · obtain ⟨k, hk, h0⟩ := exists_symbol hd0
      exact List.mem_eraseDups.1 (mem_located.2 ⟨k, hk, _, (hr k hk).trans (if_neg h0)⟩)
  have herror : (decodeWords code erased (line ^^^ damage)).error = damage := by
    rw [decodeWords_eq, hs, spread_codewordOf]
  exact lineResult_eq hf hl herror

/-- Where no codeword fails, every bad device is located, as long as no four symbols are in question. -/
theorem bad_located (h3 : (badDevices erased damage).length + erased.length ≤ 3)
    (h2 : erased.length ≤ 1 → (badDevices erased damage).length + erased.length ≤ 2)
    (hf : (decodeWords code erased (line ^^^ damage)).failed = false) {d : Nat} (hd : d ∈ badDevices erased damage) :
    erased.length ≤ 1 ∧ d ∈ (decodeWords code erased (line ^^^ damage)).located := by
  obtain ⟨hd20, hde, hd0⟩ := mem_badDevices.1 hd
  obtain ⟨k, hk, h0⟩ := exists_symbol hd0
  rw [← symbolIn_codewordOf _ _ _ hd20] at h0
  have hu := damage_within erased damage k hk
  have hs := hv.syndrome_damaged damage k hk
  cases hr : resultAt code erased (line ^^^ damage) k with
  | consistent e =>
    obtain ⟨hw, hy⟩ := decodeWord_consistent he hr
    have heu := hc.eq (hw.mono (List.subset_append_right _ _)) hu (by simpa using h3) (hy.trans hs.symm)
    exact absurd (heu ▸ hw d hd20 hde) h0
  | located f e =>
    obtain ⟨h1, hf20, hfe, hw, hy, hf0⟩ := decodeWord_located he hr
    have hw' : Within (f :: (badDevices erased damage ++ erased)) e :=
      hw.mono (List.cons_subset_cons f (List.subset_append_right _ _))
    have heu := hc.eq hw' (hu.mono (List.subset_cons_self f _)) (by have := h2 h1; simp; omega) (hy.trans hs.symm)
    subst heu
    have hdf : d = f := by
      by_contra hdf
      exact h0 (hw d hd20 (by simp [hdf, hde]))
    exact ⟨h1, hdf ▸ mem_located.2 ⟨k, hk, _, hr⟩⟩
  | failed => exact absurd hf (by rw [decodeWords_failed.2 ⟨k, hk, hr⟩]; decide)

end

/-! ## The complemented view (R8) -/

/-- The check symbols of the erased check devices: those that the complemented view leaves as they were read. -/
def erasedMask (erased : List Nat) : Line :=
  checkMask ^^^ xorAll (([16, 17, 18, 19].filter fun d => !erased.contains d).map deviceMask)

theorem complementedView_eq (erased : List Nat) (line : Line) :
    complementedView erased line = line ^^^ (checkMask ^^^ erasedMask erased) := by
  rw [complementedView, erasedMask, ← BitVec.xor_assoc checkMask, BitVec.xor_self, BitVec.zero_xor]

theorem getLsbD_deviceMask (d n : Nat) : (deviceMask d).getLsbD n = decide (n < 640 ∧ n / 32 = d) := by
  rw [deviceMask, BitVec.getLsbD_ofNat, Nat.testBit_mul_two_pow, Nat.testBit_two_pow_sub_one]
  simp only [← Bool.decide_and, decide_eq_decide]
  omega

/-- A device that is not erased is wholly complemented when it is a check device, and not at all otherwise. -/
theorem deviceOf_erasedMask {erased : List Nat} {d : Nat} (hd : d < 20) (hde : d ∉ erased) :
    deviceOf (erasedMask erased) d = 0 := by
  refine BitVec.eq_of_getLsbD_eq fun b hb => ?_
  have hn : (32 * d + b) / 32 = d := by omega
  have hmask : (xorAll (([16, 17, 18, 19].filter fun d => !erased.contains d).map deviceMask)).getLsbD (32 * d + b) =
      decide (16 ≤ d) := by
    by_cases h16 : 16 ≤ d
    · rw [getLsbD_xorAll_one deviceMask _ _ d]
      · rw [getLsbD_deviceMask, hn]
        simp [h16, show 32 * d + b < 640 by omega]
      · exact List.Nodup.filter _ (by decide)
      · have hm : d ∈ [16, 17, 18, 19] := by simp; omega
        simp [List.mem_filter, hm, hde]
      · intro e _ hed
        rw [getLsbD_deviceMask, hn]
        simp [Ne.symm hed]
    · rw [getLsbD_xorAll_none]
      · simp [h16]
      · intro e he
        have h4 : e ∈ [16, 17, 18, 19] := List.mem_of_mem_filter he
        have : 16 ≤ e := by simp at h4; omega
        rw [getLsbD_deviceMask, hn]
        simp only [decide_eq_false_iff_not]
        omega
  rw [getLsbD_deviceOf, erasedMask, BitVec.getLsbD_xor, hmask, getLsbD_checkMask]
  by_cases h16 : 16 ≤ d
  · simp [h16, show 512 ≤ 32 * d + b by omega, show 32 * d + b < 640 by omega]
  · simp [h16, show ¬ 512 ≤ 32 * d + b by omega]

theorem erasedMask_within (erased : List Nat) (k : Nat) (hk : k < 4) : Within erased (codewordOf (erasedMask erased) k) :=
  within_of_devices (fun _ hd hde => deviceOf_erasedMask hd hde) k hk

/-- The poison mark in a codeword has the syndrome of the poison pattern (R2). -/
theorem syndrome_checkMask (code : Code) (k : Nat) (hk : k < 4) :
    syndrome code (codewordOf checkMask k) = BitVec.allOnes 32 := by
  have h0 : checkSymbols code 0 = 0 := by
    have h := checkSymbols_xor code 0 0
    simpa using h
  rw [syndrome, codewordOf_checkMask_setWidth k hk, codewordOf_checkMask_extract k hk, h0]
  simp

/-- What the view of a marked line has beside its codewords touches the same devices as the damage. -/
theorem badDevices_view (erased : List Nat) (damage : Line) :
    badDevices erased (damage ^^^ erasedMask erased) = badDevices erased damage := by
  refine List.filter_congr fun d hd => ?_
  by_cases hde : d ∈ erased
  · simp [hde]
  · have h : deviceOf (damage ^^^ erasedMask erased) d = deviceOf damage d := by
      rw [deviceOf_xor, deviceOf_erasedMask (List.mem_range.1 hd) hde]
      simp
    have h' : (damage ^^^ erasedMask erased).extractLsb' (32 * d) 32 = damage.extractLsb' (32 * d) 32 := h
    rw [h']

/-- The view of a line with the poison mark is a fresh line, with the damage but for the erased check devices (R8). -/
theorem complementedView_poison (code : Code) (erased : List Nat) (data : Data) (damage : Line) :
    complementedView erased (encodeLine code data .poison ^^^ damage) =
      encodeFresh code data ^^^ (damage ^^^ erasedMask erased) := by
  rw [complementedView_eq, encodeLine]
  generalize encodeFresh code data = fresh, checkMask = mark, erasedMask erased = kept
  calc fresh ^^^ mark ^^^ damage ^^^ (mark ^^^ kept) = (mark ^^^ mark) ^^^ (fresh ^^^ (damage ^^^ kept)) := by ac_rfl
    _ = fresh ^^^ (damage ^^^ kept) := by rw [BitVec.xor_self, BitVec.zero_xor]

/-- A fresh line is not taken for one with the poison mark, as long as no four symbols are in question (R2, R8). -/
theorem poisonTest_fresh {code : Code} {erased : List Nat} (he : ErasureSet erased)
    (hp : ∀ w : Codeword, symbolWeight w ≤ 3 → syndrome code w ≠ BitVec.allOnes 32) (data : Data) (damage : Line)
    (h3 : (badDevices erased damage).length + erased.length ≤ 3)
    (h2 : erased.length ≤ 1 → (badDevices erased damage).length + erased.length ≤ 2) :
    poisonTest code erased (encodeFresh code data ^^^ damage) = none := by
  have hu : Within (badDevices erased damage ++ erased) (codewordOf (damage ^^^ erasedMask erased) 0) := by
    rw [codewordOf_xor]
    exact (damage_within erased damage 0 (by decide)).xor
      ((erasedMask_within erased 0 (by decide)).mono (List.subset_append_right _ _))
  have hsyn : ∀ e, syndrome code e =
      syndrome code (codewordOf (complementedView erased (encodeFresh code data ^^^ damage)) 0) →
      syndrome code (e ^^^ codewordOf (damage ^^^ erasedMask erased) 0) = BitVec.allOnes 32 := fun e h => by
    have hview : complementedView erased (encodeFresh code data ^^^ damage) =
        encodeFresh code data ^^^ ((damage ^^^ erasedMask erased) ^^^ checkMask) := by
      rw [complementedView_eq, BitVec.xor_assoc, BitVec.xor_assoc damage, BitVec.xor_comm checkMask]
    rw [hview, ← (valid_encodeFresh code data).syndrome_damaged _ 0 (by decide), codewordOf_xor _ checkMask,
      syndrome_xor, syndrome_checkMask _ 0 (by decide)] at h
    rw [syndrome_xor, h, BitVec.xor_comm (syndrome code _), BitVec.xor_assoc, BitVec.xor_self, BitVec.xor_zero]
  have hfail : resultAt code erased (complementedView erased (encodeFresh code data ^^^ damage)) 0 = .failed := by
    cases hr : resultAt code erased (complementedView erased (encodeFresh code data ^^^ damage)) 0 with
    | consistent e =>
      obtain ⟨hw, hy⟩ := decodeWord_consistent he hr
      have hwu := (hw.mono (List.subset_append_right _ _)).xor hu
      exact absurd (hsyn e hy) (hp _ (hwu.weight.trans (by simpa using h3)))
    | located f e =>
      obtain ⟨h1, _, _, hw, hy, _⟩ := decodeWord_located he hr
      have hw' : Within (f :: (badDevices erased damage ++ erased)) e :=
        hw.mono (List.cons_subset_cons f (List.subset_append_right _ _))
      have hwu := hw'.xor (hu.mono (List.subset_cons_self f _))
      exact absurd (hsyn e hy) (hp _ (hwu.weight.trans (by have := h2 h1; simp; omega)))
    | failed => rfl
  simp only [poisonTest, decodeWords_failed.2 ⟨0, by decide, hfail⟩, if_true]

/-! ## The guarantee (R5 to R10) -/

/-- With one device more than the reach in error, still no four symbols are in question. -/
theorem beyond_lengths {bad erased : List Nat}
    (hb : bad.length = 1 ∧ erased.length = 2 ∨ bad.length = 2 ∧ erased = []) :
    bad.length + erased.length ≤ 3 ∧ (erased.length ≤ 1 → bad.length + erased.length ≤ 2) := by
  have h0 : bad.length = 1 ∧ erased.length = 2 ∨ bad.length = 2 ∧ erased.length = 0 :=
    hb.imp_right fun h => ⟨h.1, by rw [h.2]; rfl⟩
  omega

/-- With one device more than the reach in error, the ordinary decode is UNCORRECTABLE (R6). -/
theorem ordinaryDecode_beyond {code : Code} {erased : List Nat} (hc : Distance code) (he : ErasureSet erased) {data : Data}
    {damage : Line} (hb : (badDevices erased damage).length = 1 ∧ erased.length = 2 ∨
      (badDevices erased damage).length = 2 ∧ erased = []) :
    ordinaryDecode code erased (encodeFresh code data ^^^ damage) =
      { outcome := .uncorrectable, data := (encodeFresh code data ^^^ damage).setWidth 512, located := none } := by
  obtain ⟨h3, h2⟩ := beyond_lengths hb
  have hu : ((decodeWords code erased (encodeFresh code data ^^^ damage)).failed ||
      decide (reachOf erased < (decodeWords code erased (encodeFresh code data ^^^ damage)).located.length)) = true := by
    cases hf : (decodeWords code erased (encodeFresh code data ^^^ damage)).failed with
    | true => rfl
    | false =>
      have hbl := fun d => bad_located hc he (valid_encodeFresh code data) h3 h2 hf (d := d)
      have hlen : (badDevices erased damage).length ≤
          (decodeWords code erased (encodeFresh code data ^^^ damage)).located.length :=
        (List.subperm_of_subset (List.nodup_range.filter _) fun d hd => (hbl d hd).2).length_le
      rcases hb with ⟨h, h'⟩ | ⟨h, rfl⟩
      · obtain ⟨d, hd⟩ := List.exists_mem_of_length_pos (show 0 < (badDevices erased damage).length by omega)
        have := (hbl d hd).1
        omega
      · rw [Bool.false_or, decide_eq_true_eq]
        have hr : reachOf [] = 1 := rfl
        omega
  simp only [ordinaryDecode, hu, if_true]

/-- Settles O14: a fresh line passes the poison test by and is decoded as it stands, and the view of a line with the poison
mark is a fresh line. -/
theorem decodeKeepsItsGuarantee : Obligations.DecodeKeepsItsGuarantee := by
  refine ⟨fun code erased data damage hp h2 hn hd => ?_, fun code erased data damage hc h2 hn hd => ?_⟩
  · have he : ErasureSet erased := ⟨h2, hn, hd⟩
    have hc : Distance code := fun w h0 h3 => (hp w h0 h3).1
    have hmark : ∀ w : Codeword, symbolWeight w ≤ 3 → syndrome code w ≠ BitVec.allOnes 32 := fun w h3 => by
      by_cases h0 : w = 0
      · have hz := syndrome_xor code 0 0
        rw [BitVec.xor_self, BitVec.xor_self] at hz
        rw [h0]
        exact fun h => absurd (hz.symm.trans h) (by decide)
      · exact (hp w h0 h3).2
    have hv := valid_encodeFresh code data
    show (badDevices erased damage = [] → _) ∧ (∀ d, badDevices erased damage = [d] → _) ∧ (_ → _)
    refine ⟨fun hb => ?_, fun d hb h1 => ?_, fun hb => ?_⟩
    · have ht := poisonTest_fresh he hmark data damage (by simp [hb]; omega) (by simp [hb]; omega)
      rw [encodeLine, decodeLine, ht, Option.getD_none, ordinaryDecode, decodeWords_erased hc he hv hb]
      simp [encodeFresh_setWidth]
    · have ht := poisonTest_fresh he hmark data damage (by simp [hb]; omega) (by simp [hb]; omega)
      rw [encodeLine, decodeLine, ht, Option.getD_none, ordinaryDecode, decodeWords_one hc he hv h1 hb]
      simp [encodeFresh_setWidth, reachOf, h1, bitCountOf]
    · have ht := poisonTest_fresh he hmark data damage (beyond_lengths hb).1 (beyond_lengths hb).2
      rw [encodeLine, decodeLine, ht, Option.getD_none, ordinaryDecode_beyond hc he hb]
  · have he : ErasureSet erased := ⟨h2, hn, hd⟩
    have hv := valid_encodeFresh code data
    have hview := complementedView_poison code erased data damage
    have hbv := badDevices_view erased damage
    show (badDevices erased damage = [] → _) ∧ (∀ d, badDevices erased damage = [d] → _)
    refine ⟨fun hb => ?_, fun d hb h1 => ?_⟩
    · rw [decodeLine, poisonTest, hview, decodeWords_erased hc he hv (hbv.trans hb)]
      simp [encodeFresh_setWidth]
    · obtain ⟨hd20, hde, _⟩ := mem_badDevices.1 (hb ▸ List.mem_singleton_self d)
      have hdev : (damage ^^^ erasedMask erased).extractLsb' (32 * d) 32 = damage.extractLsb' (32 * d) 32 := by
        have h := deviceOf_xor damage (erasedMask erased) d
        rw [deviceOf_erasedMask hd20 hde] at h
        simpa [deviceOf] using h
      rw [decodeLine, poisonTest, hview, decodeWords_one hc he hv h1 (hbv.trans hb)]
      simp [encodeFresh_setWidth, h1, bitCountOf, hdev]

end Sys2Proof.Machine
end

