-- ==== Sys2Proof/Proofs/Remap.lean ====
section
/-! The Remap Table and the repair queue (R134, R137): what the invariant says of slots and jobs alone, and what each change
of a slot or of the queue does to it. -/

namespace Sys2Proof.Machine

open Sys2Proof

/-! ## Slots -/

/-- Banks of a rank and slots of a bank have keys of their own. -/
theorem slotKey_inj {rank bank k rank' bank' k' : Nat} (hb : bank < 16) (hb' : bank' < 16) (hk : k < 32) (hk' : k' < 32) :
    slotKey rank bank k = slotKey rank' bank' k' ↔ rank = rank' ∧ bank = bank' ∧ k = k' := by
  unfold slotKey bankKey
  omega

/-- The table's list after a slot has taken a state (R134). -/
theorem get_setSlot {s : State} (h : AMap.rising s.repair.slots = true) (rank bank k : Nat) (v : Slot) (key : Nat) :
    (AMap.get? (setSlot rank bank k v s).repair.slots key).getD .free =
      if key = slotKey rank bank k then v else (AMap.get? s.repair.slots key).getD .free := by
  unfold setSlot
  by_cases hv : v = .free
  · rw [if_pos hv, AMap.get_erase _ _ _ h]
    split
    · exact hv.symm
    · rfl
  · rw [if_neg hv, AMap.get_insert]
    split <;> rfl

/-- A slot read after one has taken a state (R134). -/
theorem slotAt_setSlot {s : State} (h : AMap.rising s.repair.slots = true) (rank bank k : Nat) (v : Slot)
    (rank' bank' k' : Nat) : slotAt (setSlot rank bank k v s) rank' bank' k' =
      if slotKey rank' bank' k' = slotKey rank bank k then v else slotAt s rank' bank' k' :=
  get_setSlot h rank bank k v (slotKey rank' bank' k')

theorem setSlot_rising {s : State} (h : AMap.rising s.repair.slots = true) (rank bank k : Nat) (v : Slot) :
    AMap.rising (setSlot rank bank k v s).repair.slots = true :=
  (setSlot_inner rank bank k v s).2.2.2.2.2.2.2.2.1 h

/-- A slot that names a row and is filled from nothing is ACTIVE. -/
theorem Slot.eq_active {v : Slot} {l : Nat} : v = .active l ↔ v.names? = some l ∧ v.target? = none := by
  cases v with
  | free => simp [Slot.names?]
  | reserved t => simp [Slot.target?]
  | copying t c => simp [Slot.target?]
  | active m => simp [Slot.names?, Slot.target?]
  | dead => simp [Slot.names?]

/-- The logical row a target names by its own field. -/
def SlotTarget.names? : SlotTarget → Option Nat
  | .row l => some l
  | .move _ => none

/-- A slot being filled names what its target names. -/
theorem Slot.names_of_target {v : Slot} {t : SlotTarget} (h : v.target? = some t) : v.names? = t.names? := by
  cases v with
  | reserved u =>
    cases Option.some.inj h
    cases t <;> rfl
  | copying u c =>
    cases Option.some.inj h
    cases t <;> rfl
  | free => cases h
  | active m => cases h
  | dead => cases h

/-! ## The invariant -/

/-- What the Remap Table knows of a repair job. -/
structure JobKey where
  rank : Nat
  bank : Nat
  logical : Nat
  target : Nat

/-- The key of a job. -/
def Job.key (j : Job) : JobKey := { rank := j.rank, bank := j.bank, logical := j.logical, target := j.target }

/-- What the slot of a job is filled from (R134, R146). -/
def JobKey.Filled (spares : Nat) (slot : Nat → Nat → Nat → Slot) (j : JobKey) (t : SlotTarget) : Prop :=
  t = .row j.logical ∨ ∃ k < spares, t = .move k ∧ slot j.rank j.bank k = .active j.logical

/-- RemapLegal, said of the slots and the keys of the jobs. -/
structure RemapInv (spares : Nat) (slot : Nat → Nat → Nat → Slot) (jobs : List JobKey) : Prop where
  few : spares ≤ 32
  named : ∀ rank, ∀ bank < 16, ∀ k < spares, ∀ m < spares, ∀ l,
    (slot rank bank k).names? = some l → (slot rank bank m).names? = some l → k = m
  filled : ∀ rank, ∀ bank < 16, ∀ k < spares, (slot rank bank k).target?.isSome →
    ∃ j ∈ jobs, j.rank = rank ∧ j.bank = bank ∧ j.target = k
  job : ∀ j ∈ jobs, j.bank < 16 ∧ j.target < spares ∧
    ∃ t, (slot j.rank j.bank j.target).target? = some t ∧ j.Filled spares slot t
  rows : (jobs.map fun j => (j.rank, j.bank, j.logical)).Nodup
  slots : (jobs.map fun j => (j.rank, j.bank, j.target)).Nodup

theorem remapLegal_iff (s : State) :
    RemapLegal s ↔ RemapInv s.port.geom.spares (slotAt s) (s.repair.jobs.map Job.key) := by
  constructor
  · rintro ⟨h1, h2, h3, h4, h5, h6⟩
    refine ⟨h1, h2, fun rank bank hb k hk ht => ?_, fun j hj => ?_, ?_, ?_⟩
    · obtain ⟨j, hj, hjr⟩ := h3 rank bank hb k hk ht
      exact ⟨j.key, List.mem_map_of_mem hj, hjr⟩
    · obtain ⟨i, hi, rfl⟩ := List.mem_map.1 hj
      exact h4 i hi
    · rw [List.map_map]
      exact h5
    · rw [List.map_map]
      exact h6
  · rintro ⟨h1, h2, h3, h4, h5, h6⟩
    refine ⟨h1, h2, fun rank bank hb k hk ht => ?_, fun j hj => h4 j.key (List.mem_map_of_mem hj), ?_, ?_⟩
    · obtain ⟨j, hj, hjr⟩ := h3 rank bank hb k hk ht
      obtain ⟨i, hi, rfl⟩ := List.mem_map.1 hj
      exact ⟨i, hi, hjr⟩
    · rw [List.map_map] at h5
      exact h5
    · rw [List.map_map] at h6
      exact h6

/-- Slots that name and are filled from the same things leave the invariant as it was. -/
theorem RemapInv.congr {spares : Nat} {slot slot' : Nat → Nat → Nat → Slot} {jobs : List JobKey}
    (h : RemapInv spares slot jobs) (hs : ∀ rank, ∀ bank < 16, ∀ k < spares,
      (slot' rank bank k).names? = (slot rank bank k).names? ∧ (slot' rank bank k).target? = (slot rank bank k).target?) :
    RemapInv spares slot' jobs := by
  refine ⟨h.few, fun rank bank hb k hk m hm l => ?_, fun rank bank hb k hk => ?_, fun j hj => ?_, h.rows, h.slots⟩
  · rw [(hs rank bank hb k hk).1, (hs rank bank hb m hm).1]
    exact h.named rank bank hb k hk m hm l
  · rw [(hs rank bank hb k hk).2]
    exact h.filled rank bank hb k hk
  · obtain ⟨hb, ht, t, he, hf⟩ := h.job j hj
    refine ⟨hb, ht, t, (hs _ _ hb _ ht).2.trans he, hf.imp_right ?_⟩
    rintro ⟨k, hk, hm, ha⟩
    obtain ⟨h1, h2⟩ := hs j.rank j.bank hb k hk
    rw [Slot.eq_active] at ha
    exact ⟨k, hk, hm, Slot.eq_active.2 ⟨h1.trans ha.1, h2.trans ha.2⟩⟩

/-- One slot of a table of slots replaced. -/
def replaced (slot : Nat → Nat → Nat → Slot) (rank bank k : Nat) (v : Slot) : Nat → Nat → Nat → Slot :=
  fun rank' bank' k' => if rank' = rank ∧ bank' = bank ∧ k' = k then v else slot rank' bank' k'

theorem replaced_same (slot : Nat → Nat → Nat → Slot) (rank bank k : Nat) (v : Slot) :
    replaced slot rank bank k v rank bank k = v := if_pos ⟨rfl, rfl, rfl⟩

theorem replaced_other {slot : Nat → Nat → Nat → Slot} {rank bank k rank' bank' k' : Nat} {v : Slot}
    (h : ¬ (rank' = rank ∧ bank' = bank ∧ k' = k)) : replaced slot rank bank k v rank' bank' k' = slot rank' bank' k' :=
  if_neg h

/-- The slots after one has taken a state. -/
theorem RemapInv.of_setSlot {s : State} (h : AMap.rising s.repair.slots = true) {rank bank k : Nat} {v : Slot}
    (hb : bank < 16) (hk : k < s.port.geom.spares) {jobs : List JobKey}
    (hi : RemapInv s.port.geom.spares (replaced (slotAt s) rank bank k v) jobs) :
    RemapInv s.port.geom.spares (slotAt (setSlot rank bank k v s)) jobs := by
  refine hi.congr fun rank' bank' hb' k' hk' => ?_
  have hf := hi.few
  have he : slotAt (setSlot rank bank k v s) rank' bank' k' = replaced (slotAt s) rank bank k v rank' bank' k' := by
    simp only [slotAt_setSlot h, slotKey_inj hb' hb (show k' < 32 by omega) (show k < 32 by omega), replaced]
  rw [he]
  exact ⟨rfl, rfl⟩

section

variable {spares : Nat} {slot : Nat → Nat → Nat → Slot} {jobs : List JobKey} (h : RemapInv spares slot jobs)
include h

/-- A slot that goes on being filled from the same target (R140, R141). -/
theorem RemapInv.advance {rank bank k : Nat} {v : Slot} {t : SlotTarget} (ht : (slot rank bank k).target? = some t)
    (hv : v.target? = some t) : RemapInv spares (replaced slot rank bank k v) jobs := by
  refine h.congr fun rank' bank' _ k' _ => ?_
  by_cases he : rank' = rank ∧ bank' = bank ∧ k' = k
  · obtain ⟨rfl, rfl, rfl⟩ := he
    rw [replaced_same, Slot.names_of_target hv, Slot.names_of_target ht, hv, ht]
    exact ⟨rfl, rfl⟩
  · rw [replaced_other he]
    exact ⟨rfl, rfl⟩

/-- A FREE slot that comes to be filled from nothing, naming a row that no slot of its bank names, or none (R148, R149). -/
theorem RemapInv.occupy {rank bank k : Nat} {v : Slot} (hf : slot rank bank k = .free) (hv : v.target? = none)
    (hn : ∀ l, v.names? = some l → ∀ m < spares, (slot rank bank m).names? ≠ some l) :
    RemapInv spares (replaced slot rank bank k v) jobs := by
  refine ⟨h.few, fun rank' bank' hb' m hm n hn' l => ?_, fun rank' bank' hb' m hm => ?_, fun j hj => ?_, h.rows, h.slots⟩
  · by_cases h1 : rank' = rank ∧ bank' = bank ∧ m = k
    · obtain ⟨rfl, rfl, rfl⟩ := h1
      by_cases h2 : n = m
      · exact fun _ _ => h2.symm
      · rw [replaced_same, replaced_other (by simp [h2])]
        exact fun h3 h4 => absurd h4 (hn l h3 n hn')
    · rw [replaced_other h1]
      by_cases h2 : rank' = rank ∧ bank' = bank ∧ n = k
      · obtain ⟨rfl, rfl, rfl⟩ := h2
        rw [replaced_same]
        exact fun h3 h4 => absurd h3 (hn l h4 m hm)
      · rw [replaced_other h2]
        exact h.named rank' bank' hb' m hm n hn' l
  · by_cases h1 : rank' = rank ∧ bank' = bank ∧ m = k
    · obtain ⟨rfl, rfl, rfl⟩ := h1
      rw [replaced_same, hv]
      simp
    · rw [replaced_other h1]
      exact h.filled rank' bank' hb' m hm
  · obtain ⟨hb, ht, t, he, hfill⟩ := h.job j hj
    have keep : ∀ m u, slot j.rank j.bank m = u → u ≠ .free → replaced slot rank bank k v j.rank j.bank m = u := by
      intro m u hu hne
      rw [replaced_other, hu]
      rintro ⟨h1, h2, h3⟩
      rw [h1, h2, h3, hf] at hu
      exact hne hu.symm
    refine ⟨hb, ht, t, ?_, hfill.imp_right ?_⟩
    · rw [keep _ _ rfl (by intro h0; rw [h0] at he; cases he), he]
    · rintro ⟨m, hm, hmv, ha⟩
      exact ⟨m, hm, hmv, keep m _ ha (by simp)⟩

/-- A FREE slot reserved for a logical row with no job, filled from that row while no slot names it, and else by a move from
the slot that serves it (R138, R146). -/
theorem RemapInv.reserve {rank bank k logical : Nat} {t : SlotTarget} (hb : bank < 16) (hk : k < spares)
    (hf : slot rank bank k = .free)
    (hj : ∀ j ∈ jobs, ¬ (j.rank = rank ∧ j.bank = bank ∧ j.logical = logical))
    (ht : t = .row logical ∧ (∀ m < spares, slot rank bank m ≠ .active logical) ∨
      ∃ m < spares, t = .move m ∧ slot rank bank m = .active logical) :
    RemapInv spares (replaced slot rank bank k (.reserved t))
      (jobs ++ [{ rank := rank, bank := bank, logical := logical, target := k }]) := by
  have hfree : ∀ j ∈ jobs, ¬ (j.rank = rank ∧ j.bank = bank ∧ j.target = k) := by
    rintro j hjm ⟨rfl, rfl, rfl⟩
    obtain ⟨_, _, u, hu, _⟩ := h.job j hjm
    rw [hf] at hu
    cases hu
  have keep : ∀ rank' bank' m u, slot rank' bank' m = u → u ≠ .free →
      replaced slot rank bank k (.reserved t) rank' bank' m = u := by
    intro rank' bank' m u hu hne
    rw [replaced_other, hu]
    rintro ⟨rfl, rfl, rfl⟩
    exact hne (hu.symm.trans hf)
  have hnew : ∀ l, (Slot.reserved t).names? = some l → ∀ m < spares, (slot rank bank m).names? ≠ some l := by
    rintro l hl m hm hml
    rcases ht with ⟨rfl, hact⟩ | ⟨n, _, rfl, _⟩
    · cases Option.some.inj hl
      cases htm : (slot rank bank m).target? with
      | none => exact hact m hm (Slot.eq_active.2 ⟨hml, htm⟩)
      | some u =>
        obtain ⟨j, hjm, h1, h2, h3⟩ := h.filled rank bank hb m hm (by simp [htm])
        obtain ⟨_, _, w, hw, hfill⟩ := h.job j hjm
        rw [h1, h2, h3, htm] at hw
        cases Option.some.inj hw
        rcases hfill with rfl | ⟨n, _, rfl, _⟩
        · rw [Slot.names_of_target htm] at hml
          exact hj j hjm ⟨h1, h2, Option.some.inj hml⟩
        · rw [Slot.names_of_target htm] at hml
          cases hml
    · cases hl
  refine ⟨h.few, fun rank' bank' hb' m hm n hn l => ?_, fun rank' bank' hb' m hm hs => ?_, fun j hjm => ?_, ?_, ?_⟩
  · by_cases h1 : rank' = rank ∧ bank' = bank ∧ m = k
    · obtain ⟨rfl, rfl, rfl⟩ := h1
      by_cases h2 : n = m
      · exact fun _ _ => h2.symm
      · rw [replaced_same, replaced_other (by simp [h2])]
        exact fun h3 h4 => absurd h4 (hnew l h3 n hn)
    · rw [replaced_other h1]
      by_cases h2 : rank' = rank ∧ bank' = bank ∧ n = k
      · obtain ⟨rfl, rfl, rfl⟩ := h2
        rw [replaced_same]
        exact fun h3 h4 => absurd h3 (hnew l h4 m hm)
      · rw [replaced_other h2]
        exact h.named rank' bank' hb' m hm n hn l
  · by_cases h1 : rank' = rank ∧ bank' = bank ∧ m = k
    · obtain ⟨rfl, rfl, rfl⟩ := h1
      exact ⟨_, List.mem_append_right _ (List.mem_singleton_self _), rfl, rfl, rfl⟩
    · rw [replaced_other h1] at hs
      obtain ⟨j, hjm, hjr⟩ := h.filled rank' bank' hb' m hm hs
      exact ⟨j, by simp [hjm], hjr⟩
  · rcases List.mem_append.1 hjm with hjm | hjm
    · obtain ⟨hjb, hjt, u, hu, hfill⟩ := h.job j hjm
      refine ⟨hjb, hjt, u, ?_, hfill.imp_right ?_⟩
      · rw [replaced_other (hfree j hjm), hu]
      · rintro ⟨m, hm, hmv, ha⟩
        exact ⟨m, hm, hmv, keep _ _ m _ ha (by simp)⟩
    · rw [List.mem_singleton.1 hjm]
      refine ⟨hb, hk, t, by rw [replaced_same]; rfl, ?_⟩
      rcases ht with ⟨rfl, _⟩ | ⟨m, hm, rfl, ha⟩
      · exact .inl rfl
      · exact .inr ⟨m, hm, rfl, keep _ _ m _ ha (by simp)⟩
  · rw [List.map_append, List.nodup_append]
    refine ⟨h.rows, by simp, ?_⟩
    simp only [List.mem_map, List.map_cons, List.map_nil, List.mem_singleton]
    rintro _ ⟨j, hjm, rfl⟩ _ rfl
    simpa using hj j hjm
  · rw [List.map_append, List.nodup_append]
    refine ⟨h.slots, by simp, ?_⟩
    simp only [List.mem_map, List.map_cons, List.map_nil, List.mem_singleton]
    rintro _ ⟨j, hjm, rfl⟩ _ rfl
    simpa using hfree j hjm

end

/-- The running copy completes: its slot names its row and no other slot of the bank does, the slot that served the row
being DEAD, and its job leaves the queue (R145, R146). -/
theorem RemapInv.complete {spares : Nat} {slot slot' : Nat → Nat → Nat → Slot} {j : JobKey} {rest : List JobKey}
    (h : RemapInv spares slot (j :: rest)) (hself : slot' j.rank j.bank j.target = .active j.logical)
    (hother : ∀ rank bank k, ¬ (rank = j.rank ∧ bank = j.bank ∧ k = j.target) → slot' rank bank k = slot rank bank k ∨
      (rank = j.rank ∧ bank = j.bank) ∧ slot rank bank k = .active j.logical ∧ slot' rank bank k = .dead)
    (hnone : ∀ m < spares, m ≠ j.target → (slot' j.rank j.bank m).names? ≠ some j.logical) :
    RemapInv spares slot' rest := by
  have hrow : ∀ i ∈ rest, ¬ (i.rank = j.rank ∧ i.bank = j.bank ∧ i.logical = j.logical) := by
    rintro i hi ⟨h1, h2, h3⟩
    exact (List.nodup_cons.1 h.rows).1 (List.mem_map.2 ⟨i, hi, by rw [h1, h2, h3]⟩)
  have hslot : ∀ i ∈ rest, ¬ (i.rank = j.rank ∧ i.bank = j.bank ∧ i.target = j.target) := by
    rintro i hi ⟨h1, h2, h3⟩
    exact (List.nodup_cons.1 h.slots).1 (List.mem_map.2 ⟨i, hi, by rw [h1, h2, h3]⟩)
  have hnames : ∀ rank bank m l, ¬ (rank = j.rank ∧ bank = j.bank ∧ m = j.target) →
      (slot' rank bank m).names? = some l → (slot rank bank m).names? = some l := by
    intro rank bank m l hne hl
    rcases hother rank bank m hne with he | ⟨_, _, hd⟩
    · rwa [he] at hl
    · rw [hd] at hl
      cases hl
  have htarget : ∀ rank bank m t, ¬ (rank = j.rank ∧ bank = j.bank ∧ m = j.target) →
      ((slot' rank bank m).target? = some t ↔ (slot rank bank m).target? = some t) := by
    intro rank bank m t hne
    rcases hother rank bank m hne with he | ⟨_, ha, hd⟩
    · rw [he]
    · rw [ha, hd]
      exact ⟨nofun, nofun⟩
  refine ⟨h.few, fun rank bank hb m hm n hn l h1 h2 => ?_, fun rank bank hb m hm hs => ?_, fun i hi => ?_,
    (List.nodup_cons.1 h.rows).2, (List.nodup_cons.1 h.slots).2⟩
  · by_cases hjm : rank = j.rank ∧ bank = j.bank ∧ m = j.target
    · obtain ⟨rfl, rfl, rfl⟩ := hjm
      rw [hself] at h1
      cases Option.some.inj h1
      by_contra hmn
      exact hnone n hn (Ne.symm hmn) h2
    · by_cases hjn : rank = j.rank ∧ bank = j.bank ∧ n = j.target
      · obtain ⟨rfl, rfl, rfl⟩ := hjn
        rw [hself] at h2
        cases Option.some.inj h2
        by_contra hmn
        exact hnone m hm hmn h1
      · exact h.named rank bank hb m hm n hn l (hnames _ _ _ _ hjm h1) (hnames _ _ _ _ hjn h2)
  · by_cases hjm : rank = j.rank ∧ bank = j.bank ∧ m = j.target
    · obtain ⟨rfl, rfl, rfl⟩ := hjm
      rw [hself] at hs
      cases hs
    · obtain ⟨t, ht⟩ := Option.isSome_iff_exists.1 hs
      rw [htarget _ _ _ _ hjm] at ht
      obtain ⟨i, hi, h1, h2, h3⟩ := h.filled rank bank hb m hm (by simp [ht])
      rcases List.mem_cons.1 hi with rfl | hi
      · exact absurd ⟨h1.symm, h2.symm, h3.symm⟩ hjm
      · exact ⟨i, hi, h1, h2, h3⟩
  · obtain ⟨hb, ht, t, he, hf⟩ := h.job i (by simp [hi])
    refine ⟨hb, ht, t, (htarget _ _ _ _ (hslot i hi)).2 he, hf.imp_right ?_⟩
    rintro ⟨k, hk, hm, ha⟩
    refine ⟨k, hk, hm, ?_⟩
    obtain ⟨_, _, u, hu, _⟩ := h.job j (by simp)
    have hne : ¬ (i.rank = j.rank ∧ i.bank = j.bank ∧ k = j.target) := by
      rintro ⟨h1, h2, h3⟩
      rw [h1, h2, h3] at ha
      rw [ha] at hu
      cases hu
    rcases hother _ _ _ hne with he | ⟨⟨h1, h2⟩, ha', _⟩
    · rw [he, ha]
    · rw [ha] at ha'
      exact absurd ⟨h1, h2, Slot.active.inj ha'⟩ (hrow i hi)

/-- The copy of a row that no slot served completes (R145). -/
theorem RemapInv.complete_row {spares : Nat} {slot : Nat → Nat → Nat → Slot} {j : JobKey} {rest : List JobKey}
    (h : RemapInv spares slot (j :: rest)) {l : Nat} (ht : (slot j.rank j.bank j.target).target? = some (.row l)) :
    RemapInv spares (replaced slot j.rank j.bank j.target (.active j.logical)) rest := by
  obtain ⟨hb, hk, u, hu, hfill⟩ := h.job j (by simp)
  refine h.complete (replaced_same _ _ _ _ _) (fun rank bank k hne => .inl (replaced_other hne)) fun m hm hne hn => ?_
  rw [ht] at hu
  cases Option.some.inj hu
  rcases hfill with hl | ⟨n, _, hn, _⟩
  · rw [replaced_other (by simp [hne])] at hn
    have hself : (slot j.rank j.bank j.target).names? = some j.logical := by
      rw [Slot.names_of_target ht, hl]
      rfl
    exact hne (h.named _ _ hb m hm _ hk _ hn hself)
  · cases hn

/-- A move completes: the slot that served the row is DEAD (R146). -/
theorem RemapInv.complete_move {spares : Nat} {slot : Nat → Nat → Nat → Slot} {j : JobKey} {rest : List JobKey}
    (h : RemapInv spares slot (j :: rest)) {k : Nat} (ht : (slot j.rank j.bank j.target).target? = some (.move k)) :
    RemapInv spares (replaced (replaced slot j.rank j.bank j.target (.active j.logical)) j.rank j.bank k .dead) rest := by
  obtain ⟨hb, hj, u, hu, hfill⟩ := h.job j (by simp)
  rw [ht] at hu
  cases Option.some.inj hu
  rcases hfill with hl | ⟨n, hk, hn, ha⟩
  · cases hl
  · cases SlotTarget.move.inj hn
    have hkj : j.target ≠ k := by
      intro hkj
      rw [hkj, ha] at ht
      cases ht
    refine h.complete ?_ (fun rank bank m hne => ?_) fun m hm hne hn => ?_
    · rw [replaced_other (by simp [hkj]), replaced_same]
    · by_cases hm : rank = j.rank ∧ bank = j.bank ∧ m = k
      · obtain ⟨rfl, rfl, rfl⟩ := hm
        exact .inr ⟨⟨rfl, rfl⟩, ha, replaced_same _ _ _ _ _⟩
      · rw [replaced_other hm, replaced_other hne]
        exact .inl rfl
    · by_cases hmk : m = k
      · rw [hmk, replaced_same] at hn
        cases hn
      · rw [replaced_other (by simp [hmk]), replaced_other (by simp [hne])] at hn
        exact hmk (h.named _ _ hb m hm k hk _ hn (by rw [ha]; rfl))

/-- Every slot being filled becomes FREE and the queue is emptied (R147). -/
theorem RemapInv.abort {spares : Nat} {slot slot' : Nat → Nat → Nat → Slot} {jobs : List JobKey}
    (h : RemapInv spares slot jobs) (hs : ∀ rank, ∀ bank < 16, ∀ k < spares, slot' rank bank k =
      if ∃ j ∈ jobs, j.rank = rank ∧ j.bank = bank ∧ j.target = k then .free else slot rank bank k) :
    RemapInv spares slot' [] := by
  refine ⟨h.few, fun rank bank hb m hm n hn l h1 h2 => ?_, fun rank bank hb m hm ht => ?_, by simp, by simp, by simp⟩
  · rw [hs _ _ hb _ hm] at h1
    rw [hs _ _ hb _ hn] at h2
    split at h1
    · cases h1
    · split at h2
      · cases h2
      · exact h.named _ _ hb _ hm _ hn _ h1 h2
  · rw [hs _ _ hb _ hm] at ht
    split at ht
    · cases ht
    · rename_i hno
      exact absurd (h.filled _ _ hb _ hm ht) hno

/-- An empty Remap Table with an empty queue. -/
theorem RemapInv.empty {spares : Nat} (h : spares ≤ 32) : RemapInv spares (fun _ _ _ => .free) [] :=
  ⟨h, by simp [Slot.names?], by simp [Slot.target?], by simp, by simp, by simp⟩

end Sys2Proof.Machine
end

