-- ==== Sys2Proof/Proofs/Work.lean ====
section
/-! What the blocks' own work does to line order and to the Remap Table: Work, which every operation of the Fault Table, the
Repair Engine and the Patrol Engine satisfies. -/

namespace Sys2Proof.Machine

open Sys2Proof

/-! ## Line order -/

/-- An access that joins line order behind the others and asks nothing of the demand queue. -/
def Access.joins (a : Access) : Prop :=
  a.phase = .waiting ∧ a.kind.isDemandWrite = false ∧ ∀ tag, a.kind ≠ .demandRead tag

/-- JoinsBehind, said of the two lists of accesses. -/
def Joined (l m : List Access) : Prop :=
  ∃ joined : List Access, (∀ a ∈ joined, a.joins) ∧
    (m.filter fun a => a.kind != .writeBack) = (l.filter fun a => a.kind != .writeBack) ++ joined

theorem joinsBehind_iff (s t : State) : JoinsBehind s t ↔ Joined s.port.accesses t.port.accesses := Iff.rfl

theorem Joined.refl (l : List Access) : Joined l l := ⟨[], by simp, by simp⟩

theorem Joined.trans {l m n : List Access} (h : Joined l m) (k : Joined m n) : Joined l n := by
  obtain ⟨a, ha, hm⟩ := h
  obtain ⟨b, hb, hn⟩ := k
  refine ⟨a ++ b, fun x hx => ?_, by rw [hn, hm, List.append_assoc]⟩
  exact (List.mem_append.1 hx).elim (ha x) (hb x)

theorem Joined.join (l : List Access) {a : Access} (ha : a.joins) : Joined l (l ++ [a]) := by
  rw [Joined, List.filter_append]
  refine ⟨[a].filter fun a => a.kind != .writeBack, fun x hx => ?_, rfl⟩
  rw [List.mem_singleton.1 (List.mem_of_mem_filter hx)]
  exact ha

/-- A write-back that leaves line order moves no other access. -/
theorem Joined.cancel (l : List Access) (line : Nat) :
    Joined l (l.filter fun a => !(a.line == line && a.kind == .writeBack)) := by
  refine ⟨[], by simp, ?_⟩
  rw [List.filter_filter, List.append_nil]
  refine List.filter_congr fun a _ => ?_
  by_cases hk : a.kind = .writeBack <;> simp [hk]

/-! ## Work -/

/-- The geometry, the slots and the jobs' keys stand. -/
def RemapSame (s t : State) : Prop :=
  t.port.geom = s.port.geom ∧ t.repair.slots = s.repair.slots ∧ t.repair.jobs.map Job.key = s.repair.jobs.map Job.key

/-- The Remap Table keeps its form, and the repair queue its agreement with it. -/
def RemapKept (s t : State) : Prop :=
  AMap.rising s.repair.slots = true → AMap.rising t.repair.slots = true ∧ (RemapLegal s → RemapLegal t)

/-- The blocks' own work: accesses join line order behind the others, and the Remap Table keeps its promises. -/
def Work (s t : State) : Prop := JoinsBehind s t ∧ RemapKept s t

theorem RemapKept.refl (s : State) : RemapKept s s := fun h => ⟨h, id⟩

theorem RemapKept.trans {a b c : State} (h : RemapKept a b) (k : RemapKept b c) : RemapKept a c := fun hr =>
  ⟨(k (h hr).1).1, (k (h hr).1).2 ∘ (h hr).2⟩

theorem RemapSame.kept {s t : State} (h : RemapSame s t) : RemapKept s t := fun hr => by
  obtain ⟨hg, hs, hj⟩ := h
  refine ⟨hs ▸ hr, fun hl => ?_⟩
  have ha : slotAt t = slotAt s := by
    unfold slotAt
    rw [hs]
  rw [remapLegal_iff] at hl ⊢
  rwa [hg, ha, hj]

theorem Work.refl (s : State) : Work s s := ⟨Joined.refl _, .refl s⟩

theorem Work.trans {a b c : State} (h : Work a b) (k : Work b c) : Work a c :=
  ⟨Joined.trans h.1 k.1, h.2.trans k.2⟩

theorem Work.ite {p : Prop} [Decidable p] {s a b : State} (h : Work s a) (k : Work s b) :
    Work s (if p then a else b) := by split <;> assumption

/-- An operation that leaves line order, the geometry, the slots and the jobs as they were. -/
theorem Work.aside {s t : State} (ha : t.port.accesses = s.port.accesses) (hg : t.port.geom = s.port.geom)
    (hr : t.repair.slots = s.repair.slots) (hj : t.repair.jobs.map Job.key = s.repair.jobs.map Job.key) : Work s t :=
  ⟨by rw [joinsBehind_iff, ha]; exact .refl _, RemapSame.kept ⟨hg, hr, hj⟩⟩

theorem Work.count (c : Ctr) (s : State) : Work s (count c s) := .aside rfl rfl rfl rfl

/-- An access without a tag is taken. -/
theorem Work.take (line : Nat) (kind : AccessKind) (s : State) (ht : kind.tag? = none) :
    Work s (takeAccess line kind .waiting s) := by
  refine ⟨Joined.join _ ⟨rfl, ?_, ?_⟩, RemapSame.kept ⟨rfl, rfl, rfl⟩⟩
  · cases kind with
    | demandWrite => cases ht
    | maskedWrite => cases ht
    | _ => rfl
  · rintro tag rfl
    cases ht

theorem Work.patrol (s : State) (p : Patrol) : Work s { s with patrol := p } := .aside rfl rfl rfl rfl

theorem Work.window (s : State) (w : Option Window) : Work s { s with window := w } := .aside rfl rfl rfl rfl

theorem Work.fault (s : State) (f : FaultTable) : Work s { s with fault := f } := .aside rfl rfl rfl rfl

theorem Work.region (i : Nat) (g : Region) (s : State) : Work s (setRegion i g s) := .aside rfl rfl rfl rfl

theorem Work.setFault (i : Nat) (e : FaultEntry) (s : State) : Work s (setFault i e s) := .aside rfl rfl rfl rfl

theorem Work.setDevice (rank device : Nat) (d : DeviceScore) (s : State) : Work s (setDevice rank device d s) :=
  .aside rfl rfl rfl rfl

theorem Work.foldl {α : Type} (f : State → α → State) (hf : ∀ s a, Work s (f s a)) (l : List α) (s : State) :
    Work s (l.foldl f s) := by
  induction l generalizing s with
  | nil => exact .refl s
  | cons a l ih => exact (hf s a).trans (ih _)

/-! ## Causes and records -/

theorem Alerted.work {s t : State} (h : Alerted s t) : Work s t := by
  rw [h.2.2]
  exact .aside rfl rfl rfl rfl

theorem Work.raise (c : Cause) (s : State) : Work s (raise c s) := (raise_alerted c s).work

theorem wbCancel_work (line : Nat) (s : State) : Work s (wbCancel line s) := by
  rw [wbCancel_eq]
  refine ⟨?_, RemapSame.kept ⟨rfl, rfl, rfl⟩⟩
  show Joined s.port.accesses (accessesLeft s line)
  unfold accessesLeft
  split
  · exact .cancel _ _
  · exact .refl _

theorem placeRecord_work (r : Record) (s : State) : Work s (placeRecord r s) := by
  have h : ∀ p : Report, Work s { s with report := p } := fun p => .aside rfl rfl rfl rfl
  exact (h _).trans ((wbCancel_work _ _).trans ((Work.take _ _ _ rfl).trans (.count _ _)))

theorem handRecord_work (r : Record) (s : State) : Work s (handRecord r s) := by
  have h : ∀ p : Report, Work s { s with report := p } := fun p => .aside rfl rfl rfl rfl
  exact .ite (.ite (placeRecord_work r s) ((h _).trans ((Work.count _ _).trans (.raise _ _)))) (.refl s)

/-! ## Slots and jobs -/

/-- A slot takes a state: line order stands, and the invariant is that of the replaced slot. -/
theorem setSlot_work {rank bank k : Nat} {v : Slot} {s : State} (h : AMap.rising s.repair.slots = true → RemapLegal s →
    bank < 16 ∧ k < s.port.geom.spares ∧
      RemapInv s.port.geom.spares (replaced (slotAt s) rank bank k v) (s.repair.jobs.map Job.key)) :
    Work s (setSlot rank bank k v s) := by
  refine ⟨Joined.refl _, fun hr => ⟨setSlot_rising hr _ _ _ _, fun hl => ?_⟩⟩
  obtain ⟨hb, hk, hi⟩ := h hr hl
  exact (remapLegal_iff _).2 (.of_setSlot hr hb hk hi)

/-- A slot of a job goes on being filled from its target (R140, R141). -/
theorem setSlot_advance {rank bank k : Nat} {v : Slot} {t : SlotTarget} {s : State} {j : Job} (hj : j ∈ s.repair.jobs)
    (hr : j.rank = rank) (hb : j.bank = bank) (hk : j.target = k) (ht : (slotAt s rank bank k).target? = some t)
    (hv : v.target? = some t) : Work s (setSlot rank bank k v s) := by
  subst hr hb hk
  refine setSlot_work fun _ hl => ?_
  rw [remapLegal_iff] at hl
  obtain ⟨hb, hk, _⟩ := hl.job j.key (List.mem_map_of_mem hj)
  exact ⟨hb, hk, hl.advance ht hv⟩

theorem setRunningJob_work {i j : Job} {rest : List Job} {s : State} (hs : s.repair.jobs = i :: rest)
    (hk : j.key = i.key) : Work s (setRunningJob j s) := by
  simp only [setRunningJob, hs]
  exact .aside rfl rfl rfl (by simp [hs, hk])

theorem takePair_work (s : State) : Work s (takePair s) := by
  unfold takePair
  split
  · exact .refl s
  · rename_i j rest hj
    split
    · dsimp only
      split
      · exact ((Work.take _ _ _ rfl).trans (setRunningJob_work (i := j) (rest := rest) hj (by rfl))).trans (.count _ _)
      · exact (Work.take _ _ _ rfl).trans (.take _ _ _ rfl)
    · exact .refl s

theorem resumeCopy_work (s : State) : Work s (resumeCopy s) := .ite (.refl s) (takePair_work s)

theorem startJob_work (s : State) : Work s (startJob s) := by
  unfold startJob
  split
  · exact .refl s
  · rename_i j rest hj
    split
    · rename_i t ht
      exact (setSlot_advance (t := t) (j := j) (by simp [hj]) rfl rfl rfl (by rw [ht]; rfl) rfl).trans (resumeCopy_work _)
    · exact .refl s

theorem faultJobTaken_work (rank bank row : Nat) (s : State) : Work s (faultJobTaken rank bank row s) := by
  unfold faultJobTaken faultModify
  split
  · exact .setFault _ _ s
  · exact .refl s

theorem faultJobDone_work (rank bank row : Nat) (s : State) : Work s (faultJobDone rank bank row s) := by
  unfold faultJobDone
  split
  · exact (Work.setFault _ _ s).trans (.count _ _)
  · exact .refl s

/-! ## A retirement taken (R138, R146) -/

theorem freeSlotOf_some {s : State} {rank bank k : Nat} (h : freeSlotOf s rank bank = some k) :
    k < s.port.geom.spares ∧ slotAt s rank bank k = .free :=
  ⟨List.mem_range.1 (List.mem_of_find?_eq_some h), by simpa using List.find?_some h⟩

theorem activeSlotOf_some {s : State} {rank bank logical k : Nat} (h : activeSlotOf s rank bank logical = some k) :
    k < s.port.geom.spares ∧ slotAt s rank bank k = .active logical :=
  ⟨List.mem_range.1 (List.mem_of_find?_eq_some h), by simpa using List.find?_some h⟩

theorem activeSlotOf_none {s : State} {rank bank logical : Nat} (h : activeSlotOf s rank bank logical = none) :
    ∀ k < s.port.geom.spares, slotAt s rank bank k ≠ .active logical := fun k hk => by
  simpa using List.find?_eq_none.1 h k (List.mem_range.2 hk)

theorem hasJob_eq_false {s : State} {rank bank logical : Nat} (h : hasJob s rank bank logical = false) :
    ∀ j ∈ s.repair.jobs.map Job.key, ¬ (j.rank = rank ∧ j.bank = bank ∧ j.logical = logical) := by
  intro j hj
  obtain ⟨i, hi, rfl⟩ := List.mem_map.1 hj
  have := List.any_eq_false.1 h i hi
  simpa [and_assoc, Job.key] using this

/-- A FREE slot is reserved for a row without a job, and the job enters the queue (R138). -/
theorem reserve_work {s : State} {rank bank logical k sourceRow : Nat} {origin : Origin} (hb : bank < 16)
    (hf : freeSlotOf s rank bank = some k) (hj : hasJob s rank bank logical = false) {target : SlotTarget}
    (ht : target = match activeSlotOf s rank bank logical with
      | some source => .move source
      | none => .row logical) :
    let u := setSlot rank bank k (.reserved target) s
    Work s { u with repair := { u.repair with jobs := u.repair.jobs ++
      [{ rank := rank, bank := bank, logical := logical, target := k, sourceRow := sourceRow, origin := origin }] } } := by
  obtain ⟨hk, hfree⟩ := freeSlotOf_some hf
  refine ⟨Joined.refl _, fun hr => ⟨setSlot_rising hr rank bank k (.reserved target), fun hl => (remapLegal_iff _).2 ?_⟩⟩
  rw [remapLegal_iff] at hl
  refine RemapInv.of_setSlot (v := .reserved target) hr hb hk ?_
  show RemapInv _ _ ((s.repair.jobs ++ [_]).map Job.key)
  rw [List.map_append]
  refine hl.reserve hb hk hfree (hasJob_eq_false hj) ?_
  cases ha : activeSlotOf s rank bank logical with
  | none =>
    rw [ha] at ht
    exact .inl ⟨ht, activeSlotOf_none ha⟩
  | some m =>
    rw [ha] at ht
    obtain ⟨hm, hact⟩ := activeSlotOf_some ha
    exact .inr ⟨m, hm, ht, hact⟩

theorem takeJob_work {s : State} {rank bank logical k : Nat} (origin : Origin) (hb : bank < 16)
    (hf : freeSlotOf s rank bank = some k) (hj : hasJob s rank bank logical = false) :
    Work s (takeJob rank bank logical k origin s) :=
  (reserve_work hb hf hj rfl).trans (((faultJobTaken_work _ _ _ _).trans (.count _ _)).trans
    (.ite (startJob_work _) (.refl _)))

theorem retireRequest_work {rank bank row : Nat} (hb : bank < 16) (s : State) :
    Work s (retireRequest rank bank row s).2 := by
  unfold retireRequest
  split
  · exact .refl s
  · split
    · exact .refl s
    · split
      · exact .refl s
      · rename_i hj
        rw [Bool.not_eq_true, Bool.or_eq_false_iff] at hj
        split
        · exact (Work.raise _ _).trans (.count _ _)
        · rename_i k hk
          split
          · exact .count _ _
          · exact takeJob_work _ hb hk hj.2

/-! ## A copy completed (R145, R146) -/

theorem slotAt_setSlot_replaced {s : State} (h : AMap.rising s.repair.slots = true) {rank bank k : Nat} (v : Slot)
    (hb : bank < 16) (hk : k < 32) {rank' bank' k' : Nat} (hb' : bank' < 16) (hk' : k' < 32) :
    slotAt (setSlot rank bank k v s) rank' bank' k' = replaced (slotAt s) rank bank k v rank' bank' k' := by
  simp only [slotAt_setSlot h, slotKey_inj hb' hb hk' hk, replaced]

/-- The slots of a completed copy, with the jobs behind it (R145, R146). -/
def completedSlots (j : Job) (t : SlotTarget) (s : State) : State :=
  let u := setSlot j.rank j.bank j.target (.active j.logical) s
  let v := match t.source? with
    | some k => setSlot j.rank j.bank k .dead u
    | none => u
  { v with repair := { v.repair with jobs := v.repair.jobs.tail } }

theorem completedSlots_work {s : State} {j : Job} {rest : List Job} {t : SlotTarget} {cursor : Nat}
    (hj : s.repair.jobs = j :: rest) (ht : slotAt s j.rank j.bank j.target = .copying t cursor) :
    Work s (completedSlots j t s) := by
  have htarget : (slotAt s j.key.rank j.key.bank j.key.target).target? = some t := by
    show (slotAt s j.rank j.bank j.target).target? = some t
    rw [ht]
    rfl
  have hstep : AMap.rising s.repair.slots = true → RemapLegal s →
      RemapInv s.port.geom.spares (slotAt s) (j.key :: rest.map Job.key) ∧ j.bank < 16 ∧ j.target < s.port.geom.spares := by
    intro hr hl
    rw [remapLegal_iff, hj] at hl
    obtain ⟨hb, hk, _⟩ := hl.job j.key (by simp)
    exact ⟨hl, hb, hk⟩
  cases t with
  | row l =>
    refine ⟨Joined.refl _, fun hr => ⟨setSlot_rising hr j.rank j.bank j.target (.active j.logical), fun hl =>
      (remapLegal_iff _).2 ?_⟩⟩
    obtain ⟨hi, hb, hk⟩ := hstep hr hl
    have hjobs : (completedSlots j (.row l) s).repair.jobs = rest := congrArg List.tail hj
    rw [hjobs]
    exact RemapInv.of_setSlot (v := .active j.logical) hr hb hk (hi.complete_row htarget)
  | move m =>
    refine ⟨Joined.refl _, fun hr => ⟨setSlot_rising (setSlot_rising hr j.rank j.bank j.target
      (.active j.logical)) j.rank j.bank m .dead, fun hl =>
      (remapLegal_iff _).2 ?_⟩⟩
    obtain ⟨hi, hb, hk⟩ := hstep hr hl
    have hjobs : (completedSlots j (.move m) s).repair.jobs = rest := congrArg List.tail hj
    have hm : m < s.port.geom.spares := by
      obtain ⟨_, _, u, hu, hfill⟩ := hi.job j.key (by simp)
      rw [htarget] at hu
      cases Option.some.inj hu
      rcases hfill with h | ⟨n, hn, h, _⟩
      · cases h
      · cases SlotTarget.move.inj h
        exact hn
    have hfew := hi.few
    rw [hjobs]
    refine RemapInv.of_setSlot (s := setSlot j.rank j.bank j.target (.active j.logical) s) (v := .dead)
      (setSlot_rising hr _ _ _ _) hb hm ((hi.complete_move htarget).congr fun rank' bank' hb' k' hk' => ?_)
    have he : replaced (slotAt (setSlot j.rank j.bank j.target (.active j.logical) s)) j.rank j.bank m .dead rank' bank' k' =
        replaced (replaced (slotAt s) j.rank j.bank j.target (.active j.logical)) j.rank j.bank m .dead rank' bank' k' := by
      simp only [replaced, slotAt_setSlot_replaced hr (.active j.logical) hb (show j.target < 32 by omega) hb'
        (show k' < 32 by omega)]
    exact ⟨congrArg _ he, congrArg _ he⟩

theorem completeCopy_work {s : State} {j : Job} {rest : List Job} {t : SlotTarget} {cursor : Nat}
    (hj : s.repair.jobs = j :: rest) (ht : slotAt s j.rank j.bank j.target = .copying t cursor) :
    Work s (completeCopy j t s) :=
  ((completedSlots_work hj ht).trans (.count .repairJobsDone _)).trans ((faultJobDone_work j.rank j.bank j.sourceRow _).trans
    (((handRecord_work _ _).trans (.raise .rowRetired _)).trans (startJob_work _)))

theorem copyWritten_work (s : State) : Work s (copyWritten s) := by
  unfold copyWritten
  split
  · exact .refl s
  · rename_i j rest hj
    split
    · rename_i t cursor ht
      split
      · exact (setSlot_advance (t := t) (j := j) (by simp [hj]) rfl rfl rfl (by rw [ht]; rfl) rfl).trans
          (resumeCopy_work _)
      · exact completeCopy_work hj ht
    · exact .refl s

theorem countCopied_work (o : Outcome) (s : State) : Work s (countCopied o s) := by
  unfold countCopied
  split
  · exact .refl s
  · rename_i j rest hj
    exact setRunningJob_work hj (by cases o <;> rfl)

/-! ## The abort of every job (R147) -/

theorem abortJob_slots (j : Job) (s : State) : (abortJob j s).port = s.port ∧
    (abortJob j s).repair.slots = (setSlot j.rank j.bank j.target .free s).repair.slots := by
  unfold abortJob faultJobAborted faultModify
  split <;> exact ⟨rfl, rfl⟩

theorem slotAt_abortJob {s : State} (h : AMap.rising s.repair.slots = true) (j : Job) (rank bank k : Nat) :
    slotAt (abortJob j s) rank bank k =
      if slotKey rank bank k = slotKey j.rank j.bank j.target then .free else slotAt s rank bank k := by
  rw [← slotAt_setSlot h]
  unfold slotAt
  rw [(abortJob_slots j s).2]

theorem abortAll_port (l : List Job) (s : State) : (l.foldl (fun s j => abortJob j s) s).port = s.port := by
  induction l generalizing s with
  | nil => rfl
  | cons j l ih => exact (ih _).trans (abortJob_slots j s).1

theorem abortAll_slots (l : List Job) (s : State) (h : AMap.rising s.repair.slots = true) :
    let t := l.foldl (fun s j => abortJob j s) s
    AMap.rising t.repair.slots = true ∧ ∀ rank bank k, slotAt t rank bank k =
      if ∃ j ∈ l, slotKey rank bank k = slotKey j.rank j.bank j.target then .free else slotAt s rank bank k := by
  induction l generalizing s with
  | nil => exact ⟨h, by simp⟩
  | cons j l ih =>
    obtain ⟨h1, h2⟩ := ih (abortJob j s) ((abortJob_slots j s).2 ▸ setSlot_rising h _ _ _ _)
    refine ⟨h1, fun rank bank k => ?_⟩
    rw [List.foldl_cons, h2, slotAt_abortJob h]
    simp only [List.mem_cons, exists_eq_or_imp]
    by_cases hk : slotKey rank bank k = slotKey j.rank j.bank j.target <;> simp [hk]

theorem abortJobs_kept (s : State) : RemapKept s (abortJobs s) := by
  intro hr
  obtain ⟨hrise, hs⟩ := abortAll_slots s.repair.jobs s hr
  refine ⟨hrise, fun hl => (remapLegal_iff _).2 ?_⟩
  rw [remapLegal_iff] at hl
  have hg : (abortJobs s).port.geom = s.port.geom := congrArg _ (abortAll_port _ s)
  rw [hg]
  refine hl.abort fun rank bank hb k hk => (hs rank bank k).trans (if_congr ?_ rfl rfl)
  have key : ∀ j ∈ s.repair.jobs, slotKey rank bank k = slotKey j.rank j.bank j.target ↔
      j.rank = rank ∧ j.bank = bank ∧ j.target = k := by
    intro j hj
    obtain ⟨hjb, hjt, _⟩ := hl.job j.key (List.mem_map_of_mem hj)
    have hf := hl.few
    rw [slotKey_inj hb (show j.bank < 16 from hjb) (show k < 32 by omega) (show j.target < 32 from lt_of_lt_of_le hjt hf)]
    tauto
  simp only [List.mem_map, exists_exists_and_eq_and]
  exact exists_congr fun j => and_congr_right (key j)

end Sys2Proof.Machine
end

