-- ==== Sys2Proof/Proofs/BlockWork.lean ====
section
/-! Every operation of the Fault Table and of the Patrol Engine is Work: accesses join line order behind the others, and the
Remap Table keeps its form and its agreement with the repair queue. -/

namespace Sys2Proof.Machine

open Sys2Proof

/-! ## The Fault Table -/

theorem erasureCleanup_work (rank device : Nat) (s : State) : Work s (erasureCleanup rank device s) :=
  .aside rfl rfl rfl rfl

theorem addErasure_work (rank device origin : Nat) (s : State) : Work s (addErasure rank device origin s) := by
  have h : ∀ l, Work s { s with repair := { s.repair with erasures := l } } := fun _ => .aside rfl rfl rfl rfl
  exact (h _).trans ((handRecord_work _ _).trans ((Work.ite (.raise _ _) (.refl _)).trans
    ((Work.count _ _).trans (erasureCleanup_work _ _ _))))

theorem tsqInsert_work (rank bank row : Nat) (neighbour : Bool) (s : State) :
    Work s (tsqInsert rank bank row neighbour s) := by
  unfold tsqInsert
  split
  · exact .refl s
  · split
    · exact (Work.patrol _ _).trans (.count _ _)
    · split
      · exact (Work.patrol _ _).trans (.count _ _)
      · exact (Work.count _ _).trans (.raise _ _)

theorem scoreRow_work (ev : FaultEvent) (s : State) : Work s (scoreRow ev s).2 := by
  unfold scoreRow
  dsimp only
  split
  · exact .setFault _ _ s
  · split
    · exact .setFault _ _ s
    · split
      · split
        · exact (Work.setFault _ _ s).trans (.count _ _)
        · exact .count _ _
      · exact .count _ _

theorem scoreDevice_work (ev : FaultEvent) (s : State) : Work s (scoreDevice ev s) := by
  unfold scoreDevice
  split
  · exact .setDevice _ _ _ s
  · exact .refl s

theorem reportEvent_work (ev : FaultEvent) (w : Scored) (s : State) : Work s (reportEvent ev w s) := by
  unfold reportEvent
  split
  · exact ((handRecord_work _ _).trans (.raise _ _)).trans (.ite (.raise _ _) (.refl _))
  · split
    · exact .refl s
    · exact handRecord_work _ _

theorem reportChange_work (ev : FaultEvent) (r : Bool) (i : Nat) (s : State) : Work s (reportChange ev r i s) :=
  .ite (.refl s) (handRecord_work _ _)

theorem suspectCheck_work (ev : FaultEvent) (i : Nat) (r : Bool) (s : State) : Work s (suspectCheck ev i r s).2 := by
  unfold suspectCheck
  dsimp only
  split
  · exact ((Work.setFault _ _ s).trans (reportChange_work _ _ _ _)).trans ((tsqInsert_work _ _ _ _ _).trans
      ((handRecord_work _ _).trans (.count _ _)))
  · exact .refl s

theorem blockEntry_work (ev : FaultEvent) (i : Nat) (r : Bool) (reason : BlockReason) (s : State) :
    Work s (blockEntry ev i r reason s) :=
  ((Work.setFault _ _ s).trans (reportChange_work _ _ _ _)).trans ((handRecord_work _ _).trans (.count _ _))

theorem retireCheck_work (ev : FaultEvent) (i : Nat) (r : Bool) (s : State) (hb : (faultAt s i).bank < 16) :
    Work s (retireCheck ev i r s) := by
  unfold retireCheck
  dsimp only
  split
  · split
    · exact blockEntry_work ev i r _ s
    · have hq := (Work.count .retireRequests s).trans
        (retireRequest_work (rank := (faultAt s i).rank) (row := (faultAt s i).row) hb (count .retireRequests s))
      generalize retireRequest (faultAt s i).rank (faultAt s i).bank (faultAt s i).row (count .retireRequests s) = q at hq
      obtain ⟨a, t⟩ := q
      cases a with
      | taken => exact hq.trans (reportChange_work _ _ _ _)
      | noSpare => exact hq.trans (blockEntry_work _ _ _ _ _)
      | queueFull => exact hq.trans (blockEntry_work _ _ _ _ _)
      | inProgress => exact hq
      | notInService => exact hq.trans ((Work.setFault _ _ t).trans (reportChange_work _ _ _ _))
  · exact .refl s

/-! ### The entry of an event names the event's bank -/

theorem faultAt_of_fault {s t : State} (h : t.fault = s.fault) (i : Nat) : faultAt t i = faultAt s i := by
  unfold faultAt
  rw [h]

/-- A read of the entry just set: the entry, or the entry of an index the table does not have. -/
theorem faultAt_setFault (i : Nat) (e : FaultEntry) (s : State) :
    faultAt (setFault i e s) i = e ∨ faultAt (setFault i e s) i = {} := by
  by_cases h : i < s.fault.entries.length <;> simp [faultAt, setFault, h]

theorem setFault_bank {n : Nat} (i : Nat) {e : FaultEntry} (s : State) (h : e.bank < n) :
    (faultAt (setFault i e s) i).bank < n := by
  rcases faultAt_setFault i e s with he | he
  · rw [he]
    exact h
  · rw [he]
    exact Nat.zero_lt_of_lt h

theorem Noted.fault_eq {s t : State} (h : Noted s t) : t.fault = s.fault := h.fields.2.2.2.2.2.2.2.2.2.1

theorem scoreRow_bank {ev : FaultEvent} {n : Nat} (h : ev.bank < n) (s : State) {i : Nat}
    (hi : (scoreRow ev s).1.entry? = some i) : (faultAt (scoreRow ev s).2 i).bank < n := by
  revert hi
  unfold scoreRow
  dsimp only
  split
  · rename_i j hj
    obtain ⟨_, _, _, _, hb, _⟩ := faultFind_some hj
    rintro ⟨⟩
    exact setFault_bank _ s (hb ▸ h : (faultAt s i).bank < n)
  · split
    · rintro ⟨⟩
      exact setFault_bank _ s h
    · split
      · split
        · rintro ⟨⟩
          exact setFault_bank _ s h
        · rintro ⟨⟩
      · rintro ⟨⟩

theorem tsqInsert_fault (rank bank row : Nat) (neighbour : Bool) (s : State) :
    (tsqInsert rank bank row neighbour s).fault = s.fault := by
  unfold tsqInsert
  split
  · rfl
  · split
    · rfl
    · split
      · rfl
      · exact (raise_alerted _ _).noted.fault_eq

theorem suspectCheck_bank {n : Nat} (ev : FaultEvent) (i : Nat) (r : Bool) (s : State) (h : (faultAt s i).bank < n) :
    (faultAt (suspectCheck ev i r s).2 i).bank < n := by
  unfold suspectCheck
  dsimp only
  split
  · have hf : ∀ u : State, (count .rowsSuspect (handRecord (rowRecord 4 none ev i
        (tsqInsert (faultAt s i).rank (faultAt s i).bank (faultAt s i).row false u))
        (tsqInsert (faultAt s i).rank (faultAt s i).bank (faultAt s i).row false u))).fault = u.fault := fun u =>
      (handRecord_noted _ _).fault_eq.trans (tsqInsert_fault _ _ _ _ u)
    rw [faultAt_of_fault (hf _), faultAt_of_fault ((reportChange_noted ev r i _).fault_eq)]
    exact setFault_bank i s h
  · exact h

theorem checkEntry_work {ev : FaultEvent} {w : Scored} {s : State}
    (h : ∀ i, w.entry? = some i → (faultAt s i).bank < 16) : Work s (checkEntry ev w s) := by
  unfold checkEntry
  refine .ite (.refl s) ?_
  split
  · exact .refl s
  · rename_i i
    exact (suspectCheck_work ev i false s).trans (retireCheck_work _ _ _ _ (suspectCheck_bank _ _ _ _ (h i rfl)))
  · rename_i i
    exact (suspectCheck_work ev i true s).trans (retireCheck_work _ _ _ _ (suspectCheck_bank _ _ _ _ (h i rfl)))

theorem eraseDecision_work (rank device : Nat) (s : State) : Work s (eraseDecision rank device s) := by
  unfold eraseDecision
  split
  · split
    · exact (Work.count _ s).trans (addErasure_work _ _ _ _)
    · split
      · exact .refl s
      · exact ((handRecord_work _ _).trans (.raise _ _)).trans ((Work.setDevice _ _ _ _).trans (.count _ _))
  · exact .refl s

theorem eraseRank_work (rank : Nat) (s : State) : Work s (eraseRank rank s) :=
  .foldl _ (fun _ _ => eraseDecision_work _ _ _) _ _

theorem eraseAll_work (s : State) : Work s (eraseAll s) :=
  .ite (.foldl _ (fun _ _ => eraseRank_work _ _) _ _) (.refl s)

theorem decideDevice_work (ev : FaultEvent) (s : State) : Work s (decideDevice ev s) := by
  unfold decideDevice
  split
  · exact eraseDecision_work _ _ _
  · exact .refl s

/-- The Fault Table takes an event of one of the banks (R114). -/
theorem takeEvent_work {ev : FaultEvent} (hb : ev.bank < 16) (s : State) : Work s (takeEvent ev s) := by
  have hd : (scoreDevice ev (scoreRow ev (count .faultEvents s)).2).fault.entries =
      (scoreRow ev (count .faultEvents s)).2.fault.entries := by
    unfold scoreDevice
    split <;> rfl
  refine ((Work.count _ _).trans (scoreRow_work _ _)).trans (((scoreDevice_work _ _).trans
    (reportEvent_work _ _ _)).trans ((checkEntry_work fun i hi => ?_).trans (decideDevice_work _ _)))
  rw [faultAt_of_fault (reportEvent_noted _ _ _).fault_eq, faultAt, hd]
  exact scoreRow_bank hb _ hi

theorem decay_work (s : State) : Work s (decay s) :=
  ((Work.fault s _).trans (.fault _ _)).trans (.count _ _)

/-! ## The Patrol Engine -/

theorem reportRisk_work (s : State) : Work s (reportRisk s) := by
  unfold reportRisk
  split
  · exact .ite ((Work.patrol s _).trans ((Work.raise _ _).trans (.count _ _))) (.refl s)
  · exact .refl s

theorem recompute_work (s : State) : Work s (recompute s) := by
  unfold recompute
  split
  · exact (Work.patrol s _).trans (reportRisk_work _)
  · exact .refl s

theorem closeWindow_work (s : State) : Work s (closeWindow s) :=
  ((Work.window s none).trans (.ite ((Work.patrol _ _).trans (recompute_work _)) (.refl _))).trans (resumeCopy_work _)

theorem overrideWindow_work (a b : Elapsed) (s : State) : Work s (overrideWindow a b s) :=
  (closeWindow_work s).trans ((Work.raise _ _).trans ((handRecord_work _ _).trans (.count _ _)))

theorem reviewOverride_work (s : State) : Work s (reviewOverride s) := by
  unfold reviewOverride
  split
  · exact .refl s
  · split
    · exact .ite (.ite (.window _ _) (.ite (.window _ _) (overrideWindow_work _ _ _))) (.window _ _)
    · exact .window _ _

theorem startSweep_work (i : Nat) (host : Bool) (s : State) : Work s (startSweep i host s) :=
  ((Work.region _ _ s).trans (.patrol _ _)).trans ((recompute_work _).trans (reviewOverride_work _))

theorem promote_work (s : State) : Work s (promote s) := by
  unfold promote
  split
  · exact .ite ((Work.patrol s _).trans (startSweep_work _ _ _)) (.refl s)
  · exact .refl s

theorem selectStaged_work (s : State) : Work s (selectStaged s) := by
  unfold selectStaged
  split
  · split
    · exact (Work.patrol s _).trans (.region _ _ _)
    · exact .refl s
  · exact .refl s

theorem runSelection_work (s : State) : Work s (runSelection s) :=
  (selectStaged_work s).trans (.ite ((promote_work _).trans (selectStaged_work _)) (.refl _))

theorem finishSweep_work (w : Sweep) (s : State) : Work s (finishSweep w s) :=
  ((Work.region _ _ s).trans (.ite ((handRecord_work _ _).trans (.raise _ _)) (.refl _))).trans
    (.ite (handRecord_work _ _) (.refl _))

theorem completeActive_work (w : Sweep) (s : State) : Work s (completeActive w s) :=
  (((finishSweep_work w s).trans (.patrol _ _)).trans (reviewOverride_work _)).trans
    (((promote_work _).trans (runSelection_work _)).trans (.ite (.raise _ _) (.refl _)))

theorem completeHeld_work (w : Sweep) (s : State) : Work s (completeHeld w s) :=
  (Work.patrol s _).trans (finishSweep_work w _)

theorem issueLine_work (w : Sweep) (s : State) : Work s (issueLine w s) :=
  (((Work.patrol s _).trans (.count _ _)).trans (.ite (.count _ _) (.take _ _ _ rfl))).trans
    (.ite (recompute_work _) (.refl _))

theorem issueBoundary_work (w : Sweep) (s : State) : Work s (issueBoundary w s) := by
  unfold issueBoundary
  split <;> exact issueLine_work _ _

theorem setTsq_work (e : TsqEntry) (s : State) : Work s (setTsq e s) := .patrol _ _

theorem removeTsq_work (e : TsqEntry) (s : State) : Work s (removeTsq e s) := .patrol _ _

theorem atBoundary_work (w : Sweep) (s : State) : Work s (atBoundary w s) := by
  unfold atBoundary
  refine .ite (.refl s) ?_
  split
  · exact (Work.patrol s _).trans (setTsq_work _ _)
  · exact issueBoundary_work _ _

theorem releaseBoundary_work (s : State) : Work s (releaseBoundary s) := .patrol _ _

theorem deferredIssue_work (s : State) : Work s (deferredIssue s) := by
  unfold deferredIssue
  split
  · exact .ite (issueBoundary_work _ _) (releaseBoundary_work _)
  · exact .refl s

theorem completeJob_work (e : TsqEntry) (s : State) : Work s (completeJob e s) :=
  (((removeTsq_work e s).trans (.count _ _)).trans (.patrol _ _)).trans
    ((recompute_work _).trans (deferredIssue_work _))

theorem discardJob_work (e : TsqEntry) (s : State) : Work s (discardJob e s) := by
  have h : Work s (count .targetedJobsDiscarded (removeTsq e s)) := (removeTsq_work e s).trans (.count _ _)
  unfold discardJob
  dsimp only
  split
  · exact .ite (h.trans ((releaseBoundary_work _).trans (atBoundary_work _ _))) (h.trans (releaseBoundary_work _))
  · exact h

theorem advanceJob_work (e : TsqEntry) (s : State) : Work s (advanceJob e s) := by
  unfold advanceJob
  refine .ite (completeJob_work e s) (.ite ((setTsq_work _ _).trans (releaseBoundary_work _)) ?_)
  split
  · exact discardJob_work e s
  · exact .ite (setTsq_work _ _) (.ite ((setTsq_work _ _).trans (.count _ _)) ((setTsq_work _ _).trans (.take _ _ _ rfl)))

theorem settleOnce_work {s t : State} (h : settleOnce s = some t) : Work s t := by
  unfold settleOnce at h
  split at h
  · cases Option.some.inj h
    exact completeActive_work _ s
  · split at h
    · cases Option.some.inj h
      exact completeHeld_work _ s
    · split at h
      · cases Option.some.inj h
        exact advanceJob_work _ s
      · split at h
        · cases Option.some.inj h
          exact issueLine_work _ s
        · split at h
          · cases Option.some.inj h
            exact atBoundary_work _ s
          · split at h
            · obtain ⟨e, _, rfl⟩ := Option.map_eq_some_iff.mp h
              exact setTsq_work _ s
            · cases h

theorem settleWith_work (n : Nat) (s : State) : Work s (settleWith n s) := by
  induction n generalizing s with
  | zero => exact .refl s
  | succ n ih =>
    simp only [settleWith]
    split
    · rename_i t ht
      exact (settleOnce_work ht).trans (ih t)
    · exact .refl s

/-- The immediate actions that close a command are Work. -/
theorem settle_work (s : State) : Work s (settle s) := settleWith_work _ s

end Sys2Proof.Machine
end

