-- ==== Sys2Proof/Proofs/ReadsDecoded.lean ====
section
/-! O31, O32 and O33: what a read hands on when its data have been decoded. -/

namespace Sys2Proof.Machine

open Sys2Proof

/-! ## What follows a read -/

/-- What the event and the write-back of a read, and the immediate actions that close its command, leave as it was. -/
structure Aftermath (u t : State) : Prop where
  joins : JoinsBehind u t
  returns : plain t.link.returns = plain u.link.returns
  tags : t.link.tags = u.link.tags
  openRows : t.port.openRows = u.port.openRows
  dram : t.dram = u.dram
  maint : t.maint = u.maint
  params : t.params = u.params
  hammer : t.hammer = u.hammer
  entries : t.regions.map Region.entry = u.regions.map Region.entry

theorem Aftermath.refl (s : State) : Aftermath s s := ⟨Joined.refl _, rfl, rfl, rfl, rfl, rfl, rfl, rfl, rfl⟩

theorem Aftermath.trans {a b c : State} (h : Aftermath a b) (k : Aftermath b c) : Aftermath a c :=
  ⟨Joined.trans h.joins k.joins, k.returns.trans h.returns, k.tags.trans h.tags, k.openRows.trans h.openRows,
    k.dram.trans h.dram, k.maint.trans h.maint, k.params.trans h.params, k.hammer.trans h.hammer,
    k.entries.trans h.entries⟩

theorem Internal.aftermath {u t : State} (h : Internal u t) (w : Work u t) : Aftermath u t := by
  obtain ⟨⟨_, hr, _⟩, _, _, _, _, _, _, _, _, e⟩ := h
  refine ⟨w.1, hr, ?_, ?_, ?_, ?_, ?_, ?_, ?_⟩ <;> rw [e]

theorem Settled.aftermath {u t : State} (h : Settled u t) (w : Work u t) : Aftermath u t := by
  obtain ⟨⟨_, hr, _⟩, _, _, _, _, hg, _, e⟩ := h
  refine ⟨w.1, hr, ?_, ?_, ?_, ?_, ?_, ?_, hg⟩ <;> rw [e]

theorem settle_aftermath (s : State) : Aftermath s (settle s) := (settle_settled s).aftermath (settle_work s)

theorem handDecoded_aftermath (line : Nat) (d : Decoded) (policy : Policy) (s : State) :
    Aftermath s (handDecoded line d policy s) := by
  have hi : ∀ (data : Data) (kind : WbKind), Aftermath s (insertEntry line data kind policy s) := fun data kind =>
    ⟨(Work.take line .writeBack s rfl).1, rfl, rfl, rfl, rfl, rfl, rfl, rfl, rfl⟩
  have hr : ∀ (data : Data) (kind : WbKind), Aftermath s (replaceEntry line data kind policy s) := fun data kind =>
    ⟨Joined.refl _, rfl, rfl, rfl, rfl, rfl, rfl, rfl, rfl⟩
  have hd : Aftermath s (count .writebacksDropped s) := ⟨Joined.refl _, rfl, rfl, rfl, rfl, rfl, rfl, rfl, rfl⟩
  unfold handDecoded
  split
  · unfold handWriteback
    repeat' split
    · exact .refl s
    · exact .refl s
    · exact hr _ _
    · exact hi _ _
    · exact hd
  · exact .refl s

theorem handDecoded_fault (line : Nat) (d : Decoded) (policy : Policy) (s : State) :
    (handDecoded line d policy s).fault = s.fault := by
  unfold handDecoded
  split
  · unfold handWriteback
    repeat' split
    all_goals rfl
  · rfl

theorem settle_fault (s : State) : (settle s).fault = s.fault := by
  obtain ⟨_, _, _, _, _, _, _, e⟩ := settle_settled s
  rw [e]

/-- The event of a read reaches the Fault Table (R12). -/
theorem handEvent_work {source : Source} {a : Access} {d : Decoded} {s : State} (u : State) :
    Work u (handEvent (eventOf source a d s) u) := by
  unfold handEvent
  split
  · rename_i ev h
    exact takeEvent_work (eventOf_bank h) u
  · exact .refl u

theorem handEvent_inner (ev : Option FaultEvent) (u : State) : Internal u (handEvent ev u) := by
  unfold handEvent
  split
  · exact takeEvent_inner _ u
  · exact .refl u

theorem handEvent_aftermath {source : Source} {a : Access} {d : Decoded} {s : State} (u : State) :
    Aftermath u (handEvent (eventOf source a d s) u) := (handEvent_inner _ u).aftermath (handEvent_work u)

/-! ## An access performed -/

section

variable (a : Access) (s : State)

@[simp] theorem finishAccess_link : (finishAccess a s).link = s.link := by
  obtain ⟨m, _, e⟩ := finishAccess_spec a s
  rw [e]

@[simp] theorem finishAccess_wbq : (finishAccess a s).wbq = s.wbq := by
  obtain ⟨m, _, e⟩ := finishAccess_spec a s
  rw [e]

@[simp] theorem finishAccess_regions : (finishAccess a s).regions = s.regions := by
  obtain ⟨m, _, e⟩ := finishAccess_spec a s
  rw [e]

@[simp] theorem finishAccess_patrol : (finishAccess a s).patrol = s.patrol := by
  obtain ⟨m, _, e⟩ := finishAccess_spec a s
  rw [e]

@[simp] theorem finishAccess_fault : (finishAccess a s).fault = s.fault := by
  obtain ⟨m, _, e⟩ := finishAccess_spec a s
  rw [e]

@[simp] theorem finishAccess_repair : (finishAccess a s).repair = s.repair := by
  obtain ⟨m, _, e⟩ := finishAccess_spec a s
  rw [e]

@[simp] theorem finishAccess_hammer : (finishAccess a s).hammer = s.hammer := by
  obtain ⟨m, _, e⟩ := finishAccess_spec a s
  rw [e]

@[simp] theorem finishAccess_maint : (finishAccess a s).maint = s.maint := by
  obtain ⟨m, _, e⟩ := finishAccess_spec a s
  rw [e]

@[simp] theorem finishAccess_params : (finishAccess a s).params = s.params := by
  obtain ⟨m, _, e⟩ := finishAccess_spec a s
  rw [e]

@[simp] theorem finishAccess_counters : (finishAccess a s).counters = s.counters := by
  obtain ⟨m, _, e⟩ := finishAccess_spec a s
  rw [e]

@[simp] theorem finishAccess_dram : (finishAccess a s).dram = s.dram := by
  obtain ⟨m, _, e⟩ := finishAccess_spec a s
  rw [e]

end

/-! ## Demand reads (R13) -/

theorem execDemandReadDecode_of {s : State} {line tag : Nat} {a : Access} (damage : Line) (h : performable s line = some a)
    (hk : a.kind = .demandRead tag) : exec (.demandReadDecode line damage) s =
      .next (settle (demandDecoded a tag (decodeAccess s a damage) s)) := by
  show execDemandReadDecode line damage s = _
  simp only [execDemandReadDecode, h, hk]

/-- The return of a demand read, with the rest of the state as the access left it (R13, R18). -/
theorem handDemandReturn_finished (a : Access) (tag : Nat) (f : ReturnFrame) (s : State) :
    handDemandReturn tag f (finishAccess a s) = { finishAccess a s with link :=
      if s.maint.clearing then { s.link with tags := s.link.tags &&& ~~~BitVec.ofNat 64 (2 ^ tag) }
      else { s.link with returns := s.link.returns ++ [f] } } := by
  unfold handDemandReturn
  rw [finishAccess_maint, ← finishAccess_link a s]
  split <;> rfl

/-- Settles O31: the command is the model's own chain, and what follows the return is Aftermath. -/
theorem demandReadsAreAnswered : Obligations.DemandReadsAreAnswered := by
  intro s line damage a tag h hk d outcome policy u v
  obtain ⟨rfl, -, -⟩ := performable_fronts h
  have hu : u = handDemandReturn tag (.data tag d.dataOutcome d.data) (finishAccess a s) := by
    rw [handDemandReturn_finished]
    have ho : outcome = d.dataOutcome := by
      simp only [outcome, Decoded.dataOutcome]
      cases d.outcome <;> rfl
    rw [← ho]
  have hv : v = handEvent (eventOf .demand a d s) u := rfl
  have hafter : Aftermath u (settle (handDecoded a.line d policy v)) :=
    (hv ▸ handEvent_aftermath u).trans ((handDecoded_aftermath _ _ _ _).trans (settle_aftermath _))
  refine ⟨settle (handDecoded a.line d policy v), ?_, rfl, hafter.joins, hafter.returns, hafter.tags, hafter.openRows,
    hafter.dram.trans (finishAccess_dram a s), hafter.maint.trans (finishAccess_maint a s),
    hafter.params.trans (finishAccess_params a s), hafter.hammer.trans (finishAccess_hammer a s),
    hafter.entries.trans (congrArg _ (finishAccess_regions a s)), fun hnone => ?_⟩
  · rw [execDemandReadDecode_of damage h hk, hv, hu]
    rfl
  · rw [settle_fault, handDecoded_fault, hv, hnone]
    exact finishAccess_fault a s

/-! ## Scrub reads (R14) -/

theorem execScrubReadDecode_patrol {s : State} {line : Nat} {a : Access} {owned : Bool} (damage : Line)
    (h : performable s line = some a) (hk : a.kind = .patrolRead owned) : exec (.scrubReadDecode line damage) s =
      .next (settle (patrolDecoded a owned (decodeAccess s a damage) s)) := by
  show execScrubReadDecode line damage s = _
  simp only [execScrubReadDecode, h, hk]

theorem execScrubReadDecode_targeted {s : State} {line row : Nat} {a : Access} (damage : Line)
    (h : performable s line = some a) (hk : a.kind = .targetedRead row) : exec (.scrubReadDecode line damage) s =
      .next (settle (targetedDecoded a (decodeAccess s a damage) s)) := by
  show execScrubReadDecode line damage s = _
  simp only [execScrubReadDecode, h, hk]

/-- An event counted against the region of the sweep (R58). -/
theorem countSweepEvent_some {s : State} {i : Nat} (ev : FaultEvent) (h : sweptRegion s = some i) :
    countSweepEvent (some ev) s = setRegion i { regionAt s i with status := { (regionAt s i).status with
      corrected := satAdd (regionAt s i).status.corrected (!ev.isUncorrectable).toNat
      uncorrectable := satAdd (regionAt s i).status.uncorrectable ev.isUncorrectable.toNat } } s := by
  simp only [countSweepEvent, h]

theorem regionAt_setRegion {s : State} {i : Nat} (h : i < s.regions.length) (g : Region) :
    regionAt (setRegion i g s) i = g := by
  simp [regionAt, setRegion, h]

theorem sweptRegion_eq {s t : State} (ha : t.patrol.active = s.patrol.active) (hh : t.patrol.held = s.patrol.held) :
    sweptRegion t = sweptRegion s := by
  unfold sweptRegion
  rw [ha, hh]

theorem countSweepEvent_aftermath (ev : Option FaultEvent) (s : State) : Aftermath s (countSweepEvent ev s) := by
  unfold countSweepEvent
  split
  · dsimp only
    exact (Settled.region _ _ s (by rfl)).aftermath (.region _ _ s)
  · exact .refl s

theorem lineDone_aftermath (s : State) : Aftermath s (lineDone s) :=
  ⟨Joined.refl _, rfl, rfl, rfl, rfl, rfl, rfl, rfl, rfl⟩

theorem patrolDecoded_aftermath (a : Access) (owned : Bool) (d : Decoded) (s : State) :
    Aftermath (finishAccess a s) (patrolDecoded a owned d s) := by
  have h := handEvent_aftermath (source := .patrol) (a := a) (d := d) (s := s) (finishAccess a s)
  cases owned with
  | false => exact h.trans (handDecoded_aftermath _ _ _ _)
  | true =>
    exact (h.trans (countSweepEvent_aftermath _ _)).trans
      ((handDecoded_aftermath _ _ _ _).trans (lineDone_aftermath _))

theorem targetedDecoded_aftermath (a : Access) (d : Decoded) (s : State) :
    Aftermath (finishAccess a s) (targetedDecoded a d s) := by
  have h := handEvent_aftermath (source := .targeted) (a := a) (d := d) (s := s) (finishAccess a s)
  unfold targetedDecoded
  dsimp only
  split
  · exact h.trans (handDecoded_aftermath _ _ _ _)
  · exact h

/-- The event of a line of the sweep in the slot or the held record, counted against its region (R58). -/
theorem countSweepEvent_region {s t : State} {ev : FaultEvent} {w : Sweep} (ht : Internal s t)
    (hw : s.patrol.active = some w ∨ s.patrol.active = none ∧ s.patrol.held = some w) (hi : w.region < s.regions.length) :
    let g := (regionAt s w.region).status
    regionAt (countSweepEvent (some ev) t) w.region = { regionAt s w.region with status :=
      if ev.located = none then
        { g with corrected := satAdd g.corrected 0, uncorrectable := satAdd g.uncorrectable 1 }
      else { g with corrected := satAdd g.corrected 1, uncorrectable := satAdd g.uncorrectable 0 } } := by
  obtain ⟨_, _, _, _, _, _, _, _, _, e⟩ := ht
  have hp : t.patrol = { s.patrol with tsq := t.patrol.tsq } := congrArg State.patrol e
  have hr : t.regions = s.regions := by rw [e]
  have hs : sweptRegion t = some w.region := by
    rw [sweptRegion_eq (s := s) (by rw [hp]) (by rw [hp])]
    rcases hw with ha | ⟨ha, hh⟩
    · simp [sweptRegion, ha]
    · simp [sweptRegion, ha, hh]
  have hg : regionAt t w.region = regionAt s w.region := by
    unfold regionAt
    rw [hr]
  rw [countSweepEvent_some ev hs, regionAt_setRegion (hr ▸ hi), hg]
  cases hl : ev.located <;> simp [FaultEvent.isUncorrectable, hl]

/-- Settles O32: each clause is one chain of the model, and every chain is Aftermath of the access performed. -/
theorem scrubReadsAreDone : Obligations.ScrubReadsAreDone := by
  intro s line damage a h rank bank d policy after done lineIsDone
  obtain ⟨rfl, -, -⟩ := performable_fronts h
  have hafter : ∀ source, after source = handEvent (eventOf source a d s) (finishAccess a s) := fun _ => rfl
  refine ⟨fun hk => ?_, fun hk => ⟨fun hnone => ?_, fun ev w hev hw => ?_, ?_⟩, fun row hk => ?_, fun hk => ?_⟩
  · rw [execScrubReadDecode_patrol damage h hk]
    rfl
  · show countSweepEvent (eventOf .patrol a d s) (after .patrol) = _
    rw [hafter, hnone]
    rfl
  · intro g hi
    show regionAt (countSweepEvent (eventOf .patrol a d s) (after .patrol)) w.region = _
    rw [hafter, hev]
    have ht : Internal (finishAccess a s) (handEvent (some ev) (finishAccess a s)) := handEvent_inner _ _
    have hreg : regionAt (finishAccess a s) w.region = regionAt s w.region := by simp [regionAt]
    have := countSweepEvent_region (ev := ev) (w := w) ht (by simpa using hw) (by simpa using hi)
    simpa only [hreg] using this
  · rw [execScrubReadDecode_patrol damage h hk]
    rfl
  · rw [execScrubReadDecode_targeted damage h hk]
    show (.next (settle (if serves s rank bank a.row then handDecoded a.line d policy (after .targeted)
      else after .targeted)) : Answer) = _
    unfold serves
    cases heldRow s rank bank a.row with
    | none => rfl
    | some l => simp
  · obtain ⟨u, hu, he⟩ : ∃ u, Aftermath (finishAccess a s) u ∧
        exec (.scrubReadDecode a.line damage) s = .next (settle u) := by
      cases hkind : a.kind with
      | patrolRead owned =>
        exact ⟨_, patrolDecoded_aftermath a owned _ s, execScrubReadDecode_patrol damage h hkind⟩
      | targetedRead row => exact ⟨_, targetedDecoded_aftermath a _ s, execScrubReadDecode_targeted damage h hkind⟩
      | _ => simp [hkind, AccessKind.isScrub] at hk
    have ht := hu.trans (settle_aftermath u)
    exact ⟨_, he, ht.joins, ht.returns.trans (by rw [finishAccess_link]), ht.tags.trans (by rw [finishAccess_link]),
      ht.dram.trans (finishAccess_dram a s), ht.maint.trans (finishAccess_maint a s)⟩

/-! ## The reads of masked writes and of copies (R15, R16) -/

theorem execRmwReadDecode_of {s : State} {line tag : Nat} {a : Access} {data : Data} {mask : BitVec 64} (damage : Line)
    (h : performable s line = some a) (hk : a.kind = .maskedWrite tag data mask none) :
    exec (.rmwReadDecode line damage) s = .next (settle (handEvent (eventOf .rmw a (decodeAccess s a damage) s)
      (mergeUnit a tag data mask (decodeAccess s a damage) s))) := by
  show execRmwReadDecode line damage s = _
  simp only [execRmwReadDecode, h, hk]

theorem execCopyReadDecode_of {s : State} {line : Nat} {a : Access} (damage : Line) (h : performable s line = some a)
    (hk : a.kind = .copyRead) : exec (.copyReadDecode line damage) s =
      .next (settle (copyDecoded a (decodeAccess s a damage) s)) := by
  show execCopyReadDecode line damage s = _
  simp only [execCopyReadDecode, h, hk]

/-- Fresh after CLEAN and CORRECTED, and else with the poison mark (R15, R16). -/
theorem Decoded.form_eq (d : Decoded) :
    d.form = if d.outcome = .clean ∨ d.outcome = .corrected then .fresh else .poison := by
  unfold Decoded.form
  cases d.outcome <;> rfl

theorem mergeUnit_spec (a : Access) (tag : Nat) (data : Data) (mask : BitVec 64) (d : Decoded) (s : State) :
    let u := mergeUnit a tag data mask d s
    u.port.accesses = updateFirst a.line (fun b => { b with
      kind := .maskedWrite tag data mask (some (overlay mask data d.data, d.form)), phase := .merging }) s.port.accesses ∧
    u = { s with port := { s.port with openRows := u.port.openRows, accesses := u.port.accesses } } := by
  obtain ⟨m, _, e⟩ := restartHold_spec (rankOfAccess s a) (bankOfAccess s a) a.lastRow { s with port := { s.port with
    accesses := updateFirst a.line (fun b => { b with
      kind := .maskedWrite tag data mask (some (overlay mask data d.data, d.form)), phase := .merging }) s.port.accesses } }
  have hm : mergeUnit a tag data mask d s = _ := e
  intro u
  have hu : u = _ := hm
  rw [hu]
  exact ⟨rfl, rfl⟩

/-- What the event of a read that hands on no write-back and no return leaves as it was (R15, R16). -/
theorem event_settled {source : Source} {a : Access} {d : Decoded} {s u : State} (hlink : u.link = s.link)
    (hwbq : u.wbq = s.wbq) (hdram : u.dram = s.dram) (hmaint : u.maint = s.maint) (hparams : u.params = s.params) :
    let t := settle (handEvent (eventOf source a d s) u)
    JoinsBehind u t ∧ t.wbq.Sublist s.wbq ∧ plain t.link.returns = plain s.link.returns ∧ t.link.tags = s.link.tags ∧
      t.dram = s.dram ∧ t.maint = s.maint ∧ t.params = s.params := by
  have h := (handEvent_aftermath (source := source) (a := a) (d := d) (s := s) u).trans (settle_aftermath _)
  have hw : (settle (handEvent (eventOf source a d s) u)).wbq.Sublist u.wbq :=
    (settle_settled _).2.1.1.trans (handEvent_inner _ _).2.1.1
  rw [← hlink, ← hwbq, ← hdram, ← hmaint, ← hparams]
  exact ⟨h.joins, hw, h.returns, h.tags, h.dram, h.maint, h.params⟩

/-- A job's line counted by the outcome of its read (R141). -/
theorem countCopied_eq (d : Decoded) (s : State) : countCopied d.outcome s = { s with repair := { s.repair with
    jobs := match s.repair.jobs with
      | j :: rest => (match d.outcome with
        | .clean => { j with clean := j.clean + 1 }
        | .corrected => { j with corrected := j.corrected + 1 }
        | _ => { j with poisoned := j.poisoned + 1 }) :: rest
      | [] => [] } } := by
  unfold countCopied setRunningJob
  cases hj : s.repair.jobs with
  | nil =>
    simp only
    rw [← hj]
  | cons j rest => cases d.outcome <;> rfl

/-- Settles O33: each read fixes its write in one step, and what follows is Aftermath. -/
theorem mergesAndCopiesAreFixed : Obligations.MergesAndCopiesAreFixed := by
  refine ⟨fun s line damage a tag data mask h hk => ?_, fun s line damage a h hk => ?_⟩
  · intro d form
    obtain ⟨rfl, -, -⟩ := performable_fronts h
    have hform : form = d.form := d.form_eq.symm
    obtain ⟨hacc, hu⟩ := mergeUnit_spec a tag data mask d s
    refine ⟨overlay mask data d.data, mergeUnit a tag data mask d s, _, overlay_byte mask data d.data, ?_, hu,
      execRmwReadDecode_of damage h hk, rfl, ?_⟩
    · rw [hform]
      exact hacc
    · exact event_settled (by rw [hu]) (by rw [hu]) (by rw [hu]) (by rw [hu]) (by rw [hu])
  · intro d form fixed counted u
    obtain ⟨rfl, -, -⟩ := performable_fronts h
    have hform : form = d.form := d.form_eq.symm
    have hu : u = countCopied d.outcome { finishAccess a s with port := { (finishAccess a s).port with
        accesses := (finishAccess a s).port.accesses.map (fixPayload a.line (d.data, d.form)) } } := by
      rw [countCopied_eq, ← hform, finishAccess_repair]
      rfl
    have hcopied : copyDecoded a d s = handEvent (eventOf .repair a d s) u := by
      rw [hu]
      rfl
    have hexec : exec (.copyReadDecode a.line damage) s = .next (settle (copyDecoded a d s)) :=
      execCopyReadDecode_of damage h hk
    refine ⟨settle (handEvent (eventOf .repair a d s) u), ?_, rfl, event_settled (finishAccess_link a s)
      (finishAccess_wbq a s) (finishAccess_dram a s) (finishAccess_maint a s) (finishAccess_params a s)⟩
    rw [hexec, hcopied]

end Sys2Proof.Machine
end

