-- ==== Sys2Proof/Proofs/WritesPerformed.lean ====
section
/-! O27: what a performed write of each kind leaves. -/

namespace Sys2Proof.Machine

open Sys2Proof

/-! ## The line written -/

theorem Written.congr {a : Access} {data : Data} {form : Form} {s t u : State} (h : Written a data form s u)
    (hd : t.dram = u.dram) : Written a data form s t := by
  intro place
  rw [hd]
  exact h place

/-- A written line is read back from its row, and from the spare of a doubled write (R3, R142). -/
theorem writeLine_written (a : Access) (data : Data) (form : Form) {s : State} (h : DramCanonical s) :
    Written a data form s (writeLine a data form s) := by
  intro place
  unfold writeLine
  dsimp only
  cases hd : a.double with
  | none =>
    show dramRead (dramWrite s.dram (placeIn s a a.row) _) place = _
    rw [dramRead_write _ _ _ _ h]
    simp
  | some spare =>
    show dramRead (dramWrite (dramWrite s.dram (placeIn s a a.row) _) (placeIn s a spare) _) place = _
    rw [dramRead_write _ _ _ _ (dramWf_write _ _ _ h), dramRead_write _ _ _ _ h]
    by_cases h1 : place = placeIn s a spare <;> by_cases h2 : place = placeIn s a a.row <;> simp [h1, h2]

theorem restartHold_dram (rank bank row : Nat) (s : State) (m : AMap Line) :
    restartHold rank bank row { s with dram := m } = { restartHold rank bank row s with dram := m } := by
  have hb : rowBusy { s with dram := m } rank bank row = rowBusy s rank bank row := rfl
  unfold restartHold
  simp only [hb]
  split
  · split
    · split <;> rfl
    · rfl
  · rfl

/-- Line order and the open rows take no notice of the DRAM. -/
theorem finishAccess_writeLine (a : Access) (data : Data) (form : Form) (s : State) :
    finishAccess a (writeLine a data form s) = { finishAccess a s with dram := (writeLine a data form s).dram } := by
  obtain ⟨m, _, e⟩ := writeLine_spec a data form s
  rw [e]
  exact restartHold_dram _ _ _ { s with port := { s.port with accesses := removeFirst a.line s.port.accesses } } m

/-! ## The write leaves the drain count -/

theorem countP_removeFirst (p : Access → Bool) {l : List Access} {a : Access} (h : Fronts a l) (ha : p a = true) :
    (removeFirst a.line l).countP p = l.countP p - 1 := by
  induction l with
  | nil => rfl
  | cons b l ih =>
    unfold Fronts at h ih
    by_cases hb : b.line = a.line
    · have hab : b = a := by simpa [hb] using h
      subst hab
      simp [removeFirst, ha]
    · rw [List.find?_cons_of_neg (by simpa using hb)] at h
      have hpos : 0 < l.countP p := List.countP_pos_iff.2 ⟨a, List.mem_of_find?_eq_some h, ha⟩
      simp only [removeFirst, hb, if_false, List.countP_cons, ih h]
      omega

theorem finishAccess_port (a : Access) (s : State) : (finishAccess a s).port = { s.port with
    accesses := removeFirst a.line s.port.accesses, openRows := (finishAccess a s).port.openRows } := by
  obtain ⟨m, _, e⟩ := finishAccess_spec a s
  rw [e]

theorem drainCount_finishAccess {a : Access} {s : State} (h : Fronts a s.port.accesses)
    (ha : a.kind.isDemandWrite = true) : drainCount (finishAccess a s) = drainCount s - 1 := by
  unfold drainCount
  rw [finishAccess_port]
  exact countP_removeFirst _ h ha

/-! ## Demand writes (R17, R30) -/

/-- The access performed and the drain count reviewed (R26, R32). -/
theorem reviewDrain_finished {a : Access} {s : State} (data : Data) (form : Form) (h : Fronts a s.port.accesses)
    (ha : a.kind.isDemandWrite = true) :
    let drain := drainAfter (drainCount s - 1) s.port.drain
    reviewDrain (finishAccess a (writeLine a data form s)) = { finishAccess a s with
      dram := (writeLine a data form s).dram, port := { (finishAccess a s).port with drain := drain }
      counters := { s.counters with drainEntries := countedIf (drain && !s.port.drain) s.counters.drainEntries } } := by
  have hp : (finishAccess a s).port.drain = s.port.drain := by rw [finishAccess_port]
  have hd : drainCount { finishAccess a s with dram := (writeLine a data form s).dram } = drainCount s - 1 :=
    drainCount_finishAccess h ha
  rw [finishAccess_writeLine, reviewDrain_eq, hd]
  simp only [finishAccess_counters, hp]

/-- A demand write performed, with the ACK that answers it (R15, R17). -/
def answeredWrite (a : Access) (tag : Nat) (data : Data) (form : Form) (status : AckStatus) (s : State) : State :=
  handDemandReturn tag (.ack tag status) (reviewDrain (finishAccess a (writeLine a data form s)))

theorem mergeStatus_eq (form : Form) : mergeStatus form = if form = .fresh then .ok else .poisonedMerge := by
  cases form <;> rfl

theorem answeredWrite_spec {a : Access} {s : State} (tag : Nat) (data : Data) (form : Form) (status : AckStatus)
    (hs : DramCanonical s) (h : Fronts a s.port.accesses) (ha : a.kind.isDemandWrite = true) :
    let t := answeredWrite a tag data form status s
    Written a data form s t ∧
      t.port.drain = drainAfter (drainCount s - 1) s.port.drain ∧
      (s.maint.clearing = false → t.link = { s.link with returns := s.link.returns ++ [.ack tag status] }) ∧
      (s.maint.clearing = true → t.link = { s.link with tags := s.link.tags &&& ~~~BitVec.ofNat 64 (2 ^ tag) }) ∧
      t = { finishAccess a s with
        link := t.link, dram := t.dram, port := { (finishAccess a s).port with drain := t.port.drain }
        counters := { s.counters with
          drainEntries := countedIf (t.port.drain && !s.port.drain) s.counters.drainEntries } } := by
  have hl := finishAccess_link a s
  have hw := writeLine_written a data form hs
  unfold answeredWrite handDemandReturn
  rw [reviewDrain_finished data form h ha]
  dsimp only
  rw [finishAccess_maint]
  cases hc : s.maint.clearing
  · exact ⟨hw.congr rfl, rfl, fun _ => by rw [← hl]; rfl, nofun, rfl⟩
  · exact ⟨hw.congr rfl, rfl, nofun, fun _ => by rw [← hl]; rfl, rfl⟩

/-! ## Record writes (R171) -/

theorem recordPerformed_aside (n : Word32) (s : State) :
    (recordPerformed n s).port = s.port ∧ (recordPerformed n s).dram = s.dram := by
  obtain ⟨_, _, _, h⟩ :=
    countWritten_spec (s.report.queue.map fun q => if q.sequence = n then { q with performed := true } else q) s
  have h' : recordPerformed n s = _ := h
  rw [h']
  exact ⟨rfl, rfl⟩

theorem Internal.dram_eq {s t : State} (h : Internal s t) : t.dram = s.dram := by
  obtain ⟨_, _, _, _, _, _, _, _, _, e⟩ := h
  rw [e]

theorem finishAccess_writeLine_port (a : Access) (data : Data) (form : Form) (s : State) :
    (finishAccess a (writeLine a data form s)).port = (finishAccess a s).port := by
  rw [finishAccess_writeLine]

theorem finishAccess_writeLine_written (a : Access) (data : Data) (form : Form) {s : State} (h : DramCanonical s) :
    Written a data form s (finishAccess a (writeLine a data form s)) :=
  (writeLine_written a data form h).congr (finishAccess_dram _ _)

/-- Settles O27: every kind of write is its line written, its access performed, and its own follow-up. -/
theorem writesArePerformed : Obligations.WritesArePerformed := by
  refine ⟨fun s line a tag data frame mask form status c hs h hc => ?_, fun s line a e hs h hk he => ?_,
    fun s line a n data hs h hk => ?_, fun s line a row payload forwarded hs h hk => ?_⟩
  · obtain ⟨rfl, hf, -⟩ := performable_fronts h
    rcases hc with ⟨rfl, hk, rfl, rfl⟩ | ⟨rfl, hk, rfl⟩
    · refine ⟨answeredWrite a tag data .fresh .ok s, ?_, answeredWrite_spec tag data .fresh .ok hs hf (by rw [hk]; rfl)⟩
      show execDemandWritePerformed a.line s = _
      simp only [execDemandWritePerformed, h, hk]
      rfl
    · rw [← mergeStatus_eq]
      refine ⟨answeredWrite a tag data form (mergeStatus form) s, ?_,
        answeredWrite_spec tag data form _ hs hf (by rw [hk]; rfl)⟩
      show execMaskedWritePerformed a.line s = _
      simp only [execMaskedWritePerformed, h, hk]
      rfl
  · obtain ⟨rfl, -, -⟩ := performable_fronts h
    refine ⟨entryWritten a e s, ?_, ?_, ?_⟩
    · show execWritebackPerformed a.line s = _
      simp only [execWritebackPerformed, h, he, hk, if_true]
    · rw [← WbKind.form_eq]
      exact (finishAccess_writeLine_written a e.data e.kind.form hs).congr rfl
    · unfold entryWritten
      rw [finishAccess_writeLine, ← finishAccess_counters a s, ← finishAccess_wbq a s]
      cases hkind : e.kind <;> rfl
  · obtain ⟨rfl, -, -⟩ := performable_fronts h
    obtain ⟨hport, hdram⟩ := recordPerformed_aside n (finishAccess a (writeLine a data .fresh s))
    refine ⟨recordWritten a n data s, ?_, (finishAccess_writeLine_written a data .fresh hs).congr hdram,
      hport.trans (finishAccess_writeLine_port a data .fresh s)⟩
    show execRecordWritePerformed a.line s = _
    simp only [execRecordWritePerformed, h, hk]
  · obtain ⟨rfl, -, -⟩ := performable_fronts h
    refine ⟨spareWritten a payload.1 payload.2 s, ?_, ?_, ?_⟩
    · show execCopyWritePerformed a.line s = _
      simp only [execCopyWritePerformed, h, hk]
    · exact (finishAccess_writeLine_written a payload.1 payload.2 hs).congr
        (copyWritten_inner (count .copyLines (finishAccess a (writeLine a payload.1 payload.2 s)))).dram_eq
    · have hj := (copyWritten_work (count .copyLines (finishAccess a (writeLine a payload.1 payload.2 s)))).1
      rw [joinsBehind_iff] at hj ⊢
      rw [← finishAccess_writeLine_port a payload.1 payload.2 s]
      exact hj

end Sys2Proof.Machine
end

