-- ==== Sys2Proof/Proofs/Copies.lean ====
section
/-! O29: the row copy, from one column to the next and from one job to the next. -/

namespace Sys2Proof.Machine

open Sys2Proof

/-! ## What the row copy can touch -/

/-- What a copy write and what follows it can touch. -/
def CopyStep (s t : State) : Prop :=
  t = { s with
    link := { s.link with returns := t.link.returns }
    port := { s.port with accesses := t.port.accesses }
    wbq := t.wbq, fault := { s.fault with entries := t.fault.entries }
    repair := { s.repair with slots := t.repair.slots, jobs := t.repair.jobs }, report := t.report
    counters := t.counters }

theorem CopyStep.trans {a b c : State} (h : CopyStep a b) (k : CopyStep b c) : CopyStep a c := by
  unfold CopyStep at h k ⊢
  rw [k, h]

theorem Noted.copyStep {s t : State} (h : Noted s t) : CopyStep s t := by
  unfold CopyStep
  rw [h.2.2.2]

/-- The counts of the row copy stand. -/
def CopyCounts (s t : State) : Prop :=
  t.counters.copyLines = s.counters.copyLines ∧ t.counters.repairJobsDone = s.counters.repairJobsDone

theorem CopyCounts.trans {a b c : State} (h : CopyCounts a b) (k : CopyCounts b c) : CopyCounts a c :=
  ⟨k.1.trans h.1, k.2.trans h.2⟩

theorem testAlert_counts (s : State) :
    CopyCounts s (testAlert s) ∧ (testAlert s).report.pending = s.report.pending := by
  unfold testAlert sendAlert handAlert
  dsimp only
  repeat' split
  all_goals exact ⟨⟨rfl, rfl⟩, rfl⟩

theorem raise_counts (c : Cause) (s : State) :
    CopyCounts s (raise c s) ∧ (raise c s).report.pending = s.report.pending ||| c.mark :=
  testAlert_counts { s with report := { s.report with pending := s.report.pending ||| c.mark } }

theorem handRecord_counts (r : Record) (s : State) : CopyCounts s (handRecord r s) := by
  unfold handRecord
  split
  · split
    · unfold placeRecord
      dsimp only
      rw [wbCancel_eq]
      exact ⟨rfl, rfl⟩
    · exact (raise_counts .overrun _).1
  · exact ⟨rfl, rfl⟩

/-! ## Slots -/

/-- A slot that takes a state other than FREE is listed anew, whatever the table's form. -/
theorem slotAt_setSlot_listed {v : Slot} (hv : v ≠ .free) (rank bank k rank' bank' k' : Nat) (s : State) :
    slotAt (setSlot rank bank k v s) rank' bank' k' =
      if slotKey rank' bank' k' = slotKey rank bank k then v else slotAt s rank' bank' k' := by
  unfold slotAt setSlot
  rw [if_neg hv, AMap.get_insert]
  split <;> rfl

theorem slotAt_of_slots {s t : State} (h : t.repair.slots = s.repair.slots) (rank bank k : Nat) :
    slotAt t rank bank k = slotAt s rank bank k := by
  unfold slotAt
  rw [h]

/-! ## The next pair (R29, R141) -/

theorem takePair_copying {s : State} {j : Job} {rest : List Job} {target : SlotTarget} {cursor : Nat}
    (hj : s.repair.jobs = j :: rest) (ht : slotAt s j.rank j.bank j.target = .copying target cursor) :
    let line := s.port.geom.lineOf j.rank j.bank j.logical cursor
    let row := s.port.geom.visible + j.target
    (forwardEntry s line = none → takePair s = { s with port := { s.port with accesses := s.port.accesses ++
      [{ line := line, kind := .copyRead, phase := .waiting },
       { line := line, kind := .copyWrite row none false, phase := .waiting }] } }) ∧
    (∀ e, forwardEntry s line = some e → takePair s = { s with
      port := { s.port with accesses := s.port.accesses ++
        [{ line := line, kind := .copyWrite row (some (e.data, e.kind.form)) true, phase := .waiting }] }
      repair := { s.repair with jobs := { j with taken := j.taken + 1 } :: rest }
      counters := { s.counters with writebacksForwarded := satAdd s.counters.writebacksForwarded 1 } }) := by
  intro line row
  refine ⟨fun hf => ?_, fun e hf => ?_⟩
  · simp only [takePair, hj, ht, line, hf, takeAccess, List.append_assoc, List.singleton_append]
    rfl
  · simp only [takePair, hj, ht, line, hf, takeAccess, setRunningJob]
    rfl

/-- What the next pair of the running copy can touch. -/
def PairStep (s t : State) : Prop :=
  t = { s with
    port := { s.port with accesses := t.port.accesses }
    repair := { s.repair with jobs := t.repair.jobs }
    counters := { s.counters with writebacksForwarded := t.counters.writebacksForwarded } } ∧
  t.repair.jobs.map Job.target = s.repair.jobs.map Job.target

theorem PairStep.refl (s : State) : PairStep s s := ⟨rfl, rfl⟩

theorem PairStep.copyStep {s t : State} (h : PairStep s t) : CopyStep s t := by
  unfold CopyStep
  rw [h.1]

theorem PairStep.counts {s t : State} (h : PairStep s t) : CopyCounts s t := by
  unfold CopyCounts
  rw [h.1]
  exact ⟨rfl, rfl⟩

theorem takePair_pair (s : State) : PairStep s (takePair s) := by
  cases hj : s.repair.jobs with
  | nil =>
    unfold takePair
    rw [hj]
    exact .refl s
  | cons j rest =>
    cases ht : slotAt s j.rank j.bank j.target with
    | copying target cursor =>
      obtain ⟨hnone, hsome⟩ := takePair_copying hj ht
      cases hf : forwardEntry s (s.port.geom.lineOf j.rank j.bank j.logical cursor) with
      | none =>
        rw [hnone hf]
        exact ⟨rfl, rfl⟩
      | some e =>
        rw [hsome e hf]
        exact ⟨rfl, by simp [hj]⟩
    | _ =>
      unfold takePair
      simp only [hj, ht]
      exact .refl s

theorem resumeCopy_pair (s : State) : PairStep s (resumeCopy s) := by
  unfold resumeCopy
  split
  · exact .refl s
  · exact takePair_pair s

theorem resumeCopy_quiet {s : State} (h : s.window.isSome ∨ ∃ b ∈ s.port.accesses, b.kind.isCopy = true) :
    resumeCopy s = s := by
  refine if_pos ?_
  rw [Bool.or_eq_true]
  exact h.imp id List.any_eq_true.2

theorem resumeCopy_idle {s : State} (hw : s.window = none) (ha : ∀ b ∈ s.port.accesses, b.kind.isCopy = false) :
    resumeCopy s = takePair s := by
  refine if_neg ?_
  rw [Bool.or_eq_true, not_or]
  refine ⟨by simp [State.quiet, hw], ?_⟩
  simpa [pairOutstanding] using ha

/-! ## The next job (R140) -/

theorem startJob_reserved {s : State} {j : Job} {rest : List Job} {target : SlotTarget} (hj : s.repair.jobs = j :: rest)
    (ht : slotAt s j.rank j.bank j.target = .reserved target) :
    startJob s = resumeCopy (setSlot j.rank j.bank j.target (.copying target 0) s) := by
  simp only [startJob, hj, ht]

/-- The start of the oldest job: slots that are not RESERVED stand. -/
theorem startJob_spec (s : State) : CopyStep s (startJob s) ∧ CopyCounts s (startJob s) ∧
    (startJob s).fault = s.fault ∧ (startJob s).report = s.report ∧
    (startJob s).repair.jobs.map Job.target = s.repair.jobs.map Job.target ∧
    ∀ rank bank k, (∀ target, slotAt s rank bank k ≠ .reserved target) →
      slotAt (startJob s) rank bank k = slotAt s rank bank k := by
  have hrefl : CopyStep s s ∧ CopyCounts s s ∧ s.fault = s.fault ∧ s.report = s.report ∧
      s.repair.jobs.map Job.target = s.repair.jobs.map Job.target ∧ ∀ rank bank k,
      (∀ target, slotAt s rank bank k ≠ .reserved target) → slotAt s rank bank k = slotAt s rank bank k :=
    ⟨rfl, ⟨rfl, rfl⟩, rfl, rfl, rfl, fun _ _ _ _ => rfl⟩
  unfold startJob
  split
  · exact hrefl
  · rename_i j rest hj
    split
    · rename_i target ht
      have hp := resumeCopy_pair (setSlot j.rank j.bank j.target (.copying target 0) s)
      have hslots : (resumeCopy (setSlot j.rank j.bank j.target (.copying target 0) s)).repair.slots =
          (setSlot j.rank j.bank j.target (.copying target 0) s).repair.slots := by rw [hp.1]
      refine ⟨CopyStep.trans (b := setSlot j.rank j.bank j.target (.copying target 0) s) rfl hp.copyStep,
        CopyCounts.trans (b := setSlot j.rank j.bank j.target (.copying target 0) s) ⟨rfl, rfl⟩ hp.counts, ?_, ?_, hp.2, ?_⟩
      · rw [hp.1]
        rfl
      · rw [hp.1]
        rfl
      · intro rank bank k hk
        rw [slotAt_of_slots hslots, slotAt_setSlot_listed (by simp)]
        refine if_neg fun hkey => hk target ?_
        unfold slotAt at ht ⊢
        rw [hkey, ht]
    · exact hrefl

/-! ## A copy written (R141, R145, R146) -/

/-- The slots, the queue and the Fault Table of a completed copy (R123, R145, R146). -/
def copyTold (j : Job) (rest : List Job) (target : SlotTarget) (s : State) : State :=
  let v := setSlot j.rank j.bank j.target (.active j.logical) s
  let w := match target with
    | .move k => setSlot j.rank j.bank k .dead v
    | .row _ => v
  let done : State := { w with
    repair := { w.repair with jobs := rest }
    counters := { s.counters with repairJobsDone := satAdd s.counters.repairJobsDone 1 } }
  match faultFind s j.rank j.bank j.sourceRow with
  | some i => { done with
      fault := { s.fault with
        entries := s.fault.entries.set i { faultAt s i with state := .retired, reason := none } }
      counters := { done.counters with entriesRetired := satAdd s.counters.entriesRetired 1 } }
  | none => done

/-- The ROW_RETIRED record of a completed copy (R145, R176). -/
def copyRecord (j : Job) (target : SlotTarget) (s : State) : Record :=
  let first := s.port.geom.lineOf j.rank j.bank j.logical 0
  { kind := 6, source := 5, region := regionOf s first, line := first, rank := j.rank, bank := j.bank
    row := s.port.geom.visible + j.target, slotOrCount := j.target
    detail := [(38, 4, j.sourceRow), (42, 1, match target with
      | .move k => k
      | .row _ => 255), (43, 1, if j.origin = .requested then 1 else 0), (44, 2, j.clean), (46, 2, j.corrected),
      (48, 2, j.poisoned), (50, 2, j.taken)] }

/-- The Fault Table is told once slots and queue are as the completed copy leaves them. -/
theorem faultJobDone_completed {s : State} {j : Job} {rest : List Job} (target : SlotTarget)
    (hj : s.repair.jobs = j :: rest) :
    faultJobDone j.rank j.bank j.sourceRow (count .repairJobsDone (completedSlots j target s)) =
      copyTold j rest target s := by
  have hfind : ∀ target, faultFind (count .repairJobsDone (completedSlots j target s)) j.rank j.bank j.sourceRow =
      faultFind s j.rank j.bank j.sourceRow := fun target => by cases target <;> rfl
  have htail : s.repair.jobs.tail = rest := by rw [hj]; rfl
  subst htail
  unfold faultJobDone copyTold
  rw [hfind]
  cases target <;> cases faultFind s j.rank j.bank j.sourceRow <;> rfl

theorem copyTold_places (j : Job) (rest : List Job) (target : SlotTarget) (s : State) :
    (copyTold j rest target s).port = s.port ∧ (copyTold j rest target s).regions = s.regions := by
  unfold copyTold
  cases target <;> dsimp only <;> split <;> exact ⟨rfl, rfl⟩

theorem rowRetiredRecord_eq {j : Job} {target : SlotTarget} {s t : State} (hp : t.port = s.port)
    (hr : t.regions = s.regions) : rowRetiredRecord j target.source? t = copyRecord j target s := by
  have hcode : j.origin.code = if j.origin = .requested then 1 else 0 := by cases j.origin <;> rfl
  unfold rowRetiredRecord copyRecord spareRow regionOf
  rw [hp, hr, hcode]
  cases target <;> rfl

theorem completeCopy_eq {s : State} {j : Job} {rest : List Job} (target : SlotTarget) (hj : s.repair.jobs = j :: rest) :
    completeCopy j target s =
      startJob (raise .rowRetired (handRecord (copyRecord j target s) (copyTold j rest target s))) := by
  obtain ⟨hp, hr⟩ := copyTold_places j rest target s
  have h : completeCopy j target s = startJob (raise .rowRetired (handRecord (rowRetiredRecord j target.source?
      (faultJobDone j.rank j.bank j.sourceRow (count .repairJobsDone (completedSlots j target s))))
      (faultJobDone j.rank j.bank j.sourceRow (count .repairJobsDone (completedSlots j target s))))) := rfl
  rw [h, faultJobDone_completed target hj, rowRetiredRecord_eq hp hr]

theorem copyTold_step (j : Job) (rest : List Job) (target : SlotTarget) (s : State) :
    CopyStep s (copyTold j rest target s) := by
  unfold copyTold
  cases target <;> dsimp only <;> split <;> rfl

theorem copyTold_repair (j : Job) (rest : List Job) (target : SlotTarget) (s : State) :
    (copyTold j rest target s).repair.jobs = rest ∧
    (copyTold j rest target s).counters.repairJobsDone = satAdd s.counters.repairJobsDone 1 ∧
    (copyTold j rest target s).counters.copyLines = s.counters.copyLines := by
  unfold copyTold
  cases target <;> dsimp only <;> split <;> exact ⟨rfl, rfl, rfl⟩

theorem copyTold_fault (j : Job) (rest : List Job) (target : SlotTarget) (s : State) :
    (∀ i, faultFind s j.rank j.bank j.sourceRow = some i → (copyTold j rest target s).fault.entries =
      s.fault.entries.set i { faultAt s i with state := .retired, reason := none }) ∧
    (faultFind s j.rank j.bank j.sourceRow = none → (copyTold j rest target s).fault = s.fault) := by
  unfold copyTold
  refine ⟨fun i hi => ?_, fun hn => ?_⟩
  · simp only [hi]
  · simp only [hn]
    cases target <;> rfl

/-- The slot filled is ACTIVE, and the slot it was moved from is DEAD (R145, R146). -/
theorem copyTold_slots (j : Job) (rest : List Job) {target : SlotTarget} (s : State) (ht : target ≠ .move j.target) :
    slotAt (copyTold j rest target s) j.rank j.bank j.target = .active j.logical ∧
    ∀ k, target = .move k → slotAt (copyTold j rest target s) j.rank j.bank k = .dead := by
  cases target with
  | row l =>
    have hs : (copyTold j rest (.row l) s).repair.slots =
        (setSlot j.rank j.bank j.target (.active j.logical) s).repair.slots := by
      unfold copyTold
      dsimp only
      split <;> rfl
    rw [slotAt_of_slots hs, slotAt_setSlot_listed (by simp), if_pos rfl]
    exact ⟨rfl, nofun⟩
  | move m =>
    have hs : (copyTold j rest (.move m) s).repair.slots =
        (setSlot j.rank j.bank m .dead (setSlot j.rank j.bank j.target (.active j.logical) s)).repair.slots := by
      unfold copyTold
      dsimp only
      split <;> rfl
    refine ⟨?_, ?_⟩
    · rw [slotAt_of_slots hs, slotAt_setSlot_listed (by simp), if_neg, slotAt_setSlot_listed (by simp), if_pos rfl]
      intro hkey
      have hmj : m = j.target := by
        unfold slotKey at hkey
        omega
      exact ht (congrArg _ hmj)
    · rintro k hk
      cases SlotTarget.move.inj hk
      rw [slotAt_of_slots hs, slotAt_setSlot_listed (by simp), if_pos rfl]

theorem copyWritten_copying {s : State} {j : Job} {rest : List Job} {target : SlotTarget} {cursor : Nat}
    (hj : s.repair.jobs = j :: rest) (ht : slotAt s j.rank j.bank j.target = .copying target cursor) :
    copyWritten s = if cursor + 1 < s.port.geom.columns then
        resumeCopy (setSlot j.rank j.bank j.target (.copying target (cursor + 1)) s)
      else startJob (raise .rowRetired (handRecord (copyRecord j target s) (copyTold j rest target s))) := by
  rw [← completeCopy_eq target hj]
  simp only [copyWritten, hj, ht]

/-- The copy goes on to its next column (R141, R144). -/
theorem copyAdvanced_spec {s : State} (j : Job) (target : SlotTarget) (cursor : Nat) :
    let t := resumeCopy (setSlot j.rank j.bank j.target (.copying target cursor) s)
    CopyStep s t ∧ CopyCounts s t ∧ slotAt t j.rank j.bank j.target = .copying target cursor ∧ t.fault = s.fault ∧
      t.report = s.report ∧ t.link = s.link ∧ t.repair.jobs.map Job.target = s.repair.jobs.map Job.target ∧
      (s.window.isSome → t.port = s.port) := by
  intro t
  obtain ⟨h, hjobs⟩ := resumeCopy_pair (setSlot j.rank j.bank j.target (.copying target cursor) s)
  have hslots : t.repair.slots = (setSlot j.rank j.bank j.target (.copying target cursor) s).repair.slots := by
    show (resumeCopy _).repair.slots = _
    rw [h]
  refine ⟨CopyStep.trans (b := setSlot j.rank j.bank j.target (.copying target cursor) s) rfl
      (PairStep.copyStep ⟨h, hjobs⟩),
    CopyCounts.trans (b := setSlot j.rank j.bank j.target (.copying target cursor) s) ⟨rfl, rfl⟩
      (PairStep.counts ⟨h, hjobs⟩), ?_, ?_, ?_, ?_, hjobs, fun hw => ?_⟩
  · rw [slotAt_of_slots hslots, slotAt_setSlot_listed (by simp), if_pos rfl]
  · show (resumeCopy _).fault = _
    rw [h]
    rfl
  · show (resumeCopy _).report = _
    rw [h]
    rfl
  · show (resumeCopy _).link = _
    rw [h]
    rfl
  · show (resumeCopy _).port = _
    rw [resumeCopy_quiet (s := setSlot j.rank j.bank j.target (.copying target cursor) s) (.inl hw)]
    rfl

/-- The copy completes, and the next job starts (R123, R140, R145, R146). -/
theorem copyCompleted_spec {s : State} (j : Job) (rest : List Job) {target : SlotTarget} (r : Record)
    (ht : target ≠ .move j.target) :
    let t := startJob (raise .rowRetired (handRecord r (copyTold j rest target s)))
    CopyStep s t ∧ t.counters.copyLines = s.counters.copyLines ∧
      slotAt t j.rank j.bank j.target = .active j.logical ∧
      (∀ k, target = .move k → slotAt t j.rank j.bank k = .dead) ∧
      t.repair.jobs.map Job.target = rest.map Job.target ∧
      t.counters.repairJobsDone = satAdd s.counters.repairJobsDone 1 ∧ t.report.pending.getLsbD 8 = true ∧
      (∀ i, faultFind s j.rank j.bank j.sourceRow = some i →
        t.fault.entries = s.fault.entries.set i { faultAt s i with state := .retired, reason := none }) ∧
      (faultFind s j.rank j.bank j.sourceRow = none → t.fault = s.fault) := by
  intro t
  let v := raise .rowRetired (handRecord r (copyTold j rest target s))
  have hnoted : Noted (copyTold j rest target s) v :=
    (handRecord_noted _ _).trans (raise_alerted .rowRetired _).noted
  have hfault : v.fault = (copyTold j rest target s).fault := hnoted.fault_eq
  have hrepair : v.repair = (copyTold j rest target s).repair := by rw [hnoted.2.2.2]
  obtain ⟨hraise, hpending⟩ := raise_counts .rowRetired (handRecord r (copyTold j rest target s))
  have hcounts : CopyCounts (copyTold j rest target s) v := (handRecord_counts r _).trans hraise
  obtain ⟨hstep, hstart, hsfault, hsreport, hsjobs, hsslots⟩ := startJob_spec v
  obtain ⟨hjobs, hdone, hlines⟩ := copyTold_repair j rest target s
  obtain ⟨hactive, hdead⟩ := copyTold_slots j rest s ht
  obtain ⟨hfound, hlost⟩ := copyTold_fault j rest target s
  have hslot : ∀ k, slotAt v j.rank j.bank k = slotAt (copyTold j rest target s) j.rank j.bank k := fun k =>
    slotAt_of_slots (by rw [hrepair]) _ _ _
  refine ⟨((copyTold_step j rest target s).trans hnoted.copyStep).trans hstep,
    hstart.1.trans (hcounts.1.trans hlines), ?_, fun k hk => ?_, ?_, hstart.2.trans (hcounts.2.trans hdone), ?_,
    fun i hi => ?_, fun hn => ?_⟩
  · show slotAt (startJob v) j.rank j.bank j.target = _
    rw [hsslots _ _ _ (by rw [hslot, hactive]; nofun), hslot, hactive]
  · show slotAt (startJob v) j.rank j.bank k = _
    rw [hsslots _ _ _ (by rw [hslot, hdead k hk]; nofun), hslot, hdead k hk]
  · rw [hsjobs, hrepair, hjobs]
  · show (startJob v).report.pending.getLsbD 8 = true
    rw [hsreport, hpending, BitVec.getLsbD_or, show Cause.rowRetired.mark.getLsbD 8 = true by decide, Bool.or_true]
  · show (startJob v).fault.entries = _
    rw [hsfault, hfault, hfound i hi]
  · show (startJob v).fault = _
    rw [hsfault, hfault, hlost hn]

/-- A copy write performed is a copy's step from the state with its line written (R3, R141). -/
theorem spareWritten_eq (a : Access) (data : Data) (form : Form) (s : State) :
    spareWritten a data form s = copyWritten { finishAccess a s with
      dram := (writeLine a data form s).dram
      counters := { s.counters with copyLines := satAdd s.counters.copyLines 1 } } := by
  unfold spareWritten
  rw [finishAccess_writeLine, ← finishAccess_counters a s]
  rfl

/-- Settles O29: a copy write is its line written and then the one step of the copy that its column calls for. -/
theorem copiesFillTheSpare : Obligations.CopiesFillTheSpare := by
  refine ⟨fun s line a row payload forwarded j rest target cursor hs h hk hj ht hne => ?_,
    fun s j rest target cursor hj ht => ?_, fun s => ⟨fun hj => ?_, fun j rest target hj ht => startJob_reserved hj ht⟩,
    fun s rank bank k slot hr => ⟨rfl, fun key => get_setSlot hr rank bank k slot key⟩⟩
  · obtain ⟨rfl, -, -⟩ := performable_fronts h
    obtain ⟨m, _, hfin⟩ := finishAccess_spec a s
    let u : State := { s with
      port := { s.port with accesses := removeFirst a.line s.port.accesses, openRows := m }
      dram := (writeLine a payload.1 payload.2 s).dram
      counters := { s.counters with copyLines := satAdd s.counters.copyLines 1 } }
    have hu : spareWritten a payload.1 payload.2 s = copyWritten u := by
      rw [spareWritten_eq, hfin]
    have hexec : exec (.copyWritePerformed a.line) s = .next (copyWritten u) := by
      show execCopyWritePerformed a.line s = _
      simp only [execCopyWritePerformed, h, hk, hu]
    have hcopy := copyWritten_copying (s := u) (j := j) (rest := rest) (target := target) (cursor := cursor) hj ht
    have hdram : (copyWritten u).dram = u.dram := (copyWritten_inner u).dram_eq
    have hwritten : Written a payload.1 payload.2 s (copyWritten u) := (writeLine_written a _ _ hs).congr hdram
    have hjoins : JoinsBehind u (copyWritten u) := (copyWritten_work u).1
    have hstep : CopyStep u (copyWritten u) ∧ (copyWritten u).counters.copyLines = u.counters.copyLines := by
      rw [hcopy]
      split
      · obtain ⟨hc, hn, -⟩ := copyAdvanced_spec (s := u) j target (cursor + 1)
        exact ⟨hc, hn.1⟩
      · obtain ⟨hc, hn, -⟩ := copyCompleted_spec (s := u) j rest (copyRecord j target u) hne
        exact ⟨hc, hn⟩
    rw [hfin]
    refine ⟨copyWritten u, hexec, hwritten, hstep.2, hjoins, ?_, fun hcol => ?_, fun hcol => ?_, ?_⟩
    · rw [hdram]
      exact hcopy
    · rw [if_pos hcol] at hcopy
      rw [hcopy]
      obtain ⟨-, -, hrest⟩ := copyAdvanced_spec (s := u) j target (cursor + 1)
      exact hrest
    · rw [if_neg (Nat.not_lt.2 hcol)] at hcopy
      rw [hcopy]
      obtain ⟨-, -, hrest⟩ := copyCompleted_spec (s := u) j rest (copyRecord j target u) hne
      exact hrest
    · have hlast : copyWritten u = _ := hstep.1
      rw [hlast]
  · refine ⟨resumeCopy_quiet, fun hw ha => ?_⟩
    rw [resumeCopy_idle hw ha]
    obtain ⟨hnone, hsome⟩ := takePair_copying hj ht
    refine ⟨fun hf => hnone (forwardEntry_eq_none hf), fun e he hc => ?_⟩
    rw [← WbKind.form_eq]
    exact hsome e ((forwardEntry_of_clear hc).trans he)
  · simp only [startJob, hj]

end Sys2Proof.Machine
end

