-- ==== Sys2Proof/Proofs/Keeps.lean ====
section
/-! What every command keeps: the line code, the commands that wait, and the canonical forms of the DRAM, the open rows and
the Remap Table. One lemma per operation of the model. -/

namespace Sys2Proof.Machine

open Sys2Proof

/-! ## The relation -/

/-- What every command keeps. -/
structure Keeps (s t : State) : Prop where
  code : t.code = s.code
  pending : t.pending = s.pending
  dram : dramWf s.dram = true → dramWf t.dram = true
  rows : AMap.rising s.port.openRows = true → AMap.rising t.port.openRows = true
  remap : RemapKept s t

/-- All that Keeps speaks of. -/
def State.kept (s : State) :=
  (s.code, s.pending, s.dram, s.port.openRows, s.port.geom, s.repair.slots, s.repair.jobs)

theorem Keeps.refl (s : State) : Keeps s s := ⟨rfl, rfl, id, id, .refl s⟩

theorem Keeps.trans {a b c : State} (h : Keeps a b) (k : Keeps b c) : Keeps a c :=
  ⟨k.code.trans h.code, k.pending.trans h.pending, k.dram ∘ h.dram, k.rows ∘ h.rows, h.remap.trans k.remap⟩

theorem Keeps.ite {p : Prop} [Decidable p] {s a b : State} (h : Keeps s a) (k : Keeps s b) :
    Keeps s (if p then a else b) := by split <;> assumption

/-- An operation that moves nothing Keeps speaks of. -/
theorem Keeps.aside {s t : State} (h : t.kept = s.kept) : Keeps s t := by
  simp only [State.kept, Prod.mk.injEq] at h
  obtain ⟨hcode, hpending, hdram, hrows, hgeom, hslots, hjobs⟩ := h
  exact ⟨hcode, hpending, hdram ▸ id, hrows ▸ id, RemapSame.kept ⟨hgeom, hslots, by rw [hjobs]⟩⟩

theorem Keeps.foldl {α : Type} (f : State → α → State) (hf : ∀ s a, Keeps s (f s a)) (l : List α) (s : State) :
    Keeps s (l.foldl f s) := by
  induction l generalizing s with
  | nil => exact .refl s
  | cons a l ih => exact (hf s a).trans (ih _)

theorem Noted.keeps {s t : State} (h : Noted s t) : Keeps s t := by
  refine .aside ?_
  rw [h.2.2.2]
  rfl

theorem Alerted.keeps {s t : State} (h : Alerted s t) : Keeps s t := h.noted.keeps

theorem Watched.keeps {s t : State} (h : Watched s t) : Keeps s t := by
  refine .aside ?_
  rw [h.2.2.2.2]
  rfl

theorem Internal.keeps {s t : State} (h : Internal s t) (w : RemapKept s t) : Keeps s t := by
  obtain ⟨_, _, _, _, _, _, _, _, _, e⟩ := h
  refine ⟨?_, ?_, ?_, ?_, w⟩ <;> rw [e]
  · exact id
  · exact id

theorem Settled.keeps {s t : State} (h : Settled s t) (w : Work s t) : Keeps s t := by
  obtain ⟨_, _, _, _, _, _, _, e⟩ := h
  refine ⟨?_, ?_, ?_, ?_, w.2⟩ <;> rw [e]
  · exact id
  · exact id

theorem Keeps.count (c : Ctr) (s : State) : Keeps s (count c s) := .aside rfl

theorem Keeps.record (r : Record) (s : State) : Keeps s (handRecord r s) := (handRecord_noted r s).keeps

theorem Keeps.raise (c : Cause) (s : State) : Keeps s (raise c s) := (raise_alerted c s).keeps

theorem Keeps.reply (f : ReturnFrame) (s : State) : Keeps s (handReturn f s) := .aside rfl

/-- An access that joins line order. -/
theorem Keeps.take (line : Nat) (kind : AccessKind) (phase : Phase) (s : State) :
    Keeps s (takeAccess line kind phase s) := .aside rfl

/-- The Patrol Engine's own actions. -/
theorem settle_keeps (s : State) : Keeps s (settle s) := (settle_settled s).keeps (settle_work s)

theorem recompute_keeps (s : State) : Keeps s (recompute s) := (recompute_settled s).keeps (recompute_work s)

theorem reviewOverride_keeps (s : State) : Keeps s (reviewOverride s) :=
  (reviewOverride_settled s).keeps (reviewOverride_work s)

theorem runSelection_keeps (s : State) : Keeps s (runSelection s) := (runSelection_settled s).keeps (runSelection_work s)

theorem closeWindow_keeps (s : State) : Keeps s (closeWindow s) := (closeWindow_settled s).keeps (closeWindow_work s)

theorem overrideWindow_keeps (a b : Elapsed) (s : State) : Keeps s (overrideWindow a b s) :=
  (overrideWindow_settled a b s).keeps (overrideWindow_work a b s)

theorem atBoundary_keeps (w : Sweep) (s : State) : Keeps s (atBoundary w s) :=
  (atBoundary_settled w s).keeps (atBoundary_work w s)

/-! ## Time (R196) -/

theorem rising_map_values {α β : Type} (f : Nat × α → β) (m : AMap α) :
    AMap.rising (m.map fun p => (p.1, f p)) = AMap.rising m := by
  induction m with
  | nil => rfl
  | cons p m ih =>
    cases m with
    | nil => rfl
    | cons q m =>
      simp only [List.map_cons, AMap.rising] at ih ⊢
      rw [ih]

theorem setNow_keeps (t : FineTime) (s : State) : Keeps s (setNow t s) := by
  refine ⟨rfl, rfl, id, fun h => ?_, RemapSame.kept ⟨rfl, rfl, rfl⟩⟩
  exact (rising_map_values (fun p => { p.2 with holdEnd := p.2.holdEnd.map (keptTime t.us) }) s.port.openRows).trans h

theorem arrive_keeps (t : FineTime) (s : State) : Keeps s (arrive t s) := .ite (setNow_keeps t s) (.refl s)

theorem tick_keeps (s : State) : Keeps s (tick s) := setNow_keeps _ s

/-! ## Frames and the DRAM Port -/

theorem discardFrame_keeps (s : State) : Keeps s (discardFrame s) := (Keeps.count _ s).trans (.raise _ _)

theorem wbCancel_keeps (line : Nat) (s : State) : Keeps s (wbCancel line s) := by
  rw [wbCancel_eq]
  exact .aside rfl

theorem reviewDrain_keeps (s : State) : Keeps s (reviewDrain s) := by
  rw [reviewDrain_eq]
  exact .aside rfl

theorem takeRead_keeps (tag line : Nat) (s : State) : Keeps s (takeRead tag line s) := by
  unfold takeRead
  split
  · exact .aside rfl
  · exact .take _ _ _ s

theorem portRead_keeps (tag line : Nat) (s : State) : Keeps s (portRead tag line s) :=
  .ite (.aside rfl) (takeRead_keeps tag line s)

theorem failLock_keeps (source : Source) (tag region line : Nat) (s : State) :
    Keeps s (failLock source tag region line s) :=
  (Keeps.reply _ s).trans ((Keeps.record _ _).trans ((Keeps.raise _ _).trans (.count _ _)))

theorem takeWrite_keeps (tag line : Nat) (data : Data) (s : State) : Keeps s (takeWrite tag line data s) :=
  (wbCancel_keeps line s).trans ((Keeps.take _ _ _ _).trans (reviewDrain_keeps _))

theorem takeMasked_keeps (tag line : Nat) (data : Data) (mask : BitVec 64) (s : State) :
    Keeps s (takeMasked tag line data mask s) := by
  unfold takeMasked
  split
  · exact (Keeps.count _ s).trans ((wbCancel_keeps _ _).trans ((Keeps.take _ _ _ _).trans (reviewDrain_keeps _)))
  · exact (Keeps.take _ _ _ s).trans (reviewDrain_keeps _)

theorem testMask_keeps (tag line : Nat) (data : Data) (mask : BitVec 64) (s : State) :
    Keeps s (testMask tag line data mask s) :=
  .ite (.reply _ s) (.ite (takeWrite_keeps tag line data s) (takeMasked_keeps tag line data mask s))

theorem portWrite_keeps (source : Source) (tag line : Nat) (permit : Bool) (passed : State → State)
    (hp : ∀ s, Keeps s (passed s)) (s : State) : Keeps s (portWrite source tag line permit passed s) := by
  unfold portWrite
  split
  · exact .aside rfl
  · split
    · exact failLock_keeps _ _ _ _ s
    · exact hp s

theorem releaseTag_keeps (f : ReturnFrame) (s : State) : Keeps s (releaseTag f s) := by
  unfold releaseTag
  split
  · exact .aside rfl
  · exact .refl s

theorem frameLeft_keeps (f : ReturnFrame) (rest : List ReturnFrame) (s : State) : Keeps s (frameLeft f rest s) :=
  (Keeps.aside rfl : Keeps s { s with link := { s.link with
    returns := rest, begun := !rest.isEmpty, sent := sealFrame f.body } }).trans (releaseTag_keeps f _)

/-! ## Grants (R31 to R37) -/

/-- A map of rising keys filtered. -/
theorem rising_filter {α : Type} (p : Nat × α → Bool) (m : AMap α) (h : AMap.rising m = true) :
    AMap.rising (m.filter p) = true := by
  induction m with
  | nil => rfl
  | cons q m ih =>
    have hm := ((AMap.rising_cons q m).1 h).2
    rw [List.filter_cons]
    split
    · refine (AMap.rising_cons q _).2 ⟨fun r hr => ?_, ih hm⟩
      exact AMap.rising_lt q m h r (List.mem_of_mem_filter (List.mem_of_mem_head? hr))
    · exact ih hm

theorem Keeps.accesses (s : State) (l : List Access) : Keeps s { s with port := { s.port with accesses := l } } :=
  .aside rfl

theorem Keeps.openRows (s : State) {m : AMap OpenRow}
    (h : AMap.rising s.port.openRows = true → AMap.rising m = true) :
    Keeps s { s with port := { s.port with openRows := m } } :=
  ⟨rfl, rfl, id, h, RemapSame.kept ⟨rfl, rfl, rfl⟩⟩

theorem openRow_keeps (rank bank row : Nat) (r : Requester) (s : State) : Keeps s (openRow rank bank row r s) := by
  obtain ⟨m, hm, hw, _⟩ := openRow_spec rank bank row r s
  exact (Keeps.openRows s hm).trans hw.keeps

theorem openDouble_keeps (rank bank : Nat) (double : Option Nat) (r : Requester) (s : State) :
    Keeps s (openDouble rank bank double r s) := by
  unfold openDouble
  split
  · exact (Keeps.count _ s).trans (openRow_keeps _ _ _ _ _)
  · exact .refl s

theorem grantAccess_keeps (a : Access) (cls passes : Nat) (s : State) : Keeps s (grantAccess a cls passes s) := by
  have hp : ∀ l p g, Keeps s { s with port := { s.port with accesses := l, passCounts := p, grants := g } } :=
    fun _ _ _ => .aside rfl
  have hm : ∀ u, Keeps u (markGranted a u) := fun u => .ite (.aside rfl) (.refl u)
  exact (hp _ _ _).trans ((hm _).trans ((openRow_keeps _ _ _ _ _).trans (openDouble_keeps _ _ _ _ _)))

theorem grantRefresh_keeps (rank : Nat) (s : State) : Keeps s (grantRefresh rank s) := by
  have hr : ∀ (u : State) (l : List Refresh), Keeps u { u with port := { u.port with refresh := l } } :=
    fun _ _ => .aside rfl
  exact (Keeps.aside rfl : Keeps s (passAccesses rank s)).trans
    ((Keeps.openRows _ (rising_filter _ _)).trans ((hr _ _).trans (.count _ _)))

theorem grant_keeps (w : Winner) (s : State) : Keeps s (grant w s) := by
  cases w with
  | access a cls passes => exact grantAccess_keeps a cls passes s
  | refresh rank => exact grantRefresh_keeps rank s

/-! ## Accesses performed -/

theorem restartHold_keeps (rank bank row : Nat) (s : State) : Keeps s (restartHold rank bank row s) := by
  obtain ⟨m, hm, e⟩ := restartHold_spec rank bank row s
  rw [e]
  exact .openRows s hm

theorem finishAccess_keeps (a : Access) (s : State) : Keeps s (finishAccess a s) :=
  (Keeps.accesses s _).trans (restartHold_keeps _ _ _ _)

theorem writeLine_keeps (a : Access) (data : Data) (form : Form) (s : State) : Keeps s (writeLine a data form s) := by
  obtain ⟨m, hm, e⟩ := writeLine_spec a data form s
  rw [e]
  exact ⟨rfl, rfl, hm, id, RemapSame.kept ⟨rfl, rfl, rfl⟩⟩

theorem handDemandReturn_keeps (tag : Nat) (f : ReturnFrame) (s : State) : Keeps s (handDemandReturn tag f s) :=
  .ite (.aside rfl) (.reply f s)

theorem answeredWrite_keeps (a : Access) (tag : Nat) (data : Data) (form : Form) (status : AckStatus) (s : State) :
    Keeps s (answeredWrite a tag data form status s) :=
  ((writeLine_keeps a data form s).trans (finishAccess_keeps a _)).trans
    ((reviewDrain_keeps _).trans (handDemandReturn_keeps _ _ _))

theorem entryWritten_keeps (a : Access) (e : WbEntry) (s : State) : Keeps s (entryWritten a e s) := by
  have hq : ∀ (u : State) (q : List WbEntry), Keeps u { u with wbq := q } := fun _ _ => .aside rfl
  exact ((writeLine_keeps a e.data e.kind.form s).trans (finishAccess_keeps a _)).trans ((hq _ _).trans (.count _ _))

theorem recordWritten_keeps (a : Access) (n : Word32) (data : Data) (s : State) : Keeps s (recordWritten a n data s) :=
  ((writeLine_keeps a data .fresh s).trans (finishAccess_keeps a _)).trans (recordPerformed_noted n _).keeps

theorem spareWritten_keeps (a : Access) (data : Data) (form : Form) (s : State) : Keeps s (spareWritten a data form s) :=
  ((writeLine_keeps a data form s).trans (finishAccess_keeps a _)).trans
    ((Keeps.count _ _).trans ((copyWritten_inner _).keeps (copyWritten_work _).2))

/-! ## Reads decoded -/

theorem handEvent_keeps {source : Source} {a : Access} {d : Decoded} {s : State} (u : State) :
    Keeps u (handEvent (eventOf source a d s) u) := (handEvent_inner _ u).keeps (handEvent_work u).2

theorem handDecoded_keeps (line : Nat) (d : Decoded) (policy : Policy) (s : State) :
    Keeps s (handDecoded line d policy s) := by
  unfold handDecoded
  split
  · unfold handWriteback
    repeat' split
    · exact .refl s
    · exact .refl s
    · exact .aside rfl
    · exact .aside rfl
    · exact .count _ s
  · exact .refl s

theorem demandDecoded_keeps (a : Access) (tag : Nat) (d : Decoded) (s : State) : Keeps s (demandDecoded a tag d s) :=
  ((finishAccess_keeps a s).trans (handDemandReturn_keeps _ _ _)).trans
    ((handEvent_keeps _).trans (handDecoded_keeps _ _ _ _))

theorem countSweepEvent_keeps (ev : Option FaultEvent) (s : State) : Keeps s (countSweepEvent ev s) := by
  unfold countSweepEvent
  split
  · exact .aside rfl
  · exact .refl s

theorem patrolDecoded_keeps (a : Access) (owned : Bool) (d : Decoded) (s : State) : Keeps s (patrolDecoded a owned d s) :=
  ((finishAccess_keeps a s).trans (handEvent_keeps _)).trans ((Keeps.ite (countSweepEvent_keeps _ _) (.refl _)).trans
    ((handDecoded_keeps _ _ _ _).trans (.ite (.aside rfl) (.refl _))))

theorem targetedDecoded_keeps (a : Access) (d : Decoded) (s : State) : Keeps s (targetedDecoded a d s) :=
  ((finishAccess_keeps a s).trans (handEvent_keeps _)).trans (.ite (handDecoded_keeps _ _ _ _) (.refl _))

theorem mergeUnit_keeps (a : Access) (tag : Nat) (data : Data) (mask : BitVec 64) (d : Decoded) (s : State) :
    Keeps s (mergeUnit a tag data mask d s) := (Keeps.accesses s _).trans (restartHold_keeps _ _ _ _)

theorem copyDecoded_keeps (a : Access) (d : Decoded) (s : State) : Keeps s (copyDecoded a d s) :=
  ((finishAccess_keeps a s).trans (.accesses _ _)).trans
    (((countCopied_inner _ _).keeps (countCopied_work _ _).2).trans (handEvent_keeps _))

end Sys2Proof.Machine
end

