-- ==== Sys2Proof/Proofs/Requests.lean ====
section
/-! What the requests of the Maintenance Unit keep: the clear, the geometry, and each owner's decision. -/

namespace Sys2Proof.Machine

open Sys2Proof

/-! ## The Disturbance Watch, the causes -/

theorem Watched.foldl {α : Type} (f : State → α → State) (hf : ∀ s a, Watched s (f s a)) (l : List α) (s : State) :
    Watched s (l.foldl f s) := by
  induction l generalizing s with
  | nil => exact .refl s
  | cons a l ih => exact (hf s a).trans (ih _)

theorem reviewEntry_watched (rank i : Nat) (s : State) : Watched s (reviewEntry rank i s) := by
  unfold reviewEntry
  split
  · split
    · exact (trigger_watched _ _ _ _ s).1
    · exact .refl s
  · exact .refl s

theorem reviewThreshold_keeps (s : State) : Keeps s (reviewThreshold s) :=
  (Watched.foldl _ (fun _ _ => .foldl _ (fun _ _ => reviewEntry_watched _ _ _) _ _) _ s).keeps

theorem testAlert_keeps (s : State) : Keeps s (testAlert s) := (testAlert_alerted s).keeps

theorem Keeps.report (s : State) (p : Report) : Keeps s { s with report := p } := .aside rfl

theorem announce_keeps (s : State) : Keeps s (announce s) := (Keeps.report s _).trans (.raise _ _)

theorem eraseAll_keeps (s : State) : Keeps s (eraseAll s) := (eraseAll_inner s).keeps (eraseAll_work s).2

theorem eraseRank_keeps (rank : Nat) (s : State) : Keeps s (eraseRank rank s) :=
  (eraseRank_inner rank s).keeps (eraseRank_work rank s).2

/-! ## The slots and the jobs -/

theorem takeJob_keeps {s : State} {rank bank logical k : Nat} (origin : Origin) (hb : bank < 16)
    (hf : freeSlotOf s rank bank = some k) (hj : hasJob s rank bank logical = false)
    (hlen : s.repair.jobs.length < Config.repairCapacity) : Keeps s (takeJob rank bank logical k origin s) :=
  (takeJob_inner rank bank logical k origin s hlen).keeps (takeJob_work origin hb hf hj).2

/-- A slot names a row that the Remap Table looks up under it (R136). -/
theorem slotLogical_of_names {s : State} {rank bank k l : Nat} (h : (slotAt s rank bank k).names? = some l) :
    slotLogical s rank bank k = some l := by
  unfold slotLogical
  cases hs : slotAt s rank bank k with
  | active m =>
    rw [hs] at h
    exact h
  | reserved t =>
    rw [hs] at h
    cases t with
    | row m => exact h
    | move m => cases h
  | copying t c =>
    rw [hs] at h
    cases t with
    | row m => exact h
    | move m => cases h
  | free =>
    rw [hs] at h
    cases h
  | dead =>
    rw [hs] at h
    cases h

/-- A FREE slot of a bank becomes ACTIVE for a row that no slot names, or DEAD (R148, R149). -/
theorem occupy_keeps {s : State} {rank bank k : Nat} {v : Slot} (hb : bank < 16) (hk : k < s.port.geom.spares)
    (hf : slotAt s rank bank k = .free) (hv : v.target? = none)
    (hn : ∀ l, v.names? = some l → isNamed s rank bank l = false) : Keeps s (setSlot rank bank k v s) := by
  refine (setSlot_inner rank bank k v s).keeps (setSlot_work fun _ hl => ⟨hb, hk, ?_⟩).2
  rw [remapLegal_iff] at hl
  refine hl.occupy hf hv fun l hvl m hm hnm => ?_
  have hno := List.any_eq_false.1 (hn l hvl) m (List.mem_range.2 hm)
  rw [slotLogical_of_names hnm] at hno
  simp at hno

/-! ## The channel clear (R198) -/

theorem idleRegion_keeps (region : Option Nat) (s : State) : Keeps s (idleRegion region s) := by
  unfold idleRegion
  split
  · exact .aside rfl
  · exact .refl s

theorem discardDemand_keeps (s : State) : Keeps s (discardDemand s) :=
  (Keeps.accesses s _).trans (.foldl (fun s tag => freeTag tag s) (fun _ _ => .aside rfl) _ _)

theorem emptySlots_keeps (s : State) : Keeps s (emptySlots s) := by
  have hp : ∀ (u : State) (p : Patrol), Keeps u { u with patrol := p } := fun _ _ => .aside rfl
  exact ((idleRegion_keeps _ s).trans (idleRegion_keeps _ _)).trans
    ((idleRegion_keeps _ _).trans ((hp _ _).trans (.accesses _ _)))

theorem emptyTsq_keeps (s : State) : Keeps s (emptyTsq s) := .aside rfl

theorem clearPatrol_keeps (s : State) : Keeps s (clearPatrol s) := by
  have hp : ∀ (u : State) (p : Patrol), Keeps u { u with patrol := p } := fun _ _ => .aside rfl
  exact ((emptySlots_keeps s).trans (emptyTsq_keeps _)).trans ((hp _ _).trans (reviewOverride_keeps _))

theorem abandonCopies_keeps (s : State) : Keeps s (abandonCopies s) :=
  (Keeps.accesses s _).trans ((abortJobs_inner _).keeps (abortJobs_kept _))

theorem withdrawEntries_keeps (s : State) : Keeps s (withdrawEntries s) := .aside rfl

theorem emptyHammer_keeps (s : State) : Keeps s (emptyHammer s) := .aside rfl

theorem beginClear_keeps (s : State) : Keeps s (beginClear s) := by
  have hc : Keeps s (clearCauses { s with
      link := { s.link with channel := .config }, maint := { s.maint with clearing := true } }) := .aside rfl
  exact ((hc.trans (discardDemand_keeps _)).trans (withdrawEntries_keeps _)).trans
    ((clearPatrol_keeps _).trans ((abandonCopies_keeps _).trans (emptyHammer_keeps _)))

theorem endClear_keeps (tag : Nat) (s : State) : Keeps s (endClear tag s) := by
  refine (Keeps.openRows s (m := []) fun _ => rfl).trans (.aside rfl)

theorem closeAtClear_keeps (s : State) : Keeps s (closeAtClear s) := .ite (closeWindow_keeps s) (.refl s)

theorem afterClear_keeps (selectionFirst : Bool) (s : State) : Keeps s (afterClear selectionFirst s) :=
  .ite ((runSelection_keeps s).trans (closeAtClear_keeps _)) ((closeAtClear_keeps s).trans (runSelection_keeps _))

/-! ## The geometry (R20, R21) -/

theorem Geometry.allowed_spares {g : Geometry} (h : g.allowed = true) : g.spares ≤ 32 := by
  simp only [Geometry.allowed, Bool.and_eq_true, Bool.or_eq_true, beq_iff_eq] at h
  omega

theorem fitRing_keeps (s : State) : Keeps s (fitRing s) := .ite (.aside rfl) (.refl s)

/-- A geometry is taken with an empty repair queue: the Remap Table is empty from then on (R21). -/
theorem takeGeometry_keeps {g : Geometry} {s : State} (hg : g.allowed = true) (hj : s.repair.jobs = []) :
    Keeps s (takeGeometry g s) := by
  refine Keeps.trans (b := emptyHammer { s with
    port := { s.port with geomSet := true, geom := g, openRows := [], refresh := startRefresh g.ranks s }
    regions := s.regions.map (Region.fitted g.capacity)
    repair := { s.repair with slots := [], erasures := fittedErasures g.ranks s.repair.erasures }
    fault := { s.fault with entries := s.fault.entries.map (FaultEntry.fitted g)
                            devices := fittedDevices g.ranks s.fault.devices } }) ?_ (fitRing_keeps _)
  refine ⟨rfl, rfl, id, fun _ => rfl, fun _ => ⟨rfl, fun _ => (remapLegal_iff _).2 ?_⟩⟩
  show RemapInv g.spares (fun _ _ _ => .free) (s.repair.jobs.map Job.key)
  rw [hj]
  exact .empty (Geometry.allowed_spares hg)

theorem boundWork_jobs {s : State} (h : boundWork s = false) : s.repair.jobs = [] := by
  simp only [boundWork, Bool.or_eq_false_iff, Bool.not_eq_false', List.isEmpty_iff] at h
  exact h.1.1.2

theorem doConfigureGeometry_keeps (args : List Word32) (s : State) : Keeps s (doConfigureGeometry args s).state := by
  unfold doConfigureGeometry
  split
  · exact .refl s
  · split
    · exact .refl s
    · rename_i hg
      split
      · exact .refl s
      · rename_i hw
        exact takeGeometry_keeps (by simpa using hg) (boundWork_jobs (by simpa using hw))

/-! ## Dispatch (R192, R193) -/

theorem respond_keeps (tag : Nat) {s : State} {r : Answered} (h : Keeps s r.state) : Keeps s (respond tag r) :=
  h.trans (.aside rfl)

/-- A dispatch keeps what its owner's decision and what follows its answer keep. -/
theorem serveThen_keeps {after : State → State} (ha : ∀ s, Keeps s (after s)) {code needed : Nat}
    {owner : List Word32 → State → Answered} (ho : ∀ args s, Keeps s (owner args s).state) (s : State) :
    Keeps s (serveThen after code needed owner s) := by
  unfold serveThen
  split
  · rename_i q _
    have hd : Keeps (count .maintRequests s) (decideRequest needed owner q.args (count .maintRequests s)).state := by
      unfold decideRequest
      split
      · exact .refl _
      · exact ho _ _
    exact (respond_keeps q.tag ((Keeps.count _ s).trans hd)).trans (ha _)
  · exact .refl s

theorem serve_keeps {code needed : Nat} {owner : List Word32 → State → Answered}
    (ho : ∀ args s, Keeps s (owner args s).state) (s : State) : Keeps s (serve code needed owner s) :=
  serveThen_keeps (fun s => .refl s) ho s

theorem serveSettled_keeps {code needed : Nat} {owner : List Word32 → State → Answered}
    (ho : ∀ args s, Keeps s (owner args s).state) (s : State) : Keeps s (serveSettled code needed owner s) :=
  serveThen_keeps settle_keeps ho s

theorem acceptPart_state (part : Nat) (results : List Word32) (s : State) : (acceptPart part results s).state = s := by
  unfold acceptPart
  split <;> rfl

theorem accept_state (results : List Word32) (s : State) : (accept results s).state = s := rfl

/-! ## The owners' decisions -/

theorem paramChanged_keeps (id : Nat) (s : State) : Keeps s (paramChanged id s) := by
  have he : Keeps s (eraseAll (reviewLimits s)) :=
    (Keeps.aside rfl : Keeps s (reviewLimits s)).trans (eraseAll_keeps _)
  have hc : Keeps s (reviewReadyCount s) := .ite (announce_keeps s) (.refl s)
  have hr : Keeps s (reviewReadyAge s) := by
    unfold reviewReadyAge
    split
    · exact .ite (announce_keeps s) (.refl s)
    · exact .refl s
  unfold paramChanged
  split
  · exact ((recompute_keeps s).trans (reviewOverride_keeps _)).trans (settle_keeps _)
  · exact (reviewOverride_keeps s).trans (settle_keeps _)
  · exact he
  · exact eraseAll_keeps s
  · exact eraseAll_keeps s
  · exact (reviewThreshold_keeps s).trans (settle_keeps _)
  · exact hc
  · exact hr
  · exact .refl s

theorem doSetParam_keeps (args : List Word32) (s : State) : Keeps s (doSetParam args s).state := by
  unfold doSetParam
  split
  · exact .refl s
  · exact (Keeps.aside rfl : Keeps s { s with params := s.params.put (argOf args 0) _ }).trans (paramChanged_keeps _ _)

theorem doReadStats_keeps (args : List Word32) (s : State) : Keeps s (doReadStats args s).state := by
  unfold doReadStats
  dsimp only
  split <;> exact .refl s

theorem doGoOnline_keeps (args : List Word32) (s : State) : Keeps s (doGoOnline args s).state := by
  unfold doGoOnline
  split <;> exact .aside rfl

theorem doRegionLoad_keeps (args : List Word32) (s : State) : Keeps s (doRegionLoad args s).state := by
  unfold doRegionLoad
  dsimp only
  repeat' split
  · exact .refl s
  · exact .refl s
  · exact .refl s
  · exact .refl s
  · exact .refl s
  · exact (Keeps.aside rfl : Keeps s (setRegion _ _ s)).trans (runSelection_keeps _)

theorem doRegionClear_keeps (args : List Word32) (s : State) : Keeps s (doRegionClear args s).state := by
  unfold doRegionClear
  dsimp only
  repeat' split
  all_goals exact .aside rfl

theorem doRegionRead_keeps (args : List Word32) (s : State) : Keeps s (doRegionRead args s).state := by
  unfold doRegionRead
  split
  · exact .refl s
  · rw [acceptPart_state]
    exact .refl s

/-- The engine's state set aside from all else. -/
theorem setEngine_keeps (e : EngineState) (s : State) : Keeps s (setEngine e s) := .aside rfl

theorem doScrubEnable_keeps (args : List Word32) (s : State) : Keeps s (doScrubEnable args s).state := by
  unfold doScrubEnable
  split
  · exact (setEngine_keeps _ s).trans (runSelection_keeps _)
  · exact .refl s

theorem doScrubDisable_keeps (args : List Word32) (s : State) : Keeps s (doScrubDisable args s).state := by
  unfold doScrubDisable
  split
  · exact .refl s
  · exact ((emptySlots_keeps s).trans (setEngine_keeps _ _)).trans (reviewOverride_keeps _)

theorem doSweepNow_keeps (args : List Word32) (s : State) : Keeps s (doSweepNow args s).state := by
  have hs : ∀ i, Keeps s (stageHost i s) := fun i => (idleRegion_keeps _ s).trans (.aside rfl)
  unfold doSweepNow
  dsimp only
  split
  · exact .refl s
  · split
    · exact .refl s
    · exact (hs _).trans (runSelection_keeps _)

theorem doSweepHalt_keeps (args : List Word32) (s : State) : Keeps s (doSweepHalt args s).state := by
  have hh : Keeps s (holdSweep s) := by
    unfold holdSweep
    split
    · exact .aside rfl
    · exact .refl s
  unfold doSweepHalt
  split
  · exact .refl s
  · exact (hh.trans (setEngine_keeps _ _)).trans (reviewOverride_keeps _)

theorem doSweepResume_keeps (args : List Word32) (s : State) : Keeps s (doSweepResume args s).state := by
  have hr : ∀ w, Keeps s (returnSweep w s) := fun w =>
    (Keeps.aside rfl : Keeps s (setSweepState w.region .active { s with patrol := { s.patrol with
      active := some w, held := none, engine := if s.quiet then .paused else .running } })).trans
      ((recompute_keeps _).trans (reviewOverride_keeps _))
  have hp : Keeps s (resumePatrol s) := by
    unfold resumePatrol
    split
    · exact (hr _).trans (runSelection_keeps _)
    · exact (setEngine_keeps _ s).trans (runSelection_keeps _)
  unfold doSweepResume
  split
  · exact hp
  · exact .refl s

theorem doQuietBegin_keeps (args : List Word32) (s : State) : Keeps s (doQuietBegin args s).state := by
  have hw : ∀ t, Keeps s (setWindow t s) := by
    intro t
    unfold setWindow
    split <;> exact .aside rfl
  exact (hw _).trans (reviewOverride_keeps _)

theorem doQuietEnd_keeps (args : List Word32) (s : State) : Keeps s (doQuietEnd args s).state := by
  unfold doQuietEnd
  split
  · exact .refl s
  · exact (closeWindow_keeps s).trans (.count _ _)

theorem doFaultRead_keeps (args : List Word32) (s : State) : Keeps s (doFaultRead args s).state := by
  unfold doFaultRead
  split
  · exact .refl s
  · rw [acceptPart_state]
    exact .refl s

theorem doFaultClear_keeps (args : List Word32) (s : State) : Keeps s (doFaultClear args s).state := by
  unfold doFaultClear
  split
  · exact .refl s
  · split <;> exact .aside rfl

theorem doDeviceRead_keeps (args : List Word32) (s : State) : Keeps s (doDeviceRead args s).state := by
  unfold doDeviceRead
  split
  · exact .refl s
  · rw [acceptPart_state]
    exact .refl s

theorem isPlace_bank {s : State} {rank bank logical : Nat} (h : isPlace s rank bank logical = true) : bank < 16 := by
  simp only [isPlace, Bool.and_eq_true, decide_eq_true_eq] at h
  omega

theorem doRetireRow_keeps (args : List Word32) (s : State) : Keeps s (doRetireRow args s).state := by
  unfold doRetireRow
  dsimp only
  split
  · exact .refl s
  · split
    · exact .refl s
    · rename_i hplace
      split
      · exact .refl s
      · rename_i hjob
        split
        · exact .count _ s
        · rename_i k hk
          split
          · exact .count _ s
          · rename_i hlen
            exact takeJob_keeps _ (isPlace_bank (by simpa using hplace)) hk (by simpa using hjob) (by omega)

theorem doRemapLoad_keeps (args : List Word32) (s : State) : Keeps s (doRemapLoad args s).state := by
  unfold doRemapLoad
  dsimp only
  split
  · exact .refl s
  · split
    · exact .refl s
    · split
      · exact .refl s
      · rename_i h
        simp only [not_or, not_not, Nat.not_le, Bool.not_eq_true] at h
        obtain ⟨hplace, hk, hfree, hnamed⟩ := h
        exact occupy_keeps (isPlace_bank (by simpa using hplace)) hk hfree rfl fun l hl => by
          cases Option.some.inj hl
          exact hnamed

theorem doSpareKill_keeps (args : List Word32) (s : State) : Keeps s (doSpareKill args s).state := by
  unfold doSpareKill
  dsimp only
  split
  · exact .refl s
  · split
    · exact .refl s
    · split
      · exact .refl s
      · rename_i h
        simp only [not_or, not_not, Nat.not_le, Nat.not_lt] at h
        obtain ⟨-, hb, hk, hfree⟩ := h
        exact occupy_keeps (by omega) hk hfree rfl nofun

theorem doRemapRead_keeps (args : List Word32) (s : State) : Keeps s (doRemapRead args s).state := by
  unfold doRemapRead
  dsimp only
  repeat' split
  all_goals exact .refl s

theorem addErasure_keeps {rank device : Nat} (origin : Nat) {s : State} (hn : isErased s rank device = false)
    (hl : (erasureSet s rank).length < 2) : Keeps s (addErasure rank device origin s) :=
  (addErasure_inner rank device origin s hn hl).keeps (addErasure_work rank device origin s).2

theorem doErase_keeps (args : List Word32) (s : State) : Keeps s (doErase args s).state := by
  unfold doErase
  dsimp only
  split
  · exact .refl s
  · split
    · exact .refl s
    · rename_i hplace
      split
      · exact .refl s
      · rename_i hl
        simp only [not_or, Bool.not_eq_true] at hplace
        exact addErasure_keeps 1 hplace.2.2 (by omega)

theorem removeErasure_keeps (rank device : Nat) (s : State) : Keeps s (removeErasure rank device s) :=
  (Keeps.aside rfl : Keeps s (count .devicesUnerased (setDevice rank device {} { s with repair := { s.repair with
    erasures := s.repair.erasures.set rank ((erasureSet s rank).erase device) } }))).trans (eraseRank_keeps _ _)

theorem doUnerase_keeps (args : List Word32) (s : State) : Keeps s (doUnerase args s).state := by
  unfold doUnerase
  dsimp only
  split
  · exact .refl s
  · split
    · exact .refl s
    · split
      · exact .refl s
      · rw [accept_state]
        exact removeErasure_keeps _ _ s

theorem doReportSetup_keeps (args : List Word32) (s : State) : Keeps s (doReportSetup args s).state := by
  have hr : ∀ base sizeExp, Keeps s (setupRing base sizeExp s) := fun _ _ => (Keeps.report s _).trans (.report _ _)
  unfold doReportSetup
  dsimp only
  repeat' split
  · exact .refl s
  · exact .refl s
  · exact .refl s
  · exact hr _ _

theorem doReportRelease_keeps (args : List Word32) (s : State) : Keeps s (doReportRelease args s).state := by
  unfold doReportRelease
  dsimp only
  repeat' split
  all_goals exact .aside rfl

theorem placeRecord_keeps (r : Record) (s : State) : Keeps s (placeRecord r s) :=
  (Keeps.report s _).trans ((wbCancel_keeps _ _).trans ((Keeps.take _ _ _ _).trans (.count _ _)))

theorem doReportRestart_keeps (args : List Word32) (s : State) : Keeps s (doReportRestart args s).state := by
  have hr : Keeps s (restartRing s) :=
    (Keeps.report s _).trans ((placeRecord_keeps _ _).trans (.report _ _))
  unfold doReportRestart
  repeat' split
  · exact .refl s
  · exact .refl s
  · exact .refl s
  · exact hr

theorem doReadCauses_keeps (args : List Word32) (s : State) : Keeps s (doReadCauses args s).state := .aside rfl

theorem doCauseSet_keeps (args : List Word32) (s : State) : Keeps s (doCauseSet args s).state := by
  unfold doCauseSet
  split
  · exact .refl s
  · exact (raiseSet_alerted _ s).keeps

theorem doMaskSet_keeps (args : List Word32) (s : State) : Keeps s (doMaskSet args s).state := by
  unfold doMaskSet
  dsimp only
  split <;> exact .aside rfl

theorem doMaskClear_keeps (args : List Word32) (s : State) : Keeps s (doMaskClear args s).state := by
  unfold doMaskClear
  dsimp only
  split
  · exact .refl s
  · exact (Keeps.report s _).trans (testAlert_keeps _)

end Sys2Proof.Machine
end

