-- ==== Sys2Proof/Proofs/Commands.lean ====
section
/-! O3 and O10: every command answers a next state and keeps what Keeps names. -/

namespace Sys2Proof.Machine

open Sys2Proof

/-- A command answers a next state that keeps what Keeps names. -/
def Completes (s : State) (a : Answer) : Prop := ∃ t, a = .next t ∧ Keeps s t

theorem Completes.next {s t : State} (h : Keeps s t) : Completes s (.next t) := ⟨t, rfl, h⟩

/-- A command that does nothing here. -/
theorem Completes.idle (s : State) : Completes s (.next s) := .next (.refl s)

/-- A command that the engine's immediate actions close. -/
theorem Completes.settled {s t : State} (h : Keeps s t) : Completes s (.next (settle t)) :=
  .next (h.trans (settle_keeps t))

theorem Completes.ite {p : Prop} [Decidable p] {s : State} {a b : Answer} (h : Completes s a) (k : Completes s b) :
    Completes s (if p then a else b) := by split <;> assumption

/-! ## Power-on and frames -/

theorem execPowerOn_completes (s : State) : Completes s (execPowerOn s) := by
  refine .next ⟨rfl, rfl, id, fun _ => rfl, fun _ => ⟨rfl, fun _ => (remapLegal_iff _).2 ?_⟩⟩
  exact RemapInv.empty (spares := 0) (by decide)

theorem execIdle_completes (byte1 byte2 byte3 : Byte) (check : BitVec 16) (s : State) :
    Completes s (execIdle byte1 byte2 byte3 check s) :=
  .ite (.idle s) (.next (discardFrame_keeps s))

theorem acceptFrame_keeps (tag : Byte) (s : State) : Keeps s (acceptFrame tag s) := .aside rfl

theorem execRead_completes (tag byte2 byte3 : Byte) (line : BitVec 64) (check : BitVec 16) (s : State) :
    Completes s (execRead tag byte2 byte3 line check s) := by
  refine .ite (.next (discardFrame_keeps s)) ?_
  dsimp only
  split
  · exact .next (.aside rfl)
  · exact .next ((acceptFrame_keeps tag s).trans (portRead_keeps _ _ _))

theorem execWrite_completes (tag flags byte3 : Byte) (line : BitVec 64) (data : Data) (check : BitVec 16) (s : State) :
    Completes s (execWrite tag flags byte3 line data check s) := by
  refine .ite (.next (discardFrame_keeps s)) ?_
  dsimp only
  split
  · exact .next (.aside rfl)
  · exact .next ((acceptFrame_keeps tag s).trans (portWrite_keeps _ _ _ _ _ (takeWrite_keeps _ _ _) _))

theorem execWriteMasked_completes (tag flags byte3 : Byte) (line : BitVec 64) (data : Data) (mask : BitVec 64)
    (check : BitVec 16) (s : State) : Completes s (execWriteMasked tag flags byte3 line data mask check s) := by
  refine .ite (.next (discardFrame_keeps s)) ?_
  dsimp only
  split
  · exact .next (.aside rfl)
  · exact .next ((acceptFrame_keeps tag s).trans (portWrite_keeps _ _ _ _ _ (testMask_keeps _ _ _ _) _))

theorem takeRequest_keeps (tag code : Nat) (args : List Word32) (s : State) : Keeps s (takeRequest tag code args s) :=
  .ite (.aside rfl) (.aside rfl)

theorem execMaint_completes (tag byte2 : Byte) (code pad : BitVec 16) (args : List Word32) (check : BitVec 16)
    (s : State) : Completes s (execMaint tag byte2 code pad args check s) :=
  .ite (.next (discardFrame_keeps s)) (.next ((acceptFrame_keeps tag s).trans (takeRequest_keeps _ _ _ _)))

theorem execMalformedFrame_completes (bytes : List Byte) (s : State) : Completes s (execMalformedFrame bytes s) :=
  .ite (.next (discardFrame_keeps s)) (.idle s)

theorem execReturnFrameSent_completes (s : State) : Completes s (execReturnFrameSent s) := by
  unfold execReturnFrameSent
  split
  · exact .ite (.next (frameLeft_keeps _ _ s)) (.next (.aside rfl))
  · exact .next (.aside rfl)

/-! ## The DRAM Port -/

theorem execArbiterGrant_completes (accept : BitVec 64) (refresh : BitVec 4) (s : State) :
    Completes s (execArbiterGrant accept refresh s) := by
  unfold execArbiterGrant
  split
  · exact .settled (grant_keeps _ s)
  · exact .idle s

theorem execDemandReadDecode_completes (line : Nat) (damage : Line) (s : State) :
    Completes s (execDemandReadDecode line damage s) := by
  unfold execDemandReadDecode
  split
  · split
    · exact .settled (demandDecoded_keeps _ _ _ s)
    · exact .idle s
  · exact .idle s

theorem execScrubReadDecode_completes (line : Nat) (damage : Line) (s : State) :
    Completes s (execScrubReadDecode line damage s) := by
  unfold execScrubReadDecode
  split
  · split
    · exact .settled (patrolDecoded_keeps _ _ _ s)
    · exact .settled (targetedDecoded_keeps _ _ s)
    · exact .idle s
  · exact .idle s

theorem execRmwReadDecode_completes (line : Nat) (damage : Line) (s : State) :
    Completes s (execRmwReadDecode line damage s) := by
  unfold execRmwReadDecode
  split
  · split
    · exact .settled ((mergeUnit_keeps _ _ _ _ _ s).trans (handEvent_keeps _))
    · exact .idle s
  · exact .idle s

theorem execCopyReadDecode_completes (line : Nat) (damage : Line) (s : State) :
    Completes s (execCopyReadDecode line damage s) := by
  unfold execCopyReadDecode
  split
  · split
    · exact .settled (copyDecoded_keeps _ _ s)
    · exact .idle s
  · exact .idle s

theorem execDemandWritePerformed_completes (line : Nat) (s : State) : Completes s (execDemandWritePerformed line s) := by
  unfold execDemandWritePerformed
  split
  · split
    · exact .next (answeredWrite_keeps _ _ _ .fresh .ok s)
    · exact .idle s
  · exact .idle s

theorem execMaskedWritePerformed_completes (line : Nat) (s : State) : Completes s (execMaskedWritePerformed line s) := by
  unfold execMaskedWritePerformed
  split
  · split
    · exact .next (answeredWrite_keeps _ _ _ _ _ s)
    · exact .idle s
  · exact .idle s

theorem execWritebackPerformed_completes (line : Nat) (s : State) : Completes s (execWritebackPerformed line s) := by
  unfold execWritebackPerformed
  split
  · exact .ite (.next (entryWritten_keeps _ _ s)) (.idle s)
  · exact .idle s

theorem execRecordWritePerformed_completes (line : Nat) (s : State) : Completes s (execRecordWritePerformed line s) := by
  unfold execRecordWritePerformed
  split
  · split
    · exact .next (recordWritten_keeps _ _ _ s)
    · exact .idle s
  · exact .idle s

theorem execCopyWritePerformed_completes (line : Nat) (s : State) : Completes s (execCopyWritePerformed line s) := by
  unfold execCopyWritePerformed
  split
  · split
    · exact .next (spareWritten_keeps _ _ _ s)
    · exact .idle s
  · exact .idle s

/-! ## The timers -/

theorem execRowHoldExpiry_completes (rank bank : Nat) (s : State) : Completes s (execRowHoldExpiry rank bank s) := by
  unfold execRowHoldExpiry
  split
  · split
    · exact .ite (.idle s) (.next ((arrive_keeps _ s).trans (.openRows _ (AMap.rising_erase _ _))))
    · exact .idle s
  · exact .idle s

theorem execRefreshTimerExpiry_completes (rank : Nat) (s : State) : Completes s (execRefreshTimerExpiry rank s) := by
  have hr : ∀ (t : FineTime) (u : State), Keeps u (refreshDue rank t u) := fun t u => .ite (.aside rfl) (.aside rfl)
  unfold execRefreshTimerExpiry
  split
  · exact .next ((arrive_keeps _ s).trans (hr _ _))
  · exact .idle s

theorem execRegionDue_completes (s : State) : Completes s (execRegionDue s) := by
  have hr : ∀ u : State, Keeps u (reachDue u) := fun u => .ite (.refl u) (runSelection_keeps u)
  unfold execRegionDue
  split
  · exact .settled ((arrive_keeps _ s).trans (hr _))
  · exact .idle s

theorem reachIssue_keeps (s : State) : Keeps s (reachIssue s) := by
  unfold reachIssue
  split
  · exact atBoundary_keeps _ s
  · exact .refl s

theorem execPatrolLineIssue_completes (s : State) : Completes s (execPatrolLineIssue s) := by
  unfold execPatrolLineIssue
  split
  · exact .ite (.settled ((arrive_keeps _ s).trans (reachIssue_keeps _))) (.idle s)
  · exact .idle s

theorem execBurstIssue_completes (s : State) : Completes s (execBurstIssue s) := by
  unfold execBurstIssue
  split
  · exact .ite (.settled ((arrive_keeps _ s).trans (reachIssue_keeps _))) (.idle s)
  · exact .idle s

theorem execQuietExpiry_completes (s : State) : Completes s (execQuietExpiry s) := by
  unfold execQuietExpiry
  split
  · exact .settled ((arrive_keeps _ s).trans ((closeWindow_keeps _).trans (.count _ _)))
  · exact .idle s

theorem execQuietOverride_completes (s : State) : Completes s (execQuietOverride s) := by
  unfold execQuietOverride
  split
  · split
    · exact .settled ((arrive_keeps _ s).trans (overrideWindow_keeps _ _ _))
    · exact .idle s
  · exact .idle s

theorem Keeps.fault (s : State) (f : FaultTable) : Keeps s { s with fault := f } := .aside rfl

theorem Keeps.hammer (s : State) (h : Hammer) : Keeps s { s with hammer := h } := .aside rfl

theorem restartDecay_keeps (t : Elapsed) (s : State) : Keeps s (restartDecay t s) := .fault s _

theorem restartHammer_keeps (t : Elapsed) (s : State) : Keeps s (restartHammer t s) := .hammer s _

theorem zeroHammer_keeps (s : State) : Keeps s (zeroHammer s) := .hammer s _

theorem decay_keeps (s : State) : Keeps s (decay s) := (decay_inner s).keeps (decay_work s).2

theorem execDecayEpoch_completes (s : State) : Completes s (execDecayEpoch s) := by
  unfold execDecayEpoch
  exact .next ((arrive_keeps (onMicrosecond s.fault.decayEnd) s).trans
    ((restartDecay_keeps s.fault.decayEnd _).trans (decay_keeps _)))

theorem execHammerWindowExpiry_completes (s : State) : Completes s (execHammerWindowExpiry s) := by
  unfold execHammerWindowExpiry
  exact .next ((arrive_keeps (onMicrosecond s.hammer.windowEnd) s).trans
    ((restartHammer_keeps s.hammer.windowEnd _).trans ((zeroHammer_keeps _).trans (.count _ _))))

theorem execHoldoffExpiry_completes (s : State) : Completes s (execHoldoffExpiry s) := by
  unfold execHoldoffExpiry
  split
  · exact .next ((arrive_keeps _ s).trans ((Keeps.report _ _).trans (testAlert_keeps _)))
  · exact .idle s

theorem execReadyAgeExpiry_completes (s : State) : Completes s (execReadyAgeExpiry s) := by
  unfold execReadyAgeExpiry
  split
  · exact .next ((arrive_keeps _ s).trans (announce_keeps _))
  · exact .idle s

/-! ## The requests -/

theorem execChannelClear_completes (s : State) : Completes s (execChannelClear s) := by
  unfold execChannelClear
  split
  · exact .next ((Keeps.count _ s).trans (beginClear_keeps _))
  · exact .idle s

theorem execChannelClearComplete_completes (selectionFirst : Bool) (s : State) :
    Completes s (execChannelClearComplete selectionFirst s) := by
  unfold execChannelClearComplete
  split
  · exact .ite (.settled ((endClear_keeps _ s).trans (afterClear_keeps _ _))) (.idle s)
  · exact .idle s

theorem execBadRequest_completes (s : State) : Completes s (execBadRequest s) := by
  unfold execBadRequest
  split
  · exact .ite (.next (.aside rfl)) (.idle s)
  · exact .idle s

/-- A dispatch whose owner's decision keeps what Keeps names. -/
theorem Completes.served {s : State} {code needed : Nat} {owner : List Word32 → State → Answered}
    (h : ∀ args s, Keeps s (owner args s).state) : Completes s (.next (serve code needed owner s)) :=
  .next (serve_keeps h s)

theorem Completes.servedSettled {s : State} {code needed : Nat} {owner : List Word32 → State → Answered}
    (h : ∀ args s, Keeps s (owner args s).state) : Completes s (.next (serveSettled code needed owner s)) :=
  .next (serveSettled_keeps h s)

/-! ## Every command -/

theorem exec_completes (c : Instr) (s : State) : Completes s (exec c s) := by
  cases c with
  | powerOn => exact execPowerOn_completes s
  | idle byte1 byte2 byte3 check => exact execIdle_completes byte1 byte2 byte3 check s
  | read tag byte2 byte3 line check => exact execRead_completes tag byte2 byte3 line check s
  | write tag flags byte3 line data check => exact execWrite_completes tag flags byte3 line data check s
  | writeMasked tag flags byte3 line data mask check =>
    exact execWriteMasked_completes tag flags byte3 line data mask check s
  | maint tag byte2 code pad args check => exact execMaint_completes tag byte2 code pad args check s
  | arbiterGrant accept refresh => exact execArbiterGrant_completes accept refresh s
  | demandReadDecode line damage => exact execDemandReadDecode_completes line damage s
  | scrubReadDecode line damage => exact execScrubReadDecode_completes line damage s
  | rmwReadDecode line damage => exact execRmwReadDecode_completes line damage s
  | copyReadDecode line damage => exact execCopyReadDecode_completes line damage s
  | demandWritePerformed line => exact execDemandWritePerformed_completes line s
  | maskedWritePerformed line => exact execMaskedWritePerformed_completes line s
  | writebackPerformed line => exact execWritebackPerformed_completes line s
  | recordWritePerformed line => exact execRecordWritePerformed_completes line s
  | copyWritePerformed line => exact execCopyWritePerformed_completes line s
  | returnFrameSent => exact execReturnFrameSent_completes s
  | rowHoldExpiry rank bank => exact execRowHoldExpiry_completes rank bank s
  | refreshTimerExpiry rank => exact execRefreshTimerExpiry_completes rank s
  | regionDue => exact execRegionDue_completes s
  | patrolLineIssue => exact execPatrolLineIssue_completes s
  | burstIssue => exact execBurstIssue_completes s
  | quietExpiry => exact execQuietExpiry_completes s
  | quietOverride => exact execQuietOverride_completes s
  | decayEpoch => exact execDecayEpoch_completes s
  | hammerWindowExpiry => exact execHammerWindowExpiry_completes s
  | holdoffExpiry => exact execHoldoffExpiry_completes s
  | readyAgeExpiry => exact execReadyAgeExpiry_completes s
  | identify => exact .served fun _ _ => .aside rfl
  | readTime => exact .served fun _ _ => .aside rfl
  | setTime => exact .served fun _ _ => .aside rfl
  | setParam => exact .served doSetParam_keeps
  | readStats => exact .served doReadStats_keeps
  | statsClear => exact .served fun _ _ => .aside rfl
  | goOnline => exact .served doGoOnline_keeps
  | channelClear => exact execChannelClear_completes s
  | channelClearComplete selectionFirst => exact execChannelClearComplete_completes selectionFirst s
  | configureGeometry => exact .served doConfigureGeometry_keeps
  | regionLoad => exact .servedSettled doRegionLoad_keeps
  | regionClear => exact .served doRegionClear_keeps
  | regionRead => exact .served doRegionRead_keeps
  | scrubEnable => exact .servedSettled doScrubEnable_keeps
  | scrubDisable => exact .servedSettled doScrubDisable_keeps
  | sweepNow => exact .servedSettled doSweepNow_keeps
  | sweepHalt => exact .servedSettled doSweepHalt_keeps
  | sweepResume => exact .servedSettled doSweepResume_keeps
  | quietBegin => exact .servedSettled doQuietBegin_keeps
  | quietEnd => exact .servedSettled doQuietEnd_keeps
  | faultRead => exact .served doFaultRead_keeps
  | faultClear => exact .served doFaultClear_keeps
  | deviceRead => exact .served doDeviceRead_keeps
  | retireRow => exact .served doRetireRow_keeps
  | remapLoad => exact .served doRemapLoad_keeps
  | spareKill => exact .served doSpareKill_keeps
  | remapRead => exact .served doRemapRead_keeps
  | erase => exact .served doErase_keeps
  | unerase => exact .served doUnerase_keeps
  | reportSetup => exact .served doReportSetup_keeps
  | reportRelease => exact .served doReportRelease_keeps
  | reportRestart => exact .served doReportRestart_keeps
  | readCauses => exact .served doReadCauses_keeps
  | causeSet => exact .served doCauseSet_keeps
  | maskSet => exact .served doMaskSet_keeps
  | maskClear => exact .served doMaskClear_keeps
  | badRequest => exact execBadRequest_completes s
  | malformedFrame bytes => exact execMalformedFrame_completes bytes s

/-- Settles O3: every command completes, and Keeps names the code and the commands that wait. -/
theorem everyCommandCompletes : Obligations.EveryCommandCompletes := by
  intro c s
  obtain ⟨t, ht, hk⟩ := exec_completes c s
  exact ⟨t, ht, hk.code, hk.pending⟩

/-- A step keeps the maps that Keeps names, whether a command runs or a tick passes. -/
theorem step_kept {s t : State} (h : step s = .next t) : (dramWf s.dram = true → dramWf t.dram = true) ∧
    (AMap.rising s.port.openRows = true → AMap.rising t.port.openRows = true) ∧ RemapKept s t := by
  unfold step at h
  split at h
  · cases h
    have hk := tick_keeps s
    exact ⟨hk.dram, hk.rows, hk.remap⟩
  · rename_i c rest _
    obtain ⟨u, hu, hk⟩ := exec_completes c { s with pending := rest }
    rw [hu] at h
    cases h
    exact ⟨hk.dram, hk.rows, hk.remap⟩

/-- Settles O10: the canonical forms and the Remap Table's legality are what every command and the tick keep. -/
theorem stepsKeepMapsCanonical : Obligations.StepsKeepMapsCanonical := by
  intro s t ⟨hdram, hrows, hslots⟩ h
  obtain ⟨kd, kr, km⟩ := step_kept h
  obtain ⟨hs, hl⟩ := km hslots
  exact ⟨kd hdram, ⟨kr hrows, hs⟩, hl⟩

end Sys2Proof.Machine
end

