-- ==== Sys2Proof/Proofs/Addresses.lean ====
section
/-! O15: a line address names a column, a bank, a rank and a logical row, lowest first, and the four give it back (R22). -/

namespace Sys2Proof.Machine

open Sys2Proof

theorem Geometry.allowed_ranks {g : Geometry} (h : g.allowed = true) : 0 < g.ranks := by
  simp only [Geometry.allowed, Bool.and_eq_true, Bool.or_eq_true, beq_iff_eq] at h
  omega

theorem Geometry.columns_pos (g : Geometry) : 0 < g.columns := Nat.two_pow_pos _

theorem Geometry.capacity_eq (g : Geometry) : g.capacity = g.visible * (g.columns * 16 * g.ranks) := by
  unfold Geometry.capacity
  ac_rfl

/-- The valid line addresses are those whose logical row is visible (R19, R22). -/
theorem Geometry.logicalOf_lt_iff {g : Geometry} (h : 0 < g.ranks) (line : Nat) :
    line < g.capacity ↔ g.logicalOf line < g.visible := by
  rw [g.capacity_eq]
  exact (Nat.div_lt_iff_lt_mul (Nat.mul_pos (Nat.mul_pos g.columns_pos (by decide)) h)).symm

/-- A line address is put together again from the place it stands for (R22). -/
theorem Geometry.lineOf_place (g : Geometry) (line : Nat) :
    g.lineOf (g.rankOf line) (g.bankOf line) (g.logicalOf line) (g.colOf line) = line := by
  unfold lineOf rankOf bankOf logicalOf colOf
  rw [← Nat.div_div_eq_div_mul line (g.columns * 16), Nat.div_add_mod', ← Nat.div_div_eq_div_mul, Nat.div_add_mod',
    Nat.div_add_mod']

section

variable {g : Geometry} {rank bank logical col : Nat}

/-- The column is the lowest part of a line address (R22). -/
theorem Geometry.lineOf_column (hc : col < g.columns) :
    g.colOf (g.lineOf rank bank logical col) = col ∧
      g.lineOf rank bank logical col / g.columns = (logical * g.ranks + rank) * 16 + bank := by
  unfold lineOf colOf
  rw [Nat.mul_add_mod', Nat.mod_eq_of_lt hc, Nat.add_comm, Nat.add_mul_div_right _ _ g.columns_pos, Nat.div_eq_of_lt hc, Nat.zero_add]
  exact ⟨rfl, rfl⟩

/-- The four parts of the line address of a place are the place (R22). -/
theorem Geometry.place_lineOf (hr : rank < g.ranks) (hb : bank < 16) (hc : col < g.columns) :
    let line := g.lineOf rank bank logical col
    g.rankOf line = rank ∧ g.bankOf line = bank ∧ g.logicalOf line = logical ∧ g.colOf line = col := by
  obtain ⟨hcol, hdiv⟩ := Geometry.lineOf_column (rank := rank) (bank := bank) (logical := logical) hc
  have hbanks : ((logical * g.ranks + rank) * 16 + bank) / 16 = logical * g.ranks + rank := by omega
  refine ⟨?_, ?_, ?_, hcol⟩
  · rw [rankOf, ← Nat.div_div_eq_div_mul, hdiv, hbanks, Nat.mul_add_mod', Nat.mod_eq_of_lt hr]
  · rw [bankOf, hdiv]
    omega
  · rw [logicalOf, ← Nat.div_div_eq_div_mul, ← Nat.div_div_eq_div_mul, hdiv, hbanks, Nat.add_comm,
      Nat.add_mul_div_right _ _ (Nat.zero_lt_of_lt hr), Nat.div_eq_of_lt hr, Nat.zero_add]

end

/-- Settles O15: an address within the capacity is the address of its place, and a place that of its address. -/
theorem addressMappingIsOneToOne : Obligations.AddressMappingIsOneToOne := by
  intro g hg
  have hr := Geometry.allowed_ranks hg
  refine ⟨rfl, Geometry.logicalOf_lt_iff hr, fun line hl => ?_, fun rank bank logical col h1 h2 h3 h4 => ?_⟩
  · exact ⟨Nat.mod_lt _ hr, Nat.mod_lt _ (by decide), (Geometry.logicalOf_lt_iff hr line).1 hl,
      Nat.mod_lt _ g.columns_pos, g.lineOf_place line⟩
  · obtain ⟨hrank, hbank, hlogical, hcol⟩ := Geometry.place_lineOf (logical := logical) h1 h2 h4
    exact ⟨(Geometry.logicalOf_lt_iff hr _).2 (hlogical.trans_lt h3), hrank, hbank, hlogical, hcol⟩

end Sys2Proof.Machine
end

