-- ==== Sys2Proof/Proofs/Unserved.lean ====
section
/-! The frames that are answered at once (O16, O18, O19): what a cause and a record move, the answers of the Link
Interface and of the DRAM Port, a failed lock check, and a READ forwarded or taken. -/

namespace Sys2Proof.Machine

open Sys2Proof

/-! ## What a cause and a record move -/

/-- A raised cause moves its own flag and what alerts follow from it (R177, R180). -/
theorem raise_eq (c : Cause) (s : State) : let t := raise c s
    t = { s with
      link := { s.link with returns := t.link.returns }
      report := { s.report with pending := s.report.pending ||| c.mark, alerted := t.report.alerted
                                holdoffEnd := t.report.holdoffEnd }
      counters := { s.counters with alertsSent := t.counters.alertsSent, alertsMerged := t.counters.alertsMerged } } := by
  unfold raise raiseSet testAlert sendAlert handAlert
  dsimp only
  repeat' split
  all_goals rfl

theorem raise_plain (c : Cause) (s : State) : plain (raise c s).link.returns = plain s.link.returns := by
  obtain ⟨⟨-, h, -⟩, -⟩ := raise_alerted c s
  exact h

/-- A record finds the ring set up and room in it exactly when the ring is open (R170). -/
theorem ringOpen_iff (s : State) : RingOpen s ↔ s.report.setUp = true ∧ canPlace s = true := by
  simp only [canPlace, Bool.and_eq_true, Bool.not_eq_true', decide_eq_true_eq, and_assoc]
  rfl

/-- A placed record: its write joins line order in the place of a pending write-back of the ring line (R170, R171, R50). -/
theorem handRecord_open (r : Record) {s : State} (h : RingOpen s) :
    let line := s.report.base + s.report.produced.toNat % 2 ^ s.report.sizeExp
    handRecord r s = { s with
      port := { s.port with accesses := accessesLeft s line ++ [recordWriteOf r s] }
      wbq := entriesLeft s line
      report := { s.report with
        produced := s.report.produced + 1
        queue := s.report.queue ++ [{ sequence := s.report.produced, performed := false }] }
      counters := { s.counters with
        writebacksCancelled := countedIf (cancels s line) s.counters.writebacksCancelled
        recordsPlaced := satAdd s.counters.recordsPlaced 1 } } := by
  obtain ⟨hset, hcan⟩ := (ringOpen_iff s).1 h
  simp only [handRecord, hset, hcan, if_true, placeRecord, wbCancel_eq]
  rfl

/-- A record that is not placed is lost, or discarded before any setup; nothing but the ring's own fields, a count and
alerts moves (R169, R172). -/
theorem handRecord_closed (r : Record) {s : State} (h : ¬ RingOpen s) : let t := handRecord r s
    t = { s with
      link := { s.link with returns := t.link.returns }, report := t.report
      counters := { s.counters with
        recordsLost := countedIf s.report.setUp s.counters.recordsLost
        alertsSent := t.counters.alertsSent, alertsMerged := t.counters.alertsMerged } } := by
  rw [ringOpen_iff, not_and] at h
  cases hset : s.report.setUp
  · simp only [handRecord, hset, Bool.false_eq_true, if_false]
    rfl
  · simp only [handRecord, hset, h hset, if_true, loseRecord]
    rw [raise_eq]
    rfl

/-! ## Power-on -/

/-- Settles O16: POWER_ON leaves nothing of the state but the DRAM, the line code and the commands that wait. -/
theorem powerOnResetsEveryBlock : Obligations.PowerOnResetsEveryBlock := by
  intro s
  refine ⟨_, rfl, rfl, rfl, rfl, rfl, rfl, rfl, rfl, rfl, rfl, rfl, rfl, ?_, rfl, rfl, rfl, rfl, rfl, rfl, ?_, ?_, rfl, rfl,
    ?_, ?_, rfl, rfl, rfl, rfl, rfl, rfl, rfl, rfl, rfl, rfl, rfl, rfl, rfl, rfl⟩
  · exact fun g hg => (List.eq_of_mem_replicate hg) ▸ rfl
  · exact fun e he => (List.eq_of_mem_replicate he) ▸ rfl
  · exact fun d hd => List.eq_of_mem_replicate hd
  · exact fun set hs => List.eq_of_mem_replicate hs
  · exact fun table ht place hp => by
      rw [List.eq_of_mem_replicate ht] at hp
      exact List.eq_of_mem_replicate hp

/-! ## Frames answered at once (R24, R187) -/

section

variable {s : State} {tag b2 b3 : Byte} {line : BitVec 64} {data : Data} {mask : BitVec 64} {check : BitVec 16}

/-- A good READ is answered NOT_READY in CONFIG, and reaches the DRAM Port in ONLINE (R187). -/
theorem execRead_good (hf : FrameGood (readBody tag b2 b3 line) check tag s) :
    exec (.read tag b2 b3 line check) s = .next (if s.link.channel = .config then
      notReadyData tag.toNat (accepted tag s) else portRead tag.toNat line.toNat (accepted tag s)) := by
  show execRead tag b2 b3 line check s = _
  have hc : (accepted tag s).link.channel = s.link.channel := rfl
  simp only [execRead, hf.not_refused, acceptFrame_eq, hc, Bool.false_eq_true, if_false]
  cases s.link.channel <;> rfl

/-- A good WRITE is answered NOT_READY in CONFIG, and reaches the DRAM Port in ONLINE (R187). -/
theorem execWrite_good (hf : FrameGood (writeBody tag b2 b3 line data) check tag s) :
    exec (.write tag b2 b3 line data check) s = .next (if s.link.channel = .config then
      notReadyAck tag.toNat (accepted tag s) else portWrite .demand tag.toNat line.toNat (b2.getLsbD 0)
        (takeWrite tag.toNat line.toNat data) (accepted tag s)) := by
  show execWrite tag b2 b3 line data check s = _
  have hc : (accepted tag s).link.channel = s.link.channel := rfl
  simp only [execWrite, hf.not_refused, acceptFrame_eq, hc, Bool.false_eq_true, if_false]
  cases s.link.channel <;> rfl

/-- A good WRITE_MASKED is answered NOT_READY in CONFIG, and reaches the DRAM Port in ONLINE (R187). -/
theorem execWriteMasked_good (hf : FrameGood (writeMaskedBody tag b2 b3 line data mask) check tag s) :
    exec (.writeMasked tag b2 b3 line data mask check) s = .next (if s.link.channel = .config then
      notReadyAck tag.toNat (accepted tag s) else portWrite .rmw tag.toNat line.toNat (b2.getLsbD 0)
        (testMask tag.toNat line.toNat data mask) (accepted tag s)) := by
  show execWriteMasked tag b2 b3 line data mask check s = _
  have hc : (accepted tag s).link.channel = s.link.channel := rfl
  simp only [execWriteMasked, hf.not_refused, acceptFrame_eq, hc, Bool.false_eq_true, if_false]
  cases s.link.channel <;> rfl

end

/-- A READ beyond the capacity (R24). -/
theorem portRead_beyond {line : Nat} {s : State} (h : s.capacity ≤ line) (tag : Nat) :
    portRead tag line s = count .addressErrors (handReturn (.data tag .addressError 0) s) := by
  simp only [portRead, h, if_true]

/-- A write beyond the capacity, whatever its lock check would say (R24, R64). -/
theorem portWrite_beyond {line : Nat} {s : State} (h : s.capacity ≤ line) (source : Source) (tag : Nat)
    (permit : Bool) (passed : State → State) :
    portWrite source tag line permit passed s = count .addressErrors (handReturn (.ack tag .addressError) s) := by
  simp only [portWrite, h, if_true]

/-! ## A failed lock check (R64, R65) -/

/-- A write of a locked region without permit is refused by the region (R64). -/
theorem portWrite_locked {s : State} {line i : Nat} (hl : line < s.capacity) (hr : regionOf s line = some i)
    (hk : (regionAt s i).entry.locked = true) (source : Source) (tag : Nat) (passed : State → State) :
    portWrite source tag line false passed s = failLock source tag i line s := by
  have hlock : lockingRegion s line false = some i := by simp [lockingRegion, hr, hk]
  simp only [portWrite, Nat.not_le.2 hl, if_false, hlock]

/-- What a failed lock check leaves: the record's own effect, and then the cause and the count (R65). -/
theorem failLock_eq (source : Source) (tag region line : Nat) (s : State) :
    let u := handRecord (lockRecord source region line s) (handReturn (.ack tag .lockFault) s)
    let t := failLock source tag region line s
    plain t.link.returns = plain s.link.returns ++ [.ack tag .lockFault] ∧ t.report.pending.getLsbD 13 = true ∧
    t = { u with
      link := { u.link with returns := t.link.returns }
      report := { u.report with pending := t.report.pending, alerted := t.report.alerted
                                holdoffEnd := t.report.holdoffEnd }
      counters := { u.counters with
        lockFaults := satAdd u.counters.lockFaults 1
        alertsSent := t.counters.alertsSent, alertsMerged := t.counters.alertsMerged } } := by
  intro u t
  have ht : t = count .lockFaults (raise .lockFault u) := rfl
  refine ⟨?_, ?_, ?_⟩
  · obtain ⟨⟨-, hu, -⟩, -⟩ := handRecord_noted (lockRecord source region line s) (handReturn (.ack tag .lockFault) s)
    rw [ht, count_link, raise_plain, hu, handReturn_link, plain_append]
    rfl
  · rw [ht, count_report, raise_eq]
    simp [Cause.mark, Cause.bit]
  · rw [ht, raise_eq]
    rfl

/-- A failed lock check of an accepted write: nothing of the write is taken, and its record is placed, lost or
discarded. -/
theorem failLock_accepted (source : Source) (tag : Byte) (i line : Nat) (s : State) :
    let t := failLock source tag.toNat i line (accepted tag s)
    let ringLine := s.report.base + s.report.produced.toNat % 2 ^ s.report.sizeExp
    plain t.link.returns = plain s.link.returns ++ [.ack tag.toNat .lockFault] ∧
    t.report.pending.getLsbD 13 = true ∧
    (RingOpen s → t.wbq = entriesLeft s ringLine ∧
      t.port.accesses = accessesLeft s ringLine ++ [recordWriteOf (lockRecord source i line s) s] ∧
      t.counters.recordsPlaced = satAdd s.counters.recordsPlaced 1 ∧
      t.counters.recordsLost = s.counters.recordsLost ∧ t.counters.writebacksCancelled =
        countedIf (cancels s ringLine) s.counters.writebacksCancelled) ∧
    (¬ RingOpen s → t.port = s.port ∧ t.wbq = s.wbq ∧ t.counters.recordsPlaced = s.counters.recordsPlaced ∧
      t.counters.recordsLost = countedIf s.report.setUp s.counters.recordsLost ∧
      t.counters.writebacksCancelled = s.counters.writebacksCancelled) ∧
    t = { s with
      link := { (accepted tag s).link with returns := t.link.returns }
      port := { s.port with accesses := t.port.accesses }, wbq := t.wbq, report := t.report
      counters := { (accepted tag s).counters with
        lockFaults := satAdd s.counters.lockFaults 1, recordsPlaced := t.counters.recordsPlaced
        recordsLost := t.counters.recordsLost, writebacksCancelled := t.counters.writebacksCancelled
        alertsSent := t.counters.alertsSent, alertsMerged := t.counters.alertsMerged } } := by
  intro t ringLine
  obtain ⟨hreturns, hpending, ht⟩ := failLock_eq source tag.toNat i line (accepted tag s)
  change t = _ at ht
  refine ⟨hreturns, hpending, ?_⟩
  by_cases ho : RingOpen s
  · rw [handRecord_open _ (s := handReturn (.ack tag.toNat .lockFault) (accepted tag s)) ho] at ht
    rw [ht]
    exact ⟨fun _ => ⟨rfl, rfl, rfl, rfl, rfl⟩, fun hn => absurd ho hn, rfl⟩
  · rw [handRecord_closed _ (s := handReturn (.ack tag.toNat .lockFault) (accepted tag s)) ho] at ht
    rw [ht]
    exact ⟨fun h => absurd h ho, fun _ => ⟨rfl, rfl, rfl, rfl, rfl⟩, rfl⟩

/-- Settles O18: the channel, the capacity and the lock decide in this order, and each answer is one of those above. -/
theorem unservedFramesAreAnswered : Obligations.UnservedFramesAreAnswered := by
  refine ⟨fun s tag b2 b3 line data mask check => ⟨fun hf => ⟨fun hc => ?_, fun ho hl => ?_⟩,
    fun hf => ⟨fun hc => ?_, fun ho hl => ?_⟩, fun hf => ⟨fun hc => ?_, fun ho hl => ?_⟩⟩,
    fun s tag b2 b3 line data mask check i ho hl hr hk hp => ⟨fun hf => ?_, fun hf => ?_⟩⟩
  · rw [execRead_good hf, if_pos hc]
    rfl
  · rw [execRead_good hf, if_neg (by simp [ho]), portRead_beyond (s := accepted tag s) hl]
    rfl
  · rw [execWrite_good hf, if_pos hc]
    rfl
  · rw [execWrite_good hf, if_neg (by simp [ho]), portWrite_beyond (s := accepted tag s) hl]
    rfl
  · rw [execWriteMasked_good hf, if_pos hc]
    rfl
  · rw [execWriteMasked_good hf, if_neg (by simp [ho]), portWrite_beyond (s := accepted tag s) hl]
    rfl
  · refine ⟨_, ?_, failLock_accepted .demand tag i line.toNat s⟩
    rw [execWrite_good hf, if_neg (by simp [ho]), hp, portWrite_locked (s := accepted tag s) hl hr hk]
  · refine ⟨_, ?_, failLock_accepted .rmw tag i line.toNat s⟩
    rw [execWriteMasked_good hf, if_neg (by simp [ho]), hp, portWrite_locked (s := accepted tag s) hl hr hk]

/-! ## READs (R25, R26, R28) -/

theorem WbKind.dataOutcome_eq (kind : WbKind) :
    kind.dataOutcome = if kind = .rewrite then .corrected else .poisoned := by
  cases kind <;> rfl

/-- A READ of a valid line reaches the Write-back Queue and line order (R24). -/
theorem execRead_taken {s : State} {tag b2 b3 : Byte} {line : BitVec 64} {check : BitVec 16}
    (hf : FrameGood (readBody tag b2 b3 line) check tag s) (ho : s.link.channel = .online)
    (hl : line.toNat < s.capacity) :
    exec (.read tag b2 b3 line check) s = .next (takeRead tag.toNat line.toNat (accepted tag s)) := by
  have hl' : line.toNat < (accepted tag s).capacity := hl
  rw [execRead_good hf, if_neg (by simp [ho]), portRead, if_neg (Nat.not_le.2 hl')]

/-- Settles O19: the entry of a line is what a READ is forwarded from while the line is clear, and nothing else is. -/
theorem readsAreForwardedOrTaken : Obligations.ReadsAreForwardedOrTaken := by
  intro s tag b2 b3 line check hf ho hl
  refine ⟨fun e he hc => ?_, fun hn => ?_⟩
  · have hfw : forwardEntry (accepted tag s) line.toNat = some e := (forwardEntry_of_clear hc).trans he
    rw [execRead_taken hf ho hl, takeRead, hfw, ← WbKind.dataOutcome_eq]
    rfl
  · have hfw : forwardEntry (accepted tag s) line.toNat = none := forwardEntry_eq_none hn
    rw [execRead_taken hf ho hl, takeRead, hfw]
    rfl

end Sys2Proof.Machine
end

