-- ==== Sys2Proof/Proofs/Timers.lean ====
section
/-! The timers of the DRAM Port (O34), and the events that a state rules out (O49). -/

namespace Sys2Proof.Machine

open Sys2Proof

/-! ## The timers (R34, R36) -/

/-- The key of a bank, as the statements write it. -/
theorem bankKey_eq (rank bank : Nat) : bankKey rank bank = 16 * rank + bank := by rw [bankKey, Nat.mul_comm]

/-- An event that comes to its moment moves the elapsed time and the times kept, and nothing else (R196). -/
theorem arrive_aside (m : FineTime) (s : State) : (arrive m s).port.accesses = s.port.accesses ∧
    (arrive m s).link = s.link ∧ (arrive m s).dram = s.dram ∧ (arrive m s).params = s.params ∧
    (arrive m s).counters = s.counters := by
  unfold arrive
  split <;> exact ⟨rfl, rfl, rfl, rfl, rfl⟩

/-- The owed refreshes of a rank keep their number while time passes (R36, R196). -/
theorem arrive_owed (m : FineTime) (s : State) (rank : Nat) :
    (refreshAt (arrive m s) rank).owed.length = (refreshAt s rank).owed.length := by
  unfold arrive
  split
  · simp only [refreshAt, setNow, List.getD_eq_getElem?_getD, List.getElem?_map]
    cases s.port.refresh[rank]? <;> simp
  · rfl

theorem refreshDue_eq (rank : Nat) (m : FineTime) (v : State) :
    let next := m.later (v.params.refreshInterval * 8)
    let owed := (refreshAt v rank).owed
    refreshDue rank m v = if owed.length < 8 then
        { v with port := { v.port with refresh := v.port.refresh.set rank { timer := some next, owed := owed ++ [m] } } }
      else { v with
        port := { v.port with refresh := v.port.refresh.set rank { timer := some next, owed := owed } }
        counters := { v.counters with refreshMissed := satAdd v.counters.refreshMissed 1 } } := by
  unfold refreshDue
  dsimp only
  split <;> rfl

/-- Settles O34: the row closes unless it is busy, and the interval of a refresh timer is followed by the next. -/
theorem portTimersExpire : Obligations.PortTimersExpire := by
  refine ⟨fun m s => ?_, fun s rank bank o t ho ht => ?_, fun s rank r m hr hm => ?_⟩
  · obtain ⟨haccesses, hlink, hdram, -⟩ := arrive_aside m s
    exact ⟨fun h => if_neg (not_lt.2 h), fun h => by rw [arrive, if_pos h]; rfl, haccesses, hlink, hdram⟩
  · intro v
    rw [← bankKey_eq] at ho ⊢
    show execRowHoldExpiry rank bank s = _
    simp only [execRowHoldExpiry, ho, ht]
    split <;> rfl
  · intro v next owed
    have hat : refreshAt s rank = r := by simp [refreshAt, hr]
    have hlen : owed.length = r.owed.length := hat ▸ arrive_owed m s rank
    obtain ⟨-, -, -, hparams, hcounters⟩ := arrive_aside m s
    refine ⟨hlen, ?_⟩
    show execRefreshTimerExpiry rank s = _
    have hnext : next = m.later (v.params.refreshInterval * 8) := by rw [hparams]
    simp only [execRefreshTimerExpiry, hat, hm]
    rw [refreshDue_eq, ← hlen, hnext, ← hcounters]

/-! ## Events that the state rules out -/

section

variable {s : State} {line : Nat} (damage : Line)

/-- Without an access of the line that can be performed, nothing of it arrives and nothing is performed (R26). -/
theorem exec_not_performable (h : performable s line = none) :
    ∀ c ∈ [Instr.demandReadDecode line damage, .scrubReadDecode line damage, .rmwReadDecode line damage,
      .copyReadDecode line damage, .demandWritePerformed line, .maskedWritePerformed line, .writebackPerformed line,
      .recordWritePerformed line, .copyWritePerformed line], exec c s = .next s := by
  simp only [List.forall_mem_cons, List.not_mem_nil, false_implies, implies_true, exec, execDemandReadDecode,
    execScrubReadDecode, execRmwReadDecode, execCopyReadDecode, execDemandWritePerformed, execMaskedWritePerformed,
    execWritebackPerformed, execRecordWritePerformed, execCopyWritePerformed, h, and_self]

variable {a : Access} (h : performable s line = some a)
include h

/-- A read of one kind is not decoded as one of another (R13 to R16). -/
theorem exec_other_decode :
    ((∀ tag, a.kind ≠ .demandRead tag) → exec (.demandReadDecode line damage) s = .next s) ∧
    (a.kind.isScrub = false → exec (.scrubReadDecode line damage) s = .next s) ∧
    ((∀ tag data mask, a.kind ≠ .maskedWrite tag data mask none) → exec (.rmwReadDecode line damage) s = .next s) ∧
    (a.kind ≠ .copyRead → exec (.copyReadDecode line damage) s = .next s) := by
  simp only [exec, execDemandReadDecode, execScrubReadDecode, execRmwReadDecode, execCopyReadDecode, h]
  refine ⟨fun hk => ?_, fun hk => ?_, fun hk => ?_, fun hk => ?_⟩
  · split
    · exact absurd ‹_› (hk _)
    · rfl
  · split
    · simp [AccessKind.isScrub, *] at hk
    · simp [AccessKind.isScrub, *] at hk
    · rfl
  · split
    · exact absurd ‹_› (hk _ _ _)
    · rfl
  · split
    · exact absurd ‹_› hk
    · rfl

/-- A write of one kind is not performed as one of another (R17, R30, R48, R141, R171). -/
theorem exec_other_write :
    ((∀ tag data, a.kind ≠ .demandWrite tag data) → exec (.demandWritePerformed line) s = .next s) ∧
    ((∀ tag data mask merged, a.kind ≠ .maskedWrite tag data mask (some merged)) →
      exec (.maskedWritePerformed line) s = .next s) ∧
    (a.kind ≠ .writeBack ∨ wbFind s line = none → exec (.writebackPerformed line) s = .next s) ∧
    ((∀ n data, a.kind ≠ .recordWrite n data) → exec (.recordWritePerformed line) s = .next s) ∧
    ((∀ row payload forwarded, a.kind ≠ .copyWrite row (some payload) forwarded) →
      exec (.copyWritePerformed line) s = .next s) := by
  simp only [exec, execDemandWritePerformed, execMaskedWritePerformed, execWritebackPerformed, execRecordWritePerformed,
    execCopyWritePerformed, h]
  refine ⟨fun hk => ?_, fun hk => ?_, fun hk => ?_, fun hk => ?_, fun hk => ?_⟩
  · split
    · exact absurd ‹_› (hk _ _)
    · rfl
  · split
    · exact absurd ‹_› (hk _ _ _ _)
    · rfl
  · cases he : wbFind s line with
    | none => rfl
    | some e => exact if_neg (hk.resolve_right (by simp [he]))
  · split
    · exact absurd ‹_› (hk _ _)
    · rfl
  · split
    · exact absurd ‹_› (hk _ _ _)
    · rfl

end

/-- A timer that does not run brings no event (R34, R36, R179, R180). -/
theorem exec_stopped_timer (s : State) :
    (∀ rank bank, (∀ o, AMap.get? s.port.openRows (bankKey rank bank) = some o → o.holdEnd = none) →
      exec (.rowHoldExpiry rank bank) s = .next s) ∧
    (∀ rank, (refreshAt s rank).timer = none → exec (.refreshTimerExpiry rank) s = .next s) ∧
    (s.report.holdoffEnd = none → exec .holdoffExpiry s = .next s) ∧
    (s.report.ageStart = none → exec .readyAgeExpiry s = .next s) := by
  refine ⟨fun rank bank h => ?_, fun rank h => ?_, fun h => ?_, fun h => ?_⟩
  · show execRowHoldExpiry rank bank s = _
    cases ho : AMap.get? s.port.openRows (bankKey rank bank) with
    | none => simp only [execRowHoldExpiry, ho]
    | some o => simp only [execRowHoldExpiry, ho, h o ho]
  · simp only [exec, execRefreshTimerExpiry, h]
  · simp only [exec, execHoldoffExpiry, h]
  · simp only [exec, execReadyAgeExpiry, h]

/-- A sweep stands at a paced boundary of its mode exactly when R77 and R78 say so. -/
theorem atPacedBoundary_iff (mode : AccessMode) (s : State) (w : Sweep) : atPacedBoundary mode s w = true ↔
    s.patrol.engine = .running ∧ (regionAt s w.region).entry.mode = mode ∧ w.inFlight = 0 ∧ w.burstLeft = 0 ∧
      0 < w.remaining ∧ w.deferred = false := by
  simp only [atPacedBoundary, Bool.and_eq_true, beq_iff_eq, decide_eq_true_eq, Bool.not_eq_true', and_assoc]

/-- A sweep that does not stand at a boundary of the event's mode issues nothing (R77, R78). -/
theorem exec_not_at_boundary {s : State} (mode : AccessMode)
    (h : ∀ w, s.patrol.active = some w → atPacedBoundary mode s w = false) :
    (mode = .single → exec .patrolLineIssue s = .next s) ∧ (mode = .burst → exec .burstIssue s = .next s) := by
  refine ⟨?_, ?_⟩ <;> rintro rfl <;> simp only [exec, execPatrolLineIssue, execBurstIssue] <;>
    cases hw : s.patrol.active with
    | none => rfl
    | some w => exact if_neg (by simp [h w hw])

/-! ## Requests that are not at the head -/

/-- A command that does nothing unless the request of a code stands at the head and may be dispatched (R192). -/
def ServesHead (p : Instr × Nat) : Prop := ∀ s, headRequest p.2 s = none → exec p.1 s = .next s

theorem serveThen_none {after : State → State} {code needed : Nat} {owner : List Word32 → State → Answered} {s : State}
    (h : headRequest code s = none) : serveThen after code needed owner s = s := by
  simp only [serveThen, h]

/-- A dispatch is of the head alone. -/
theorem ServesHead.of_serveThen {c : Instr} {code : Nat} (needed : Nat) (after : State → State)
    (owner : List Word32 → State → Answered) (h : ∀ s, exec c s = .next (serveThen after code needed owner s)) :
    ServesHead (c, code) := fun s hs => by rw [h, serveThen_none hs]

/-- No request is at the head to be dispatched while a clear is in progress, or when the head has another code (R192). -/
theorem headRequest_eq_none {s : State} {code : Nat}
    (h : s.maint.clearing = true ∨ ∀ q, s.maint.queue.head? = some q → q.code ≠ code) : headRequest code s = none := by
  unfold headRequest
  split
  · rfl
  · rename_i hc
    simpa using h.resolve_left hc

theorem channelClear_servesHead : ServesHead (.channelClear, 8) := fun s hs => by
  show execChannelClear s = _
  simp only [execChannelClear, hs]

/-- BAD_REQUEST answers a head of no request's code alone, and not while a clear is in progress (R192, R193). -/
theorem exec_badRequest_named {s : State}
    (h : s.maint.clearing = true ∨ ∀ q, s.maint.queue.head? = some q → 1 ≤ q.code ∧ q.code ≤ 35) :
    exec .badRequest s = .next s := by
  show execBadRequest s = _
  unfold execBadRequest
  split
  · rename_i q rest hq
    refine if_neg fun hn => ?_
    obtain ⟨h1, h35⟩ := h.resolve_left hn.1 q (by rw [hq]; rfl)
    omega
  · rfl

/-- Settles O49: each event finds in the state that it cannot arise. -/
theorem untimelyEventsChangeNothing : Obligations.UntimelyEventsChangeNothing := by
  intro s
  obtain ⟨hhold, hrefresh, hholdoff, hage⟩ := exec_stopped_timer s
  refine ⟨fun line h damage => exec_not_performable damage h, fun line a damage h => ?_, fun rank bank h => ?_, hrefresh,
    fun h => ?_, fun w hw => ?_, hholdoff, hage, fun p hp h => ?_, exec_badRequest_named⟩
  · obtain ⟨hdemand, hscrub, hrmw, hcopy⟩ := exec_other_decode damage h
    exact ⟨hdemand, hscrub, hrmw, hcopy, exec_other_write h⟩
  · rw [← bankKey_eq] at h
    exact hhold rank bank h
  · have hidle : ∀ mode w, s.patrol.active = some w → atPacedBoundary mode s w = false := fun mode w hw => by
      rw [Bool.eq_false_iff, Ne, atPacedBoundary_iff]
      exact fun hb => h.elim (by simp [hw]) (fun hr => hr hb.1)
    exact ⟨(exec_not_at_boundary .single (hidle .single)).1 rfl, (exec_not_at_boundary .burst (hidle .burst)).2 rfl⟩
  · intro ready
    have haway : ∀ mode, (regionAt s w.region).entry.mode ≠ mode ∨ ¬ ready →
        ∀ v, s.patrol.active = some v → atPacedBoundary mode s v = false := fun mode h v hv => by
      obtain rfl : w = v := Option.some.inj (hw.symm.trans hv)
      rw [Bool.eq_false_iff, Ne, atPacedBoundary_iff]
      rintro ⟨-, hm, hready⟩
      exact h.elim (absurd hm) (absurd hready)
    exact ⟨fun h => (exec_not_at_boundary .single (haway .single h)).1 rfl,
      fun h => (exec_not_at_boundary .burst (haway .burst h)).2 rfl⟩
  · refine (?_ : ServesHead p) s (headRequest_eq_none h)
    clear h
    revert p
    simp only [List.forall_mem_cons, List.not_mem_nil, false_implies, implies_true, and_true]
    and_intros
    on_goal 8 => exact channelClear_servesHead
    all_goals exact .of_serveThen _ _ _ fun _ => rfl

end Sys2Proof.Machine
end

