-- ==== Sys2Proof/Proofs/Performed.lean ====
section
/-! O26: an access performed, its place in line order and the hold of its row (R26, R34, R35). -/

namespace Sys2Proof.Machine

open Sys2Proof

/-- The first access of a line parts line order, and leaves it whole (R26). -/
theorem Fronts.split {a : Access} {l : List Access} (h : Fronts a l) : ∃ before after, l = before ++ a :: after ∧
    (∀ b ∈ before, b.line ≠ a.line) ∧ removeFirst a.line l = before ++ after := by
  obtain ⟨-, before, after, rfl, hb⟩ := List.find?_eq_some_iff_append.1 h
  have hne : ∀ b ∈ before, b.line ≠ a.line := by simpa using hb
  refine ⟨before, after, rfl, hne, ?_⟩
  clear h hb
  induction before with
  | nil => simp [removeFirst]
  | cons b before ih =>
    obtain ⟨h1, h2⟩ := List.forall_mem_cons.1 hne
    simp [removeFirst, h1, ih h2]

/-- A row is busy when a granted access of its bank uses it, or doubles to it (R34). -/
theorem rowBusy_iff (s : State) (rank bank row : Nat) : rowBusy s rank bank row = true ↔
    ∃ b ∈ s.port.accesses, b.phase = .granted ∧ s.port.geom.rankOf b.line = rank ∧ s.port.geom.bankOf b.line = bank ∧
      (b.row = row ∨ b.double = some row) := by
  simp only [rowBusy, List.any_eq_true, Bool.and_eq_true, beq_iff_eq, rankOfAccess, bankOfAccess, Access.usesRow,
    Bool.or_eq_true, and_assoc]

/-- What a granted access that can be performed need not wait for: an earlier grant of its bank to the same row, with no
refresh between the two (R35). -/
theorem performable_order {s : State} {line : Nat} {a : Access} (h : performable s line = some a) :
    ∀ b ∈ s.port.accesses, b.phase = .granted → b.grantNo < a.grantNo →
      s.port.geom.rankOf b.line = s.port.geom.rankOf a.line → s.port.geom.bankOf b.line = s.port.geom.bankOf a.line →
      a.row = b.lastRow ∧ a.double = none ∧ b.refreshes ≤ a.refreshes := by
  intro b hb hg hn hr hk
  obtain ⟨-, hc⟩ := Option.filter_eq_some_iff.1 h
  simp only [canPerform, Bool.and_eq_true, Bool.not_eq_true', List.any_eq_false] at hc
  have hkey : keyOfAccess s b = keyOfAccess s a := by simp only [keyOfAccess, rankOfAccess, bankOfAccess, hr, hk]
  simpa [mustPrecede, hg, hn, hkey, and_assoc] using hc.2 b hb

section

variable (rank bank row : Nat) (s : State)

/-- The hold of the open row restarts, or the row closes with `page_hold` 0 and no other access to it (R34). -/
theorem restartHold_open {o : OpenRow} (ho : AMap.get? s.port.openRows (bankKey rank bank) = some o) (hr : o.row = row) :
    (restartHold rank bank row s).port.openRows =
      if s.params.pageHold = 0 ∧ rowBusy s rank bank row = false then
        AMap.erase s.port.openRows (bankKey rank bank)
      else AMap.insert s.port.openRows (bankKey rank bank)
        { row := row, holdEnd := some (s.maint.now.us + BitVec.ofNat 48 s.params.pageHold) } := by
  simp only [restartHold, ho, hr, if_true, Bool.not_eq_true]
  split <;> rfl

/-- A row that is no longer open keeps no hold (R34). -/
theorem restartHold_closed (h : ∀ o, AMap.get? s.port.openRows (bankKey rank bank) = some o → o.row ≠ row) :
    restartHold rank bank row s = s := by
  unfold restartHold
  split
  · exact if_neg (h _ ‹_›)
  · rfl

end

/-- The restart of a hold leaves line order, and so what keeps a row busy (R34). -/
theorem finishAccess_rowBusy (a : Access) (s : State) (rank bank row : Nat) :
    rowBusy (finishAccess a s) rank bank row =
      rowBusy { s with port := { s.port with accesses := removeFirst a.line s.port.accesses } } rank bank row := by
  unfold rowBusy rankOfAccess bankOfAccess
  rw [finishAccess_port]

/-- The frame of a performed access (R26, R34). -/
theorem finishAccess_eq (a : Access) (s : State) : finishAccess a s = { s with port := { s.port with
    accesses := removeFirst a.line s.port.accesses, openRows := (finishAccess a s).port.openRows } } := by
  obtain ⟨m, -, e⟩ := finishAccess_spec a s
  rw [e]

/-- The hold of the row that an access leaves open (R34). -/
theorem finishAccess_hold (a : Access) (s : State) :
    let key := bankKey (s.port.geom.rankOf a.line) (s.port.geom.bankOf a.line)
    let busy := rowBusy (finishAccess a s) (s.port.geom.rankOf a.line) (s.port.geom.bankOf a.line) a.lastRow
    (∀ o, AMap.get? s.port.openRows key = some o → o.row = a.lastRow → (finishAccess a s).port.openRows =
      if s.params.pageHold = 0 ∧ busy = false then AMap.erase s.port.openRows key
      else AMap.insert s.port.openRows key
        { row := a.lastRow, holdEnd := some (s.maint.now.us + BitVec.ofNat 48 s.params.pageHold) }) ∧
    ((∀ o, AMap.get? s.port.openRows key = some o → o.row ≠ a.lastRow) →
      (finishAccess a s).port.openRows = s.port.openRows) := by
  simp only [finishAccess_rowBusy]
  exact ⟨fun o ho hr => restartHold_open _ _ _
      { s with port := { s.port with accesses := removeFirst a.line s.port.accesses } } ho hr,
    fun h => congrArg (·.port.openRows) (restartHold_closed _ _ _
      { s with port := { s.port with accesses := removeFirst a.line s.port.accesses } } h)⟩

/-- Settles O26: line order loses the access alone, and the hold follows the row that the access leaves open. -/
theorem performedAccessesLeaveLineOrder : Obligations.PerformedAccessesLeaveLineOrder := by
  intro s line a h
  obtain ⟨rfl, hfirst, hgranted⟩ := performable_fronts h
  obtain ⟨before, after, hl, hbefore, hremoved⟩ := hfirst.split
  obtain ⟨hopen, hclosed⟩ := finishAccess_hold a s
  have haccesses : (finishAccess a s).port.accesses = before ++ after := by rw [finishAccess_eq, ← hremoved]
  have hgeom : (finishAccess a s).port.geom = s.port.geom := by rw [finishAccess_eq]
  intro rank bank t open_
  simp only [open_, ← bankKey_eq]
  refine ⟨⟨before, after, hl, haccesses, hbefore, ?_⟩, trivial, hgranted, performable_order h, fun o ho hr => ⟨fun hc => ?_,
    fun hc => ?_⟩, hclosed, ?_⟩
  · rw [rowBusy_iff, haccesses, hgeom]
  · rw [hopen o ho hr, if_pos hc]
  · have hn : ¬ (s.params.pageHold = 0 ∧ rowBusy (finishAccess a s) rank bank a.lastRow = false) := fun ⟨h0, hb⟩ =>
      hc.elim (absurd h0) fun hn => Bool.false_ne_true (hb.symm.trans hn)
    rw [hopen o ho hr, if_neg hn, AMap.get_insert, if_pos rfl]
  · rw [show t = _ from finishAccess_eq a s]

end Sys2Proof.Machine
end

