-- ==== Sys2Proof/Proofs/GeometryChange.lean ====
section
/-! O58: the decision on CONFIGURE_GEOMETRY, and what an accepted one does to each block (R19 to R21). -/

namespace Sys2Proof.Machine

open Sys2Proof

/-! ## The decision (R19, R20) -/

theorem Geometry.allowed_iff (g : Geometry) : g.allowed = true ↔ g.ranks ∈ [1, 2, 4] ∧ 14 ≤ g.rowBits ∧ g.rowBits ≤ 17 ∧
    5 ≤ g.colExp ∧ g.colExp ≤ 8 ∧ g.spares ∈ [0, 8, 16, 32] := by
  simp [Geometry.allowed, and_assoc, or_assoc]

/-- The kinds of access that are bound to the geometry: the reads of the patrol and of its jobs, and the copies (R20). -/
theorem AccessKind.bound_iff (k : AccessKind) : (k.isScrub || k.isCopy) = true ↔
    (∃ owned, k = .patrolRead owned) ∨ (∃ row, k = .targetedRead row) ∨ k = .copyRead ∨
      ∃ row payload forwarded, k = .copyWrite row payload forwarded := by
  cases k <;> simp [AccessKind.isScrub, AccessKind.isCopy]

theorem boundWork_iff (s : State) : boundWork s = true ↔
    s.patrol.active ≠ none ∨ s.patrol.staged ≠ none ∨ s.patrol.held ≠ none ∨ s.patrol.tsq ≠ [] ∨ s.wbq ≠ [] ∨
      s.repair.jobs ≠ [] ∨ s.report.produced ≠ s.report.written ∨
      ∃ a ∈ s.port.accesses, (∃ owned, a.kind = .patrolRead owned) ∨ (∃ row, a.kind = .targetedRead row) ∨
        a.kind = .copyRead ∨ ∃ row payload forwarded, a.kind = .copyWrite row payload forwarded := by
  simp only [boundWork, Bool.or_eq_true, List.any_eq_true, ← AccessKind.bound_iff, Option.isSome_iff_ne_none,
    Bool.not_eq_true', List.isEmpty_eq_false_iff, bne_iff_ne, or_assoc]

/-- The request at the head is refused or accepted by its four values and by the work outstanding (R20). -/
theorem execConfigureGeometry_of {s : State} {q : MaintRequest} (h : AtHead s q 9) (hn : 4 ≤ q.args.length)
    (hc : s.link.channel = .config) : let g := geometryOf q.args
    exec .configureGeometry s = .next (
      if g.allowed = false then answered q .badArgument [] (dispatched s)
      else if boundWork s = true then answered q .busy [] (dispatched s)
      else answered q .ok [] (takeGeometry g (dispatched s))) := by
  have hc' : (dispatched s).link.channel ≠ .online := by simp [dispatched, hc]
  have hb : boundWork (dispatched s) = boundWork s := rfl
  show execConfigureGeometry s = _
  rw [execConfigureGeometry, serve_eq doConfigureGeometry h hn rfl, doConfigureGeometry, if_neg hc', hb]
  cases (geometryOf q.args).allowed
  · rfl
  · cases boundWork s <;> rfl

/-! ## What each block does (R21) -/

theorem fittedErasures_getD (ranks : Nat) (sets : List (List Nat)) (n : Nat) :
    (fittedErasures ranks sets).getD n [] = if n < ranks then sets.getD n [] else [] := by
  simp only [fittedErasures, List.getD_eq_getElem?_getD, List.getElem?_map, List.getElem?_zipIdx]
  cases sets[n]? <;> simp

theorem fittedDevices_getD (ranks : Nat) (devices : List DeviceScore) (n : Nat) :
    (fittedDevices ranks devices).getD n {} = if n / 20 < ranks then devices.getD n {} else {} := by
  simp only [fittedDevices, List.getD_eq_getElem?_getD, List.getElem?_map, List.getElem?_zipIdx]
  cases devices[n]? <;> simp

theorem startRefresh_getD (ranks : Nat) (s : State) {n : Nat} (hn : n < 4) (r : Refresh) :
    (startRefresh ranks s).getD n r =
      { timer := if n < ranks then some (s.maint.now.later (s.params.refreshInterval * 8)) else none, owed := [] } := by
  simp [startRefresh, List.getD_eq_getElem?_getD, List.getElem?_range hn]

/-- A ring beyond the capacity loses its setup and its counts; any other stands (R21, R169). -/
theorem fitRing_eq (s : State) : fitRing s =
    if s.report.setUp = true ∧ s.port.geom.capacity < s.report.base + 2 ^ s.report.sizeExp then
      { s with report := { s.report with
        setUp := false, produced := 0, written := 0, consumed := 0, lost := 0, overrun := false, queue := []
        unannounced := 0, ageStart := none } }
    else s := rfl

/-- An accepted change of the geometry, but for the ring. -/
def fitted (g : Geometry) (s : State) : State :=
  { s with
    port := { s.port with geomSet := true, geom := g, openRows := [], refresh := startRefresh g.ranks s }
    regions := s.regions.map (Region.fitted g.capacity)
    repair := { s.repair with slots := [], erasures := fittedErasures g.ranks s.repair.erasures }
    fault := { s.fault with entries := s.fault.entries.map (FaultEntry.fitted g)
                            devices := fittedDevices g.ranks s.fault.devices }
    hammer := { s.hammer with tables := s.hammer.tables.map fun table => table.map fun _ => none } }

theorem takeGeometry_eq (g : Geometry) (s : State) :
    takeGeometry g s = { fitted g s with report := (takeGeometry g s).report } ∧
    (takeGeometry g s).report = (fitRing (fitted g s)).report := by
  refine ⟨?_, rfl⟩
  show fitRing (fitted g s) = { fitted g s with report := (fitRing (fitted g s)).report }
  rw [fitRing_eq]
  split <;> rfl

/-- Settles O58: the decision, and for an accepted request the effect on each block in the order of R21. -/
theorem configureGeometryReachesEveryBlock : Obligations.ConfigureGeometryReachesEveryBlock := by
  intro s q ranks rowBits colExp spares more h hargs hc g capacity allowed bound
  have hg : geometryOf q.args = g := by rw [hargs]; rfl
  have hexec := execConfigureGeometry_of h (by simp [hargs]) hc
  rw [hg] at hexec
  have ha : g.allowed = true ↔ allowed := g.allowed_iff
  have hb : boundWork s = true ↔ bound := boundWork_iff s
  refine ⟨fun hn => ?_, fun hy hw => ?_, fun hy hw => ⟨takeGeometry g (dispatched s), ?_, ?_⟩⟩
  · rw [hexec, if_pos (Bool.eq_false_iff.2 (mt ha.1 hn))]
  · rw [hexec, if_neg (by simp [ha.2 hy]), if_pos (hb.2 hw)]
  · rw [hexec, if_neg (by simp [ha.2 hy]), if_neg (mt hb.1 hw)]
  · obtain ⟨ht, hreport⟩ := takeGeometry_eq g (dispatched s)
    generalize takeGeometry g (dispatched s) = t at ht hreport ⊢
    rw [fitRing_eq] at hreport
    rw [ht]
    refine ⟨rfl, rfl, rfl, rfl, fun n hn => startRefresh_getD _ _ hn _, rfl, rfl, rfl, fun n => fittedErasures_getD _ _ n, rfl,
      fun n d hd => ?_, rfl, fun hs hl => ?_, fun hs => ?_, rfl⟩
    · have hdiv : (n * 20 + d) / 20 = n := by omega
      refine (fittedDevices_getD _ _ (n * 20 + d)).trans ?_
      rw [hdiv]
      rfl
    · rw [if_pos ⟨hs, hl⟩] at hreport
      exact hreport
    · rw [if_neg fun ⟨hset, hl⟩ => hs.elim (fun hs => Bool.false_ne_true (hs.symm.trans hset)) (not_le.2 hl)] at hreport
      exact hreport

end Sys2Proof.Machine
end

