-- ==== Sys2Proof/Proofs/Arbitration.lean ====
section
/-! O23: the eligible accesses, the choice within a class, the choice among refreshes, and the class that wins (R26, R31 to
R33, R37). -/

namespace Sys2Proof.Machine

open Sys2Proof

/-! ## The eligible accesses (R26, R31) -/

theorem frontAccesses_sublist (l : List Access) (seen : List Nat) : (frontAccesses l seen).Sublist l := by
  induction l generalizing seen with
  | nil => exact .slnil
  | cons a l ih =>
    rw [frontAccesses]
    split
    · exact (ih seen).cons a
    · exact (ih _).cons_cons a

/-- The first access of a line not seen before is a front (R26). -/
theorem mem_frontAccesses_of_fronts {l : List Access} {seen : List Nat} {a : Access} (hs : a.line ∉ seen)
    (h : Fronts a l) : a ∈ frontAccesses l seen := by
  induction l generalizing seen with
  | nil => simp [Fronts] at h
  | cons b l ih =>
    by_cases hb : b.line = a.line
    · obtain rfl : b = a := by simpa [Fronts, hb] using h
      simp [frontAccesses, hs]
    · have hrest : Fronts a l := by simpa [Fronts, hb] using h
      rw [frontAccesses]
      split
      · exact ih hs hrest
      · exact List.mem_cons_of_mem _ (ih (by simpa [Ne.symm hb] using hs) hrest)

theorem mem_frontAccesses (l : List Access) (a : Access) : a ∈ frontAccesses l [] ↔ Fronts a l :=
  ⟨fun h => (frontAccesses_fronts l [] a h).2, mem_frontAccesses_of_fronts List.not_mem_nil⟩

theorem fronts_iff (l : List Access) (a : Access) :
    Fronts a l ↔ ∃ before after, l = before ++ a :: after ∧ ∀ b ∈ before, b.line ≠ a.line := by
  simp [Fronts, List.find?_eq_some_iff_append]

theorem keyOfAccess_eq (s : State) (a : Access) :
    keyOfAccess s a = 16 * s.port.geom.rankOf a.line + s.port.geom.bankOf a.line := bankKey_eq _ _

/-- An access is eligible when it is the first of its line, not granted, allowed by its owner and accepted by the DRAM. -/
theorem mem_eligibleAccesses (accept : BitVec 64) (s : State) (a : Access) : a ∈ eligibleAccesses accept s ↔
    ∃ before after, s.port.accesses = before ++ a :: after ∧ (∀ b ∈ before, b.line ≠ a.line) ∧ a.phase ≠ .granted ∧
      ownerAllows s a = true ∧ accept.getLsbD (16 * s.port.geom.rankOf a.line + s.port.geom.bankOf a.line) = true := by
  rw [eligibleAccesses, List.mem_filter, mem_frontAccesses, fronts_iff, keyOfAccess_eq]
  simp only [Bool.and_eq_true, bne_iff_ne, ← exists_and_right, and_assoc]

theorem eligibleAccesses_sublist (accept : BitVec 64) (s : State) :
    (eligibleAccesses accept s).Sublist s.port.accesses :=
  List.filter_sublist.trans (frontAccesses_sublist _ _)

/-! ## The classes (R31, R79) -/

/-- No access is of a class of refreshes (R31, R37). -/
theorem classOf_range (s : State) (a : Access) : 2 ≤ classOf s a ∧ classOf s a ≤ 8 := by
  unfold classOf
  split
  case h_8 owned _ => cases owned && sustainedNow s <;> simp
  all_goals simp

theorem sustainedNow_eq (s : State) : sustainedNow s = (s.patrol.engine == .running && s.patrol.active.any fun w =>
    (regionAt s w.region).entry.mode == .sustained) := by
  unfold sustainedNow
  cases s.patrol.active <;> rfl

/-! ## The choice within a class (R33) -/

/-- The row hits, as the statement writes them. -/
theorem isRowHit_eq (s : State) (b : Access) : isRowHit s b =
    (AMap.get? s.port.openRows (16 * s.port.geom.rankOf b.line + s.port.geom.bankOf b.line)).any fun o =>
      o.row == lookupRow s b := by
  rw [isRowHit, keyOfAccess_eq]
  cases AMap.get? s.port.openRows (16 * s.port.geom.rankOf b.line + s.port.geom.bankOf b.line) <;> rfl

/-- The eligible accesses of a class, in order of taking. -/
def ofClass (eligible : List Access) (cls : Nat) (s : State) : List Access :=
  eligible.filter fun b => classOf s b == cls

theorem mem_ofClass {eligible : List Access} {cls : Nat} {s : State} {a : Access} :
    a ∈ ofClass eligible cls s ↔ a ∈ eligible ∧ classOf s a = cls := by
  simp [ofClass]

/-- A class grants nothing exactly when no eligible access is of it. -/
theorem accessWinner_eq_none {eligible : List Access} {cls : Nat} {s : State} :
    accessWinner eligible cls s = none ↔ ∀ b ∈ eligible, classOf s b ≠ cls := by
  have hnil : ofClass eligible cls s = [] ↔ ∀ b ∈ eligible, classOf s b ≠ cls := by
    simp [ofClass, List.filter_eq_nil_iff]
  rw [← hnil]
  cases hm : ofClass eligible cls s with
  | nil => simp only [accessWinner, show eligible.filter _ = _ from hm]
  | cons oldest rest =>
    simp only [accessWinner, show eligible.filter _ = _ from hm, reduceCtorEq, iff_false]
    split <;> simp

/-- What a class grants: its oldest eligible row hit while the pass count is below 4 and there is one, or else its oldest
eligible access; the pass count rises when an older access is passed (R33). -/
theorem accessWinner_eq_some {eligible : List Access} {cls : Nat} {s : State} {w : Winner}
    (h : accessWinner eligible cls s = some w) :
    let mine := ofClass eligible cls s
    let count := s.port.passCounts.getD cls 0
    let hits := mine.filter (isRowHit s)
    ∃ a passes, w = .access a cls passes ∧ a ∈ mine ∧
      if count < 4 ∧ hits ≠ [] then
        hits.head? = some a ∧ passes = (if mine.head? = some a then 0 else count + 1)
      else mine.head? = some a ∧ passes = 0 := by
  intro mine count hits
  cases hm : ofClass eligible cls s with
  | nil => simp [accessWinner, show eligible.filter _ = _ from hm] at h
  | cons oldest rest =>
    have hmine : mine = oldest :: rest := hm
    have hhits : hits.head? = (oldest :: rest).find? (isRowHit s) := by rw [← hmine]; exact List.head?_filter
    simp only [accessWinner, show eligible.filter _ = _ from hm] at h
    by_cases hc : count < 4 ∧ hits ≠ []
    · obtain ⟨hit, hhit⟩ := Option.isSome_iff_exists.1 (List.isSome_head?.2 hc.2)
      have hmem : hit ∈ mine := List.mem_of_mem_filter (List.mem_of_head? hhit)
      rw [if_pos hc.1, ← hhits, hhit] at h
      simp only [if_pos hc]
      by_cases ho : hit = oldest
      · subst ho
        exact ⟨hit, 0, by simpa using h.symm, hmem, hhit, by rw [hmine, List.head?_cons, if_pos rfl]⟩
      · exact ⟨hit, count + 1, by simpa [ho, count] using h.symm, hmem, hhit, by simp [hmine, Ne.symm ho]⟩
    · have hnone : (if count < 4 then (oldest :: rest).find? (isRowHit s) else none) = none := by
        rw [← hhits]
        split
        · exact List.head?_eq_none_iff.2 (not_not.1 fun hn => hc ⟨‹_›, hn⟩)
        · rfl
      rw [hnone] at h
      simp only [if_neg hc]
      exact ⟨oldest, 0, by simpa using h.symm, by simp [hmine], by simp [hmine], rfl⟩

/-! ## The choice among refreshes (R33, R37) -/

/-- The difference of two elapsed times is that of their ages, while neither age passes 2^46 µs (R196). -/
theorem elapsedDiff_of_ages {now a b : Elapsed} (ha : 0 ≤ elapsedDiff now a) (ha' : elapsedDiff now a ≤ 2 ^ 46)
    (hb : 0 ≤ elapsedDiff now b) (hb' : elapsedDiff now b ≤ 2 ^ 46) :
    elapsedDiff a b = elapsedDiff now b - elapsedDiff now a := by
  have h : a - b = (now - b) - (now - a) := by ring
  unfold elapsedDiff at *
  rw [h, BitVec.toInt_sub]
  exact Int.bmod_eq_of_le (by omega) (by omega)

/-- The same of two moments (R196). -/
theorem fineDiff_of_ages {now a b : FineTime} (ha : 0 ≤ fineDiff now a) (ha' : fineDiff now a ≤ 2 ^ 46 * 80)
    (hb : 0 ≤ fineDiff now b) (hb' : fineDiff now b ≤ 2 ^ 46 * 80) :
    fineDiff a b = fineDiff now b - fineDiff now a := by
  have hn := now.sub.isLt
  have h1 := a.sub.isLt
  have h2 := b.sub.isLt
  unfold fineDiff at *
  rw [elapsedDiff_of_ages (now := now.us) (by omega) (by omega) (by omega) (by omega)]
  ring

/-- The request of a rank in a class of refreshes, when the DRAM can accept it: the rank, and the moment of its oldest
owed refresh (R37). -/
def requestOf (refresh : BitVec 4) (cls : Nat) (p : Refresh × Nat) : Option (Nat × FineTime) :=
  p.1.owed.head?.bind fun t =>
    if refreshClass p.1.owed.length = cls ∧ refresh.getLsbD p.2 = true then some (p.2, t) else none

theorem requestOf_eq_some {refresh : BitVec 4} {cls : Nat} {r : Refresh} {n : Nat} {c : Nat × FineTime} :
    requestOf refresh cls (r, n) = some c ↔
      c.1 = n ∧ r.owed.head? = some c.2 ∧ refresh.getLsbD n = true ∧ cls = if 6 ≤ r.owed.length then 1 else 9 := by
  obtain ⟨m, since⟩ := c
  unfold requestOf refreshClass
  cases r.owed with
  | nil => simp
  | cons t rest =>
    simp only [List.head?_cons, Option.bind_some, List.length_cons, Nat.add_eq_zero_iff, one_ne_zero, and_false, if_false,
      Option.ite_none_right_eq_some, Option.some.injEq, Prod.mk.injEq]
    tauto

/-- The requests of a class of refreshes, rank by rank. -/
def refreshRequests (refresh : BitVec 4) (cls : Nat) (l : List Refresh) (n : Nat) : List (Nat × FineTime) :=
  (l.zipIdx n).filterMap (requestOf refresh cls)

/-- The better of the best request so far and a later one: the older, or else the first (R33). -/
def olderRequest (best : Option (Nat × FineTime)) (c : Nat × FineTime) : Option (Nat × FineTime) :=
  match best with
  | some b => if fineDiff c.2 b.2 < 0 then some c else some b
  | none => some c

theorem refreshFrom_eq (refresh : BitVec 4) (cls : Nat) (l : List Refresh) (n : Nat) (best : Option (Nat × FineTime)) :
    refreshFrom refresh cls l n best = (refreshRequests refresh cls l n).foldl olderRequest best := by
  induction l generalizing n best with
  | nil => rfl
  | cons r l ih =>
    rw [refreshFrom, ih, refreshRequests, refreshRequests, List.zipIdx_cons, List.filterMap_cons]
    cases ho : r.owed with
    | nil => simp [requestOf, ho]
    | cons t rest =>
      by_cases hc : refreshClass (t :: rest).length = cls ∧ refresh.getLsbD n = true
      · simp only [requestOf, ho, List.head?_cons, Option.bind_some, if_pos hc, List.foldl_cons]
        rfl
      · simp only [requestOf, ho, List.head?_cons, Option.bind_some, if_neg hc]

theorem mem_refreshRequests {refresh : BitVec 4} {cls : Nat} {s : State} {c : Nat × FineTime} :
    c ∈ refreshRequests refresh cls s.port.refresh 0 ↔ Refreshable refresh s c.1 cls c.2 := by
  simp only [refreshRequests, List.mem_filterMap, Prod.exists, List.mem_zipIdx_iff_getElem?, requestOf_eq_some]
  exact ⟨fun ⟨r, n, hr, h1, h⟩ => ⟨r, h1 ▸ hr, h1 ▸ h⟩, fun ⟨r, hr, h⟩ => ⟨r, c.1, hr, rfl, h⟩⟩

/-- The requests stand in rising order of rank. -/
theorem refreshRequests_pairwise (refresh : BitVec 4) (cls : Nat) (l : List Refresh) (n : Nat) :
    (refreshRequests refresh cls l n).Pairwise fun p q => p.1 < q.1 := by
  have hz : (l.zipIdx n).Pairwise fun p q => p.2 < q.2 := by
    rw [← List.pairwise_map (f := Prod.snd), List.zipIdx_map_snd]
    exact List.pairwise_lt_range'
  refine List.pairwise_filterMap.2 (hz.imp fun {p q} hpq c hc d hd => ?_)
  rw [(requestOf_eq_some.1 hc).1, (requestOf_eq_some.1 hd).1]
  exact hpq

/-- A request is served before another: it is older, or as old and of a lower rank (R33). -/
def ServedBefore (now : FineTime) (p q : Nat × FineTime) : Prop :=
  fineDiff now q.2 < fineDiff now p.2 ∨ fineDiff now q.2 = fineDiff now p.2 ∧ p.1 ≤ q.1

theorem ServedBefore.trans {now : FineTime} {p q r : Nat × FineTime} (h : ServedBefore now p q)
    (k : ServedBefore now q r) : ServedBefore now p r := by
  unfold ServedBefore at *
  omega

/-- A class of refreshes grants one of its requests, or none when it has none. -/
theorem foldl_olderRequest_mem (l : List (Nat × FineTime)) (best : Option (Nat × FineTime)) :
    (l.foldl olderRequest best = none ↔ best = none ∧ l = []) ∧
    ∀ p, l.foldl olderRequest best = some p → best = some p ∨ p ∈ l := by
  induction l generalizing best with
  | nil => simp
  | cons c l ih =>
    obtain ⟨hn, hs⟩ := ih (olderRequest best c)
    have hc : olderRequest best c = some c ∨ olderRequest best c = best ∧ best ≠ none := by
      cases best with
      | none => exact .inl rfl
      | some b =>
        unfold olderRequest
        dsimp only
        split
        · exact .inl rfl
        · exact .inr ⟨rfl, by simp⟩
    rw [List.foldl_cons, hn]
    refine ⟨by rcases hc with hc | hc <;> simp [hc], fun p hp => ?_⟩
    rcases hs p hp with h | h
    · rcases hc with hc | ⟨hc, -⟩
      · exact .inr (by simp [Option.some.inj (hc.symm.trans h)])
      · exact .inl (hc.symm.trans h)
    · exact .inr (List.mem_cons_of_mem _ h)

/-- The moments of requests differ as their ages do (R196). -/
def Comparable (now : FineTime) (l : List (Nat × FineTime)) : Prop :=
  ∀ p ∈ l, ∀ q ∈ l, fineDiff p.2 q.2 = fineDiff now q.2 - fineDiff now p.2

/-- The request that a class of refreshes grants is served before every other of the class (R33). -/
theorem foldl_olderRequest_first {now : FineTime} (l : List (Nat × FineTime)) (best : Option (Nat × FineTime))
    (hr : (best.toList ++ l).Pairwise fun p q => p.1 < q.1) (hc : Comparable now (best.toList ++ l))
    {p : Nat × FineTime} (hp : l.foldl olderRequest best = some p) :
    ∀ q ∈ best.toList ++ l, ServedBefore now p q := by
  induction l generalizing best with
  | nil =>
    obtain rfl : best = some p := hp
    simp [ServedBefore]
  | cons c l ih =>
    cases best with
    | none => exact ih (some c) hr hc hp
    | some b =>
      obtain ⟨hb, hl⟩ := List.pairwise_cons.1 hr
      have hdiff := hc c (by simp) b (by simp)
      by_cases hold : fineDiff c.2 b.2 < 0
      · have hbest : olderRequest (some b) c = some c := if_pos hold
        rw [List.foldl_cons, hbest] at hp
        have hrest := ih (some c) hl (fun q hq r hr => hc q (.tail _ hq) r (.tail _ hr)) hp
        refine List.forall_mem_cons.2 ⟨(hrest c (by simp)).trans ?_, hrest⟩
        unfold ServedBefore
        omega
      · have hbest : olderRequest (some b) c = some b := if_neg hold
        rw [List.foldl_cons, hbest] at hp
        have hsub : (b :: l).Sublist (b :: c :: l) := (List.sublist_cons_self c l).cons_cons b
        have hrest := ih (some b) (hr.sublist hsub) (fun q hq r hr => hc q (hsub.mem hq) r (hsub.mem hr)) hp
        obtain ⟨hpb, hpl⟩ := List.forall_mem_cons.1 hrest
        refine List.forall_mem_cons.2 ⟨hpb, List.forall_mem_cons.2 ⟨hpb.trans ?_, hpl⟩⟩
        have hlow := hb c (by simp)
        unfold ServedBefore
        omega

/-! ## The winner (R31, R32, R37) -/

/-- Which of two classes the arbiter serves first: class 4 goes before class 3 while the write-drain condition holds
(R31, R32). -/
def ClassBefore (drain : Bool) (x y : Nat) : Prop :=
  if drain = true ∧ (y = 3 ∨ y = 4) ∧ (x = 3 ∨ x = 4) then x = 4 else x < y

theorem classOrder_pairwise (drain : Bool) : (classOrder drain).Pairwise (ClassBefore drain) := by
  unfold ClassBefore
  cases drain <;> decide

theorem mem_classOrder {drain : Bool} {c : Nat} : c ∈ classOrder drain ↔ 1 ≤ c ∧ c ≤ 9 := by
  cases drain <;> simp [classOrder] <;> omega

/-- The winner is granted by a class, and no class before it has a request (R31). -/
theorem winner_eq_some {accept : BitVec 64} {refresh : BitVec 4} {s : State} {w : Winner}
    (h : winner accept refresh s = some w) :
    ∃ cls, classWinner refresh (eligibleAccesses accept s) s cls = some w ∧
      ∀ c, 1 ≤ c → c ≤ 9 → classWinner refresh (eligibleAccesses accept s) s c ≠ none →
        c = cls ∨ ClassBefore s.port.drain cls c := by
  obtain ⟨before, cls, after, hl, hw, hnone⟩ := List.findSome?_eq_some_iff.1 h
  refine ⟨cls, hw, fun c h1 h9 hc => ?_⟩
  have hmem : c ∈ before ++ cls :: after := hl ▸ mem_classOrder.2 ⟨h1, h9⟩
  have hpair := classOrder_pairwise s.port.drain
  rw [hl, List.pairwise_append, List.pairwise_cons] at hpair
  obtain ⟨-, ⟨hafter, -⟩, -⟩ := hpair
  rcases List.mem_append.1 hmem with hb | hb
  · exact absurd (hnone c hb) hc
  · exact (List.mem_cons.1 hb).imp_right (hafter c)

theorem classWinner_access {refresh : BitVec 4} {eligible : List Access} {s : State} {cls : Nat}
    (h : cls ≠ 1 ∧ cls ≠ 9) : classWinner refresh eligible s cls = accessWinner eligible cls s :=
  if_neg (by omega)

theorem classWinner_refresh {refresh : BitVec 4} {eligible : List Access} {s : State} {cls : Nat}
    (h : cls = 1 ∨ cls = 9) : classWinner refresh eligible s cls =
      ((refreshRequests refresh cls s.port.refresh 0).foldl olderRequest none).map fun w => .refresh w.1 := by
  rw [← refreshFrom_eq]
  exact if_pos h

/-- A class of refreshes has a request of every rank it is asked for (R37). -/
theorem classWinner_refreshable {refresh : BitVec 4} {eligible : List Access} {s : State} {cls rank : Nat}
    {since : FineTime} (h : Refreshable refresh s rank cls since) : classWinner refresh eligible s cls ≠ none := by
  have hcls : cls = 1 ∨ cls = 9 := by
    obtain ⟨r, -, -, -, rfl⟩ := h
    split <;> simp
  have hmem : (rank, since) ∈ refreshRequests refresh cls s.port.refresh 0 := mem_refreshRequests.2 h
  rw [classWinner_refresh hcls, Ne, Option.map_eq_none_iff, (foldl_olderRequest_mem _ _).1]
  rintro ⟨-, hnil⟩
  simp [hnil] at hmem

/-- The class of an eligible access has a request. -/
theorem classWinner_eligible {refresh : BitVec 4} {eligible : List Access} {s : State} {b : Access}
    (h : b ∈ eligible) : classWinner refresh eligible s (classOf s b) ≠ none := by
  have hr := classOf_range s b
  rw [classWinner_access (by omega), Ne, accessWinner_eq_none]
  exact fun hn => hn b h rfl

/-- An access wins in its own class, by the choice of the class. -/
theorem winner_access_spec {accept : BitVec 64} {refresh : BitVec 4} {s : State} {a : Access} {cls passes : Nat}
    (h : winner accept refresh s = some (.access a cls passes)) :
    accessWinner (eligibleAccesses accept s) cls s = some (.access a cls passes) ∧
    a ∈ ofClass (eligibleAccesses accept s) cls s ∧
    ∀ c, 1 ≤ c → c ≤ 9 → classWinner refresh (eligibleAccesses accept s) s c ≠ none →
      c = cls ∨ ClassBefore s.port.drain cls c := by
  obtain ⟨c, hw, hbefore⟩ := winner_eq_some h
  by_cases hc : c = 1 ∨ c = 9
  · rw [classWinner_refresh hc] at hw
    simp at hw
  · rw [classWinner_access (by omega)] at hw
    obtain ⟨b, p, hb, hmem, -⟩ := accessWinner_eq_some hw
    obtain ⟨rfl, rfl, rfl⟩ := Winner.access.inj hb
    exact ⟨hw, hmem, hbefore⟩

/-- A refresh wins in a class of refreshes, as one of its requests. -/
theorem winner_refresh_spec {accept : BitVec 64} {refresh : BitVec 4} {s : State} {rank : Nat}
    (h : winner accept refresh s = some (.refresh rank)) :
    ∃ cls since, (refreshRequests refresh cls s.port.refresh 0).foldl olderRequest none = some (rank, since) ∧
      Refreshable refresh s rank cls since ∧
      ∀ c, 1 ≤ c → c ≤ 9 → classWinner refresh (eligibleAccesses accept s) s c ≠ none →
        c = cls ∨ ClassBefore s.port.drain cls c := by
  obtain ⟨c, hw, hbefore⟩ := winner_eq_some h
  by_cases hc : c = 1 ∨ c = 9
  · rw [classWinner_refresh hc] at hw
    obtain ⟨⟨n, since⟩, hf, hn⟩ := Option.map_eq_some_iff.1 hw
    obtain rfl : n = rank := Winner.refresh.inj hn
    have hmem := ((foldl_olderRequest_mem _ _).2 _ hf).resolve_left (by simp)
    exact ⟨c, since, hf, mem_refreshRequests.1 hmem, hbefore⟩
  · rw [classWinner_access (by omega)] at hw
    obtain ⟨b, p, hb, -⟩ := accessWinner_eq_some hw
    simp at hb

/-- There is a winner when there is a request. -/
theorem winner_eq_none {accept : BitVec 64} {refresh : BitVec 4} {s : State} : winner accept refresh s = none ↔
    eligibleAccesses accept s = [] ∧ ∀ rank cls since, ¬ Refreshable refresh s rank cls since := by
  refine ⟨fun h => ?_, fun ⟨hnil, hnone⟩ => ?_⟩
  · have hclass : ∀ c, 1 ≤ c → c ≤ 9 → classWinner refresh (eligibleAccesses accept s) s c = none :=
      fun c h1 h9 => List.findSome?_eq_none_iff.1 h c (mem_classOrder.2 ⟨h1, h9⟩)
    refine ⟨List.eq_nil_iff_forall_not_mem.2 fun b hb => ?_, fun rank cls since hr => ?_⟩
    · have hrange := classOf_range s b
      exact classWinner_eligible hb (hclass _ (by omega) (by omega))
    · have hcls : 1 ≤ cls ∧ cls ≤ 9 := by
        obtain ⟨r, -, -, -, rfl⟩ := hr
        split <;> simp
      exact classWinner_refreshable hr (hclass cls hcls.1 hcls.2)
  · cases h : winner accept refresh s with
    | none => rfl
    | some w =>
      cases w with
      | access a cls passes =>
        obtain ⟨-, hmem, -⟩ := winner_access_spec h
        simp [mem_ofClass, hnil] at hmem
      | refresh rank =>
        obtain ⟨cls, since, -, hr, -⟩ := winner_refresh_spec h
        exact absurd hr (hnone rank cls since)

/-- The class and the oldest owed refresh of a rank are its own. -/
theorem Refreshable.unique {refresh : BitVec 4} {s : State} {rank cls cls' : Nat} {since since' : FineTime}
    (h : Refreshable refresh s rank cls since) (k : Refreshable refresh s rank cls' since') :
    cls' = cls ∧ since' = since := by
  obtain ⟨r, hr, ht, -, rfl⟩ := h
  obtain ⟨r', hr', ht', -, rfl⟩ := k
  obtain rfl : r = r' := Option.some.inj (hr.symm.trans hr')
  exact ⟨rfl, Option.some.inj (ht'.symm.trans ht)⟩

/-- The oldest owed refreshes of the ranks can be told apart by age, while their times are kept as R196 gives. -/
theorem refreshRequests_comparable {refresh : BitVec 4} {cls : Nat} {s : State}
    (h : ∀ r ∈ s.port.refresh, ∀ t ∈ r.owed, 0 ≤ fineDiff s.maint.now t ∧ fineDiff s.maint.now t ≤ 2 ^ 46 * 80) :
    Comparable s.maint.now (refreshRequests refresh cls s.port.refresh 0) := by
  have hage : ∀ p ∈ refreshRequests refresh cls s.port.refresh 0,
      0 ≤ fineDiff s.maint.now p.2 ∧ fineDiff s.maint.now p.2 ≤ 2 ^ 46 * 80 := fun p hp => by
    obtain ⟨r, hr, ht, -, -⟩ := mem_refreshRequests.1 hp
    exact h r (List.mem_of_getElem? hr) p.2 (List.mem_of_head? ht)
  intro p hp q hq
  obtain ⟨hp0, hp46⟩ := hage p hp
  obtain ⟨hq0, hq46⟩ := hage q hq
  exact fineDiff_of_ages hp0 hp46 hq0 hq46

/-- Settles O23: the eligible accesses and the classes as above, the winner by its class, and the choice within it. -/
theorem theArbiterPicksItsWinner : Obligations.TheArbiterPicksItsWinner := by
  refine ⟨fun accept refresh s => ⟨eligibleAccesses_sublist accept s, mem_eligibleAccesses accept s,
    fun a cls passes h => ?_, fun rank h => ?_, winner_eq_none⟩, fun accept refresh s => ⟨fun a cls passes h => ?_,
    fun rank h hages cls since n t hr hn => ?_⟩, fun s a => ⟨?_, fun hk => ?_, fun row payload forwarded hk => ?_, ?_⟩⟩
  · obtain ⟨-, hmem, hbefore⟩ := winner_access_spec h
    obtain ⟨hel, rfl⟩ := mem_ofClass.1 hmem
    have hrange := classOf_range s a
    refine ⟨hel, rfl, fun rank since hr => ?_, fun b hb => ?_⟩
    · have h1 := hbefore 1 (by decide) (by decide) (classWinner_refreshable hr)
      simp [ClassBefore] at h1
      omega
    · have hb' := classOf_range s b
      exact hbefore (classOf s b) (by omega) (by omega) (classWinner_eligible hb)
  · obtain ⟨cls, since, -, hr, hbefore⟩ := winner_refresh_spec h
    refine ⟨cls, since, hr, ?_⟩
    rintro rfl
    refine ⟨List.eq_nil_iff_forall_not_mem.2 fun b hb => ?_, fun n t hn => ?_⟩
    · have hb' := classOf_range s b
      have h9 := hbefore (classOf s b) (by omega) (by omega) (classWinner_eligible hb)
      simp [ClassBefore] at h9
      omega
    · have h9 := hbefore 1 (by decide) (by decide) (classWinner_refreshable hn)
      simp [ClassBefore] at h9
  · obtain ⟨hw, -⟩ := winner_access_spec h
    obtain ⟨b, p, hb, -, hchoice⟩ := accessWinner_eq_some hw
    obtain ⟨rfl, -, rfl⟩ := Winner.access.inj hb
    simp only [← isRowHit_eq]
    exact hchoice
  · obtain ⟨cls', since', hfold, hr', -⟩ := winner_refresh_spec h
    obtain ⟨rfl, rfl⟩ := hr.unique hr'
    have hcomp := refreshRequests_comparable (refresh := refresh) (cls := cls') hages
    have hfirst := foldl_olderRequest_first _ none (refreshRequests_pairwise refresh cls' s.port.refresh 0) hcomp hfold
      (n, t) (mem_refreshRequests.2 hn)
    have hdiff := hcomp (n, t) (mem_refreshRequests.2 hn) (rank, since') (mem_refreshRequests.2 hr)
    simp only [ServedBefore] at hfirst hdiff
    omega
  · rw [← sustainedNow_eq]
    unfold classOf
    cases a.kind <;> rfl
  · simp [ownerAllows, hk, State.quiet, Option.any_eq_true]
  · simp [ownerAllows, hk, Option.isSome_iff_exists]
  · intro hk hc
    unfold ownerAllows
    split
    · exact absurd ‹_› hk
    · exact absurd ‹_› (hc _ _ _)
    · rfl

end Sys2Proof.Machine
end

