-- ==== Sys2Proof/Proofs/Clears.lean ====
section
/-! O48: the channel clear. What each block gives up at the dispatch, one function for each list that the dispatch moves,
and what the completion does (R38, R52, R57, R80, R97, R109, R123, R147, R166, R181, R188, R198). -/

namespace Sys2Proof.Machine

open Sys2Proof

/-! ## The tags of discarded requests (R38) -/

/-- The tag table with tags freed. -/
def freedTags (freed : List Nat) (tags : BitVec 64) : BitVec 64 :=
  freed.foldl (fun t tag => t &&& ~~~(BitVec.ofNat 64 (2 ^ tag))) tags

theorem freedTags_getLsbD (freed : List Nat) (tags : BitVec 64) {tag : Nat} (h : tag < 64) :
    (freedTags freed tags).getLsbD tag = (tags.getLsbD tag && !freed.contains tag) := by
  induction freed generalizing tags with
  | nil => simp [freedTags]
  | cons n freed ih =>
    have hbit : (BitVec.ofNat 64 (2 ^ n)).getLsbD tag = (tag == n) := by
      rw [BitVec.getLsbD_ofNat, Nat.testBit_two_pow]
      simp only [h, decide_true, Bool.true_and, beq_eq_decide, eq_comm]
    have hstep : freedTags (n :: freed) tags = freedTags freed (tags &&& ~~~(BitVec.ofNat 64 (2 ^ n))) := rfl
    rw [hstep, ih, BitVec.getLsbD_and, BitVec.getLsbD_not, hbit, List.contains_cons]
    simp only [h, decide_true, Bool.true_and, Bool.not_or, Bool.and_assoc]

theorem foldl_freeTag (freed : List Nat) (s : State) : freed.foldl (fun s tag => freeTag tag s) s =
    { s with link := { s.link with tags := freedTags freed s.link.tags } } := by
  induction freed generalizing s with
  | nil => rfl
  | cons n freed ih => exact ih _

theorem discardDemand_eq (s : State) : discardDemand s = { s with
    link := { s.link with tags := freedTags (s.port.accesses.filterMap discardedTag) s.link.tags }
    port := { s.port with accesses := s.port.accesses.filter fun a => (discardedTag a).isNone } } :=
  foldl_freeTag _ _

/-! ## The sweep states (R57, R97) -/

/-- The regions with the sweep of one of them, if any, given up. -/
def idledAt (region : Option Nat) (l : List Region) : List Region :=
  match region with
  | some i => l.set i { l.getD i {} with status.state := .idle }
  | none => l

theorem idleRegion_eq (region : Option Nat) (s : State) :
    idleRegion region s = { s with regions := idledAt region s.regions } := by
  cases region <;> rfl

theorem idledAt_length (region : Option Nat) (l : List Region) : (idledAt region l).length = l.length := by
  cases region
  · rfl
  · exact List.length_set

theorem idledAt_getD {l : List Region} {i : Nat} (h : i < l.length) (region : Option Nat) :
    (idledAt region l).getD i {} =
      if region = some i then { l.getD i {} with status.state := .idle } else l.getD i {} := by
  cases region with
  | none => rfl
  | some j =>
    simp only [idledAt, List.getD_eq_getElem?_getD, List.getElem?_set, Option.some.injEq]
    by_cases hj : j = i
    · subst hj
      simp [h]
    · simp [hj]

/-- The regions after the three places of the engine are emptied. -/
def idledRegions (p : Patrol) (l : List Region) : List Region :=
  idledAt (p.held.map Sweep.region) (idledAt (p.staged.map Staged.region) (idledAt (p.active.map Sweep.region) l))

/-- A region keeps its entry, and of its status all but the sweep state, which becomes IDLE when a place named it. -/
theorem idledRegions_getD {l : List Region} {i : Nat} (h : i < l.length) (p : Patrol) :
    ((idledRegions p l).getD i {}).entry = (l.getD i {}).entry ∧
    ((idledRegions p l).getD i {}).status = { (l.getD i {}).status with
      state := if p.active.map Sweep.region = some i ∨ p.staged.map Staged.region = some i ∨
          p.held.map Sweep.region = some i then .idle else (l.getD i {}).status.state } := by
  unfold idledRegions
  rw [idledAt_getD (by simpa only [idledAt_length] using h), idledAt_getD (by simpa only [idledAt_length] using h),
    idledAt_getD h]
  by_cases h1 : p.active.map Sweep.region = some i <;> by_cases h2 : p.staged.map Staged.region = some i <;>
    by_cases h3 : p.held.map Sweep.region = some i <;> simp only [h1, h2, h3, if_true, if_false, or_true, or_self, or_false,
      and_self]

/-! ## Line order (R38, R52, R80, R97, R147) -/

/-- Line order after every block has withdrawn its accesses, one filter for each block. -/
def clearedAccesses (l : List Access) : List Access :=
  let demand := l.filter fun a => (discardedTag a).isNone
  let entries := demand.filter fun a => !a.heldWriteback
  let sweeps := (entries.filter fun a => !(a.kind.isPatrol && a.phase == .waiting)).map Access.disown
  let jobs := sweeps.filter fun a => !(a.kind.isScrub && a.phase == .waiting)
  jobs.filter fun a => !withdrawnCopy (jobs.any fun a => a.kind == .copyRead && a.phase == .waiting) a

/-- An access that a clear leaves in line order, by whether a copy read waits. -/
def staysInClear (readWaits : Bool) (a : Access) : Bool :=
  a.phase != .waiting || match a.kind with
    | .recordWrite _ _ => true
    | .copyWrite _ payload forwarded => !forwarded && (payload.isSome || !readWaits)
    | _ => false

/-- A copy read that waits. -/
def Access.waitingCopyRead (a : Access) : Bool := a.kind == .copyRead && a.phase == .waiting

/-- Disowning a patrol read changes nothing that the later filters look at. -/
theorem Access.disown_same (a : Access) :
    (a.disown.kind.isScrub && a.disown.phase == .waiting) = (a.kind.isScrub && a.phase == .waiting) ∧
    a.disown.waitingCopyRead = a.waitingCopyRead ∧
    ∀ readWaits, withdrawnCopy readWaits a.disown = withdrawnCopy readWaits a := by
  obtain ⟨line, kind, phase⟩ := a
  cases kind <;> exact ⟨rfl, rfl, fun _ => rfl⟩

/-- What the filters of a clear leave, together. -/
theorem staysInClear_eq (readWaits : Bool) (a : Access) : staysInClear readWaits a =
    (!withdrawnCopy readWaits a && (!(a.kind.isScrub && a.phase == .waiting) &&
      (!(a.kind.isPatrol && a.phase == .waiting) && (!a.heldWriteback && (discardedTag a).isNone)))) := by
  obtain ⟨line, kind, phase⟩ := a
  by_cases hp : phase = .waiting
  · subst hp
    cases kind <;> simp [staysInClear, withdrawnCopy, AccessKind.isScrub, AccessKind.isPatrol, Access.heldWriteback, discardedTag]
  · have hb : (phase == .waiting) = false := beq_eq_false_iff_ne.2 hp
    simp [staysInClear, withdrawnCopy, Access.heldWriteback, discardedTag, bne, hb, hp]

/-- A clear withdraws no copy read before the copies' turn. -/
theorem waitingCopyRead_kept (a : Access) : ((!(a.kind.isScrub && a.phase == .waiting) &&
    (!(a.kind.isPatrol && a.phase == .waiting) && (!a.heldWriteback && (discardedTag a).isNone))) && a.waitingCopyRead) =
      a.waitingCopyRead := by
  obtain ⟨line, kind, phase⟩ := a
  cases kind <;>
    simp [Access.waitingCopyRead, AccessKind.isScrub, AccessKind.isPatrol, Access.heldWriteback, discardedTag]

theorem clearedAccesses_eq (l : List Access) :
    clearedAccesses l = (l.filter (staysInClear (l.any Access.waitingCopyRead))).map Access.disown := by
  have hw : ∀ m : List Access, (m.any fun a => a.kind == .copyRead && a.phase == .waiting) = m.any Access.waitingCopyRead :=
    fun m => rfl
  simp only [clearedAccesses, hw, List.filter_map, List.filter_filter, List.any_map, List.any_filter, Function.comp_def,
    (Access.disown_same _).1, (Access.disown_same _).2.1, (Access.disown_same _).2.2, waitingCopyRead_kept, ← staysInClear_eq]

/-! ## The jobs aborted (R123, R147) -/

/-- A repair job of the row that an entry describes. -/
def Job.describes (e : FaultEntry) (j : Job) : Bool := j.rank == e.rank && j.bank == e.bank && j.sourceRow == e.row

/-- Two entries that are not FREE describe different rows (R111). -/
theorem FaultTable.Legal.eq_of_place {f : FaultTable} (h : f.Legal) {i k : Nat} (hi : i < f.entries.length)
    (hk : k < f.entries.length) (hfi : f.entries[i].state ≠ .free) (hfk : f.entries[k].state ≠ .free)
    (hp : (f.entries[i].rank, f.entries[i].bank, f.entries[i].row) =
      (f.entries[k].rank, f.entries[k].bank, f.entries[k].row)) : i = k := by
  have hpair := List.pairwise_iff_getElem.1 h.1
  rcases lt_trichotomy i k with hlt | heq | hgt
  · exact absurd ((hpair i k hi hk hlt).resolve_left hfi) (fun hn => hn.elim hfk (absurd hp))
  · exact heq
  · exact absurd ((hpair k i hk hi hgt).resolve_left hfk) (fun hn => hn.elim hfi (absurd hp.symm))

theorem faultAt_eq_getElem {s : State} {i : Nat} (h : i < s.fault.entries.length) : faultAt s i = s.fault.entries[i] := by
  simp [faultAt, h]

/-- What n aborts touch: the Remap Table, the row entries and one count (R123, R147). -/
def AbortStep (n : Nat) (s t : State) : Prop :=
  t = { s with
    repair := { s.repair with slots := t.repair.slots }, fault := { s.fault with entries := t.fault.entries }
    counters := { s.counters with repairJobsAborted := (fun m => satAdd m 1)^[n] s.counters.repairJobsAborted } }

theorem AbortStep.cons {n : Nat} {s t u : State} (h : AbortStep 1 s t) (k : AbortStep n t u) : AbortStep (n + 1) s u := by
  unfold AbortStep at *
  rw [k, h]
  rfl

theorem abortJob_step (j : Job) (s : State) :
    AbortStep 1 s (abortJob j s) ∧ (abortJob j s).fault.entries.length = s.fault.entries.length := by
  unfold abortJob faultJobAborted faultModify
  dsimp only
  split
  · exact ⟨rfl, List.length_set⟩
  · exact ⟨rfl, rfl⟩

/-- The entry of an aborted job's source row is RETIRING no more, but SUSPECT; every other entry stands (R123). -/
theorem faultAt_abortJob {s : State} (h : FaultTableLegal s) (j : Job) {i : Nat} (hi : i < s.fault.entries.length) :
    faultAt (abortJob j s) i = if (faultAt s i).state = .retiring ∧ j.describes (faultAt s i) = true then
      { faultAt s i with state := .suspect } else faultAt s i := by
  have hat := faultAt_eq_getElem hi
  have hdesc : j.describes (faultAt s i) = true ↔
      (j.rank, j.bank, j.sourceRow) = ((faultAt s i).rank, (faultAt s i).bank, (faultAt s i).row) := by
    simp [Job.describes, and_assoc]
  cases hf : faultFind s j.rank j.bank j.sourceRow with
  | none =>
    have hf' : faultFind (setSlot j.rank j.bank j.target .free s) j.rank j.bank j.sourceRow = none := hf
    have hsame : faultAt (abortJob j s) i = faultAt s i := by
      simp only [abortJob, faultJobAborted, faultModify, hf']
      rfl
    rw [hsame, if_neg]
    rintro ⟨hr, hd⟩
    exact faultFind_none hf (faultAt s i) (hat ▸ List.getElem_mem hi) (by simp [hr]) (hdesc.1 hd)
  | some k =>
    obtain ⟨hk, hatk, hfree, hrank, hbank, hrow⟩ := faultFind_some hf
    have hf' : faultFind (setSlot j.rank j.bank j.target .free s) j.rank j.bank j.sourceRow = some k := hf
    have hset : faultAt (abortJob j s) i = if k = i then
        (if (faultAt s k).state = .retiring then { faultAt s k with state := .suspect } else faultAt s k)
        else faultAt s i := by
      simp only [abortJob, faultJobAborted, faultModify, hf', faultAt, count_fault, setFault_fault, setSlot_fault,
        List.getD_eq_getElem?_getD, List.getElem?_set, hk, if_true]
      split <;> rfl
    rw [hset]
    by_cases hki : k = i
    · subst hki
      rw [if_pos rfl]
      simp only [hdesc, hrank, hbank, hrow, and_true]
    · rw [if_neg hki, if_neg]
      rintro ⟨hr, hd⟩
      refine hki (FaultTable.Legal.eq_of_place h hk hi (hatk ▸ hfree) (hat ▸ by simp [hr]) ?_)
      rw [← hat, ← hatk, ← hdesc.1 hd, hrank, hbank, hrow]

/-- The abort of every job: what each of them does, together (R123, R147). -/
theorem foldl_abortJob (l : List Job) (s : State) : let t := l.foldl (fun s j => abortJob j s) s
    AbortStep l.length s t ∧
    (FaultTableLegal s → ∀ i < s.fault.entries.length, faultAt t i =
      if (faultAt s i).state = .retiring ∧ l.any (Job.describes (faultAt s i)) = true then
        { faultAt s i with state := .suspect } else faultAt s i) := by
  induction l generalizing s with
  | nil => exact ⟨rfl, by simp⟩
  | cons j l ih =>
    obtain ⟨ht, hentries⟩ := ih (abortJob j s)
    obtain ⟨hj, hlen⟩ := abortJob_step j s
    refine ⟨hj.cons ht, fun hlegal i hi => ?_⟩
    obtain ⟨-, -, -, -, hkept, -⟩ := abortJob_inner j s
    rw [List.foldl_cons, hentries (hkept hlegal) i (hlen ▸ hi), faultAt_abortJob hlegal j hi, List.any_cons]
    by_cases hd : (faultAt s i).state = .retiring ∧ j.describes (faultAt s i) = true
    · simp [hd]
    · by_cases hr : (faultAt s i).state = .retiring
      · simp [hr, show j.describes (faultAt s i) = false by simpa [hr] using hd]
      · simp [hr]

/-! ## The dispatch (R198) -/

/-- The state of a clear at its dispatch, but for the aborted jobs: the first part of every block, together. -/
def clearedState (s : State) : State :=
  { s with
    link := { s.link with
      channel := .config, tags := freedTags (s.port.accesses.filterMap discardedTag) s.link.tags }
    maint := { s.maint with clearing := true }
    port := { s.port with accesses := clearedAccesses s.port.accesses }
    wbq := s.wbq.filter WbEntry.granted
    regions := idledRegions s.patrol s.regions
    patrol := { engine := if s.patrol.engine = .disabled then .disabled else .idle
                active := none, staged := none, held := none, tsq := [] }
    window := s.window.map fun win => { win with override := none }
    report := { s.report with pending := 0, alerted := 0, holdoffEnd := none } }

theorem clearedEngine_eq (e : EngineState) : clearedEngine e = if e = .disabled then .disabled else .idle := by
  cases e <;> rfl

/-- Without a sweep in the active slot an open window has no override time (R105, R106). -/
theorem reviewOverride_idle {s : State} (h : s.patrol.active = none) :
    reviewOverride s = { s with window := s.window.map fun win => { win with override := none } } := by
  cases hw : s.window with
  | none =>
    simp only [reviewOverride, hw, Option.map_none]
    rw [← hw]
  | some win =>
    simp only [reviewOverride, hw, h, Option.map_some]

theorem clearPatrol_eq (s : State) : clearPatrol s = { s with
    regions := idledRegions s.patrol s.regions
    patrol := { engine := if s.patrol.engine = .disabled then .disabled else .idle
                active := none, staged := none, held := none, tsq := [] }
    window := s.window.map fun win => { win with override := none }
    port := { s.port with accesses :=
      (((s.port.accesses.filter fun a => !(a.kind.isPatrol && a.phase == .waiting)).map Access.disown).filter
        fun a => !(a.kind.isScrub && a.phase == .waiting)) } } := by
  unfold clearPatrol emptyTsq emptySlots abandonReads
  rw [reviewOverride_idle rfl]
  simp only [idleRegion_eq, clearedEngine_eq]
  rfl

/-- Before a clear aborts the jobs, every other block has begun its part (R198). -/
theorem beginClear_eq (s : State) : beginClear s = emptyHammer
    { s.repair.jobs.foldl (fun s j => abortJob j s) (clearedState s) with repair.jobs := [] } := by
  unfold beginClear
  dsimp only
  rw [discardDemand_eq, withdrawEntries, clearPatrol_eq]
  rfl

/-- A tag is freed by a clear when a waiting demand access has it (R38). -/
theorem discardedTags_contains (l : List Access) (tag : Nat) :
    (l.filterMap discardedTag).contains tag = l.any fun a => a.phase == .waiting && (match a.kind with
      | .demandRead tag => some tag
      | .demandWrite tag _ => some tag
      | .maskedWrite tag _ _ _ => some tag
      | _ => none) == some tag := by
  rw [Bool.eq_iff_iff]
  simp only [List.contains_iff_mem, List.mem_filterMap, List.any_eq_true, Bool.and_eq_true, beq_iff_eq, discardedTag,
    Option.ite_none_right_eq_some] <;> rfl

/-- What a clear gives up at its dispatch (R38, R52, R57, R80, R97, R109, R123, R147, R166, R181, R188, R198). -/
theorem beginClear_spec {s : State} (hm : MapsRising s) (hf : FaultTableLegal s) : let t := beginClear s
    t = { clearedState s with
      repair := { s.repair with slots := t.repair.slots, jobs := [] }
      fault := { s.fault with entries := t.fault.entries }
      hammer := { s.hammer with tables := s.hammer.tables.map fun table => table.map fun _ => none }
      counters := { s.counters with
        repairJobsAborted := (fun n => satAdd n 1)^[s.repair.jobs.length] s.counters.repairJobsAborted } } ∧
    (∀ rank bank k, slotAt t rank bank k =
      if s.repair.jobs.any (fun j => slotKey j.rank j.bank j.target == slotKey rank bank k) then .free
      else slotAt s rank bank k) ∧
    ∀ i < s.fault.entries.length, faultAt t i =
      if (faultAt s i).state = .retiring ∧ s.repair.jobs.any (Job.describes (faultAt s i)) = true then
        { faultAt s i with state := .suspect } else faultAt s i := by
  intro t
  obtain ⟨hstep, hentries⟩ := foldl_abortJob s.repair.jobs (clearedState s)
  obtain ⟨-, hslots⟩ := abortAll_slots s.repair.jobs (clearedState s) hm.2
  refine ⟨?_, fun rank bank k => ?_, ?_⟩
  · rw [show t = _ from beginClear_eq s]
    unfold AbortStep at hstep
    rw [hstep]
    rfl
  · rw [show t = _ from beginClear_eq s]
    refine (hslots rank bank k).trans (if_congr ?_ rfl rfl)
    simp only [List.any_eq_true, beq_iff_eq]
    exact exists_congr fun j => and_congr_right fun _ => eq_comm
  · rw [show t = _ from beginClear_eq s]
    exact hentries hf

/-! ## The completion (R38, R97, R109, R198) -/

/-- A window that is closed stays closed. -/
theorem runSelection_window {s : State} (h : s.window = none) : (runSelection s).window = none := by
  obtain ⟨-, -, -, -, -, -, hw, -⟩ := runSelection_settled s
  exact hw h

theorem closeAtClear_window (s : State) : (closeAtClear s).window = none := by
  unfold closeAtClear
  split
  · exact closeWindow_window s
  · simpa [State.quiet] using ‹¬ s.quiet = true›

theorem closeAtClear_settled (s : State) : Settled s (closeAtClear s) := .ite (closeWindow_settled s) (.refl s)

theorem afterClear_settled (selectionFirst : Bool) (s : State) : Settled s (afterClear selectionFirst s) :=
  .ite ((runSelection_settled s).trans (closeAtClear_settled _)) ((closeAtClear_settled s).trans (runSelection_settled _))

theorem afterClear_window (selectionFirst : Bool) (s : State) : (afterClear selectionFirst s).window = none := by
  cases selectionFirst
  · exact runSelection_window (closeAtClear_window s)
  · exact closeAtClear_window _

/-- A DISABLED engine selects nothing (R71). -/
theorem runSelection_disabled {s : State} (h : s.patrol.engine = .disabled) : runSelection s = s := by
  have hselect : selectStaged s = s := by simp [selectStaged, h, EngineState.selects]
  have hpromote : promote s = s := by
    unfold promote
    split
    · simp [h, EngineState.selects]
    · rfl
  simp only [runSelection, hselect, hpromote, ite_self]

/-- A window that closes with a DISABLED engine moves nothing of the patrol (R103). -/
theorem closeAtClear_disabled {s : State} (h : s.patrol.engine = .disabled) : (closeAtClear s).patrol = s.patrol := by
  have hclose : closeWindow s = resumeCopy { s with window := none } := by simp [closeWindow, h]
  obtain ⟨hpair, -⟩ := resumeCopy_pair { s with window := none }
  unfold closeAtClear
  split
  · rw [hclose, hpair]
  · rfl

theorem afterClear_disabled {s : State} (h : s.patrol.engine = .disabled) (selectionFirst : Bool) :
    (afterClear selectionFirst s).patrol = s.patrol := by
  have hclose := closeAtClear_disabled h
  cases selectionFirst
  · exact (congrArg State.patrol (runSelection_disabled (hclose ▸ h))).trans hclose
  · exact (congrArg (fun t => (closeAtClear t).patrol) (runSelection_disabled h)).trans hclose

/-- Settles O48: the dispatch as above, and the completion once no record write and no access remains. -/
theorem channelClearStopsAndCompletes : Obligations.ChannelClearStopsAndCompletes := by
  refine ⟨fun s q h hm hf => ?_, fun s q rest selectionFirst hq => ?_⟩
  · intro demandTag stays swept
    obtain ⟨ht, hslots, hentries⟩ := beginClear_spec (s := dispatched s) hm hf
    refine ⟨beginClear (dispatched s), ?_, ?_⟩
    · show execChannelClear s = _
      simp only [execChannelClear, headRequest_of h]
      rfl
    · generalize beginClear (dispatched s) = t at ht hslots hentries ⊢
      rw [ht]
      refine ⟨rfl, rfl, rfl, fun tag htag => ?_, ?_, rfl, rfl, fun i hi => ?_, rfl, rfl, rfl, ?_, ?_, rfl, rfl, rfl⟩
      · refine (freedTags_getLsbD _ _ htag).trans ?_
        rw [discardedTags_contains]
        rfl
      · exact clearedAccesses_eq s.port.accesses
      · exact idledRegions_getD hi s.patrol
      · exact hslots
      · exact hentries
  · intro finished
    have hfinished : clearFinished s = true ↔ finished := by simp [clearFinished, finished]
    have hexec : exec (.channelClearComplete selectionFirst) s =
        if s.maint.clearing = true ∧ clearFinished s = true then
          .next (settle (afterClear selectionFirst (endClear q.tag s))) else .next s := by
      show execChannelClearComplete selectionFirst s = _
      simp only [execChannelClearComplete, hq]
    obtain rfl : rest = s.maint.queue.tail := by rw [hq]; rfl
    refine ⟨fun h => ?_, fun hc hd => ?_⟩
    · rw [hexec, if_neg]
      rintro ⟨hc, hd⟩
      exact h.elim (fun hn => by simp [hn] at hc) (absurd (hfinished.1 hd))
    · intro u close
      have hu : endClear q.tag s = u := rfl
      obtain ⟨⟨-, hreturns, -⟩, -, -, -, -, -, -, hsettled⟩ := afterClear_settled selectionFirst u
      refine ⟨afterClear selectionFirst u, ?_, rfl, afterClear_window _ _, hreturns, ?_, ?_, ?_, ?_,
        fun hdis => afterClear_disabled (s := u) hdis selectionFirst⟩
      · rw [hexec, if_pos ⟨hc, hfinished.2 hd⟩, hu]
      all_goals rw [hsettled]

end Sys2Proof.Machine
end

