-- ==== Sys2Proof/Proofs/Moves.lean ====
section
/-! The blocks' own work, as one principle: a relation that every elementary move of it satisfies holds across the
immediate actions of the Patrol Engine (settle) and across a reported activation. -/

namespace Sys2Proof.Machine

open Sys2Proof

/-- A relation that the elementary moves of the blocks' own work satisfy: a count, a change of the patrol, the window, a
region's status, the running job's counts or the watch, a cause, a record, and an access of the blocks' own taken. -/
structure Moves (R : State → State → Prop) : Prop where
  refl : ∀ s, R s s
  trans : ∀ {a b c}, R a b → R b c → R a c
  of_count : ∀ c s, R s (count c s)
  of_patrol : ∀ s p, R s { s with patrol := p }
  of_window : ∀ s w, R s { s with window := w }
  of_region : ∀ i g s, g.entry = (regionAt s i).entry → R s (setRegion i g s)
  of_job : ∀ i j rest s, s.repair.jobs = i :: rest → j.key = i.key → R s (setRunningJob j s)
  of_hammer : ∀ s h, R s { s with hammer := h }
  of_raise : ∀ c s, R s (raise c s)
  of_record : ∀ r s, R s (handRecord r s)
  of_take : ∀ line kind s, kind.tag? = none → kind ≠ .writeBack → R s (takeAccess line kind .waiting s)

namespace Moves

variable {R : State → State → Prop} (h : Moves R)

/-- One of two moves, by a condition. -/
theorem ite (_ : Moves R) {p : Prop} [Decidable p] {s a b : State} (ha : R s a) (hb : R s b) :
    R s (if p then a else b) := by
  split <;> assumption

include h

/-! ## The row copy and the window -/

theorem of_takePair (s : State) : R s (takePair s) := by
  unfold takePair
  split
  · exact h.refl s
  · rename_i j rest hj
    split
    · dsimp only
      split
      · exact h.trans (h.trans (h.of_take _ _ _ rfl (by simp)) (h.of_job j _ rest _ hj (by rfl))) (h.of_count _ _)
      · exact h.trans (h.of_take _ _ _ rfl (by simp)) (h.of_take _ _ _ rfl (by simp))
    · exact h.refl s

theorem of_resumeCopy (s : State) : R s (resumeCopy s) := h.ite (h.refl s) (h.of_takePair s)

theorem of_reportRisk (s : State) : R s (reportRisk s) := by
  unfold reportRisk
  split
  · exact h.ite (h.trans (h.of_patrol s _) (h.trans (h.of_raise _ _) (h.of_count _ _))) (h.refl s)
  · exact h.refl s

theorem of_recompute (s : State) : R s (recompute s) := by
  unfold recompute
  split
  · exact h.trans (h.of_patrol s _) (h.of_reportRisk _)
  · exact h.refl s

theorem of_closeWindow (s : State) : R s (closeWindow s) :=
  h.trans (h.trans (h.of_window s none) (h.ite (h.trans (h.of_patrol _ _) (h.of_recompute _)) (h.refl _)))
    (h.of_resumeCopy _)

theorem of_overrideWindow (a b : Elapsed) (s : State) : R s (overrideWindow a b s) :=
  h.trans (h.of_closeWindow s) (h.trans (h.of_raise _ _) (h.trans (h.of_record _ _) (h.of_count _ _)))

theorem of_reviewOverride (s : State) : R s (reviewOverride s) := by
  unfold reviewOverride
  split
  · exact h.refl s
  · split
    · exact h.ite (h.ite (h.of_window _ _) (h.ite (h.of_window _ _) (h.of_overrideWindow _ _ _))) (h.of_window _ _)
    · exact h.of_window _ _

/-! ## Sweeps -/

theorem of_startSweep (i : Nat) (host : Bool) (s : State) : R s (startSweep i host s) :=
  have hg : ∀ g, g.entry = (regionAt s i).entry → R s (setRegion i g s) := fun g => h.of_region i g s
  h.trans (h.trans (hg _ (by rfl)) (h.of_patrol _ _)) (h.trans (h.of_recompute _) (h.of_reviewOverride _))

theorem of_promote (s : State) : R s (promote s) := by
  unfold promote
  split
  · exact h.ite (h.trans (h.of_patrol s _) (h.of_startSweep _ _ _)) (h.refl s)
  · exact h.refl s

theorem of_selectStaged (s : State) : R s (selectStaged s) := by
  unfold selectStaged
  split
  · split
    · exact h.trans (h.of_patrol s _) (h.of_region _ _ _ rfl)
    · exact h.refl s
  · exact h.refl s

theorem of_runSelection (s : State) : R s (runSelection s) :=
  h.trans (h.of_selectStaged s) (h.ite (h.trans (h.of_promote _) (h.of_selectStaged _)) (h.refl _))

theorem of_finishSweep (w : Sweep) (s : State) : R s (finishSweep w s) :=
  have hg : ∀ g, g.entry = (regionAt s w.region).entry → R s (setRegion w.region g s) := fun g => h.of_region _ g s
  h.trans (h.trans (hg _ (by rfl)) (h.ite (h.trans (h.of_record _ _) (h.of_raise _ _)) (h.refl _)))
    (h.ite (h.of_record _ _) (h.refl _))

theorem of_completeActive (w : Sweep) (s : State) : R s (completeActive w s) :=
  h.trans (h.trans (h.trans (h.of_finishSweep w s) (h.of_patrol _ _)) (h.of_reviewOverride _))
    (h.trans (h.trans (h.of_promote _) (h.of_runSelection _)) (h.ite (h.of_raise _ _) (h.refl _)))

theorem of_completeHeld (w : Sweep) (s : State) : R s (completeHeld w s) :=
  h.trans (h.of_patrol s _) (h.of_finishSweep w _)

/-! ## Lines and targeted jobs -/

theorem of_issueLine (w : Sweep) (s : State) : R s (issueLine w s) :=
  h.trans (h.trans (h.trans (h.of_patrol s _) (h.of_count _ _)) (h.ite (h.of_count _ _) (h.of_take _ _ _ rfl (by simp))))
    (h.ite (h.of_recompute _) (h.refl _))

theorem of_issueBoundary (w : Sweep) (s : State) : R s (issueBoundary w s) := by
  unfold issueBoundary
  split <;> exact h.of_issueLine _ _

theorem of_setTsq (e : TsqEntry) (s : State) : R s (setTsq e s) := h.of_patrol _ _

theorem of_removeTsq (e : TsqEntry) (s : State) : R s (removeTsq e s) := h.of_patrol _ _

theorem of_atBoundary (w : Sweep) (s : State) : R s (atBoundary w s) := by
  unfold atBoundary
  refine h.ite (h.refl s) ?_
  split
  · exact h.trans (h.of_patrol s _) (h.of_setTsq _ _)
  · exact h.of_issueBoundary _ _

theorem of_releaseBoundary (s : State) : R s (releaseBoundary s) := h.of_patrol _ _

theorem of_deferredIssue (s : State) : R s (deferredIssue s) := by
  unfold deferredIssue
  split
  · exact h.ite (h.of_issueBoundary _ _) (h.of_releaseBoundary _)
  · exact h.refl s

theorem of_completeJob (e : TsqEntry) (s : State) : R s (completeJob e s) :=
  h.trans (h.trans (h.trans (h.of_removeTsq e s) (h.of_count _ _)) (h.of_patrol _ _))
    (h.trans (h.of_recompute _) (h.of_deferredIssue _))

theorem of_discardJob (e : TsqEntry) (s : State) : R s (discardJob e s) := by
  have hr := h.trans (h.of_removeTsq e s) (h.of_count .targetedJobsDiscarded _)
  unfold discardJob
  dsimp only
  split
  · exact h.trans hr (h.ite (h.trans (h.of_releaseBoundary _) (h.of_atBoundary _ _)) (h.of_releaseBoundary _))
  · exact hr

theorem of_advanceJob (e : TsqEntry) (s : State) : R s (advanceJob e s) := by
  unfold advanceJob
  refine h.ite (h.of_completeJob e s) (h.ite (h.trans (h.of_setTsq _ _) (h.of_releaseBoundary _)) ?_)
  split
  · exact h.of_discardJob e s
  · exact h.trans (h.of_setTsq _ s)
      (h.ite (h.refl _) (h.ite (h.of_count _ _) (h.of_take _ _ _ rfl (by simp))))

/-! ## The immediate actions -/

theorem of_settleOnce {s t : State} (ht : settleOnce s = some t) : R s t := by
  unfold settleOnce at ht
  split at ht
  · cases Option.some.inj ht
    exact h.of_completeActive _ s
  · split at ht
    · cases Option.some.inj ht
      exact h.of_completeHeld _ s
    · split at ht
      · cases Option.some.inj ht
        exact h.of_advanceJob _ s
      · split at ht
        · cases Option.some.inj ht
          exact h.of_issueLine _ s
        · split at ht
          · cases Option.some.inj ht
            exact h.of_atBoundary _ s
          · split at ht
            · obtain ⟨e, -, rfl⟩ := Option.map_eq_some_iff.1 ht
              exact h.of_setTsq _ s
            · cases ht

theorem of_settleWith (n : Nat) (s : State) : R s (settleWith n s) := by
  induction n generalizing s with
  | zero => exact h.refl s
  | succ n ih =>
    rw [settleWith]
    split
    · exact h.trans (h.of_settleOnce ‹_›) (ih _)
    · exact h.refl s

/-- What the elementary moves satisfy, the immediate actions that close a command satisfy. -/
theorem of_settle (s : State) : R s (settle s) := h.of_settleWith _ s

/-! ## The Disturbance Watch (R157 to R162) -/

theorem of_tsqInsert (rank bank row : Nat) (neighbour : Bool) (s : State) :
    R s (tsqInsert rank bank row neighbour s) := by
  unfold tsqInsert
  refine h.ite (h.refl s) ?_
  split
  · exact h.trans (h.of_setTsq _ _) (h.of_count _ _)
  · exact h.ite (h.trans (h.of_patrol _ _) (h.of_count _ _)) (h.trans (h.of_count _ _) (h.of_raise _ _))

theorem of_handNeighbour (rank bank : Nat) (row : Option Nat) (s : State) : R s (handNeighbour rank bank row s) := by
  unfold handNeighbour
  split
  · exact h.trans (h.of_count _ _) (h.of_tsqInsert _ _ _ _ _)
  · exact h.refl s

theorem of_trigger (rank i : Nat) (e : HammerEntry) (requester : Option Requester) (s : State) :
    R s (trigger rank i e requester s) :=
  h.trans (h.trans (h.trans (h.of_handNeighbour _ _ _ s) (h.of_handNeighbour _ _ _ _))
    (h.trans (h.of_hammer _ _) (h.of_count _ _))) (h.ite (h.of_record _ _) (h.refl _))

theorem of_credit (rank i : Nat) (e : HammerEntry) (requester : Requester) (s : State) :
    R s (credit rank i e requester s) :=
  h.trans (h.of_hammer s _) (h.ite (h.of_trigger _ _ _ _ _) (h.refl _))

theorem of_countActivation (rank bank row : Nat) (requester : Requester) (s : State) :
    R s (countActivation rank bank row requester s) := by
  unfold countActivation
  split
  · split
    · exact h.of_credit _ _ _ _ _
    · exact h.refl s
  · split
    · exact h.of_credit _ _ _ _ _
    · split
      · exact h.trans (h.of_count _ _) (h.of_credit _ _ _ _ _)
      · exact h.refl s

/-- What the elementary moves satisfy, a reported activation satisfies. -/
theorem of_reportActivation (rank bank row : Nat) (requester : Requester) (s : State) :
    R s (reportActivation rank bank row requester s) :=
  h.trans (h.of_count _ s) (h.ite (h.trans (h.of_count _ _) (h.of_countActivation _ _ _ _ _)) (h.refl _))

end Moves

end Sys2Proof.Machine
end

