-- ==== Sys2Proof/Proofs/OwnWork.lean ====
section
/-! What the blocks' own work does to line order and the Write-back Queue (R26, R49, R50): OwnWork, which the elementary
moves satisfy, and so the immediate actions and a reported activation. -/

namespace Sys2Proof.Machine

open Sys2Proof

/-- Accesses join line order behind the others, a granted write-back stays, and the ring stays set up or not. -/
structure OwnWork (s t : State) : Prop where
  joins : JoinsBehind s t
  stays : GrantedStay s t
  ring : t.report.setUp = s.report.setUp

theorem OwnWork.trans {a b c : State} (h : OwnWork a b) (k : OwnWork b c) : OwnWork a c where
  joins := Joined.trans h.joins k.joins
  stays := by
    refine ⟨fun line e he hg => ?_, fun hs => (k.stays.2 (h.ring.trans hs)).trans (h.stays.2 hs)⟩
    obtain ⟨hb, hwb⟩ := h.stays.1 line e he hg
    obtain ⟨hc, hwc⟩ := k.stays.1 line e hb hg
    exact ⟨hc, hwc.trans hwb⟩
  ring := k.ring.trans h.ring

/-- An operation that leaves line order and the Write-back Queue as they were. -/
theorem OwnWork.aside {s t : State} (ha : t.port.accesses = s.port.accesses) (hw : t.wbq = s.wbq)
    (hr : t.report.setUp = s.report.setUp) : OwnWork s t where
  joins := by rw [joinsBehind_iff, ha]; exact .refl _
  stays := by
    unfold GrantedStay wbFind
    rw [ha, hw]
    exact ⟨fun _ _ h _ => ⟨h, rfl⟩, fun _ => rfl⟩
  ring := hr

/-- An access that is neither a demand access nor a write-back is taken. -/
theorem OwnWork.take (line : Nat) (kind : AccessKind) (s : State) (ht : kind.tag? = none) (hw : kind ≠ .writeBack) :
    OwnWork s (takeAccess line kind .waiting s) where
  joins := (Work.take line kind s ht).1
  stays := by
    refine ⟨fun _ _ h _ => ⟨h, ?_⟩, fun _ => rfl⟩
    rw [takeAccess_port, List.filter_append]
    simp [hw]
  ring := rfl

theorem OwnWork.raise (c : Cause) (s : State) : OwnWork s (raise c s) := by
  rw [raise_eq]
  exact .aside rfl rfl rfl

/-- A write-back that a record write cancels is not granted (R49, R50). -/
theorem wbCancel_stays (line : Nat) {s : State} (hs : s.report.setUp = true) : GrantedStay s (wbCancel line s) := by
  refine ⟨fun n e he hg => ?_, fun hn => by simp [hs] at hn⟩
  rw [wbCancel_eq]
  cases hc : cancels s line with
  | false => simp [wbFind, entriesLeft, accessesLeft, hc, show s.wbq.find? _ = some e from he]
  | true =>
    have hn : n ≠ line := by
      rintro rfl
      simp [cancels, he, hg] at hc
    simp only [wbFind, entriesLeft, accessesLeft, hc, if_true, List.find?_filter, List.filter_filter]
    refine ⟨?_, List.filter_congr fun a _ => ?_⟩
    · rw [← he, wbFind]
      congr 1
      funext f
      by_cases hf : f.line = n <;> simp [hf, hn]
    · by_cases ha : a.line = n <;> simp [ha, hn]

theorem wbCancel_ownWork (line : Nat) {s : State} (hs : s.report.setUp = true) : OwnWork s (wbCancel line s) where
  joins := (wbCancel_work line s).1
  stays := wbCancel_stays line hs
  ring := by rw [wbCancel_eq]

/-- A count set down leaves line order and the Write-back Queue. -/
theorem OwnWork.count (c : Ctr) (s : State) : OwnWork s (count c s) := .aside rfl rfl rfl

/-- A placed record: its write joins behind, and may cancel a write-back of the ring line that is not granted. -/
theorem OwnWork.place (r : Record) {s : State} (hs : s.report.setUp = true) : OwnWork s (placeRecord r s) := by
  let u : State := { s with report := { s.report with
    produced := s.report.produced + 1
    queue := s.report.queue ++ [{ sequence := s.report.produced, performed := false }] } }
  have hu : OwnWork s u := .aside rfl rfl rfl
  have hcancel : OwnWork u (wbCancel (ringLine s s.report.produced) u) := wbCancel_ownWork _ hs
  unfold placeRecord
  exact (hu.trans hcancel).trans
    ((OwnWork.take _ (recordWriteOf r s).kind _ rfl (by simp [recordWriteOf])).trans (.count .recordsPlaced _))

/-- A record handed on, whatever becomes of it (R169, R170, R172). -/
theorem OwnWork.record (r : Record) (s : State) : OwnWork s (handRecord r s) := by
  unfold handRecord
  split
  · rename_i hs
    split
    · exact .place r hs
    · unfold loseRecord
      refine OwnWork.trans ?_ (.raise .overrun _)
      exact .aside rfl rfl rfl
  · exact .aside rfl rfl rfl

/-- Every elementary move of the blocks' own work keeps to OwnWork. -/
theorem ownWork_moves : Moves OwnWork where
  refl s := .aside rfl rfl rfl
  trans := OwnWork.trans
  of_count c s := .aside rfl rfl rfl
  of_patrol s p := .aside rfl rfl rfl
  of_window s w := .aside rfl rfl rfl
  of_region i g s _ := .aside rfl rfl rfl
  of_job i j rest s _ _ := by unfold setRunningJob; split <;> exact .aside rfl rfl rfl
  of_hammer s h := .aside rfl rfl rfl
  of_raise := .raise
  of_record := .record
  of_take := .take

end Sys2Proof.Machine
end

