-- ==== Sys2Proof/Proofs/Grants.lean ====
section
/-! O24: the grant. What an opened row leaves and changes (Opened), carried through the doubled write and the immediate
actions; then the grant of an access and of a refresh (R23, R26, R31, R34, R35, R37, R47, R142). -/

namespace Sys2Proof.Machine

open Sys2Proof

/-! ## The rows an access opens -/

/-- A row of a bank stands open, no other bank's, and besides that only the blocks' own work was done. -/
structure Opened (key row : Nat) (s t : State) : Prop where
  work : OwnWork s t
  entries : t.regions.map Region.entry = s.regions.map Region.entry
  here : ∃ o, AMap.get? t.port.openRows key = some o ∧ o.row = row
  others : ∀ k, k ≠ key → AMap.get? t.port.openRows k = AMap.get? s.port.openRows k
  frame : t = { s with
    link := { s.link with returns := t.link.returns }
    port := { s.port with accesses := t.port.accesses, openRows := t.port.openRows }
    wbq := t.wbq, regions := t.regions, patrol := t.patrol, window := t.window, hammer := t.hammer
    repair := { s.repair with jobs := t.repair.jobs }, report := t.report, counters := t.counters }

/-- One row opened after another of the same bank: the last stands open. -/
theorem Opened.trans {key row last : Nat} {a b c : State} (h : Opened key row a b) (k : Opened key last b c) :
    Opened key last a c where
  work := h.work.trans k.work
  entries := k.entries.trans h.entries
  here := k.here
  others n hn := (k.others n hn).trans (h.others n hn)
  frame := by rw [k.frame, h.frame]

/-- A step of the blocks' own work that leaves the open rows. -/
theorem Opened.step {key row : Nat} {a b c : State} (h : Opened key row a b) (hw : OwnWork b c) (hs : Settled b c) :
    Opened key row a c := by
  obtain ⟨-, -, -, -, -, entries, -, frame⟩ := hs
  have hrows : c.port.openRows = b.port.openRows := by rw [frame]
  refine ⟨h.work.trans hw, entries.trans h.entries, hrows ▸ h.here, fun n hn => hrows ▸ h.others n hn, ?_⟩
  rw [frame, h.frame]

/-- An activation: the row stands open in the place of the bank's other, and the activation is reported (R34, R35). -/
theorem activated (rank bank row : Nat) (requester : Requester) (s : State) :
    Opened (bankKey rank bank) row s (reportActivation rank bank row requester
      { s with port.openRows := AMap.insert s.port.openRows (bankKey rank bank) { row := row, holdEnd := none } }) := by
  generalize hm : AMap.insert s.port.openRows (bankKey rank bank) { row := row, holdEnd := none } = m
  obtain ⟨-, -, -, -, frame⟩ :=
    reportActivation_watched rank bank row requester { s with port := { s.port with openRows := m } }
  have hwork := ownWork_moves.of_reportActivation rank bank row requester
    { s with port := { s.port with openRows := m } }
  generalize reportActivation rank bank row requester _ = t at frame hwork
  have hrows : t.port.openRows = m := by rw [frame]
  have hopen : OwnWork s { s with port := { s.port with openRows := m } } := .aside rfl rfl rfl
  refine ⟨hopen.trans hwork, by rw [frame], ?_, fun k hk => ?_, ?_⟩
  · exact ⟨{ row := row, holdEnd := none }, by simp [hrows, ← hm, AMap.get_insert], rfl⟩
  · simp [hrows, ← hm, AMap.get_insert, hk]
  · rw [frame]

theorem openRow_opened (rank bank row : Nat) (requester : Requester) (s : State) :
    Opened (bankKey rank bank) row s (openRow rank bank row requester s) := by
  unfold openRow
  split
  · rename_i o ho
    split
    · rename_i hrow
      exact ⟨ownWork_moves.refl s, rfl, ⟨o, ho, hrow⟩, fun _ _ => rfl, rfl⟩
    · exact activated rank bank row requester s
  · exact activated rank bank row requester s

/-- The second row of a doubled write stands open in the end, or without one the first (R142). -/
theorem openDouble_opened {rank bank row : Nat} {s t : State} (double : Option Nat) (requester : Requester)
    (h : Opened (bankKey rank bank) row s t) :
    Opened (bankKey rank bank) (double.getD row) s (openDouble rank bank double requester t) := by
  cases double with
  | none => exact h
  | some spare => exact (h.step (.count _ t) (.count _ t)).trans (openRow_opened rank bank spare requester _)

/-! ## The grant of an access -/

/-- A write-back's entry is marked granted with it (R47). -/
theorem markGranted_eq (a : Access) (s : State) : markGranted a s = { s with
    wbq := s.wbq.map fun e => if a.kind = .writeBack ∧ e.line = a.line then { e with granted := true } else e } := by
  unfold markGranted
  split <;> rename_i h <;> simp [h]

/-- The spare row of a line that its copy has passed (R142). -/
theorem doubleRow_eq (s : State) (a : Access) : doubleRow s a = if a.kind.changesLine then
    (copyOf s (rankOfAccess s a) (bankOfAccess s a) (s.port.geom.logicalOf a.line)).bind fun c =>
      if s.port.geom.colOf a.line < c.2 then some (s.port.geom.visible + c.1) else none
    else none := by
  unfold doubleRow
  split
  · cases copyOf s _ _ _ <;> rfl
  · rfl

/-- An access as granted: looked up and given its place among the grants, its entry with it (R23, R47). -/
def markedGrant (s : State) (a : Access) : State := { s with
  port := { s.port with
    accesses := updateFirst a.line (Access.given (lookupRow s a) (doubleRow s a) s.port.grants) s.port.accesses }
  wbq := s.wbq.map fun e => if a.kind = .writeBack ∧ e.line = a.line then { e with granted := true } else e }

/-- The pass count of the class and the number of grants written (R31, R33). -/
def countGrant (cls passes : Nat) (s : State) : State := { s with
  port := { s.port with passCounts := s.port.passCounts.set cls passes, grants := s.port.grants + 1 } }

theorem grantAccess_eq (a : Access) (cls passes : Nat) (s : State) : grantAccess a cls passes s =
    openDouble (rankOfAccess s a) (bankOfAccess s a) (doubleRow s a) a.kind.requester
      (openRow (rankOfAccess s a) (bankOfAccess s a) (lookupRow s a) a.kind.requester
        (countGrant cls passes (markedGrant s a))) := by
  unfold grantAccess
  dsimp only
  rw [markGranted_eq]
  rfl

/-- A granted access opens its rows; what follows is the blocks' own work (R34, R35). -/
theorem settle_grantAccess_opened (a : Access) (cls passes : Nat) (s : State) :
    Opened (keyOfAccess s a) ((doubleRow s a).getD (lookupRow s a)) (countGrant cls passes (markedGrant s a))
      (settle (grantAccess a cls passes s)) := by
  rw [grantAccess_eq]
  exact (openDouble_opened _ _ (openRow_opened _ _ _ _ _)).step (ownWork_moves.of_settle _) (settle_settled _)

/-! ## The grant of a refresh -/

/-- A granted refresh closes its rank, passes the granted accesses of it and takes the oldest owed (R31, R35, R37). -/
theorem grantRefresh_eq {rank : Nat} {s : State} {r : Refresh} (h : s.port.refresh[rank]? = some r) :
    grantRefresh rank s = { s with
      port := { s.port with
        accesses := s.port.accesses.map fun b =>
          if b.phase = .granted ∧ s.port.geom.rankOf b.line = rank then { b with refreshes := b.refreshes + 1 } else b
        openRows := s.port.openRows.filter fun p => p.1 / 16 != rank
        refresh := s.port.refresh.set rank { r with owed := r.owed.tail } }
      counters := { s.counters with refreshesIssued := satAdd s.counters.refreshesIssued 1 } } := by
  unfold grantRefresh
  rw [List.getD_eq_getElem?_getD, h]
  rfl

/-! ## The arbiter's command -/

theorem execArbiterGrant_of_winner {accept : BitVec 64} {refresh : BitVec 4} {s : State} {w : Winner}
    (h : winner accept refresh s = some w) : exec (.arbiterGrant accept refresh) s = .next (settle (grant w s)) := by
  change execArbiterGrant accept refresh s = _
  simp only [execArbiterGrant, h]

theorem execArbiterGrant_of_none {accept : BitVec 64} {refresh : BitVec 4} {s : State}
    (h : winner accept refresh s = none) : exec (.arbiterGrant accept refresh) s = .next s := by
  change execArbiterGrant accept refresh s = _
  simp only [execArbiterGrant, h]

/-- Settles O24: what an opened row leaves, through a doubled write and the immediate actions, and a refresh in one
step. -/
theorem grantsTakeThePort : Obligations.GrantsTakeThePort := by
  unfold Obligations.GrantsTakeThePort
  refine ⟨fun accept refresh s a cls passes hw => ?_, fun accept refresh s => ⟨fun rank hw => ?_, fun hw => ?_⟩⟩
  · intro rank bank logical row requester
    have hrequester : requester = a.kind.requester := by
      simp only [requester]
      cases a.kind <;> rfl
    clear_value requester
    subst hrequester
    have hopened := settle_grantAccess_opened a cls passes s
    have hgrant := grantAccess_eq a cls passes s
    have hexec : exec _ s = .next (settle (grantAccess a cls passes s)) := execArbiterGrant_of_winner hw
    rw [show keyOfAccess s a = _ from bankKey_eq _ _] at hopened
    refine ⟨_, markedGrant s a, doubleRow s a, hexec, doubleRow_eq s a, rfl, ?_, ?_⟩
    · rw [hgrant]
      cases doubleRow s a <;> rfl
    · generalize settle (grantAccess a cls passes s) = t at hopened
      obtain ⟨work, entries, here, others, frame⟩ := hopened
      have hcounted : OwnWork (markedGrant s a) (countGrant cls passes (markedGrant s a)) := .aside rfl rfl rfl
      have hall : OwnWork (markedGrant s a) t := hcounted.trans work
      refine ⟨hall.joins, hall.stays, ?_, ?_, entries, here, others, ?_⟩ <;> rw [frame] <;> rfl
  · obtain ⟨_, _, -, ⟨r, hr, howed, -⟩, -⟩ := winner_refresh_spec hw
    refine ⟨r, hr, fun hnil => by simp [hnil] at howed, ?_⟩
    rw [execArbiterGrant_of_winner hw, grant, grantRefresh_eq hr]
  · exact execArbiterGrant_of_none hw

end Sys2Proof.Machine
end

