-- ==== Sys2Proof/Proofs/Bounds.lean ====
section
/-! What every command keeps of the queues, the sets and the tags: Bounds, with Guards for an operation that also leaves
the request queue as it stands, and the rules of the small updates (R40, R43, R47, R91, R137, R151, R186, R189, R192). -/

namespace Sys2Proof.Machine

open Sys2Proof

/-! ## The relation -/

/-- The tags in use match the work outstanding, but for the one tag, if any, whose work is in hand (R186). -/
def Owing : Option Nat → State → Prop
  | none, s => TagsMatch s
  | some tag, s => TagsLack tag s

/-- What an operation keeps of the queues and the sets, each promise on its own; it finds the work of one tag in hand and
leaves that of another. -/
structure Bounds (hand left : Option Nat) (s t : State) : Prop where
  writebacks : WritebacksBounded s → WritebacksBounded t
  listed : WritebacksBounded s → WritebacksListed s → WritebacksListed t
  jobs : JobsBounded s → JobsBounded t
  queues : QueuesBounded s → QueuesBounded t
  erasures : ErasuresBounded s → ErasuresBounded t
  alerts : AlertsBounded s → AlertsBounded t
  tags : Owing hand s → Owing left t

/-- An operation of that kind that leaves the request queue as it stands. -/
structure Guards (hand left : Option Nat) (s t : State) : Prop extends Bounds hand left s t where
  requests : t.maint.queue = s.maint.queue

section

variable {hand mid left : Option Nat} {s t a b c : State}

theorem Bounds.trans (h : Bounds hand mid a b) (k : Bounds mid left b c) : Bounds hand left a c where
  writebacks := k.writebacks ∘ h.writebacks
  listed hb hl := k.listed (h.writebacks hb) (h.listed hb hl)
  jobs := k.jobs ∘ h.jobs
  queues := k.queues ∘ h.queues
  erasures := k.erasures ∘ h.erasures
  alerts := k.alerts ∘ h.alerts
  tags := k.tags ∘ h.tags

theorem Guards.trans (h : Guards hand mid a b) (k : Guards mid left b c) : Guards hand left a c :=
  ⟨h.toBounds.trans k.toBounds, k.requests.trans h.requests⟩

theorem Guards.ite {p : Prop} [Decidable p] (h : Guards hand left s a) (k : Guards hand left s b) :
    Guards hand left s (if p then a else b) := by split <;> assumption

theorem Owing.congr (h : Owing hand s) (ht : t.link.tags = s.link.tags)
    (hr : plain t.link.returns = plain s.link.returns) (hq : t.maint.queue = s.maint.queue)
    (ha : ∀ tag, tagged t.port.accesses tag = tagged s.port.accesses tag) : Owing hand t := by
  cases hand with
  | none => exact TagsMatch.congr h ht hr hq ha
  | some tag => exact TagsLack.congr h ht hr hq ha

/-- The blocks' own work: alerts join the return queue, entries leave the Write-back Queue with their writes, and no tag
and no request moves. -/
theorem Guards.work (ha : AlertStep s.link t.link) (hw : WorkStep s.port.accesses s.wbq t.port.accesses t.wbq)
    (hj : JobsBounded s → JobsBounded t)
    (hr : s.repair.jobs.length ≤ Config.repairCapacity → t.repair.jobs.length ≤ Config.repairCapacity)
    (he : ErasuresBounded s → ErasuresBounded t) (ht : t.link.tags = s.link.tags)
    (hq : t.maint.queue = s.maint.queue) : Guards hand hand s t where
  writebacks := fun ⟨hlength, hlines⟩ => ⟨hw.1.length_le.trans hlength, (hw.1.map _).nodup hlines⟩
  listed _ := hw.2.1
  jobs := hj
  queues := fun ⟨hrequests, hjobs⟩ => ⟨hq ▸ hrequests, hr hjobs⟩
  erasures := he
  alerts := ha.2.2
  tags h := h.congr ht ha.2.1 hq hw.2.2
  requests := hq

/-- All that Guards speaks of. -/
def State.guarded (s : State) :=
  (s.link.begun, s.link.returns, s.link.tags, s.port.accesses, s.wbq, s.patrol.tsq, s.repair.jobs, s.repair.erasures,
    s.maint.queue)

/-- An operation that moves nothing Guards speaks of. -/
theorem Guards.aside (h : t.guarded = s.guarded) : Guards hand hand s t := by
  simp only [State.guarded, Prod.mk.injEq] at h
  obtain ⟨hbegun, hreturns, htags, haccesses, hwbq, htsq, hjobs, herasures, hqueue⟩ := h
  refine .work ⟨hbegun, congrArg plain hreturns, ?_⟩ ?_ ?_ ?_ ?_ htags hqueue
  · simp only [OneAlertWaits, Link.waiting, Link.underWay, hbegun, hreturns, imp_self]
  · rw [haccesses, hwbq]
    exact .refl _ _
  · simp only [JobsBounded, htsq, imp_self]
  · simp only [hjobs, imp_self]
  · simp only [ErasuresBounded, herasures, imp_self]

theorem Guards.refl (s : State) : Guards hand hand s s := .aside rfl

theorem Bounds.refl (s : State) : Bounds hand hand s s := (Guards.refl s).toBounds

theorem Guards.count (c : Ctr) (s : State) : Guards hand hand s (count c s) := .aside rfl

/-- The link alone changed: its ALERTs stay bounded, and the tags go from one hand to the other. -/
theorem Guards.link (l : Link) (ha : OneAlertWaits s.link → OneAlertWaits l)
    (ht : Owing hand s → Owing left { s with link := l }) : Guards hand left s { s with link := l } :=
  ⟨⟨id, fun _ => id, id, id, id, ha, ht⟩, rfl⟩

/-- Line order changed by the blocks' own work. -/
theorem Guards.accesses (l : List Access) (h : WorkStep s.port.accesses s.wbq l s.wbq) :
    Guards hand hand s { s with port := { s.port with accesses := l } } := .work (.refl _) h id id id rfl rfl

theorem Noted.guards (h : Noted s t) : Guards hand hand s t := by
  obtain ⟨ha, hw, -, e⟩ := h
  refine .work ha hw ?_ ?_ ?_ ?_ ?_ <;> rw [e]
  · exact id
  · exact id
  · exact id

theorem Alerted.guards (h : Alerted s t) : Guards hand hand s t := h.noted.guards

theorem Watched.guards (h : Watched s t) : Guards hand hand s t := by
  obtain ⟨ha, hw, -, hj, e⟩ := h
  refine .work ha hw hj ?_ ?_ ?_ ?_ <;> rw [e]
  · exact id
  · exact id

theorem Internal.guards (h : Internal s t) : Guards hand hand s t := by
  obtain ⟨ha, hw, -, hj, -, -, he, hr, -, e⟩ := h
  refine .work ha hw hj hr he ?_ ?_ <;> rw [e]

theorem Settled.guards (h : Settled s t) : Guards hand hand s t := by
  obtain ⟨ha, hw, -, hj, hr, -, -, e⟩ := h
  refine .work ha hw hj (fun hs => hr ▸ hs) ?_ ?_ ?_ <;> rw [e]
  exact id

theorem Guards.raise (c : Cause) (s : State) : Guards hand hand s (raise c s) := (raise_alerted c s).guards

theorem Guards.record (r : Record) (s : State) : Guards hand hand s (handRecord r s) := (handRecord_noted r s).guards

theorem settle_guards (s : State) : Guards hand hand s (settle s) := (settle_settled s).guards

theorem reviewOverride_guards (s : State) : Guards hand hand s (reviewOverride s) := (reviewOverride_settled s).guards

theorem runSelection_guards (s : State) : Guards hand hand s (runSelection s) := (runSelection_settled s).guards

end

/-! ## Time (R196) -/

/-- A queue whose entries keep their lines stays bounded. -/
theorem WritebacksBounded.map {s t : State} (h : WritebacksBounded s) (f : WbEntry → WbEntry)
    (hf : ∀ e, (f e).line = e.line) (ht : t.wbq = s.wbq.map f) : WritebacksBounded t := by
  obtain ⟨hlength, hlines⟩ := h
  have hsame : (s.wbq.map f).map WbEntry.line = s.wbq.map WbEntry.line := by
    rw [List.map_map]
    exact List.map_congr_left fun e _ => hf e
  rw [WritebacksBounded, ht, hsame, List.length_map]
  exact ⟨hlength, hlines⟩

theorem setNow_guards {hand : Option Nat} (now : FineTime) (s : State) : Guards hand hand s (setNow now s) where
  writebacks h := h.map (fun e => { e with inserted := keptTime now.us e.inserted }) (fun _ => rfl) rfl
  listed _ h := Listed.replace h _ fun _ => ⟨rfl, rfl⟩
  jobs := id
  queues := id
  erasures := id
  alerts := id
  tags h := h.congr rfl rfl rfl fun _ => rfl
  requests := rfl

theorem arrive_guards {hand : Option Nat} (moment : FineTime) (s : State) : Guards hand hand s (arrive moment s) :=
  .ite (setNow_guards moment s) (.refl s)

/-! ## Returns and tags -/

/-- A frame that is no ALERT at the tail leaves at most one ALERT waiting (R189). -/
theorem OneAlertWaits.append {l : Link} (h : OneAlertWaits l) {f : ReturnFrame} (hf : f.isAlert = false) :
    OneAlertWaits { l with returns := l.returns ++ [f] } := by
  obtain ⟨hbegun, hone⟩ := h
  refine ⟨fun _ => by simp, ?_⟩
  have hnone : ([f].drop (l.underWay - l.returns.length)).countP ReturnFrame.isAlert = 0 :=
    List.countP_eq_zero.2 fun g hg => by simp [List.mem_singleton.1 (List.mem_of_mem_drop hg), hf]
  show ((l.returns ++ [f]).drop l.underWay).countP ReturnFrame.isAlert ≤ 1
  rw [List.drop_append, List.countP_append, hnone]
  exact hone

theorem ReturnFrame.isAlert_of_tag {f : ReturnFrame} {tag : Nat} (h : f.tag? = some tag) : f.isAlert = false := by
  cases f with
  | alert => cases h
  | _ => rfl

section

variable {tag : Nat} {s : State}

/-- The work in hand is answered (R189). -/
theorem Guards.reply (f : ReturnFrame) (s : State) (hf : f.tag? = some tag) :
    Guards (some tag) none s (handReturn f s) :=
  .link _ (fun h => h.append (f.isAlert_of_tag hf)) fun h => TagsLack.returned h f hf

/-- The work in hand is given up, and its tag becomes free (R186). -/
theorem freeTag_guards (tag : Nat) (s : State) : Guards (some tag) none s (freeTag tag s) := .link _ id TagsLack.freed

/-- A demand access's return, or during a clear its tag (R18, R198). -/
theorem handDemandReturn_guards (f : ReturnFrame) (s : State) (hf : f.tag? = some tag) :
    Guards (some tag) none s (handDemandReturn tag f s) := .ite (freeTag_guards tag s) (.reply f s hf)

/-- The work in hand joins line order as a demand access (R25). -/
theorem Guards.take (line : Nat) (kind : AccessKind) (phase : Phase) (s : State) (hk : kind.tag? = some tag) :
    Guards (some tag) none s (takeAccess line kind phase s) where
  writebacks := id
  listed _ h n := by
    have hw : kind ≠ .writeBack := by
      rintro rfl
      cases hk
    have hn := h n
    simpa [hw] using hn
  jobs := id
  queues := id
  erasures := id
  alerts := id
  tags h := TagsLack.taken h line kind phase hk
  requests := rfl

/-- The tag of an accepted frame comes into use, and its work is in hand (R186, R187). -/
theorem acceptFrame_guards {body : List Byte} {check : BitVec 16} {tag : Byte} {malformed : Bool}
    (h : ¬ frameRefused body check tag malformed s = true) :
    Guards none (some tag.toNat) s (acceptFrame tag s) := by
  simp only [frameRefused, Bool.or_eq_true, decide_eq_true_eq, not_or, Bool.not_eq_true, Nat.not_lt] at h
  obtain ⟨⟨-, htag, -⟩, hfree⟩ := h
  have huse : Guards none (some tag.toNat) s (useTag tag.toNat s) :=
    .link _ id fun hs => TagsMatch.accepted hs tag htag hfree
  exact huse.trans (.count _ _)

/-- A request's answer enters the return queue, and the request leaves its own (R192). -/
theorem answered_bounds {q : MaintRequest} (hq : s.maint.queue.head? = some q) (status : Status)
    (results : List Word32) : Bounds none none s (answered q status results s) where
  writebacks := id
  listed _ := id
  jobs := id
  queues := fun ⟨hrequests, hjobs⟩ => by
    refine ⟨?_, hjobs⟩
    simp only [answered, List.length_tail]
    omega
  erasures := id
  alerts h := OneAlertWaits.append h rfl
  tags h := TagsMatch.answered h q hq status results

end

/-! ## Line order -/

/-- Accesses that are neither write-backs nor demand accesses leave line order. -/
theorem WorkStep.filter (l : List Access) (q : List WbEntry) (p : Access → Bool)
    (h : ∀ a, p a = false → a.kind ≠ .writeBack ∧ a.kind.tag? = none) : WorkStep l q (l.filter p) q := by
  refine ⟨List.Sublist.refl _, fun k n => ?_, fun tag => ?_⟩
  · rw [← k n, List.filter_filter]
    congr 1
    refine List.filter_congr fun a _ => ?_
    cases hp : p a with
    | true => simp
    | false => simp [(h a hp).1]
  · rw [tagged, tagged, List.countP_filter]
    refine List.countP_congr fun a _ => ?_
    cases hp : p a with
    | true => simp
    | false => simp [(h a hp).2]

end Sys2Proof.Machine
end

