-- ==== Sys2Proof/Proofs/BoundedWork.lean ====
section
/-! The frames, the grants, the writes performed and the reads decoded keep the bounds: one lemma per operation of the
model, each with the tag whose work it finds and leaves in hand. -/

namespace Sys2Proof.Machine

open Sys2Proof

/-! ## Frames and the DRAM Port -/

section

variable {tag : Nat}

theorem reviewDrain_guards {hand : Option Nat} (s : State) : Guards hand hand s (reviewDrain s) := by
  rw [reviewDrain_eq]
  exact .aside rfl

theorem discardFrame_guards {hand : Option Nat} (s : State) : Guards hand hand s (discardFrame s) :=
  (Guards.count _ s).trans (.raise _ _)

theorem takeRead_guards (line : Nat) (s : State) : Guards (some tag) none s (takeRead tag line s) := by
  unfold takeRead
  split
  · exact (Guards.reply _ s rfl).trans (.count _ _)
  · exact .take line (.demandRead tag) _ s rfl

theorem portRead_guards (line : Nat) (s : State) : Guards (some tag) none s (portRead tag line s) :=
  .ite ((Guards.reply _ s rfl).trans (.count _ _)) (takeRead_guards line s)

theorem failLock_guards (source : Source) (region line : Nat) (s : State) :
    Guards (some tag) none s (failLock source tag region line s) :=
  (Guards.reply _ s rfl).trans ((Guards.record _ _).trans ((Guards.raise _ _).trans (.count _ _)))

theorem takeWrite_guards (line : Nat) (data : Data) (s : State) :
    Guards (some tag) none s (takeWrite tag line data s) :=
  (wbCancel_noted line s).guards.trans ((Guards.take line (.demandWrite tag data) _ _ rfl).trans (reviewDrain_guards _))

theorem takeMasked_guards (line : Nat) (data : Data) (mask : BitVec 64) (s : State) :
    Guards (some tag) none s (takeMasked tag line data mask s) := by
  unfold takeMasked
  split
  · exact (Guards.count _ s).trans ((wbCancel_noted _ _).guards.trans
      ((Guards.take line (.maskedWrite tag data mask _) _ _ rfl).trans (reviewDrain_guards _)))
  · exact (Guards.take line (.maskedWrite tag data mask none) _ s rfl).trans (reviewDrain_guards _)

theorem testMask_guards (line : Nat) (data : Data) (mask : BitVec 64) (s : State) :
    Guards (some tag) none s (testMask tag line data mask s) :=
  .ite (.reply _ s rfl) (.ite (takeWrite_guards line data s) (takeMasked_guards line data mask s))

theorem portWrite_guards (source : Source) (line : Nat) (permit : Bool) {passed : State → State}
    (hp : ∀ s, Guards (some tag) none s (passed s)) (s : State) :
    Guards (some tag) none s (portWrite source tag line permit passed s) := by
  unfold portWrite
  split
  · exact (Guards.reply _ s rfl).trans (.count _ _)
  · split
    · exact failLock_guards _ _ _ s
    · exact hp s

/-- An arriving request waits behind at most three others, or is answered BUSY (R192). -/
theorem takeRequest_bounds (code : Nat) (args : List Word32) (s : State) :
    Bounds (some tag) none s (takeRequest tag code args s) := by
  unfold takeRequest
  split
  · rename_i hroom
    exact {
      writebacks := id
      listed := fun _ => id
      jobs := id
      queues := fun ⟨_, hjobs⟩ => ⟨by simpa using hroom, hjobs⟩
      erasures := id
      alerts := id
      tags := fun h => TagsLack.queued h { tag := tag, code := code, args := args } rfl }
  · exact ((Guards.reply _ s rfl).trans (.count _ _)).toBounds

end

/-- Of a return queue with at most one ALERT, whose head begins to be sent, at most one ALERT waits (R189). -/
theorem oneAlertWaits_of_begun {l : Link} (hb : l.begun = !l.returns.isEmpty)
    (hone : l.returns.countP ReturnFrame.isAlert ≤ 1) : OneAlertWaits l := by
  refine ⟨fun hbegun hnil => ?_, ((List.drop_sublist _ _).countP_le).trans hone⟩
  rw [hb, hnil] at hbegun
  cases hbegun

/-- The frame on the link leaves the return queue, and its tag is free (R186, R189). -/
theorem frameLeft_guards {f : ReturnFrame} {rest : List ReturnFrame} {s : State} (hr : s.link.returns = f :: rest)
    (hb : s.link.begun = true) : Guards none none s (frameLeft f rest s) := by
  have halerts : AlertsBounded s → rest.countP ReturnFrame.isAlert ≤ 1 := fun ⟨_, hone⟩ => by
    simpa [Link.waiting, Link.underWay, hr, hb] using hone
  unfold frameLeft releaseTag
  split
  · rename_i tag hf
    exact .link _ (fun h => oneAlertWaits_of_begun rfl (halerts h)) fun h => (TagsMatch.left h f rest hr).2 tag hf
  · rename_i hf
    exact .link _ (fun h => oneAlertWaits_of_begun rfl (halerts h)) fun h => (TagsMatch.left h f rest hr).1 hf

/-- After an IDLE frame the head of the return queue, if any, begins to be sent (R189). -/
theorem idleLeft_guards {s : State} (h : s.link.begun = true → s.link.returns = []) :
    Guards none none s (idleLeft s) := by
  have halerts : AlertsBounded s → s.link.returns.countP ReturnFrame.isAlert ≤ 1 := fun ⟨hbegun, hone⟩ => by
    have hidle : s.link.begun = false := Bool.eq_false_iff.2 fun hb => hbegun hb (h hb)
    simpa [Link.waiting, Link.underWay, hidle] using hone
  exact .link _ (fun h => oneAlertWaits_of_begun rfl (halerts h)) id

/-! ## Grants (R31 to R37, R47) -/

theorem Guards.openRows {hand : Option Nat} (m : AMap OpenRow) (s : State) :
    Guards hand hand s { s with port := { s.port with openRows := m } } := .aside rfl

theorem openRow_guards {hand : Option Nat} (rank bank row : Nat) (r : Requester) (s : State) :
    Guards hand hand s (openRow rank bank row r s) := by
  obtain ⟨m, -, hw, -⟩ := openRow_spec rank bank row r s
  exact (Guards.openRows m s).trans hw.guards

theorem openDouble_guards {hand : Option Nat} (rank bank : Nat) (double : Option Nat) (r : Requester) (s : State) :
    Guards hand hand s (openDouble rank bank double r s) := by
  unfold openDouble
  split
  · exact (Guards.count _ s).trans (openRow_guards _ _ _ _ _)
  · exact .refl s

/-- A grant marks the entry of a write-back; the rows it opens are the blocks' own work. -/
theorem grantAccess_guards {a : Access} {s : State} (cls passes : Nat) (hf : Fronts a s.port.accesses) :
    Guards none none s (grantAccess a cls passes s) := by
  have hmark : WritebacksBounded s → WritebacksBounded (markedGrant s a) := fun h =>
    h.map (fun e => if a.kind = .writeBack ∧ e.line = a.line then { e with granted := true } else e)
      (fun e => by split <;> rfl) rfl
  have hcount : Guards none none (markedGrant s a) (countGrant cls passes (markedGrant s a)) := .aside rfl
  have hopen : Guards none none (markedGrant s a) (grantAccess a cls passes s) := by
    rw [grantAccess_eq]
    exact hcount.trans ((openRow_guards _ _ _ _ _).trans (openDouble_guards _ _ _ _ _))
  obtain ⟨hlisted, htags⟩ := grantAccess_work a cls passes s hf
  exact {
    writebacks := fun h => hopen.writebacks (hmark h)
    listed := fun ⟨_, hlines⟩ => hlisted hlines
    jobs := hopen.jobs
    queues := hopen.queues
    erasures := hopen.erasures
    alerts := hopen.alerts
    tags := htags
    requests := hopen.requests }

theorem grantRefresh_guards (rank : Nat) (s : State) : Guards none none s (grantRefresh rank s) :=
  (Guards.accesses _ (passAccesses_work rank s)).trans (.aside rfl)

theorem grant_guards {accept : BitVec 64} {refresh : BitVec 4} {s : State} {w : Winner}
    (h : winner accept refresh s = some w) : Guards none none s (grant w s) := by
  cases w with
  | access a cls passes => exact grantAccess_guards cls passes (winner_access h).1
  | refresh rank => exact grantRefresh_guards rank s

/-! ## Accesses performed -/

theorem restartHold_guards {hand : Option Nat} (rank bank row : Nat) (s : State) :
    Guards hand hand s (restartHold rank bank row s) := by
  obtain ⟨m, -, e⟩ := restartHold_spec rank bank row s
  rw [e]
  exact .openRows m s

section

variable {a : Access} {s : State} (hf : Fronts a s.port.accesses)

include hf

/-- An access that is no write-back leaves line order, and the work of its tag, if it has one, is in hand (R26). -/
theorem finishAccess_guards {left : Option Nat} (hw : a.kind ≠ .writeBack) (ht : a.kind.tag? = left) :
    Guards none left s (finishAccess a s) where
  writebacks h := by rwa [WritebacksBounded, finishAccess_wbq]
  listed _ h := h.finish a hf hw
  jobs h := by rwa [JobsBounded, finishAccess_patrol]
  queues h := by rwa [QueuesBounded, finishAccess_maint, finishAccess_repair]
  erasures h := by rwa [ErasuresBounded, finishAccess_repair]
  alerts h := by rwa [AlertsBounded, finishAccess_link]
  tags h := by
    cases left with
    | none => exact TagsMatch.done h a hf ht
    | some tag => exact TagsMatch.finish h a hf tag ht
  requests := by rw [finishAccess_maint]

/-- The same of a write, whose line is in the DRAM first. -/
theorem written_guards {left : Option Nat} (data : Data) (form : Form) (hw : a.kind ≠ .writeBack)
    (ht : a.kind.tag? = left) : Guards none left s (finishAccess a (writeLine a data form s)) := by
  rw [finishAccess_writeLine]
  exact (finishAccess_guards hf hw ht).trans (.aside rfl)

theorem answeredWrite_guards {tag : Nat} (data : Data) (form : Form) (status : AckStatus)
    (ht : a.kind.tag? = some tag) : Guards none none s (answeredWrite a tag data form status s) := by
  have hw : a.kind ≠ .writeBack := fun hk => by simp [hk, AccessKind.tag?] at ht
  exact ((written_guards hf data form hw ht).trans (reviewDrain_guards _)).trans (handDemandReturn_guards _ _ rfl)

/-- A write-back performed leaves line order, and its entry leaves the queue (R48). -/
theorem entryWritten_guards (e : WbEntry) (hw : a.kind = .writeBack) :
    Guards none none s (entryWritten a e s) := by
  let u : State := { finishAccess a s with wbq := s.wbq.filter fun f => f.line != a.line }
  have hu : Guards none none s u := {
    writebacks := fun ⟨hlength, hlines⟩ =>
      ⟨(List.length_filter_le _ _).trans hlength, (List.filter_sublist.map _).nodup hlines⟩
    listed := fun ⟨_, hlines⟩ h => by
      show Listed (finishAccess a s).port.accesses _
      rw [finishAccess_port]
      exact Listed.written h hlines a hf hw
    jobs := fun h => by rwa [JobsBounded, show u.patrol = s.patrol from finishAccess_patrol a s]
    queues := fun h => by
      rwa [QueuesBounded, show u.maint = s.maint from finishAccess_maint a s,
        show u.repair = s.repair from finishAccess_repair a s]
    erasures := fun h => by rwa [ErasuresBounded, show u.repair = s.repair from finishAccess_repair a s]
    alerts := fun h => by rwa [AlertsBounded, show u.link = s.link from finishAccess_link a s]
    tags := fun h => (TagsMatch.done h a hf (by rw [hw]; rfl)).congr rfl rfl rfl fun _ => rfl
    requests := congrArg Maint.queue (finishAccess_maint a s) }
  unfold entryWritten
  rw [finishAccess_writeLine]
  dsimp only
  rw [finishAccess_wbq]
  exact hu.trans (.aside rfl)

theorem recordWritten_guards (n : Word32) (data : Data) (hw : a.kind ≠ .writeBack) (ht : a.kind.tag? = none) :
    Guards none none s (recordWritten a n data s) :=
  (written_guards hf data .fresh hw ht).trans (recordPerformed_noted n _).guards

theorem spareWritten_guards (data : Data) (form : Form) (hw : a.kind ≠ .writeBack) (ht : a.kind.tag? = none) :
    Guards none none s (spareWritten a data form s) :=
  (written_guards hf data form hw ht).trans ((Guards.count _ _).trans (copyWritten_inner _).guards)

end

/-! ## Reads decoded -/

theorem handEvent_guards {hand : Option Nat} (ev : Option FaultEvent) (s : State) :
    Guards hand hand s (handEvent ev s) := (handEvent_inner ev s).guards

/-- An entry joins the Write-back Queue only while it holds fewer than 8, none of them of the line (R43). -/
theorem handWriteback_bounded (line : Nat) (data : Data) (kind : WbKind) (policy : Policy) {s : State}
    (h : WritebacksBounded s) : WritebacksBounded (handWriteback line data kind policy s) := by
  unfold handWriteback
  split
  · exact h
  · split
    · exact h
    · split
      · exact h.map (fun e => if e.line == line then { e with data := data, kind := kind, policy := policy } else e)
          (fun e => by split <;> rfl) rfl
      · rename_i hfresh
        split
        · rename_i hroom
          obtain ⟨-, hlines⟩ := h
          refine ⟨by simpa [insertEntry] using hroom, ?_⟩
          have hnew : ∀ e ∈ s.wbq, e.line ≠ line := by simpa [wbFind] using hfresh
          simpa [insertEntry, List.nodup_append, hlines] using hnew
        · exact h

/-- What a decode hands to the Write-back Queue moves line order, the queue and counters alone. -/
theorem handWriteback_frame (line : Nat) (data : Data) (kind : WbKind) (policy : Policy) (s : State) :
    let t := handWriteback line data kind policy s
    t.link = s.link ∧ t.patrol = s.patrol ∧ t.repair = s.repair ∧ t.maint = s.maint := by
  unfold handWriteback
  repeat' split
  all_goals exact ⟨rfl, rfl, rfl, rfl⟩

theorem handWriteback_guards (line : Nat) (data : Data) (kind : WbKind) (policy : Policy) (s : State) :
    Guards none none s (handWriteback line data kind policy s) := by
  obtain ⟨hlink, hpatrol, hrepair, hmaint⟩ := handWriteback_frame line data kind policy s
  obtain ⟨hlisted, htags⟩ := handWriteback_listed line data kind policy s
  exact {
    writebacks := handWriteback_bounded line data kind policy
    listed := fun _ => hlisted
    jobs := fun h => by rwa [JobsBounded, hpatrol]
    queues := fun h => by rwa [QueuesBounded, hmaint, hrepair]
    erasures := fun h => by rwa [ErasuresBounded, hrepair]
    alerts := fun h => by rwa [AlertsBounded, hlink]
    tags := htags
    requests := by rw [hmaint] }

theorem handDecoded_guards (line : Nat) (d : Decoded) (policy : Policy) (s : State) :
    Guards none none s (handDecoded line d policy s) := by
  unfold handDecoded
  split
  · exact handWriteback_guards _ _ _ _ s
  · exact .refl s

theorem countSweepEvent_guards (ev : Option FaultEvent) (s : State) : Guards none none s (countSweepEvent ev s) := by
  unfold countSweepEvent
  split
  · exact .aside rfl
  · exact .refl s

section

variable {a : Access} {s : State} (hf : Fronts a s.port.accesses)

include hf

theorem demandDecoded_guards {tag : Nat} (d : Decoded) (hk : a.kind = .demandRead tag) :
    Guards none none s (demandDecoded a tag d s) := by
  have hfinish := finishAccess_guards hf (left := some tag) (by simp [hk]) (by rw [hk]; rfl)
  exact (hfinish.trans (handDemandReturn_guards _ _ rfl)).trans
    ((handEvent_guards _ _).trans (handDecoded_guards _ _ _ _))

theorem patrolDecoded_guards {owned : Bool} (d : Decoded) (hk : a.kind = .patrolRead owned) :
    Guards none none s (patrolDecoded a owned d s) := by
  have hfinish := finishAccess_guards hf (left := none) (by simp [hk]) (by rw [hk]; rfl)
  exact (hfinish.trans (handEvent_guards _ _)).trans ((Guards.ite (countSweepEvent_guards _ _) (.refl _)).trans
    ((handDecoded_guards _ _ _ _).trans (.ite (.aside rfl) (.refl _))))

theorem targetedDecoded_guards {row : Nat} (d : Decoded) (hk : a.kind = .targetedRead row) :
    Guards none none s (targetedDecoded a d s) := by
  have hfinish := finishAccess_guards hf (left := none) (by simp [hk]) (by rw [hk]; rfl)
  exact (hfinish.trans (handEvent_guards _ _)).trans (.ite (handDecoded_guards _ _ _ _) (.refl _))

/-- A masked-write unit merges in its place, under its own tag (R15, R30). -/
theorem mergeUnit_guards {tag : Nat} {data : Data} {mask : BitVec 64} {merged : Option (Data × Form)} (d : Decoded)
    (hk : a.kind = .maskedWrite tag data mask merged) : Guards none none s (mergeUnit a tag data mask d s) :=
  (Guards.accesses _ (.update _ _ _ a hf rfl (by simp [hk]) (by simp) (by rw [hk]; rfl))).trans
    (restartHold_guards _ _ _ _)

theorem copyDecoded_guards (d : Decoded) (hk : a.kind = .copyRead) : Guards none none s (copyDecoded a d s) := by
  have hfinish := finishAccess_guards hf (left := none) (by simp [hk]) (by rw [hk]; rfl)
  exact (hfinish.trans (.accesses _ (fixPayload_work _ _ _ _))).trans
    ((countCopied_inner _ _).guards.trans (handEvent_guards _ _))

end

end Sys2Proof.Machine
end

