-- ==== Sys2Proof/Proofs/BoundedRequests.lean ====
section
/-! The requests of the Maintenance Unit keep the bounds: the channel clear, the geometry, each owner's decision, and the
dispatch that answers it. -/

namespace Sys2Proof.Machine

open Sys2Proof

/-! ## The channel clear (R198) -/

theorem idleRegion_guards (region : Option Nat) (s : State) : Guards none none s (idleRegion region s) := by
  rw [idleRegion_eq]
  exact .aside rfl

/-- Patrol reads withdrawn and disowned are no write-backs and no demand accesses (R80). -/
theorem abandonReads_guards (s : State) : Guards none none s (abandonReads s) := by
  refine Guards.accesses _ (WorkStep.trans (.filter _ _ _ fun a ha => ?_) (.map _ _ _ fun a => ?_))
  · cases hk : a.kind <;> simp [hk, AccessKind.isPatrol, AccessKind.tag?] at ha ⊢
  · unfold Access.disown
    split
    · rename_i hk
      simp [hk, AccessKind.tag?]
    · simp

/-- The patrol's state replaced, the targeted jobs as they stand. -/
theorem Guards.patrol (s : State) (p : Patrol) (h : p.tsq = s.patrol.tsq) :
    Guards none none s { s with patrol := p } :=
  .work (.refl _) (.refl _ _) (fun hs => by rwa [JobsBounded, h]) id id rfl rfl

theorem emptySlots_guards (s : State) : Guards none none s (emptySlots s) :=
  ((idleRegion_guards _ s).trans ((idleRegion_guards _ _).trans (idleRegion_guards _ _))).trans
    ((Guards.patrol _ _ (by rfl)).trans (abandonReads_guards _))

/-- The Targeted Scrub Queue is emptied, and its reads withdrawn are no write-backs and no demand accesses (R97). -/
theorem emptyTsq_guards (s : State) : Guards none none s (emptyTsq s) := by
  refine .work (.refl _) (.filter _ _ _ fun a ha => ?_) (fun _ => ⟨Nat.zero_le _, List.nodup_nil⟩) id id rfl rfl
  cases hk : a.kind <;> simp [hk, AccessKind.isScrub, AccessKind.tag?] at ha ⊢

/-- Of the accesses a clear withdraws, those of the demand queue have the tags it frees (R38). -/
theorem tagged_discarded (l : List Access) (tag : Nat) : tagged l tag =
    tagged (l.filter fun a => (discardedTag a).isNone) tag + (l.filterMap discardedTag).count tag := by
  induction l with
  | nil => rfl
  | cons a l ih =>
    unfold tagged at ih ⊢
    cases hd : discardedTag a with
    | none => simp [List.countP_cons, hd, ih]; omega
    | some n =>
      have ht : a.kind.tag? = some n := by
        unfold discardedTag at hd
        split at hd
        · rw [← hd]
          cases a.kind <;> rfl
        · cases hd
      simp [List.countP_cons, List.count_cons, hd, ht, ih]
      omega

/-- Every waiting demand access leaves line order and its tag becomes free: the others keep theirs (R38). -/
theorem discardDemand_tags {s : State} (h : TagsMatch s) : TagsMatch (discardDemand s) := fun tag => by
  have hs := h tag
  have hsplit := tagged_discarded s.port.accesses tag
  rw [discardDemand_eq]
  unfold outstanding at hs ⊢
  unfold tagged at hsplit
  dsimp only
  by_cases htag : tag < 64
  · rw [freedTags_getLsbD _ _ htag]
    cases hfreed : (s.port.accesses.filterMap discardedTag).contains tag with
    | true =>
      have hpos := List.count_pos_iff.2 (List.contains_iff_mem.1 hfreed)
      have hone := Bool.toNat_le (s.link.tags.getLsbD tag)
      simp only [Bool.not_true, Bool.and_false, Bool.toNat_false]
      omega
    | false =>
      have hzero : (s.port.accesses.filterMap discardedTag).count tag = 0 :=
        List.count_eq_zero.2 fun hm => Bool.false_ne_true (hfreed.symm.trans (List.contains_iff_mem.2 hm))
      simp only [Bool.not_false, Bool.and_true]
      omega
  · rw [BitVec.getLsbD_of_ge _ _ (by omega)] at hs ⊢
    simp only [Bool.toNat_false] at hs ⊢
    omega

theorem discardDemand_guards (s : State) : Guards none none s (discardDemand s) := by
  have hlisted : WritebacksListed s → WritebacksListed (discardDemand s) := fun h n => by
    have hn := h n
    rw [discardDemand_eq]
    dsimp only
    rw [← hn, List.filter_filter]
    congr 1
    refine List.filter_congr fun a _ => ?_
    by_cases hk : a.kind = .writeBack <;> simp [hk, discardedTag]
  have htags : TagsMatch s → TagsMatch (discardDemand s) := discardDemand_tags
  rw [discardDemand_eq] at hlisted htags ⊢
  exact ⟨⟨id, fun _ => hlisted, id, id, id, id, htags⟩, rfl⟩

/-- The entries not granted leave with their writes, which are those that wait (R47, R52). -/
theorem withdrawEntries_listed {s : State} (h : WritebacksListed s) : WritebacksListed (withdrawEntries s) := fun n => by
  have hn := congrArg (List.filter fun p => p != .waiting) (h n)
  simp only [List.filter_map, List.filter_filter] at hn
  simp only [withdrawEntries, List.filter_filter]
  convert hn using 2
  · refine List.filter_congr fun a _ => ?_
    cases hk : a.kind == .writeBack <;> cases hp : a.phase == .waiting <;> simp [Access.heldWriteback, bne, hk, hp]
  · refine List.filter_congr fun e _ => ?_
    cases hg : e.granted <;> simp [WbEntry.phase, hg]

theorem withdrawEntries_guards (s : State) : Guards none none s (withdrawEntries s) where
  writebacks := fun ⟨hlength, hlines⟩ =>
    ⟨(List.length_filter_le _ _).trans hlength, (List.filter_sublist.map _).nodup hlines⟩
  listed _ := withdrawEntries_listed
  jobs := id
  queues := id
  erasures := id
  alerts := id
  tags h := by
    refine TagsMatch.congr h rfl rfl rfl fun tag => ?_
    unfold tagged withdrawEntries
    dsimp only
    rw [List.countP_filter]
    refine List.countP_congr fun a _ => ?_
    by_cases hk : a.kind = .writeBack <;> simp [Access.heldWriteback, hk, AccessKind.tag?]
  requests := rfl

theorem clearPatrol_guards (s : State) : Guards none none s (clearPatrol s) :=
  ((emptySlots_guards s).trans (emptyTsq_guards _)).trans ((Guards.patrol _ _ (by rfl)).trans (reviewOverride_guards _))

/-- The copy accesses withdrawn are no write-backs and no demand accesses, and the jobs are aborted (R147). -/
theorem abandonCopies_guards (s : State) : Guards none none s (abandonCopies s) := by
  refine (Guards.accesses _ (.filter _ _ _ fun a ha => ?_)).trans (abortJobs_inner _).guards
  cases hk : a.kind <;> simp [withdrawnCopy, hk, AccessKind.tag?] at ha ⊢

theorem emptyHammer_guards (s : State) : Guards none none s (emptyHammer s) := .aside rfl

theorem beginClear_guards (s : State) : Guards none none s (beginClear s) := by
  have hc : Guards none none s (clearCauses { s with
      link := { s.link with channel := .config }, maint := { s.maint with clearing := true } }) := .aside rfl
  exact ((hc.trans (discardDemand_guards _)).trans (withdrawEntries_guards _)).trans
    ((clearPatrol_guards _).trans ((abandonCopies_guards _).trans (emptyHammer_guards _)))

/-! ## The geometry (R20, R21) -/

/-- A geometry change empties the erasure sets of the ranks it drops (R21). -/
theorem SetsBounded.fitted {sets : List (List Nat)} (h : SetsBounded sets) (ranks : Nat) :
    SetsBounded (fittedErasures ranks sets) := by
  obtain ⟨hlength, hsets⟩ := h
  refine ⟨by simpa [fittedErasures] using hlength, fun set hset => ?_⟩
  obtain ⟨p, hp, rfl⟩ := List.mem_map.1 hset
  split
  · exact hsets _ (List.fst_mem_of_mem_zipIdx hp)
  · exact ⟨Nat.zero_le _, List.nodup_nil⟩

theorem Guards.report (s : State) (p : Report) : Guards none none s { s with report := p } := .aside rfl

theorem takeGeometry_guards (g : Geometry) (s : State) : Guards none none s (takeGeometry g s) := by
  have hg : Guards none none s { s with
      port := { s.port with geomSet := true, geom := g, openRows := [], refresh := startRefresh g.ranks s }
      regions := s.regions.map (Region.fitted g.capacity)
      repair := { s.repair with slots := [], erasures := fittedErasures g.ranks s.repair.erasures }
      fault := { s.fault with entries := s.fault.entries.map (FaultEntry.fitted g)
                              devices := fittedDevices g.ranks s.fault.devices } } :=
    .work (.refl _) (.refl _ _) id id (fun h => h.fitted g.ranks) rfl rfl
  exact hg.trans ((emptyHammer_guards _).trans (.ite (.aside rfl) (.refl _)))

theorem doConfigureGeometry_guards (args : List Word32) (s : State) :
    Guards none none s (doConfigureGeometry args s).state := by
  unfold doConfigureGeometry
  repeat' split
  · exact .refl s
  · exact .refl s
  · exact .refl s
  · exact takeGeometry_guards _ s

/-! ## The Maintenance Unit's own requests -/

theorem reviewThreshold_guards (s : State) : Guards none none s (reviewThreshold s) :=
  (Watched.foldl _ (fun _ _ => .foldl _ (fun _ _ => reviewEntry_watched _ _ _) _ _) _ s).guards

theorem paramChanged_guards (id : Nat) (s : State) : Guards none none s (paramChanged id s) := by
  unfold paramChanged
  split
  · exact ((recompute_settled s).trans (reviewOverride_settled _)).guards.trans (settle_guards _)
  · exact (reviewOverride_guards s).trans (settle_guards _)
  · exact ((reviewLimits_inner s).trans (eraseAll_inner _)).guards
  · exact (eraseAll_inner s).guards
  · exact (eraseAll_inner s).guards
  · exact (reviewThreshold_guards s).trans (settle_guards _)
  · exact (reviewReadyCount_alerted s).guards
  · exact (reviewReadyAge_alerted s).guards
  · exact .refl s

theorem Guards.params (s : State) (p : Params) : Guards none none s { s with params := p } := .aside rfl

theorem doSetParam_guards (args : List Word32) (s : State) : Guards none none s (doSetParam args s).state := by
  unfold doSetParam
  split
  · exact .refl s
  · exact (Guards.params s _).trans (paramChanged_guards _ _)

theorem doReadStats_guards (args : List Word32) (s : State) : Guards none none s (doReadStats args s).state := by
  unfold doReadStats
  dsimp only
  split <;> exact .refl s

theorem doGoOnline_guards (args : List Word32) (s : State) : Guards none none s (doGoOnline args s).state := by
  unfold doGoOnline
  split <;> exact .aside rfl

/-! ## The Region Table and the Patrol Engine -/

theorem setRegion_guards (i : Nat) (g : Region) (s : State) : Guards none none s (setRegion i g s) := .aside rfl

theorem setEngine_guards (e : EngineState) (s : State) : Guards none none s (setEngine e s) := .aside rfl

theorem doRegionLoad_guards (args : List Word32) (s : State) : Guards none none s (doRegionLoad args s).state := by
  unfold doRegionLoad
  dsimp only
  repeat' split
  · exact .refl s
  · exact .refl s
  · exact .refl s
  · exact .refl s
  · exact .refl s
  · exact (setRegion_guards _ _ s).trans (runSelection_guards _)

theorem doRegionClear_guards (args : List Word32) (s : State) : Guards none none s (doRegionClear args s).state := by
  unfold doRegionClear
  dsimp only
  repeat' split
  all_goals exact .aside rfl

theorem acceptPart_guards (part : Nat) (results : List Word32) (s : State) :
    Guards none none s (acceptPart part results s).state := by
  rw [acceptPart_state]
  exact .refl s

theorem doRegionRead_guards (args : List Word32) (s : State) : Guards none none s (doRegionRead args s).state := by
  unfold doRegionRead
  split
  · exact .refl s
  · exact acceptPart_guards _ _ s

theorem doScrubEnable_guards (args : List Word32) (s : State) : Guards none none s (doScrubEnable args s).state := by
  unfold doScrubEnable
  split
  · exact (setEngine_guards _ s).trans (runSelection_guards _)
  · exact .refl s

theorem doScrubDisable_guards (args : List Word32) (s : State) : Guards none none s (doScrubDisable args s).state := by
  unfold doScrubDisable
  split
  · exact .refl s
  · exact ((emptySlots_guards s).trans (setEngine_guards _ _)).trans (reviewOverride_guards _)

theorem stageHost_guards (i : Nat) (s : State) : Guards none none s (stageHost i s) :=
  (idleRegion_guards _ s).trans ((Guards.patrol _ _ (by rfl)).trans (setRegion_guards _ _ _))

theorem doSweepNow_guards (args : List Word32) (s : State) : Guards none none s (doSweepNow args s).state := by
  unfold doSweepNow
  dsimp only
  repeat' split
  · exact .refl s
  · exact .refl s
  · exact (stageHost_guards _ s).trans (runSelection_guards _)

theorem holdSweep_guards (s : State) : Guards none none s (holdSweep s) := by
  unfold holdSweep
  split
  · exact .aside rfl
  · exact .refl s

theorem doSweepHalt_guards (args : List Word32) (s : State) : Guards none none s (doSweepHalt args s).state := by
  unfold doSweepHalt
  split
  · exact .refl s
  · exact ((holdSweep_guards s).trans (setEngine_guards _ _)).trans (reviewOverride_guards _)

theorem returnSweep_guards (w : Sweep) (s : State) : Guards none none s (returnSweep w s) :=
  ((Guards.patrol s _ (by rfl)).trans (setRegion_guards _ _ _)).trans
    ((recompute_settled _).trans (reviewOverride_settled _)).guards

theorem doSweepResume_guards (args : List Word32) (s : State) : Guards none none s (doSweepResume args s).state := by
  unfold doSweepResume resumePatrol
  repeat' split
  · exact (returnSweep_guards _ s).trans (runSelection_guards _)
  · exact (setEngine_guards _ s).trans (runSelection_guards _)
  · exact .refl s

theorem setWindow_guards (endTime : Elapsed) (s : State) : Guards none none s (setWindow endTime s) := by
  unfold setWindow
  split <;> exact .aside rfl

theorem doQuietBegin_guards (args : List Word32) (s : State) : Guards none none s (doQuietBegin args s).state :=
  (setWindow_guards _ s).trans (reviewOverride_guards _)

theorem doQuietEnd_guards (args : List Word32) (s : State) : Guards none none s (doQuietEnd args s).state := by
  unfold doQuietEnd
  split
  · exact .refl s
  · exact (closeWindow_settled s).guards.trans (.count _ _)

/-! ## The Fault Table and the Repair Engine -/

theorem doFaultRead_guards (args : List Word32) (s : State) : Guards none none s (doFaultRead args s).state := by
  unfold doFaultRead
  split
  · exact .refl s
  · exact acceptPart_guards _ _ s

theorem doFaultClear_guards (args : List Word32) (s : State) : Guards none none s (doFaultClear args s).state := by
  unfold doFaultClear
  repeat' split
  all_goals exact .aside rfl

theorem doDeviceRead_guards (args : List Word32) (s : State) : Guards none none s (doDeviceRead args s).state := by
  unfold doDeviceRead
  split
  · exact .refl s
  · exact acceptPart_guards _ _ s

theorem doRetireRow_guards (args : List Word32) (s : State) : Guards none none s (doRetireRow args s).state := by
  unfold doRetireRow
  dsimp only
  repeat' split
  · exact .refl s
  · exact .refl s
  · exact .refl s
  · exact .count _ s
  · exact .count _ s
  · rename_i hroom
    exact (takeJob_inner _ _ _ _ _ s (Nat.lt_of_not_le hroom)).guards

theorem doRemapLoad_guards (args : List Word32) (s : State) : Guards none none s (doRemapLoad args s).state := by
  unfold doRemapLoad
  dsimp only
  repeat' split
  · exact .refl s
  · exact .refl s
  · exact .refl s
  · exact (setSlot_inner _ _ _ _ s).guards

theorem doSpareKill_guards (args : List Word32) (s : State) : Guards none none s (doSpareKill args s).state := by
  unfold doSpareKill
  dsimp only
  repeat' split
  · exact .refl s
  · exact .refl s
  · exact .refl s
  · exact (setSlot_inner _ _ _ _ s).guards

theorem doRemapRead_guards (args : List Word32) (s : State) : Guards none none s (doRemapRead args s).state := by
  unfold doRemapRead
  dsimp only
  repeat' split
  all_goals exact .refl s

theorem doErase_guards (args : List Word32) (s : State) : Guards none none s (doErase args s).state := by
  unfold doErase
  dsimp only
  split
  · exact .refl s
  · split
    · exact .refl s
    · rename_i hplace
      split
      · exact .refl s
      · rename_i hroom
        simp only [not_or, Bool.not_eq_true] at hplace
        obtain ⟨-, -, hfresh⟩ := hplace
        exact (addErasure_inner _ _ 1 s hfresh (Nat.lt_of_not_le hroom)).guards

theorem setDevice_guards (rank device : Nat) (d : DeviceScore) (s : State) :
    Guards none none s (setDevice rank device d s) := .aside rfl

/-- A set without one of its devices is still one of at most 2 (R154). -/
theorem removeErasure_guards (rank device : Nat) (s : State) : Guards none none s (removeErasure rank device s) := by
  have hset : Guards none none s { s with repair := { s.repair with
      erasures := s.repair.erasures.set rank ((erasureSet s rank).erase device) } } := by
    refine .work (.refl _) (.refl _ _) id id (fun h => h.set rank _ ?_) rfl rfl
    obtain ⟨hlength, hnodup⟩ := h.at (s := s) rank
    exact ⟨(List.length_erase_le).trans hlength, hnodup.erase device⟩
  exact hset.trans ((setDevice_guards _ _ _ _).trans ((Guards.count _ _).trans (eraseRank_inner _ _).guards))

theorem doUnerase_guards (args : List Word32) (s : State) : Guards none none s (doUnerase args s).state := by
  unfold doUnerase
  dsimp only
  repeat' split
  · exact .refl s
  · exact .refl s
  · exact .refl s
  · rw [accept_state]
    exact removeErasure_guards _ _ s

/-! ## The Report Unit -/

theorem doReportSetup_guards (args : List Word32) (s : State) : Guards none none s (doReportSetup args s).state := by
  unfold doReportSetup
  dsimp only
  repeat' split
  · exact .refl s
  · exact .refl s
  · exact .refl s
  · exact (Guards.report s _).trans (.report _ _)

theorem doReportRelease_guards (args : List Word32) (s : State) : Guards none none s (doReportRelease args s).state := by
  unfold doReportRelease
  dsimp only
  repeat' split
  all_goals exact .aside rfl

theorem placeRecord_guards (r : Record) (s : State) : Guards none none s (placeRecord r s) :=
  ((Guards.report s _).trans (wbCancel_noted _ _).guards).trans
    ((Noted.takeAccess _ _ _ _ (by simp) rfl).guards.trans (.count _ _))

theorem restartRing_guards (s : State) : Guards none none s (restartRing s) :=
  (Guards.report s _).trans ((placeRecord_guards _ _).trans (.report _ _))

theorem doReportRestart_guards (args : List Word32) (s : State) : Guards none none s (doReportRestart args s).state := by
  unfold doReportRestart
  repeat' split
  · exact .refl s
  · exact .refl s
  · exact .refl s
  · exact restartRing_guards s

theorem doCauseSet_guards (args : List Word32) (s : State) : Guards none none s (doCauseSet args s).state := by
  unfold doCauseSet
  split
  · exact .refl s
  · exact (raiseSet_alerted _ s).guards

theorem doMaskSet_guards (args : List Word32) (s : State) : Guards none none s (doMaskSet args s).state := by
  unfold doMaskSet
  dsimp only
  split <;> exact .aside rfl

theorem doMaskClear_guards (args : List Word32) (s : State) : Guards none none s (doMaskClear args s).state := by
  unfold doMaskClear
  dsimp only
  split
  · exact .refl s
  · exact (Guards.report s _).trans (testAlert_alerted _).guards

/-! ## Dispatch (R192, R193) -/

/-- The answer to the request at the head, over a state in which it still stands there. -/
theorem respond_bounds {s : State} {q : MaintRequest} {r : Answered} (hq : s.maint.queue.head? = some q)
    (h : Guards none none s r.state) : Bounds none none s (respond q.tag r) :=
  h.toBounds.trans (answered_bounds (by rw [h.requests, hq]) r.status r.results)

theorem headRequest_head {s : State} {q : MaintRequest} {code : Nat} (h : headRequest code s = some q) :
    s.maint.queue.head? = some q := by
  unfold headRequest at h
  split at h
  · cases h
  · exact (Option.filter_eq_some_iff.1 h).1

/-- A dispatch keeps what its owner's decision and what follows its answer keep. -/
theorem serveThen_bounds {after : State → State} (ha : ∀ s, Guards none none s (after s)) {code needed : Nat}
    {owner : List Word32 → State → Answered} (ho : ∀ args s, Guards none none s (owner args s).state) (s : State) :
    Bounds none none s (serveThen after code needed owner s) := by
  unfold serveThen
  split
  · rename_i q hq
    have hd : Guards none none (count .maintRequests s)
        (decideRequest needed owner q.args (count .maintRequests s)).state := by
      unfold decideRequest
      split
      · exact .refl _
      · exact ho _ _
    exact (respond_bounds (headRequest_head hq) ((Guards.count _ s).trans hd)).trans (ha _).toBounds
  · exact .refl s

end Sys2Proof.Machine
end

