-- ==== Sys2Proof/Proofs/BoundedCommands.lean ====
section
/-! O4: every command and every tick keeps the bounds. -/

namespace Sys2Proof.Machine

open Sys2Proof

/-- A command answers a next state that keeps the bounds. -/
def Kept (s : State) (answer : Answer) : Prop := ∃ t, answer = .next t ∧ Bounds none none s t

theorem Kept.next {s t : State} (h : Guards none none s t) : Kept s (.next t) := ⟨t, rfl, h.toBounds⟩

/-- A command that does nothing here. -/
theorem Kept.idle (s : State) : Kept s (.next s) := .next (.refl s)

/-- A command that the engine's immediate actions close. -/
theorem Kept.settled {s t : State} (h : Guards none none s t) : Kept s (.next (settle t)) :=
  .next (h.trans (settle_guards t))

theorem Kept.ite {p : Prop} [Decidable p] {s : State} {a b : Answer} (h : p → Kept s a) (k : ¬ p → Kept s b) :
    Kept s (if p then a else b) := by
  split
  · exact h ‹_›
  · exact k ‹_›

/-! ## Power-on and frames -/

/-- At power-on every queue and set is empty and no tag is in use (R39, R40, R98, R151, R155, R191, R199). -/
theorem execPowerOn_kept (s : State) : Kept s (execPowerOn s) := by
  refine ⟨_, rfl, fun _ => ?_, fun _ _ => ?_, fun _ => ?_, fun _ => ?_, fun _ => ?_, fun _ => ?_, fun _ tag => ?_⟩
  · exact ⟨Nat.zero_le _, List.nodup_nil⟩
  · exact fun _ => rfl
  · exact ⟨Nat.zero_le _, List.nodup_nil⟩
  · exact ⟨Nat.zero_le _, Nat.zero_le _⟩
  · exact ⟨rfl, by simp [State.reset]⟩
  · exact oneAlertWaits_of_begun rfl (Nat.zero_le _)
  · simp [outstanding, State.reset]

theorem execIdle_kept (byte1 byte2 byte3 : Byte) (check : BitVec 16) (s : State) :
    Kept s (execIdle byte1 byte2 byte3 check s) :=
  .ite (fun _ => .idle s) fun _ => .next (discardFrame_guards s)

/-- A frame accepted in CONFIG is answered NOT_READY (R187). -/
theorem notReady_guards {tag : Nat} (f : ReturnFrame) (s : State) (hf : f.tag? = some tag) :
    Guards (some tag) none s (count .notReadyAnswers (handReturn f s)) := (Guards.reply f s hf).trans (.count _ _)

theorem execRead_kept (tag byte2 byte3 : Byte) (line : BitVec 64) (check : BitVec 16) (s : State) :
    Kept s (execRead tag byte2 byte3 line check s) := by
  refine .ite (fun _ => .next (discardFrame_guards s)) fun h => ?_
  dsimp only
  split
  · exact .next ((acceptFrame_guards h).trans (notReady_guards _ _ rfl))
  · exact .next ((acceptFrame_guards h).trans (portRead_guards _ _))

theorem execWrite_kept (tag flags byte3 : Byte) (line : BitVec 64) (data : Data) (check : BitVec 16) (s : State) :
    Kept s (execWrite tag flags byte3 line data check s) := by
  refine .ite (fun _ => .next (discardFrame_guards s)) fun h => ?_
  dsimp only
  split
  · exact .next ((acceptFrame_guards h).trans (notReady_guards _ _ rfl))
  · exact .next ((acceptFrame_guards h).trans (portWrite_guards _ _ _ (takeWrite_guards _ _) _))

theorem execWriteMasked_kept (tag flags byte3 : Byte) (line : BitVec 64) (data : Data) (mask : BitVec 64)
    (check : BitVec 16) (s : State) : Kept s (execWriteMasked tag flags byte3 line data mask check s) := by
  refine .ite (fun _ => .next (discardFrame_guards s)) fun h => ?_
  dsimp only
  split
  · exact .next ((acceptFrame_guards h).trans (notReady_guards _ _ rfl))
  · exact .next ((acceptFrame_guards h).trans (portWrite_guards _ _ _ (testMask_guards _ _ _) _))

theorem execMaint_kept (tag byte2 : Byte) (code pad : BitVec 16) (args : List Word32) (check : BitVec 16) (s : State) :
    Kept s (execMaint tag byte2 code pad args check s) :=
  .ite (fun _ => .next (discardFrame_guards s)) fun h =>
    ⟨_, rfl, (acceptFrame_guards h).toBounds.trans (takeRequest_bounds _ _ _)⟩

theorem execMalformedFrame_kept (bytes : List Byte) (s : State) : Kept s (execMalformedFrame bytes s) :=
  .ite (fun _ => .next (discardFrame_guards s)) fun _ => .idle s

theorem execReturnFrameSent_kept (s : State) : Kept s (execReturnFrameSent s) := by
  unfold execReturnFrameSent
  split
  · rename_i f rest hr
    exact .ite (fun hb => .next (frameLeft_guards hr hb)) fun hb => .next (idleLeft_guards fun h => absurd h hb)
  · rename_i hr
    exact .next (idleLeft_guards fun _ => hr)

/-! ## The DRAM Port -/

theorem execArbiterGrant_kept (accept : BitVec 64) (refresh : BitVec 4) (s : State) :
    Kept s (execArbiterGrant accept refresh s) := by
  unfold execArbiterGrant
  split
  · rename_i hw
    exact .settled (grant_guards hw)
  · exact .idle s

/-- The granted access of a line that can be performed is the first of its line (R26). -/
theorem performable_front {s : State} {line : Nat} {a : Access} (h : performable s line = some a) :
    Fronts a s.port.accesses := (performable_fronts h).2.1

theorem execDemandReadDecode_kept (line : Nat) (damage : Line) (s : State) :
    Kept s (execDemandReadDecode line damage s) := by
  unfold execDemandReadDecode
  split
  · rename_i ha
    split
    · rename_i hk
      exact .settled (demandDecoded_guards (performable_front ha) _ hk)
    · exact .idle s
  · exact .idle s

theorem execScrubReadDecode_kept (line : Nat) (damage : Line) (s : State) :
    Kept s (execScrubReadDecode line damage s) := by
  unfold execScrubReadDecode
  split
  · rename_i ha
    split
    · rename_i hk
      exact .settled (patrolDecoded_guards (performable_front ha) _ hk)
    · rename_i hk
      exact .settled (targetedDecoded_guards (performable_front ha) _ hk)
    · exact .idle s
  · exact .idle s

theorem execRmwReadDecode_kept (line : Nat) (damage : Line) (s : State) : Kept s (execRmwReadDecode line damage s) := by
  unfold execRmwReadDecode
  split
  · rename_i ha
    split
    · rename_i hk
      exact .settled ((mergeUnit_guards (performable_front ha) _ hk).trans (handEvent_guards _ _))
    · exact .idle s
  · exact .idle s

theorem execCopyReadDecode_kept (line : Nat) (damage : Line) (s : State) : Kept s (execCopyReadDecode line damage s) := by
  unfold execCopyReadDecode
  split
  · rename_i ha
    split
    · rename_i hk
      exact .settled (copyDecoded_guards (performable_front ha) _ hk)
    · exact .idle s
  · exact .idle s

theorem execDemandWritePerformed_kept (line : Nat) (s : State) : Kept s (execDemandWritePerformed line s) := by
  unfold execDemandWritePerformed
  split
  · rename_i ha
    split
    · rename_i hk
      exact .next (answeredWrite_guards (performable_front ha) _ .fresh .ok (by rw [hk]; rfl))
    · exact .idle s
  · exact .idle s

theorem execMaskedWritePerformed_kept (line : Nat) (s : State) : Kept s (execMaskedWritePerformed line s) := by
  unfold execMaskedWritePerformed
  split
  · rename_i ha
    split
    · rename_i hk
      exact .next (answeredWrite_guards (performable_front ha) _ _ _ (by rw [hk]; rfl))
    · exact .idle s
  · exact .idle s

theorem execWritebackPerformed_kept (line : Nat) (s : State) : Kept s (execWritebackPerformed line s) := by
  unfold execWritebackPerformed
  split
  · rename_i ha _
    exact .ite (fun hk => .next (entryWritten_guards (performable_front ha) _ hk)) fun _ => .idle s
  · exact .idle s

theorem execRecordWritePerformed_kept (line : Nat) (s : State) : Kept s (execRecordWritePerformed line s) := by
  unfold execRecordWritePerformed
  split
  · rename_i ha
    split
    · rename_i hk
      exact .next (recordWritten_guards (performable_front ha) _ _ (by simp [hk]) (by rw [hk]; rfl))
    · exact .idle s
  · exact .idle s

theorem execCopyWritePerformed_kept (line : Nat) (s : State) : Kept s (execCopyWritePerformed line s) := by
  unfold execCopyWritePerformed
  split
  · rename_i ha
    split
    · rename_i hk
      exact .next (spareWritten_guards (performable_front ha) _ _ (by simp [hk]) (by rw [hk]; rfl))
    · exact .idle s
  · exact .idle s

/-! ## The timers -/

theorem execRowHoldExpiry_kept (rank bank : Nat) (s : State) : Kept s (execRowHoldExpiry rank bank s) := by
  unfold execRowHoldExpiry
  split
  · split
    · exact .ite (fun _ => .idle s) fun _ => .next ((arrive_guards _ s).trans (.openRows _ _))
    · exact .idle s
  · exact .idle s

theorem refreshDue_guards (rank : Nat) (moment : FineTime) (s : State) :
    Guards none none s (refreshDue rank moment s) := .ite (.aside rfl) (.aside rfl)

theorem execRefreshTimerExpiry_kept (rank : Nat) (s : State) : Kept s (execRefreshTimerExpiry rank s) := by
  unfold execRefreshTimerExpiry
  split
  · exact .next ((arrive_guards _ s).trans (refreshDue_guards _ _ _))
  · exact .idle s

theorem reachDue_guards (s : State) : Guards none none s (reachDue s) := .ite (.refl s) (runSelection_guards s)

theorem execRegionDue_kept (s : State) : Kept s (execRegionDue s) := by
  unfold execRegionDue
  split
  · exact .settled ((arrive_guards _ s).trans (reachDue_guards _))
  · exact .idle s

theorem reachIssue_guards (s : State) : Guards none none s (reachIssue s) := by
  unfold reachIssue
  split
  · exact (atBoundary_settled _ s).guards
  · exact .refl s

theorem execPatrolLineIssue_kept (s : State) : Kept s (execPatrolLineIssue s) := by
  unfold execPatrolLineIssue
  split
  · exact .ite (fun _ => .settled ((arrive_guards _ s).trans (reachIssue_guards _))) fun _ => .idle s
  · exact .idle s

theorem execBurstIssue_kept (s : State) : Kept s (execBurstIssue s) := by
  unfold execBurstIssue
  split
  · exact .ite (fun _ => .settled ((arrive_guards _ s).trans (reachIssue_guards _))) fun _ => .idle s
  · exact .idle s

theorem execQuietExpiry_kept (s : State) : Kept s (execQuietExpiry s) := by
  unfold execQuietExpiry
  split
  · exact .settled ((arrive_guards _ s).trans ((closeWindow_settled _).guards.trans (.count _ _)))
  · exact .idle s

theorem execQuietOverride_kept (s : State) : Kept s (execQuietOverride s) := by
  unfold execQuietOverride
  split
  · split
    · exact .settled ((arrive_guards _ s).trans (overrideWindow_settled _ _ _).guards)
    · exact .idle s
  · exact .idle s

theorem Guards.fault (s : State) (f : FaultTable) : Guards none none s { s with fault := f } := .aside rfl

theorem execDecayEpoch_kept (s : State) : Kept s (execDecayEpoch s) := by
  unfold execDecayEpoch
  exact .next ((arrive_guards (onMicrosecond s.fault.decayEnd) s).trans
    ((Guards.fault _ _).trans (decay_inner _).guards))

theorem Guards.hammer (s : State) (h : Hammer) : Guards none none s { s with hammer := h } := .aside rfl

theorem execHammerWindowExpiry_kept (s : State) : Kept s (execHammerWindowExpiry s) := by
  unfold execHammerWindowExpiry
  exact .next ((arrive_guards (onMicrosecond s.hammer.windowEnd) s).trans
    ((Guards.hammer _ _).trans ((Guards.hammer _ _).trans (.count _ _))))

theorem execHoldoffExpiry_kept (s : State) : Kept s (execHoldoffExpiry s) := by
  unfold execHoldoffExpiry
  split
  · exact .next ((arrive_guards _ s).trans ((Guards.report _ _).trans (testAlert_alerted _).guards))
  · exact .idle s

theorem execReadyAgeExpiry_kept (s : State) : Kept s (execReadyAgeExpiry s) := by
  unfold execReadyAgeExpiry
  split
  · exact .next ((arrive_guards _ s).trans (announce_alerted _).guards)
  · exact .idle s

/-! ## The requests -/

theorem execChannelClear_kept (s : State) : Kept s (execChannelClear s) := by
  unfold execChannelClear
  split
  · exact .next ((Guards.count _ s).trans (beginClear_guards _))
  · exact .idle s

/-- The answer of a clear, over the port as its completion leaves it (R198). -/
theorem endClear_bounds {s : State} {q : MaintRequest} (hq : s.maint.queue.head? = some q) :
    Bounds none none s (endClear q.tag s) := respond_bounds hq (.aside rfl)

theorem execChannelClearComplete_kept (selectionFirst : Bool) (s : State) :
    Kept s (execChannelClearComplete selectionFirst s) := by
  unfold execChannelClearComplete
  split
  · rename_i hq
    exact .ite (fun _ => ⟨_, rfl, (endClear_bounds (by rw [hq]; rfl)).trans
      ((afterClear_settled _ _).trans (settle_settled _)).guards.toBounds⟩) fun _ => .idle s
  · exact .idle s

theorem execBadRequest_kept (s : State) : Kept s (execBadRequest s) := by
  unfold execBadRequest
  split
  · rename_i hq
    exact .ite (fun _ => ⟨_, rfl, respond_bounds (by rw [hq]; rfl) (.aside rfl)⟩) fun _ => .idle s
  · exact .idle s

/-- A dispatch whose owner's decision keeps the bounds. -/
theorem Kept.served {s : State} {code needed : Nat} {owner : List Word32 → State → Answered}
    (h : ∀ args s, Guards none none s (owner args s).state) : Kept s (.next (serve code needed owner s)) :=
  ⟨_, rfl, serveThen_bounds (fun s => .refl s) h s⟩

theorem Kept.servedSettled {s : State} {code needed : Nat} {owner : List Word32 → State → Answered}
    (h : ∀ args s, Guards none none s (owner args s).state) : Kept s (.next (serveSettled code needed owner s)) :=
  ⟨_, rfl, serveThen_bounds settle_guards h s⟩

/-! ## Every command -/

theorem exec_kept (c : Instr) (s : State) : Kept s (exec c s) := by
  cases c with
  | powerOn => exact execPowerOn_kept s
  | idle byte1 byte2 byte3 check => exact execIdle_kept byte1 byte2 byte3 check s
  | read tag byte2 byte3 line check => exact execRead_kept tag byte2 byte3 line check s
  | write tag flags byte3 line data check => exact execWrite_kept tag flags byte3 line data check s
  | writeMasked tag flags byte3 line data mask check =>
    exact execWriteMasked_kept tag flags byte3 line data mask check s
  | maint tag byte2 code pad args check => exact execMaint_kept tag byte2 code pad args check s
  | arbiterGrant accept refresh => exact execArbiterGrant_kept accept refresh s
  | demandReadDecode line damage => exact execDemandReadDecode_kept line damage s
  | scrubReadDecode line damage => exact execScrubReadDecode_kept line damage s
  | rmwReadDecode line damage => exact execRmwReadDecode_kept line damage s
  | copyReadDecode line damage => exact execCopyReadDecode_kept line damage s
  | demandWritePerformed line => exact execDemandWritePerformed_kept line s
  | maskedWritePerformed line => exact execMaskedWritePerformed_kept line s
  | writebackPerformed line => exact execWritebackPerformed_kept line s
  | recordWritePerformed line => exact execRecordWritePerformed_kept line s
  | copyWritePerformed line => exact execCopyWritePerformed_kept line s
  | returnFrameSent => exact execReturnFrameSent_kept s
  | rowHoldExpiry rank bank => exact execRowHoldExpiry_kept rank bank s
  | refreshTimerExpiry rank => exact execRefreshTimerExpiry_kept rank s
  | regionDue => exact execRegionDue_kept s
  | patrolLineIssue => exact execPatrolLineIssue_kept s
  | burstIssue => exact execBurstIssue_kept s
  | quietExpiry => exact execQuietExpiry_kept s
  | quietOverride => exact execQuietOverride_kept s
  | decayEpoch => exact execDecayEpoch_kept s
  | hammerWindowExpiry => exact execHammerWindowExpiry_kept s
  | holdoffExpiry => exact execHoldoffExpiry_kept s
  | readyAgeExpiry => exact execReadyAgeExpiry_kept s
  | identify => exact .served fun _ _ => .aside rfl
  | readTime => exact .served fun _ _ => .aside rfl
  | setTime => exact .served fun _ _ => .aside rfl
  | setParam => exact .served doSetParam_guards
  | readStats => exact .served doReadStats_guards
  | statsClear => exact .served fun _ _ => .aside rfl
  | goOnline => exact .served doGoOnline_guards
  | channelClear => exact execChannelClear_kept s
  | channelClearComplete selectionFirst => exact execChannelClearComplete_kept selectionFirst s
  | configureGeometry => exact .served doConfigureGeometry_guards
  | regionLoad => exact .servedSettled doRegionLoad_guards
  | regionClear => exact .served doRegionClear_guards
  | regionRead => exact .served doRegionRead_guards
  | scrubEnable => exact .servedSettled doScrubEnable_guards
  | scrubDisable => exact .servedSettled doScrubDisable_guards
  | sweepNow => exact .servedSettled doSweepNow_guards
  | sweepHalt => exact .servedSettled doSweepHalt_guards
  | sweepResume => exact .servedSettled doSweepResume_guards
  | quietBegin => exact .servedSettled doQuietBegin_guards
  | quietEnd => exact .servedSettled doQuietEnd_guards
  | faultRead => exact .served doFaultRead_guards
  | faultClear => exact .served doFaultClear_guards
  | deviceRead => exact .served doDeviceRead_guards
  | retireRow => exact .served doRetireRow_guards
  | remapLoad => exact .served doRemapLoad_guards
  | spareKill => exact .served doSpareKill_guards
  | remapRead => exact .served doRemapRead_guards
  | erase => exact .served doErase_guards
  | unerase => exact .served doUnerase_guards
  | reportSetup => exact .served doReportSetup_guards
  | reportRelease => exact .served doReportRelease_guards
  | reportRestart => exact .served doReportRestart_guards
  | readCauses => exact .served fun _ _ => .aside rfl
  | causeSet => exact .served doCauseSet_guards
  | maskSet => exact .served doMaskSet_guards
  | maskClear => exact .served doMaskClear_guards
  | badRequest => exact execBadRequest_kept s
  | malformedFrame bytes => exact execMalformedFrame_kept bytes s

/-- A step keeps the bounds, whether a command runs or a tick passes. -/
theorem step_bounds {s t : State} (h : step s = .next t) : Bounds none none s t := by
  unfold step at h
  split at h
  · cases h
    exact (setNow_guards _ s).toBounds
  · rename_i c rest _
    have hrest : Guards none none s { s with pending := rest } := .aside rfl
    obtain ⟨u, hu, hk⟩ := exec_kept c { s with pending := rest }
    rw [hu] at h
    cases h
    exact hrest.toBounds.trans hk

/-- Settles O4: each promise is one of Bounds, which every command and the tick keep. -/
theorem stepsKeepQueuesAndSetsBounded : Obligations.StepsKeepQueuesAndSetsBounded := by
  intro s t h
  have hb := step_bounds h
  exact ⟨hb.writebacks, hb.jobs, fun ⟨hqueues, hsets⟩ => ⟨hb.queues hqueues, hb.erasures hsets⟩, hb.alerts,
    fun ⟨hbounded, hlisted⟩ => hb.listed hbounded hlisted, hb.tags⟩

end Sys2Proof.Machine
end

section
/-! O36: selection takes the candidate ahead of every other (R67, R71), and REGION_DUE comes at the earliest due time. -/

namespace Sys2Proof.Machine

open Sys2Proof

/-! ## Elapsed times (R196) -/

/-- The difference of two elapsed times that have been reached is that of their ages: within half the circle of 2^48
nothing wraps. -/
theorem elapsedDiff_of_reached {now a b : Elapsed} (ha : 0 ≤ elapsedDiff now a) (hb : 0 ≤ elapsedDiff now b) :
    elapsedDiff a b = elapsedDiff now b - elapsedDiff now a := by
  have h : a - b = (now - b) - (now - a) := by ring
  have ha' := BitVec.toInt_lt (x := now - a)
  have hb' := BitVec.toInt_lt (x := now - b)
  unfold elapsedDiff at *
  rw [h, BitVec.toInt_sub]
  exact Int.bmod_eq_of_le (by omega) (by omega)

/-- Two elapsed times of which neither lies before the other are one. -/
theorem eq_of_elapsedDiff_nonneg {a b : Elapsed} (hab : 0 ≤ elapsedDiff a b) (hba : 0 ≤ elapsedDiff b a) : a = b := by
  unfold elapsedDiff at hab hba
  rw [BitVec.toInt_eq_toNat_cond] at hab hba
  bv_omega

theorem elapsedBefore_eq_false_iff (a b : Elapsed) : elapsedBefore a b = false ↔ 0 ≤ elapsedDiff a b := by
  simp [elapsedBefore]

/-! ## Candidates (R71) -/

theorem Region.waits_iff (g : Region) :
    g.waits = true ↔ g.entry.valid = true ∧ g.entry.patrol = true ∧ g.status.state = .idle := by
  simp [Region.waits, and_assoc]

theorem Region.candidate_iff (now : Elapsed) (g : Region) :
    g.candidate now = true ↔ g.entry.valid = true ∧ g.entry.patrol = true ∧ g.status.state = .idle ∧
      0 ≤ elapsedDiff now g.status.due := by
  simp [Region.candidate, Region.waits, reached, and_assoc]

/-- Of two regions that are due, the one ahead has been due for longer, or as long with a higher class (R67, R71). -/
theorem Region.ahead_iff_of_reached {now : Elapsed} {g h : Region} (hg : 0 ≤ elapsedDiff now g.status.due)
    (hh : 0 ≤ elapsedDiff now h.status.due) :
    g.ahead h = true ↔ elapsedDiff now h.status.due < elapsedDiff now g.status.due ∨
      elapsedDiff now h.status.due = elapsedDiff now g.status.due ∧ g.entry.cls.code < h.entry.cls.code := by
  have hdue : g.status.due = h.status.due ↔ elapsedDiff now h.status.due = elapsedDiff now g.status.due := by
    refine ⟨fun e => by rw [e], fun e => eq_of_elapsedDiff_nonneg ?_ ?_⟩
    · rw [elapsedDiff_of_reached hg hh]; omega
    · rw [elapsedDiff_of_reached hh hg]; omega
  simp [Region.ahead, elapsedBefore, elapsedDiff_of_reached hg hh, hdue]

theorem regionAt_of_lt {s : State} {i : Nat} (h : i < s.regions.length) : regionAt s i = s.regions[i] := by
  simp [regionAt, h]

/-! ## The choice (R71) -/

/-- The best found so far stays while no candidate is ahead of it. -/
theorem chooseFrom_stays {now : Elapsed} {l : List Region} {i : Nat} {g : Region} (n : Nat)
    (h : ∀ x ∈ l, x.candidate now = true → x.ahead g = false) : chooseFrom now l n (some (i, g)) = some (i, g) := by
  induction l generalizing n with
  | nil => rfl
  | cons x l ih =>
    have hl := ih (n + 1) fun y hy => h y (List.mem_cons_of_mem x hy)
    by_cases hc : x.candidate now = true
    · simpa [chooseFrom, hc, h x List.mem_cons_self hc] using hl
    · simpa [chooseFrom, hc] using hl

/-- The choice falls on a candidate ahead of every one before it and behind none after it. -/
theorem chooseFrom_eq_some {now : Elapsed} {before after : List Region} {g : Region} (n : Nat)
    (best : Option (Nat × Region)) (hg : g.candidate now = true) (hbest : ∀ b ∈ best, g.ahead b.2 = true)
    (hbefore : ∀ x ∈ before, x.candidate now = true → g.ahead x = true)
    (hafter : ∀ x ∈ after, x.candidate now = true → x.ahead g = false) :
    chooseFrom now (before ++ g :: after) n best = some (n + before.length, g) := by
  induction before generalizing n best with
  | nil =>
    cases best with
    | none => simpa [chooseFrom, hg] using chooseFrom_stays (n + 1) hafter
    | some b => simpa [chooseFrom, hg, hbest b rfl] using chooseFrom_stays (n + 1) hafter
  | cons x before ih =>
    have hx := hbefore x List.mem_cons_self
    simp only [List.cons_append, chooseFrom]
    rw [ih (n + 1) _ ?_ fun y hy => hbefore y (List.mem_cons_of_mem x hy)]
    · simp only [List.length_cons]
      congr 2
      omega
    · intro b hb
      split at hb
      · rename_i hc
        split at hb
        · split at hb
          · obtain rfl := Option.some.inj hb
            exact hx hc
          · exact hbest b hb
        · obtain rfl := Option.some.inj hb
          exact hx hc
      · exact hbest b hb

/-- Nothing is chosen where no region is a candidate. -/
theorem chooseFrom_eq_none {now : Elapsed} {l : List Region} (h : ∀ g ∈ l, g.candidate now ≠ true) (n : Nat) :
    chooseFrom now l n none = none := by
  rw [Option.eq_none_iff_forall_ne_some]
  intro c hc
  obtain hbest | ⟨k, hk, -, hcandidate⟩ := chooseFrom_spec _ _ _ _ _ hc
  · cases hbest
  · exact h c.2 (List.mem_of_getElem? hk) hcandidate

/-! ## Selection (R71) -/

theorem EngineState.selects_iff (e : EngineState) : e.selects = true ↔ e = .idle ∨ e = .running ∨ e = .paused := by
  cases e <;> simp [EngineState.selects]

/-- Selection fills the staged slot alone: the rest of the engine's state stays. -/
theorem selectStaged_patrol (s : State) :
    (selectStaged s).patrol = { s.patrol with staged := (selectStaged s).patrol.staged } := by
  unfold selectStaged
  split
  · split <;> rfl
  · rfl

theorem selectStaged_active (s : State) : (selectStaged s).patrol.active = s.patrol.active := by
  rw [selectStaged_patrol]

theorem selectStaged_engine (s : State) : (selectStaged s).patrol.engine = s.patrol.engine := by
  rw [selectStaged_patrol]

theorem selectStaged_of_not_selects {s : State} (h : ¬ (s.patrol.engine.selects = true ∧ s.patrol.staged = none)) :
    selectStaged s = s := by
  unfold selectStaged
  exact if_neg (by simpa using h)

theorem selectStaged_of_none {s : State} (h : chooseFrom s.maint.now.us s.regions 0 none = none) :
    selectStaged s = s := by
  simp only [selectStaged, State.now, h, ite_self]

theorem selectStaged_of_some {s : State} {i : Nat} {g : Region} (he : s.patrol.engine.selects = true)
    (hs : s.patrol.staged = none) (h : chooseFrom s.maint.now.us s.regions 0 none = some (i, g)) :
    selectStaged s = setSweepState i .staged { s with
      patrol := { s.patrol with staged := some { region := i, hostPlaced := false } } } := by
  simp [selectStaged, State.now, he, hs, h]

/-- With a sweep in the active slot nothing moves up, and selection is the filling of the staged slot. -/
theorem runSelection_of_active {s : State} (h : s.patrol.active.isSome = true) : runSelection s = selectStaged s := by
  obtain ⟨w, hw⟩ := Option.isSome_iff_exists.1 h
  simp [runSelection, selectStaged_active, hw]

/-- A staged sweep moves to the empty active slot and starts, and selection runs again. -/
theorem runSelection_of_staged {s : State} {p : Staged} (hp : (selectStaged s).patrol.staged = some p)
    (ha : s.patrol.active = none) (he : s.patrol.engine.selects = true) :
    runSelection s = selectStaged (startSweep p.region p.hostPlaced
      { selectStaged s with patrol := { (selectStaged s).patrol with staged := none } }) := by
  simp [runSelection, promote, selectStaged_active, selectStaged_engine, hp, ha, he]

/-! ## The earliest due time (R71) -/

/-- The earlier of the best due time so far and that of a region, if it waits. -/
def sooner (best : Option Elapsed) (g : Region) : Option Elapsed :=
  if g.waits then
    match best with
    | some t => if elapsedBefore g.status.due t then some g.status.due else some t
    | none => some g.status.due
  else best

theorem earliestDue_eq (s : State) : earliestDue s = s.regions.foldl sooner none := rfl

theorem sooner_of_not_waits {g : Region} (h : g.waits ≠ true) (best : Option Elapsed) : sooner best g = best :=
  if_neg h

/-- What a region leaves as the best is the best before it, or its own due time if it waits. -/
theorem sooner_mem {best : Option Elapsed} {g : Region} {t : Elapsed} (h : t ∈ sooner best g) :
    t ∈ best ∨ g.waits = true ∧ g.status.due = t := by
  unfold sooner at h
  split at h
  · rename_i hw
    split at h
    · split at h
      · exact .inr ⟨hw, Option.some.inj h⟩
      · exact .inl h
    · exact .inr ⟨hw, Option.some.inj h⟩
  · exact .inl h

/-- A due time stays the best beside a region that does not wait or is not due before it. -/
theorem sooner_stays {d : Elapsed} {g : Region} (h : g.waits = true → 0 ≤ elapsedDiff g.status.due d) :
    sooner (some d) g = some d := by
  by_cases hw : g.waits = true
  · simp [sooner, hw, (elapsedBefore_eq_false_iff _ _).2 (h hw)]
  · exact sooner_of_not_waits hw _

/-- The due time of a region that waits becomes the best when the best so far is not before it. -/
theorem sooner_takes {best : Option Elapsed} {g : Region} (hw : g.waits = true)
    (h : ∀ t ∈ best, 0 ≤ elapsedDiff t g.status.due) : sooner best g = some g.status.due := by
  cases best with
  | none => simp [sooner, hw]
  | some t =>
    by_cases hb : elapsedBefore g.status.due t = true
    · simp [sooner, hw, hb]
    · have ht : t = g.status.due :=
        eq_of_elapsedDiff_nonneg (h t rfl) ((elapsedBefore_eq_false_iff _ _).1 (Bool.eq_false_iff.2 hb))
      simp [sooner, hw, ht]

/-- A due time that none is before, and that is the best so far or that of a region that waits, is the earliest. -/
theorem foldl_sooner_eq {d : Elapsed} {l : List Region} (best : Option Elapsed)
    (hbest : ∀ t ∈ best, 0 ≤ elapsedDiff t d)
    (hl : ∀ g ∈ l, g.waits = true → 0 ≤ elapsedDiff g.status.due d)
    (hd : best = some d ∨ ∃ g ∈ l, g.waits = true ∧ g.status.due = d) : l.foldl sooner best = some d := by
  induction l generalizing best with
  | nil => simpa using hd
  | cons g l ih =>
    have hg := hl g List.mem_cons_self
    refine ih (sooner best g) (fun t ht => ?_) (fun x hx => hl x (List.mem_cons_of_mem g hx)) ?_
    · obtain hb | ⟨hw, rfl⟩ := sooner_mem ht
      · exact hbest t hb
      · exact hg hw
    · obtain rfl | ⟨x, hx, hw, rfl⟩ := hd
      · exact .inl (sooner_stays hg)
      · obtain rfl | hx := List.mem_cons.1 hx
        · exact .inl (sooner_takes hw hbest)
        · exact .inr ⟨x, hx, hw, rfl⟩

theorem earliestDue_eq_none {s : State} (h : ∀ g ∈ s.regions, g.waits ≠ true) : earliestDue s = none := by
  rw [earliestDue_eq]
  generalize s.regions = l at h
  induction l with
  | nil => rfl
  | cons g l ih =>
    rw [List.foldl_cons, sooner_of_not_waits (h g List.mem_cons_self)]
    exact ih fun x hx => h x (List.mem_cons_of_mem g hx)

theorem earliestDue_eq_some {s : State} {g : Region} (hg : g ∈ s.regions) (hw : g.waits = true)
    (h : ∀ x ∈ s.regions, x.waits = true → 0 ≤ elapsedDiff x.status.due g.status.due) :
    earliestDue s = some g.status.due :=
  foldl_sooner_eq none (by simp) h (.inr ⟨g, hg, hw, rfl⟩)

theorem arrive_clearing (m : FineTime) (s : State) : (arrive m s).maint.clearing = s.maint.clearing := by
  unfold arrive
  split <;> rfl

/-- REGION_DUE with no region waiting changes nothing (notes/assumptions/5.md). -/
theorem execRegionDue_of_none {s : State} (h : earliestDue s = none) : exec .regionDue s = .next s := by
  show execRegionDue s = _
  simp only [execRegionDue, h]

/-- REGION_DUE brings the earliest due time, and selection unless a clear is in progress (R71, R97, R109). -/
theorem execRegionDue_of_some {s : State} {d : Elapsed} (h : earliestDue s = some d) :
    let v := arrive { us := d, sub := 0 } s
    exec .regionDue s = .next (settle (if s.maint.clearing = true then v else runSelection v)) := by
  intro v
  show execRegionDue s = _
  simp only [execRegionDue, h, reachDue, onMicrosecond, arrive_clearing, v]

/-! ## The region selected (R67, R71) -/

/-- The candidate that comes before every other by due time, class and index is the one chosen (R67, R71). -/
theorem chooseFrom_of_first {s : State} {i : Nat} (hi : i < s.regions.length)
    (hc : (regionAt s i).candidate s.maint.now.us = true)
    (hbefore : ∀ j < i, (regionAt s j).candidate s.maint.now.us = true → (regionAt s i).ahead (regionAt s j) = true)
    (hafter : ∀ j < s.regions.length, i < j → (regionAt s j).candidate s.maint.now.us = true →
      (regionAt s j).ahead (regionAt s i) = false) :
    chooseFrom s.maint.now.us s.regions 0 none = some (i, regionAt s i) := by
  have hsplit : s.regions = s.regions.take i ++ regionAt s i :: s.regions.drop (i + 1) := by
    rw [regionAt_of_lt hi, List.getElem_cons_drop, List.take_append_drop]
  have htake : ∀ x ∈ s.regions.take i, x.candidate s.maint.now.us = true → (regionAt s i).ahead x = true := by
    intro x hx
    obtain ⟨j, hj, rfl⟩ := List.mem_take_iff_getElem.1 hx
    rw [← regionAt_of_lt]
    exact hbefore j (by omega)
  have hdrop : ∀ x ∈ s.regions.drop (i + 1), x.candidate s.maint.now.us = true → x.ahead (regionAt s i) = false := by
    intro x hx
    obtain ⟨j, hj, rfl⟩ := List.mem_drop_iff_getElem.1 hx
    rw [← regionAt_of_lt]
    exact hafter _ (by omega) (by omega)
  have hchosen := chooseFrom_eq_some 0 none hc (by simp) htake hdrop
  rw [← hsplit] at hchosen
  simpa [Nat.min_eq_left hi.le] using hchosen

/-- Selection stages the candidate with the earliest due time, the higher class between equal ones and then the lower
index (R67, R71). -/
theorem selectStaged_of_first {s : State} {i : Nat} (he : s.patrol.engine.selects = true) (hs : s.patrol.staged = none)
    (hi : i < s.regions.length) (hc : (regionAt s i).candidate s.maint.now.us = true)
    (hfirst : ∀ j < s.regions.length, (regionAt s j).candidate s.maint.now.us = true → j ≠ i →
      elapsedDiff s.maint.now.us (regionAt s j).status.due < elapsedDiff s.maint.now.us (regionAt s i).status.due ∨
      elapsedDiff s.maint.now.us (regionAt s j).status.due = elapsedDiff s.maint.now.us (regionAt s i).status.due ∧
        ((regionAt s i).entry.cls.code < (regionAt s j).entry.cls.code ∨
          (regionAt s i).entry.cls = (regionAt s j).entry.cls ∧ i < j)) :
    selectStaged s = setSweepState i .staged { s with
      patrol := { s.patrol with staged := some { region := i, hostPlaced := false } } } := by
  obtain ⟨-, -, -, hagei⟩ := (Region.candidate_iff _ _).1 hc
  refine selectStaged_of_some he hs (chooseFrom_of_first hi hc (fun j hj hcj => ?_) fun j hlen hj hcj => ?_)
  · obtain ⟨-, -, -, hagej⟩ := (Region.candidate_iff _ _).1 hcj
    rw [Region.ahead_iff_of_reached hagei hagej]
    obtain hage | ⟨hage, hclass | ⟨-, hij⟩⟩ := hfirst j (hj.trans hi) hcj hj.ne
    · exact .inl hage
    · exact .inr ⟨hage, hclass⟩
    · exact absurd hij hj.asymm
  · obtain ⟨-, -, -, hagej⟩ := (Region.candidate_iff _ _).1 hcj
    rw [Bool.eq_false_iff, ne_eq, Region.ahead_iff_of_reached hagej hagei]
    obtain hage | ⟨hage, hclass | ⟨hclass, -⟩⟩ := hfirst j hlen hcj hj.ne'
    · omega
    · omega
    · rw [hclass]
      omega

/-- Settles O36: the choice of the first candidate, the earliest due time as the least of those that wait, and the two
cases of the active slot. -/
theorem selectionTakesTheEarliestDue : Obligations.SelectionTakesTheEarliestDue := by
  refine ⟨fun s => ⟨?_, ?_⟩, fun s => ⟨fun h => ?_, ?_, runSelection_of_active, fun p => runSelection_of_staged⟩⟩
  · rintro (hselects | hnone)
    · exact selectStaged_of_not_selects fun ⟨he, hs⟩ => hselects ⟨hs, (EngineState.selects_iff _).1 he⟩
    · refine selectStaged_of_none (chooseFrom_eq_none (fun g hg hc => ?_) 0)
      obtain ⟨i, hi, rfl⟩ := List.getElem_of_mem hg
      rw [← regionAt_of_lt hi, Region.candidate_iff] at hc
      exact hnone i ⟨hi, hc⟩
  · rintro ⟨hs, he⟩ i ⟨hi, hc⟩ hfirst
    exact selectStaged_of_first ((EngineState.selects_iff _).2 he) hs hi ((Region.candidate_iff _ _).2 hc)
      fun j hj hc hne => hfirst j ⟨hj, (Region.candidate_iff _ _).1 hc⟩ hne
  · exact execRegionDue_of_none (earliestDue_eq_none fun g hg hw => h g hg ((Region.waits_iff g).1 hw))
  · intro g hg hvalid hpatrol hidle hleast _
    have hw := (Region.waits_iff g).2 ⟨hvalid, hpatrol, hidle⟩
    refine execRegionDue_of_some (earliestDue_eq_some hg hw fun x hx hw => ?_)
    obtain ⟨hvalid, hpatrol, hidle⟩ := (Region.waits_iff x).1 hw
    exact hleast x hx hvalid hpatrol hidle

end Sys2Proof.Machine
end

section
/-! O57: the decision on REGION_LOAD (R59, R60, R194). -/

namespace Sys2Proof.Machine

open Sys2Proof

/-! ## The entry of a REGION_LOAD (R60, R194) -/

theorem clampTo_eq {low high : Nat} (h : low ≤ high) (v : Nat) : clampTo (low, high) v = max low (min high v) := by
  unfold clampTo
  split
  · omega
  · split <;> omega

theorem classOf?_code (c : RegionClass) : classOf? c.code = some c := by cases c <;> rfl

theorem modeOf?_code (m : AccessMode) : modeOf? m.code = some m := by cases m <;> rfl

/-- A two-bit field of a word as a number. -/
theorem extractLsb'_two_toNat (w : Word32) (start : Nat) : (w.extractLsb' start 2).toNat = w.toNat / 2 ^ start % 4 := by
  simp [BitVec.extractLsb'_toNat, Nat.shiftRight_eq_div_pow]

theorem word_toNat (w : Word32) : word w.toNat = w := BitVec.ofNat_toNat ..

/-- The entry that the argument words of a REGION_LOAD give, its class and mode named. -/
def entryOfWords (base length period burst packed : Word32) (cls : RegionClass) (mode : AccessMode) : RegionEntry :=
  { valid := true, base := base.toNat, length := length.toNat, patrol := packed.getLsbD 0
    period := max 1 (min 65535 period.toNat), cls := cls, mode := mode, burst := max 2 (min 16 burst.toNat)
    policy := if packed.getLsbD 5 then .windowed else .immediate, locked := packed.getLsbD 6
    sweepRecords := packed.getLsbD 7 }

theorem loadedEntry_eq {index base length period burst packed : Word32} {more : List Word32} {cls : RegionClass}
    {mode : AccessMode} (hcls : cls.code = packed.toNat / 2 % 4) (hmode : mode.code = packed.toNat / 8 % 4) :
    loadedEntry (index :: base :: length :: period :: burst :: packed :: more) =
      some (entryOfWords base length period burst packed cls mode) := by
  have hclass : classOf? (packed.extractLsb' 1 2).toNat = some cls := by
    rw [extractLsb'_two_toNat, ← classOf?_code cls, hcls, pow_one]
  have hnamed : modeOf? (packed.extractLsb' 3 2).toNat = some mode := by
    rw [extractLsb'_two_toNat, ← modeOf?_code mode, hmode, show 2 ^ 3 = 8 by rfl]
  simp only [loadedEntry, List.getD_cons_succ, List.getD_cons_zero, hclass, hnamed, argOf_succ, argOf_zero,
    clampTo_eq (show 1 ≤ 65535 by decide), clampTo_eq (show 2 ≤ 16 by decide), entryOfWords]

/-! ## The region met (R59) -/

/-- The region met is the lowest other valid one that shares a line with the entry. -/
theorem overlapOf_eq_some {s : State} {i j : Nat} {e : RegionEntry} (hj : j ≤ 31) (hne : j ≠ i)
    (hvalid : (regionAt s j).entry.valid = true) (hmeets : e.meets (regionAt s j).entry = true)
    (hlower : ∀ k < j, k ≠ i → (regionAt s k).entry.valid = true → e.meets (regionAt s k).entry = false) :
    overlapOf s i e = some j := by
  rw [overlapOf, List.find?_range_eq_some]
  refine ⟨by simp [hne, hvalid, hmeets], by simp [Config.regionCount]; omega, fun k hk => ?_⟩
  simpa [imp_iff_not_or, or_assoc] using hlower k hk

theorem overlapOf_eq_none {s : State} {i : Nat} {e : RegionEntry}
    (h : ∀ j ≤ 31, j ≠ i → (regionAt s j).entry.valid = true → e.meets (regionAt s j).entry = false) :
    overlapOf s i e = none := by
  rw [overlapOf, List.find?_range_eq_none]
  intro j hj
  simpa [imp_iff_not_or, or_assoc] using h j (by simp [Config.regionCount] at hj; omega)

/-! ## The decision (R59, R60) -/

section

variable {s : State} {args : List Word32} {e : RegionEntry} (hset : s.port.geomSet = true)
  (he : loadedEntry args = some e)
  (hfits : ¬ (31 < argOf args 0 ∨ e.length = 0 ∨ s.port.geom.capacity < e.base + e.length))
include hset he hfits

theorem doRegionLoad_overlap {j : Nat} (ho : overlapOf s (argOf args 0) e = some j) :
    doRegionLoad args s = { status := .overlap, results := [word j], state := s } := by
  simp only [doRegionLoad, hset, he, hfits, ho, not_true_eq_false, if_false]

theorem doRegionLoad_busy (ho : overlapOf s (argOf args 0) e = none)
    (hb : (regionAt s (argOf args 0)).status.state ≠ .idle) :
    doRegionLoad args s = { status := .busy, results := [], state := s } := by
  simp only [doRegionLoad, hset, he, hfits, ho, not_true_eq_false, if_false, if_pos hb, refuse]

theorem doRegionLoad_accept (ho : overlapOf s (argOf args 0) e = none)
    (hb : (regionAt s (argOf args 0)).status.state = .idle) :
    doRegionLoad args s = { status := .ok, results := regionLoadWords (argOf args 0) e
                            state := loadRegion (argOf args 0) e s } := by
  simp only [doRegionLoad, hset, he, hfits, ho, hb, not_true_eq_false, ne_eq, if_false, accept]

end

/-- Settles O57: the argument words give the entry, and the decision is that of the region met, of the region's own
sweep, or an acceptance. -/
theorem regionLoadTakesTheRegion : Obligations.RegionLoadTakesTheRegion := by
  intro s q index base length period burst packed more cls mode hq hargs hset hindex hlength hcapacity hcls hmode e
  have hn : 6 ≤ q.args.length := by simp [hargs]
  have he : loadedEntry q.args = some e := hargs ▸ loadedEntry_eq hcls hmode
  have hi : argOf q.args 0 = index.toNat := by rw [hargs, argOf_zero]
  have hlen : length.toNat ≠ 0 := fun h => hlength (BitVec.eq_of_toNat_eq h)
  have hfits : ¬ (31 < argOf q.args 0 ∨ e.length = 0 ∨ (dispatched s).port.geom.capacity < e.base + e.length) := by
    rw [hi]
    rintro (h | h | h)
    · exact absurd h (Nat.not_lt.2 hindex)
    · exact hlen h
    · exact absurd h (Nat.not_lt.2 hcapacity)
  refine ⟨fun j hj hne hvalid hmeets hlower => ?_, fun hnone => ?_⟩
  · exact serveSettled_next hq hn (doRegionLoad_overlap (s := dispatched s) hset he hfits
      (by rw [hi]; exact overlapOf_eq_some hj hne hvalid hmeets hlower))
  · have ho : overlapOf (dispatched s) (argOf q.args 0) e = none := by rw [hi]; exact overlapOf_eq_none hnone
    refine ⟨fun hbusy => ?_, fun hidle => ?_⟩
    · exact serveSettled_next hq hn (doRegionLoad_busy (s := dispatched s) hset he hfits ho (by rw [hi]; exact hbusy))
    · have hwords : regionLoadWords index.toNat e =
          [index, base, length, word e.period, word e.burst, word (packRegion e)] := by
        simp only [regionLoadWords, word_toNat, e]
      rw [← hwords, ← hi]
      exact serveSettled_next hq hn (doRegionLoad_accept (s := dispatched s) hset he hfits ho (by rw [hi]; exact hidle))

end Sys2Proof.Machine
end

section
/-! The operations that leave the engine state, the slots, the window and the sweep states of the regions as they stand:
frames, grants, accesses performed, reads decoded and the requests of the other blocks. One lemma per operation. -/

namespace Sys2Proof.Machine

open Sys2Proof

/-! ## The relation -/

/-- All that EngineSame looks at. -/
def State.engineView (s : State) :=
  (s.patrol.engine, s.patrol.active, s.patrol.staged, s.patrol.held, s.window, s.regions)

/-- An operation that moves nothing EngineSame looks at. -/
theorem EngineSame.aside {s t : State} (h : t.engineView = s.engineView) : EngineSame s t := by
  simp only [State.engineView, Prod.mk.injEq] at h
  obtain ⟨hengine, hactive, hstaged, hheld, hwindow, hregions⟩ := h
  exact ⟨hengine, by rw [hwindow], by rw [hactive], by rw [hstaged], by rw [hheld], by rw [hregions]⟩

theorem EngineSame.ite {p : Prop} [Decidable p] {s a b : State} (h : EngineSame s a) (k : EngineSame s b) :
    EngineSame s (if p then a else b) := by split <;> assumption

theorem EngineSame.foldl {α : Type} {f : State → α → State} (hf : ∀ s a, EngineSame s (f s a)) (l : List α) (s : State) :
    EngineSame s (l.foldl f s) := by
  induction l generalizing s with
  | nil => exact .refl s
  | cons a l ih => exact (hf s a).trans (ih _)

theorem Watched.engine {s t : State} (h : Watched s t) : EngineSame s t := by
  refine .aside ?_
  rw [h.2.2.2.2]
  rfl

theorem Internal.engine {s t : State} (h : Internal s t) : EngineSame s t := by
  obtain ⟨-, -, -, -, -, -, -, -, -, e⟩ := h
  refine .aside ?_
  rw [e]
  rfl

theorem EngineSame.count (c : Ctr) (s : State) : EngineSame s (count c s) := .aside rfl

theorem EngineSame.record (r : Record) (s : State) : EngineSame s (handRecord r s) := (handRecord_noted r s).engine

theorem EngineSame.raise (c : Cause) (s : State) : EngineSame s (raise c s) := (raise_alerted c s).engine

theorem EngineSame.reply (f : ReturnFrame) (s : State) : EngineSame s (handReturn f s) := .aside rfl

theorem EngineSame.take (line : Nat) (kind : AccessKind) (phase : Phase) (s : State) :
    EngineSame s (takeAccess line kind phase s) := .aside rfl

theorem EngineSame.port (s : State) (p : Port) : EngineSame s { s with port := p } := .aside rfl

theorem EngineSame.report (s : State) (p : Report) : EngineSame s { s with report := p } := .aside rfl

theorem EngineSame.fault (s : State) (f : FaultTable) : EngineSame s { s with fault := f } := .aside rfl

theorem EngineSame.hammer (s : State) (h : Hammer) : EngineSame s { s with hammer := h } := .aside rfl

/-- A region's status changed but for its sweep state (R57). -/
theorem EngineSame.region (i : Nat) (g : Region) (s : State) (h : g.standing = (regionAt s i).standing) :
    EngineSame s (setRegion i g s) := by
  refine ⟨rfl, rfl, rfl, rfl, rfl, ?_⟩
  rw [setRegion_regions, List.map_set, h]
  refine List.ext_getElem (by simp) fun n hn hm => ?_
  rw [List.getElem_set]
  split
  · rename_i hi
    subst hi
    simp only [List.length_map] at hm
    simp [regionAt, hm]
  · rfl

/-- Times kept move, and no sweep does (R196). -/
theorem setNow_engine (t : FineTime) (s : State) : EngineSame s (setNow t s) := by
  refine ⟨rfl, ?_, ?_, rfl, ?_, ?_⟩
  · simp [setNow]
  · simp [setNow, Function.comp_def, Sweep.keep]
  · simp [setNow, Function.comp_def, Sweep.keep]
  · simp [setNow, Function.comp_def, Region.keep, Region.standing]

theorem arrive_engine (t : FineTime) (s : State) : EngineSame s (arrive t s) := .ite (setNow_engine t s) (.refl s)

/-! ## Frames and the DRAM Port -/

theorem discardFrame_engine (s : State) : EngineSame s (discardFrame s) := (EngineSame.count _ s).trans (.raise _ _)

theorem reviewDrain_engine (s : State) : EngineSame s (reviewDrain s) := by
  rw [reviewDrain_eq]
  exact .aside rfl

theorem wbCancel_engine (line : Nat) (s : State) : EngineSame s (wbCancel line s) := (wbCancel_noted line s).engine

theorem portRead_engine (tag line : Nat) (s : State) : EngineSame s (portRead tag line s) := by
  unfold portRead takeRead
  repeat' split
  all_goals exact .aside rfl

theorem failLock_engine (source : Source) (tag region line : Nat) (s : State) :
    EngineSame s (failLock source tag region line s) :=
  (EngineSame.reply _ s).trans ((EngineSame.record _ _).trans ((EngineSame.raise _ _).trans (.count _ _)))

theorem takeWrite_engine (tag line : Nat) (data : Data) (s : State) : EngineSame s (takeWrite tag line data s) :=
  (wbCancel_engine line s).trans ((EngineSame.take _ _ _ _).trans (reviewDrain_engine _))

theorem takeMasked_engine (tag line : Nat) (data : Data) (mask : BitVec 64) (s : State) :
    EngineSame s (takeMasked tag line data mask s) := by
  unfold takeMasked
  split
  · exact (EngineSame.count _ s).trans ((wbCancel_engine _ _).trans ((EngineSame.take _ _ _ _).trans (reviewDrain_engine _)))
  · exact (EngineSame.take _ _ _ s).trans (reviewDrain_engine _)

theorem testMask_engine (tag line : Nat) (data : Data) (mask : BitVec 64) (s : State) :
    EngineSame s (testMask tag line data mask s) :=
  .ite (.reply _ s) (.ite (takeWrite_engine tag line data s) (takeMasked_engine tag line data mask s))

theorem portWrite_engine (source : Source) (tag line : Nat) (permit : Bool) {passed : State → State}
    (hp : ∀ s, EngineSame s (passed s)) (s : State) : EngineSame s (portWrite source tag line permit passed s) := by
  unfold portWrite
  split
  · exact .aside rfl
  · split
    · exact failLock_engine _ _ _ _ s
    · exact hp s

theorem takeRequest_engine (tag code : Nat) (args : List Word32) (s : State) :
    EngineSame s (takeRequest tag code args s) := .ite (.aside rfl) (.aside rfl)

theorem frameLeft_engine (f : ReturnFrame) (rest : List ReturnFrame) (s : State) : EngineSame s (frameLeft f rest s) := by
  unfold frameLeft releaseTag
  split <;> exact .aside rfl

/-! ## Grants -/

theorem openRow_engine (rank bank row : Nat) (r : Requester) (s : State) : EngineSame s (openRow rank bank row r s) := by
  obtain ⟨m, -, hw, -⟩ := openRow_spec rank bank row r s
  exact (EngineSame.port s _).trans hw.engine

theorem openDouble_engine (rank bank : Nat) (double : Option Nat) (r : Requester) (s : State) :
    EngineSame s (openDouble rank bank double r s) := by
  unfold openDouble
  split
  · exact (EngineSame.count _ s).trans (openRow_engine _ _ _ _ _)
  · exact .refl s

theorem grant_engine (w : Winner) (s : State) : EngineSame s (grant w s) := by
  cases w with
  | access a cls passes =>
    show EngineSame s (grantAccess a cls passes s)
    rw [grantAccess_eq]
    exact (EngineSame.aside rfl : EngineSame s (countGrant cls passes (markedGrant s a))).trans
      ((openRow_engine _ _ _ _ _).trans (openDouble_engine _ _ _ _ _))
  | refresh rank => exact .aside rfl

/-! ## Accesses performed -/

theorem restartHold_engine (rank bank row : Nat) (s : State) : EngineSame s (restartHold rank bank row s) := by
  obtain ⟨m, -, e⟩ := restartHold_spec rank bank row s
  rw [e]
  exact .aside rfl

theorem finishAccess_engine (a : Access) (s : State) : EngineSame s (finishAccess a s) :=
  (EngineSame.port s _).trans (restartHold_engine _ _ _ _)

theorem writeLine_engine (a : Access) (data : Data) (form : Form) (s : State) :
    EngineSame s (writeLine a data form s) := by
  obtain ⟨m, -, e⟩ := writeLine_spec a data form s
  rw [e]
  exact .aside rfl

theorem written_engine (a : Access) (data : Data) (form : Form) (s : State) :
    EngineSame s (finishAccess a (writeLine a data form s)) :=
  (writeLine_engine a data form s).trans (finishAccess_engine a _)

theorem handDemandReturn_engine (tag : Nat) (f : ReturnFrame) (s : State) :
    EngineSame s (handDemandReturn tag f s) := .ite (.aside rfl) (.reply f s)

theorem answeredWrite_engine (a : Access) (tag : Nat) (data : Data) (form : Form) (status : AckStatus) (s : State) :
    EngineSame s (answeredWrite a tag data form status s) :=
  (written_engine a data form s).trans ((reviewDrain_engine _).trans (handDemandReturn_engine _ _ _))

theorem entryWritten_engine (a : Access) (e : WbEntry) (s : State) : EngineSame s (entryWritten a e s) :=
  (written_engine a e.data e.kind.form s).trans (.aside rfl)

theorem recordWritten_engine (a : Access) (n : Word32) (data : Data) (s : State) :
    EngineSame s (recordWritten a n data s) :=
  (written_engine a data .fresh s).trans (recordPerformed_noted n _).engine

theorem spareWritten_engine (a : Access) (data : Data) (form : Form) (s : State) :
    EngineSame s (spareWritten a data form s) :=
  (written_engine a data form s).trans ((EngineSame.count _ _).trans (copyWritten_inner _).engine)

/-! ## Reads decoded -/

theorem handEvent_engine (ev : Option FaultEvent) (s : State) : EngineSame s (handEvent ev s) :=
  (handEvent_inner ev s).engine

theorem handDecoded_engine (line : Nat) (d : Decoded) (policy : Policy) (s : State) :
    EngineSame s (handDecoded line d policy s) := by
  unfold handDecoded handWriteback
  repeat' split
  all_goals exact .aside rfl

theorem countSweepEvent_engine (ev : Option FaultEvent) (s : State) : EngineSame s (countSweepEvent ev s) := by
  unfold countSweepEvent
  split
  · exact .region _ _ s rfl
  · exact .refl s

theorem lineDone_engine (s : State) : EngineSame s (lineDone s) :=
  ⟨rfl, rfl, by simp [lineDone, Function.comp_def], rfl, by simp [lineDone, Function.comp_def], rfl⟩

theorem demandDecoded_engine (a : Access) (tag : Nat) (d : Decoded) (s : State) :
    EngineSame s (demandDecoded a tag d s) :=
  ((finishAccess_engine a s).trans (handDemandReturn_engine _ _ _)).trans
    ((handEvent_engine _ _).trans (handDecoded_engine _ _ _ _))

theorem patrolDecoded_engine (a : Access) (owned : Bool) (d : Decoded) (s : State) :
    EngineSame s (patrolDecoded a owned d s) :=
  ((finishAccess_engine a s).trans (handEvent_engine _ _)).trans ((EngineSame.ite (countSweepEvent_engine _ _) (.refl _)).trans
    ((handDecoded_engine _ _ _ _).trans (.ite (lineDone_engine _) (.refl _))))

theorem targetedDecoded_engine (a : Access) (d : Decoded) (s : State) : EngineSame s (targetedDecoded a d s) :=
  ((finishAccess_engine a s).trans (handEvent_engine _ _)).trans (.ite (handDecoded_engine _ _ _ _) (.refl _))

theorem mergeUnit_engine (a : Access) (tag : Nat) (data : Data) (mask : BitVec 64) (d : Decoded) (s : State) :
    EngineSame s (mergeUnit a tag data mask d s) := (EngineSame.port s _).trans (restartHold_engine _ _ _ _)

theorem copyDecoded_engine (a : Access) (d : Decoded) (s : State) : EngineSame s (copyDecoded a d s) :=
  ((finishAccess_engine a s).trans (.port _ _)).trans ((countCopied_inner _ _).engine.trans (handEvent_engine _ _))

/-! ## The requests of the other blocks -/

section

variable (args : List Word32) (s : State)

theorem acceptPart_engine (part : Nat) (results : List Word32) : EngineSame s (acceptPart part results s).state := by
  rw [acceptPart_state]
  exact .refl s

theorem doReadStats_engine : EngineSame s (doReadStats args s).state := by
  unfold doReadStats
  dsimp only
  split <;> exact .refl s

theorem doGoOnline_engine : EngineSame s (doGoOnline args s).state := by
  unfold doGoOnline
  split <;> exact .aside rfl

theorem doRegionRead_engine : EngineSame s (doRegionRead args s).state := by
  unfold doRegionRead
  split
  · exact .refl s
  · exact acceptPart_engine s _ _

theorem doFaultRead_engine : EngineSame s (doFaultRead args s).state := by
  unfold doFaultRead
  split
  · exact .refl s
  · exact acceptPart_engine s _ _

theorem doFaultClear_engine : EngineSame s (doFaultClear args s).state := by
  unfold doFaultClear
  repeat' split
  all_goals exact .aside rfl

theorem doDeviceRead_engine : EngineSame s (doDeviceRead args s).state := by
  unfold doDeviceRead
  split
  · exact .refl s
  · exact acceptPart_engine s _ _

theorem doRetireRow_engine : EngineSame s (doRetireRow args s).state := by
  unfold doRetireRow
  dsimp only
  repeat' split
  · exact .refl s
  · exact .refl s
  · exact .refl s
  · exact .count _ s
  · exact .count _ s
  · rename_i hroom
    exact (takeJob_inner _ _ _ _ _ s (Nat.lt_of_not_le hroom)).engine

theorem doRemapLoad_engine : EngineSame s (doRemapLoad args s).state := by
  unfold doRemapLoad
  dsimp only
  repeat' split
  all_goals exact .aside rfl

theorem doSpareKill_engine : EngineSame s (doSpareKill args s).state := by
  unfold doSpareKill
  dsimp only
  repeat' split
  all_goals exact .aside rfl

theorem doRemapRead_engine : EngineSame s (doRemapRead args s).state := by
  unfold doRemapRead
  dsimp only
  repeat' split
  all_goals exact .refl s

theorem doErase_engine : EngineSame s (doErase args s).state := by
  unfold doErase
  dsimp only
  split
  · exact .refl s
  · split
    · exact .refl s
    · rename_i hplace
      split
      · exact .refl s
      · rename_i hroom
        simp only [not_or, Bool.not_eq_true] at hplace
        obtain ⟨-, -, hfresh⟩ := hplace
        exact (addErasure_inner _ _ 1 s hfresh (Nat.lt_of_not_le hroom)).engine

theorem doUnerase_engine : EngineSame s (doUnerase args s).state := by
  have hremove : ∀ rank device, EngineSame s (removeErasure rank device s) := fun rank device =>
    (EngineSame.aside rfl : EngineSame s (count .devicesUnerased (setDevice rank device {} { s with repair := { s.repair with
      erasures := s.repair.erasures.set rank ((erasureSet s rank).erase device) } }))).trans (eraseRank_inner _ _).engine
  unfold doUnerase
  dsimp only
  repeat' split
  · exact .refl s
  · exact .refl s
  · exact .refl s
  · rw [accept_state]
    exact hremove _ _

theorem doReportSetup_engine : EngineSame s (doReportSetup args s).state := by
  have hring : ∀ base sizeExp, EngineSame s (setupRing base sizeExp s) := fun _ _ =>
    (EngineSame.report s _).trans (.report _ _)
  unfold doReportSetup
  dsimp only
  repeat' split
  · exact .refl s
  · exact .refl s
  · exact .refl s
  · exact hring _ _

theorem doReportRelease_engine : EngineSame s (doReportRelease args s).state := by
  unfold doReportRelease
  dsimp only
  repeat' split
  all_goals exact .aside rfl

theorem placeRecord_engine (r : Record) : EngineSame s (placeRecord r s) :=
  ((EngineSame.report s _).trans (wbCancel_engine _ _)).trans ((EngineSame.take _ _ _ _).trans (.count _ _))

theorem doReportRestart_engine : EngineSame s (doReportRestart args s).state := by
  unfold doReportRestart
  repeat' split
  · exact .refl s
  · exact .refl s
  · exact .refl s
  · exact ((EngineSame.report s _).trans (placeRecord_engine _ _)).trans (.report _ _)

theorem doCauseSet_engine : EngineSame s (doCauseSet args s).state := by
  unfold doCauseSet
  split
  · exact .refl s
  · exact (raiseSet_alerted _ s).engine

theorem doMaskSet_engine : EngineSame s (doMaskSet args s).state := by
  unfold doMaskSet
  dsimp only
  split <;> exact .aside rfl

theorem doMaskClear_engine : EngineSame s (doMaskClear args s).state := by
  unfold doMaskClear
  dsimp only
  split
  · exact .refl s
  · exact (EngineSame.report s _).trans (testAlert_alerted _).engine

end

end Sys2Proof.Machine
end

section
/-! O8: every command and every tick keeps the engine state in agreement with the slots and the window, and the sweep
states of the regions in agreement with the three places. -/

namespace Sys2Proof.Machine

open Sys2Proof

/-! ## The relation -/

/-- What every command keeps of the engine: its state agrees with the slots and the window (R69, R70), and then the
regions' sweep states agree with the three places (R57). -/
structure EngineKept (s t : State) : Prop where
  legal : EngineLegal s → EngineLegal t
  agree : EngineLegal s → SlotsAgree s → SlotsAgree t

theorem EngineKept.refl (s : State) : EngineKept s s := ⟨id, fun _ => id⟩

theorem EngineKept.trans {a b c : State} (h : EngineKept a b) (k : EngineKept b c) : EngineKept a c :=
  ⟨k.legal ∘ h.legal, fun hl ha => k.agree (h.legal hl) (h.agree hl ha)⟩

theorem EngineKept.ite {p : Prop} [Decidable p] {s a b : State} (h : EngineKept s a) (k : EngineKept s b) :
    EngineKept s (if p then a else b) := by split <;> assumption

theorem EngineSame.kept {s t : State} (h : EngineSame s t) : EngineKept s t :=
  ⟨h.legal, fun _ => h.2.2.agree⟩

theorem settle_engineKept (s : State) : EngineKept s (settle s) := ⟨settle_legal s, fun _ => settle_agree s⟩

theorem runSelection_engineKept (s : State) : EngineKept s (runSelection s) :=
  ⟨runSelection_legal s, fun _ => runSelection_agree s⟩

theorem reviewOverride_engineKept (s : State) : EngineKept s (reviewOverride s) :=
  ⟨reviewOverride_legal s, fun _ => (reviewOverride_slots s).agree⟩

theorem closeWindow_engineKept (s : State) : EngineKept s (closeWindow s) :=
  ⟨closeWindow_legal s, fun _ => (closeWindow_slots s).agree⟩

theorem overrideWindow_engineKept (a b : Elapsed) (s : State) : EngineKept s (overrideWindow a b s) :=
  ⟨overrideWindow_legal a b s, fun _ => (overrideWindow_slots a b s).agree⟩

/-! ## The active slot by the engine state (R69) -/

/-- Outside RUNNING and PAUSED the active slot is empty. -/
theorem EngineLegal.active_none {s : State} (h : EngineLegal s) (hr : s.patrol.engine ≠ .running)
    (hp : s.patrol.engine ≠ .paused) : s.patrol.active = none := by
  obtain ⟨-, -, hactive, -⟩ := h
  rw [← Option.not_isSome_iff_eq_none]
  exact fun ha => (hactive ha).elim hr hp

/-- Outside HALTED nothing is held. -/
theorem EngineLegal.held_none_of_ne {s : State} (h : EngineLegal s) (hh : s.patrol.engine ≠ .halted) :
    s.patrol.held = none := by
  obtain ⟨-, -, -, hheld⟩ := h
  rw [← Option.not_isSome_iff_eq_none]
  exact fun hs => hh (hheld hs)

/-- An engine neither RUNNING nor PAUSED is as it should be with the active slot empty, and a sweep held in HALTED only. -/
theorem engineLegal_of_stopped {s : State} (hr : s.patrol.engine ≠ .running) (hp : s.patrol.engine ≠ .paused)
    (ha : s.patrol.active = none) (hh : s.patrol.held.isSome → s.patrol.engine = .halted) : EngineLegal s :=
  ⟨fun h => absurd h hr, fun h => absurd h hp, fun h => by simp [ha] at h, hh⟩

/-- A stopped engine changes its state: the slots stay. -/
theorem setEngine_engineKept {e : EngineState} {s : State} (hs : s.patrol.engine ≠ .running)
    (hs' : s.patrol.engine ≠ .paused) (hr : e ≠ .running) (hp : e ≠ .paused) (hh : s.patrol.held = none) :
    EngineKept s (setEngine e s) :=
  ⟨fun hl => engineLegal_of_stopped hr hp (hl.active_none hs hs')
    (fun h => by rw [setEngine_patrol] at h; simp [hh] at h), fun _ ha => ha⟩

/-! ## The requests of the Patrol Engine (R84 to R89) -/

theorem doScrubEnable_engineKept (args : List Word32) (s : State) : EngineKept s (doScrubEnable args s).state := by
  unfold doScrubEnable
  split
  · rename_i hdis
    refine EngineKept.trans (b := setEngine .idle s) ⟨fun hl => ?_, fun _ ha => ha⟩ (runSelection_engineKept _)
    have hheld := hl.held_none_of_ne (by simp [hdis])
    exact (setEngine_engineKept (e := .idle) (by simp [hdis]) (by simp [hdis]) nofun nofun hheld).legal hl
  · exact .refl s

theorem emptySlots_patrol (s : State) :
    (emptySlots s).patrol = { s.patrol with active := none, staged := none, held := none } := by
  simp only [emptySlots, abandonReads, idleRegion_eq]

theorem doScrubDisable_engineKept (args : List Word32) (s : State) : EngineKept s (doScrubDisable args s).state := by
  unfold doScrubDisable
  split
  · exact .refl s
  · refine EngineKept.trans (b := setEngine .disabled (emptySlots s)) ⟨fun _ => ?_, fun _ => emptySlots_agree s⟩
      (reviewOverride_engineKept _)
    refine engineLegal_of_stopped nofun nofun ?_ ?_ <;> simp [emptySlots_patrol]

/-- A region out of the table reads as one never loaded. -/
theorem regionAt_lt_of_valid {s : State} {i : Nat} (h : (regionAt s i).entry.valid = true) : i < s.regions.length := by
  by_contra hi
  simp [regionAt, List.getD, Nat.not_lt.1 hi] at h

theorem stageHost_patrol (i : Nat) (s : State) :
    (stageHost i s).patrol = { s.patrol with staged := some { region := i, hostPlaced := true } } := by
  simp only [stageHost, idleRegion_eq, setSweepState_patrol]

theorem stageHost_window (i : Nat) (s : State) : (stageHost i s).window = s.window := by
  simp only [stageHost, idleRegion_eq, setSweepState_window]

theorem doSweepNow_engineKept (args : List Word32) (s : State) : EngineKept s (doSweepNow args s).state := by
  unfold doSweepNow
  dsimp only
  split
  · exact .refl s
  · rename_i hvalid
    split
    · exact .refl s
    · rename_i hplaced
      simp only [not_or, not_not] at hvalid hplaced
      obtain ⟨-, hvalid⟩ := hvalid
      obtain ⟨-, hactive, hheld, -⟩ := hplaced
      refine EngineKept.trans (b := stageHost (argOf args 0) s) ⟨fun hl => ?_, fun _ ha => ?_⟩
        (runSelection_engineKept _)
      · simpa only [EngineLegal, stageHost_patrol, stageHost_window] using hl
      · exact stageHost_agree _ s ha (regionAt_lt_of_valid hvalid) hvalid hactive hheld

theorem holdSweep_active (s : State) : (holdSweep s).patrol.active = none := by
  unfold holdSweep
  split
  · rfl
  · assumption

theorem doSweepHalt_engineKept (args : List Word32) (s : State) : EngineKept s (doSweepHalt args s).state := by
  unfold doSweepHalt
  split
  · exact .refl s
  · rename_i hstate
    rw [not_or] at hstate
    refine EngineKept.trans (b := setEngine .halted (holdSweep s)) ⟨fun _ => ?_, fun hl ha => ?_⟩
      (reviewOverride_engineKept _)
    · exact engineLegal_of_stopped nofun nofun (holdSweep_active s) fun _ => rfl
    · exact holdSweep_agree s ha (hl.held_none_of_ne hstate.1)

/-- A sweep put into the active slot, with nothing held, by an engine RUNNING or PAUSED as no window or one is open. -/
theorem engineLegal_of_sweeping {s : State} {w : Sweep} (ha : s.patrol.active = some w) (hh : s.patrol.held = none)
    (he : s.patrol.engine = if s.quiet then .paused else .running) : EngineLegal s := by
  cases hw : s.window <;> simp [EngineLegal, State.quiet, hw, ha, hh] at he ⊢ <;> simp [he]

theorem doSweepResume_engineKept (args : List Word32) (s : State) : EngineKept s (doSweepResume args s).state := by
  unfold doSweepResume resumePatrol
  split
  · rename_i hhalted
    have hstopped : s.patrol.engine ≠ .running ∧ s.patrol.engine ≠ .paused := by simp [hhalted]
    split
    · rename_i w hheld
      refine EngineKept.trans (b := returnSweep w s) ⟨fun _ => ?_, fun hl ha => ?_⟩ (runSelection_engineKept _)
      · exact reviewOverride_legal _ ((recompute_engine _).legal (engineLegal_of_sweeping rfl rfl rfl))
      · exact returnSweep_agree w s ha hheld (hl.active_none hstopped.1 hstopped.2)
    · rename_i hheld
      exact (setEngine_engineKept (e := .idle) hstopped.1 hstopped.2 nofun nofun hheld).trans (runSelection_engineKept _)
  · exact .refl s

/-! ## The window (R99 to R103) -/

theorem setWindow_engineKept (endTime : Elapsed) (s : State) : EngineKept s (setWindow endTime s) := by
  unfold setWindow
  split
  · refine EngineKept.trans (b := openWindow endTime s) ⟨fun ⟨hrunning, hpaused, hactive, hheld⟩ => ?_, fun _ => ?_⟩
      (EngineSame.count _ _).kept
    · cases he : s.patrol.engine <;> simp_all [EngineLegal, openWindow]
    · exact SlotSame.agree ⟨by simp [openWindow, Function.comp_def, Sweep.stopBurst], rfl, rfl, rfl⟩
  · rename_i win hw
    exact EngineSame.kept ⟨rfl, by simp [hw], .refl s⟩

theorem doQuietBegin_engineKept (args : List Word32) (s : State) : EngineKept s (doQuietBegin args s).state :=
  (setWindow_engineKept _ s).trans (reviewOverride_engineKept _)

theorem doQuietEnd_engineKept (args : List Word32) (s : State) : EngineKept s (doQuietEnd args s).state := by
  unfold doQuietEnd
  split
  · exact .refl s
  · exact (closeWindow_engineKept s).trans (EngineSame.count _ _).kept

/-! ## The Region Table (R59 to R62) -/

/-- An IDLE region is loaded or cleared: it stays IDLE (R60, R62). -/
theorem setRegion_engineKept {i : Nat} {g : Region} {s : State} (hi : (regionAt s i).status.state = .idle)
    (hg : g.status.state = .idle) : EngineKept s (setRegion i g s) := by
  refine ⟨id, fun _ ha => ?_⟩
  rw [slotsAgree_iff] at ha ⊢
  rw [setRegion_regions, List.map_set, show g.standing = (g.entry.valid, .idle) from Prod.ext rfl hg]
  refine ha.entry (fun x hx => ?_) _
  by_cases hlt : i < s.regions.length
  · rw [standing_at s i hlt, Option.mem_some] at hx
    rw [← hx]
    exact hi
  · simp [hlt] at hx

theorem doRegionLoad_engineKept (args : List Word32) (s : State) : EngineKept s (doRegionLoad args s).state := by
  unfold doRegionLoad
  dsimp only
  repeat' split
  · exact .refl s
  · exact .refl s
  · exact .refl s
  · exact .refl s
  · exact .refl s
  · rename_i hidle
    exact (setRegion_engineKept (by simpa using hidle) rfl).trans (runSelection_engineKept _)

theorem doRegionClear_engineKept (args : List Word32) (s : State) : EngineKept s (doRegionClear args s).state := by
  unfold doRegionClear
  dsimp only
  repeat' split
  · exact .refl s
  · exact .refl s
  · rename_i hidle
    have hidle := not_not.1 hidle
    exact setRegion_engineKept hidle hidle

/-! ## The clear and the geometry (R20, R21, R198) -/

/-- A clear empties the three places and makes the engine IDLE, or leaves it DISABLED (R97). -/
theorem clearPatrol_engineKept (s : State) : EngineKept s (clearPatrol s) := by
  refine EngineKept.trans (b := setEngine (clearedEngine s.patrol.engine) (emptyTsq (emptySlots s)))
    ⟨fun _ => ?_, fun _ => emptySlots_agree s⟩ ?_
  · refine engineLegal_of_stopped ?_ ?_ ?_ ?_ <;> cases s.patrol.engine <;>
      simp [emptyTsq, emptySlots_patrol, clearedEngine]
  · have he : (emptyTsq (emptySlots s)).patrol.engine = s.patrol.engine := by simp [emptyTsq, emptySlots_patrol]
    unfold clearPatrol
    dsimp only
    rw [he]
    exact reviewOverride_engineKept _

theorem beginClear_engineKept (s : State) : EngineKept s (beginClear s) := by
  have hcauses : EngineSame s (clearCauses { s with
      link := { s.link with channel := .config }, maint := { s.maint with clearing := true } }) := .aside rfl
  have hdemand : ∀ u, EngineSame u (discardDemand u) := fun u => by
    rw [discardDemand_eq]
    exact .aside rfl
  have hcopies : ∀ u, EngineSame u (abandonCopies u) := fun u => (EngineSame.port u _).trans (abortJobs_inner _).engine
  have hentries : ∀ u, EngineSame u (withdrawEntries u) := fun _ => .aside rfl
  have hhammer : ∀ u, EngineSame u (emptyHammer u) := fun _ => .aside rfl
  unfold beginClear
  dsimp only
  exact (hcauses.trans ((hdemand _).trans (hentries _))).kept.trans
    ((clearPatrol_engineKept _).trans ((hcopies _).trans (hhammer _)).kept)

theorem afterClear_engineKept (selectionFirst : Bool) (s : State) : EngineKept s (afterClear selectionFirst s) := by
  have hclose : ∀ u, EngineKept u (closeAtClear u) := fun u => .ite (closeWindow_engineKept u) (.refl u)
  exact .ite ((runSelection_engineKept s).trans (hclose _)) ((hclose s).trans (runSelection_engineKept _))

/-- A geometry change finds the three places empty, so that every region is IDLE, and makes some regions invalid
(R20, R21). -/
theorem takeGeometry_engineKept (g : Geometry) {s : State} (h : boundWork s = false) :
    EngineKept s (takeGeometry g s) := by
  refine EngineKept.trans (b := { s with regions := s.regions.map (Region.fitted g.capacity) }) ⟨id, fun _ ha => ?_⟩
    (EngineSame.aside ?_).kept
  · simp only [boundWork, Bool.or_eq_false_iff, Option.isSome_eq_false_iff, Option.isNone_iff_eq_none] at h
    obtain ⟨⟨⟨⟨⟨⟨⟨hactive, hstaged⟩, hheld⟩, -⟩, -⟩, -⟩, -⟩, -⟩ := h
    obtain ⟨hnodup, hlength, hstates⟩ := (slotsAgree_iff s).1 ha
    rw [hactive, hstaged, hheld] at hnodup hlength hstates
    rw [slotsAgree_iff]
    simp only [hactive, hstaged, hheld]
    refine ⟨hnodup, by simp [places], fun i x hx => ?_⟩
    simp only [List.map_map, List.getElem?_map, Option.mem_def, Option.map_eq_some_iff, Function.comp_apply] at hx
    obtain ⟨r, hr, rfl⟩ := hx
    have hidle : r.status.state = .idle := (hstates i r.standing (by simp [hr])).1
    have hkept : (r.fitted g.capacity).status = r.status := by
      unfold Region.fitted
      split <;> rfl
    have hfitted : (r.fitted g.capacity).standing.2 = .idle := by rw [Region.standing, hkept, hidle]
    exact ⟨hfitted, fun _ => hfitted⟩
  · unfold takeGeometry fitRing
    dsimp only
    split <;> rfl

theorem doConfigureGeometry_engineKept (args : List Word32) (s : State) :
    EngineKept s (doConfigureGeometry args s).state := by
  unfold doConfigureGeometry
  repeat' split
  · exact .refl s
  · exact .refl s
  · exact .refl s
  · rename_i hbound
    exact takeGeometry_engineKept _ (by simpa using hbound)

/-! ## The parameters (R197) -/

theorem reviewThreshold_engine (s : State) : EngineSame s (reviewThreshold s) :=
  (Watched.foldl _ (fun _ _ => .foldl _ (fun _ _ => reviewEntry_watched _ _ _) _ _) _ s).engine

theorem paramChanged_engineKept (id : Nat) (s : State) : EngineKept s (paramChanged id s) := by
  unfold paramChanged
  split
  · exact ((recompute_engine s).kept.trans (reviewOverride_engineKept _)).trans (settle_engineKept _)
  · exact (reviewOverride_engineKept s).trans (settle_engineKept _)
  · exact ((reviewLimits_inner s).trans (eraseAll_inner _)).engine.kept
  · exact (eraseAll_inner s).engine.kept
  · exact (eraseAll_inner s).engine.kept
  · exact (reviewThreshold_engine s).kept.trans (settle_engineKept _)
  · exact (reviewReadyCount_alerted s).engine.kept
  · exact (reviewReadyAge_alerted s).engine.kept
  · exact .refl s

theorem doSetParam_engineKept (args : List Word32) (s : State) : EngineKept s (doSetParam args s).state := by
  unfold doSetParam
  split
  · exact .refl s
  · exact (EngineSame.aside rfl : EngineSame s { s with params := s.params.put (argOf args 0) _ }).kept.trans
      (paramChanged_engineKept _ _)

/-! ## Dispatch (R192) -/

/-- A dispatch keeps what its owner's decision and what follows its answer keep. -/
theorem serveThen_engineKept {after : State → State} (hafter : ∀ s, EngineKept s (after s)) {code needed : Nat}
    {owner : List Word32 → State → Answered} (ho : ∀ args s, EngineKept s (owner args s).state) (s : State) :
    EngineKept s (serveThen after code needed owner s) := by
  unfold serveThen
  split
  · rename_i q _
    have hdecided : EngineKept (count .maintRequests s)
        (decideRequest needed owner q.args (count .maintRequests s)).state := by
      unfold decideRequest
      split
      · exact .refl _
      · exact ho _ _
    have hanswered : ∀ r : Answered, EngineSame r.state (respond q.tag r) := fun _ => .aside rfl
    exact ((EngineSame.count _ s).kept.trans (hdecided.trans (hanswered _).kept)).trans (hafter _)
  · exact .refl s

/-! ## The commands -/

/-- A command answers a next state that keeps the engine as EngineKept says. -/
def Agrees (s : State) (answer : Answer) : Prop := ∃ t, answer = .next t ∧ EngineKept s t

theorem Agrees.next {s t : State} (h : EngineKept s t) : Agrees s (.next t) := ⟨t, rfl, h⟩

theorem Agrees.same {s t : State} (h : EngineSame s t) : Agrees s (.next t) := .next h.kept

/-- A command that does nothing here. -/
theorem Agrees.idle (s : State) : Agrees s (.next s) := .next (.refl s)

/-- A command that the engine's immediate actions close. -/
theorem Agrees.settled {s t : State} (h : EngineKept s t) : Agrees s (.next (settle t)) :=
  .next (h.trans (settle_engineKept t))

theorem Agrees.ite {p : Prop} [Decidable p] {s : State} {a b : Answer} (h : Agrees s a) (k : Agrees s b) :
    Agrees s (if p then a else b) := by split <;> assumption

/-- A dispatch whose owner leaves the engine as it stands. -/
theorem Agrees.served {s : State} {code needed : Nat} {owner : List Word32 → State → Answered}
    (h : ∀ args s, EngineSame s (owner args s).state) : Agrees s (.next (serve code needed owner s)) :=
  .next (serveThen_engineKept (fun s => .refl s) (fun args s => (h args s).kept) s)

/-- A dispatch whose owner's decision keeps the engine. -/
theorem Agrees.decided {s : State} {code needed : Nat} {owner : List Word32 → State → Answered}
    (h : ∀ args s, EngineKept s (owner args s).state) : Agrees s (.next (serve code needed owner s)) :=
  .next (serveThen_engineKept (fun s => .refl s) h s)

/-- A dispatch of that kind that the engine's immediate actions close. -/
theorem Agrees.servedSettled {s : State} {code needed : Nat} {owner : List Word32 → State → Answered}
    (h : ∀ args s, EngineKept s (owner args s).state) : Agrees s (.next (serveSettled code needed owner s)) :=
  .next (serveThen_engineKept settle_engineKept h s)

/-- At power-on the engine is DISABLED, the places are empty and every region is IDLE and invalid (R56, R69, R70, R199). -/
theorem execPowerOn_agrees (s : State) : Agrees s (execPowerOn s) := by
  refine .next ⟨fun _ => engineLegal_of_stopped nofun nofun rfl nofun, fun _ _ => ?_⟩
  rw [slotsAgree_iff]
  refine ⟨List.nodup_nil, nofun, fun i g hg => ?_⟩
  have hstanding : g = (false, .idle) := by
    simp only [State.reset, List.map_replicate, Option.mem_def] at hg
    exact List.eq_of_mem_replicate (List.mem_of_getElem? hg)
  rw [hstanding]
  exact ⟨rfl, fun _ => rfl⟩

/-! ### Frames -/

theorem execIdle_agrees (byte1 byte2 byte3 : Byte) (check : BitVec 16) (s : State) :
    Agrees s (execIdle byte1 byte2 byte3 check s) := .ite (.idle s) (.same (discardFrame_engine s))

theorem acceptFrame_engine (tag : Byte) (s : State) : EngineSame s (acceptFrame tag s) := .aside rfl

theorem execRead_agrees (tag byte2 byte3 : Byte) (line : BitVec 64) (check : BitVec 16) (s : State) :
    Agrees s (execRead tag byte2 byte3 line check s) := by
  refine .ite (.same (discardFrame_engine s)) ?_
  dsimp only
  split
  · exact .same (.aside rfl)
  · exact .same ((acceptFrame_engine tag s).trans (portRead_engine _ _ _))

theorem execWrite_agrees (tag flags byte3 : Byte) (line : BitVec 64) (data : Data) (check : BitVec 16) (s : State) :
    Agrees s (execWrite tag flags byte3 line data check s) := by
  refine .ite (.same (discardFrame_engine s)) ?_
  dsimp only
  split
  · exact .same (.aside rfl)
  · exact .same ((acceptFrame_engine tag s).trans (portWrite_engine _ _ _ _ (takeWrite_engine _ _ _) _))

theorem execWriteMasked_agrees (tag flags byte3 : Byte) (line : BitVec 64) (data : Data) (mask : BitVec 64)
    (check : BitVec 16) (s : State) : Agrees s (execWriteMasked tag flags byte3 line data mask check s) := by
  refine .ite (.same (discardFrame_engine s)) ?_
  dsimp only
  split
  · exact .same (.aside rfl)
  · exact .same ((acceptFrame_engine tag s).trans (portWrite_engine _ _ _ _ (testMask_engine _ _ _ _) _))

theorem execMaint_agrees (tag byte2 : Byte) (code pad : BitVec 16) (args : List Word32) (check : BitVec 16) (s : State) :
    Agrees s (execMaint tag byte2 code pad args check s) :=
  .ite (.same (discardFrame_engine s)) (.same ((acceptFrame_engine tag s).trans (takeRequest_engine _ _ _ _)))

theorem execMalformedFrame_agrees (bytes : List Byte) (s : State) : Agrees s (execMalformedFrame bytes s) :=
  .ite (.same (discardFrame_engine s)) (.idle s)

theorem execReturnFrameSent_agrees (s : State) : Agrees s (execReturnFrameSent s) := by
  unfold execReturnFrameSent
  split
  · exact .ite (.same (frameLeft_engine _ _ s)) (.same (.aside rfl))
  · exact .same (.aside rfl)

/-! ### The DRAM Port -/

theorem execArbiterGrant_agrees (accept : BitVec 64) (refresh : BitVec 4) (s : State) :
    Agrees s (execArbiterGrant accept refresh s) := by
  unfold execArbiterGrant
  split
  · exact .settled (grant_engine _ s).kept
  · exact .idle s

theorem execDemandReadDecode_agrees (line : Nat) (damage : Line) (s : State) :
    Agrees s (execDemandReadDecode line damage s) := by
  unfold execDemandReadDecode
  repeat' split
  · exact .settled (demandDecoded_engine _ _ _ s).kept
  · exact .idle s
  · exact .idle s

theorem execScrubReadDecode_agrees (line : Nat) (damage : Line) (s : State) :
    Agrees s (execScrubReadDecode line damage s) := by
  unfold execScrubReadDecode
  repeat' split
  · exact .settled (patrolDecoded_engine _ _ _ s).kept
  · exact .settled (targetedDecoded_engine _ _ s).kept
  · exact .idle s
  · exact .idle s

theorem execRmwReadDecode_agrees (line : Nat) (damage : Line) (s : State) :
    Agrees s (execRmwReadDecode line damage s) := by
  unfold execRmwReadDecode
  repeat' split
  · exact .settled ((mergeUnit_engine _ _ _ _ _ s).trans (handEvent_engine _ _)).kept
  · exact .idle s
  · exact .idle s

theorem execCopyReadDecode_agrees (line : Nat) (damage : Line) (s : State) :
    Agrees s (execCopyReadDecode line damage s) := by
  unfold execCopyReadDecode
  repeat' split
  · exact .settled (copyDecoded_engine _ _ s).kept
  · exact .idle s
  · exact .idle s

theorem execDemandWritePerformed_agrees (line : Nat) (s : State) : Agrees s (execDemandWritePerformed line s) := by
  unfold execDemandWritePerformed
  repeat' split
  · exact .same (answeredWrite_engine _ _ _ .fresh .ok s)
  · exact .idle s
  · exact .idle s

theorem execMaskedWritePerformed_agrees (line : Nat) (s : State) : Agrees s (execMaskedWritePerformed line s) := by
  unfold execMaskedWritePerformed
  repeat' split
  · exact .same (answeredWrite_engine _ _ _ _ _ s)
  · exact .idle s
  · exact .idle s

theorem execWritebackPerformed_agrees (line : Nat) (s : State) : Agrees s (execWritebackPerformed line s) := by
  unfold execWritebackPerformed
  split
  · exact .ite (.same (entryWritten_engine _ _ s)) (.idle s)
  · exact .idle s

theorem execRecordWritePerformed_agrees (line : Nat) (s : State) : Agrees s (execRecordWritePerformed line s) := by
  unfold execRecordWritePerformed
  repeat' split
  · exact .same (recordWritten_engine _ _ _ s)
  · exact .idle s
  · exact .idle s

theorem execCopyWritePerformed_agrees (line : Nat) (s : State) : Agrees s (execCopyWritePerformed line s) := by
  unfold execCopyWritePerformed
  repeat' split
  · exact .same (spareWritten_engine _ _ _ s)
  · exact .idle s
  · exact .idle s

/-! ### The timers -/

theorem execRowHoldExpiry_agrees (rank bank : Nat) (s : State) : Agrees s (execRowHoldExpiry rank bank s) := by
  unfold execRowHoldExpiry
  repeat' split
  · exact .idle s
  · exact .same ((arrive_engine _ s).trans (.port _ _))
  · exact .idle s
  · exact .idle s

theorem execRefreshTimerExpiry_agrees (rank : Nat) (s : State) : Agrees s (execRefreshTimerExpiry rank s) := by
  have hdue : ∀ (moment : FineTime) (u : State), EngineSame u (refreshDue rank moment u) := fun _ _ =>
    .ite (.aside rfl) (.aside rfl)
  unfold execRefreshTimerExpiry
  split
  · exact .same ((arrive_engine _ s).trans (hdue _ _))
  · exact .idle s

theorem execRegionDue_agrees (s : State) : Agrees s (execRegionDue s) := by
  have hdue : ∀ u, EngineKept u (reachDue u) := fun u => .ite (.refl u) (runSelection_engineKept u)
  unfold execRegionDue
  split
  · exact .settled ((arrive_engine _ s).kept.trans (hdue _))
  · exact .idle s

theorem reachIssue_engine (s : State) : EngineSame s (reachIssue s) := by
  unfold reachIssue
  split
  · rename_i w hw
    exact atBoundary_engine w s (by rw [hw]; rfl)
  · exact .refl s

theorem execPatrolLineIssue_agrees (s : State) : Agrees s (execPatrolLineIssue s) := by
  unfold execPatrolLineIssue
  repeat' split
  · exact .settled ((arrive_engine _ s).trans (reachIssue_engine _)).kept
  · exact .idle s
  · exact .idle s

theorem execBurstIssue_agrees (s : State) : Agrees s (execBurstIssue s) := by
  unfold execBurstIssue
  repeat' split
  · exact .settled ((arrive_engine _ s).trans (reachIssue_engine _)).kept
  · exact .idle s
  · exact .idle s

theorem execQuietExpiry_agrees (s : State) : Agrees s (execQuietExpiry s) := by
  unfold execQuietExpiry
  split
  · exact .settled ((arrive_engine _ s).kept.trans ((closeWindow_engineKept _).trans (EngineSame.count _ _).kept))
  · exact .idle s

theorem execQuietOverride_agrees (s : State) : Agrees s (execQuietOverride s) := by
  unfold execQuietOverride
  repeat' split
  · exact .settled ((arrive_engine _ s).kept.trans (overrideWindow_engineKept _ _ _))
  · exact .idle s
  · exact .idle s

theorem execDecayEpoch_agrees (s : State) : Agrees s (execDecayEpoch s) := by
  have hrestart : ∀ t u, EngineSame u (restartDecay t u) := fun _ u => .fault u _
  unfold execDecayEpoch
  exact .same ((arrive_engine (onMicrosecond s.fault.decayEnd) s).trans
    ((hrestart s.fault.decayEnd _).trans (decay_inner _).engine))

theorem execHammerWindowExpiry_agrees (s : State) : Agrees s (execHammerWindowExpiry s) := by
  have hrestart : ∀ t u, EngineSame u (count .hammerWindows (zeroHammer (restartHammer t u))) := fun _ u =>
    (EngineSame.hammer u _).trans ((EngineSame.hammer _ _).trans (.count _ _))
  unfold execHammerWindowExpiry
  exact .same ((arrive_engine (onMicrosecond s.hammer.windowEnd) s).trans (hrestart s.hammer.windowEnd _))

theorem execHoldoffExpiry_agrees (s : State) : Agrees s (execHoldoffExpiry s) := by
  unfold execHoldoffExpiry
  split
  · exact .same ((arrive_engine _ s).trans ((EngineSame.report _ _).trans (testAlert_alerted _).engine))
  · exact .idle s

theorem execReadyAgeExpiry_agrees (s : State) : Agrees s (execReadyAgeExpiry s) := by
  unfold execReadyAgeExpiry
  split
  · exact .same ((arrive_engine _ s).trans (announce_alerted _).engine)
  · exact .idle s

/-! ### The clear and the unknown request -/

theorem execChannelClear_agrees (s : State) : Agrees s (execChannelClear s) := by
  unfold execChannelClear
  split
  · exact .next ((EngineSame.count _ s).kept.trans (beginClear_engineKept _))
  · exact .idle s

theorem execChannelClearComplete_agrees (selectionFirst : Bool) (s : State) :
    Agrees s (execChannelClearComplete selectionFirst s) := by
  have hend : ∀ tag, EngineSame s (endClear tag s) := fun _ => .aside rfl
  unfold execChannelClearComplete
  repeat' split
  · exact .settled ((hend _).kept.trans (afterClear_engineKept _ _))
  · exact .idle s
  · exact .idle s

theorem execBadRequest_agrees (s : State) : Agrees s (execBadRequest s) := by
  unfold execBadRequest
  split
  · exact .ite (.same (.aside rfl)) (.idle s)
  · exact .idle s

/-! ## Every command -/

theorem exec_agrees (c : Instr) (s : State) : Agrees s (exec c s) := by
  cases c with
  | powerOn => exact execPowerOn_agrees s
  | idle byte1 byte2 byte3 check => exact execIdle_agrees byte1 byte2 byte3 check s
  | read tag byte2 byte3 line check => exact execRead_agrees tag byte2 byte3 line check s
  | write tag flags byte3 line data check => exact execWrite_agrees tag flags byte3 line data check s
  | writeMasked tag flags byte3 line data mask check =>
    exact execWriteMasked_agrees tag flags byte3 line data mask check s
  | maint tag byte2 code pad args check => exact execMaint_agrees tag byte2 code pad args check s
  | arbiterGrant accept refresh => exact execArbiterGrant_agrees accept refresh s
  | demandReadDecode line damage => exact execDemandReadDecode_agrees line damage s
  | scrubReadDecode line damage => exact execScrubReadDecode_agrees line damage s
  | rmwReadDecode line damage => exact execRmwReadDecode_agrees line damage s
  | copyReadDecode line damage => exact execCopyReadDecode_agrees line damage s
  | demandWritePerformed line => exact execDemandWritePerformed_agrees line s
  | maskedWritePerformed line => exact execMaskedWritePerformed_agrees line s
  | writebackPerformed line => exact execWritebackPerformed_agrees line s
  | recordWritePerformed line => exact execRecordWritePerformed_agrees line s
  | copyWritePerformed line => exact execCopyWritePerformed_agrees line s
  | returnFrameSent => exact execReturnFrameSent_agrees s
  | rowHoldExpiry rank bank => exact execRowHoldExpiry_agrees rank bank s
  | refreshTimerExpiry rank => exact execRefreshTimerExpiry_agrees rank s
  | regionDue => exact execRegionDue_agrees s
  | patrolLineIssue => exact execPatrolLineIssue_agrees s
  | burstIssue => exact execBurstIssue_agrees s
  | quietExpiry => exact execQuietExpiry_agrees s
  | quietOverride => exact execQuietOverride_agrees s
  | decayEpoch => exact execDecayEpoch_agrees s
  | hammerWindowExpiry => exact execHammerWindowExpiry_agrees s
  | holdoffExpiry => exact execHoldoffExpiry_agrees s
  | readyAgeExpiry => exact execReadyAgeExpiry_agrees s
  | identify => exact .served fun _ _ => .aside rfl
  | readTime => exact .served fun _ _ => .aside rfl
  | setTime => exact .served fun _ _ => .aside rfl
  | setParam => exact .decided doSetParam_engineKept
  | readStats => exact .served doReadStats_engine
  | statsClear => exact .served fun _ _ => .aside rfl
  | goOnline => exact .served doGoOnline_engine
  | channelClear => exact execChannelClear_agrees s
  | channelClearComplete selectionFirst => exact execChannelClearComplete_agrees selectionFirst s
  | configureGeometry => exact .decided doConfigureGeometry_engineKept
  | regionLoad => exact .servedSettled doRegionLoad_engineKept
  | regionClear => exact .decided doRegionClear_engineKept
  | regionRead => exact .served doRegionRead_engine
  | scrubEnable => exact .servedSettled doScrubEnable_engineKept
  | scrubDisable => exact .servedSettled doScrubDisable_engineKept
  | sweepNow => exact .servedSettled doSweepNow_engineKept
  | sweepHalt => exact .servedSettled doSweepHalt_engineKept
  | sweepResume => exact .servedSettled doSweepResume_engineKept
  | quietBegin => exact .servedSettled doQuietBegin_engineKept
  | quietEnd => exact .servedSettled doQuietEnd_engineKept
  | faultRead => exact .served doFaultRead_engine
  | faultClear => exact .served doFaultClear_engine
  | deviceRead => exact .served doDeviceRead_engine
  | retireRow => exact .served doRetireRow_engine
  | remapLoad => exact .served doRemapLoad_engine
  | spareKill => exact .served doSpareKill_engine
  | remapRead => exact .served doRemapRead_engine
  | erase => exact .served doErase_engine
  | unerase => exact .served doUnerase_engine
  | reportSetup => exact .served doReportSetup_engine
  | reportRelease => exact .served doReportRelease_engine
  | reportRestart => exact .served doReportRestart_engine
  | readCauses => exact .served fun _ _ => .aside rfl
  | causeSet => exact .served doCauseSet_engine
  | maskSet => exact .served doMaskSet_engine
  | maskClear => exact .served doMaskClear_engine
  | badRequest => exact execBadRequest_agrees s
  | malformedFrame bytes => exact execMalformedFrame_agrees bytes s

/-- A step keeps the engine, whether a command runs or a tick passes. -/
theorem step_engineKept {s t : State} (h : step s = .next t) : EngineKept s t := by
  unfold step at h
  split at h
  · cases h
    exact (setNow_engine _ s).kept
  · rename_i c rest _
    have hrest : EngineSame s { s with pending := rest } := .aside rfl
    obtain ⟨u, hu, hk⟩ := exec_agrees c { s with pending := rest }
    rw [hu] at h
    cases h
    exact hrest.kept.trans hk

/-- Settles O8: both agreements are those of EngineKept, which every command and the tick keep. -/
theorem stepsKeepEngineLegal : Obligations.StepsKeepEngineLegal := by
  intro s t hlegal h
  have hk := step_engineKept h
  exact ⟨hk.legal hlegal, hk.agree hlegal⟩

end Sys2Proof.Machine
end

section
/-! O35: the pace of a sweep, its recompute with the at-risk cause raised once, and the start of a sweep (R72 to R74, R85,
R105 to R107). -/

namespace Sys2Proof.Machine

open Sys2Proof

/-! ## Pace (R73, R105) -/

section

variable {w : Sweep} {minPace : Nat} {slack : Int}

theorem pacedSweep_of_done (h : w.remaining = 0) : pacedSweep .single minPace slack w = w := by
  simp [pacedSweep, h]

theorem pacedSweep_of_late (hr : 0 < w.remaining) (hs : slack ≤ 0) :
    pacedSweep .single minPace slack w = { w with pace := minPace, atRisk := true } := by
  simp [pacedSweep, hr.ne', hs]

/-- With time left the pace is one less than the sixteenths of a µs that each line has, between `min_pace` and 65535. -/
theorem pacedSweep_of_early (hr : 0 < w.remaining) (hs : 0 < slack) :
    pacedSweep .single minPace slack w =
      if slack * 16 / w.remaining - 1 < minPace then { w with pace := minPace, atRisk := true }
      else if 65535 < slack * 16 / w.remaining - 1 then { w with pace := 65535, atRisk := false }
      else { w with pace := (slack * 16 / w.remaining - 1).toNat, atRisk := false } := by
  obtain ⟨n, rfl⟩ := Int.eq_ofNat_of_zero_le hs.le
  have hq : (n : Int) * 16 / w.remaining = (n * 16 / w.remaining : Nat) := by norm_cast
  simp only [pacedSweep, hr.ne', hs.not_ge, if_false, hq, Int.toNat_natCast]
  generalize n * 16 / w.remaining = q
  have hlow : (q : Int) - 1 < minPace ↔ q ≤ minPace := by omega
  have hhigh : 65535 < (q : Int) - 1 ↔ 65536 < q := by omega
  have hpace : ((q : Int) - 1).toNat = q - 1 := by omega
  simp only [hlow, hhigh, hpace]

end

/-- The needed time is the least number of µs that holds the remaining lines at the fastest pace (R105). -/
theorem neededTime_spec (minPace remaining : Nat) :
    remaining * (minPace + 1) ≤ neededTime minPace remaining * 16 ∧
      neededTime minPace remaining * 16 < remaining * (minPace + 1) + 16 := by
  unfold neededTime
  generalize remaining * (minPace + 1) = lines
  omega

/-- A sweep with just the time it needs at the fastest pace is not at risk (R73, R105). -/
theorem pacedSweep_neededTime {w : Sweep} (hr : 0 < w.remaining) (minPace : Nat) :
    (pacedSweep .single minPace (neededTime minPace w.remaining) w).atRisk = false := by
  obtain ⟨hneeded, -⟩ := neededTime_spec minPace w.remaining
  have hpos : 0 < neededTime minPace w.remaining := by
    have hlines := Nat.mul_pos hr (by omega : 0 < minPace + 1)
    omega
  have hq : minPace + 1 ≤ neededTime minPace w.remaining * 16 / w.remaining :=
    (Nat.le_div_iff_mul_le hr).2 (by rwa [Nat.mul_comm])
  rw [pacedSweep_of_early hr (by exact_mod_cast hpos)]
  have hcast : (neededTime minPace w.remaining : Int) * 16 / w.remaining =
      (neededTime minPace w.remaining * 16 / w.remaining : Nat) := by norm_cast
  rw [hcast, if_neg (by omega)]
  split <;> rfl

/-! ## The recompute (R73, R74) -/

theorem pacedSweep_atRiskReported (mode : AccessMode) (minPace : Nat) (slack : Int) (w : Sweep) :
    (pacedSweep mode minPace slack w).atRiskReported = w.atRiskReported := by
  unfold pacedSweep
  cases mode <;> dsimp only <;> repeat' split
  all_goals rfl

/-- The active sweep with its pace computed anew. -/
def repaced (s : State) (w : Sweep) : Sweep :=
  pacedSweep (regionAt s w.region).entry.mode s.params.minPace (slackOf s w) w

theorem repaced_atRiskReported (s : State) (w : Sweep) : (repaced s w).atRiskReported = w.atRiskReported :=
  pacedSweep_atRiskReported _ _ _ _

theorem recompute_of_none {s : State} (h : s.patrol.active = none) : recompute s = s := by
  simp only [recompute, h]

theorem recompute_of_some {s : State} {w : Sweep} (h : s.patrol.active = some w) :
    recompute s = reportRisk { s with patrol := { s.patrol with active := some (repaced s w) } } := by
  simp only [recompute, h, repaced]

/-- No risk, or one reported before: nothing but the pace and the flag moves. -/
theorem recompute_of_quiet {s : State} {w : Sweep} (h : s.patrol.active = some w)
    (hq : (repaced s w).atRisk = false ∨ w.atRiskReported = true) :
    recompute s = { s with patrol := { s.patrol with active := some (repaced s w) } } := by
  rw [recompute_of_some h]
  obtain hq | hq := hq <;> simp [reportRisk, repaced_atRiskReported, hq]

/-- The test for a due alert counts no sweep at risk. -/
theorem testAlert_sweepsAtRisk (s : State) : (testAlert s).counters.sweepsAtRisk = s.counters.sweepsAtRisk := by
  unfold testAlert sendAlert handAlert
  dsimp only
  repeat' split
  all_goals rfl

/-- A risk not yet reported raises SWEEP_AT_RISK and is counted (R73). -/
theorem recompute_of_risk {s : State} {w : Sweep} (h : s.patrol.active = some w) (hr : (repaced s w).atRisk = true)
    (hw : w.atRiskReported = false) :
    let u := testAlert { s with
      patrol := { s.patrol with active := some { repaced s w with atRiskReported := true } }
      report := { s.report with pending := s.report.pending ||| 0x0010 } }
    recompute s = { u with counters := { u.counters with sweepsAtRisk := satAdd s.counters.sweepsAtRisk 1 } } := by
  intro u
  have hnew : ((repaced s w).atRisk && !(repaced s w).atRiskReported) = true := by
    rw [hr, repaced_atRiskReported, hw]
    rfl
  have hcounted : u.counters.sweepsAtRisk = s.counters.sweepsAtRisk := testAlert_sweepsAtRisk _
  rw [recompute_of_some h, ← hcounted]
  simp only [reportRisk, hnew, if_true]
  rfl

/-! ## The start of a sweep (R72, R85) -/

/-- The whole periods skipped are those that have ended by now, and no more. -/
theorem skippedPeriods_spec {now due : Elapsed} {period : Nat} (h : 0 < period) :
    elapsedDiff now due < skippedPeriods now due period * period + period ∧
      ∀ j < skippedPeriods now due period, (j * period + period : Int) ≤ elapsedDiff now due := by
  unfold skippedPeriods
  generalize elapsedDiff now due = age
  refine ⟨?_, fun j hj => ?_⟩
  · have hage : age.toNat < age.toNat / period * period + period := Nat.lt_div_mul_add h
    have hcast : ((age.toNat / period * period + period : Nat) : Int) =
      (age.toNat / period : Nat) * period + period := by push_cast; rfl
    omega
  · have hperiods : (j + 1) * period ≤ age.toNat :=
      (Nat.mul_le_mul_right period hj).trans (Nat.div_mul_le_self _ _)
    have hpos : 0 < (j + 1) * period := Nat.mul_pos j.succ_pos h
    have hcast : ((j * period + period : Int)) = ((j + 1) * period : Nat) := by push_cast; ring
    omega

/-- Settles O35: the pace by the time left, the recompute by whether a risk is new, and the start as the model takes it. -/
theorem sweepsStartAtTheirPace : Obligations.SweepsStartAtTheirPace := by
  refine ⟨fun w minPace slack => ⟨rfl, rfl, pacedSweep_of_done, pacedSweep_of_late, fun hr hs => ?_, fun hr => ?_⟩,
    fun s => ⟨recompute_of_none, fun w h => ⟨recompute_of_quiet h, recompute_of_risk h⟩⟩, fun s i host hperiod => ?_⟩
  · intro q
    rw [pacedSweep_of_early hr hs]
    refine ⟨fun hlow => if_pos hlow, fun hlow hhigh => ?_, fun hlow hhigh => ?_⟩
    · rw [if_neg (not_lt.2 hlow), if_neg (not_lt.2 hhigh)]
    · rw [if_neg (not_lt.2 hlow), if_pos hhigh]
  · obtain ⟨henough, hleast⟩ := neededTime_spec minPace w.remaining
    exact ⟨henough, hleast, pacedSweep_neededTime hr minPace⟩
  · intro g period
    have hspec := skippedPeriods_spec (now := s.maint.now.us) (due := g.status.due) (period := period)
      (Nat.mul_pos hperiod (by decide))
    refine ⟨if host then 0 else skippedPeriods s.maint.now.us g.status.due period,
      (if host then s.maint.now.us else g.status.due) +
        BitVec.ofNat 48 ((if host then 0 else skippedPeriods s.maint.now.us g.status.due period) * period),
      ?_, ?_, rfl⟩
    · rintro rfl
      simp
    · rintro rfl
      exact ⟨rfl, hspec⟩

end Sys2Proof.Machine
end

section
/-! O38: the five requests of the Patrol Engine (R70, R84, R86 to R89, R106). -/

namespace Sys2Proof.Machine

open Sys2Proof

theorem setSweepState_eq (i : Nat) (v : SweepState) (s : State) :
    setSweepState i v s = { s with
      regions := s.regions.set i { regionAt s i with status := { (regionAt s i).status with state := v } } } := rfl

/-! ## SCRUB_ENABLE and SCRUB_DISABLE (R88, R89) -/

/-- The state in which SCRUB_DISABLE leaves an engine that was not DISABLED. -/
def disabledState (s : State) : State :=
  { s with
    patrol := { s.patrol with engine := .disabled, active := none, staged := none, held := none }
    regions := idledRegions s.patrol s.regions
    window := s.window.map fun win => { win with override := none }
    port := { s.port with accesses :=
      (s.port.accesses.filter fun a => !(a.kind.isPatrol && a.phase == .waiting)).map Access.disown } }

theorem disable_eq (s : State) : reviewOverride (setEngine .disabled (emptySlots s)) = disabledState s := by
  rw [reviewOverride_idle (by simp only [setEngine, emptySlots_patrol])]
  simp only [setEngine, emptySlots, abandonReads, idleRegion_eq]
  rfl

theorem doScrubDisable_of_on {s : State} (args : List Word32) (h : s.patrol.engine ≠ .disabled) :
    doScrubDisable args s = accept (patrolWords (disabledState s)) (disabledState s) := by
  rw [doScrubDisable, if_neg h, disable_eq, acceptPatrol]

/-! ## SWEEP_NOW (R84) -/

/-- The sweep state given to a region after one was idled is the last it gets, were it the same region. -/
theorem idledAt_set (region : Option Nat) (l : List Region) (i : Nat) (v : SweepState) :
    (idledAt region l).set i { (idledAt region l).getD i {} with status.state := v } =
      (idledAt region l).set i { l.getD i {} with status.state := v } := by
  by_cases hi : i < l.length
  · rw [idledAt_getD hi]
    split <;> rfl
  · have hlen : (idledAt region l).length ≤ i := by rwa [idledAt_length, ← Nat.not_lt]
    rw [List.set_eq_of_length_le hlen, List.set_eq_of_length_le hlen]

/-- The staged slot is taken by the host: the region it named, if any, is IDLE again, and the host's is STAGED. -/
theorem stageHost_eq (i : Nat) (s : State) :
    stageHost i s = { s with
      regions := (idledAt (s.patrol.staged.map Staged.region) s.regions).set i
        { regionAt s i with status := { (regionAt s i).status with state := .staged } }
      patrol := { s.patrol with staged := some { region := i, hostPlaced := true } } } := by
  rw [stageHost, idleRegion_eq, setSweepState_eq]
  simp only [regionAt, idledAt_set]

theorem hostStaged_iff (s : State) : hostStaged s = true ↔ ∃ p ∈ s.patrol.staged, p.hostPlaced = true := by
  simp [hostStaged, Option.any_eq_true]

theorem doSweepNow_eq (s : State) (index : Word32) (more : List Word32) :
    doSweepNow (index :: more) s =
      if 31 < index.toNat ∨ (regionAt s index.toNat).entry.valid = false then refusePatrol .badArgument s
      else if s.patrol.engine = .disabled ∨ (regionAt s index.toNat).status.state = .active ∨
          (regionAt s index.toNat).status.state = .held ∨ (∃ p ∈ s.patrol.staged, p.hostPlaced = true) then
        refusePatrol .busy s
      else acceptPatrol (runSelection (stageHost index.toNat s)) := by
  simp only [doSweepNow, argOf_zero, hostStaged_iff, Bool.not_eq_true]

/-! ## SWEEP_HALT and SWEEP_RESUME (R86, R87) -/

/-- The sweep of the active slot, if any, goes to the held record and the engine is HALTED. -/
theorem halt_eq (s : State) :
    setEngine .halted (holdSweep s) = match s.patrol.active with
      | some w => { s with
          regions := s.regions.set w.region { regionAt s w.region with status :=
            { (regionAt s w.region).status with state := .held } }
          patrol := { s.patrol with
            engine := .halted, active := none, held := some { w with burstLeft := 0, deferred := false } } }
      | none => { s with patrol := { s.patrol with engine := .halted } } := by
  unfold holdSweep setEngine
  cases s.patrol.active <;> rfl

theorem resumePatrol_eq (s : State) :
    resumePatrol s = match s.patrol.held with
      | some w => runSelection (reviewOverride (recompute { s with
          regions := s.regions.set w.region { regionAt s w.region with status :=
            { (regionAt s w.region).status with state := .active } }
          patrol := { s.patrol with
            active := some w, held := none, engine := if s.window.isSome then .paused else .running } }))
      | none => runSelection { s with patrol := { s.patrol with engine := .idle } } := by
  unfold resumePatrol
  cases s.patrol.held <;> rfl

/-! ## The requests -/

theorem scrubEnable_answer {s : State} {q : MaintRequest} (h : AtHead s q 13) :
    let t := if s.patrol.engine = .disabled then
      runSelection { dispatched s with patrol := { s.patrol with engine := .idle } } else dispatched s
    exec .scrubEnable s = .next (settle (answered q .ok (patrolWords t) t)) := by
  refine serveSettled_next h (Nat.zero_le _) ?_
  rw [doScrubEnable, dispatched_patrol]
  split <;> rfl

theorem scrubDisable_idle {s : State} {q : MaintRequest} (h : AtHead s q 14) (hd : s.patrol.engine = .disabled) :
    exec .scrubDisable s = .next (settle (answered q .ok (patrolWords s) (dispatched s))) :=
  serveSettled_next h (Nat.zero_le _) (if_pos hd)

theorem scrubDisable_answer {s : State} {q : MaintRequest} (h : AtHead s q 14) (hd : s.patrol.engine ≠ .disabled) :
    exec .scrubDisable s = .next (settle (answered q .ok [0, 255, 255, 255] (disabledState (dispatched s)))) :=
  serveSettled_next h (Nat.zero_le _) (doScrubDisable_of_on q.args hd)

theorem sweepNow_answer {s : State} {q : MaintRequest} (h : AtHead s q 15) {index : Word32} {more : List Word32}
    (hargs : q.args = index :: more) :
    let u := stageHost index.toNat (dispatched s)
    exec .sweepNow s = .next (settle
      (if 31 < index.toNat ∨ (regionAt s index.toNat).entry.valid = false then
        answered q .badArgument (patrolWords s) (dispatched s)
      else if s.patrol.engine = .disabled ∨ (regionAt s index.toNat).status.state = .active ∨
          (regionAt s index.toNat).status.state = .held ∨ (∃ p ∈ s.patrol.staged, p.hostPlaced = true) then
        answered q .busy (patrolWords s) (dispatched s)
      else answered q .ok (patrolWords (runSelection u)) (runSelection u))) := by
  intro u
  have hn : 1 ≤ q.args.length := by simp [hargs]
  have hdecide := hargs ▸ doSweepNow_eq (dispatched s) index more
  rw [dispatched_patrol, dispatched_regionAt] at hdecide
  split
  next hbad => exact serveSettled_next h hn (by rw [hdecide, if_pos hbad]; rfl)
  next hgood =>
    split
    next hbusy => exact serveSettled_next h hn (by rw [hdecide, if_neg hgood, if_pos hbusy]; rfl)
    next hfree => exact serveSettled_next h hn (by rw [hdecide, if_neg hgood, if_neg hfree]; rfl)

theorem sweepHalt_answer {s : State} {q : MaintRequest} (h : AtHead s q 16) :
    let t := reviewOverride (setEngine .halted (holdSweep (dispatched s)))
    exec .sweepHalt s = .next (settle
      (if s.patrol.engine = .halted ∨ s.patrol.engine = .disabled then answered q .busy (patrolWords s) (dispatched s)
      else answered q .ok (patrolWords t) t)) := by
  intro t
  split
  next hbusy => exact serveSettled_next h (Nat.zero_le _) (if_pos hbusy)
  next hfree => exact serveSettled_next h (Nat.zero_le _) (if_neg hfree)

theorem sweepResume_refused {s : State} {q : MaintRequest} (h : AtHead s q 17) (he : s.patrol.engine ≠ .halted) :
    exec .sweepResume s = .next (settle (answered q .busy (patrolWords s) (dispatched s))) :=
  serveSettled_next h (Nat.zero_le _) (if_neg he)

theorem sweepResume_answer {s : State} {q : MaintRequest} (h : AtHead s q 17) (he : s.patrol.engine = .halted) :
    let t := resumePatrol (dispatched s)
    exec .sweepResume s = .next (settle (answered q .ok (patrolWords t) t)) :=
  serveSettled_next h (Nat.zero_le _) (if_pos he)

/-- Settles O38: each request is the decision of its owner, and each acceptance the state change said above. -/
theorem patrolRequestsMoveTheEngine : Obligations.PatrolRequestsMoveTheEngine := by
  refine ⟨fun s q => ⟨scrubEnable_answer, scrubDisable_idle, fun h hd => ?_⟩,
    fun s q => ⟨fun h index more hargs => ?_, fun h => ?_, sweepResume_refused, fun h he => ?_⟩⟩
  · exact ⟨_, scrubDisable_answer h hd, rfl, fun i hi => idledRegions_getD hi s.patrol, rfl, rfl, rfl⟩
  · intro g displaced cleared u
    have hu : stageHost index.toNat (dispatched s) = u := by
      rw [stageHost_eq]
      cases hp : s.patrol.staged <;> simp only [u, cleared, hp, dispatched_patrol] <;> rfl
    rw [← hu]
    exact sweepNow_answer h hargs
  · intro u t
    have hactive : (setEngine .halted (holdSweep (dispatched s))).patrol.active = none := holdSweep_active _
    have ht : reviewOverride (setEngine .halted (holdSweep (dispatched s))) = t := by
      rw [reviewOverride_idle hactive, halt_eq]
      cases ha : s.patrol.active <;> simp only [t, u, ha, dispatched_patrol] <;> rfl
    rw [← ht]
    exact sweepHalt_answer h
  · intro t
    have ht : resumePatrol (dispatched s) = t := resumePatrol_eq (dispatched s)
    rw [← ht]
    exact sweepResume_answer h he

end Sys2Proof.Machine
end

section
/-! O39: the Targeted Scrub Queue's insertion, and the lines of the job being read (R29, R91 to R96, R143). -/

namespace Sys2Proof.Machine

open Sys2Proof

/-! ## The queue by the places of its entries (R91) -/

theorem names_eq (rank bank row : Nat) (e : TsqEntry) :
    e.names rank bank row = decide (e.place = (rank, bank, row)) := by
  simp [TsqEntry.names, TsqEntry.place, Bool.and_assoc, Bool.beq_eq_decide_eq, Bool.decide_and]

/-- The queue with the entry of a place replaced. -/
def replacedJob (e : TsqEntry) (l : List TsqEntry) : List TsqEntry := l.map fun f => if f.place = e.place then e else f

/-- The queue without the entry of a place. -/
def otherJobs (e : TsqEntry) (l : List TsqEntry) : List TsqEntry := l.filter fun f => f.place != e.place

theorem setTsq_eq (e : TsqEntry) (s : State) :
    setTsq e s = { s with patrol := { s.patrol with tsq := replacedJob e s.patrol.tsq } } := by
  simp only [setTsq, names_eq, decide_eq_true_eq]
  rfl

theorem removeTsq_eq (e : TsqEntry) (s : State) :
    removeTsq e s = { s with patrol := { s.patrol with tsq := otherJobs e s.patrol.tsq } } := by
  have hnames : ∀ f : TsqEntry, (!f.names e.rank e.bank e.row) = (f.place != e.place) := fun f => by
    rw [names_eq, bne, Bool.beq_eq_decide_eq]
    rfl
  simp only [removeTsq, hnames]
  rfl

theorem replacedJob_places (e : TsqEntry) (l : List TsqEntry) :
    (replacedJob e l).map TsqEntry.place = l.map TsqEntry.place := by
  rw [replacedJob, List.map_map]
  refine List.map_congr_left fun f _ => ?_
  rw [Function.comp_apply]
  split
  next h => exact h.symm
  next => rfl

theorem place_notMem_otherJobs (e : TsqEntry) (l : List TsqEntry) : e.place ∉ (otherJobs e l).map TsqEntry.place := by
  simp [otherJobs]

/-! ## Insertion (R92) -/

section

variable {s : State} {rank bank row : Nat} (neighbour : Bool)

theorem tsqInsert_clearing (h : s.maint.clearing = true) : tsqInsert rank bank row neighbour s = s := if_pos h

/-- An insertion for a row that has an entry is merged into it: no other entry has that row. -/
theorem tsqInsert_merged (hb : JobsBounded s) (hc : s.maint.clearing = false) {e : TsqEntry} (he : e ∈ s.patrol.tsq)
    (hp : e.place = (rank, bank, row)) :
    tsqInsert rank bank row neighbour s = { s with
      patrol := { s.patrol with tsq := s.patrol.tsq.map fun f => if f.place = (rank, bank, row) then
        { f with recheck := f.recheck || !neighbour, neighbour := f.neighbour || neighbour } else f }
      counters := { s.counters with tsqMerged := satAdd s.counters.tsqMerged 1 } } := by
  obtain ⟨-, hnodup⟩ := hb
  have hunique : ∀ f ∈ s.patrol.tsq, f.place = (rank, bank, row) → f = e := fun f hf hfp =>
    List.inj_on_of_nodup_map hnodup hf he (hfp.trans hp.symm)
  have hfind : s.patrol.tsq.find? (TsqEntry.names rank bank row) = some e := by
    cases hfind : s.patrol.tsq.find? (TsqEntry.names rank bank row) with
    | none => exact absurd (List.find?_eq_none.1 hfind e he) (by simp [names_eq, hp])
    | some f =>
      have hf : f.place = (rank, bank, row) := by simpa [names_eq] using List.find?_some hfind
      rw [hunique f (List.mem_of_find?_eq_some hfind) hf]
  have hmap : replacedJob { e with recheck := e.recheck || !neighbour, neighbour := e.neighbour || neighbour }
      s.patrol.tsq = s.patrol.tsq.map fun f => if f.place = (rank, bank, row) then
        { f with recheck := f.recheck || !neighbour, neighbour := f.neighbour || neighbour } else f := by
    refine List.map_congr_left fun f hf => ?_
    rw [← hp]
    refine if_ctx_congr Iff.rfl (fun h => ?_) fun _ => rfl
    rw [hunique f hf (h.trans hp)]
  simp only [tsqInsert, hc, hfind, setTsq_eq, hmap]
  rfl

theorem find?_names_none (h : ∀ e ∈ s.patrol.tsq, e.place ≠ (rank, bank, row)) :
    s.patrol.tsq.find? (TsqEntry.names rank bank row) = none :=
  List.find?_eq_none.2 fun e he => by simpa [names_eq] using h e he

theorem tsqInsert_queued (hc : s.maint.clearing = false) (hnew : ∀ e ∈ s.patrol.tsq, e.place ≠ (rank, bank, row))
    (hroom : s.patrol.tsq.length < 16) :
    tsqInsert rank bank row neighbour s = { s with
      patrol := { s.patrol with tsq := s.patrol.tsq ++
        [{ rank := rank, bank := bank, row := row, recheck := !neighbour, neighbour := neighbour, nextCol := 0
           inService := false, reading := false }] }
      counters := { s.counters with tsqInserted := satAdd s.counters.tsqInserted 1 } } := by
  rw [tsqInsert, hc, if_neg Bool.false_ne_true, find?_names_none hnew]
  exact if_pos hroom

theorem tsqInsert_dropped (hc : s.maint.clearing = false) (hnew : ∀ e ∈ s.patrol.tsq, e.place ≠ (rank, bank, row))
    (hfull : s.patrol.tsq.length = 16) :
    tsqInsert rank bank row neighbour s = raise .tsqDropped (count .tsqDropped s) := by
  rw [tsqInsert, hc, if_neg Bool.false_ne_true, find?_names_none hnew]
  exact if_neg (by rw [hfull]; decide)

end

/-! ## The issue of lines leaves the queue alone -/

/-- The queue and the two counters of finished jobs stand. -/
structure JobsSame (s t : State) : Prop where
  tsq : t.patrol.tsq = s.patrol.tsq
  done : t.counters.targetedJobsDone = s.counters.targetedJobsDone
  discarded : t.counters.targetedJobsDiscarded = s.counters.targetedJobsDiscarded

theorem JobsSame.trans {a b c : State} (h : JobsSame a b) (k : JobsSame b c) : JobsSame a c :=
  ⟨k.tsq.trans h.tsq, k.done.trans h.done, k.discarded.trans h.discarded⟩

theorem raise_jobs (c : Cause) (s : State) : JobsSame s (raise c s) := by
  constructor <;> rw [raise_eq]

theorem recompute_jobs (s : State) : JobsSame s (recompute s) := by
  cases h : s.patrol.active with
  | none =>
    rw [recompute_of_none h]
    exact ⟨rfl, rfl, rfl⟩
  | some w =>
    rw [recompute_of_some h, reportRisk]
    dsimp only
    split
    · have hcounted : ∀ t, JobsSame t (count .sweepsAtRisk (raise .sweepAtRisk t)) := fun t =>
        (raise_jobs _ t).trans ⟨rfl, rfl, rfl⟩
      refine JobsSame.trans ?_ (hcounted _)
      exact ⟨rfl, rfl, rfl⟩
    · exact ⟨rfl, rfl, rfl⟩

/-- A line of the active sweep issued, before the recompute of each 4,096th. -/
def lineIssued (w : Sweep) (s : State) : State :=
  let held := (wbFind s w.cursor).isSome
  { s with
    patrol := { s.patrol with active := some { w with
      cursor := w.cursor + 1, remaining := w.remaining - 1, issued := w.issued + 1
      inFlight := if held then w.inFlight else w.inFlight + 1, jobSince := false, deferred := false } }
    port := { s.port with accesses := if held then s.port.accesses else s.port.accesses ++
      [{ line := w.cursor, kind := .patrolRead true, phase := .waiting }] }
    counters := { s.counters with
      patrolLines := satAdd s.counters.patrolLines 1
      scrubLinesSkipped := countedIf held s.counters.scrubLinesSkipped } }

theorem issueLine_eq (w : Sweep) (s : State) :
    issueLine w s = if (w.issued + 1) % 4096 = 0 then recompute (lineIssued w s) else lineIssued w s := by
  unfold issueLine lineIssued
  cases (wbFind s w.cursor).isSome <;> rfl

theorem issueLine_jobs (w : Sweep) (s : State) : JobsSame s (issueLine w s) := by
  rw [issueLine_eq]
  have hissued : JobsSame s (lineIssued w s) := ⟨rfl, rfl, rfl⟩
  split
  · exact hissued.trans (recompute_jobs _)
  · exact hissued

theorem issueBoundary_jobs (w : Sweep) (s : State) : JobsSame s (issueBoundary w s) := by
  unfold issueBoundary
  split <;> exact issueLine_jobs _ _

theorem releaseBoundary_jobs (s : State) : JobsSame s (releaseBoundary s) := ⟨rfl, rfl, rfl⟩

/-! ## A job that ends (R95, R96) -/

section

variable (e : TsqEntry) (s : State)

/-- The state of a completed job, before the deferred issue. -/
def jobDone : State := recompute { s with
  patrol := { s.patrol with
    active := s.patrol.active.map fun w => { w with jobSince := true }
    held := s.patrol.held.map fun w => { w with jobSince := true }, tsq := otherJobs e s.patrol.tsq }
  counters := { s.counters with targetedJobsDone := satAdd s.counters.targetedJobsDone 1 } }

theorem completeJob_eq : completeJob e s = deferredIssue (jobDone e s) := by
  rw [completeJob, removeTsq_eq]
  rfl

theorem jobDone_engine : (jobDone e s).patrol.engine = s.patrol.engine := by
  obtain ⟨hengine, -⟩ := recompute_engine { s with
    patrol := { s.patrol with
      active := s.patrol.active.map fun w => { w with jobSince := true }
      held := s.patrol.held.map fun w => { w with jobSince := true }, tsq := otherJobs e s.patrol.tsq }
    counters := { s.counters with targetedJobsDone := satAdd s.counters.targetedJobsDone 1 } }
  exact hengine

theorem deferredIssue_jobs : JobsSame s (deferredIssue s) := by
  unfold deferredIssue
  split
  · split
    · exact issueBoundary_jobs _ _
    · exact releaseBoundary_jobs s
  · exact ⟨rfl, rfl, rfl⟩

/-- A completed job is counted and out of the queue. -/
theorem completeJob_counted : (completeJob e s).counters.targetedJobsDone = satAdd s.counters.targetedJobsDone 1 ∧
    (completeJob e s).patrol.tsq = otherJobs e s.patrol.tsq := by
  rw [completeJob_eq]
  have hjobs := (recompute_jobs _).trans (deferredIssue_jobs (jobDone e s))
  exact ⟨hjobs.done, hjobs.tsq⟩

/-- The state of a discarded job, its boundary given back. -/
def jobDiscarded : State := releaseBoundary { s with
  patrol := { s.patrol with tsq := otherJobs e s.patrol.tsq }
  counters := { s.counters with targetedJobsDiscarded := satAdd s.counters.targetedJobsDiscarded 1 } }

theorem discardJob_of_idle (h : s.patrol.active = none) : discardJob e s = jobDiscarded e s := by
  rw [discardJob, removeTsq_eq, jobDiscarded, releaseBoundary]
  simp only [count_patrol, h]
  rfl

/-- A job discarded while a sweep holds the active slot gives back the boundary it may have held. -/
theorem discardJob_of_active {w : Sweep} (h : s.patrol.active = some w) :
    discardJob e s = if w.deferred && s.patrol.engine == .running then
      atBoundary { w with deferred := false } (jobDiscarded e s) else jobDiscarded e s := by
  have hcases : discardJob e s = match s.patrol.active with
      | some w => if w.deferred && s.patrol.engine == .running then
          atBoundary { w with deferred := false } (jobDiscarded e s) else jobDiscarded e s
      | none => count .targetedJobsDiscarded (removeTsq e s) := by
    rw [discardJob, removeTsq_eq]
    rfl
  rw [hcases, h]

theorem discardJob_kept (h : ∀ w ∈ s.patrol.active, w.deferred = false ∨ s.patrol.engine ≠ .running) :
    discardJob e s = jobDiscarded e s := by
  cases ha : s.patrol.active with
  | none => exact discardJob_of_idle e s ha
  | some w =>
    rw [discardJob_of_active e s ha, if_neg]
    obtain hw | hw := h w ha <;> simp [hw]

/-- A job discarded at a boundary it held gives it to the next job, or to the sweep. -/
theorem discardJob_deferred {w : Sweep} (ha : s.patrol.active = some w) (hd : w.deferred = true)
    (hr : s.patrol.engine = .running) :
    discardJob e s = match (if w.jobSince then none else nextJob (jobDiscarded e s)) with
      | some f => setTsq { f with inService := true, reading := true }
          { jobDiscarded e s with patrol := { (jobDiscarded e s).patrol with active := some w } }
      | none => issueBoundary { w with deferred := false } (jobDiscarded e s) := by
  have hw : w = { w with deferred := true } := by rw [← hd]
  have hheld : (w.deferred && s.patrol.engine == .running) = true := by simp [hd, hr]
  rw [discardJob_of_active e s ha, if_pos hheld, atBoundary, if_neg Bool.false_ne_true]
  conv_rhs => rw [hw]
  rfl

theorem setTsq_places (f : TsqEntry) (s : State) :
    (setTsq f s).patrol.tsq.map TsqEntry.place = s.patrol.tsq.map TsqEntry.place := by
  rw [setTsq_eq]
  exact replacedJob_places f _

/-- A discarded job is counted and its place is out of the queue. -/
theorem discardJob_counted :
    (discardJob e s).counters.targetedJobsDiscarded = satAdd s.counters.targetedJobsDiscarded 1 ∧
      e.place ∉ (discardJob e s).patrol.tsq.map TsqEntry.place := by
  have hout : e.place ∉ (jobDiscarded e s).patrol.tsq.map TsqEntry.place := place_notMem_otherJobs e _
  by_cases hkept : ∀ w ∈ s.patrol.active, w.deferred = false ∨ s.patrol.engine ≠ .running
  · rw [discardJob_kept e s hkept]
    exact ⟨rfl, hout⟩
  · push Not at hkept
    obtain ⟨w, ha, hd, hr⟩ := hkept
    rw [discardJob_deferred e s ha (by simpa using hd) hr]
    split
    · rw [setTsq_places]
      exact ⟨rfl, hout⟩
    · have hjobs := issueBoundary_jobs { w with deferred := false } (jobDiscarded e s)
      rw [hjobs.tsq]
      exact ⟨hjobs.discarded, hout⟩

end

/-! ## The next column (R29, R93, R143) -/

theorem unreadLine_iff (s : State) (rank bank row col : Nat) :
    unreadLine s rank bank row col = true ↔ s.port.geom.visible ≤ row ∧
      ((∃ g, slotAt s rank bank (row - s.port.geom.visible) = .reserved g) ∨
        ∃ g c, slotAt s rank bank (row - s.port.geom.visible) = .copying g c ∧ c ≤ col) := by
  rw [unreadLine, Bool.and_eq_true, decide_eq_true_eq]
  refine and_congr_right fun _ => ?_
  cases slotAt s rank bank (row - s.port.geom.visible) <;> simp

theorem wbFind_isSome_iff (s : State) (line : Nat) : (wbFind s line).isSome = true ↔ ∃ f ∈ s.wbq, f.line = line := by
  simp [wbFind, List.find?_isSome]

section

variable {s : State} {e : TsqEntry}

theorem eligible_iff (e : TsqEntry) (s : State) : e.eligible s.quiet = true ↔ s.window = none ∨ e.neighbour = true := by
  cases hw : s.window <;> simp [TsqEntry.eligible, State.quiet, hw]

theorem advanceJob_last (h : s.port.geom.columns ≤ e.nextCol) : advanceJob e s = completeJob e s := if_pos h

theorem advanceJob_stopped (h : e.nextCol < s.port.geom.columns) (hq : e.eligible s.quiet = false) :
    advanceJob e s = releaseBoundary (setTsq { e with reading := false } s) := by
  rw [advanceJob, if_neg (Nat.not_le.2 h), if_pos (by rw [hq]; rfl)]

theorem advanceJob_empty (h : e.nextCol < s.port.geom.columns) (hq : e.eligible s.quiet = true)
    (hrow : heldRow s e.rank e.bank e.row = none) : advanceJob e s = discardJob e s := by
  rw [advanceJob, if_neg (Nat.not_le.2 h), if_neg (by rw [hq]; decide), hrow]

theorem advanceJob_column (h : e.nextCol < s.port.geom.columns) (hq : e.eligible s.quiet = true) {l : Nat}
    (hrow : heldRow s e.rank e.bank e.row = some l) :
    let line := s.port.geom.lineOf e.rank e.bank l e.nextCol
    let t := setTsq { e with nextCol := e.nextCol + 1 } s
    advanceJob e s =
      if unreadLine s e.rank e.bank e.row e.nextCol then t
      else if (wbFind s line).isSome then count .scrubLinesSkipped t
      else takeAccess line (.targetedRead e.row) .waiting t := by
  rw [advanceJob, if_neg (Nat.not_le.2 h), if_neg (by rw [hq]; decide), hrow]

/-- What a job's next column moves, by the three cases of R143, R29 and R95. -/
theorem advanceJob_column_spec (h : e.nextCol < s.port.geom.columns) (hq : e.eligible s.quiet = true) {l : Nat}
    (hrow : heldRow s e.rank e.bank e.row = some l) :
    let t := advanceJob e s
    let line := s.port.geom.lineOf e.rank e.bank l e.nextCol
    let unread := unreadLine s e.rank e.bank e.row e.nextCol = true
    let held := (wbFind s line).isSome = true
    t.patrol = { s.patrol with tsq := replacedJob { e with nextCol := e.nextCol + 1 } s.patrol.tsq } ∧
      (unread ∨ held → t.port = s.port) ∧
      (¬ unread → ¬ held →
        t.port.accesses = s.port.accesses ++ [{ line := line, kind := .targetedRead e.row, phase := .waiting }]) ∧
      (¬ unread → held → t.counters.scrubLinesSkipped = satAdd s.counters.scrubLinesSkipped 1) ∧
      t = { s with patrol := t.patrol, port := { s.port with accesses := t.port.accesses }, counters := t.counters } := by
  intro t line unread held
  simp only [t, advanceJob_column h hq hrow, setTsq_eq]
  by_cases hu : unread
  · rw [if_pos hu]
    exact ⟨rfl, fun _ => rfl, fun hn => absurd hu hn, fun hn => absurd hu hn, rfl⟩
  · rw [if_neg hu]
    by_cases hh : held
    · rw [if_pos hh]
      exact ⟨rfl, fun _ => rfl, fun _ hn => absurd hh hn, fun _ _ => rfl, rfl⟩
    · rw [if_neg hh]
      exact ⟨rfl, fun hor => absurd hor (not_or.2 ⟨hu, hh⟩), fun _ _ => rfl, fun _ hn => absurd hn hh, rfl⟩

end

/-! ## The obligation -/

/-- The deferred issue at a completion, by the active sweep it finds. -/
theorem deferredIssue_eq (v : State) :
    deferredIssue v = match v.patrol.active with
      | some w => if w.deferred = true ∧ v.patrol.engine = .running then issueBoundary w v else releaseBoundary v
      | none => v := by
  unfold deferredIssue
  cases v.patrol.active <;> simp only [Bool.and_eq_true, beq_iff_eq]

/-- Settles O39: an insertion by the case of R92 that applies, and an advance by the case of R93, R95 and R96. -/
theorem targetedJobsReadTheirRow : Obligations.TargetedJobsReadTheirRow := by
  refine ⟨fun s rank bank row neighbour hb => ⟨tsqInsert_clearing neighbour, fun hc =>
      ⟨fun e he hp => tsqInsert_merged neighbour hb hc he hp, tsqInsert_queued neighbour hc, fun hnew hfull => ?_⟩⟩,
    fun s e _ _ => ?_⟩
  · rw [tsqInsert_dropped neighbour hc hnew hfull, raise_eq]
    exact ⟨rfl, rfl, by simp [Cause.mark, Cause.bit], rfl⟩
  · intro t columns others released issued
    have hissued : ∀ w v, issued w v = issueBoundary w v := fun w v => by
      cases hmode : (regionAt v w.region).entry.mode <;> simp only [issued, issueBoundary, burstLines, hmode]
    refine ⟨fun hlast => ?_, fun hcol hwin hn => ?_, fun hcol hel => ⟨fun hrow => ?_, fun l hrow => ?_⟩⟩
    · have ht : t = completeJob e s := advanceJob_last hlast
      obtain ⟨hdone, htsq⟩ := completeJob_counted e s
      rw [ht]
      refine ⟨hdone, htsq, ?_⟩
      rw [completeJob_eq, deferredIssue_eq, jobDone_engine]
      simp only [hissued]
      rfl
    · have hstopped : e.eligible s.quiet = false := by
        rw [← Bool.not_eq_true, eligible_iff, hn]
        simpa using Option.isSome_iff_ne_none.1 hwin
      simp only [t, advanceJob_stopped hcol hstopped, setTsq_eq]
      rfl
    · have ht : t = discardJob e s := advanceJob_empty hcol ((eligible_iff e s).2 hel) hrow
      obtain ⟨hcount, hout⟩ := discardJob_counted e s
      simp only [hissued]
      rw [ht]
      exact ⟨hcount, hout, discardJob_kept e s, fun w => discardJob_deferred e s⟩
    · intro line unread held
      have hspec := advanceJob_column_spec hcol ((eligible_iff e s).2 hel) hrow
      simp only [unreadLine_iff, wbFind_isSome_iff] at hspec
      exact hspec

end Sys2Proof.Machine
end

section
/-! O37: the issue times of a sweep, its completion, and the order of the engine's immediate actions (R76 to R79, R81,
R82, R93 to R96). -/

namespace Sys2Proof.Machine

open Sys2Proof

/-! ## A moment arrives (R196) -/

/-- A sweep in a slot once a moment has arrived. -/
def arrivedSweep (m : FineTime) (s : State) (w : Sweep) : Sweep := if 0 < fineDiff m s.maint.now then w.keep m else w

theorem arrive_active {s : State} {w : Sweep} (h : s.patrol.active = some w) (m : FineTime) :
    (arrive m s).patrol.active = some (arrivedSweep m s w) := by
  unfold arrive arrivedSweep
  split
  · simp [setNow, h]
  · exact h

/-- Only the times of a sweep move when a moment arrives. -/
theorem arrivedSweep_fields (m : FineTime) (s : State) (w : Sweep) : let v := arrivedSweep m s w
    v.region = w.region ∧ v.cursor = w.cursor ∧ v.remaining = w.remaining ∧ v.issued = w.issued ∧ v.pace = w.pace ∧
      v.inFlight = w.inFlight ∧ v.burstLeft = w.burstLeft ∧ v.jobSince = w.jobSince ∧ v.deferred = w.deferred := by
  unfold arrivedSweep
  split <;> exact ⟨rfl, rfl, rfl, rfl, rfl, rfl, rfl, rfl, rfl⟩

theorem arrive_entry (m : FineTime) (s : State) (i : Nat) :
    (regionAt (arrive m s) i).entry = (regionAt s i).entry := by
  unfold arrive
  split
  · simp only [regionAt, setNow, List.getD_eq_getElem?_getD, List.getElem?_map]
    cases s.regions[i]? <;> rfl
  · rfl

theorem arrive_geom (m : FineTime) (s : State) : (arrive m s).port.geom = s.port.geom := by
  unfold arrive
  split <;> rfl

theorem arrive_wbFind (m : FineTime) (s : State) (line : Nat) :
    (wbFind (arrive m s) line).isSome = (wbFind s line).isSome := by
  unfold arrive
  split
  · simp [wbFind, setNow, List.find?_map]
  · rfl

/-! ## The issue at a line boundary (R76 to R78, R94) -/

/-- The lines of the issue at a paced boundary: one, or those of a burst. -/
def issueLength (mode : AccessMode) (s : State) (w : Sweep) : Nat := if mode = .single then 1 else burstLines s w

theorem issueBoundary_paced {s : State} {w : Sweep} {mode : AccessMode} (h : (regionAt s w.region).entry.mode = mode)
    (hm : mode = .single ∨ mode = .burst) (hb : w.burstLeft = 0) :
    issueBoundary w s = issueLine { w with
      nextIssue := s.maint.now.later (issueLength mode s w * (w.pace + 1) * 5)
      burstLeft := issueLength mode s w - 1 } s := by
  unfold issueBoundary
  obtain rfl | rfl := hm
  · simp only [h, issueLength, if_true, Nat.one_mul, Nat.sub_self, ← hb]
  · simp only [h, issueLength, reduceCtorEq, if_false]

/-- At a boundary the sweep has not given up, the next job takes it, or the sweep issues. -/
theorem atBoundary_eq {s : State} {w : Sweep} (h : w.deferred = false) :
    atBoundary w s = match (if w.jobSince then none else nextJob s) with
      | some e => setTsq { e with inService := true, reading := true }
          { s with patrol := { s.patrol with active := some { w with deferred := true } } }
      | none => issueBoundary w s := by
  rw [atBoundary, if_neg (by simp [h])]
  rfl

/-- The next issue time of a sweep at its paced boundary (R77, R78). -/
theorem exec_at_boundary {s : State} {w : Sweep} {c : Instr} {mode : AccessMode}
    (hc : c = .patrolLineIssue ∧ mode = .single ∨ c = .burstIssue ∧ mode = .burst) (ha : s.patrol.active = some w)
    (hb : atPacedBoundary mode s w = true) :
    exec c s = .next (settle (atBoundary (arrivedSweep w.nextIssue s w) (arrive w.nextIssue s))) := by
  have hreach : reachIssue (arrive w.nextIssue s) =
      atBoundary (arrivedSweep w.nextIssue s w) (arrive w.nextIssue s) := by
    simp only [reachIssue, arrive_active ha]
  obtain ⟨rfl, rfl⟩ | ⟨rfl, rfl⟩ := hc
  · show execPatrolLineIssue s = _
    simp only [execPatrolLineIssue, ha, hb, if_true, hreach]
  · show execBurstIssue s = _
    simp only [execBurstIssue, ha, hb, if_true, hreach]

/-- The issue of a paced boundary whose moment has arrived, by the state before it: the lines of the issue and the skip are
those found then. -/
theorem issueBoundary_arrived {s : State} {w : Sweep} {mode : AccessMode}
    (hmode : (regionAt s w.region).entry.mode = mode) (hm : mode = .single ∨ mode = .burst) (hf : w.inFlight = 0)
    (hb : w.burstLeft = 0) (hd : w.deferred = false) :
    let v := arrive w.nextIssue s
    let w' := arrivedSweep w.nextIssue s w
    let n := issueLength mode s w
    let held := (wbFind s w.cursor).isSome
    let u := { v with
      patrol := { v.patrol with active := some { w' with
        nextIssue := v.maint.now.later (n * (w.pace + 1) * 5), burstLeft := n - 1, cursor := w.cursor + 1
        remaining := w.remaining - 1, issued := w.issued + 1, inFlight := if held then 0 else 1, jobSince := false } }
      port := { v.port with accesses := if held then v.port.accesses else v.port.accesses ++
        [{ line := w.cursor, kind := .patrolRead true, phase := .waiting }] }
      counters := { s.counters with
        patrolLines := satAdd s.counters.patrolLines 1
        scrubLinesSkipped := countedIf held s.counters.scrubLinesSkipped } }
    issueBoundary w' v = if (w.issued + 1) % 4096 = 0 then recompute u else u := by
  intro v w' n held u
  obtain ⟨hregion, hcursor, hremaining, hissued, hpace, hflight, hburst, -, hdeferred⟩ :=
    arrivedSweep_fields w.nextIssue s w
  obtain ⟨-, -, -, -, hcounters⟩ := arrive_aside w.nextIssue s
  have hentry : (regionAt v w'.region).entry = (regionAt s w.region).entry := by
    rw [hregion]
    exact arrive_entry _ _ _
  have hn : issueLength mode v w' = n := by
    simp only [n, issueLength, burstLines, hentry, hcursor, hremaining, v, w', arrive_geom]
  have hu : lineIssued { w' with
      nextIssue := v.maint.now.later (n * (w'.pace + 1) * 5), burstLeft := n - 1 } v = u := by
    simp only [lineIssued, w', v, u, held, hcursor, hremaining, hissued, hpace, hflight, hf, hdeferred, hd, hcounters,
      arrive_wbFind, Nat.zero_add]
  rw [issueBoundary_paced (hentry ▸ hmode) hm (hburst.trans hb), hn, issueLine_eq, hu]
  exact if_congr (by rw [hissued]) rfl rfl

/-! ## The completion of a sweep (R81, R82) -/

/-- The status of a region whose sweep has just completed. -/
def finishedRegion (w : Sweep) (s : State) : Region :=
  let g := regionAt s w.region
  { g with status := { g.status with
      state := .idle, lastEnd := s.maint.now.us, completed := satAdd g.status.completed 1
      late := satAdd g.status.late (elapsedBefore w.deadline s.maint.now.us).toNat } }

/-- The state at a completion, before its records and causes. -/
def finishedState (w : Sweep) (s : State) : State := setRegion w.region (finishedRegion w s) s

/-- A late completion's record and cause. -/
def reportLate (w : Sweep) (s : State) : State := raise .sweepLate (handRecord (sweepRecord 10 w s) s)

theorem finishSweep_eq (w : Sweep) (s : State) :
    let u := if elapsedBefore w.deadline s.maint.now.us then reportLate w (finishedState w s) else finishedState w s
    finishSweep w s = if (regionAt s w.region).entry.sweepRecords then handRecord (sweepRecord 9 w u) u else u := rfl

/-- The records and causes of a completion leave the regions and the engine. -/
theorem finishSweep_noted (w : Sweep) (s : State) : Noted (finishedState w s) (finishSweep w s) := by
  have hlate : Noted (finishedState w s) (if elapsedBefore w.deadline s.maint.now.us then
      reportLate w (finishedState w s) else finishedState w s) := by
    split
    · exact (handRecord_noted _ _).trans (raise_alerted _ _).noted
    · exact .refl _
  rw [finishSweep_eq]
  split
  · exact hlate.trans (handRecord_noted _ _)
  · exact hlate

theorem finishSweep_regions (w : Sweep) (s : State) :
    (finishSweep w s).regions = s.regions.set w.region (finishedRegion w s) := by
  obtain ⟨-, -, -, -, -, -, hregions, -⟩ := (finishSweep_noted w s).fields
  exact hregions

theorem finishSweep_patrol (w : Sweep) (s : State) : (finishSweep w s).patrol = s.patrol := by
  obtain ⟨-, hpatrol, -⟩ := finishSweep_spec w s
  exact hpatrol

/-- A record takes no pending cause back. -/
theorem handRecord_pending (r : Record) {s : State} {i : Nat} (h : s.report.pending.getLsbD i = true) :
    (handRecord r s).report.pending.getLsbD i = true := by
  by_cases ho : RingOpen s
  · rw [handRecord_open r ho]
    exact h
  · rw [ringOpen_iff, not_and] at ho
    unfold handRecord
    split
    next hset =>
      rw [if_neg (ho hset), loseRecord, (raise_counts _ _).2, BitVec.getLsbD_or, Bool.or_eq_true]
      exact .inl h
    next => exact h

theorem raise_pending_bit (c : Cause) (s : State) {i : Nat} (h : c.mark.getLsbD i = true) :
    (raise c s).report.pending.getLsbD i = true := by
  rw [(raise_counts _ _).2, BitVec.getLsbD_or, h, Bool.or_true]

theorem finishSweep_late {w : Sweep} {s : State} (h : elapsedBefore w.deadline s.maint.now.us = true) :
    (finishSweep w s).report.pending.getLsbD 5 = true := by
  have hraised : (reportLate w (finishedState w s)).report.pending.getLsbD 5 = true :=
    raise_pending_bit _ _ (by decide)
  rw [finishSweep_eq]
  simp only [h, if_true]
  split
  · exact handRecord_pending _ hraised
  · exact hraised

theorem finishSweep_quiet {w : Sweep} {s : State} (h : elapsedBefore w.deadline s.maint.now.us = false)
    (hr : (regionAt s w.region).entry.sweepRecords = false) : finishSweep w s = finishedState w s := by
  simp only [finishSweep_eq, h, hr, Bool.false_eq_true, if_false]

/-- The SWEEP_DONE record of a sweep that is not late joins line order (R81, R170). -/
theorem finishSweep_recorded {w : Sweep} {s : State} (hi : w.region < s.regions.length)
    (h : elapsedBefore w.deadline s.maint.now.us = false) (hr : (regionAt s w.region).entry.sweepRecords = true)
    (ho : RingOpen s) :
    (finishSweep w s).port.accesses.getLast? = some (recordWriteOf (sweepRecord 9 w s) s) := by
  have hregion : regionAt (finishedState w s) w.region = finishedRegion w s := regionAt_setRegion hi _
  have hrecord : sweepRecord 9 w (finishedState w s) = sweepRecord 9 w s := by
    simp only [sweepRecord, hregion]
    rfl
  have hcritical : isCritical (finishedState w s) (sweepRecord 9 w s).region =
      isCritical s (sweepRecord 9 w s).region := by
    simp only [sweepRecord, isCritical, hregion]
    rfl
  have hwrite : recordWriteOf (sweepRecord 9 w s) (finishedState w s) = recordWriteOf (sweepRecord 9 w s) s := by
    simp only [recordWriteOf, hcritical]
    rfl
  simp only [finishSweep_eq, h, hr, Bool.false_eq_true, if_false, if_true, hrecord]
  rw [handRecord_open _ (show RingOpen (finishedState w s) from ho), ← hwrite]
  exact List.getLast?_concat

/-! ## The staged sweep follows (R71, R82) -/

/-- An engine without an active sweep is IDLE. -/
def IdleIfEmpty (s : State) : Prop := s.patrol.active = none → s.patrol.engine = .idle

theorem selectStaged_idleIfEmpty {s : State} (h : IdleIfEmpty s) : IdleIfEmpty (selectStaged s) := by
  rwa [IdleIfEmpty, selectStaged_active, selectStaged_engine]

theorem promote_idleIfEmpty {s : State} (h : IdleIfEmpty s) : IdleIfEmpty (promote s) := by
  unfold promote
  split
  next p _ _ =>
    split
    · obtain ⟨hactive, -⟩ := startSweep_slots p.region p.hostPlaced
        { s with patrol := { s.patrol with staged := none } }
      intro hnone
      rw [hnone] at hactive
      cases hactive
    · exact h
  next => exact h

theorem runSelection_idleIfEmpty {s : State} (h : IdleIfEmpty s) : IdleIfEmpty (runSelection s) := by
  have hselected := selectStaged_idleIfEmpty h
  unfold runSelection
  dsimp only
  split
  · exact selectStaged_idleIfEmpty (promote_idleIfEmpty hselected)
  · exact hselected

/-- The active slot empty and the engine IDLE, as a completion leaves them before the staged sweep moves up. -/
def slotEmptied (w : Sweep) (s : State) : State :=
  let t := finishSweep w s
  reviewOverride { t with patrol := { t.patrol with active := none, engine := .idle } }

theorem slotEmptied_patrol (w : Sweep) (s : State) :
    (slotEmptied w s).patrol = { s.patrol with active := none, engine := .idle } := by
  rw [slotEmptied, reviewOverride_idle rfl, finishSweep_patrol]

theorem completeActive_eq (w : Sweep) (s : State) :
    let u := runSelection (promote (slotEmptied w s))
    completeActive w s = if u.patrol.staged.isNone then raise .stagedEmpty u else u := rfl

theorem raise_patrol (c : Cause) (s : State) : (raise c s).patrol = s.patrol := by rw [raise_eq]

theorem completeActive_patrol (w : Sweep) (s : State) :
    (completeActive w s).patrol = (runSelection (promote (slotEmptied w s))).patrol := by
  rw [completeActive_eq]
  split
  · exact raise_patrol _ _
  · rfl

theorem completeActive_stagedEmpty {w : Sweep} {s : State} (h : (completeActive w s).patrol.staged = none) :
    (completeActive w s).report.pending.getLsbD 6 = true := by
  rw [completeActive_patrol] at h
  rw [completeActive_eq, h]
  exact raise_pending_bit _ _ (by decide)

theorem completeActive_idle {w : Sweep} {s : State} (h : (completeActive w s).patrol.active = none) :
    (completeActive w s).patrol.engine = .idle := by
  have hemptied : IdleIfEmpty (slotEmptied w s) := fun _ => by rw [slotEmptied_patrol]
  rw [completeActive_patrol] at h ⊢
  exact runSelection_idleIfEmpty (promote_idleIfEmpty hemptied) h

/-- A staged sweep moves up to the slot that a completion empties. -/
theorem completeActive_follows {w : Sweep} {s : State} {p : Staged} (h : s.patrol.staged = some p) :
    ∃ v, (completeActive w s).patrol.active = some v ∧ v.region = p.region := by
  have hpromoted : promote (slotEmptied w s) = startSweep p.region p.hostPlaced
      { slotEmptied w s with patrol := { (slotEmptied w s).patrol with staged := none } } := by
    simp only [promote, slotEmptied_patrol, h]
    rfl
  obtain ⟨hactive, -⟩ := startSweep_slots p.region p.hostPlaced
    { slotEmptied w s with patrol := { (slotEmptied w s).patrol with staged := none } }
  rw [← hpromoted] at hactive
  obtain ⟨v, hv, hregion⟩ := Option.map_eq_some_iff.1 hactive
  refine ⟨v, ?_, hregion⟩
  rw [completeActive_patrol, runSelection_of_active (by rw [hv]; rfl), selectStaged_active, hv]

/-! ## The order of the immediate actions -/

theorem isDone_iff (w : Sweep) : w.isDone = true ↔ w.remaining = 0 ∧ w.inFlight = 0 := by
  simp [Sweep.isDone]

theorem readOutstanding_iff (s : State) (e : TsqEntry) : readOutstanding s e = true ↔
    ∃ b ∈ s.port.accesses, b.kind = .targetedRead e.row ∧ s.port.geom.rankOf b.line = e.rank ∧
      s.port.geom.bankOf b.line = e.bank := by
  simp [readOutstanding, and_assoc]

theorem burstReady_iff (s : State) (w : Sweep) : burstReady s w = true ↔ s.patrol.engine = .running ∧
    0 < w.burstLeft ∧ ∀ b ∈ s.port.accesses, b.kind = .patrolRead true → b.phase ≠ .waiting := by
  simp [burstReady, and_assoc]

theorem sustainedReady_iff (s : State) (w : Sweep) : sustainedReady s w = true ↔ s.patrol.engine = .running ∧
    (regionAt s w.region).entry.mode = .sustained ∧ w.inFlight < 4 ∧ 0 < w.remaining ∧ w.deferred = false := by
  simp [sustainedReady, and_assoc]

theorem filter_eq_none {o : Option Sweep} {p : Sweep → Bool} (h : ∀ w ∈ o, p w = false) : o.filter p = none := by
  cases o with
  | none => rfl
  | some w => rw [Option.filter_some, h w rfl]; rfl

theorem settleOnce_complete {s : State} {w : Sweep} (h : s.patrol.active = some w) (hw : w.isDone = true) :
    settleOnce s = some (completeActive w s) := by
  simp only [settleOnce, h, Option.filter_some, hw, if_true]

section

variable {s : State} (hactive : s.patrol.active.filter Sweep.isDone = none)

include hactive

theorem settleOnce_completeHeld {w : Sweep} (h : s.patrol.held = some w) (hw : w.isDone = true) :
    settleOnce s = some (completeHeld w s) := by
  simp only [settleOnce, hactive, h, Option.filter_some, hw, if_true]

variable (hheld : s.patrol.held.filter Sweep.isDone = none)

include hheld

theorem settleOnce_advance {e : TsqEntry} (h : jobToAdvance s = some e) : settleOnce s = some (advanceJob e s) := by
  simp only [settleOnce, hactive, hheld, h]

variable (hjob : jobToAdvance s = none)

include hjob

theorem settleOnce_burst {w : Sweep} (h : s.patrol.active = some w) (hw : burstReady s w = true) :
    settleOnce s = some (issueLine { w with burstLeft := w.burstLeft - 1 } s) := by
  rw [settleOnce, hactive, hheld, hjob, h, Option.filter_some, hw]
  rfl

theorem settleOnce_sustained {w : Sweep} (h : s.patrol.active = some w) (hb : burstReady s w = false)
    (hw : sustainedReady s w = true) : settleOnce s = some (atBoundary w s) := by
  rw [settleOnce, hactive, hheld, hjob, h, Option.filter_some, hb, Option.filter_some, hw]
  rfl

theorem settleOnce_begin (h : s.patrol.active = none ∨ s.patrol.engine ≠ .running) :
    settleOnce s = (nextJob s).map fun e => beginJob e s := by
  have hstopped : ∀ w ∈ s.patrol.active, s.patrol.engine ≠ .running := fun w hw => by
    obtain h | h := h
    · rw [h] at hw
      cases hw
    · exact h
  have hburst : s.patrol.active.filter (burstReady s) = none := filter_eq_none fun w hw => by
    rw [← Bool.not_eq_true, burstReady_iff]
    exact fun ⟨hrun, _⟩ => hstopped w hw hrun
  have hsustained : s.patrol.active.filter (sustainedReady s) = none := filter_eq_none fun w hw => by
    rw [← Bool.not_eq_true, sustainedReady_iff]
    exact fun ⟨hrun, _⟩ => hstopped w hw hrun
  have hnone : noSweepIssuing s = true := by
    rw [noSweepIssuing, Bool.or_eq_true, bne_iff_ne, Option.isNone_iff_eq_none]
    exact h
  rw [settleOnce, hactive, hheld, hjob, hburst, hsustained, hnone]
  rfl

end

/-! ## The obligation -/

/-- PATROL_LINE_ISSUE and BURST_ISSUE at the boundary of their mode: a job takes it, or the sweep issues. -/
theorem paced_issue {s : State} {w : Sweep} {c : Instr} {mode : AccessMode}
    (hc : c = .patrolLineIssue ∧ mode = .single ∨ c = .burstIssue ∧ mode = .burst) (ha : s.patrol.active = some w)
    (hb : atPacedBoundary mode s w = true) (hd : w.deferred = false) :
    let v := arrive w.nextIssue s
    let w' := arrivedSweep w.nextIssue s w
    (∀ e, (if w.jobSince then none else nextJob v) = some e →
      exec c s = .next (settle (setTsq { e with inService := true, reading := true }
        { v with patrol := { v.patrol with active := some { w' with deferred := true } } }))) ∧
    ((if w.jobSince then none else nextJob v) = none → exec c s = .next (settle (issueBoundary w' v))) := by
  intro v w'
  obtain ⟨-, -, -, -, -, -, -, hjob, hdeferred⟩ := arrivedSweep_fields w.nextIssue s w
  rw [exec_at_boundary hc ha hb, atBoundary_eq (hdeferred.trans hd), hjob]
  exact ⟨fun e he => by rw [he], fun hnone => by rw [hnone]⟩

/-- Settles O37: the paced issues, a completion with what follows it, and the immediate actions one after the other. -/
theorem sweepsIssueAndComplete : Obligations.SweepsIssueAndComplete := by
  refine ⟨fun s w c mode hc ha he hmode hf hb hr hd => ?_, fun s w hi => ?_, fun s hactive => ?_, fun s => ?_,
    issueLine_eq⟩
  · intro v
    obtain ⟨-, hcursor, hremaining, hissued, hpace, -⟩ := arrivedSweep_fields w.nextIssue s w
    have hboundary := (atPacedBoundary_iff mode s w).2 ⟨he, hmode, hf, hb, hr, hd⟩
    obtain ⟨hgiven, hissue⟩ := paced_issue hc ha hboundary hd
    refine ⟨_, arrive_active ha _, hcursor, hremaining, hissued, hpace, hgiven, fun hnone => ?_⟩
    have hm : mode = .single ∨ mode = .burst := hc.imp And.right And.right
    rw [hissue hnone, issueBoundary_arrived hmode hm hf hb hd]
    rfl
  · intro t u g late
    have hregions : t.regions = s.regions.set w.region (finishedRegion w s) := finishSweep_regions w s
    refine ⟨?_, fun i hne => ?_, finishSweep_patrol w s, finishSweep_late, fun hl hq => ?_,
      fun hl hq ho => finishSweep_recorded hi hl hq ho, fun ha hr hf => ?_, completeActive_stagedEmpty,
      completeActive_idle, fun p hp => completeActive_follows hp⟩
    · rw [regionAt, hregions]
      exact regionAt_setRegion hi _
    · simp only [regionAt, hregions, List.getD_eq_getElem?_getD, List.getElem?_set_ne (Ne.symm hne)]
    · exact (finishSweep_quiet hl hq).trans (by rw [hregions]; rfl)
    · exact settleOnce_complete ha ((isDone_iff w).2 ⟨hr, hf⟩)
  · intro readOf begun
    have hdone : s.patrol.active.filter Sweep.isDone = none := filter_eq_none fun w hw => by
      rw [← Bool.not_eq_true, isDone_iff]
      exact hactive w hw
    refine ⟨fun w hw hr hf => settleOnce_completeHeld hdone hw ((isDone_iff w).2 ⟨hr, hf⟩), fun hheld => ?_⟩
    have hheldDone : s.patrol.held.filter Sweep.isDone = none := filter_eq_none fun w hw => by
      rw [← Bool.not_eq_true, isDone_iff]
      exact hheld w hw
    refine ⟨fun e he hread => ?_, fun hread => ?_⟩
    · have hfree : readOutstanding s e = false := by
        rw [← Bool.not_eq_true, readOutstanding_iff]
        exact hread
      exact settleOnce_advance hdone hheldDone (by simp only [jobToAdvance, he, hfree, Bool.false_eq_true, if_false])
    · have hjob : jobToAdvance s = none := by
        unfold jobToAdvance
        split
        next e he => exact if_pos ((readOutstanding_iff s e).2 (hread e he))
        next => rfl
      refine ⟨fun w ha he hb hgranted => ?_, fun w ha he hb hmode hf hr hd => ?_, settleOnce_begin hdone hheldDone hjob⟩
      · exact settleOnce_burst hdone hheldDone hjob ha ((burstReady_iff s w).2 ⟨he, hb, hgranted⟩)
      · have hburst : burstReady s w = false := by
          rw [← Bool.not_eq_true, burstReady_iff]
          omega
        rw [settleOnce_sustained hdone hheldDone hjob ha hburst ((sustainedReady_iff s w).2 ⟨he, hmode, hf, hr, hd⟩),
          atBoundary_eq hd]
        simp only [issueBoundary, hmode]
        rfl
  · intro eligible
    have heligible : TsqEntry.eligible s.quiet = eligible := by
      funext e
      simp only [TsqEntry.eligible, eligible, State.quiet, Option.not_isSome]
    simp only [← heligible]
    rfl

end Sys2Proof.Machine
end

