-- ==== Sys2Proof/Proofs/QuietWindows.lean ====
section
/-! O40 and O41: how a quiet window opens, what its closing leaves, and the override time that a review gives it (R100 to
R107, R144, R176). -/

namespace Sys2Proof.Machine

open Sys2Proof

/-! ## What the closing of a window leaves -/

/-- The staged sweep, the held sweep and the counts of windows ended stand. -/
structure WindowAside (s t : State) : Prop where
  staged : t.patrol.staged = s.patrol.staged
  held : t.patrol.held = s.patrol.held
  expired : t.counters.quietExpired = s.counters.quietExpired
  ended : t.counters.quietEnded = s.counters.quietEnded
  overrides : t.counters.quietOverrides = s.counters.quietOverrides

theorem WindowAside.refl (s : State) : WindowAside s s := ⟨rfl, rfl, rfl, rfl, rfl⟩

theorem WindowAside.trans {a b c : State} (h : WindowAside a b) (k : WindowAside b c) : WindowAside a c :=
  ⟨k.staged.trans h.staged, k.held.trans h.held, k.expired.trans h.expired, k.ended.trans h.ended,
    k.overrides.trans h.overrides⟩

theorem raise_windowAside (c : Cause) (s : State) : WindowAside s (raise c s) := by
  rw [raise_eq]
  exact ⟨rfl, rfl, rfl, rfl, rfl⟩

theorem handRecord_windowAside (r : Record) (s : State) : WindowAside s (handRecord r s) := by
  by_cases h : RingOpen s
  · rw [handRecord_open r h]
    exact ⟨rfl, rfl, rfl, rfl, rfl⟩
  · rw [handRecord_closed r h]
    exact ⟨rfl, rfl, rfl, rfl, rfl⟩

/-- A new pace, with the cause and the count of a risk that is new (R73). -/
theorem recompute_windowAside (s : State) : WindowAside s (recompute s) := by
  cases h : s.patrol.active with
  | none =>
    rw [recompute_of_none h]
    exact .refl s
  | some w =>
    have hactive : ∀ v, WindowAside s { s with patrol := { s.patrol with active := v } } := fun _ =>
      ⟨rfl, rfl, rfl, rfl, rfl⟩
    rw [recompute_of_some h, reportRisk]
    dsimp only
    split
    · exact ((hactive _).trans (raise_windowAside _ _)).trans ⟨rfl, rfl, rfl, rfl, rfl⟩
    · exact hactive _

/-- The next pair of the copy that a window held back (R144). -/
theorem resumeCopy_windowAside (s : State) : WindowAside s (resumeCopy s) := by
  obtain ⟨hpair, -⟩ := resumeCopy_pair s
  rw [hpair]
  exact ⟨rfl, rfl, rfl, rfl, rfl⟩

/-- The steps of a closing: the window goes, a PAUSED engine runs at a new pace, and the copy goes on (R103, R144). -/
theorem closeWindow_eq (s : State) :
    closeWindow s = resumeCopy (if s.patrol.engine = .paused then
        recompute { s with window := none, patrol := { s.patrol with engine := .running } }
      else { s with window := none }) := rfl

theorem closeWindow_windowAside (s : State) : WindowAside s (closeWindow s) := by
  rw [closeWindow_eq]
  refine WindowAside.trans ?_ (resumeCopy_windowAside _)
  split
  · refine .trans ?_ (recompute_windowAside _)
    exact ⟨rfl, rfl, rfl, rfl, rfl⟩
  · exact ⟨rfl, rfl, rfl, rfl, rfl⟩

theorem closeWindow_engineState (s : State) :
    (closeWindow s).patrol.engine = if s.patrol.engine = .paused then .running else s.patrol.engine := by
  rw [closeWindow_eq]
  obtain ⟨hcopy, -⟩ := resumeCopy_engine (if s.patrol.engine = .paused then
      recompute { s with window := none, patrol := { s.patrol with engine := .running } }
    else { s with window := none })
  rw [hcopy]
  split
  · obtain ⟨hpace, -⟩ := recompute_engine { s with window := none, patrol := { s.patrol with engine := .running } }
    exact hpace
  · rfl

/-! ## The override (R107) -/

/-- An override with its record written out: that of the active sweep (R176). -/
theorem overrideWindow_eq {s : State} {w : Sweep} (h : s.patrol.active = some w) (endTime override : Elapsed) :
    let u := handRecord
      { kind := 11, source := 3, region := some w.region, line := w.cursor
        detail := [(38, 6, endTime.toNat), (44, 6, override.toNat), (50, 6, w.deadline.toNat), (56, 4, w.remaining),
                   (60, 2, s.params.minPace)] } (raise .quietOverridden (closeWindow s))
    overrideWindow endTime override s =
      { u with counters := { u.counters with quietOverrides := satAdd u.counters.quietOverrides 1 } } := by
  simp only [overrideWindow, overrideRecord, h]
  rfl

/-- What an override leaves: the window closed, the cause pending, the override counted, and a PAUSED engine RUNNING. -/
structure Overridden (s t : State) : Prop where
  closed : t.window = none
  counted : t.counters.quietOverrides = satAdd s.counters.quietOverrides 1
  caused : t.report.pending.getLsbD 7 = true
  staged : t.patrol.staged = s.patrol.staged
  held : t.patrol.held = s.patrol.held
  runs : s.patrol.engine = .paused → t.patrol.engine = .running

theorem overrideWindow_overridden (endTime override : Elapsed) (s : State) :
    Overridden s (overrideWindow endTime override s) := by
  let r := overrideRecord endTime override s
  let u := raise .quietOverridden (closeWindow s)
  have haside : WindowAside s (handRecord r u) :=
    ((closeWindow_windowAside s).trans (raise_windowAside _ _)).trans (handRecord_windowAside r u)
  obtain ⟨hengine, -⟩ := (raise_alerted .quietOverridden (closeWindow s)).engine.trans (handRecord_noted r u).engine
  exact {
    closed := overrideWindow_window endTime override s
    counted := congrArg (satAdd · 1) haside.overrides
    caused := handRecord_pending r (raise_pending_bit _ _ (by decide))
    staged := haside.staged
    held := haside.held
    runs := fun hp => hengine.trans ((closeWindow_engineState s).trans (if_pos hp)) }

/-! ## The override time of an open window (R105, R106) -/

section

variable {s : State} {win : Window}

/-- A sweep without lines left, or `quiet_override` off, leaves the window without an override time (R105). -/
theorem reviewOverride_off (hw : s.window = some win)
    (h : s.patrol.active = none ∨ s.params.quietOverride ≠ 1 ∨ ∃ w ∈ s.patrol.active, w.remaining = 0) :
    reviewOverride s = { s with window := some { win with override := none } } := by
  cases ha : s.patrol.active with
  | none => rw [reviewOverride_idle ha, hw, Option.map_some]
  | some w =>
    have hoff : ¬ (s.params.quietOverride = 1 ∧ 0 < w.remaining) := by
      rintro ⟨hon, hr⟩
      obtain h | h | ⟨v, hv, h⟩ := h
      · rw [ha] at h
        cases h
      · exact h hon
      · rw [ha] at hv
        cases hv
        omega
    simp only [reviewOverride, hw, ha, if_neg hoff]

/-- The time from now to the safe time of a sweep: what is left to its safe point, less the time it needs (R105). -/
def safeIn (s : State) (w : Sweep) : Int := slackOf s w - neededTime s.params.minPace w.remaining

/-- The override time against the end time and now, for a sweep with lines left (R105). -/
theorem reviewOverride_on {w : Sweep} (hw : s.window = some win) (ha : s.patrol.active = some w)
    (hon : s.params.quietOverride = 1) (hr : 0 < w.remaining) :
    reviewOverride s =
      if elapsedDiff win.endTime s.maint.now.us ≤ safeIn s w then
        { s with window := some { win with override := none } }
      else if 0 < safeIn s w then
        { s with window := some { win with override := some (s.maint.now.us + BitVec.ofInt 48 (safeIn s w)) } }
      else overrideWindow win.endTime (s.maint.now.us + BitVec.ofInt 48 (safeIn s w)) s := by
  rw [reviewOverride, hw]
  simp only [ha, hon, hr, and_self, if_true]
  rfl

end

/-! ## The events of the window (R104, R107) -/

section

variable {s : State} {win : Window}

theorem quietExpiry_none (h : s.window = none) : exec .quietExpiry s = .next s := by
  show execQuietExpiry s = _
  rw [execQuietExpiry, h]

theorem quietExpiry_some (h : s.window = some win) :
    exec .quietExpiry s =
      .next (settle (count .quietExpired (closeWindow (arrive (onMicrosecond win.endTime) s)))) := by
  show execQuietExpiry s = _
  rw [execQuietExpiry, h]

theorem quietOverride_none (h : s.window.bind Window.override = none) : exec .quietOverride s = .next s := by
  show execQuietOverride s = _
  cases hw : s.window with
  | none => simp only [execQuietOverride, hw]
  | some win =>
    rw [hw, Option.bind_some] at h
    simp only [execQuietOverride, hw, h]

theorem quietOverride_some {m : Elapsed} (h : s.window = some win) (hm : win.override = some m) :
    exec .quietOverride s = .next (settle (overrideWindow win.endTime m (arrive (onMicrosecond m) s))) := by
  show execQuietOverride s = _
  simp only [execQuietOverride, h, hm]

end

/-- Settles O40: the two events as the closings they are, and the review by where the safe time lies. -/
theorem windowsEndAtTheirTimes : Obligations.WindowsEndAtTheirTimes := by
  refine ⟨fun s => ⟨fun h => ⟨quietExpiry_none h, quietOverride_none (by rw [h]; rfl)⟩, fun win hw =>
    ⟨?_, fun hm => quietOverride_none (by rw [hw]; exact hm), fun m hm => ?_⟩⟩,
    fun s win hw => ⟨reviewOverride_off hw, fun w ha hon hr => ?_⟩, closeWindow_eq,
    fun s w endTime override h => overrideWindow_eq h endTime override⟩
  · let a := arrive (onMicrosecond win.endTime) s
    obtain ⟨-, -, -, -, hcounters⟩ := arrive_aside (onMicrosecond win.endTime) s
    obtain ⟨harrive, -⟩ := arrive_engine (onMicrosecond win.endTime) s
    have hengine := closeWindow_engineState a
    rw [show a.patrol.engine = s.patrol.engine from harrive] at hengine
    refine ⟨_, quietExpiry_some hw, rfl, closeWindow_window a, ?_, fun hp => hengine.trans (if_pos hp),
      fun hp => hengine.trans (if_neg hp)⟩
    rw [← hcounters]
    exact congrArg (satAdd · 1) (closeWindow_windowAside a).expired
  · obtain ⟨-, -, -, -, hcounters⟩ := arrive_aside (onMicrosecond m) s
    obtain ⟨harrive, -⟩ := arrive_engine (onMicrosecond m) s
    have hover := overrideWindow_overridden win.endTime m (arrive (onMicrosecond m) s)
    exact ⟨_, quietOverride_some hw hm, rfl, hover.closed, hcounters ▸ hover.counted, hover.caused,
      fun hp => hover.runs (harrive.trans hp)⟩
  · intro margin needed ahead
    have hreview := reviewOverride_on hw ha hon hr
    refine ⟨fun hlate => hreview.trans (if_pos hlate), fun hearly hpos => ?_, fun hearly hpast => ?_⟩
    · exact hreview.trans ((if_neg (not_le.2 hearly)).trans (if_pos hpos))
    · have hnow : reviewOverride s = overrideWindow win.endTime (s.maint.now.us + BitVec.ofInt 48 ahead) s :=
        hreview.trans ((if_neg (not_le.2 hearly)).trans (if_neg (not_lt.2 hpast)))
      rw [hnow]
      have hover := overrideWindow_overridden win.endTime (s.maint.now.us + BitVec.ofInt 48 ahead) s
      exact ⟨rfl, hover.closed, hover.counted, hover.caused, hover.staged, hover.held, hover.runs⟩

/-! ## QUIET_BEGIN and QUIET_END (R100 to R102) -/

/-- A window opened, or the end time of an open one replaced. -/
theorem setWindow_eq (endTime : Elapsed) (s : State) :
    setWindow endTime s = match s.window with
      | none => { s with
          window := some { endTime := endTime, override := none }
          patrol := { s.patrol with
            engine := if s.patrol.engine = .running then .paused else s.patrol.engine
            active := s.patrol.active.map fun w => { w with burstLeft := 0 } }
          counters := { s.counters with quietOpened := satAdd s.counters.quietOpened 1 } }
      | some win => { s with
          window := some { endTime := endTime, override := win.override }
          counters := { s.counters with quietExtended := satAdd s.counters.quietExtended 1 } } := by
  unfold setWindow
  cases s.window <;> rfl

/-- The state of the window is answered as a flag (R193). -/
theorem word_windowCode (s : State) : word (windowCode s) = if s.window.isSome then 1 else 0 := by
  rw [windowCode, State.quiet]
  split <;> rfl

theorem doQuietBegin_eq (duration : Word32) (more : List Word32) (s : State) :
    let d := max 1 (min 10000000 duration.toNat)
    let endTime := s.maint.now.us + BitVec.ofNat 48 d
    let t := reviewOverride (setWindow endTime s)
    let override := (t.window.bind Window.override).getD 0
    doQuietBegin (duration :: more) s = accept
      [word d, endTime.setWidth 32, (endTime >>> 32).setWidth 32, override.setWidth 32, (override >>> 32).setWidth 32,
       if t.window.isSome then 1 else 0] t := by
  simp only [doQuietBegin, argOf_zero, clampTo_eq (show 1 ≤ 10000000 by decide), word_windowCode]
  rfl

theorem doQuietEnd_of_none {s : State} (args : List Word32) (h : s.window = none) :
    doQuietEnd args s = refuse .busy s := by
  rw [doQuietEnd, h]

theorem doQuietEnd_of_some {s : State} {win : Window} (args : List Word32) (h : s.window = some win) :
    doQuietEnd args s = accept (timeWords win.endTime) (count .quietEnded (closeWindow s)) := by
  rw [doQuietEnd, h]

/-- A closing counts no QUIET_END itself: the count after it is one more than the count before it (R101). -/
theorem count_quietEnded_closeWindow (s : State) :
    let u := closeWindow s
    count .quietEnded u = { u with counters := { u.counters with quietEnded := satAdd s.counters.quietEnded 1 } } := by
  intro u
  rw [← (closeWindow_windowAside s).ended]
  rfl

/-- Settles O41: each request as the decision of its owner, the window it opens or closes written out. -/
theorem quietRequestsOpenAndClose : Obligations.QuietRequestsOpenAndClose := by
  refine fun s q => ⟨fun h duration more hargs => ?_, fun h => ⟨fun hw => ?_, fun win hw => ?_⟩⟩
  · intro d endTime k u t override
    have hu : setWindow endTime (dispatched s) = u := setWindow_eq endTime (dispatched s)
    have hbegin := doQuietBegin_eq duration more (dispatched s)
    refine serveSettled_next h (by simp [hargs]) ?_
    rw [hargs, hbegin]
    simp only [t, override, ← hu]
    rfl
  · exact serveSettled_next h (Nat.zero_le _) (doQuietEnd_of_none q.args hw)
  · refine serveSettled_next h (Nat.zero_le _) ?_
    rw [doQuietEnd_of_some (s := dispatched s) q.args hw, count_quietEnded_closeWindow]
    rfl

end Sys2Proof.Machine
end

section
/-! What leaves the Fault Table alone: frames, grants, writes performed, the Patrol Engine's own actions and the requests of
the other blocks. One equation per operation. -/

namespace Sys2Proof.Machine

open Sys2Proof

/-! ## The effects named once -/

theorem Settled.fault_eq {s t : State} (h : Settled s t) : t.fault = s.fault := by
  obtain ⟨-, -, -, -, -, -, -, e⟩ := h
  rw [e]

theorem Watched.fault_eq {s t : State} (h : Watched s t) : t.fault = s.fault := by
  obtain ⟨-, -, -, -, e⟩ := h
  rw [e]

theorem Alerted.fault_eq {s t : State} (h : Alerted s t) : t.fault = s.fault := h.noted.fault_eq

@[simp] theorem raise_fault (c : Cause) (s : State) : (raise c s).fault = s.fault := (raise_alerted c s).fault_eq

@[simp] theorem handRecord_fault (r : Record) (s : State) : (handRecord r s).fault = s.fault :=
  (handRecord_noted r s).fault_eq

@[simp] theorem runSelection_fault (s : State) : (runSelection s).fault = s.fault := (runSelection_settled s).fault_eq

@[simp] theorem reviewOverride_fault (s : State) : (reviewOverride s).fault = s.fault :=
  (reviewOverride_settled s).fault_eq

@[simp] theorem recompute_fault (s : State) : (recompute s).fault = s.fault := (recompute_settled s).fault_eq

@[simp] theorem closeWindow_fault (s : State) : (closeWindow s).fault = s.fault := (closeWindow_settled s).fault_eq

@[simp] theorem idleRegion_fault (region : Option Nat) (s : State) : (idleRegion region s).fault = s.fault := by
  rw [idleRegion_eq]

@[simp] theorem emptySlots_fault (s : State) : (emptySlots s).fault = s.fault := by
  simp only [emptySlots, abandonReads, idleRegion_fault]

/-! ## Frames and the DRAM Port -/

@[simp] theorem discardFrame_fault (s : State) : (discardFrame s).fault = s.fault := raise_fault _ _

@[simp] theorem reviewDrain_fault (s : State) : (reviewDrain s).fault = s.fault := by rw [reviewDrain_eq]

@[simp] theorem wbCancel_fault (line : Nat) (s : State) : (wbCancel line s).fault = s.fault := by rw [wbCancel_eq]

@[simp] theorem portRead_fault (tag line : Nat) (s : State) : (portRead tag line s).fault = s.fault := by
  unfold portRead takeRead
  repeat' split
  all_goals rfl

@[simp] theorem failLock_fault (source : Source) (tag region line : Nat) (s : State) :
    (failLock source tag region line s).fault = s.fault := by
  simp [failLock]

@[simp] theorem takeWrite_fault (tag line : Nat) (data : Data) (s : State) :
    (takeWrite tag line data s).fault = s.fault := by
  simp [takeWrite]

@[simp] theorem takeMasked_fault (tag line : Nat) (data : Data) (mask : BitVec 64) (s : State) :
    (takeMasked tag line data mask s).fault = s.fault := by
  unfold takeMasked
  split <;> simp

@[simp] theorem testMask_fault (tag line : Nat) (data : Data) (mask : BitVec 64) (s : State) :
    (testMask tag line data mask s).fault = s.fault := by
  unfold testMask
  repeat' split
  all_goals simp

/-- A write that reaches the port leaves the Fault Table as what follows its checks leaves it. -/
theorem portWrite_fault (source : Source) (tag line : Nat) (permit : Bool) {passed : State → State} {s : State}
    (hp : (passed s).fault = s.fault) : (portWrite source tag line permit passed s).fault = s.fault := by
  unfold portWrite
  repeat' split
  · rfl
  · exact failLock_fault _ _ _ _ s
  · exact hp

@[simp] theorem takeRequest_fault (tag code : Nat) (args : List Word32) (s : State) :
    (takeRequest tag code args s).fault = s.fault := by
  unfold takeRequest
  split <;> rfl

@[simp] theorem frameLeft_fault (f : ReturnFrame) (rest : List ReturnFrame) (s : State) :
    (frameLeft f rest s).fault = s.fault := by
  unfold frameLeft releaseTag
  split <;> rfl

@[simp] theorem openRow_fault (rank bank row : Nat) (r : Requester) (s : State) :
    (openRow rank bank row r s).fault = s.fault := by
  obtain ⟨m, -, hw, -⟩ := openRow_spec rank bank row r s
  exact hw.fault_eq

@[simp] theorem openDouble_fault (rank bank : Nat) (double : Option Nat) (r : Requester) (s : State) :
    (openDouble rank bank double r s).fault = s.fault := by
  unfold openDouble
  split <;> simp

@[simp] theorem grant_fault (w : Winner) (s : State) : (grant w s).fault = s.fault := by
  cases w with
  | access a cls passes =>
    show (grantAccess a cls passes s).fault = s.fault
    rw [grantAccess_eq, openDouble_fault, openRow_fault]
    rfl
  | refresh rank => rfl

@[simp] theorem writeLine_fault (a : Access) (data : Data) (form : Form) (s : State) :
    (writeLine a data form s).fault = s.fault := by
  obtain ⟨m, -, e⟩ := writeLine_spec a data form s
  rw [e]

@[simp] theorem handDemandReturn_fault (tag : Nat) (f : ReturnFrame) (s : State) :
    (handDemandReturn tag f s).fault = s.fault := by
  unfold handDemandReturn
  split <;> rfl

@[simp] theorem answeredWrite_fault (a : Access) (tag : Nat) (data : Data) (form : Form) (status : AckStatus) (s : State) :
    (answeredWrite a tag data form status s).fault = s.fault := by
  simp [answeredWrite]

@[simp] theorem entryWritten_fault (a : Access) (e : WbEntry) (s : State) : (entryWritten a e s).fault = s.fault := by
  simp [entryWritten]

@[simp] theorem recordWritten_fault (a : Access) (n : Word32) (data : Data) (s : State) :
    (recordWritten a n data s).fault = s.fault := by
  rw [recordWritten, (recordPerformed_noted _ _).fault_eq, finishAccess_fault, writeLine_fault]

@[simp] theorem restartHoldOf_fault (a : Access) (s : State) : (restartHoldOf a s).fault = s.fault := by
  obtain ⟨m, -, e⟩ := restartHold_spec (rankOfAccess s a) (bankOfAccess s a) a.lastRow s
  rw [restartHoldOf, e]

@[simp] theorem mergeUnit_fault (a : Access) (tag : Nat) (data : Data) (mask : BitVec 64) (d : Decoded) (s : State) :
    (mergeUnit a tag data mask d s).fault = s.fault :=
  restartHoldOf_fault a _

@[simp] theorem countSweepEvent_fault (ev : Option FaultEvent) (s : State) : (countSweepEvent ev s).fault = s.fault := by
  unfold countSweepEvent
  split <;> rfl

@[simp] theorem lineDone_fault (s : State) : (lineDone s).fault = s.fault := rfl

@[simp] theorem refreshDue_fault (rank : Nat) (t : FineTime) (s : State) : (refreshDue rank t s).fault = s.fault := by
  unfold refreshDue
  dsimp only
  split <;> rfl

/-! ## The Patrol Engine -/

@[simp] theorem reachIssue_fault (s : State) : (reachIssue s).fault = s.fault := by
  unfold reachIssue
  split
  · exact (atBoundary_settled _ s).fault_eq
  · rfl

@[simp] theorem reachDue_fault (s : State) : (reachDue s).fault = s.fault := by
  unfold reachDue
  split
  · rfl
  · exact runSelection_fault s

@[simp] theorem clearPatrol_fault (s : State) : (clearPatrol s).fault = s.fault := by rw [clearPatrol_eq]

section

variable (args : List Word32) (s : State)

@[simp] theorem acceptPatrol_state : (acceptPatrol s).state = s := rfl

@[simp] theorem refusePatrol_state (status : Status) : (refusePatrol status s).state = s := rfl

theorem doScrubEnable_fault : (doScrubEnable args s).state.fault = s.fault := by
  unfold doScrubEnable
  split <;> simp

theorem doScrubDisable_fault : (doScrubDisable args s).state.fault = s.fault := by
  unfold doScrubDisable
  split <;> simp

theorem doSweepNow_fault : (doSweepNow args s).state.fault = s.fault := by
  unfold doSweepNow
  dsimp only
  repeat' split
  all_goals simp [stageHost]

theorem doSweepHalt_fault : (doSweepHalt args s).state.fault = s.fault := by
  have hhold : (holdSweep s).fault = s.fault := by
    unfold holdSweep
    split <;> rfl
  unfold doSweepHalt
  split <;> simp [hhold]

theorem doSweepResume_fault : (doSweepResume args s).state.fault = s.fault := by
  unfold doSweepResume resumePatrol
  repeat' split
  all_goals simp [returnSweep]

theorem doQuietBegin_fault : (doQuietBegin args s).state.fault = s.fault := by
  have hwindow : ∀ endTime, (setWindow endTime s).fault = s.fault := fun endTime => by
    unfold setWindow
    split <;> rfl
  exact (reviewOverride_fault _).trans (hwindow _)

theorem doQuietEnd_fault : (doQuietEnd args s).state.fault = s.fault := by
  unfold doQuietEnd
  split
  · rfl
  · exact closeWindow_fault s

/-! ## The requests of the other blocks -/

theorem doReadStats_fault : (doReadStats args s).state.fault = s.fault := by
  unfold doReadStats
  dsimp only
  split <;> rfl

theorem doGoOnline_fault : (doGoOnline args s).state.fault = s.fault := by
  unfold doGoOnline
  split <;> rfl

theorem doRegionLoad_fault : (doRegionLoad args s).state.fault = s.fault := by
  unfold doRegionLoad
  dsimp only
  repeat' split
  · rfl
  · rfl
  · rfl
  · rfl
  · rfl
  · exact runSelection_fault _

theorem doRegionClear_fault : (doRegionClear args s).state.fault = s.fault := by
  unfold doRegionClear
  dsimp only
  repeat' split
  all_goals rfl

theorem doRegionRead_fault : (doRegionRead args s).state.fault = s.fault := by
  unfold doRegionRead
  split
  · rfl
  · rw [acceptPart_state]

theorem doFaultRead_fault : (doFaultRead args s).state.fault = s.fault := by
  unfold doFaultRead
  split
  · rfl
  · rw [acceptPart_state]

theorem doDeviceRead_fault : (doDeviceRead args s).state.fault = s.fault := by
  unfold doDeviceRead
  split
  · rfl
  · rw [acceptPart_state]

theorem doRemapLoad_fault : (doRemapLoad args s).state.fault = s.fault := by
  unfold doRemapLoad
  dsimp only
  repeat' split
  all_goals rfl

theorem doSpareKill_fault : (doSpareKill args s).state.fault = s.fault := by
  unfold doSpareKill
  dsimp only
  repeat' split
  all_goals rfl

theorem doRemapRead_fault : (doRemapRead args s).state.fault = s.fault := by
  unfold doRemapRead
  dsimp only
  repeat' split
  all_goals rfl

theorem doReportSetup_fault : (doReportSetup args s).state.fault = s.fault := by
  unfold doReportSetup
  dsimp only
  repeat' split
  all_goals rfl

theorem doReportRelease_fault : (doReportRelease args s).state.fault = s.fault := by
  unfold doReportRelease
  dsimp only
  repeat' split
  all_goals rfl

theorem doReportRestart_fault : (doReportRestart args s).state.fault = s.fault := by
  have hplaced : (restartRing s).fault = s.fault := by simp [restartRing, placeRecord]
  unfold doReportRestart
  repeat' split
  · rfl
  · rfl
  · rfl
  · exact hplaced

theorem doCauseSet_fault : (doCauseSet args s).state.fault = s.fault := by
  unfold doCauseSet
  split
  · rfl
  · exact (raiseSet_alerted _ s).fault_eq

theorem doMaskSet_fault : (doMaskSet args s).state.fault = s.fault := by
  unfold doMaskSet
  dsimp only
  split <;> rfl

theorem doMaskClear_fault : (doMaskClear args s).state.fault = s.fault := by
  unfold doMaskClear
  dsimp only
  split
  · rfl
  · exact (testAlert_alerted _).fault_eq

end

end Sys2Proof.Machine
end

section
/-! O7: every command and every tick keeps the Fault Table within its limits and its entries legal. -/

namespace Sys2Proof.Machine

open Sys2Proof

/-! ## The relation -/

/-- What every command keeps of the Fault Table: its entries stay legal, its scores and counts within their limits
(R111, R113). -/
structure FaultKept (s t : State) : Prop where
  legal : FaultTableLegal s → FaultTableLegal t
  bounded : ScoresBounded s → ScoresBounded t

theorem FaultKept.refl (s : State) : FaultKept s s := ⟨id, id⟩

theorem FaultKept.trans {a b c : State} (h : FaultKept a b) (k : FaultKept b c) : FaultKept a c :=
  ⟨k.legal ∘ h.legal, k.bounded ∘ h.bounded⟩

/-- An operation that leaves the Fault Table alone. -/
theorem FaultKept.aside {s t : State} (h : t.fault = s.fault) : FaultKept s t :=
  ⟨fun hl => by rwa [FaultTableLegal, h], fun hb => by rwa [ScoresBounded, h]⟩

/-- What is kept up to a state is kept up to every state with the same Fault Table. -/
theorem FaultKept.then_aside {s t u : State} (h : FaultKept s t) (he : u.fault = t.fault) : FaultKept s u :=
  h.trans (.aside he)

theorem Internal.faultKept {s t : State} (h : Internal s t) : FaultKept s t := by
  obtain ⟨-, -, -, -, hlegal, hbounded, -⟩ := h
  exact ⟨hlegal, hbounded⟩

/-! ## Entries and devices replaced one by one -/

/-- A table mapped entry by entry, each result FREE and as at power-on, or the entry with its row, its state and its
reason, goes on being legal. -/
theorem FaultTable.Legal.map_same {f : FaultTable} (h : f.Legal) {g : FaultEntry → FaultEntry}
    (hg : ∀ e, g e = {} ∨ (g e).state = e.state ∧ (g e).reason = e.reason ∧ (g e).rank = e.rank ∧
      (g e).bank = e.bank ∧ (g e).row = e.row ∧ (e.state = .free → g e = e)) (d : List DeviceScore) (t : Elapsed) :
    FaultTable.Legal { entries := f.entries.map g, devices := d, decayEnd := t } := by
  refine h.map g (fun e hfree => ?_) (fun e he => ?_) d t
  · rcases hg e with heq | ⟨hstate, -, hrank, hbank, hrow, -⟩
    · exact absurd (congrArg FaultEntry.state heq) hfree
    · exact ⟨hstate ▸ hfree, hrank, hbank, hrow⟩
  · obtain ⟨hpower, hreason⟩ := he
    rcases hg e with heq | ⟨hstate, hsame, -, -, -, hkept⟩
    · rw [heq]
      simp
    · rw [hstate, hsame]
      exact ⟨fun hf => (hkept hf).trans (hpower hf), hreason⟩

/-- Times kept move, and no entry does otherwise (R196). -/
theorem setNow_faultKept (t : FineTime) (s : State) : FaultKept s (setNow t s) := by
  refine ⟨fun h => h.map_same (fun e => .inr ?_) _ _, fun h => h.map _ (fun e he => ?_) _ h.2 _⟩
  · unfold FaultEntry.keep
    split
    · exact ⟨rfl, rfl, rfl, rfl, rfl, fun _ => rfl⟩
    · exact ⟨rfl, rfl, rfl, rfl, rfl, fun hf => absurd hf ‹_›⟩
  · unfold FaultEntry.keep
    split <;> exact he

theorem arrive_faultKept (t : FineTime) (s : State) : FaultKept s (arrive t s) := by
  unfold arrive
  split
  · exact setNow_faultKept t s
  · exact .refl s

/-- The device scores after a geometry change are those of before, or those of power-on (R21). -/
theorem fittedDevices_score {ranks : Nat} {l : List DeviceScore} (h : ∀ d ∈ l, d.score ≤ 4095) :
    ∀ d ∈ fittedDevices ranks l, d.score ≤ 4095 := by
  intro d hd
  obtain ⟨p, hp, rfl⟩ := List.mem_map.1 hd
  split
  · exact h _ (List.fst_mem_of_mem_zipIdx hp)
  · exact Nat.zero_le _

/-- A geometry change frees the entries and the scores whose places are no more (R21, R132). -/
theorem takeGeometry_faultKept (g : Geometry) (s : State) : FaultKept s (takeGeometry g s) := by
  have hfault : (takeGeometry g s).fault = { s.fault with
      entries := s.fault.entries.map (FaultEntry.fitted g), devices := fittedDevices g.ranks s.fault.devices } := by
    unfold takeGeometry fitRing
    dsimp only
    split <;> rfl
  refine ⟨fun h => ?_, fun h => ?_⟩
  · rw [FaultTableLegal, hfault]
    refine h.map_same (fun e => ?_) _ _
    unfold FaultEntry.fitted
    split
    · exact .inl rfl
    · exact .inr ⟨rfl, rfl, rfl, rfl, rfl, fun _ => rfl⟩
  · rw [ScoresBounded, hfault]
    refine h.map _ (fun e he => ?_) _ (fittedDevices_score h.2) _
    unfold FaultEntry.fitted
    split
    · exact ⟨Nat.zero_le _, Nat.zero_le _, Nat.zero_le _⟩
    · exact he

/-- The decay timer is no matter of the entries and the scores. -/
theorem FaultKept.decayEnd (s : State) (t : Elapsed) : FaultKept s { s with fault := { s.fault with decayEnd := t } } :=
  ⟨fun ⟨hapart, hentries⟩ => ⟨hapart, hentries⟩, fun ⟨hentries, hdevices⟩ => ⟨hentries, hdevices⟩⟩

/-- An entry cleared stands as at power-on (R129). -/
theorem setFault_free_faultKept (i : Nat) (s : State) : FaultKept s (setFault i {} s) :=
  ⟨fun h => h.set i _ (fun _ _ _ => .inl rfl) (fun _ => rfl) (by simp), fun h => h.set i _ (by simp)⟩

/-! ## Decodes and copies -/

theorem handEvent_faultKept (ev : Option FaultEvent) {s u : State} (h : u.fault = s.fault) :
    FaultKept s (handEvent ev u) := (FaultKept.aside h).trans (handEvent_inner ev u).faultKept

theorem demandDecoded_faultKept (a : Access) (tag : Nat) (d : Decoded) (s : State) :
    FaultKept s (demandDecoded a tag d s) :=
  (handEvent_faultKept _ (by simp)).then_aside (handDecoded_fault _ _ _ _)

theorem patrolDecoded_faultKept (a : Access) (owned : Bool) (d : Decoded) (s : State) :
    FaultKept s (patrolDecoded a owned d s) := by
  refine (handEvent_faultKept (eventOf .patrol a d s) (finishAccess_fault a s)).then_aside ?_
  unfold patrolDecoded
  cases owned <;> simp [handDecoded_fault]

theorem targetedDecoded_faultKept (a : Access) (d : Decoded) (s : State) : FaultKept s (targetedDecoded a d s) := by
  refine (handEvent_faultKept (eventOf .targeted a d s) (finishAccess_fault a s)).then_aside ?_
  unfold targetedDecoded
  dsimp only
  split
  · exact handDecoded_fault _ _ _ _
  · rfl

theorem copyDecoded_faultKept (a : Access) (d : Decoded) (s : State) : FaultKept s (copyDecoded a d s) := by
  refine FaultKept.trans (.aside (by simp)) ((countCopied_inner d.outcome _).trans (handEvent_inner _ _)).faultKept

theorem spareWritten_faultKept (a : Access) (data : Data) (form : Form) (s : State) :
    FaultKept s (spareWritten a data form s) :=
  FaultKept.trans (.aside (by simp)) (copyWritten_inner _).faultKept

/-! ## The clear (R198) -/

theorem beginClear_faultKept (s : State) : FaultKept s (beginClear s) := by
  have hcleared : FaultKept s (clearedState s) := .aside rfl
  have habort := Internal.foldl (fun s j => abortJob j s) (fun s j => abortJob_inner j s) s.repair.jobs (clearedState s)
  rw [beginClear_eq]
  exact (hcleared.trans habort.faultKept).then_aside rfl

/-! ## The requests -/

section

variable (args : List Word32) (s : State)

theorem doFaultClear_faultKept : FaultKept s (doFaultClear args s).state := by
  unfold doFaultClear
  repeat' split
  · exact .refl s
  · exact .refl s
  · exact setFault_free_faultKept _ s

theorem doRetireRow_faultKept : FaultKept s (doRetireRow args s).state := by
  unfold doRetireRow
  dsimp only
  repeat' split
  · exact .refl s
  · exact .refl s
  · exact .refl s
  · exact .aside rfl
  · exact .aside rfl
  · rename_i hroom
    exact (takeJob_inner _ _ _ _ _ s (Nat.lt_of_not_le hroom)).faultKept

theorem doErase_faultKept : FaultKept s (doErase args s).state := by
  unfold doErase
  dsimp only
  repeat' split
  · exact .refl s
  · exact .refl s
  · exact .refl s
  · rename_i hplace hroom
    simp only [not_or, Bool.not_eq_true] at hplace
    obtain ⟨-, -, hfresh⟩ := hplace
    exact (addErasure_inner _ _ 1 s hfresh (Nat.lt_of_not_le hroom)).faultKept

/-- A device in use again has score 0, and the rank's devices are decided anew (R127, R154). -/
theorem removeErasure_faultKept (rank device : Nat) : FaultKept s (removeErasure rank device s) := by
  have hset : FaultKept s { s with repair := { s.repair with
      erasures := s.repair.erasures.set rank ((erasureSet s rank).erase device) } } := .aside rfl
  exact hset.trans ((Internal.setDevice rank device {} _ fun _ => Nat.zero_le _).trans
    ((Internal.count _ _).trans (eraseRank_inner rank _))).faultKept

theorem doUnerase_faultKept : FaultKept s (doUnerase args s).state := by
  unfold doUnerase
  dsimp only
  repeat' split
  · exact .refl s
  · exact .refl s
  · exact .refl s
  · rw [accept_state]
    exact removeErasure_faultKept s _ _

theorem doConfigureGeometry_faultKept : FaultKept s (doConfigureGeometry args s).state := by
  unfold doConfigureGeometry
  repeat' split
  · exact .refl s
  · exact .refl s
  · exact .refl s
  · exact takeGeometry_faultKept _ s

theorem reviewThreshold_fault : (reviewThreshold s).fault = s.fault :=
  (Watched.foldl _ (fun _ _ => .foldl _ (fun _ _ => reviewEntry_watched _ _ _) _ _) _ s).fault_eq

theorem paramChanged_faultKept (id : Nat) : FaultKept s (paramChanged id s) := by
  unfold paramChanged
  split
  · exact .aside (by simp [settle_fault])
  · exact .aside (by simp [settle_fault])
  · exact ((reviewLimits_inner s).trans (eraseAll_inner _)).faultKept
  · exact (eraseAll_inner s).faultKept
  · exact (eraseAll_inner s).faultKept
  · exact .aside ((settle_fault _).trans (reviewThreshold_fault s))
  · exact .aside (reviewReadyCount_alerted s).fault_eq
  · exact .aside (reviewReadyAge_alerted s).fault_eq
  · exact .refl s

theorem doSetParam_faultKept : FaultKept s (doSetParam args s).state := by
  unfold doSetParam
  split
  · exact .refl s
  · have hput : ∀ p, FaultKept s { s with params := p } := fun _ => .aside rfl
    exact (hput _).trans (paramChanged_faultKept _ _)

end

/-- A dispatch keeps what its owner's decision and what follows its answer keep. -/
theorem serveThen_faultKept {after : State → State} (hafter : ∀ s, (after s).fault = s.fault) {code needed : Nat}
    {owner : List Word32 → State → Answered} (ho : ∀ args s, FaultKept s (owner args s).state) (s : State) :
    FaultKept s (serveThen after code needed owner s) := by
  unfold serveThen
  split
  · rename_i q _
    have hdecided : FaultKept (count .maintRequests s)
        (decideRequest needed owner q.args (count .maintRequests s)).state := by
      unfold decideRequest
      split
      · exact .refl _
      · exact ho _ _
    have hcounted : FaultKept s (count .maintRequests s) := .aside rfl
    exact (hcounted.trans hdecided).then_aside ((hafter _).trans rfl)
  · exact .refl s

/-! ## The commands -/

/-- A command answers a next state that keeps the Fault Table as FaultKept says. -/
def Tracks (s : State) (answer : Answer) : Prop := ∃ t, answer = .next t ∧ FaultKept s t

theorem Tracks.next {s t : State} (h : FaultKept s t) : Tracks s (.next t) := ⟨t, rfl, h⟩

/-- A command that leaves the Fault Table alone. -/
theorem Tracks.same {s t : State} (h : t.fault = s.fault) : Tracks s (.next t) := .next (.aside h)

/-- A command that does nothing here. -/
theorem Tracks.idle (s : State) : Tracks s (.next s) := .same rfl

/-- A command that the engine's immediate actions close. -/
theorem Tracks.settled {s t : State} (h : FaultKept s t) : Tracks s (.next (settle t)) :=
  .next (h.then_aside (settle_fault t))

theorem Tracks.ite {p : Prop} [Decidable p] {s : State} {a b : Answer} (h : Tracks s a) (k : Tracks s b) :
    Tracks s (if p then a else b) := by split <;> assumption

/-- A dispatch whose owner's decision keeps the Fault Table. -/
theorem Tracks.served {s : State} {code needed : Nat} {owner : List Word32 → State → Answered}
    (h : ∀ args s, FaultKept s (owner args s).state) : Tracks s (.next (serve code needed owner s)) :=
  .next (serveThen_faultKept (fun _ => rfl) h s)

/-- A dispatch whose owner leaves the Fault Table alone. -/
theorem Tracks.servedSame {s : State} {code needed : Nat} {owner : List Word32 → State → Answered}
    (h : ∀ args s, (owner args s).state.fault = s.fault) : Tracks s (.next (serve code needed owner s)) :=
  .served fun args s => .aside (h args s)

/-- A dispatch of that kind that the engine's immediate actions close. -/
theorem Tracks.servedSettled {s : State} {code needed : Nat} {owner : List Word32 → State → Answered}
    (h : ∀ args s, (owner args s).state.fault = s.fault) : Tracks s (.next (serveSettled code needed owner s)) :=
  .next (serveThen_faultKept settle_fault (fun args s => .aside (h args s)) s)

/-! ### Power-on and frames -/

/-- At power-on every entry is FREE and every score 0 (R111, R113). -/
theorem execPowerOn_tracks (s : State) : Tracks s (execPowerOn s) := by
  refine .next ⟨fun _ => ⟨?_, fun e he => ?_⟩, fun _ => ⟨fun e he => ?_, fun d hd => ?_⟩⟩
  · exact List.pairwise_replicate.2 (.inr (.inl rfl))
  · rw [List.eq_of_mem_replicate he]
    simp
  · rw [List.eq_of_mem_replicate he]
    simp
  · rw [List.eq_of_mem_replicate hd]
    simp

theorem execIdle_tracks (byte1 byte2 byte3 : Byte) (check : BitVec 16) (s : State) :
    Tracks s (execIdle byte1 byte2 byte3 check s) := .ite (.idle s) (.same (discardFrame_fault s))

theorem execRead_tracks (tag byte2 byte3 : Byte) (line : BitVec 64) (check : BitVec 16) (s : State) :
    Tracks s (execRead tag byte2 byte3 line check s) := by
  refine .ite (.same (discardFrame_fault s)) ?_
  dsimp only
  split
  · exact .same rfl
  · exact .same (portRead_fault _ _ _)

theorem execWrite_tracks (tag flags byte3 : Byte) (line : BitVec 64) (data : Data) (check : BitVec 16) (s : State) :
    Tracks s (execWrite tag flags byte3 line data check s) := by
  refine .ite (.same (discardFrame_fault s)) ?_
  dsimp only
  split
  · exact .same rfl
  · exact .same (portWrite_fault _ _ _ _ (takeWrite_fault _ _ _ _))

theorem execWriteMasked_tracks (tag flags byte3 : Byte) (line : BitVec 64) (data : Data) (mask : BitVec 64)
    (check : BitVec 16) (s : State) : Tracks s (execWriteMasked tag flags byte3 line data mask check s) := by
  refine .ite (.same (discardFrame_fault s)) ?_
  dsimp only
  split
  · exact .same rfl
  · exact .same (portWrite_fault _ _ _ _ (testMask_fault _ _ _ _ _))

theorem execMaint_tracks (tag byte2 : Byte) (code pad : BitVec 16) (args : List Word32) (check : BitVec 16) (s : State) :
    Tracks s (execMaint tag byte2 code pad args check s) :=
  .ite (.same (discardFrame_fault s)) (.same (takeRequest_fault _ _ _ _))

theorem execMalformedFrame_tracks (bytes : List Byte) (s : State) : Tracks s (execMalformedFrame bytes s) :=
  .ite (.same (discardFrame_fault s)) (.idle s)

theorem execReturnFrameSent_tracks (s : State) : Tracks s (execReturnFrameSent s) := by
  unfold execReturnFrameSent
  split
  · exact .ite (.same (frameLeft_fault _ _ s)) (.same rfl)
  · exact .same rfl

/-! ### The DRAM Port -/

theorem execArbiterGrant_tracks (accept : BitVec 64) (refresh : BitVec 4) (s : State) :
    Tracks s (execArbiterGrant accept refresh s) := by
  unfold execArbiterGrant
  split
  · exact .settled (.aside (grant_fault _ s))
  · exact .idle s

theorem execDemandReadDecode_tracks (line : Nat) (damage : Line) (s : State) :
    Tracks s (execDemandReadDecode line damage s) := by
  unfold execDemandReadDecode
  repeat' split
  · exact .settled (demandDecoded_faultKept _ _ _ s)
  · exact .idle s
  · exact .idle s

theorem execScrubReadDecode_tracks (line : Nat) (damage : Line) (s : State) :
    Tracks s (execScrubReadDecode line damage s) := by
  unfold execScrubReadDecode
  repeat' split
  · exact .settled (patrolDecoded_faultKept _ _ _ s)
  · exact .settled (targetedDecoded_faultKept _ _ s)
  · exact .idle s
  · exact .idle s

theorem execRmwReadDecode_tracks (line : Nat) (damage : Line) (s : State) :
    Tracks s (execRmwReadDecode line damage s) := by
  unfold execRmwReadDecode
  repeat' split
  · exact .settled (handEvent_faultKept _ (mergeUnit_fault _ _ _ _ _ s))
  · exact .idle s
  · exact .idle s

theorem execCopyReadDecode_tracks (line : Nat) (damage : Line) (s : State) :
    Tracks s (execCopyReadDecode line damage s) := by
  unfold execCopyReadDecode
  repeat' split
  · exact .settled (copyDecoded_faultKept _ _ s)
  · exact .idle s
  · exact .idle s

theorem execDemandWritePerformed_tracks (line : Nat) (s : State) : Tracks s (execDemandWritePerformed line s) := by
  unfold execDemandWritePerformed
  repeat' split
  · exact .same (answeredWrite_fault _ _ _ .fresh .ok s)
  · exact .idle s
  · exact .idle s

theorem execMaskedWritePerformed_tracks (line : Nat) (s : State) : Tracks s (execMaskedWritePerformed line s) := by
  unfold execMaskedWritePerformed
  repeat' split
  · exact .same (answeredWrite_fault _ _ _ _ _ s)
  · exact .idle s
  · exact .idle s

theorem execWritebackPerformed_tracks (line : Nat) (s : State) : Tracks s (execWritebackPerformed line s) := by
  unfold execWritebackPerformed
  split
  · exact .ite (.same (entryWritten_fault _ _ s)) (.idle s)
  · exact .idle s

theorem execRecordWritePerformed_tracks (line : Nat) (s : State) : Tracks s (execRecordWritePerformed line s) := by
  unfold execRecordWritePerformed
  repeat' split
  · exact .same (recordWritten_fault _ _ _ s)
  · exact .idle s
  · exact .idle s

theorem execCopyWritePerformed_tracks (line : Nat) (s : State) : Tracks s (execCopyWritePerformed line s) := by
  unfold execCopyWritePerformed
  repeat' split
  · exact .next (spareWritten_faultKept _ _ _ s)
  · exact .idle s
  · exact .idle s

/-! ### The timers -/

theorem execRowHoldExpiry_tracks (rank bank : Nat) (s : State) : Tracks s (execRowHoldExpiry rank bank s) := by
  unfold execRowHoldExpiry
  repeat' split
  · exact .idle s
  · exact .next ((arrive_faultKept _ s).then_aside rfl)
  · exact .idle s
  · exact .idle s

theorem execRefreshTimerExpiry_tracks (rank : Nat) (s : State) : Tracks s (execRefreshTimerExpiry rank s) := by
  unfold execRefreshTimerExpiry
  split
  · exact .next ((arrive_faultKept _ s).then_aside (refreshDue_fault _ _ _))
  · exact .idle s

theorem execRegionDue_tracks (s : State) : Tracks s (execRegionDue s) := by
  unfold execRegionDue
  split
  · exact .settled ((arrive_faultKept _ s).then_aside (reachDue_fault _))
  · exact .idle s

theorem execPatrolLineIssue_tracks (s : State) : Tracks s (execPatrolLineIssue s) := by
  unfold execPatrolLineIssue
  repeat' split
  · exact .settled ((arrive_faultKept _ s).then_aside (reachIssue_fault _))
  · exact .idle s
  · exact .idle s

theorem execBurstIssue_tracks (s : State) : Tracks s (execBurstIssue s) := by
  unfold execBurstIssue
  repeat' split
  · exact .settled ((arrive_faultKept _ s).then_aside (reachIssue_fault _))
  · exact .idle s
  · exact .idle s

theorem execQuietExpiry_tracks (s : State) : Tracks s (execQuietExpiry s) := by
  unfold execQuietExpiry
  split
  · exact .settled ((arrive_faultKept _ s).then_aside (closeWindow_fault _))
  · exact .idle s

theorem execQuietOverride_tracks (s : State) : Tracks s (execQuietOverride s) := by
  unfold execQuietOverride
  repeat' split
  · exact .settled ((arrive_faultKept _ s).then_aside (overrideWindow_settled _ _ _).fault_eq)
  · exact .idle s
  · exact .idle s

theorem execDecayEpoch_tracks (s : State) : Tracks s (execDecayEpoch s) := by
  unfold execDecayEpoch
  exact .next (((arrive_faultKept (onMicrosecond s.fault.decayEnd) s).trans (FaultKept.decayEnd _ _)).trans
    (decay_inner _).faultKept)

theorem execHammerWindowExpiry_tracks (s : State) : Tracks s (execHammerWindowExpiry s) := by
  have hrestart : ∀ t u, (count .hammerWindows (zeroHammer (restartHammer t u))).fault = u.fault := fun _ _ => rfl
  unfold execHammerWindowExpiry
  exact .next ((arrive_faultKept (onMicrosecond s.hammer.windowEnd) s).then_aside (hrestart s.hammer.windowEnd _))

theorem execHoldoffExpiry_tracks (s : State) : Tracks s (execHoldoffExpiry s) := by
  unfold execHoldoffExpiry
  split
  · exact .next ((arrive_faultKept _ s).then_aside (testAlert_alerted _).fault_eq)
  · exact .idle s

theorem execReadyAgeExpiry_tracks (s : State) : Tracks s (execReadyAgeExpiry s) := by
  unfold execReadyAgeExpiry
  split
  · exact .next ((arrive_faultKept _ s).then_aside (announce_alerted _).fault_eq)
  · exact .idle s

/-! ### The clear and the unknown request -/

theorem execChannelClear_tracks (s : State) : Tracks s (execChannelClear s) := by
  unfold execChannelClear
  split
  · have hcounted : FaultKept s (count .maintRequests s) := .aside rfl
    exact .next (hcounted.trans (beginClear_faultKept _))
  · exact .idle s

theorem execChannelClearComplete_tracks (selectionFirst : Bool) (s : State) :
    Tracks s (execChannelClearComplete selectionFirst s) := by
  unfold execChannelClearComplete
  repeat' split
  · exact .settled (.aside ((afterClear_settled _ _).fault_eq.trans rfl))
  · exact .idle s
  · exact .idle s

theorem execBadRequest_tracks (s : State) : Tracks s (execBadRequest s) := by
  unfold execBadRequest
  split
  · exact .ite (.same rfl) (.idle s)
  · exact .idle s

/-! ## Every command -/

theorem exec_tracks (c : Instr) (s : State) : Tracks s (exec c s) := by
  cases c with
  | powerOn => exact execPowerOn_tracks s
  | idle byte1 byte2 byte3 check => exact execIdle_tracks byte1 byte2 byte3 check s
  | read tag byte2 byte3 line check => exact execRead_tracks tag byte2 byte3 line check s
  | write tag flags byte3 line data check => exact execWrite_tracks tag flags byte3 line data check s
  | writeMasked tag flags byte3 line data mask check =>
    exact execWriteMasked_tracks tag flags byte3 line data mask check s
  | maint tag byte2 code pad args check => exact execMaint_tracks tag byte2 code pad args check s
  | arbiterGrant accept refresh => exact execArbiterGrant_tracks accept refresh s
  | demandReadDecode line damage => exact execDemandReadDecode_tracks line damage s
  | scrubReadDecode line damage => exact execScrubReadDecode_tracks line damage s
  | rmwReadDecode line damage => exact execRmwReadDecode_tracks line damage s
  | copyReadDecode line damage => exact execCopyReadDecode_tracks line damage s
  | demandWritePerformed line => exact execDemandWritePerformed_tracks line s
  | maskedWritePerformed line => exact execMaskedWritePerformed_tracks line s
  | writebackPerformed line => exact execWritebackPerformed_tracks line s
  | recordWritePerformed line => exact execRecordWritePerformed_tracks line s
  | copyWritePerformed line => exact execCopyWritePerformed_tracks line s
  | returnFrameSent => exact execReturnFrameSent_tracks s
  | rowHoldExpiry rank bank => exact execRowHoldExpiry_tracks rank bank s
  | refreshTimerExpiry rank => exact execRefreshTimerExpiry_tracks rank s
  | regionDue => exact execRegionDue_tracks s
  | patrolLineIssue => exact execPatrolLineIssue_tracks s
  | burstIssue => exact execBurstIssue_tracks s
  | quietExpiry => exact execQuietExpiry_tracks s
  | quietOverride => exact execQuietOverride_tracks s
  | decayEpoch => exact execDecayEpoch_tracks s
  | hammerWindowExpiry => exact execHammerWindowExpiry_tracks s
  | holdoffExpiry => exact execHoldoffExpiry_tracks s
  | readyAgeExpiry => exact execReadyAgeExpiry_tracks s
  | identify => exact .servedSame fun _ _ => rfl
  | readTime => exact .servedSame fun _ _ => rfl
  | setTime => exact .servedSame fun _ _ => rfl
  | setParam => exact .served doSetParam_faultKept
  | readStats => exact .servedSame doReadStats_fault
  | statsClear => exact .servedSame fun _ _ => rfl
  | goOnline => exact .servedSame doGoOnline_fault
  | channelClear => exact execChannelClear_tracks s
  | channelClearComplete selectionFirst => exact execChannelClearComplete_tracks selectionFirst s
  | configureGeometry => exact .served doConfigureGeometry_faultKept
  | regionLoad => exact .servedSettled doRegionLoad_fault
  | regionClear => exact .servedSame doRegionClear_fault
  | regionRead => exact .servedSame doRegionRead_fault
  | scrubEnable => exact .servedSettled doScrubEnable_fault
  | scrubDisable => exact .servedSettled doScrubDisable_fault
  | sweepNow => exact .servedSettled doSweepNow_fault
  | sweepHalt => exact .servedSettled doSweepHalt_fault
  | sweepResume => exact .servedSettled doSweepResume_fault
  | quietBegin => exact .servedSettled doQuietBegin_fault
  | quietEnd => exact .servedSettled doQuietEnd_fault
  | faultRead => exact .servedSame doFaultRead_fault
  | faultClear => exact .served doFaultClear_faultKept
  | deviceRead => exact .servedSame doDeviceRead_fault
  | retireRow => exact .served doRetireRow_faultKept
  | remapLoad => exact .servedSame doRemapLoad_fault
  | spareKill => exact .servedSame doSpareKill_fault
  | remapRead => exact .servedSame doRemapRead_fault
  | erase => exact .served doErase_faultKept
  | unerase => exact .served doUnerase_faultKept
  | reportSetup => exact .servedSame doReportSetup_fault
  | reportRelease => exact .servedSame doReportRelease_fault
  | reportRestart => exact .servedSame doReportRestart_fault
  | readCauses => exact .servedSame fun _ _ => rfl
  | causeSet => exact .servedSame doCauseSet_fault
  | maskSet => exact .servedSame doMaskSet_fault
  | maskClear => exact .servedSame doMaskClear_fault
  | badRequest => exact execBadRequest_tracks s
  | malformedFrame bytes => exact execMalformedFrame_tracks bytes s

/-- A step keeps the Fault Table, whether a command runs or a tick passes. -/
theorem step_faultKept {s t : State} (h : step s = .next t) : FaultKept s t := by
  unfold step at h
  split at h
  · cases h
    exact setNow_faultKept _ s
  · rename_i c rest _
    have hrest : FaultKept s { s with pending := rest } := .aside rfl
    obtain ⟨u, hu, hk⟩ := exec_tracks c { s with pending := rest }
    rw [hu] at h
    cases h
    exact hrest.trans hk

/-- Settles O7: both promises are those of FaultKept, which every command and the tick keep. -/
theorem stepsKeepFaultTableLegal : Obligations.StepsKeepFaultTableLegal := by
  intro s t ⟨hbounded, hlegal⟩ h
  have hk := step_faultKept h
  exact ⟨hk.bounded hbounded, hk.legal hlegal⟩

end Sys2Proof.Machine
end

section
/-! O44: a decay epoch halves the scores, frees entries and reviews the limit flags; the activation window clears the
counts; each timer goes on. -/

namespace Sys2Proof.Machine

open Sys2Proof

/-! ## The arrival of a moment (R196) -/

section

variable (t : FineTime) (s : State)

theorem arrive_params : (arrive t s).params = s.params := by
  unfold arrive
  split <;> rfl

theorem arrive_counters : (arrive t s).counters = s.counters := by
  unfold arrive
  split <;> rfl

theorem arrive_repair : (arrive t s).repair = s.repair := by
  unfold arrive
  split <;> rfl

theorem arrive_devices : (arrive t s).fault.devices = s.fault.devices := by
  unfold arrive
  split <;> rfl

theorem arrive_hammerTables : (arrive t s).hammer.tables = s.hammer.tables := by
  unfold arrive
  split <;> rfl

end

/-! ## One epoch (R124, R126) -/

/-- An entry after an epoch, by its state: RETIRED entries and those observed with no score left become FREE, RETIRING
ones stand. -/
theorem decayedEntry_eq (e : FaultEntry) : decayedEntry e =
    if e.state = .retired ∨ (e.state = .observed ∨ e.state = .suspect) ∧ e.score / 2 = 0 then {}
    else if e.state = .observed ∨ e.state = .suspect ∨ e.state = .blocked then { e with score := e.score / 2 }
    else e := by
  unfold decayedEntry
  cases hs : e.state <;> simp

/-- A device's flag is cleared when its score is below `device_erase` (R126). -/
theorem reviewedDevice_eq (erase : Nat) (d : DeviceScore) :
    (if d.score < erase then { d with limitReported := false } else d) =
      { d with limitReported := d.limitReported && decide (erase ≤ d.score) } := by
  split
  · rename_i h
    simp [Nat.not_le.2 h]
  · rename_i h
    simp [Nat.not_lt.1 h]

/-- The element of the device score array for a device of a rank is at its own place (R113). -/
theorem decayedDevices_getElem? (s : State) {rank device : Nat} (hd : device < 20) :
    (decayedDevices s)[rank * 20 + device]? = s.fault.devices[rank * 20 + device]?.map fun d =>
      if isErased s rank device then d else { d with score := d.score / 2 } := by
  have hrank : (rank * 20 + device) / 20 = rank := by omega
  have hdevice : (rank * 20 + device) % 20 = device := by omega
  simp only [decayedDevices, List.getElem?_map, List.getElem?_zipIdx, Option.map_map, Function.comp_def, Nat.zero_add,
    hrank, hdevice]

/-- A device after an epoch: its score is halved unless it is erased, and its flag is reviewed with the new score. -/
theorem deviceAt_decay {s : State} {rank device : Nat} (hd : device < 20)
    (hl : rank * 20 + device < s.fault.devices.length) :
    let score := if device ∈ erasureSet s rank then (deviceAt s rank device).score
      else (deviceAt s rank device).score / 2
    deviceAt (decay s) rank device =
      { score := score
        limitReported := (deviceAt s rank device).limitReported && decide (s.params.deviceErase ≤ score) } := by
  intro score
  have hat : s.fault.devices[rank * 20 + device]? = some (deviceAt s rank device) := by simp [deviceAt, hl]
  have hdecay : (decay s).fault.devices = (decayedDevices s).map fun d =>
    if d.score < s.params.deviceErase then { d with limitReported := false } else d := rfl
  simp only [reviewedDevice_eq] at hdecay
  rw [deviceAt, hdecay, List.getD_eq_getElem?_getD, List.getElem?_map, decayedDevices_getElem? s hd, hat]
  simp only [isErased, List.contains_eq_mem, decide_eq_true_eq, Option.map_some, Option.getD_some, score]
  split <;> rfl

/-- What an epoch does with its timer at any moment: the entries, the scores and one count. -/
theorem decay_of_decayEnd (decayEnd : Elapsed) (s : State) :
    let t := decay { s with fault := { s.fault with decayEnd := decayEnd } }
    t.fault.entries = s.fault.entries.map decayedEntry ∧
    (∀ rank device, device < 20 → rank * 20 + device < s.fault.devices.length →
      let score := if device ∈ erasureSet s rank then (deviceAt s rank device).score
        else (deviceAt s rank device).score / 2
      deviceAt t rank device =
        { score := score
          limitReported := (deviceAt s rank device).limitReported && decide (s.params.deviceErase ≤ score) }) ∧
    t = { s with
      fault := { entries := t.fault.entries, devices := t.fault.devices, decayEnd := decayEnd }
      counters := { s.counters with decayEpochs := satAdd s.counters.decayEpochs 1 } } :=
  ⟨rfl, fun _ _ hd hl => deviceAt_decay (s := { s with fault := { s.fault with decayEnd := decayEnd } }) hd hl, rfl⟩

theorem restartDecay_eq (moment : Elapsed) (s : State) : restartDecay moment s = { s with fault := { s.fault with
    decayEnd := moment + BitVec.ofNat 48 (s.params.decayEpoch * 1000000) } } := rfl

/-! ## The activation window (R163) -/

/-- The end of an activation window: every count returns to 0, and one count is made (R163). -/
theorem zeroHammer_eq (s : State) : count .hammerWindows (zeroHammer s) = { s with
    hammer := { s.hammer with
      tables := s.hammer.tables.map (List.map (Option.map fun e => { e with count := 0 })) }
    counters := { s.counters with hammerWindows := satAdd s.counters.hammerWindows 1 } } := rfl

/-- Settles O44: the moment arrives first, and neither the parameters, the counters, the scores nor the tables move with
it. -/
theorem epochsAndWindowsPass : Obligations.EpochsAndWindowsPass := by
  intro s
  refine ⟨?_, ?_⟩
  · intro v
    have hparams : v.params = s.params := arrive_params _ s
    have hcounters : v.counters = s.counters := arrive_counters _ s
    have hdevices : v.fault.devices = s.fault.devices := arrive_devices _ s
    have hsets : ∀ rank, erasureSet v rank = erasureSet s rank := fun rank =>
      congrArg (fun r : Repair => r.erasures.getD rank []) (arrive_repair _ s)
    have hat : ∀ rank device, deviceAt v rank device = deviceAt s rank device := fun rank device =>
      congrArg (fun l : List DeviceScore => l.getD (rank * 20 + device) {}) hdevices
    obtain ⟨hentries, hscores, hframe⟩ := decay_of_decayEnd
      (s.fault.decayEnd + BitVec.ofNat 48 (v.params.decayEpoch * 1000000)) v
    rw [← restartDecay_eq] at hentries hscores hframe
    refine ⟨decay (restartDecay s.fault.decayEnd v), rfl, ?_, fun rank device hdevice hlength => ?_, ?_⟩
    · rw [hentries]
      exact List.map_congr_left fun e _ => decayedEntry_eq e
    · rw [hscores rank device hdevice (hdevices ▸ hlength), hsets, hat, hparams]
    · rw [← hparams, ← hcounters]
      exact hframe
  · intro v
    have hparams : v.params = s.params := arrive_params _ s
    have hcounters : v.counters = s.counters := arrive_counters _ s
    have htables : v.hammer.tables = s.hammer.tables := arrive_hammerTables _ s
    rw [← hparams, ← hcounters, ← htables]
    exact congrArg Host.Outcome.next (zeroHammer_eq (restartHammer s.hammer.windowEnd v))

end Sys2Proof.Machine
end

section
/-! O42: a fault event is scored on a row entry and on its device. -/

namespace Sys2Proof.Machine

open Sys2Proof

/-! ## What an event brings (R111, R114, R116) -/

theorem weight_eq (ev : FaultEvent) : ev.weight = match ev.located with
    | none => 64
    | some d => if d.2 ≤ 1 then 1 else if d.2 ≤ 4 then 4 else 16 := by
  unfold FaultEvent.weight
  cases ev.located <;> rfl

theorem scoredDevice_eq (s : State) (ev : FaultEvent) : scoredDevice s ev =
    ev.located.bind fun d => if d.1 ∈ erasureSet s ev.rank then none else some d.1 := by
  unfold scoredDevice isErased
  cases ev.located <;> simp

/-- The device set that a scored device makes. -/
def deviceSet (device : Option Nat) : BitVec 20 :=
  match device with
  | some d => BitVec.ofNat 20 (2 ^ d)
  | none => 0

/-- How many UNCORRECTABLE events an event is. -/
theorem isUncorrectable_toNat (ev : FaultEvent) :
    ev.isUncorrectable.toNat = if ev.located = none then 1 else 0 := by
  unfold FaultEvent.isUncorrectable
  cases ev.located <;> rfl

theorem scoredEntry_eq (ev : FaultEvent) (device : Option Nat) (now : Elapsed) (e : FaultEntry) :
    scoredEntry ev device now e = { e with
      score := min 1023 (e.score + ev.weight), events := min 255 (e.events + 1)
      uncorrectables := min 255 (e.uncorrectables + if ev.located = none then 1 else 0)
      lastSeen := now, lastCol := ev.col, devices := e.devices ||| deviceSet device
      lastDevice := device.getD e.lastDevice } := by
  simp only [scoredEntry, satByte, isUncorrectable_toNat, min_comm _ 255]
  cases device <;> simp [deviceSet, deviceBit]

theorem takenEntry_eq (ev : FaultEvent) (device : Option Nat) (now : Elapsed) :
    takenEntry ev device now =
      { state := .observed, rank := ev.rank, bank := ev.bank, row := ev.row, score := ev.weight
        devices := deviceSet device, events := 1, uncorrectables := if ev.located = none then 1 else 0
        firstSeen := now, lastSeen := now, lastCol := ev.col, lastDevice := device.getD 255 } := by
  simp only [takenEntry, isUncorrectable_toNat]
  cases device <;> rfl

/-! ## The entry that is replaced (R116) -/

/-- The choice after one more entry of the table. -/
def choiceAfter (e : FaultEntry) (n : Nat) (best : Option (Nat × FaultEntry)) : Option (Nat × FaultEntry) :=
  if e.state = .observed then
    match best with
    | some b => if e.lighter b.2 then some (n, e) else some b
    | none => some (n, e)
  else best

theorem lightestFrom_cons (e : FaultEntry) (l : List FaultEntry) (n : Nat) (best : Option (Nat × FaultEntry)) :
    lightestFrom (e :: l) n best = lightestFrom l (n + 1) (choiceAfter e n best) := by
  cases best <;> rfl

/-- With no OBSERVED entry left the choice stands. -/
theorem lightestFrom_of_none {l : List FaultEntry} (h : ∀ e ∈ l, e.state ≠ .observed) (n : Nat)
    (best : Option (Nat × FaultEntry)) : lightestFrom l n best = best := by
  induction l generalizing n with
  | nil => rfl
  | cons e l ih =>
    rw [lightestFrom_cons, show choiceAfter e n best = best from if_neg (h e (by simp))]
    exact ih (fun f hf => h f (by simp [hf])) _

/-- A choice that no later OBSERVED entry is lighter than stands. -/
theorem lightestFrom_stays {l : List FaultEntry} {p : Nat × FaultEntry}
    (h : ∀ e ∈ l, e.state = .observed → e.lighter p.2 = false) (n : Nat) : lightestFrom l n (some p) = some p := by
  induction l generalizing n with
  | nil => rfl
  | cons e l ih =>
    have hstay : choiceAfter e n (some p) = some p := by
      unfold choiceAfter
      split
      · simp [h e (by simp) ‹_›]
      · rfl
    rw [lightestFrom_cons, hstay]
    exact ih (fun f hf => h f (by simp [hf])) _

/-- An OBSERVED entry lighter than the choice so far and than every OBSERVED entry before it is chosen when reached. -/
theorem lightestFrom_reached {l rest : List FaultEntry} {e : FaultEntry} (he : e.state = .observed)
    (h : ∀ f ∈ l, f.state = .observed → e.lighter f = true) (n : Nat) {best : Option (Nat × FaultEntry)}
    (hb : ∀ b ∈ best, e.lighter b.2 = true) :
    lightestFrom (l ++ e :: rest) n best = lightestFrom rest (n + l.length + 1) (some (n + l.length, e)) := by
  induction l generalizing n best with
  | nil =>
    have hchosen : choiceAfter e n best = some (n, e) := by
      cases best with
      | none => simp [choiceAfter, he]
      | some b => simp [choiceAfter, he, hb b rfl]
    rw [List.nil_append, lightestFrom_cons, hchosen]
    rfl
  | cons f l ih =>
    have hnext : ∀ b ∈ choiceAfter f n best, e.lighter b.2 = true := by
      unfold choiceAfter
      split
      · have hf := h f (by simp) ‹_›
        cases best with
        | none => simpa using hf
        | some b =>
          dsimp only
          split
          · simpa using hf
          · exact hb
      · exact hb
    rw [List.cons_append, lightestFrom_cons, ih (fun g hg => h g (by simp [hg])) (n + 1) hnext]
    simp only [List.length_cons, Nat.add_assoc, Nat.add_comm 1]

/-- The OBSERVED entry lighter than every OBSERVED entry before it, and than which none behind it is lighter, is the one
replaced. -/
theorem lightestFrom_eq_some {l : List FaultEntry} {i : Nat} (hi : i < l.length) (ho : l[i].state = .observed)
    (hbefore : ∀ j, ∀ hj : j < l.length, j < i → l[j].state = .observed → l[i].lighter l[j] = true)
    (hbehind : ∀ j, ∀ hj : j < l.length, i < j → l[j].state = .observed → l[j].lighter l[i] = false) :
    lightestFrom l 0 none = some (i, l[i]) := by
  have hsplit : l = l.take i ++ l[i] :: l.drop (i + 1) := by rw [← List.drop_eq_getElem_cons hi, List.take_append_drop]
  have htake : ∀ f ∈ l.take i, f.state = .observed → l[i].lighter f = true := by
    intro f hf
    obtain ⟨j, hj, rfl⟩ := List.mem_take_iff_getElem.1 hf
    exact hbefore j (by omega) (by omega)
  have hdrop : ∀ f ∈ l.drop (i + 1), f.state = .observed → f.lighter l[i] = false := by
    intro f hf
    obtain ⟨j, hj, rfl⟩ := List.mem_drop_iff_getElem.1 hf
    exact hbehind _ (by omega) (by omega)
  calc lightestFrom l 0 none = lightestFrom (l.take i ++ l[i] :: l.drop (i + 1)) 0 none := by rw [← hsplit]
    _ = lightestFrom (l.drop (i + 1)) (0 + (l.take i).length + 1) (some (0 + (l.take i).length, l[i])) :=
      lightestFrom_reached ho htake 0 (by simp)
    _ = some (0 + (l.take i).length, l[i]) := lightestFrom_stays hdrop _
    _ = some (i, l[i]) := by rw [List.length_take, Nat.min_eq_left hi.le, Nat.zero_add]

theorem lighter_iff (e f : FaultEntry) :
    e.lighter f = true ↔ e.score < f.score ∨ e.score = f.score ∧ elapsedDiff e.lastSeen f.lastSeen < 0 := by
  simp [FaultEntry.lighter, elapsedBefore]

theorem elapsedDiff_self (t : Elapsed) : elapsedDiff t t = 0 := by simp [elapsedDiff]

/-- Of two moments reached, if one lies before the other, the other does not lie before it. -/
theorem elapsedDiff_asymm {now a b : Elapsed} (ha : 0 ≤ elapsedDiff now a) (hb : 0 ≤ elapsedDiff now b)
    (h : elapsedDiff a b < 0) : ¬ elapsedDiff b a < 0 := by
  rw [elapsedDiff_of_reached ha hb] at h
  rw [elapsedDiff_of_reached hb ha]
  omega

/-! ## Where an event is scored (R115, R116) -/

section

variable {s : State} {ev : FaultEvent}

/-- A table in which an entry describes the row. -/
theorem faultFind_eq_some {rank bank row i : Nat} (hi : i < s.fault.entries.length)
    (hhere : (faultAt s i).state ≠ .free ∧ (faultAt s i).rank = rank ∧ (faultAt s i).bank = bank ∧ (faultAt s i).row = row)
    (hfirst : ∀ j < i, ¬ ((faultAt s j).state ≠ .free ∧ (faultAt s j).rank = rank ∧ (faultAt s j).bank = bank ∧
      (faultAt s j).row = row)) : faultFind s rank bank row = some i := by
  refine List.findIdx?_eq_some_iff_getElem.2 ⟨hi, ?_, fun j hj => ?_⟩
  · rw [← faultAt_eq_getElem hi]
    simpa [and_assoc] using hhere
  · rw [← faultAt_eq_getElem (hj.trans hi)]
    simpa [and_assoc] using hfirst j hj

theorem faultFind_eq_none {rank bank row : Nat} (h : ∀ e ∈ s.fault.entries,
    ¬ (e.state ≠ .free ∧ e.rank = rank ∧ e.bank = bank ∧ e.row = row)) : faultFind s rank bank row = none :=
  List.findIdx?_eq_none_iff.2 fun e he => by
    have := h e he
    simpa [and_assoc] using this

theorem scoreRow_found {i : Nat} (h : faultFind s ev.rank ev.bank ev.row = some i) :
    scoreRow ev s = (.found i, setFault i (scoredEntry ev (scoredDevice s ev) s.now (faultAt s i)) s) := by
  simp only [scoreRow, h]

theorem scoreRow_free {i : Nat} (h : faultFind s ev.rank ev.bank ev.row = none) (hi : i < s.fault.entries.length)
    (hfree : (faultAt s i).state = .free) (hfirst : ∀ j < i, (faultAt s j).state ≠ .free) :
    scoreRow ev s = (.taken i, setFault i (takenEntry ev (scoredDevice s ev) s.now) s) := by
  have hfind : (s.fault.entries.findIdx? fun e => e.state == .free) = some i := by
    refine List.findIdx?_eq_some_iff_getElem.2 ⟨hi, ?_, fun j hj => ?_⟩
    · rw [← faultAt_eq_getElem hi]
      simpa using hfree
    · rw [← faultAt_eq_getElem (hj.trans hi)]
      simpa using hfirst j hj
  simp only [scoreRow, h, hfind]

/-- A table with no FREE entry and none for the row: the choice among the OBSERVED ones decides. -/
theorem scoreRow_full (h : faultFind s ev.rank ev.bank ev.row = none) (hfull : ∀ e ∈ s.fault.entries, e.state ≠ .free) :
    (∀ i e, lightestFrom s.fault.entries 0 none = some (i, e) → e.score < ev.weight →
      scoreRow ev s = (.taken i, count .entriesReplaced (setFault i (takenEntry ev (scoredDevice s ev) s.now) s))) ∧
    ((∀ i e, lightestFrom s.fault.entries 0 none = some (i, e) → ev.weight ≤ e.score) →
      scoreRow ev s = (.untracked, count .untrackedEvents s)) := by
  have hfind : (s.fault.entries.findIdx? fun e => e.state == .free) = none :=
    List.findIdx?_eq_none_iff.2 fun e he => by simpa using hfull e he
  refine ⟨fun i e hl hw => ?_, fun hw => ?_⟩
  · simp only [scoreRow, h, hfind, hl, hw, if_true]
  · cases hl : lightestFrom s.fault.entries 0 none with
    | none => simp only [scoreRow, h, hfind, hl]
    | some p => simp only [scoreRow, h, hfind, hl, Nat.not_lt.2 (hw p.1 p.2 hl), if_false]

/-- The lightest OBSERVED entry, the oldest and lowest between equal ones, is the one replaced (R116). -/
theorem lightestFrom_entries {i : Nat} (hi : i < s.fault.entries.length) (ho : (faultAt s i).state = .observed)
    (hages : ∀ e ∈ s.fault.entries, 0 ≤ elapsedDiff s.maint.now.us e.lastSeen)
    (hlightest : ∀ j < s.fault.entries.length, j ≠ i → (faultAt s j).state = .observed →
      (faultAt s i).score < (faultAt s j).score ∨ (faultAt s i).score = (faultAt s j).score ∧
        (elapsedDiff (faultAt s i).lastSeen (faultAt s j).lastSeen < 0 ∨
          (faultAt s i).lastSeen = (faultAt s j).lastSeen ∧ i < j)) :
    lightestFrom s.fault.entries 0 none = some (i, faultAt s i) := by
  have hage : ∀ j, j < s.fault.entries.length → 0 ≤ elapsedDiff s.maint.now.us (faultAt s j).lastSeen := fun j hj =>
    hages _ (faultAt_eq_getElem hj ▸ List.getElem_mem hj)
  rw [faultAt_eq_getElem hi]
  refine lightestFrom_eq_some hi (faultAt_eq_getElem hi ▸ ho) (fun j hj hlt hobserved => ?_)
    fun j hj hlt hobserved => ?_
  · rw [← faultAt_eq_getElem hj] at hobserved ⊢
    rw [← faultAt_eq_getElem hi, lighter_iff]
    rcases hlightest j hj (by omega) hobserved with h | ⟨h, h' | ⟨-, h'⟩⟩
    · exact .inl h
    · exact .inr ⟨h, h'⟩
    · omega
  · rw [← faultAt_eq_getElem hj] at hobserved ⊢
    rw [← faultAt_eq_getElem hi, ← Bool.not_eq_true, lighter_iff]
    rcases hlightest j hj (by omega) hobserved with h | ⟨h, h' | ⟨h', -⟩⟩
    · omega
    · have := elapsedDiff_asymm (hage i hi) (hage j hj) h'
      omega
    · rw [h', elapsedDiff_self]
      omega

/-! ## The device of an event (R117) -/

/-- The device score array once an event has been scored on its device. -/
def scoredDevices (ev : FaultEvent) (s : State) : List DeviceScore :=
  match scoredDevice s ev with
  | some d => s.fault.devices.set (ev.rank * 20 + d)
      { deviceAt s ev.rank d with score := min 4095 ((deviceAt s ev.rank d).score + ev.weight) }
  | none => s.fault.devices

theorem scoreDevice_eq (ev : FaultEvent) (s : State) :
    scoreDevice ev s = { s with fault := { s.fault with devices := scoredDevices ev s } } := by
  unfold scoreDevice scoredDevices
  cases scoredDevice s ev <;> rfl

/-- A scoring on the row touches the row entries and two counts. -/
theorem scoreRow_frame (ev : FaultEvent) (s : State) : (scoreRow ev s).2 = { s with
    fault := { s.fault with entries := (scoreRow ev s).2.fault.entries }, counters := (scoreRow ev s).2.counters } := by
  unfold scoreRow
  dsimp only
  repeat' split
  all_goals rfl

/-- The scoring of an event on its row and then on its device, together. -/
theorem scoreDevice_scoreRow (ev : FaultEvent) (s : State) : scoreDevice ev (scoreRow ev s).2 = { s with
    fault := { s.fault with entries := (scoreRow ev s).2.fault.entries, devices := scoredDevices ev s }
    counters := (scoreRow ev s).2.counters } := by
  rw [scoreDevice_eq, scoreRow_frame]
  rfl

end

/-- Settles O42: the branches of the row's scoring, the device's, and the order of the parts of an event. -/
theorem faultEventsAreScored : Obligations.FaultEventsAreScored := by
  intro s ev t w device set here taken lighter
  have hweight : ev.weight = w := weight_eq ev
  have hdevice : scoredDevice s ev = device := scoredDevice_eq s ev
  have hset : deviceSet device = set := rfl
  have ht : t = { s with
    fault := { s.fault with entries := (scoreRow ev s).2.fault.entries, devices := scoredDevices ev s }
    counters := (scoreRow ev s).2.counters } := scoreDevice_scoreRow ev s
  have htaken : takenEntry ev (scoredDevice s ev) s.now = taken := by
    rw [takenEntry_eq, hweight, hdevice]
    rfl
  have hentries : t.fault.entries = (scoreRow ev s).2.fault.entries := by rw [ht]
  have hcounters : t.counters = (scoreRow ev s).2.counters := by rw [ht]
  have hdevices : t.fault.devices = scoredDevices ev s := by rw [ht]
  refine ⟨fun i hi hhere hfirst => ?_, fun hnone => ⟨fun i hi hfree hfirst => ?_, fun hfull => ⟨?_, fun hno => ?_⟩⟩, ?_, ?_, ?_⟩
  · have hrow := scoreRow_found (ev := ev) (faultFind_eq_some hi hhere hfirst)
    rw [scoredEntry_eq, hweight, hdevice, hset] at hrow
    rw [hentries, hcounters, hrow]
    exact ⟨rfl, rfl, rfl⟩
  · have hrow := scoreRow_free (faultFind_eq_none hnone) hi hfree hfirst
    rw [hentries, hcounters, hrow, htaken]
    exact ⟨rfl, rfl, rfl⟩
  · intro i hi ho hages hlightest
    obtain ⟨hreplace, huntracked⟩ := scoreRow_full (faultFind_eq_none hnone) hfull
    have hl := lightestFrom_entries hi ho hages hlightest
    refine ⟨fun hlt => ?_, fun hle => ?_⟩
    · rw [hentries, hcounters, hreplace i _ hl (hweight ▸ hlt), htaken]
      exact ⟨rfl, rfl, rfl⟩
    · have hrow := huntracked fun j e hj => by
        obtain ⟨-, rfl⟩ := Prod.mk.inj (Option.some.inj (hl.symm.trans hj))
        exact hweight ▸ hle
      rw [hentries, hcounters, hrow]
      exact ⟨rfl, rfl, rfl⟩
  · obtain ⟨-, huntracked⟩ := scoreRow_full (faultFind_eq_none hnone) hfull
    have hrow := huntracked fun j e hj => by simp [lightestFrom_of_none hno] at hj
    rw [hentries, hcounters, hrow]
    exact ⟨rfl, rfl, rfl⟩
  · rw [hdevices, scoredDevices, hdevice, hweight] <;> rfl
  · rw [hentries, hcounters, hdevices]
    exact ht
  · unfold takeEvent decideDevice
    cases ev.located <;> rfl

end Sys2Proof.Machine
end

section
/-! O43: the records, causes and states that follow a scored event. -/

namespace Sys2Proof.Machine

open Sys2Proof

/-! ## What records, causes and jobs of the queue leave alone -/

/-- The Fault Table, the Repair Engine and the counts of the checks stand. -/
structure ChecksAside (s t : State) : Prop where
  fault : t.fault = s.fault
  repair : t.repair = s.repair
  suspected : t.counters.rowsSuspect = s.counters.rowsSuspect
  blocked : t.counters.retireBlocked = s.counters.retireBlocked
  taken : t.counters.repairJobsTaken = s.counters.repairJobsTaken

theorem ChecksAside.refl (s : State) : ChecksAside s s := ⟨rfl, rfl, rfl, rfl, rfl⟩

theorem ChecksAside.trans {a b c : State} (h : ChecksAside a b) (k : ChecksAside b c) : ChecksAside a c :=
  ⟨k.fault.trans h.fault, k.repair.trans h.repair, k.suspected.trans h.suspected, k.blocked.trans h.blocked,
    k.taken.trans h.taken⟩

theorem raise_checksAside (c : Cause) (s : State) : ChecksAside s (raise c s) := by
  rw [raise_eq]
  exact ⟨rfl, rfl, rfl, rfl, rfl⟩

theorem handRecord_checksAside (r : Record) (s : State) : ChecksAside s (handRecord r s) := by
  by_cases h : RingOpen s
  · rw [handRecord_open r h]
    exact ⟨rfl, rfl, rfl, rfl, rfl⟩
  · rw [handRecord_closed r h]
    exact ⟨rfl, rfl, rfl, rfl, rfl⟩

theorem tsqInsert_checksAside (rank bank row : Nat) (neighbour : Bool) (s : State) :
    ChecksAside s (tsqInsert rank bank row neighbour s) := by
  have hcount : ChecksAside s (count .tsqDropped s) := ⟨rfl, rfl, rfl, rfl, rfl⟩
  unfold tsqInsert
  repeat' split
  · exact .refl s
  · exact ⟨rfl, rfl, rfl, rfl, rfl⟩
  · exact ⟨rfl, rfl, rfl, rfl, rfl⟩
  · exact hcount.trans (raise_checksAside _ _)

theorem handRecord_patrol (r : Record) (s : State) : (handRecord r s).patrol = s.patrol := by
  rw [(handRecord_noted r s).2.2.2]

theorem handRecord_maint (r : Record) (s : State) : (handRecord r s).maint = s.maint := by
  rw [(handRecord_noted r s).2.2.2]

/-- A cause raised takes no pending cause back. -/
theorem raise_pending (c : Cause) {s : State} {i : Nat} (h : s.report.pending.getLsbD i = true) :
    (raise c s).report.pending.getLsbD i = true := by
  rw [(raise_counts _ _).2, BitVec.getLsbD_or, h, Bool.true_or]

theorem isCritical_congr {s t : State} (h : t.regions = s.regions) (region : Option Nat) :
    isCritical t region = isCritical s region := by
  cases region with
  | none => rfl
  | some i => simp only [isCritical, regionAt, h]

/-! ## The records (R118, R119, R121, R176) -/

/-- The record of an event, with the entry and the score it names. -/
def eventRecordOf (ev : FaultEvent) (entry score : Nat) : Record :=
  { kind := if ev.located = none then 2 else 1, source := ev.source.code, region := ev.region
    poisoned := ev.poisoned, line := ev.line, rank := ev.rank, bank := ev.bank
    device := (ev.located.map Prod.fst).getD 255, bitCount := (ev.located.map Prod.snd).getD 0, row := ev.row
    col := ev.col, score := score, detail := [(38, 1, entry)] }

/-- The record of an entry's change, with a reason code. -/
def rowRecordOf (ev : FaultEvent) (e : FaultEntry) (i kind reason : Nat) : Record :=
  { kind := kind, region := ev.region, line := ev.line, rank := e.rank, bank := e.bank, device := e.lastDevice
    row := e.row, score := e.score
    detail := [(38, 1, i), (39, 1, e.events), (40, 1, e.uncorrectables), (41, 1, reason), (42, 3, e.devices.toNat)] }

/-- The CORRECTED record of an event whose entry changes its state, handed on unless the event has its record. -/
def changedBy (ev : FaultEvent) (reported : Bool) (i score : Nat) (u : State) : State :=
  if reported = true ∨ ev.located = none then u else handRecord (eventRecordOf ev i score) u

theorem isUncorrectable_iff (ev : FaultEvent) : ev.isUncorrectable = true ↔ ev.located = none := by
  simp [FaultEvent.isUncorrectable]

theorem eventRecord_some (ev : FaultEvent) (i : Nat) (s : State) :
    eventRecord ev (some i) s = eventRecordOf ev i (faultAt s i).score := by
  simp only [eventRecord, isUncorrectable_iff]
  rfl

theorem eventRecord_none (ev : FaultEvent) (s : State) : eventRecord ev none s = eventRecordOf ev 255 0 := by
  simp only [eventRecord, isUncorrectable_iff]
  rfl

theorem reportChange_eq {ev : FaultEvent} {i score : Nat} {u : State} (reported : Bool)
    (h : (faultAt u i).score = score) : reportChange ev reported i u = changedBy ev reported i score u := by
  simp only [reportChange, changedBy, eventRecord_some, h, Bool.or_eq_true, isUncorrectable_iff]

section

variable (ev : FaultEvent) (reported : Bool) (i score : Nat) (u : State)

theorem changedBy_checksAside : ChecksAside u (changedBy ev reported i score u) := by
  unfold changedBy
  split
  · exact .refl u
  · exact handRecord_checksAside _ u

theorem changedBy_patrol : (changedBy ev reported i score u).patrol = u.patrol := by
  unfold changedBy
  split
  · rfl
  · exact handRecord_patrol _ u

theorem changedBy_maint : (changedBy ev reported i score u).maint = u.maint := by
  unfold changedBy
  split
  · rfl
  · exact handRecord_maint _ u

theorem changedBy_pending {n : Nat} (h : u.report.pending.getLsbD n = true) :
    (changedBy ev reported i score u).report.pending.getLsbD n = true := by
  unfold changedBy
  split
  · exact h
  · exact handRecord_pending _ h

end

/-! ## An event reported (R118) -/

/-- The state of an UNCORRECTABLE event that has its record and its first cause. -/
def uncorrectableRaised (ev : FaultEvent) (where_ : Scored) (s : State) : State :=
  raise .uncorrectable (handRecord (eventRecord ev where_.entry? s) s)

/-- An UNCORRECTABLE event has its record, then UNCORRECTABLE and, in a CRITICAL region, the critical cause. -/
theorem reportEvent_uncorrectable {ev : FaultEvent} (h : ev.located = none) (where_ : Scored) (s : State) :
    reportEvent ev where_ s = if isCritical s ev.region then
      raise .criticalUncorrectable (uncorrectableRaised ev where_ s) else uncorrectableRaised ev where_ s := by
  have hregions : (uncorrectableRaised ev where_ s).regions = s.regions := by
    rw [uncorrectableRaised, raise_eq, (handRecord_noted _ s).2.2.2]
  rw [← isCritical_congr hregions]
  exact if_pos ((isUncorrectable_iff ev).2 h)

/-- Both causes are pending after the report, and the critical one in a CRITICAL region. -/
theorem reportEvent_pending {ev : FaultEvent} (h : ev.located = none) (where_ : Scored) (s : State) :
    (reportEvent ev where_ s).report.pending.getLsbD 1 = true ∧
      (isCritical s ev.region = true → (reportEvent ev where_ s).report.pending.getLsbD 2 = true) := by
  have hraised : (uncorrectableRaised ev where_ s).report.pending.getLsbD 1 = true :=
    raise_pending_bit _ _ (by decide)
  rw [reportEvent_uncorrectable h]
  split
  · exact ⟨raise_pending _ hraised, fun _ => raise_pending_bit _ _ (by decide)⟩
  · exact ⟨hraised, fun hc => absurd hc ‹_›⟩

/-- A CORRECTED event has its record when it takes an entry or is untracked. -/
theorem reportEvent_corrected {ev : FaultEvent} (h : ev.located ≠ none) (s : State) (i : Nat) :
    reportEvent ev (.found i) s = s ∧
      reportEvent ev (.taken i) s = handRecord (eventRecordOf ev i (faultAt s i).score) s ∧
      reportEvent ev .untracked s = handRecord (eventRecordOf ev 255 0) s := by
  simp only [reportEvent, isUncorrectable_iff, h, if_false, Scored.entry?, eventRecord_some, eventRecord_none, and_self]

/-! ## Events scored without a check (R122, R143) -/

theorem scoredOnly_iff (ev : FaultEvent) (s : State) : scoredOnly ev s = true ↔
    (ev.source = .repair ∧ ∃ j, s.repair.jobs.head? = some j ∧ j.rank = ev.rank ∧ j.bank = ev.bank ∧
      j.sourceRow = ev.row) ∨
    (ev.source = .targeted ∧ serves s ev.rank ev.bank ev.row = false) := by
  unfold scoredOnly
  cases ev.source <;> simp [Option.any_eq_true, and_assoc]

/-! ## The suspect check (R119) -/

/-- An entry of the table once it has been replaced. -/
theorem faultAt_setFault_self {s : State} {i : Nat} (hi : i < s.fault.entries.length) (e : FaultEntry) :
    faultAt (setFault i e s) i = e := by simp [faultAt, setFault, hi]

section

variable {s : State} {ev : FaultEvent} {i : Nat} {reported : Bool}

theorem suspectCheck_below (h : ¬ ((faultAt s i).state = .observed ∧ s.params.rowSuspect ≤ (faultAt s i).score)) :
    suspectCheck ev i reported s = (reported, s) := by
  simp only [suspectCheck, h, if_false]

/-- The state in which the recheck of an entry that has become SUSPECT is handed to the Targeted Scrub Queue. -/
def suspected (ev : FaultEvent) (i : Nat) (reported : Bool) (s : State) : State :=
  changedBy ev reported i (faultAt s i).score (setFault i { faultAt s i with state := .suspect } s)

/-- At `row_suspect` the entry becomes SUSPECT, with the CORRECTED record, the recheck and the ROW_SUSPECT record in this
order. -/
theorem suspectCheck_reached (hi : i < s.fault.entries.length) (ho : (faultAt s i).state = .observed)
    (hs : s.params.rowSuspect ≤ (faultAt s i).score) :
    let e := faultAt s i
    let u := handRecord (rowRecordOf ev e i 4 0) (tsqInsert e.rank e.bank e.row false (suspected ev i reported s))
    suspectCheck ev i reported s =
      (true, { u with counters := { u.counters with rowsSuspect := satAdd s.counters.rowsSuspect 1 } }) ∧
    u.fault = { s.fault with entries := s.fault.entries.set i { e with state := .suspect } } ∧
    u.patrol = (tsqInsert e.rank e.bank e.row false (suspected ev i reported s)).patrol := by
  intro e u
  have hset : ChecksAside (setFault i { e with state := .suspect } s) (tsqInsert e.rank e.bank e.row false
      (suspected ev i reported s)) := (changedBy_checksAside _ _ _ _ _).trans (tsqInsert_checksAside _ _ _ _ _)
  have hu : ChecksAside (setFault i { e with state := .suspect } s) u := hset.trans (handRecord_checksAside _ _)
  have hat : faultAt (tsqInsert e.rank e.bank e.row false (suspected ev i reported s)) i = { e with state := .suspect } :=
    (faultAt_of_fault hset.fault i).trans (faultAt_setFault_self hi _)
  have hchange : reportChange ev reported i (setFault i { e with state := .suspect } s) = suspected ev i reported s :=
    reportChange_eq reported (by rw [faultAt_setFault_self hi])
  have hrow : rowRecord 4 none ev i (tsqInsert e.rank e.bank e.row false (suspected ev i reported s)) =
      rowRecordOf ev e i 4 0 := by
    unfold rowRecord
    rw [hat]
    rfl
  refine ⟨?_, hu.fault, handRecord_patrol _ _⟩
  have hcheck : suspectCheck ev i reported s = (true, count .rowsSuspect u) := by
    have hif : (faultAt s i).state = .observed ∧ s.params.rowSuspect ≤ (faultAt s i).score := ⟨ho, hs⟩
    simp only [suspectCheck, hif, and_self, if_true]
    rw [hchange, hrow]
  rw [hcheck, ← show u.counters.rowsSuspect = s.counters.rowsSuspect from hu.suspected]
  rfl

/-- A row without a job, in a queue with room and outside a clear, has a new recheck job at the tail (R92). -/
theorem suspected_queued (hnew : ∀ f ∈ s.patrol.tsq, f.place ≠ ((faultAt s i).rank, (faultAt s i).bank, (faultAt s i).row))
    (hroom : s.patrol.tsq.length < 16) (hclear : s.maint.clearing = false) :
    (tsqInsert (faultAt s i).rank (faultAt s i).bank (faultAt s i).row false (suspected ev i reported s)).patrol.tsq =
      s.patrol.tsq ++ [{ rank := (faultAt s i).rank, bank := (faultAt s i).bank, row := (faultAt s i).row, recheck := true
                         neighbour := false, nextCol := 0, inService := false, reading := false }] := by
  have hpatrol : (suspected ev i reported s).patrol = s.patrol := changedBy_patrol _ _ _ _ _
  have hmaint : (suspected ev i reported s).maint = s.maint := changedBy_maint _ _ _ _ _
  rw [tsqInsert_queued false (by rw [hmaint]; exact hclear) (by rw [hpatrol]; exact hnew) (by rw [hpatrol]; exact hroom),
    hpatrol]
  rfl

/-! ## The retire check (R120, R121, R123) -/

/-- The state u once the entry has become BLOCKED with a reason, the CORRECTED record and the RETIRE_BLOCKED record after
it; the entry and the count are those of the state s in which the check began. -/
def blockedState (ev : FaultEvent) (reported : Bool) (i : Nat) (reason : BlockReason) (s u : State) : State :=
  let e := faultAt s i
  let x := handRecord (rowRecordOf ev e i 5 (reasonCode (some reason)))
    (changedBy ev reported i e.score (setFault i { e with state := .blocked, reason := some reason } u))
  { x with counters := { x.counters with retireBlocked := satAdd s.counters.retireBlocked 1 } }

/-- What an entry's becoming BLOCKED leaves: the entry, the Repair Engine and the pending causes (R121). -/
def Blocked (i : Nat) (reason : BlockReason) (s u t : State) : Prop :=
  t.fault.entries = s.fault.entries.set i { faultAt s i with state := .blocked, reason := some reason } ∧
    t.repair = s.repair ∧ ∀ n, u.report.pending.getLsbD n = true → t.report.pending.getLsbD n = true

theorem blockEntry_spec {u : State} (hi : i < s.fault.entries.length) (h : ChecksAside s u) (reason : BlockReason) :
    blockEntry ev i reported reason u = blockedState ev reported i reason s u ∧
      Blocked i reason s u (blockEntry ev i reported reason u) := by
  have hat : faultAt u i = faultAt s i := faultAt_of_fault h.fault i
  generalize he : { faultAt s i with state := .blocked, reason := some reason } = e
  have hset : faultAt (setFault i e u) i = e := faultAt_setFault_self (by rw [h.fault]; exact hi) _
  have hchanged := changedBy_checksAside ev reported i (faultAt s i).score (setFault i e u)
  have hrow : rowRecord 5 (some reason) ev i (changedBy ev reported i (faultAt s i).score (setFault i e u)) =
      rowRecordOf ev (faultAt s i) i 5 (reasonCode (some reason)) := by
    unfold rowRecord
    rw [faultAt_of_fault hchanged.fault, hset, ← he]
    rfl
  have hchange : reportChange ev reported i (setFault i e u) =
      changedBy ev reported i (faultAt s i).score (setFault i e u) := reportChange_eq reported (by rw [hset, ← he])
  generalize hx : handRecord (rowRecordOf ev (faultAt s i) i 5 (reasonCode (some reason)))
    (changedBy ev reported i (faultAt s i).score (setFault i e u)) = x
  have hxu : ChecksAside (setFault i e u) x := hx ▸ hchanged.trans (handRecord_checksAside _ _)
  have hblock : blockEntry ev i reported reason u = count .retireBlocked x := by
    simp only [blockEntry, hat, he]
    rw [hchange, hrow, hx]
  have hcount : x.counters.retireBlocked = s.counters.retireBlocked := hxu.blocked.trans h.blocked
  refine ⟨?_, ?_, ?_, fun n hn => ?_⟩
  · rw [hblock, blockedState, he, hx, ← hcount]
    rfl
  · rw [hblock, count_fault, hxu.fault, he, ← h.fault]
    rfl
  · rw [hblock]
    exact hxu.repair.trans h.repair
  · rw [hblock, ← hx]
    exact handRecord_pending _ (changedBy_pending ev reported i _ _ hn)

/-- A retire check that finds the conditions of R120 not met does nothing. -/
theorem retireCheck_below (h : ¬ (((faultAt s i).state = .observed ∨ (faultAt s i).state = .suspect) ∧
    s.params.rowRetire ≤ (faultAt s i).score ∧ s.maint.clearing = false)) : retireCheck ev i reported s = s := by
  simp only [← Bool.not_eq_true] at h
  simp only [retireCheck, h, if_false]

section

variable (hstate : (faultAt s i).state = .observed ∨ (faultAt s i).state = .suspect)
  (hscore : s.params.rowRetire ≤ (faultAt s i).score) (hclear : s.maint.clearing = false)

include hstate hscore hclear

theorem retireCheck_autoOff (h : s.params.autoRetire = 0) :
    retireCheck ev i reported s = blockEntry ev i reported .autoOff s := by
  simp only [retireCheck, hstate, hscore, hclear, h, Bool.false_eq_true, not_false_eq_true, and_self, if_true]

/-- With `auto_retire` on, what the check does is told by the Repair Engine's answer. -/
theorem retireCheck_answered (h : s.params.autoRetire ≠ 0) :
    let r := retireRequest (faultAt s i).rank (faultAt s i).bank (faultAt s i).row (count .retireRequests s)
    let t := retireCheck ev i reported s
    (r.1 = .noSpare → t = blockEntry ev i reported .noSpare r.2) ∧
    (r.1 = .queueFull → t = blockEntry ev i reported .queueFull r.2) ∧
    (r.1 = .inProgress → t = r.2) ∧
    (r.1 = .notInService → t = reportChange ev reported i (setFault i { faultAt r.2 i with state := .retired } r.2)) ∧
    (r.1 = .taken → t = reportChange ev reported i r.2) := by
  intro r t
  have ht : t = retireCheck ev i reported s := rfl
  simp only [retireCheck, hstate, hscore, hclear, h, Bool.false_eq_true, not_false_eq_true, and_self, if_true,
    if_false] at ht
  rw [ht]
  refine ⟨fun ha => ?_, fun ha => ?_, fun ha => ?_, fun ha => ?_, fun ha => ?_⟩ <;>
  · rw [← Prod.mk.eta (p := retireRequest _ _ _ _), show (retireRequest _ _ _ _).1 = _ from ha]

end

end

/-- The Repair Engine's answers, with the state of each (R138). -/
theorem retireRequest_cases (rank bank row : Nat) (s : State) :
    let r := retireRequest rank bank row s
    r = (.notInService, s) ∨ r = (.inProgress, s) ∨
    r = (.noSpare, count .retireNoSpare (raise .sparesExhausted s)) ∨ r = (.queueFull, count .retireQueueFull s) ∨
    ∃ logical k, heldRow s rank bank row = some logical ∧ r = (.taken, takeJob rank bank logical k .faultTable s) := by
  unfold retireRequest
  dsimp only
  repeat' split
  · exact .inl rfl
  · exact .inl rfl
  · exact .inr (.inl rfl)
  · exact .inr (.inr (.inl rfl))
  · exact .inr (.inr (.inr (.inl rfl)))
  · rename_i logical hheld _ _ _ k _ _
    exact .inr (.inr (.inr (.inr ⟨logical, k, hheld, rfl⟩)))

/-- The state that goes with each answer. -/
theorem retireRequest_state (rank bank row : Nat) (s : State) :
    let r := retireRequest rank bank row s
    (r.1 = .noSpare → r.2 = count .retireNoSpare (raise .sparesExhausted s)) ∧
    (r.1 = .queueFull → r.2 = count .retireQueueFull s) ∧ (r.1 = .inProgress → r.2 = s) ∧
    (r.1 = .notInService → r.2 = s) ∧
    (r.1 = .taken → ∃ logical k, heldRow s rank bank row = some logical ∧
      r.2 = takeJob rank bank logical k .faultTable s) := by
  intro r
  rcases retireRequest_cases rank bank row s with h | h | h | h | ⟨logical, k, hheld, h⟩
  · simp [r, h]
  · simp [r, h]
  · simp [r, h]
  · simp [r, h]
  · simp [r, h, hheld]
    exact ⟨k, rfl⟩

/-! ## A job taken (R123, R138, R140) -/

/-- The start of a job counts no job taken. -/
theorem startJob_taken (s : State) : (startJob s).counters.repairJobsTaken = s.counters.repairJobsTaken := by
  unfold startJob
  repeat' split
  · rfl
  · rw [(resumeCopy_pair _).1]
    rfl
  · rfl

/-- The Fault Table of a state once it has been told that a job was taken for the row of an entry, or of none. -/
def toldTaken (found : Option Nat) (s : State) : FaultTable :=
  match found with
  | some i => { s.fault with
      entries := s.fault.entries.set i { faultAt s i with state := .retiring, reason := none } }
  | none => s.fault

theorem faultJobTaken_fault (rank bank row : Nat) {s u : State} (h : u.fault = s.fault) :
    (faultJobTaken rank bank row u).fault = toldTaken (faultFind s rank bank row) s := by
  have hsame : faultFind u rank bank row = faultFind s rank bank row := by
    rw [faultFind, h]
    rfl
  unfold faultJobTaken faultModify
  rw [hsame]
  cases faultFind s rank bank row with
  | none => exact h
  | some i => simp only [setFault, toldTaken, h, faultAt_of_fault h]

/-- The state of a job taken, before the job starts: the slot, the queue, the entry of the source row and one count. -/
def jobTaken (rank bank logical k : Nat) (origin : Origin) (s : State) : State :=
  let target := match activeSlotOf s rank bank logical with
    | some source => SlotTarget.move source
    | none => .row logical
  let row := servedRow s rank bank logical
  let u := setSlot rank bank k (.reserved target) s
  count .repairJobsTaken (faultJobTaken rank bank row { u with repair := { u.repair with jobs := s.repair.jobs ++
    [{ rank := rank, bank := bank, logical := logical, target := k, sourceRow := row, origin := origin }] } })

theorem takeJob_eq (rank bank logical k : Nat) (origin : Origin) (s : State) :
    takeJob rank bank logical k origin s = if s.repair.jobs.isEmpty = true then
      startJob (jobTaken rank bank logical k origin s) else jobTaken rank bank logical k origin s := rfl

section

variable (rank bank logical k : Nat) (origin : Origin) (s : State)

/-- The entry of the source row, if there is one, becomes RETIRING (R123). -/
theorem jobTaken_fault : (jobTaken rank bank logical k origin s).fault =
    toldTaken (faultFind s rank bank (servedRow s rank bank logical)) s := faultJobTaken_fault _ _ _ rfl

theorem jobTaken_queue : (jobTaken rank bank logical k origin s).repair.jobs.length = s.repair.jobs.length + 1 ∧
    (jobTaken rank bank logical k origin s).counters.repairJobsTaken = satAdd s.counters.repairJobsTaken 1 := by
  unfold jobTaken faultJobTaken faultModify
  dsimp only
  split <;> exact ⟨List.length_append, rfl⟩

/-- A job taken, with its start if the queue was empty: one job more, one count, and the entry of its source row. -/
theorem takeJob_checks : (takeJob rank bank logical k origin s).fault = (jobTaken rank bank logical k origin s).fault ∧
    (takeJob rank bank logical k origin s).repair.jobs.length = s.repair.jobs.length + 1 ∧
    (takeJob rank bank logical k origin s).counters.repairJobsTaken = satAdd s.counters.repairJobsTaken 1 := by
  obtain ⟨hlength, htaken⟩ := jobTaken_queue rank bank logical k origin s
  rw [takeJob_eq]
  split
  · obtain ⟨-, -, hfault, -, hjobs, -⟩ := startJob_spec (jobTaken rank bank logical k origin s)
    have hsame := congrArg List.length hjobs
    simp only [List.length_map] at hsame
    exact ⟨hfault, hsame.trans hlength, (startJob_taken _).trans htaken⟩
  · exact ⟨rfl, hlength, htaken⟩

/-- No score moves when a job is taken. -/
theorem takeJob_score (i : Nat) : (faultAt (takeJob rank bank logical k origin s) i).score = (faultAt s i).score := by
  obtain ⟨hfault, -⟩ := takeJob_checks rank bank logical k origin s
  rw [faultAt_of_fault hfault, faultAt, jobTaken_fault]
  cases hfind : faultFind s rank bank (servedRow s rank bank logical) with
  | none => rfl
  | some j =>
    obtain ⟨hj, -⟩ := faultFind_some hfind
    simp only [toldTaken, List.getD_eq_getElem?_getD, List.getElem?_set]
    by_cases hji : j = i
    · subst hji
      simp [hj]
    · rw [if_neg hji]
      rfl

/-- The entry of a row that serves its logical row is the one told (R123). -/
theorem takeJob_serving {row i : Nat} (hheld : heldRow s rank bank row = some logical)
    (hserves : serves s rank bank row = true) (hfind : faultFind s rank bank row = some i) :
    (takeJob rank bank logical k origin s).fault.entries =
      s.fault.entries.set i { faultAt s i with state := .retiring, reason := none } := by
  obtain ⟨hfault, -⟩ := takeJob_checks rank bank logical k origin s
  have hrow : servedRow s rank bank logical = row := by simpa [serves, hheld] using hserves
  rw [hfault, jobTaken_fault, hrow, hfind]
  rfl

end

/-! ## What the check does at each answer (R120, R121, R123) -/

section

variable {s : State} (ev : FaultEvent) {i : Nat} (reported : Bool) (hi : i < s.fault.entries.length)
  (hstate : (faultAt s i).state = .observed ∨ (faultAt s i).state = .suspect)
  (hscore : s.params.rowRetire ≤ (faultAt s i).score) (hclear : s.maint.clearing = false)

/-- The Repair Engine's answer to the retire request of an entry, with its state. -/
def entryRequest (s : State) (i : Nat) : RetireAnswer × State :=
  retireRequest (faultAt s i).rank (faultAt s i).bank (faultAt s i).row (count .retireRequests s)

theorem count_retireRequests_checksAside (s : State) : ChecksAside s (count .retireRequests s) :=
  ⟨rfl, rfl, rfl, rfl, rfl⟩

include hi hstate hscore hclear

theorem retireCheck_blocks_autoOff (h : s.params.autoRetire = 0) :
    retireCheck ev i reported s = blockedState ev reported i .autoOff s s ∧
      Blocked i .autoOff s s (retireCheck ev i reported s) := by
  rw [retireCheck_autoOff hstate hscore hclear h]
  exact blockEntry_spec hi (.refl s) .autoOff

variable (h : s.params.autoRetire ≠ 0)

include h

/-- No spare: the entry is BLOCKED, and the cause of the refusal is pending. -/
theorem retireCheck_noSpare (ha : (entryRequest s i).1 = .noSpare) :
    retireCheck ev i reported s = blockedState ev reported i .noSpare s (entryRequest s i).2 ∧
      Blocked i .noSpare s (entryRequest s i).2 (retireCheck ev i reported s) ∧
      (entryRequest s i).2.report.pending.getLsbD 9 = true := by
  obtain ⟨hcheck, -⟩ := retireCheck_answered (ev := ev) (reported := reported) hstate hscore hclear h
  obtain ⟨hanswer, -⟩ := retireRequest_state (faultAt s i).rank (faultAt s i).bank (faultAt s i).row
    (count .retireRequests s)
  have hv : (entryRequest s i).2 = count .retireNoSpare (raise .sparesExhausted (count .retireRequests s)) := hanswer ha
  have hcount : ∀ u, ChecksAside u (count .retireNoSpare u) := fun _ => ⟨rfl, rfl, rfl, rfl, rfl⟩
  have haside : ChecksAside s (entryRequest s i).2 :=
    hv ▸ (count_retireRequests_checksAside s).trans ((raise_checksAside _ _).trans (hcount _))
  obtain ⟨hblock, hblocked⟩ := blockEntry_spec (ev := ev) (reported := reported) hi haside .noSpare
  rw [hcheck ha]
  refine ⟨hblock, hblocked, ?_⟩
  rw [hv]
  exact raise_pending_bit _ _ (by decide)

/-- A full repair queue: the entry is BLOCKED. -/
theorem retireCheck_queueFull (ha : (entryRequest s i).1 = .queueFull) :
    retireCheck ev i reported s = blockedState ev reported i .queueFull s (entryRequest s i).2 ∧
      Blocked i .queueFull s (entryRequest s i).2 (retireCheck ev i reported s) := by
  obtain ⟨-, hcheck, -⟩ := retireCheck_answered (ev := ev) (reported := reported) hstate hscore hclear h
  obtain ⟨-, hanswer, -⟩ := retireRequest_state (faultAt s i).rank (faultAt s i).bank (faultAt s i).row
    (count .retireRequests s)
  have hv : (entryRequest s i).2 = count .retireQueueFull (count .retireRequests s) := hanswer ha
  have hcount : ∀ u, ChecksAside u (count .retireQueueFull u) := fun _ => ⟨rfl, rfl, rfl, rfl, rfl⟩
  have haside : ChecksAside s (entryRequest s i).2 := hv ▸ (count_retireRequests_checksAside s).trans (hcount _)
  rw [hcheck ha]
  exact blockEntry_spec hi haside .queueFull

/-- A row not in service: the entry is RETIRED at once. -/
theorem retireCheck_notInService (ha : (entryRequest s i).1 = .notInService) :
    retireCheck ev i reported s = changedBy ev reported i (faultAt s i).score
      (setFault i { faultAt s i with state := .retired } (count .retireRequests s)) := by
  obtain ⟨-, -, -, hcheck, -⟩ := retireCheck_answered (ev := ev) (reported := reported) hstate hscore hclear h
  obtain ⟨-, -, -, hanswer, -⟩ := retireRequest_state (faultAt s i).rank (faultAt s i).bank (faultAt s i).row
    (count .retireRequests s)
  rw [hcheck ha, hanswer ha]
  refine reportChange_eq reported ?_
  rw [faultAt_setFault_self (s := count .retireRequests s) hi]
  rfl

omit hi

/-- A retirement under way: the check does nothing but count its request. -/
theorem retireCheck_inProgress (ha : (entryRequest s i).1 = .inProgress) :
    retireCheck ev i reported s = count .retireRequests s := by
  obtain ⟨-, -, hcheck, -⟩ := retireCheck_answered (ev := ev) (reported := reported) hstate hscore hclear h
  obtain ⟨-, -, hanswer, -⟩ := retireRequest_state (faultAt s i).rank (faultAt s i).bank (faultAt s i).row
    (count .retireRequests s)
  exact (hcheck ha).trans (hanswer ha)

/-- A job taken: the CORRECTED record follows all that the Repair Engine does. -/
theorem retireCheck_taken (ha : (entryRequest s i).1 = .taken) :
    retireCheck ev i reported s = changedBy ev reported i (faultAt s i).score (entryRequest s i).2 ∧
    ∃ logical k, heldRow s (faultAt s i).rank (faultAt s i).bank (faultAt s i).row = some logical ∧
      (entryRequest s i).2 = takeJob (faultAt s i).rank (faultAt s i).bank logical k .faultTable
        (count .retireRequests s) := by
  obtain ⟨-, -, -, -, hcheck⟩ := retireCheck_answered (ev := ev) (reported := reported) hstate hscore hclear h
  obtain ⟨-, -, -, -, hanswer⟩ := retireRequest_state (faultAt s i).rank (faultAt s i).bank (faultAt s i).row
    (count .retireRequests s)
  obtain ⟨logical, k, hheld, hv⟩ := hanswer ha
  refine ⟨(hcheck ha).trans (reportChange_eq reported ?_), logical, k, hheld, hv⟩
  rw [hv]
  exact takeJob_score _ _ _ _ _ _ i

end

/-- Settles O43: the report of an event and the two checks of its entry, each by its cases. -/
theorem checksFollowTheScore : Obligations.ChecksFollowTheScore := by
  intro s ev i reported hi e suspect t only record rowRec changed becomes
  have honly : only ↔ scoredOnly ev s = true := (scoredOnly_iff ev s).symm
  refine ⟨fun h where_ => if_pos (honly.1 h), fun h => ?_, fun h where_ => ?_, fun h => reportEvent_corrected h s i,
    suspectCheck_below, fun ho hs => ?_, retireCheck_below, fun hstate hscore hclear => ?_⟩
  · have hchecked : scoredOnly ev s = false := by rwa [honly, Bool.not_eq_true] at h
    simp only [checkEntry, hchecked, Bool.false_eq_true, if_false, and_self]
  · have hrecord : (match where_ with
        | .found k => record k (faultAt s k).score
        | .taken k => record k (faultAt s k).score
        | .untracked => record 255 0) = eventRecord ev where_.entry? s := by
      cases where_ with
      | found k => exact (eventRecord_some ev k s).symm
      | taken k => exact (eventRecord_some ev k s).symm
      | untracked => exact (eventRecord_none ev s).symm
    intro u v
    have hv : v = uncorrectableRaised ev where_ s := congrArg (fun r => raise .uncorrectable (handRecord r s)) hrecord
    obtain ⟨hraised, hcritical⟩ := reportEvent_pending h where_ s
    refine ⟨?_, hraised, (reportEvent_noted ev where_ s).fault_eq, hcritical⟩
    rw [hv]
    exact reportEvent_uncorrectable h where_ s
  · obtain ⟨hcheck, hfault, hpatrol⟩ := suspectCheck_reached (ev := ev) (reported := reported) hi ho hs
    have hsuspect := congrArg Prod.snd hcheck
    refine ⟨congrArg Prod.fst hcheck, hsuspect, ?_, fun hnew hroom hclear => ?_⟩
    · rw [show suspect = _ from hsuspect]
      exact hfault
    · rw [show suspect = _ from hsuspect]
      exact (congrArg Patrol.tsq hpatrol).trans (suspected_queued hnew hroom hclear)
  · intro asked answer v blocked
    refine ⟨fun hauto => ?_, fun hauto => ⟨fun ha => ?_, fun ha => ?_, ?_, fun ha => ?_, fun ha => ?_⟩⟩
    · obtain ⟨hblock, hentries, hrepair, -⟩ :=
        retireCheck_blocks_autoOff ev reported hi hstate hscore hclear hauto
      exact ⟨⟨hblock, hentries⟩, hrepair⟩
    · obtain ⟨hblock, ⟨hentries, hrepair, hpending⟩, hraised⟩ :=
        retireCheck_noSpare ev reported hi hstate hscore hclear hauto ha
      exact ⟨⟨hblock, hentries⟩, hrepair, hpending 9 hraised⟩
    · obtain ⟨hblock, hentries, hrepair, -⟩ := retireCheck_queueFull ev reported hi hstate hscore hclear hauto ha
      exact ⟨⟨hblock, hentries⟩, hrepair⟩
    · exact retireCheck_inProgress ev reported hstate hscore hclear hauto
    · have ht : t = _ := retireCheck_notInService ev reported hi hstate hscore hclear hauto ha
      refine ⟨ht, ?_⟩
      rw [ht]
      exact (changedBy_checksAside ev reported i e.score _).repair
    · obtain ⟨hcheck, logical, k, hheld, hjob⟩ := retireCheck_taken ev reported hstate hscore hclear hauto ha
      have ht : t = changedBy ev reported i e.score v := hcheck
      have hv : v = takeJob e.rank e.bank logical k .faultTable asked := hjob
      have haside : ChecksAside v t := ht ▸ changedBy_checksAside ev reported i e.score v
      obtain ⟨-, hlength, hcount⟩ := takeJob_checks e.rank e.bank logical k .faultTable asked
      rw [← hv] at hlength hcount
      refine ⟨ht, haside.repair ▸ hlength, haside.taken.trans hcount, fun hfind hserves => ?_⟩
      rw [haside.fault, hv]
      exact takeJob_serving e.rank e.bank logical k .faultTable asked hheld hserves hfind

end Sys2Proof.Machine
end

section
/-! O59: a FREE slot is spent by REMAP_LOAD, SPARE_KILL, RETIRE_ROW or a retire request, and the two answers of the Remap
Table (R136, R138 to R141, R148, R149). -/

namespace Sys2Proof.Machine

open Sys2Proof

/-! ## Slots of one bank (R134) -/

theorem slotKey_same_bank {rank bank k m : Nat} : slotKey rank bank k = slotKey rank bank m ↔ k = m := by
  unfold slotKey
  omega

/-- The map of slots after a slot has taken a state other than FREE. -/
theorem get_setSlot_listed {v : Slot} (hv : v ≠ .free) (rank bank k : Nat) (s : State) (key : Nat) :
    AMap.get? (setSlot rank bank k v s).repair.slots key =
      if key = slotKey rank bank k then some v else AMap.get? s.repair.slots key := by
  unfold setSlot
  rw [if_neg hv, AMap.get_insert]

theorem slotAt_setSlot_self {v : Slot} (hv : v ≠ .free) (rank bank k : Nat) (s : State) :
    slotAt (setSlot rank bank k v s) rank bank k = v := by
  rw [slotAt_setSlot_listed hv, if_pos rfl]

/-- The lowest FREE slot of a bank (R138). -/
theorem freeSlotOf_eq_some {s : State} {rank bank k : Nat} (hk : k < s.port.geom.spares)
    (hfree : slotAt s rank bank k = .free) (hlower : ∀ m < k, slotAt s rank bank m ≠ .free) :
    freeSlotOf s rank bank = some k := by
  rw [freeSlotOf, slotNumbers, List.find?_range_eq_some]
  simpa [hk, hfree] using hlower

theorem freeSlotOf_eq_none {s : State} {rank bank : Nat}
    (h : ∀ k < s.port.geom.spares, slotAt s rank bank k ≠ .free) : freeSlotOf s rank bank = none := by
  rw [freeSlotOf, slotNumbers, List.find?_range_eq_none]
  simpa using h

/-- The lowest ACTIVE slot that names a logical row (R136). -/
theorem activeSlotOf_eq_some {s : State} {rank bank logical k : Nat} (hk : k < s.port.geom.spares)
    (hactive : slotAt s rank bank k = .active logical) (hlower : ∀ m < k, slotAt s rank bank m ≠ .active logical) :
    activeSlotOf s rank bank logical = some k := by
  rw [activeSlotOf, slotNumbers, List.find?_range_eq_some]
  simpa [hk, hactive] using hlower

theorem activeSlotOf_eq_none {s : State} {rank bank logical : Nat}
    (h : ∀ k < s.port.geom.spares, slotAt s rank bank k ≠ .active logical) : activeSlotOf s rank bank logical = none := by
  rw [activeSlotOf, slotNumbers, List.find?_range_eq_none]
  simpa using h

theorem activeSlotOf_isSome_iff (s : State) (rank bank logical : Nat) :
    (activeSlotOf s rank bank logical).isSome = true ↔
      ∃ k < s.port.geom.spares, slotAt s rank bank k = .active logical := by
  simp [activeSlotOf, slotNumbers]

theorem isNamed_eq_false_iff (s : State) (rank bank logical : Nat) : isNamed s rank bank logical = false ↔
    ∀ k < s.port.geom.spares, slotLogical s rank bank k ≠ some logical := by
  simp [isNamed, slotNumbers]

theorem hasJob_iff (s : State) (rank bank logical : Nat) : hasJob s rank bank logical = true ↔
    ∃ j ∈ s.repair.jobs, j.rank = rank ∧ j.bank = bank ∧ j.logical = logical := by
  simp [hasJob, and_assoc]

theorem isPlace_iff (s : State) (rank bank logical : Nat) : isPlace s rank bank logical = true ↔
    rank < s.port.geom.ranks ∧ bank ≤ 15 ∧ logical < s.port.geom.visible := by
  simp [isPlace, and_assoc]

/-! ## The two answers of the Remap Table (R136) -/

theorem servedRow_of_active {s : State} {rank bank logical k : Nat} (h : activeSlotOf s rank bank logical = some k) :
    servedRow s rank bank logical = s.port.geom.visible + k := by
  simp only [servedRow, h, spareRow]

theorem servedRow_of_unmapped {s : State} {rank bank logical : Nat} (h : activeSlotOf s rank bank logical = none) :
    servedRow s rank bank logical = logical := by
  simp only [servedRow, h]

theorem heldRow_visible {s : State} {row : Nat} (h : row < s.port.geom.visible) (rank bank : Nat) :
    heldRow s rank bank row = some row := if_pos h

theorem heldRow_beyond {s : State} {row : Nat} (h : s.port.geom.visible + s.port.geom.spares ≤ row) (rank bank : Nat) :
    heldRow s rank bank row = none := by
  rw [heldRow, if_neg (by omega), if_neg (by omega)]

theorem heldRow_spare {s : State} {k : Nat} (h : k < s.port.geom.spares) (rank bank : Nat) :
    heldRow s rank bank (s.port.geom.visible + k) = slotLogical s rank bank k := by
  rw [heldRow, if_neg (by omega), Nat.add_sub_cancel_left, if_pos h]

/-- A slot made ACTIVE for a row that no slot of its bank names serves that row (R136, R148). -/
theorem servedRow_setSlot_active {s : State} {rank bank logical k : Nat} (hk : k < s.port.geom.spares)
    (hunnamed : ∀ m < s.port.geom.spares, slotLogical s rank bank m ≠ some logical) :
    servedRow (setSlot rank bank k (.active logical) s) rank bank logical = s.port.geom.visible + k := by
  refine servedRow_of_active (activeSlotOf_eq_some hk ?_ fun m hm => ?_)
  · exact slotAt_setSlot_self (by simp) rank bank k s
  · rw [slotAt_setSlot_listed (by simp), if_neg (by rw [slotKey_same_bank]; omega)]
    intro hactive
    exact hunnamed m (by omega) (by rw [slotLogical, hactive])

/-! ## REMAP_LOAD and SPARE_KILL (R148, R149) -/

/-- An accepted REMAP_LOAD. -/
theorem execRemapLoad_accepted {s : State} {q : MaintRequest} (h : AtHead s q 24) {rank bank logical slot : Word32}
    {more : List Word32} (hargs : q.args = rank :: bank :: logical :: slot :: more) (hgeom : s.port.geomSet = true)
    (hconfig : s.link.channel = .config) (hplace : isPlace s rank.toNat bank.toNat logical.toNat = true)
    (hslot : slot.toNat < s.port.geom.spares) (hfree : slotAt s rank.toNat bank.toNat slot.toNat = .free)
    (hunnamed : isNamed s rank.toNat bank.toNat logical.toNat = false) :
    exec .remapLoad s = .next (answered q .ok [word (s.port.geom.visible + slot.toNat)]
      (setSlot rank.toNat bank.toNat slot.toNat (.active logical.toNat) (dispatched s))) := by
  have hplace' : isPlace (dispatched s) rank.toNat bank.toNat logical.toNat = true := hplace
  have hunnamed' : isNamed (dispatched s) rank.toNat bank.toNat logical.toNat = false := hunnamed
  refine serve_next h (by simp [hargs]) ?_
  simp only [hargs, doRemapLoad, argOf_zero, argOf_succ, dispatched_port, dispatched_link, dispatched_slotAt, hgeom,
    hconfig, hplace', hunnamed', hfree, Nat.not_le.2 hslot]
  rfl

/-- SPARE_KILL in CONFIG: a FREE slot of the geometry becomes DEAD, and any other is refused. -/
theorem execSpareKill_config {s : State} {q : MaintRequest} (h : AtHead s q 25) {rank bank slot : Word32}
    {more : List Word32} (hargs : q.args = rank :: bank :: slot :: more) (hgeom : s.port.geomSet = true)
    (hconfig : s.link.channel = .config) :
    exec .spareKill s = .next (if rank.toNat < s.port.geom.ranks ∧ bank.toNat ≤ 15 ∧ slot.toNat < s.port.geom.spares ∧
        slotAt s rank.toNat bank.toNat slot.toNat = .free
      then answered q .ok [] (setSlot rank.toNat bank.toNat slot.toNat .dead (dispatched s))
      else answered q .badArgument [] (dispatched s)) := by
  have hn : 3 ≤ q.args.length := by simp [hargs]
  have howner : doSpareKill q.args (dispatched s) =
      if s.port.geom.ranks ≤ rank.toNat ∨ 15 < bank.toNat ∨ s.port.geom.spares ≤ slot.toNat ∨
          slotAt s rank.toNat bank.toNat slot.toNat ≠ .free then refuse .badArgument (dispatched s)
      else accept [] (setSlot rank.toNat bank.toNat slot.toNat .dead (dispatched s)) := by
    simp only [hargs, doSpareKill, argOf_zero, argOf_succ, dispatched_port, dispatched_link, dispatched_slotAt, hgeom,
      hconfig]
    rfl
  split
  next hgood =>
    obtain ⟨hrank, hbank, hslot, hfree⟩ := hgood
    exact serve_next h hn (howner.trans (if_neg (by simp [hfree]; omega)))
  next hbad =>
    refine serve_next h hn (howner.trans (if_pos ?_))
    by_contra hgood
    simp only [not_or, not_not, Nat.not_le, Nat.not_lt] at hgood
    exact hbad hgood

/-! ## A retirement taken (R139 to R141) -/

/-- What a job is taken for: all of it but its counts. -/
def Job.order (j : Job) : Nat × Nat × Nat × Nat × Nat × Origin :=
  (j.rank, j.bank, j.logical, j.target, j.sourceRow, j.origin)

/-- The next pair changes no job but for its count of pairs. -/
theorem takePair_orders {s : State} {j : Job} {rest : List Job} {target : SlotTarget} {cursor : Nat}
    (hj : s.repair.jobs = j :: rest) (ht : slotAt s j.rank j.bank j.target = .copying target cursor) :
    (takePair s).repair.jobs.map Job.order = s.repair.jobs.map Job.order := by
  obtain ⟨hread, hforwarded⟩ := takePair_copying hj ht
  cases hf : forwardEntry s (s.port.geom.lineOf j.rank j.bank j.logical cursor) with
  | none => rw [hread hf]
  | some e =>
    rw [hforwarded e hf, hj]
    rfl

theorem resumeCopy_orders {s : State} {j : Job} {rest : List Job} {target : SlotTarget} {cursor : Nat}
    (hj : s.repair.jobs = j :: rest) (ht : slotAt s j.rank j.bank j.target = .copying target cursor) :
    (resumeCopy s).repair.jobs.map Job.order = s.repair.jobs.map Job.order := by
  unfold resumeCopy
  split
  · rfl
  · exact takePair_orders hj ht

/-- What the reserved slot of a row is to be filled from: the row, or the ACTIVE slot that serves it (R134, R138). -/
def targetFor (s : State) (rank bank logical : Nat) : SlotTarget :=
  match activeSlotOf s rank bank logical with
  | some source => .move source
  | none => .row logical

/-- The job of a retirement, as it enters the repair queue (R137). -/
def newJob (rank bank logical k : Nat) (origin : Origin) (s : State) : Job :=
  { rank := rank, bank := bank, logical := logical, target := k, sourceRow := servedRow s rank bank logical
    origin := origin }

section

variable (rank bank logical k : Nat) (origin : Origin) (s : State)

theorem jobTaken_eq : jobTaken rank bank logical k origin s =
    let u := setSlot rank bank k (.reserved (targetFor s rank bank logical)) s
    { u with
      repair := { u.repair with jobs := s.repair.jobs ++ [newJob rank bank logical k origin s] }
      fault := toldTaken (faultFind s rank bank (servedRow s rank bank logical)) s
      counters := { s.counters with repairJobsTaken := satAdd s.counters.repairJobsTaken 1 } } := by
  rw [← jobTaken_fault rank bank logical k origin s]
  unfold jobTaken faultJobTaken faultModify
  dsimp only
  split <;> rfl

theorem jobTaken_slot : slotAt (jobTaken rank bank logical k origin s) rank bank k =
    .reserved (targetFor s rank bank logical) := by
  have hslots : (jobTaken rank bank logical k origin s).repair.slots =
      (setSlot rank bank k (.reserved (targetFor s rank bank logical)) s).repair.slots := by rw [jobTaken_eq]
  rw [slotAt_of_slots hslots, slotAt_setSlot_self (by simp)]

/-- The state of a job taken into an empty queue, its target slot COPYING from column 0 and no pair taken yet (R140). -/
def firstCopying : State :=
  setSlot rank bank k (.copying (targetFor s rank bank logical) 0) (jobTaken rank bank logical k origin s)

theorem firstCopying_slot : slotAt (firstCopying rank bank logical k origin s) rank bank k =
    .copying (targetFor s rank bank logical) 0 := slotAt_setSlot_self (by simp) rank bank k _

theorem firstCopying_jobs : (firstCopying rank bank logical k origin s).repair.jobs =
    s.repair.jobs ++ [newJob rank bank logical k origin s] := by
  rw [firstCopying, jobTaken_eq]
  rfl

theorem takeJob_first (h : s.repair.jobs = []) :
    takeJob rank bank logical k origin s = resumeCopy (firstCopying rank bank logical k origin s) := by
  have hjobs : (jobTaken rank bank logical k origin s).repair.jobs = newJob rank bank logical k origin s :: [] := by
    rw [jobTaken_eq, h]
    rfl
  have hstart := startJob_reserved hjobs (jobTaken_slot rank bank logical k origin s)
  rw [takeJob_eq, if_pos (by simp [h])]
  exact hstart

theorem takeJob_later (h : s.repair.jobs ≠ []) :
    takeJob rank bank logical k origin s = jobTaken rank bank logical k origin s := by
  rw [takeJob_eq, if_neg (by simpa using h)]

/-- The whole effect of a job taken, but for the counts and the accesses. -/
theorem takeJob_frame : let t := takeJob rank bank logical k origin s
    t = { s with
      port := { s.port with accesses := t.port.accesses }
      repair := { s.repair with slots := t.repair.slots, jobs := t.repair.jobs }
      fault := { s.fault with entries := t.fault.entries }, counters := t.counters } := by
  have htold : toldTaken (faultFind s rank bank (servedRow s rank bank logical)) s =
      { s.fault with entries := (toldTaken (faultFind s rank bank (servedRow s rank bank logical)) s).entries } := by
    cases faultFind s rank bank (servedRow s rank bank logical) <;> rfl
  by_cases h : s.repair.jobs = []
  · obtain ⟨hpair, -⟩ := resumeCopy_pair (firstCopying rank bank logical k origin s)
    rw [takeJob_first _ _ _ _ _ _ h, hpair, firstCopying, jobTaken_eq, htold]
    rfl
  · rw [takeJob_later _ _ _ _ _ _ h, jobTaken_eq, htold]
    rfl

theorem takeJob_orders : (takeJob rank bank logical k origin s).repair.jobs.map Job.order =
    s.repair.jobs.map Job.order ++ [(newJob rank bank logical k origin s).order] := by
  have htaken : (jobTaken rank bank logical k origin s).repair.jobs.map Job.order =
      s.repair.jobs.map Job.order ++ [(newJob rank bank logical k origin s).order] := by
    rw [jobTaken_eq]
    exact List.map_append
  by_cases h : s.repair.jobs = []
  · have hqueue := firstCopying_jobs rank bank logical k origin s
    rw [h] at hqueue
    rw [takeJob_first _ _ _ _ _ _ h, resumeCopy_orders hqueue (firstCopying_slot rank bank logical k origin s),
      hqueue, h]
    rfl
  · rw [takeJob_later _ _ _ _ _ _ h, htaken]

theorem takeJob_slot : slotAt (takeJob rank bank logical k origin s) rank bank k =
    if s.repair.jobs = [] then .copying (targetFor s rank bank logical) 0
    else .reserved (targetFor s rank bank logical) := by
  split
  next h =>
    obtain ⟨hpair, -⟩ := resumeCopy_pair (firstCopying rank bank logical k origin s)
    have hslots : (resumeCopy (firstCopying rank bank logical k origin s)).repair.slots =
        (firstCopying rank bank logical k origin s).repair.slots := by rw [hpair]
    rw [takeJob_first _ _ _ _ _ _ h, slotAt_of_slots hslots, firstCopying_slot]
  next h => rw [takeJob_later _ _ _ _ _ _ h, jobTaken_slot]

theorem jobTaken_port : (jobTaken rank bank logical k origin s).port = s.port := by rw [jobTaken_eq]; rfl

/-- A job that waits, or that starts during a window, takes no pair (R140, R144). -/
theorem takeJob_port_quiet (h : s.repair.jobs ≠ [] ∨ s.window.isSome = true) :
    (takeJob rank bank logical k origin s).port = s.port := by
  by_cases hjobs : s.repair.jobs = []
  · have hwindow : (firstCopying rank bank logical k origin s).window = s.window := by
      rw [firstCopying, jobTaken_eq]
      rfl
    rw [takeJob_first _ _ _ _ _ _ hjobs, resumeCopy_quiet (.inl (by rw [hwindow]; exact h.neg_resolve_left hjobs))]
    exact jobTaken_port rank bank logical k origin s
  · rw [takeJob_later _ _ _ _ _ _ hjobs, jobTaken_port]

/-- The first job takes the pair of column 0 when no window is open, no pair is left over and no write-back of the line
waits (R140, R141). -/
theorem takeJob_accesses (hjobs : s.repair.jobs = []) (hwindow : s.window = none) (hpairs : pairOutstanding s = false)
    (hwb : wbFind s (s.port.geom.lineOf rank bank logical 0) = none) :
    (takeJob rank bank logical k origin s).port.accesses = s.port.accesses ++
      [{ line := s.port.geom.lineOf rank bank logical 0, kind := .copyRead, phase := .waiting },
       { line := s.port.geom.lineOf rank bank logical 0, kind := .copyWrite (s.port.geom.visible + k) none false
         phase := .waiting }] := by
  generalize hu : firstCopying rank bank logical k origin s = u
  have hport : u.port = s.port := by
    rw [← hu]
    exact jobTaken_port rank bank logical k origin s
  have hqueue : u.repair.jobs = newJob rank bank logical k origin s :: [] := by
    rw [← hu, firstCopying_jobs, hjobs]
    rfl
  have hslot : slotAt u rank bank k = .copying (targetFor s rank bank logical) 0 := by
    rw [← hu, firstCopying_slot]
  have hidle : resumeCopy u = takePair u := by
    refine resumeCopy_idle ?_ ?_
    · rw [← hu, firstCopying, jobTaken_eq]
      exact hwindow
    · rw [hport]
      simpa [pairOutstanding] using hpairs
  have hforward : forwardEntry u (u.port.geom.lineOf rank bank logical 0) = none := by
    have hwbq : u.wbq = s.wbq := by
      rw [← hu, firstCopying, jobTaken_eq]
      rfl
    rw [forwardEntry, hport, wbFind, hwbq]
    exact ite_eq_left_iff.2 fun _ => hwb
  obtain ⟨hpair, -⟩ := takePair_copying hqueue hslot
  rw [takeJob_first _ _ _ _ _ _ hjobs, hu, hidle, hpair hforward, hport]
  rfl

end

/-- An accepted RETIRE_ROW (R139). -/
theorem execRetireRow_accepted {s : State} {q : MaintRequest} (h : AtHead s q 23) {rank bank logical : Word32}
    {more : List Word32} (hargs : q.args = rank :: bank :: logical :: more) (hgeom : s.port.geomSet = true)
    (hplace : isPlace s rank.toNat bank.toNat logical.toNat = true)
    (hjob : hasJob s rank.toNat bank.toNat logical.toNat = false) {k : Nat}
    (hfree : freeSlotOf s rank.toNat bank.toNat = some k) (hroom : s.repair.jobs.length < 4) :
    exec .retireRow s = .next (answered q .ok
      [word k, word (s.port.geom.visible + k), word (servedRow s rank.toNat bank.toNat logical.toNat)]
      (takeJob rank.toNat bank.toNat logical.toNat k .requested (dispatched s))) := by
  have hplace' : isPlace (dispatched s) rank.toNat bank.toNat logical.toNat = true := hplace
  have hjob' : hasJob (dispatched s) rank.toNat bank.toNat logical.toNat = false := hjob
  have hfree' : freeSlotOf (dispatched s) rank.toNat bank.toNat = some k := hfree
  have hroom' : ¬ Config.repairCapacity ≤ (dispatched s).repair.jobs.length := Nat.not_le.2 hroom
  refine serve_next h (by simp [hargs]) ?_
  simp only [hargs, doRetireRow, argOf_zero, argOf_succ, dispatched_port, hgeom, hplace', hjob', hfree', hroom',
    not_true_eq_false, Bool.false_eq_true, if_false]
  rfl

/-! ## A retire request of the Fault Table (R138) -/

/-- A physical row whose slot is being filled (case 2 of R138). -/
theorem isCopyTarget_iff (s : State) (rank bank row : Nat) : isCopyTarget s rank bank row = true ↔
    s.port.geom.visible ≤ row ∧
      ((∃ g, slotAt s rank bank (row - s.port.geom.visible) = .reserved g) ∨
        ∃ g c, slotAt s rank bank (row - s.port.geom.visible) = .copying g c) := by
  unfold isCopyTarget
  cases slotAt s rank bank (row - s.port.geom.visible) <;> simp

section

variable {s : State} {rank bank row : Nat}

theorem retireRequest_holdsNone (h : heldRow s rank bank row = none) :
    retireRequest rank bank row s = (.notInService, s) := by
  simp only [retireRequest, h]

variable {logical : Nat} (hheld : heldRow s rank bank row = some logical)

include hheld

theorem retireRequest_moved (hv : row < s.port.geom.visible)
    (hm : (activeSlotOf s rank bank logical).isSome = true) :
    retireRequest rank bank row s = (.notInService, s) := by
  simp only [retireRequest, hheld, hv, hm, decide_true, Bool.and_self, if_true]

variable (hserved : (decide (row < s.port.geom.visible) && (activeSlotOf s rank bank logical).isSome) = false)

include hserved

theorem retireRequest_inProgress (h : (isCopyTarget s rank bank row || hasJob s rank bank logical) = true) :
    retireRequest rank bank row s = (.inProgress, s) := by
  simp only [retireRequest, hheld, hserved, h, Bool.false_eq_true, if_true, if_false]

variable (hidle : (isCopyTarget s rank bank row || hasJob s rank bank logical) = false)

include hidle

theorem retireRequest_noSpare (h : freeSlotOf s rank bank = none) :
    let u := raise .sparesExhausted s
    retireRequest rank bank row s = (.noSpare,
      { u with counters := { u.counters with retireNoSpare := satAdd s.counters.retireNoSpare 1 } }) := by
  intro u
  have hcount : u.counters.retireNoSpare = s.counters.retireNoSpare := by
    unfold u
    rw [raise_eq]
  simp only [retireRequest, hheld, hserved, hidle, h, Bool.false_eq_true, if_false]
  rw [← hcount]
  rfl

variable {k : Nat} (hfree : freeSlotOf s rank bank = some k)

include hfree

theorem retireRequest_queueFull (h : 4 ≤ s.repair.jobs.length) :
    retireRequest rank bank row s = (.queueFull,
      { s with counters := { s.counters with retireQueueFull := satAdd s.counters.retireQueueFull 1 } }) := by
  have hfull : Config.repairCapacity ≤ s.repair.jobs.length := h
  simp only [retireRequest, hheld, hserved, hidle, hfree, hfull, Bool.false_eq_true, if_true, if_false]
  rfl

theorem retireRequest_taken (h : s.repair.jobs.length < 4) :
    retireRequest rank bank row s = (.taken, takeJob rank bank logical k .faultTable s) := by
  have hroom : ¬ Config.repairCapacity ≤ s.repair.jobs.length := Nat.not_le.2 h
  simp only [retireRequest, hheld, hserved, hidle, hfree, hroom, Bool.false_eq_true, if_false]

end

/-! ## The obligation -/

/-- Settles O59: the two loads of CONFIG, a retirement by RETIRE_ROW, the answers of R138, what a job taken is, and the two
answers of the Remap Table. -/
theorem sparesAreSpentOnRows : Obligations.SparesAreSpentOnRows := by
  refine ⟨fun s q hgeom hconfig => ⟨?_, ?_⟩, ?_, ?_, ?_, ?_⟩
  · intro h rank bank logical slot more hargs hrank hbank hlogical hslot hfree hunnamed
    have hplace := (isPlace_iff s rank.toNat bank.toNat logical.toNat).2 ⟨hrank, hbank, hlogical⟩
    have hnamed := (isNamed_eq_false_iff s rank.toNat bank.toNat logical.toNat).2 hunnamed
    exact ⟨_, execRemapLoad_accepted h hargs hgeom hconfig hplace hslot hfree hnamed, rfl,
      get_setSlot_listed (by simp) _ _ _ _, servedRow_setSlot_active (s := dispatched s) hslot hunnamed⟩
  · intro h rank bank slot more hargs
    exact ⟨_, execSpareKill_config h hargs hgeom hconfig, rfl, get_setSlot_listed (by simp) _ _ _ _⟩
  · intro s q rank bank logical more k h hargs hgeom hrank hbank hlogical hjob hk hfree hlower hroom source target line
    have hplace := (isPlace_iff s rank.toNat bank.toNat logical.toNat).2 ⟨hrank, hbank, hlogical⟩
    have hexec := execRetireRow_accepted h hargs hgeom hplace hjob (freeSlotOf_eq_some hk hfree hlower) hroom
    obtain ⟨hfault, -, hcount⟩ :=
      takeJob_checks rank.toNat bank.toNat logical.toNat k .requested (dispatched s)
    rw [jobTaken_fault] at hfault
    have horders := takeJob_orders rank.toNat bank.toNat logical.toNat k .requested (dispatched s)
    have hslot := takeJob_slot rank.toNat bank.toNat logical.toNat k .requested (dispatched s)
    have hquiet := takeJob_port_quiet rank.toNat bank.toNat logical.toNat k .requested (dispatched s)
    have hpair := takeJob_accesses rank.toNat bank.toNat logical.toNat k .requested (dispatched s)
    have hframe := takeJob_frame rank.toNat bank.toNat logical.toNat k .requested (dispatched s)
    generalize takeJob rank.toNat bank.toNat logical.toNat k .requested (dispatched s) = t at *
    refine ⟨t, hexec, hcount, horders, hslot, fun i hi => ?_, fun hnone => ?_, hquiet, hpair, hframe⟩
    · exact congrArg FaultTable.entries (hfault.trans (congrArg (fun found => toldTaken found s) hi))
    · exact hfault.trans (congrArg (fun found => toldTaken found s) hnone)
  · intro s rank bank row answer
    refine ⟨retireRequest_holdsNone, ?_⟩
    intro l hheld moved filling queued
    refine ⟨fun ⟨hv, hm⟩ => ?_, fun hserved => ?_⟩
    · exact retireRequest_moved hheld hv ((activeSlotOf_isSome_iff s rank bank l).2 hm)
    · have hhere : (decide (row < s.port.geom.visible) && (activeSlotOf s rank bank l).isSome) = false := by
        rw [Bool.and_eq_false_iff, decide_eq_false_iff_not, Nat.not_lt, ← Bool.not_eq_true, activeSlotOf_isSome_iff]
        exact hserved
      have hbusy : (isCopyTarget s rank bank row || hasJob s rank bank l) = true ↔ filling ∨ queued := by
        rw [Bool.or_eq_true, isCopyTarget_iff, hasJob_iff]
      refine ⟨fun h => retireRequest_inProgress hheld hhere (hbusy.2 h), fun hfilling hqueued => ?_⟩
      have hidle : (isCopyTarget s rank bank row || hasJob s rank bank l) = false := by
        rw [← Bool.not_eq_true, hbusy, not_or]
        exact ⟨hfilling, hqueued⟩
      refine ⟨fun hnone => retireRequest_noSpare hheld hhere hidle (freeSlotOf_eq_none hnone), fun k hk hfree hlower => ?_⟩
      have hslot := freeSlotOf_eq_some hk hfree hlower
      exact ⟨retireRequest_queueFull hheld hhere hidle hslot, retireRequest_taken hheld hhere hidle hslot⟩
  · intro s rank bank logical k origin source target u v
    have hv : v = jobTaken rank bank logical k origin s := (jobTaken_eq rank bank logical k origin s).symm
    rw [hv, takeJob_eq]
    simp only [List.isEmpty_iff]
  · intro s rank bank logical row
    refine ⟨fun k hk ha hlower => servedRow_of_active (activeSlotOf_eq_some hk ha hlower),
      fun h => servedRow_of_unmapped (activeSlotOf_eq_none h), fun h => heldRow_visible h rank bank,
      fun h => heldRow_beyond h rank bank, ?_⟩
    rintro k hk rfl sourceOf
    have hsource : targetRow s rank bank = sourceOf := by
      funext t
      cases t <;> rfl
    rw [heldRow_spare hk, slotLogical, hsource]
    cases slotAt s rank bank k <;> rfl

end Sys2Proof.Machine
end

section
/-! O60: ERASE and UNERASE, and the erase decision of one device (R125 to R127, R152 to R154). -/

namespace Sys2Proof.Machine

open Sys2Proof

/-! ## What records and causes leave alone -/

/-- The Fault Table, the Repair Engine and the counts of erasures stand. -/
structure ErasuresAside (s t : State) : Prop where
  fault : t.fault = s.fault
  repair : t.repair = s.repair
  decisions : t.counters.eraseDecisions = s.counters.eraseDecisions
  erased : t.counters.devicesErased = s.counters.devicesErased
  limits : t.counters.erasureLimits = s.counters.erasureLimits

theorem ErasuresAside.refl (s : State) : ErasuresAside s s := ⟨rfl, rfl, rfl, rfl, rfl⟩

theorem ErasuresAside.trans {a b c : State} (h : ErasuresAside a b) (k : ErasuresAside b c) : ErasuresAside a c :=
  ⟨k.fault.trans h.fault, k.repair.trans h.repair, k.decisions.trans h.decisions, k.erased.trans h.erased,
    k.limits.trans h.limits⟩

theorem raise_erasuresAside (c : Cause) (s : State) : ErasuresAside s (raise c s) := by
  rw [raise_eq]
  exact ⟨rfl, rfl, rfl, rfl, rfl⟩

theorem handRecord_erasuresAside (r : Record) (s : State) : ErasuresAside s (handRecord r s) := by
  by_cases h : RingOpen s
  · rw [handRecord_open r h]
    exact ⟨rfl, rfl, rfl, rfl, rfl⟩
  · rw [handRecord_closed r h]
    exact ⟨rfl, rfl, rfl, rfl, rfl⟩

theorem deviceAt_of_fault {s t : State} (h : t.fault = s.fault) (rank device : Nat) :
    deviceAt t rank device = deviceAt s rank device := by
  unfold deviceAt
  rw [h]

/-! ## The cleanup of the Fault Table (R127) -/

/-- What the cleanup touches (R127). -/
theorem erasureCleanup_eq (rank device : Nat) (s : State) : erasureCleanup rank device s =
  { s with
    fault := { s.fault with
      entries := s.fault.entries.map (cleanedEntry rank device)
      devices := s.fault.devices.set (rank * 20 + device) { deviceAt s rank device with limitReported := false } }
    counters := { s.counters with
      entriesFreedByErasure :=
        satAdd s.counters.entriesFreedByErasure (s.fault.entries.countP (freedByErasure rank device)) } } := rfl

/-- An entry that describes the erased device alone is freed, and the others of its rank lose the device (R127). -/
theorem cleanedEntry_eq (rank device : Nat) (e : FaultEntry) : cleanedEntry rank device e =
    if (e.state = .observed ∨ e.state = .suspect) ∧ e.rank = rank ∧ e.devices = BitVec.ofNat 20 (2 ^ device) then {}
    else if e.state ≠ .free ∧ e.rank = rank then
      { e with devices := e.devices &&& ~~~BitVec.ofNat 20 (2 ^ device) }
    else e := by
  simp [cleanedEntry, freedByErasure, deviceBit, and_assoc]

/-- No entry in use of the rank holds the erased device after the cleanup. -/
theorem cleanedEntry_clear {rank device : Nat} {e : FaultEntry} (hd : device < 20)
    (hrank : (cleanedEntry rank device e).rank = rank) (hstate : (cleanedEntry rank device e).state ≠ .free) :
    (cleanedEntry rank device e).devices.getLsbD device = false := by
  rw [cleanedEntry_eq] at hrank hstate ⊢
  split
  next => simp
  next hkept =>
    rw [if_neg hkept] at hrank hstate
    split
    next => simp only [BitVec.getLsbD_and, BitVec.getLsbD_not, BitVec.getLsbD_ofNat, Nat.testBit_two_pow_self, hd,
      decide_true, Bool.and_self, Bool.not_true, Bool.and_false]
    next hother =>
      rw [if_neg hother] at hrank hstate
      exact absurd ⟨hstate, hrank⟩ hother

/-! ## A device erased (R127, R152, R153) -/

/-- The state with the device at the end of its rank's erasure set (R151). -/
def setGrown (rank device : Nat) (s : State) : State :=
  { s with repair := { s.repair with erasures := s.repair.erasures.set rank (erasureSet s rank ++ [device]) } }

/-- The state once the DEVICE_ERASED record has been handed on and an automatic erasure has raised its cause. -/
def erasureTold (rank device origin : Nat) (s : State) : State :=
  let t := handRecord (deviceErasedRecord rank device (spreadOf s rank device) origin (setGrown rank device s))
    (setGrown rank device s)
  if origin = 0 then raise .deviceErased t else t

/-- What an erasure leaves, whoever asked for it. -/
structure Erased (rank device : Nat) (s t : State) : Prop where
  repair : t.repair = { s.repair with
    erasures := s.repair.erasures.set rank (erasureSet s rank ++ [device]) }
  entries : t.fault.entries = s.fault.entries.map (cleanedEntry rank device)
  devices : t.fault.devices = s.fault.devices.set (rank * 20 + device)
    { deviceAt s rank device with limitReported := false }
  erased : t.counters.devicesErased = satAdd s.counters.devicesErased 1
  decisions : t.counters.eraseDecisions = s.counters.eraseDecisions
  frame : t = { s with
    link := { s.link with returns := t.link.returns }, port := { s.port with accesses := t.port.accesses }
    wbq := t.wbq, fault := { s.fault with entries := t.fault.entries, devices := t.fault.devices }
    repair := t.repair, report := t.report, counters := t.counters }

section

variable (rank device origin : Nat) (s : State)

theorem addErasure_eq : addErasure rank device origin s =
    erasureCleanup rank device (count .devicesErased (erasureTold rank device origin s)) := rfl

theorem erasureTold_noted : Noted (setGrown rank device s) (erasureTold rank device origin s) := by
  unfold erasureTold
  dsimp only
  split
  · exact (handRecord_noted _ _).trans (raise_alerted _ _).noted
  · exact handRecord_noted _ _

theorem erasureTold_aside : ErasuresAside (setGrown rank device s) (erasureTold rank device origin s) := by
  unfold erasureTold
  dsimp only
  split
  · exact (handRecord_erasuresAside _ _).trans (raise_erasuresAside _ _)
  · exact handRecord_erasuresAside _ _

theorem addErasure_erased : Erased rank device s (addErasure rank device origin s) := by
  obtain ⟨-, -, -, hframe⟩ := erasureTold_noted rank device origin s
  have haside := erasureTold_aside rank device origin s
  rw [addErasure_eq]
  generalize erasureTold rank device origin s = u at hframe haside
  rw [erasureCleanup_eq, count_fault, deviceAt_of_fault (show (count .devicesErased u).fault = s.fault from haside.fault),
    haside.fault]
  refine ⟨haside.repair, rfl, rfl, congrArg (satAdd · 1) haside.erased, haside.decisions, ?_⟩
  rw [hframe]
  rfl

/-- The report, the accesses and the write-backs of an erasure are those of its record and its cause. -/
theorem addErasure_told : let u := erasureTold rank device origin s
    let t := addErasure rank device origin s
    t.report = u.report ∧ t.port = u.port ∧ t.wbq = u.wbq := by
  intro u t
  have ht : t = erasureCleanup rank device (count .devicesErased u) := addErasure_eq rank device origin s
  rw [ht, erasureCleanup_eq]
  exact ⟨rfl, rfl, rfl⟩

/-- An automatic erasure raises its cause (R153). -/
theorem addErasure_pending : (addErasure rank device 0 s).report.pending.getLsbD 10 = true := by
  obtain ⟨hreport, -⟩ := addErasure_told rank device 0 s
  rw [hreport, erasureTold, if_pos rfl]
  exact raise_pending_bit .deviceErased _ (by decide)

theorem erasureTold_requested : erasureTold rank device 1 s = handRecord
    (deviceErasedRecord rank device (spreadOf s rank device) 1 (setGrown rank device s)) (setGrown rank device s) := rfl

/-- The record of a requested erasure joins line order behind every other access (R152, R170). -/
theorem addErasure_recorded (h : RingOpen s) : let t := addErasure rank device 1 s
    t.report.pending = s.report.pending ∧
      t.port.accesses.getLast? = some (recordWriteOf
        { kind := 7, rank := rank, device := device, score := (deviceAt s rank device).score
          slotOrCount := spreadOf s rank device
          detail := [(38, 1, (erasureSet t rank).getD 0 255), (39, 1, (erasureSet t rank).getD 1 255), (40, 1, 1)] } s) := by
  intro t
  obtain ⟨hreport, hport, -⟩ := addErasure_told rank device 1 s
  have hset : erasureSet t rank = erasureSet (setGrown rank device s) rank :=
    congrArg (fun r : Repair => r.erasures.getD rank []) (addErasure_erased rank device 1 s).repair
  have hopen : RingOpen (setGrown rank device s) := h
  rw [show t.report = _ from hreport, show t.port = _ from hport, hset, erasureTold_requested, handRecord_open _ hopen]
  exact ⟨rfl, List.getLast?_concat⟩

/-- Before any setup the record of a requested erasure is discarded (R169). -/
theorem addErasure_unrecorded (h : s.report.setUp = false) : let t := addErasure rank device 1 s
    t.report = s.report ∧ t.port = s.port ∧ t.wbq = s.wbq := by
  intro t
  have hdiscarded : ∀ r, handRecord r (setGrown rank device s) = setGrown rank device s := fun r =>
    if_neg (by simp [setGrown, h])
  obtain ⟨hreport, hport, hwbq⟩ := addErasure_told rank device 1 s
  rw [show t.report = _ from hreport, show t.port = _ from hport, show t.wbq = _ from hwbq, erasureTold_requested,
    hdiscarded]
  exact ⟨rfl, rfl, rfl⟩

end

/-! ## The erase decision (R125, R126) -/

theorem isErased_iff (s : State) (rank device : Nat) : isErased s rank device = true ↔ device ∈ erasureSet s rank := by
  simp [isErased]

/-- The conditions of R125 other than the last. -/
theorem pastErase_iff (s : State) (rank device : Nat) : pastErase s rank device = true ↔
    s.params.autoErase = 1 ∧ device ∉ erasureSet s rank ∧ s.params.deviceErase ≤ (deviceAt s rank device).score ∧
      s.params.deviceSpread ≤ spreadOf s rank device := by
  simp [pastErase, isErased, and_assoc]

section

variable {s : State} {rank device : Nat}

theorem eraseDecision_below (h : ¬ pastErase s rank device = true) : eraseDecision rank device s = s := if_neg h

variable (hpast : pastErase s rank device = true)

include hpast

theorem eraseDecision_erases (h : (erasureSet s rank).length < 2) :
    eraseDecision rank device s = addErasure rank device 0 (count .eraseDecisions s) := by
  rw [eraseDecision, if_pos hpast, if_pos h]

variable (hfull : 2 ≤ (erasureSet s rank).length)

include hfull

theorem eraseDecision_reported (h : (deviceAt s rank device).limitReported = true) : eraseDecision rank device s = s := by
  rw [eraseDecision, if_pos hpast, if_neg (Nat.not_lt.2 hfull), if_pos h]

/-- The limit is reported by a record, a cause, the device's flag and one count (R126). -/
theorem eraseDecision_limit (h : (deviceAt s rank device).limitReported = false) :
    let t := eraseDecision rank device s
    t.repair = s.repair ∧ t.fault.entries = s.fault.entries ∧
      t.fault.devices = s.fault.devices.set (rank * 20 + device) { deviceAt s rank device with limitReported := true } ∧
      t.counters.erasureLimits = satAdd s.counters.erasureLimits 1 ∧ t.report.pending.getLsbD 11 = true := by
  intro t
  generalize hu : raise .erasureLimit (handRecord (erasureLimitRecord rank device s) s) = u
  have ht : t = count .erasureLimits
      (setDevice rank device { deviceAt u rank device with limitReported := true } u) := by
    rw [← hu]
    simp only [t, eraseDecision, hpast, Nat.not_lt.2 hfull, h, Bool.false_eq_true, if_true, if_false]
  have haside : ErasuresAside s u := hu ▸ (handRecord_erasuresAside _ s).trans (raise_erasuresAside _ _)
  have hpending : u.report.pending.getLsbD 11 = true := hu ▸ raise_pending_bit .erasureLimit _ (by decide)
  have hentries : u.fault.entries = s.fault.entries := by rw [haside.fault]
  rw [ht, deviceAt_of_fault haside.fault]
  refine ⟨haside.repair, hentries, ?_, congrArg (satAdd · 1) haside.limits, hpending⟩
  rw [← haside.fault]
  rfl

end

/-- With `auto_erase` off no device of a rank is erased or reported. -/
theorem eraseRank_autoOff {s : State} (h : s.params.autoErase = 0) (rank : Nat) : eraseRank rank s = s :=
  List.foldl_fixed' (fun device => eraseDecision_below (by simp [pastErase_iff, h])) _

/-! ## ERASE and UNERASE (R152, R154) -/

/-- The state with a device out of its rank's erasure set and its score 0, before the rank's decisions (R127, R154). -/
def unerased (rank device : Nat) (s : State) : State :=
  { s with
    repair := { s.repair with erasures := s.repair.erasures.set rank ((erasureSet s rank).erase device) }
    fault := { s.fault with devices := s.fault.devices.set (rank * 20 + device) {} }
    counters := { s.counters with devicesUnerased := satAdd s.counters.devicesUnerased 1 } }

theorem removeErasure_eq (rank device : Nat) (s : State) :
    removeErasure rank device s = eraseRank rank (unerased rank device s) := by
  unfold removeErasure
  exact congrArg (eraseRank rank) rfl

section

variable {s : State} {q : MaintRequest} {rank device : Word32} {more : List Word32}
  (hargs : q.args = rank :: device :: more) (hgeom : s.port.geomSet = true) (hrank : rank.toNat < s.port.geom.ranks)
  (hdevice : device.toNat ≤ 19)

include hargs hgeom hrank hdevice

/-- The decision on ERASE for a device that is not erased (R152). -/
theorem doErase_unerased (hnew : device.toNat ∉ erasureSet s rank.toNat) : doErase q.args (dispatched s) =
    if 2 ≤ (erasureSet s rank.toNat).length then refuse .limit (dispatched s)
    else accept [erasureWord (erasureSet s rank.toNat ++ [device.toNat])]
      (addErasure rank.toNat device.toNat 1 (dispatched s)) := by
  have hfree : isErased (dispatched s) rank.toNat device.toNat = false := by
    rw [← Bool.not_eq_true]
    exact fun h => hnew ((isErased_iff s _ _).1 h)
  simp only [hargs, doErase, argOf_zero, argOf_succ, dispatched_port, hgeom, hfree, Nat.not_le.2 hrank,
    Nat.not_lt.2 hdevice, not_true_eq_false, Bool.false_eq_true, or_self, if_false]
  rfl

theorem execErase_accepted (h : AtHead s q 27) (hnew : device.toNat ∉ erasureSet s rank.toNat)
    (hroom : (erasureSet s rank.toNat).length < 2) :
    exec .erase s = .next (answered q .ok [erasureWord (erasureSet s rank.toNat ++ [device.toNat])]
      (addErasure rank.toNat device.toNat 1 (dispatched s))) :=
  serve_next h (by simp [hargs])
    ((doErase_unerased hargs hgeom hrank hdevice hnew).trans (if_neg (Nat.not_le.2 hroom)))

theorem execErase_limit (h : AtHead s q 27) (hnew : device.toNat ∉ erasureSet s rank.toNat)
    (hfull : 2 ≤ (erasureSet s rank.toNat).length) :
    exec .erase s = .next (answered q .limit [] (dispatched s)) :=
  serve_next h (by simp [hargs]) ((doErase_unerased hargs hgeom hrank hdevice hnew).trans (if_pos hfull))

theorem execUnerase_accepted (h : AtHead s q 28) (hconfig : s.link.channel = .config)
    (herased : device.toNat ∈ erasureSet s rank.toNat) :
    exec .unerase s = .next (answered q .ok [erasureWord ((erasureSet s rank.toNat).erase device.toNat)]
      (eraseRank rank.toNat (unerased rank.toNat device.toNat (dispatched s)))) := by
  have hold : isErased (dispatched s) rank.toNat device.toNat = true := (isErased_iff s _ _).2 herased
  rw [← removeErasure_eq]
  refine serve_next h (by simp [hargs]) ?_
  simp only [hargs, doUnerase, argOf_zero, argOf_succ, dispatched_port, dispatched_link, hgeom, hconfig, hold,
    Nat.not_le.2 hrank, Nat.not_lt.2 hdevice, not_true_eq_false, or_self, if_false]
  rfl

end

/-! ## The obligation -/

/-- Settles O60: the two requests by their decisions, an erasure by its record and its cleanup, and the erase decision by
its cases. -/
theorem erasuresFollowTheirRules : Obligations.ErasuresFollowTheirRules := by
  refine ⟨fun s q rank device more hargs hgeom hrank hdevice => ⟨fun h hnew hroom => ?_, ?_, fun h hconfig herased => ?_⟩,
    fun s rank device => ?_⟩
  · have hexec := execErase_accepted hargs hgeom hrank hdevice h hnew hroom
    have herased := addErasure_erased rank.toNat device.toNat 1 (dispatched s)
    have hrecorded := addErasure_recorded rank.toNat device.toNat (dispatched s)
    have hunrecorded := addErasure_unrecorded rank.toNat device.toNat (dispatched s)
    generalize addErasure rank.toNat device.toNat 1 (dispatched s) = t at *
    refine ⟨t, hexec, herased.repair, ?_, herased.devices, herased.erased, herased.decisions, hrecorded, hunrecorded,
      herased.frame⟩
    rw [herased.entries]
    exact List.map_congr_left fun e _ => cleanedEntry_eq _ _ e
  · exact execErase_limit hargs hgeom hrank hdevice
  · intro u
    exact ⟨execUnerase_accepted hargs hgeom hrank hdevice h hconfig herased,
      fun hoff => eraseRank_autoOff (s := u) hoff rank.toNat⟩
  · intro past
    have hpast : past ↔ pastErase s rank device = true := (pastErase_iff s rank device).symm
    refine ⟨fun h => eraseDecision_below (mt hpast.2 h), fun h hroom => ?_, fun h hfull => ?_⟩
    · intro t
      have ht : t = addErasure rank device 0 (count .eraseDecisions s) := eraseDecision_erases (hpast.1 h) hroom
      have herased := addErasure_erased rank device 0 (count .eraseDecisions s)
      rw [← ht] at herased
      refine ⟨herased.repair, herased.decisions, herased.erased, fun e he hrank hstate hd => ?_, ?_⟩
      · rw [herased.entries] at he
        obtain ⟨f, -, rfl⟩ := List.mem_map.1 he
        exact cleanedEntry_clear hd hrank hstate
      · rw [ht]
        exact addErasure_pending rank device _
    · exact ⟨eraseDecision_reported (hpast.1 h) hfull, eraseDecision_limit (hpast.1 h) hfull⟩

end Sys2Proof.Machine
end

section
/-! The operations that leave the activation tables and `hammer_threshold` as they stand: frames, accesses performed, reads
decoded and the requests of the other blocks. One lemma per operation. -/

namespace Sys2Proof.Machine

open Sys2Proof

/-! ## The relation -/

/-- All that HammerLegal looks at. -/
def State.watchView (s : State) := (s.hammer.tables, s.params.hammerThreshold)

/-- The activation tables and the threshold, as they were. -/
def WatchSame (s t : State) : Prop := t.watchView = s.watchView

theorem WatchSame.refl (s : State) : WatchSame s s := rfl

theorem WatchSame.trans {a b c : State} (h : WatchSame a b) (k : WatchSame b c) : WatchSame a c := Eq.trans k h

theorem WatchSame.ite {p : Prop} [Decidable p] {s a b : State} (h : WatchSame s a) (k : WatchSame s b) :
    WatchSame s (if p then a else b) := by split <;> assumption

theorem WatchSame.legal {s t : State} (h : WatchSame s t) (hl : HammerLegal s) : HammerLegal t := by
  obtain ⟨htables, hthreshold⟩ := Prod.mk.inj h
  rwa [HammerLegal, Hammer.Below, htables, hthreshold]

theorem WatchSame.port (s : State) (p : Port) : WatchSame s { s with port := p } := rfl

theorem WatchSame.report (s : State) (p : Report) : WatchSame s { s with report := p } := rfl

theorem WatchSame.fault (s : State) (f : FaultTable) : WatchSame s { s with fault := f } := rfl

theorem WatchSame.windowEnd (s : State) (moment : Elapsed) :
    WatchSame s { s with hammer := { s.hammer with windowEnd := moment } } := rfl

theorem WatchSame.repair (s : State) (p : Repair) : WatchSame s { s with repair := p } := rfl

/-! ## The effects named once -/

theorem Noted.watchSame {s t : State} (h : Noted s t) : WatchSame s t := by
  obtain ⟨-, -, -, e⟩ := h
  rw [e]
  rfl

theorem Alerted.watchSame {s t : State} (h : Alerted s t) : WatchSame s t := h.noted.watchSame

theorem Internal.watchSame {s t : State} (h : Internal s t) : WatchSame s t := by
  obtain ⟨-, -, -, -, -, -, -, -, -, e⟩ := h
  rw [e]
  rfl

theorem Settled.watchSame {s t : State} (h : Settled s t) : WatchSame s t := by
  obtain ⟨-, -, -, -, -, -, -, e⟩ := h
  rw [e]
  rfl

theorem settle_watchSame (s : State) : WatchSame s (settle s) := (settle_settled s).watchSame

/-- Times kept move, and no count does (R196). -/
theorem setNow_watchSame (t : FineTime) (s : State) : WatchSame s (setNow t s) := rfl

theorem arrive_watchSame (t : FineTime) (s : State) : WatchSame s (arrive t s) := .ite (setNow_watchSame t s) (.refl s)

/-! ## Frames and the DRAM Port -/

theorem discardFrame_watchSame (s : State) : WatchSame s (discardFrame s) :=
  ((Noted.count _ s).trans (raise_alerted _ _).noted).watchSame

theorem reviewDrain_watchSame (s : State) : WatchSame s (reviewDrain s) := by
  rw [reviewDrain_eq]
  rfl

theorem wbCancel_watchSame (line : Nat) (s : State) : WatchSame s (wbCancel line s) := (wbCancel_noted line s).watchSame

theorem portRead_watchSame (tag line : Nat) (s : State) : WatchSame s (portRead tag line s) := by
  unfold portRead takeRead
  repeat' split
  all_goals rfl

theorem failLock_watchSame (source : Source) (tag region line : Nat) (s : State) :
    WatchSame s (failLock source tag region line s) :=
  ((handRecord_noted _ (handReturn _ s)).trans (raise_alerted _ _).noted).watchSame

theorem takeWrite_watchSame (tag line : Nat) (data : Data) (s : State) : WatchSame s (takeWrite tag line data s) :=
  (wbCancel_watchSame line s).trans (reviewDrain_watchSame (takeAccess line _ .waiting _))

theorem takeMasked_watchSame (tag line : Nat) (data : Data) (mask : BitVec 64) (s : State) :
    WatchSame s (takeMasked tag line data mask s) := by
  unfold takeMasked
  split
  · exact (wbCancel_watchSame line (count _ s)).trans (reviewDrain_watchSame (takeAccess line _ .merging _))
  · exact reviewDrain_watchSame (takeAccess line _ .waiting s)

theorem testMask_watchSame (tag line : Nat) (data : Data) (mask : BitVec 64) (s : State) :
    WatchSame s (testMask tag line data mask s) :=
  .ite (.refl s) (.ite (takeWrite_watchSame tag line data s) (takeMasked_watchSame tag line data mask s))

theorem portWrite_watchSame (source : Source) (tag line : Nat) (permit : Bool) {passed : State → State}
    (hp : ∀ s, WatchSame s (passed s)) (s : State) : WatchSame s (portWrite source tag line permit passed s) := by
  unfold portWrite
  repeat' split
  · rfl
  · exact failLock_watchSame _ _ _ _ s
  · exact hp s

theorem takeRequest_watchSame (tag code : Nat) (args : List Word32) (s : State) :
    WatchSame s (takeRequest tag code args s) := .ite (.refl s) (.refl s)

theorem frameLeft_watchSame (f : ReturnFrame) (rest : List ReturnFrame) (s : State) :
    WatchSame s (frameLeft f rest s) := by
  unfold frameLeft releaseTag
  split <;> rfl

/-! ## Accesses performed -/

theorem restartHold_watchSame (rank bank row : Nat) (s : State) : WatchSame s (restartHold rank bank row s) := by
  obtain ⟨m, -, e⟩ := restartHold_spec rank bank row s
  rw [e]
  rfl

theorem finishAccess_watchSame (a : Access) (s : State) : WatchSame s (finishAccess a s) :=
  restartHold_watchSame _ _ _ { s with port := { s.port with accesses := removeFirst a.line s.port.accesses } }

theorem written_watchSame (a : Access) (data : Data) (form : Form) (s : State) :
    WatchSame s (finishAccess a (writeLine a data form s)) := by
  obtain ⟨m, -, e⟩ := writeLine_spec a data form s
  rw [e]
  exact finishAccess_watchSame a { s with dram := m }

theorem handDemandReturn_watchSame (tag : Nat) (f : ReturnFrame) (s : State) :
    WatchSame s (handDemandReturn tag f s) := .ite (.refl s) (.refl s)

theorem answeredWrite_watchSame (a : Access) (tag : Nat) (data : Data) (form : Form) (status : AckStatus) (s : State) :
    WatchSame s (answeredWrite a tag data form status s) :=
  (written_watchSame a data form s).trans ((reviewDrain_watchSame _).trans (handDemandReturn_watchSame _ _ _))

theorem entryWritten_watchSame (a : Access) (e : WbEntry) (s : State) : WatchSame s (entryWritten a e s) :=
  written_watchSame a e.data e.kind.form s

theorem recordWritten_watchSame (a : Access) (n : Word32) (data : Data) (s : State) :
    WatchSame s (recordWritten a n data s) :=
  (written_watchSame a data .fresh s).trans (recordPerformed_noted n _).watchSame

theorem spareWritten_watchSame (a : Access) (data : Data) (form : Form) (s : State) :
    WatchSame s (spareWritten a data form s) :=
  (written_watchSame a data form s).trans ((Internal.count _ _).trans (copyWritten_inner _)).watchSame

/-! ## Reads decoded -/

theorem handDecoded_watchSame (line : Nat) (d : Decoded) (policy : Policy) (s : State) :
    WatchSame s (handDecoded line d policy s) := by
  unfold handDecoded handWriteback
  repeat' split
  all_goals rfl

theorem countSweepEvent_watchSame (ev : Option FaultEvent) (s : State) : WatchSame s (countSweepEvent ev s) := by
  unfold countSweepEvent
  split <;> rfl

theorem demandDecoded_watchSame (a : Access) (tag : Nat) (d : Decoded) (s : State) :
    WatchSame s (demandDecoded a tag d s) :=
  ((finishAccess_watchSame a s).trans (handDemandReturn_watchSame _ _ _)).trans
    ((handEvent_inner _ _).watchSame.trans (handDecoded_watchSame _ _ _ _))

theorem patrolDecoded_watchSame (a : Access) (owned : Bool) (d : Decoded) (s : State) :
    WatchSame s (patrolDecoded a owned d s) :=
  ((finishAccess_watchSame a s).trans (handEvent_inner _ _).watchSame).trans
    ((WatchSame.ite (countSweepEvent_watchSame _ _) (.refl _)).trans
      ((handDecoded_watchSame _ _ _ _).trans (.ite (.refl _) (.refl _))))

theorem targetedDecoded_watchSame (a : Access) (d : Decoded) (s : State) : WatchSame s (targetedDecoded a d s) :=
  ((finishAccess_watchSame a s).trans (handEvent_inner _ _).watchSame).trans
    (.ite (handDecoded_watchSame _ _ _ _) (.refl _))

theorem mergeUnit_watchSame (a : Access) (tag : Nat) (data : Data) (mask : BitVec 64) (d : Decoded) (s : State) :
    WatchSame s (mergeUnit a tag data mask d s) := by
  unfold mergeUnit restartHoldOf
  exact restartHold_watchSame _ _ _ _

theorem copyDecoded_watchSame (a : Access) (d : Decoded) (s : State) : WatchSame s (copyDecoded a d s) :=
  ((finishAccess_watchSame a s).trans (.port _ _)).trans ((countCopied_inner _ _).trans (handEvent_inner _ _)).watchSame

/-! ## The requests of the Patrol Engine and the Region Table -/

section

variable (args : List Word32) (s : State)

theorem runSelection_watchSame : WatchSame s (runSelection s) := (runSelection_settled s).watchSame

theorem reviewOverride_watchSame : WatchSame s (reviewOverride s) := (reviewOverride_settled s).watchSame

theorem closeWindow_watchSame : WatchSame s (closeWindow s) := (closeWindow_settled s).watchSame

theorem emptySlots_watchSame : WatchSame s (emptySlots s) := by
  simp only [WatchSame, emptySlots, abandonReads, idleRegion_eq]
  rfl

theorem stageHost_watchSame (i : Nat) : WatchSame s (stageHost i s) := by
  simp only [WatchSame, stageHost, idleRegion_eq]
  rfl

theorem doScrubEnable_watchSame : WatchSame s (doScrubEnable args s).state := by
  unfold doScrubEnable
  split
  · exact runSelection_watchSame (setEngine .idle s)
  · rfl

theorem doScrubDisable_watchSame : WatchSame s (doScrubDisable args s).state := by
  unfold doScrubDisable
  split
  · rfl
  · exact (emptySlots_watchSame s).trans (reviewOverride_watchSame (setEngine .disabled (emptySlots s)))

theorem doSweepNow_watchSame : WatchSame s (doSweepNow args s).state := by
  unfold doSweepNow
  dsimp only
  repeat' split
  · rfl
  · rfl
  · exact (stageHost_watchSame s _).trans (runSelection_watchSame _)

theorem doSweepHalt_watchSame : WatchSame s (doSweepHalt args s).state := by
  have hhold : WatchSame s (holdSweep s) := by
    unfold holdSweep
    split <;> rfl
  unfold doSweepHalt
  split
  · rfl
  · exact hhold.trans (reviewOverride_watchSame (setEngine .halted (holdSweep s)))

theorem returnSweep_watchSame (w : Sweep) : WatchSame s (returnSweep w s) := by
  unfold returnSweep
  exact ((recompute_settled _).trans (reviewOverride_settled _)).watchSame

theorem doSweepResume_watchSame : WatchSame s (doSweepResume args s).state := by
  unfold doSweepResume resumePatrol
  repeat' split
  · exact (returnSweep_watchSame s _).trans (runSelection_watchSame _)
  · exact runSelection_watchSame (setEngine .idle s)
  · rfl

theorem doQuietBegin_watchSame : WatchSame s (doQuietBegin args s).state := by
  have hwindow : ∀ endTime, WatchSame s (setWindow endTime s) := fun endTime => by
    unfold setWindow
    split <;> rfl
  exact (hwindow _).trans (reviewOverride_watchSame _)

theorem doQuietEnd_watchSame : WatchSame s (doQuietEnd args s).state := by
  unfold doQuietEnd
  split
  · rfl
  · exact closeWindow_watchSame s

theorem doRegionLoad_watchSame : WatchSame s (doRegionLoad args s).state := by
  unfold doRegionLoad
  dsimp only
  repeat' split
  · rfl
  · rfl
  · rfl
  · rfl
  · rfl
  · exact runSelection_watchSame (setRegion _ _ s)

theorem doRegionClear_watchSame : WatchSame s (doRegionClear args s).state := by
  unfold doRegionClear
  dsimp only
  repeat' split
  all_goals rfl

theorem acceptPart_watchSame (part : Nat) (results : List Word32) : WatchSame s (acceptPart part results s).state := by
  rw [acceptPart_state]
  rfl

theorem doRegionRead_watchSame : WatchSame s (doRegionRead args s).state := by
  unfold doRegionRead
  split
  · rfl
  · exact acceptPart_watchSame s _ _

/-! ## The requests of the Maintenance Unit, the Fault Table and the Repair Engine -/

theorem doReadStats_watchSame : WatchSame s (doReadStats args s).state := by
  unfold doReadStats
  dsimp only
  split <;> rfl

theorem doGoOnline_watchSame : WatchSame s (doGoOnline args s).state := by
  unfold doGoOnline
  split <;> rfl

theorem doFaultRead_watchSame : WatchSame s (doFaultRead args s).state := by
  unfold doFaultRead
  split
  · rfl
  · exact acceptPart_watchSame s _ _

theorem doFaultClear_watchSame : WatchSame s (doFaultClear args s).state := by
  unfold doFaultClear
  repeat' split
  all_goals rfl

theorem doDeviceRead_watchSame : WatchSame s (doDeviceRead args s).state := by
  unfold doDeviceRead
  split
  · rfl
  · exact acceptPart_watchSame s _ _

theorem doRetireRow_watchSame : WatchSame s (doRetireRow args s).state := by
  unfold doRetireRow
  dsimp only
  repeat' split
  · rfl
  · rfl
  · rfl
  · rfl
  · rfl
  · rename_i hroom
    exact (takeJob_inner _ _ _ _ _ s (Nat.lt_of_not_le hroom)).watchSame

theorem doRemapLoad_watchSame : WatchSame s (doRemapLoad args s).state := by
  unfold doRemapLoad
  dsimp only
  repeat' split
  all_goals rfl

theorem doSpareKill_watchSame : WatchSame s (doSpareKill args s).state := by
  unfold doSpareKill
  dsimp only
  repeat' split
  all_goals rfl

theorem doRemapRead_watchSame : WatchSame s (doRemapRead args s).state := by
  unfold doRemapRead
  dsimp only
  repeat' split
  all_goals rfl

theorem doErase_watchSame : WatchSame s (doErase args s).state := by
  unfold doErase
  dsimp only
  repeat' split
  · rfl
  · rfl
  · rfl
  · rename_i hplace hroom
    simp only [not_or, Bool.not_eq_true] at hplace
    obtain ⟨-, -, hfresh⟩ := hplace
    exact (addErasure_inner _ _ 1 s hfresh (Nat.lt_of_not_le hroom)).watchSame

theorem removeErasure_watchSame (rank device : Nat) : WatchSame s (removeErasure rank device s) := by
  exact (WatchSame.repair s _).trans ((Internal.setDevice rank device {} _ fun _ => Nat.zero_le _).trans
    ((Internal.count _ _).trans (eraseRank_inner rank _))).watchSame

theorem doUnerase_watchSame : WatchSame s (doUnerase args s).state := by
  unfold doUnerase
  dsimp only
  repeat' split
  · rfl
  · rfl
  · rfl
  · rw [accept_state]
    exact removeErasure_watchSame s _ _

/-! ## The requests of the Report Unit -/

theorem doReportSetup_watchSame : WatchSame s (doReportSetup args s).state := by
  unfold doReportSetup
  dsimp only
  repeat' split
  all_goals rfl

theorem doReportRelease_watchSame : WatchSame s (doReportRelease args s).state := by
  unfold doReportRelease
  dsimp only
  repeat' split
  all_goals rfl

theorem placeRecord_watchSame (r : Record) : WatchSame s (placeRecord r s) := by
  unfold placeRecord
  exact (WatchSame.report s _).trans (wbCancel_watchSame _ _)

theorem doReportRestart_watchSame : WatchSame s (doReportRestart args s).state := by
  unfold doReportRestart
  repeat' split
  · rfl
  · rfl
  · rfl
  · exact (WatchSame.report s _).trans (placeRecord_watchSame _ (recordsLostRecord s))

theorem doCauseSet_watchSame : WatchSame s (doCauseSet args s).state := by
  unfold doCauseSet
  split
  · rfl
  · exact (raiseSet_alerted _ s).watchSame

theorem doMaskSet_watchSame : WatchSame s (doMaskSet args s).state := by
  unfold doMaskSet
  dsimp only
  split <;> rfl

theorem doMaskClear_watchSame : WatchSame s (doMaskClear args s).state := by
  unfold doMaskClear
  dsimp only
  split
  · rfl
  · exact (testAlert_alerted { s with report := { s.report with mask := _ } }).watchSame

end

end Sys2Proof.Machine
end

section
/-! O9: every command and every tick keeps the activation tables below the threshold, with no row twice in a table. -/

namespace Sys2Proof.Machine

open Sys2Proof

/-! ## Tables mapped place by place -/

/-- A table mapped place by place, each entry left with its row and a count below the threshold, or freed. -/
theorem table_map {table : List (Option HammerEntry)} {old new : Nat} {g : Option HammerEntry → Option HammerEntry}
    (h : table.length = 16 ∧ (∀ place ∈ table, ∀ e ∈ place, e.count < old) ∧ table.Pairwise HammerEntry.apart)
    (hg : ∀ p, ∀ e ∈ g p, e.count < new ∧ ∃ f ∈ p, (f.bank, f.row) = (e.bank, e.row)) :
    (table.map g).length = 16 ∧ (∀ place ∈ table.map g, ∀ e ∈ place, e.count < new) ∧
      (table.map g).Pairwise HammerEntry.apart := by
  obtain ⟨hlength, -, hapart⟩ := h
  refine ⟨(List.length_map g).trans hlength, fun place hp e he => ?_, ?_⟩
  · obtain ⟨p, -, rfl⟩ := List.mem_map.1 hp
    exact (hg p e he).1
  · rw [List.pairwise_map]
    refine hapart.imp fun {p q} hpq e he f hf => ?_
    obtain ⟨-, e', he', hrow⟩ := hg p e he
    obtain ⟨-, f', hf', hrow'⟩ := hg q f hf
    rw [← hrow, ← hrow']
    exact hpq e' he' f' hf'

theorem Hammer.Below.map {h : Hammer} {old new : Nat} (hb : h.Below old) {g : Option HammerEntry → Option HammerEntry}
    (hg : ∀ p, ∀ e ∈ g p, e.count < new ∧ ∃ f ∈ p, (f.bank, f.row) = (e.bank, e.row)) (windowEnd : Elapsed) :
    Hammer.Below { tables := h.tables.map (List.map g), windowEnd := windowEnd } new := by
  obtain ⟨hlength, htables⟩ := hb
  refine ⟨(List.length_map _).trans hlength, fun table ht => ?_⟩
  obtain ⟨before, hbefore, rfl⟩ := List.mem_map.1 ht
  exact table_map (htables before hbefore) hg

/-- Tables emptied are below every threshold (R166). -/
theorem emptyHammer_legal {s : State} (h : HammerLegal s) : HammerLegal (emptyHammer s) := by
  obtain ⟨hlow, hbelow⟩ := h
  exact ⟨hlow, hbelow.map (g := fun _ => none) nofun _⟩

/-- Counts returned to 0 are below the threshold, which is at least 1024 (R163). -/
theorem zeroHammer_legal {s : State} (h : HammerLegal s) : HammerLegal (zeroHammer s) := by
  obtain ⟨hlow, hbelow⟩ := h
  refine ⟨hlow, hbelow.map (fun p e he => ?_) _⟩
  obtain ⟨f, hf, rfl⟩ := Option.map_eq_some_iff.1 he
  exact ⟨Nat.lt_of_lt_of_le (show 0 < 1024 by decide) hlow, f, hf, rfl⟩

/-- At power-on every place is free, and the threshold is 16384 (R156, R199). -/
theorem reset_hammerLegal : HammerLegal State.reset := by
  refine ⟨by decide, rfl, fun table ht => ?_⟩
  rw [List.eq_of_mem_replicate ht]
  refine ⟨rfl, fun place hp => ?_, List.pairwise_replicate.2 (.inr nofun)⟩
  rw [List.eq_of_mem_replicate hp]
  nofun

/-! ## The review of a changed threshold (R164) -/

/-- The tables of the ranks once an entry is replaced; a rank without a table has none to replace it in. -/
theorem hammerTable_setHammer (rank i : Nat) (e : HammerEntry) (s : State) (r : Nat) :
    hammerTable (setHammer rank i e s) r = if r = rank then (hammerTable s rank).set i (some e) else hammerTable s r := by
  unfold hammerTable setHammer
  simp only [List.getD_eq_getElem?_getD, List.getElem?_set, hammerTable]
  by_cases hr : r = rank
  · subst hr
    by_cases hlt : r < s.hammer.tables.length <;> simp [hlt]
  · simp [hr, Ne.symm hr]

/-- The places once an entry is replaced. -/
theorem hammerAt_setHammer (rank i : Nat) (e : HammerEntry) (s : State) (r j : Nat) :
    hammerAt (setHammer rank i e s) r j =
      if r = rank ∧ j = i ∧ i < (hammerTable s rank).length then some e else hammerAt s r j := by
  unfold hammerAt
  rw [hammerTable_setHammer]
  by_cases hr : r = rank
  · subst hr
    simp only [if_true, true_and, List.getD_eq_getElem?_getD, List.getElem?_set]
    by_cases hj : j = i
    · subst hj
      by_cases hlt : j < (hammerTable s r).length <;> simp [hlt]
    · simp [hj, Ne.symm hj]
  · simp [hr]

/-- A trigger leaves its entry with count 0 and the other places as they were (R160). -/
theorem hammerAt_trigger (rank i : Nat) (e : HammerEntry) (requester : Option Requester) (s : State) (r j : Nat) :
    hammerAt (trigger rank i e requester s) r j =
      if r = rank ∧ j = i ∧ i < (hammerTable s rank).length then some { e with count := 0 } else hammerAt s r j := by
  rw [← hammerAt_setHammer]
  unfold hammerAt hammerTable
  rw [(trigger_watched rank i e requester s).2]

/-- An entry in use is one of the places of its table. -/
theorem hammerAt_eq_some {s : State} {rank i : Nat} {e : HammerEntry} :
    hammerAt s rank i = some e ↔ (hammerTable s rank)[i]? = some (some e) := by
  rw [hammerAt, List.getD_eq_getElem?_getD]
  cases (hammerTable s rank)[i]? <;> simp

theorem reviewEntry_params (rank i : Nat) (s : State) : (reviewEntry rank i s).params = s.params := by
  obtain ⟨-, -, -, -, e⟩ := reviewEntry_watched rank i s
  rw [e]

/-- The review of one entry keeps the tables below a threshold that they are below already. -/
theorem reviewEntry_below (rank i : Nat) {s : State} {th : Nat} (hpos : 0 < th) (h : s.hammer.Below th) :
    (reviewEntry rank i s).hammer.Below th := by
  unfold reviewEntry
  split
  · rename_i e he
    split
    · obtain ⟨hlt, hi⟩ := List.getElem?_eq_some_iff.1 (hammerAt_eq_some.1 he)
      rw [(trigger_watched rank i e none s).2]
      exact below_set h rank i _ hpos fun j hj hne => below_apart h rank i j hne hlt hj e (by simp [hi])
    · exact h
  · exact h

/-- A place whose count is below the threshold in force. -/
def PlaceBelow (rank i : Nat) (s : State) : Prop := ∀ e, hammerAt s rank i = some e → e.count < s.params.hammerThreshold

/-- The entry reviewed is below the threshold then. -/
theorem reviewEntry_placeBelow (rank i : Nat) {s : State} (hpos : 0 < s.params.hammerThreshold) :
    PlaceBelow rank i (reviewEntry rank i s) := by
  intro f hf
  rw [reviewEntry_params]
  unfold reviewEntry at hf
  split at hf
  · rename_i e he
    split at hf
    · obtain ⟨hlt, -⟩ := List.getElem?_eq_some_iff.1 (hammerAt_eq_some.1 he)
      rw [hammerAt_trigger, if_pos ⟨rfl, rfl, hlt⟩] at hf
      cases hf
      exact hpos
    · rename_i hcount
      cases he.symm.trans hf
      exact Nat.lt_of_not_le hcount
  · rename_i he
    cases he.symm.trans hf

/-- A place below the threshold stays so through the review of any entry. -/
theorem placeBelow_reviewEntry {rank i : Nat} {s : State} (h : PlaceBelow rank i s)
    (hpos : 0 < s.params.hammerThreshold) (r j : Nat) : PlaceBelow rank i (reviewEntry r j s) := by
  by_cases hsame : rank = r ∧ i = j
  · obtain ⟨rfl, rfl⟩ := hsame
    exact reviewEntry_placeBelow rank i hpos
  · intro f hf
    rw [reviewEntry_params]
    refine h f ?_
    unfold reviewEntry at hf
    split at hf
    · split at hf
      · rwa [hammerAt_trigger, if_neg fun ⟨hr, hj, _⟩ => hsame ⟨hr, hj⟩] at hf
      · exact hf
    · exact hf

/-- The places of every table, rank by rank. -/
def hammerPlaces : List (Nat × Nat) := List.range 4 ×ˢ List.range Config.hammerEntries

theorem reviewThreshold_eq (s : State) :
    reviewThreshold s = hammerPlaces.foldl (fun u p => reviewEntry p.1 p.2 u) s := by
  simp only [hammerPlaces, SProd.sprod, List.product, List.foldl_flatMap, List.foldl_map]
  rfl

/-- The review of a list of entries leaves each of them below the threshold in force. -/
theorem foldl_reviewEntry {l : List (Nat × Nat)} {s t : State} (ht : t = l.foldl (fun u p => reviewEntry p.1 p.2 u) s)
    {th : Nat} (hth : 0 < th) (h : s.hammer.Below th) (hpos : 0 < s.params.hammerThreshold) :
    t.params = s.params ∧ t.hammer.Below th ∧ (∀ p ∈ l, PlaceBelow p.1 p.2 t) ∧
      ∀ rank i, PlaceBelow rank i s → PlaceBelow rank i t := by
  induction l generalizing s with
  | nil =>
    rw [ht]
    exact ⟨rfl, h, nofun, fun _ _ => id⟩
  | cons p l ih =>
    have hparams := reviewEntry_params p.1 p.2 s
    obtain ⟨hsame, hbelow, hdone, hstay⟩ := ih ht (reviewEntry_below p.1 p.2 hth h) (hparams ▸ hpos)
    refine ⟨hsame.trans hparams, hbelow, ?_, fun rank i hp => hstay rank i (placeBelow_reviewEntry hp hpos _ _)⟩
    exact List.forall_mem_cons.2 ⟨hstay _ _ (reviewEntry_placeBelow _ _ hpos), hdone⟩

/-- After the review every count is below the changed threshold (R164). -/
theorem reviewThreshold_legal {s : State} {th : Nat} (hlow : 1024 ≤ s.params.hammerThreshold) (hth : 0 < th)
    (h : s.hammer.Below th) : HammerLegal (reviewThreshold s) := by
  obtain ⟨hparams, ⟨hlength, htables⟩, hplaces, -⟩ :=
    foldl_reviewEntry (reviewThreshold_eq s) hth h (Nat.lt_of_lt_of_le (show 0 < 1024 by decide) hlow)
  refine ⟨by rwa [hparams], hlength, fun table ht => ?_⟩
  obtain ⟨hsize, -, hapart⟩ := htables table ht
  refine ⟨hsize, fun place hp e he => ?_, hapart⟩
  obtain ⟨rank, hrank, rfl⟩ := List.getElem_of_mem ht
  obtain ⟨i, hi, rfl⟩ := List.getElem_of_mem hp
  refine hplaces (rank, i) (List.mem_product.2 ⟨?_, ?_⟩) e (hammerAt_eq_some.2 ?_)
  · exact List.mem_range.2 (hlength ▸ hrank)
  · exact List.mem_range.2 (hsize ▸ hi)
  · have hrow : hammerTable (reviewThreshold s) rank = (reviewThreshold s).hammer.tables[rank] := by
      simp [hammerTable, hrank]
    rw [hrow, List.getElem?_eq_getElem hi, he]

end Sys2Proof.Machine
end

section
/-! O9, command by command. -/

namespace Sys2Proof.Machine

open Sys2Proof

/-! ## Grants (R157) -/

theorem openRow_hammerLegal (rank bank row : Nat) (requester : Requester) {s : State} (h : HammerLegal s) :
    HammerLegal (openRow rank bank row requester s) := by
  obtain ⟨hlow, hbelow⟩ := h
  obtain ⟨m, -, ⟨-, -, -, -, frame⟩, -, hopened⟩ := openRow_spec rank bank row requester s
  have hparams : (openRow rank bank row requester s).params = s.params := by rw [frame]
  rw [HammerLegal, hparams]
  exact ⟨hlow, hopened hlow hbelow⟩

theorem openDouble_hammerLegal (rank bank : Nat) (double : Option Nat) (requester : Requester) {s : State}
    (h : HammerLegal s) : HammerLegal (openDouble rank bank double requester s) := by
  cases double with
  | none => exact h
  | some spare => exact openRow_hammerLegal rank bank spare requester (s := count .writesDoubled s) h

theorem grant_hammerLegal (w : Winner) {s : State} (h : HammerLegal s) : HammerLegal (grant w s) := by
  cases w with
  | access a cls passes =>
    show HammerLegal (grantAccess a cls passes s)
    rw [grantAccess_eq]
    exact openDouble_hammerLegal _ _ _ _ (openRow_hammerLegal _ _ _ _ (s := countGrant cls passes (markedGrant s a)) h)
  | refresh rank => exact h

/-! ## The clear and the geometry (R21, R166) -/

theorem beginClear_hammerLegal {s : State} (h : HammerLegal s) : HammerLegal (beginClear s) := by
  have habort := Internal.foldl (fun s j => abortJob j s) (fun s j => abortJob_inner j s) s.repair.jobs (clearedState s)
  have hcleared : HammerLegal (clearedState s) := h
  rw [beginClear_eq]
  exact emptyHammer_legal ((habort.watchSame.trans (.repair _ _)).legal hcleared)

theorem afterClear_watchSame (selectionFirst : Bool) (s : State) : WatchSame s (afterClear selectionFirst s) :=
  (afterClear_settled selectionFirst s).watchSame

theorem doConfigureGeometry_hammerLegal (args : List Word32) {s : State} (h : HammerLegal s) :
    HammerLegal (doConfigureGeometry args s).state := by
  have hfit : ∀ u, WatchSame u (fitRing u) := fun u => .ite (.refl u) (.refl u)
  unfold doConfigureGeometry takeGeometry
  repeat' split
  · exact h
  · exact h
  · exact h
  · exact (hfit _).legal (emptyHammer_legal h)

/-! ## SET_PARAM (R164, R197) -/

/-- Only parameter 11 is the threshold (R197). -/
theorem Params.put_hammerThreshold (p : Params) (id v : Nat) :
    (p.put id v).hammerThreshold = if id = 11 then v else p.hammerThreshold := by
  unfold Params.put
  split <;> simp_all

/-- What a change of another parameter does leaves the watch alone (R197). -/
theorem paramChanged_watchSame {id : Nat} (hid : id ≠ 11) (s : State) : WatchSame s (paramChanged id s) := by
  unfold paramChanged
  split
  · exact (((recompute_settled s).trans (reviewOverride_settled _)).trans (settle_settled _)).watchSame
  · exact ((reviewOverride_settled s).trans (settle_settled _)).watchSame
  · exact ((reviewLimits_inner s).trans (eraseAll_inner _)).watchSame
  · exact (eraseAll_inner s).watchSame
  · exact (eraseAll_inner s).watchSame
  · exact absurd rfl hid
  · exact (reviewReadyCount_alerted s).watchSame
  · exact (reviewReadyAge_alerted s).watchSame
  · exact .refl s

/-- A changed threshold is at least 1024, and its review leaves every count below it (R164, R197). -/
theorem doSetParam_hammerLegal (args : List Word32) {s : State} (h : HammerLegal s) :
    HammerLegal (doSetParam args s).state := by
  obtain ⟨hlow, hbelow⟩ := h
  unfold doSetParam
  split
  · exact ⟨hlow, hbelow⟩
  · rename_i range hrange
    dsimp only [accept]
    generalize hv : clampTo range (argOf args 1) = v
    generalize argOf args 0 = id at hrange
    have hput := s.params.put_hammerThreshold id v
    by_cases hid : id = 11
    · subst hid
      cases hrange
      rw [clampTo_eq (by decide)] at hv
      refine (settle_watchSame _).legal (reviewThreshold_legal (th := s.params.hammerThreshold) ?_ (by omega) hbelow)
      change 1024 ≤ (s.params.put 11 v).hammerThreshold
      rw [hput, if_pos rfl]
      omega
    · refine (paramChanged_watchSame hid _).legal ?_
      rw [if_neg hid] at hput
      rw [HammerLegal]
      dsimp only
      rw [hput]
      exact ⟨hlow, hbelow⟩

/-! ## The commands -/

/-- A command answers a next state that keeps the tables below the threshold. -/
def Guarded (s : State) (answer : Answer) : Prop := ∃ t, answer = .next t ∧ (HammerLegal s → HammerLegal t)

theorem Guarded.next {s t : State} (h : HammerLegal s → HammerLegal t) : Guarded s (.next t) := ⟨t, rfl, h⟩

/-- A command that leaves the watch alone. -/
theorem Guarded.same {s t : State} (h : WatchSame s t) : Guarded s (.next t) := .next h.legal

/-- A command that does nothing here. -/
theorem Guarded.idle (s : State) : Guarded s (.next s) := .next id

/-- A command that leaves the watch alone, closed by the engine's immediate actions. -/
theorem Guarded.settled {s t : State} (h : WatchSame s t) : Guarded s (.next (settle t)) :=
  .same (h.trans (settle_watchSame t))

theorem Guarded.ite {p : Prop} [Decidable p] {s : State} {a b : Answer} (h : Guarded s a) (k : Guarded s b) :
    Guarded s (if p then a else b) := by split <;> assumption

/-- A dispatch keeps what its owner's decision and what follows its answer keep. -/
theorem serveThen_hammerLegal {after : State → State} (hafter : ∀ s, WatchSame s (after s)) {code needed : Nat}
    {owner : List Word32 → State → Answered} (ho : ∀ args s, HammerLegal s → HammerLegal (owner args s).state)
    {s : State} (h : HammerLegal s) : HammerLegal (serveThen after code needed owner s) := by
  unfold serveThen
  split
  · rename_i q _
    refine (hafter _).legal ?_
    show HammerLegal (decideRequest needed owner q.args (count .maintRequests s)).state
    unfold decideRequest
    split
    · exact h
    · exact ho _ _ h
  · exact h

/-- A dispatch whose owner's decision keeps the tables below the threshold. -/
theorem Guarded.served {s : State} {code needed : Nat} {owner : List Word32 → State → Answered}
    (h : ∀ args s, HammerLegal s → HammerLegal (owner args s).state) : Guarded s (.next (serve code needed owner s)) :=
  .next (serveThen_hammerLegal .refl h)

/-- A dispatch whose owner leaves the watch alone. -/
theorem Guarded.servedSame {s : State} {code needed : Nat} {owner : List Word32 → State → Answered}
    (h : ∀ args s, WatchSame s (owner args s).state) : Guarded s (.next (serve code needed owner s)) :=
  .served fun args s => (h args s).legal

/-- A dispatch of that kind that the engine's immediate actions close. -/
theorem Guarded.servedSettled {s : State} {code needed : Nat} {owner : List Word32 → State → Answered}
    (h : ∀ args s, WatchSame s (owner args s).state) : Guarded s (.next (serveSettled code needed owner s)) :=
  .next (serveThen_hammerLegal settle_watchSame fun args s => (h args s).legal)

/-! ### Frames -/

theorem execIdle_guarded (byte1 byte2 byte3 : Byte) (check : BitVec 16) (s : State) :
    Guarded s (execIdle byte1 byte2 byte3 check s) := .ite (.idle s) (.same (discardFrame_watchSame s))

theorem execRead_guarded (tag byte2 byte3 : Byte) (line : BitVec 64) (check : BitVec 16) (s : State) :
    Guarded s (execRead tag byte2 byte3 line check s) := by
  refine .ite (.same (discardFrame_watchSame s)) ?_
  dsimp only
  split
  · exact .same rfl
  · exact .same (portRead_watchSame _ _ (acceptFrame tag s))

theorem execWrite_guarded (tag flags byte3 : Byte) (line : BitVec 64) (data : Data) (check : BitVec 16) (s : State) :
    Guarded s (execWrite tag flags byte3 line data check s) := by
  refine .ite (.same (discardFrame_watchSame s)) ?_
  dsimp only
  split
  · exact .same rfl
  · exact .same (portWrite_watchSame _ _ _ _ (takeWrite_watchSame _ _ _) (acceptFrame tag s))

theorem execWriteMasked_guarded (tag flags byte3 : Byte) (line : BitVec 64) (data : Data) (mask : BitVec 64)
    (check : BitVec 16) (s : State) : Guarded s (execWriteMasked tag flags byte3 line data mask check s) := by
  refine .ite (.same (discardFrame_watchSame s)) ?_
  dsimp only
  split
  · exact .same rfl
  · exact .same (portWrite_watchSame _ _ _ _ (testMask_watchSame _ _ _ _) (acceptFrame tag s))

theorem execMaint_guarded (tag byte2 : Byte) (code pad : BitVec 16) (args : List Word32) (check : BitVec 16) (s : State) :
    Guarded s (execMaint tag byte2 code pad args check s) :=
  .ite (.same (discardFrame_watchSame s)) (.same (takeRequest_watchSame _ _ _ (acceptFrame tag s)))

theorem execMalformedFrame_guarded (bytes : List Byte) (s : State) : Guarded s (execMalformedFrame bytes s) :=
  .ite (.same (discardFrame_watchSame s)) (.idle s)

theorem execReturnFrameSent_guarded (s : State) : Guarded s (execReturnFrameSent s) := by
  unfold execReturnFrameSent
  split
  · exact .ite (.same (frameLeft_watchSame _ _ s)) (.same rfl)
  · exact .same rfl

/-! ### The DRAM Port -/

theorem execArbiterGrant_guarded (accept : BitVec 64) (refresh : BitVec 4) (s : State) :
    Guarded s (execArbiterGrant accept refresh s) := by
  unfold execArbiterGrant
  split
  · exact .next fun h => (settle_watchSame _).legal (grant_hammerLegal _ h)
  · exact .idle s

theorem execDemandReadDecode_guarded (line : Nat) (damage : Line) (s : State) :
    Guarded s (execDemandReadDecode line damage s) := by
  unfold execDemandReadDecode
  repeat' split
  · exact .settled (demandDecoded_watchSame _ _ _ s)
  · exact .idle s
  · exact .idle s

theorem execScrubReadDecode_guarded (line : Nat) (damage : Line) (s : State) :
    Guarded s (execScrubReadDecode line damage s) := by
  unfold execScrubReadDecode
  repeat' split
  · exact .settled (patrolDecoded_watchSame _ _ _ s)
  · exact .settled (targetedDecoded_watchSame _ _ s)
  · exact .idle s
  · exact .idle s

theorem execRmwReadDecode_guarded (line : Nat) (damage : Line) (s : State) :
    Guarded s (execRmwReadDecode line damage s) := by
  unfold execRmwReadDecode
  repeat' split
  · exact .settled ((mergeUnit_watchSame _ _ _ _ _ s).trans (handEvent_inner _ _).watchSame)
  · exact .idle s
  · exact .idle s

theorem execCopyReadDecode_guarded (line : Nat) (damage : Line) (s : State) :
    Guarded s (execCopyReadDecode line damage s) := by
  unfold execCopyReadDecode
  repeat' split
  · exact .settled (copyDecoded_watchSame _ _ s)
  · exact .idle s
  · exact .idle s

theorem execDemandWritePerformed_guarded (line : Nat) (s : State) : Guarded s (execDemandWritePerformed line s) := by
  unfold execDemandWritePerformed
  repeat' split
  · exact .same (answeredWrite_watchSame _ _ _ .fresh .ok s)
  · exact .idle s
  · exact .idle s

theorem execMaskedWritePerformed_guarded (line : Nat) (s : State) : Guarded s (execMaskedWritePerformed line s) := by
  unfold execMaskedWritePerformed
  repeat' split
  · exact .same (answeredWrite_watchSame _ _ _ _ _ s)
  · exact .idle s
  · exact .idle s

theorem execWritebackPerformed_guarded (line : Nat) (s : State) : Guarded s (execWritebackPerformed line s) := by
  unfold execWritebackPerformed
  split
  · exact .ite (.same (entryWritten_watchSame _ _ s)) (.idle s)
  · exact .idle s

theorem execRecordWritePerformed_guarded (line : Nat) (s : State) : Guarded s (execRecordWritePerformed line s) := by
  unfold execRecordWritePerformed
  repeat' split
  · exact .same (recordWritten_watchSame _ _ _ s)
  · exact .idle s
  · exact .idle s

theorem execCopyWritePerformed_guarded (line : Nat) (s : State) : Guarded s (execCopyWritePerformed line s) := by
  unfold execCopyWritePerformed
  repeat' split
  · exact .same (spareWritten_watchSame _ _ _ s)
  · exact .idle s
  · exact .idle s

/-! ### The timers -/

theorem execRowHoldExpiry_guarded (rank bank : Nat) (s : State) : Guarded s (execRowHoldExpiry rank bank s) := by
  unfold execRowHoldExpiry
  repeat' split
  · exact .idle s
  · exact .same ((arrive_watchSame _ s).trans (.port _ _))
  · exact .idle s
  · exact .idle s

theorem refreshDue_watchSame (rank : Nat) (t : FineTime) (s : State) : WatchSame s (refreshDue rank t s) := by
  unfold refreshDue
  dsimp only
  split <;> rfl

theorem execRefreshTimerExpiry_guarded (rank : Nat) (s : State) : Guarded s (execRefreshTimerExpiry rank s) := by
  unfold execRefreshTimerExpiry
  split
  · exact .same ((arrive_watchSame _ s).trans (refreshDue_watchSame _ _ _))
  · exact .idle s

theorem execRegionDue_guarded (s : State) : Guarded s (execRegionDue s) := by
  have hdue : ∀ u, WatchSame u (reachDue u) := fun u => .ite (.refl u) (runSelection_watchSame u)
  unfold execRegionDue
  split
  · exact .settled ((arrive_watchSame _ s).trans (hdue _))
  · exact .idle s

theorem reachIssue_watchSame (s : State) : WatchSame s (reachIssue s) := by
  unfold reachIssue
  split
  · exact (atBoundary_settled _ s).watchSame
  · exact .refl s

theorem execPatrolLineIssue_guarded (s : State) : Guarded s (execPatrolLineIssue s) := by
  unfold execPatrolLineIssue
  repeat' split
  · exact .settled ((arrive_watchSame _ s).trans (reachIssue_watchSame _))
  · exact .idle s
  · exact .idle s

theorem execBurstIssue_guarded (s : State) : Guarded s (execBurstIssue s) := by
  unfold execBurstIssue
  repeat' split
  · exact .settled ((arrive_watchSame _ s).trans (reachIssue_watchSame _))
  · exact .idle s
  · exact .idle s

theorem execQuietExpiry_guarded (s : State) : Guarded s (execQuietExpiry s) := by
  unfold execQuietExpiry
  split
  · exact .settled ((arrive_watchSame _ s).trans ((closeWindow_settled _).trans (.count _ _)).watchSame)
  · exact .idle s

theorem execQuietOverride_guarded (s : State) : Guarded s (execQuietOverride s) := by
  unfold execQuietOverride
  repeat' split
  · exact .settled ((arrive_watchSame _ s).trans (overrideWindow_settled _ _ _).watchSame)
  · exact .idle s
  · exact .idle s

theorem execDecayEpoch_guarded (s : State) : Guarded s (execDecayEpoch s) := by
  have hrestart : ∀ t u, WatchSame u (restartDecay t u) := fun _ u => .fault u _
  unfold execDecayEpoch
  exact .same ((arrive_watchSame (onMicrosecond s.fault.decayEnd) s).trans
    ((hrestart s.fault.decayEnd _).trans (decay_inner _).watchSame))

theorem execHammerWindowExpiry_guarded (s : State) : Guarded s (execHammerWindowExpiry s) := by
  have hrestart : ∀ t u, WatchSame u (restartHammer t u) := fun _ u => .windowEnd u _
  have hcounted : ∀ u, HammerLegal (zeroHammer u) → HammerLegal (count .hammerWindows (zeroHammer u)) := fun _ => id
  unfold execHammerWindowExpiry
  exact .next fun h => hcounted _ (zeroHammer_legal
    (((arrive_watchSame (onMicrosecond s.hammer.windowEnd) s).trans (hrestart s.hammer.windowEnd _)).legal h))

theorem execHoldoffExpiry_guarded (s : State) : Guarded s (execHoldoffExpiry s) := by
  unfold execHoldoffExpiry
  split
  · exact .same ((arrive_watchSame _ s).trans ((WatchSame.report _ _).trans (testAlert_alerted _).watchSame))
  · exact .idle s

theorem execReadyAgeExpiry_guarded (s : State) : Guarded s (execReadyAgeExpiry s) := by
  unfold execReadyAgeExpiry
  split
  · exact .same ((arrive_watchSame _ s).trans (announce_alerted _).watchSame)
  · exact .idle s

/-! ### The clear and the unknown request -/

theorem execChannelClear_guarded (s : State) : Guarded s (execChannelClear s) := by
  unfold execChannelClear
  split
  · exact .next (beginClear_hammerLegal (s := count .maintRequests s))
  · exact .idle s

theorem execChannelClearComplete_guarded (selectionFirst : Bool) (s : State) :
    Guarded s (execChannelClearComplete selectionFirst s) := by
  unfold execChannelClearComplete
  repeat' split
  · exact .settled (afterClear_watchSame selectionFirst (endClear _ s))
  · exact .idle s
  · exact .idle s

theorem execBadRequest_guarded (s : State) : Guarded s (execBadRequest s) := by
  unfold execBadRequest
  split
  · exact .ite (.same rfl) (.idle s)
  · exact .idle s

/-! ## Every command -/

theorem exec_guarded (c : Instr) (s : State) : Guarded s (exec c s) := by
  cases c with
  | powerOn => exact .next fun _ => reset_hammerLegal
  | idle byte1 byte2 byte3 check => exact execIdle_guarded byte1 byte2 byte3 check s
  | read tag byte2 byte3 line check => exact execRead_guarded tag byte2 byte3 line check s
  | write tag flags byte3 line data check => exact execWrite_guarded tag flags byte3 line data check s
  | writeMasked tag flags byte3 line data mask check =>
    exact execWriteMasked_guarded tag flags byte3 line data mask check s
  | maint tag byte2 code pad args check => exact execMaint_guarded tag byte2 code pad args check s
  | arbiterGrant accept refresh => exact execArbiterGrant_guarded accept refresh s
  | demandReadDecode line damage => exact execDemandReadDecode_guarded line damage s
  | scrubReadDecode line damage => exact execScrubReadDecode_guarded line damage s
  | rmwReadDecode line damage => exact execRmwReadDecode_guarded line damage s
  | copyReadDecode line damage => exact execCopyReadDecode_guarded line damage s
  | demandWritePerformed line => exact execDemandWritePerformed_guarded line s
  | maskedWritePerformed line => exact execMaskedWritePerformed_guarded line s
  | writebackPerformed line => exact execWritebackPerformed_guarded line s
  | recordWritePerformed line => exact execRecordWritePerformed_guarded line s
  | copyWritePerformed line => exact execCopyWritePerformed_guarded line s
  | returnFrameSent => exact execReturnFrameSent_guarded s
  | rowHoldExpiry rank bank => exact execRowHoldExpiry_guarded rank bank s
  | refreshTimerExpiry rank => exact execRefreshTimerExpiry_guarded rank s
  | regionDue => exact execRegionDue_guarded s
  | patrolLineIssue => exact execPatrolLineIssue_guarded s
  | burstIssue => exact execBurstIssue_guarded s
  | quietExpiry => exact execQuietExpiry_guarded s
  | quietOverride => exact execQuietOverride_guarded s
  | decayEpoch => exact execDecayEpoch_guarded s
  | hammerWindowExpiry => exact execHammerWindowExpiry_guarded s
  | holdoffExpiry => exact execHoldoffExpiry_guarded s
  | readyAgeExpiry => exact execReadyAgeExpiry_guarded s
  | identify => exact .servedSame fun _ s => .refl s
  | readTime => exact .servedSame fun _ s => .refl s
  | setTime => exact .servedSame fun _ s => .refl s
  | setParam => exact .served fun args _ => doSetParam_hammerLegal args
  | readStats => exact .servedSame doReadStats_watchSame
  | statsClear => exact .servedSame fun _ s => .refl s
  | goOnline => exact .servedSame doGoOnline_watchSame
  | channelClear => exact execChannelClear_guarded s
  | channelClearComplete selectionFirst => exact execChannelClearComplete_guarded selectionFirst s
  | configureGeometry => exact .served fun args _ => doConfigureGeometry_hammerLegal args
  | regionLoad => exact .servedSettled doRegionLoad_watchSame
  | regionClear => exact .servedSame doRegionClear_watchSame
  | regionRead => exact .servedSame doRegionRead_watchSame
  | scrubEnable => exact .servedSettled doScrubEnable_watchSame
  | scrubDisable => exact .servedSettled doScrubDisable_watchSame
  | sweepNow => exact .servedSettled doSweepNow_watchSame
  | sweepHalt => exact .servedSettled doSweepHalt_watchSame
  | sweepResume => exact .servedSettled doSweepResume_watchSame
  | quietBegin => exact .servedSettled doQuietBegin_watchSame
  | quietEnd => exact .servedSettled doQuietEnd_watchSame
  | faultRead => exact .servedSame doFaultRead_watchSame
  | faultClear => exact .servedSame doFaultClear_watchSame
  | deviceRead => exact .servedSame doDeviceRead_watchSame
  | retireRow => exact .servedSame doRetireRow_watchSame
  | remapLoad => exact .servedSame doRemapLoad_watchSame
  | spareKill => exact .servedSame doSpareKill_watchSame
  | remapRead => exact .servedSame doRemapRead_watchSame
  | erase => exact .servedSame doErase_watchSame
  | unerase => exact .servedSame doUnerase_watchSame
  | reportSetup => exact .servedSame doReportSetup_watchSame
  | reportRelease => exact .servedSame doReportRelease_watchSame
  | reportRestart => exact .servedSame doReportRestart_watchSame
  | readCauses => exact .servedSame fun _ s => .refl s
  | causeSet => exact .servedSame doCauseSet_watchSame
  | maskSet => exact .servedSame doMaskSet_watchSame
  | maskClear => exact .servedSame doMaskClear_watchSame
  | badRequest => exact execBadRequest_guarded s
  | malformedFrame bytes => exact execMalformedFrame_guarded bytes s

/-- Settles O9: a tick moves no count, and every command keeps the tables below the threshold. -/
theorem stepsKeepHammerLegal : Obligations.StepsKeepHammerLegal := by
  intro s t hlegal h
  unfold step at h
  split at h
  · cases h
    exact (setNow_watchSame _ s).legal hlegal
  · rename_i c rest _
    obtain ⟨u, hu, hk⟩ := exec_guarded c { s with pending := rest }
    rw [hu] at h
    cases h
    exact hk hlegal

end Sys2Proof.Machine
end

section
/-! O25 and O45: the row opened by an access, and the place its counted activation takes in the rank's table (R34, R35,
R156 to R159). -/

namespace Sys2Proof.Machine

open Sys2Proof

/-! ## What a trigger leaves alone -/

/-- The counts of activations and of triggers stand. -/
structure CountsAside (s t : State) : Prop where
  activations : t.counters.activations = s.counters.activations
  counted : t.counters.hammerCounted = s.counters.hammerCounted
  triggers : t.counters.hammerTriggers = s.counters.hammerTriggers

theorem CountsAside.refl (s : State) : CountsAside s s := ⟨rfl, rfl, rfl⟩

theorem CountsAside.trans {a b c : State} (h : CountsAside a b) (k : CountsAside b c) : CountsAside a c :=
  ⟨k.activations.trans h.activations, k.counted.trans h.counted, k.triggers.trans h.triggers⟩

theorem raise_countsAside (c : Cause) (s : State) : CountsAside s (raise c s) := by
  rw [raise_eq]
  exact ⟨rfl, rfl, rfl⟩

theorem handRecord_countsAside (r : Record) (s : State) : CountsAside s (handRecord r s) := by
  by_cases h : RingOpen s
  · rw [handRecord_open r h]
    exact ⟨rfl, rfl, rfl⟩
  · rw [handRecord_closed r h]
    exact ⟨rfl, rfl, rfl⟩

theorem tsqInsert_countsAside (rank bank row : Nat) (neighbour : Bool) (s : State) :
    CountsAside s (tsqInsert rank bank row neighbour s) := by
  have hcount : CountsAside s (count .tsqDropped s) := ⟨rfl, rfl, rfl⟩
  unfold tsqInsert
  repeat' split
  · exact .refl s
  · exact ⟨rfl, rfl, rfl⟩
  · exact ⟨rfl, rfl, rfl⟩
  · exact hcount.trans (raise_countsAside _ _)

theorem handNeighbour_countsAside (rank bank : Nat) (row : Option Nat) (s : State) :
    CountsAside s (handNeighbour rank bank row s) := by
  have hcount : CountsAside s (count .hammerNeighbourJobs s) := ⟨rfl, rfl, rfl⟩
  unfold handNeighbour
  split
  · exact hcount.trans (tsqInsert_countsAside _ _ _ _ _)
  · exact .refl s

/-- A trigger counts no activation. -/
theorem trigger_activations (rank i : Nat) (e : HammerEntry) (requester : Option Requester) (s : State) :
    (trigger rank i e requester s).counters.activations = s.counters.activations ∧
      (trigger rank i e requester s).counters.hammerCounted = s.counters.hammerCounted := by
  have hhanded := (handNeighbour_countsAside rank e.bank (lowerNeighbour s rank e.bank e.row) s).trans
    (handNeighbour_countsAside rank e.bank (upperNeighbour s rank e.bank e.row) _)
  unfold trigger
  dsimp only
  split
  · rw [(handRecord_countsAside _ _).activations, (handRecord_countsAside _ _).counted]
    exact ⟨hhanded.activations, hhanded.counted⟩
  · exact ⟨hhanded.activations, hhanded.counted⟩

/-! ## A counted activation (R158, R159) -/

/-- An entry is written with its count, and triggers at the threshold. -/
theorem credit_eq (rank i : Nat) (e : HammerEntry) (requester : Requester) (s : State) :
    credit rank i e requester s = if e.count = s.params.hammerThreshold then
      trigger rank i e (some requester) (setHammer rank i e s) else setHammer rank i e s := rfl

theorem credit_activations (rank i : Nat) (e : HammerEntry) (requester : Requester) (s : State) :
    (credit rank i e requester s).counters.activations = s.counters.activations ∧
      (credit rank i e requester s).counters.hammerCounted = s.counters.hammerCounted := by
  rw [credit_eq]
  split
  · exact trigger_activations rank i e (some requester) (setHammer rank i e s)
  · exact ⟨rfl, rfl⟩

theorem countActivation_activations (rank bank row : Nat) (requester : Requester) (s : State) :
    (countActivation rank bank row requester s).counters.activations = s.counters.activations ∧
      (countActivation rank bank row requester s).counters.hammerCounted = s.counters.hammerCounted := by
  unfold countActivation
  repeat' split
  · exact credit_activations _ _ _ _ _
  · exact ⟨rfl, rfl⟩
  · exact credit_activations _ _ _ _ _
  · exact credit_activations _ _ _ _ (count .hammerReplacements s)
  · exact ⟨rfl, rfl⟩

theorem holdsPlace_iff {bank row : Nat} {place : Option HammerEntry} :
    holdsPlace bank row place = true ↔ ∃ e, place = some e ∧ e.bank = bank ∧ e.row = row := by
  cases place <;> simp [holdsPlace]

section

variable {s : State} {rank bank row : Nat} {requester : Requester}

/-- The row's entry is credited with one more: no other place holds the row (R156, R158). -/
theorem countActivation_of_held {i : Nat} {e : HammerEntry} (h : s.hammer.Below s.params.hammerThreshold)
    (he : hammerAt s rank i = some e) (hbank : e.bank = bank) (hrow : e.row = row) :
    countActivation rank bank row requester s =
      credit rank i { bank := bank, row := row, count := e.count + 1 } requester s := by
  obtain ⟨hlt, hi⟩ := List.getElem?_eq_some_iff.1 (hammerAt_eq_some.1 he)
  have hfind : (hammerTable s rank).findIdx? (holdsPlace bank row) = some i := by
    rw [List.findIdx?_eq_some_iff_getElem]
    refine ⟨hlt, holdsPlace_iff.2 ⟨e, hi, hbank, hrow⟩, fun j hj hheld => ?_⟩
    obtain ⟨f, hf, hfbank, hfrow⟩ := holdsPlace_iff.1 hheld
    refine below_apart h rank i j (Nat.ne_of_lt hj) hlt (hj.trans hlt) e (by simp [hi]) f (by simp [hf]) ?_
    rw [hbank, hrow, hfbank, hfrow]
  subst hbank hrow
  simp only [countActivation, hfind, he]

/-- No place holds a row that every entry differs from. -/
theorem findIdx?_holdsPlace_none
    (h : ∀ i < (hammerTable s rank).length, ∀ e, hammerAt s rank i = some e → (e.bank, e.row) ≠ (bank, row)) :
    (hammerTable s rank).findIdx? (holdsPlace bank row) = none := by
  rw [List.findIdx?_eq_none_iff]
  intro place hp
  obtain ⟨i, hi, rfl⟩ := List.getElem_of_mem hp
  rw [Bool.eq_false_iff]
  intro hheld
  obtain ⟨e, he, rfl, rfl⟩ := holdsPlace_iff.1 hheld
  exact h i hi e (hammerAt_eq_some.2 (by rw [List.getElem?_eq_getElem hi, he])) rfl

/-- A place within the table, as its element. -/
theorem hammerAt_eq_getElem {i : Nat} (hi : i < (hammerTable s rank).length) :
    hammerAt s rank i = (hammerTable s rank)[i] := by
  simp [hammerAt, hi]

/-- A new row takes the lowest free place with count 1 (R159). -/
theorem countActivation_of_free {i : Nat} (hfind : (hammerTable s rank).findIdx? (holdsPlace bank row) = none)
    (hi : i < (hammerTable s rank).length) (hfree : hammerAt s rank i = none)
    (hlowest : ∀ j < i, hammerAt s rank j ≠ none) :
    countActivation rank bank row requester s = credit rank i { bank := bank, row := row, count := 1 } requester s := by
  have hnone : (hammerTable s rank).findIdx? Option.isNone = some i := by
    rw [List.findIdx?_eq_some_iff_getElem]
    refine ⟨hi, ?_, fun j hj => ?_⟩
    · rw [← hammerAt_eq_getElem hi, hfree]
      rfl
    · rw [← hammerAt_eq_getElem (hj.trans hi), Option.isNone_iff_eq_none]
      exact hlowest j hj
  simp only [countActivation, hfind, hnone]

/-- A count that no later entry is below stays the smallest. -/
theorem smallestFrom_of_least {l : List (Option HammerEntry)} {n : Nat} {best : Nat × Nat}
    (h : ∀ e, some e ∈ l → best.2 ≤ e.count) : smallestFrom l n (some best) = some best := by
  induction l generalizing n with
  | nil => rfl
  | cons place l ih =>
    have hl := ih (n := n + 1) fun e he => h e (List.mem_cons_of_mem _ he)
    cases place with
    | none => exact hl
    | some e =>
      have he : ¬ e.count < best.2 := Nat.not_lt.2 (h e List.mem_cons_self)
      simp only [smallestFrom, he, if_false, hl]

/-- The first of the entries with the smallest count is found: those before it, and the best so far, are above it. -/
theorem smallestFrom_eq {l : List (Option HammerEntry)} {n i : Nat} {best : Option (Nat × Nat)} {e : HammerEntry}
    (he : l[i]? = some (some e)) (hbest : ∀ b, best = some b → e.count < b.2)
    (hleast : ∀ j f, l[j]? = some (some f) → e.count < f.count ∨ e.count = f.count ∧ i ≤ j) :
    smallestFrom l n best = some (n + i, e.count) := by
  induction l generalizing n i best with
  | nil => simp at he
  | cons place l ih =>
    cases i with
    | zero =>
      cases Option.some.inj he
      rw [Nat.add_zero]
      have hrest : smallestFrom l (n + 1) (some (n, e.count)) = some (n, e.count) := by
        refine smallestFrom_of_least fun f hf => ?_
        obtain ⟨j, hj⟩ := List.getElem?_of_mem hf
        have := hleast (j + 1) f hj
        omega
      cases best with
      | none => exact hrest
      | some b => simpa only [smallestFrom, hbest b rfl, if_true] using hrest
    | succ i =>
      have htail : ∀ j f, l[j]? = some (some f) → e.count < f.count ∨ e.count = f.count ∧ i ≤ j := fun j f hf => by
        have := hleast (j + 1) f hf
        omega
      have hrest : ∀ b, (∀ c, b = some c → e.count < c.2) → smallestFrom l (n + 1) b = some (n + (i + 1), e.count) :=
        fun b hb => by rw [ih (i := i) he hb htail, Nat.add_right_comm, Nat.add_assoc]
      cases place with
      | none => exact hrest best hbest
      | some f =>
        have hf : e.count < f.count := by
          have := hleast 0 f rfl
          omega
        cases best with
        | none => exact hrest _ fun c hc => by cases hc; exact hf
        | some b =>
          refine hrest _ fun c hc => ?_
          dsimp only at hc
          split at hc <;> cases hc
          · exact hf
          · exact hbest b rfl

/-- A new row takes the lowest entry of the smallest count with one more, when no place is free (R159). -/
theorem countActivation_of_replaced {i : Nat} {e : HammerEntry}
    (hfind : (hammerTable s rank).findIdx? (holdsPlace bank row) = none)
    (hfull : ∀ i < (hammerTable s rank).length, hammerAt s rank i ≠ none) (he : hammerAt s rank i = some e)
    (hleast : ∀ j f, hammerAt s rank j = some f → e.count < f.count ∨ e.count = f.count ∧ i ≤ j) :
    countActivation rank bank row requester s =
      credit rank i { bank := bank, row := row, count := e.count + 1 } requester (count .hammerReplacements s) := by
  have hnone : (hammerTable s rank).findIdx? Option.isNone = none := by
    rw [List.findIdx?_eq_none_iff]
    intro place hp
    obtain ⟨j, hj, rfl⟩ := List.getElem_of_mem hp
    rw [← hammerAt_eq_getElem hj, Option.isNone_eq_false_iff, Option.isSome_iff_ne_none]
    exact hfull j hj
  have hsmallest : smallestFrom (hammerTable s rank) 0 none = some (0 + i, e.count) :=
    smallestFrom_eq (hammerAt_eq_some.1 he) nofun fun j f hf => hleast j f (hammerAt_eq_some.2 hf)
  rw [Nat.zero_add] at hsmallest
  simp only [countActivation, hfind, hnone, hsmallest]

end

/-- Each of the four tables has 16 places (R156). -/
theorem hammerTable_length {s : State} (h : HammerLegal s) {rank : Nat} (hr : rank < 4) :
    (hammerTable s rank).length = 16 := by
  obtain ⟨-, hlength, htables⟩ := h
  have hlt : rank < s.hammer.tables.length := hlength.symm ▸ hr
  have hrow : hammerTable s rank = s.hammer.tables[rank] := by simp [hammerTable, hlt]
  rw [hrow]
  exact (htables _ (List.getElem_mem hlt)).1

/-- Settles O45: the row's place, the lowest free one or the lowest of the smallest count is the one credited. -/
theorem activationsAreCounted : Obligations.ActivationsAreCounted := by
  intro s rank bank row requester hlegal hrank t with_ put credited
  have hsize := hammerTable_length hlegal hrank
  obtain ⟨hlow, hbelow⟩ := hlegal
  refine ⟨fun i _ e he hbank hrow => ?_, fun hnew => ⟨fun i hi hfree hlowest => ?_, fun hfull i _ e he hleast => ?_⟩⟩
  · have ht : t = credit rank i _ requester s := countActivation_of_held hbelow he hbank hrow
    exact (apply_ite (Eq t) _ _ _).mp (ht.trans (credit_eq ..))
  · have hfind := findIdx?_holdsPlace_none (bank := bank) (row := row) (hsize ▸ hnew)
    have ht : t = credit rank i _ requester s := countActivation_of_free hfind (hsize ▸ hi) hfree hlowest
    rw [ht, credit_eq, if_neg (by dsimp only; omega)]
    rfl
  · have hfind := findIdx?_holdsPlace_none (bank := bank) (row := row) (hsize ▸ hnew)
    have hwithin : ∀ j f, hammerAt s rank j = some f → j < 16 := fun j f hf =>
      hsize ▸ (List.getElem?_eq_some_iff.1 (hammerAt_eq_some.1 hf)).1
    have ht : t = credit rank i _ requester (count .hammerReplacements s) :=
      countActivation_of_replaced hfind (hsize ▸ hfull) he fun j f hf => hleast j (hwithin j f hf) f hf
    exact (apply_ite (Eq t) _ _ _).mp (ht.trans (credit_eq ..))

/-! ## The open row (R34, R35, R157) -/

theorem openRow_of_hit {s : State} {rank bank row : Nat} (requester : Requester) {o : OpenRow}
    (ho : AMap.get? s.port.openRows (16 * rank + bank) = some o) (hrow : o.row = row) :
    openRow rank bank row requester s = s := by
  simp only [openRow, bankKey_eq, ho, hrow, if_true]

theorem openRow_of_miss {s : State} {rank bank row : Nat} (requester : Requester)
    (hmiss : ∀ o, AMap.get? s.port.openRows (16 * rank + bank) = some o → o.row ≠ row) :
    openRow rank bank row requester s = reportActivation rank bank row requester { s with
      port := { s.port with
        openRows := AMap.insert s.port.openRows (16 * rank + bank) { row := row, holdEnd := none } } } := by
  unfold openRow
  rw [bankKey_eq]
  split
  · rename_i o ho
    rw [if_neg (hmiss o ho)]
  · rfl

theorem reportActivation_of_counted {requester : Requester} (h : requester.counted = true) (rank bank row : Nat)
    (s : State) : reportActivation rank bank row requester s =
      countActivation rank bank row requester (count .hammerCounted (count .activations s)) := if_pos h

theorem reportActivation_of_uncounted {requester : Requester} (h : requester.counted = false) (rank bank row : Nat)
    (s : State) : reportActivation rank bank row requester s = count .activations s := if_neg (by simp [h])

/-- Every activation is counted once (R35). -/
theorem reportActivation_activations (rank bank row : Nat) (requester : Requester) (s : State) :
    (reportActivation rank bank row requester s).counters.activations = satAdd s.counters.activations 1 := by
  cases h : requester.counted
  · rw [reportActivation_of_uncounted h]
    rfl
  · rw [reportActivation_of_counted h, (countActivation_activations _ _ _ _ _).1]
    rfl

theorem reportActivation_openRows (rank bank row : Nat) (requester : Requester) (s : State) :
    (reportActivation rank bank row requester s).port.openRows = s.port.openRows := by
  obtain ⟨-, -, -, -, frame⟩ := reportActivation_watched rank bank row requester s
  rw [frame]

/-- The requesters that R157 lists. -/
theorem counted_of_listed {requester : Requester}
    (h : requester ∈ [.demandRead, .demandWrite, .maskedWrite, .writeBack, .recordWrite]) :
    requester.counted = true := by
  cases requester <;> simp_all [Requester.counted]

theorem uncounted_of_listed {requester : Requester}
    (h : requester ∈ [.patrolRead, .targetedRead, .copyRead, .copyWrite]) : requester.counted = false := by
  cases requester <;> simp_all [Requester.counted]

/-- Settles O25: a hit changes nothing, and a miss is one reported activation with the row open in the bank. -/
theorem openRowsAreActivatedOnce : Obligations.OpenRowsAreActivatedOnce := by
  intro rank bank row requester s t open_
  refine ⟨fun ⟨o, ho, hrow⟩ => openRow_of_hit requester ho hrow, fun hmiss => ?_⟩
  intro u
  have ht : t = _ := openRow_of_miss requester hmiss
  have hrows := reportActivation_openRows rank bank row requester { s with port := { s.port with
    openRows := AMap.insert s.port.openRows (16 * rank + bank) { row := row, holdEnd := none } } }
  have hactivations := reportActivation_activations rank bank row requester { s with port := { s.port with
    openRows := AMap.insert s.port.openRows (16 * rank + bank) { row := row, holdEnd := none } } }
  rw [← ht] at hrows hactivations
  refine ⟨fun hlisted => ?_, fun hlisted => ?_, hactivations, ?_, fun key hkey => ?_⟩
  · rw [ht, reportActivation_of_counted (counted_of_listed hlisted)]
    exact ⟨rfl, (countActivation_activations _ _ _ _ _).2⟩
  · rw [ht, reportActivation_of_uncounted (uncounted_of_listed hlisted)]
    rfl
  · rw [hrows, AMap.get_insert, if_pos rfl]
  · rw [hrows, AMap.get_insert, if_neg hkey]

end Sys2Proof.Machine
end

section
/-! O46: a trigger, its neighbours in the Targeted Scrub Queue, and its record (R92, R160 to R162, R176). -/

namespace Sys2Proof.Machine

open Sys2Proof

/-! ## The neighbours that qualify (R161) -/

/-- The rows a trigger hands on, the lower first (R161). -/
def neighbourRows (s : State) (rank bank row : Nat) : List Nat :=
  (lowerNeighbour s rank bank row).toList ++ (upperNeighbour s rank bank row).toList

theorem holdsRow_iff (v : Slot) :
    v.holdsRow = true ↔ (∃ t, v = .reserved t) ∨ (∃ t c, v = .copying t c) ∨ ∃ l, v = .active l := by
  cases v <;> simp [Slot.holdsRow]

/-- A row qualifies when it is visible, or a spare row whose slot holds a logical row (R161). -/
theorem qualifies_iff (s : State) (rank bank x : Nat) : qualifies s rank bank x = true ↔
    x < s.port.geom.visible ∨ x < s.port.geom.rows ∧
      ((∃ t, slotAt s rank bank (x - s.port.geom.visible) = .reserved t) ∨
        (∃ t c, slotAt s rank bank (x - s.port.geom.visible) = .copying t c) ∨
        ∃ l, slotAt s rank bank (x - s.port.geom.visible) = .active l) := by
  have hvisible : s.port.geom.visible ≤ s.port.geom.rows := Nat.sub_le _ _
  rw [← holdsRow_iff, qualifies]
  simp only [Bool.and_eq_true, Bool.or_eq_true, decide_eq_true_eq]
  constructor
  · rintro ⟨hrows, hlt | hholds⟩
    · exact .inl hlt
    · exact .inr ⟨hrows, hholds⟩
  · rintro (hlt | ⟨hrows, hholds⟩)
    · exact ⟨hlt.trans_le hvisible, .inl hlt⟩
    · exact ⟨hrows, .inr hholds⟩

section

variable {s : State} {rank bank row : Nat}

theorem lowerNeighbour_eq_some {x : Nat} :
    lowerNeighbour s rank bank row = some x ↔ x + 1 = row ∧ qualifies s rank bank x = true := by
  unfold lowerNeighbour
  cases row with
  | zero => simp
  | succ n =>
    simp only [Nat.zero_lt_succ, true_and, Nat.add_sub_cancel, Option.ite_none_right_eq_some, Option.some.injEq,
      Nat.succ.injEq]
    exact ⟨fun ⟨h, hx⟩ => ⟨hx.symm, hx ▸ h⟩, fun ⟨hx, h⟩ => ⟨hx ▸ h, hx.symm⟩⟩

theorem upperNeighbour_eq_some {x : Nat} :
    upperNeighbour s rank bank row = some x ↔ x = row + 1 ∧ qualifies s rank bank x = true := by
  simp only [upperNeighbour, Option.ite_none_right_eq_some, Option.some.injEq]
  exact ⟨fun ⟨h, hx⟩ => ⟨hx.symm, hx ▸ h⟩, fun ⟨hx, h⟩ => ⟨hx ▸ h, hx.symm⟩⟩

theorem mem_neighbourRows {x : Nat} : x ∈ neighbourRows s rank bank row ↔
    (x + 1 = row ∨ x = row + 1) ∧ qualifies s rank bank x = true := by
  simp only [neighbourRows, List.mem_append, Option.mem_toList, lowerNeighbour_eq_some, upperNeighbour_eq_some,
    or_and_right]

theorem neighbourRows_rising : (neighbourRows s rank bank row).Pairwise (· < ·) := by
  refine List.pairwise_append.2 ⟨?_, ?_, fun a ha b hb => ?_⟩
  · cases lowerNeighbour s rank bank row <;> simp
  · cases upperNeighbour s rank bank row <;> simp
  · obtain ⟨hlower, -⟩ := lowerNeighbour_eq_some.1 (Option.mem_toList.1 ha)
    obtain ⟨hupper, -⟩ := upperNeighbour_eq_some.1 (Option.mem_toList.1 hb)
    omega

theorem neighbourRows_length : (neighbourRows s rank bank row).length ≤ 2 := by
  unfold neighbourRows
  cases lowerNeighbour s rank bank row <;> cases upperNeighbour s rank bank row <;> simp

theorem neighbourRows_find?_lower :
    (neighbourRows s rank bank row).find? (· < row) = lowerNeighbour s rank bank row := by
  have hupper : (upperNeighbour s rank bank row).toList.find? (· < row) = none :=
    List.find?_eq_none.2 fun x hx => by
      obtain ⟨rfl, -⟩ := upperNeighbour_eq_some.1 (Option.mem_toList.1 hx)
      simp
  rw [neighbourRows, List.find?_append, hupper, Option.or_none]
  cases hl : lowerNeighbour s rank bank row with
  | none => rfl
  | some x =>
    obtain ⟨rfl, -⟩ := lowerNeighbour_eq_some.1 hl
    simp

theorem neighbourRows_find?_upper :
    (neighbourRows s rank bank row).find? (row < ·) = upperNeighbour s rank bank row := by
  have hlower : (lowerNeighbour s rank bank row).toList.find? (row < ·) = none :=
    List.find?_eq_none.2 fun x hx => by
      obtain ⟨rfl, -⟩ := lowerNeighbour_eq_some.1 (Option.mem_toList.1 hx)
      simp
  rw [neighbourRows, List.find?_append, hlower, Option.none_or]
  cases hu : upperNeighbour s rank bank row with
  | none => rfl
  | some x =>
    obtain ⟨rfl, -⟩ := upperNeighbour_eq_some.1 hu
    simp

end

/-! ## The rows handed on (R92, R161) -/

/-- One neighbour counted and handed to the Targeted Scrub Queue (R161). -/
def handRow (rank bank : Nat) (s : State) (row : Nat) : State :=
  tsqInsert rank bank row true (count .hammerNeighbourJobs s)

theorem handNeighbour_eq (rank bank : Nat) (row : Option Nat) (s : State) :
    handNeighbour rank bank row s = row.toList.foldl (handRow rank bank) s := by
  cases row <;> rfl

/-- Rows handed on move the queue of targeted jobs, causes and counters: the port, the tables, the records and the count of
triggers stand. -/
structure HandedAside (s t : State) : Prop where
  watched : Watched s t
  hammer : t.hammer = s.hammer
  port : t.port = s.port
  produced : t.report.produced = s.report.produced
  triggers : t.counters.hammerTriggers = s.counters.hammerTriggers

theorem HandedAside.trans {a b c : State} (h : HandedAside a b) (k : HandedAside b c) : HandedAside a c :=
  ⟨h.watched.trans k.watched, k.hammer.trans h.hammer, k.port.trans h.port, k.produced.trans h.produced,
    k.triggers.trans h.triggers⟩

theorem tsqInsert_port (rank bank row : Nat) (neighbour : Bool) (s : State) :
    (tsqInsert rank bank row neighbour s).port = s.port ∧
      (tsqInsert rank bank row neighbour s).report.produced = s.report.produced := by
  unfold tsqInsert
  repeat' split
  · exact ⟨rfl, rfl⟩
  · exact ⟨rfl, rfl⟩
  · exact ⟨rfl, rfl⟩
  · rw [raise_eq]
    exact ⟨rfl, rfl⟩

theorem handRow_aside (rank bank : Nat) (s : State) (row : Nat) : HandedAside s (handRow rank bank s row) := by
  obtain ⟨hwatched, hhammer⟩ := tsqInsert_watched rank bank row true (count .hammerNeighbourJobs s)
  obtain ⟨hport, hproduced⟩ := tsqInsert_port rank bank row true (count .hammerNeighbourJobs s)
  exact ⟨(Noted.count _ s).watched.trans hwatched, hhammer, hport, hproduced,
    (tsqInsert_countsAside rank bank row true (count .hammerNeighbourJobs s)).triggers⟩

theorem foldl_handRow_aside (rank bank : Nat) (rows : List Nat) (s : State) :
    HandedAside s (rows.foldl (handRow rank bank) s) := by
  induction rows generalizing s with
  | nil => exact ⟨.refl s, rfl, rfl, rfl, rfl⟩
  | cons row rows ih => exact (handRow_aside rank bank s row).trans (ih _)

theorem Watched.maint_eq {s t : State} (h : Watched s t) : t.maint = s.maint := by
  obtain ⟨-, -, -, -, e⟩ := h
  rw [e]

/-- In a clear the queue takes nothing (R97). -/
theorem foldl_handRow_clearing {rank bank : Nat} (rows : List Nat) {s : State} (h : s.maint.clearing = true) :
    (rows.foldl (handRow rank bank) s).patrol = s.patrol := by
  induction rows generalizing s with
  | nil => rfl
  | cons row rows ih =>
    have hrow : handRow rank bank s row = count .hammerNeighbourJobs s := tsqInsert_clearing _ h
    rw [List.foldl_cons, hrow]
    exact ih h

/-- With room in the queue a row handed on has a neighbour job then, and nothing else is new (R92). -/
theorem handRow_tsq {rank bank : Nat} {s : State} (row : Nat) (hc : s.maint.clearing = false)
    (hroom : s.patrol.tsq.length < 16) :
    let t := handRow rank bank s row
    t.patrol.tsq.length ≤ s.patrol.tsq.length + 1 ∧
    (∀ p, p ∈ t.patrol.tsq.map TsqEntry.place ↔ p ∈ s.patrol.tsq.map TsqEntry.place ∨ p = (rank, bank, row)) ∧
    ∀ f ∈ t.patrol.tsq, f ∈ s.patrol.tsq ∨ f.neighbour = true ∧ f.place = (rank, bank, row) := by
  intro t
  cases hfind : s.patrol.tsq.find? (TsqEntry.names rank bank row) with
  | none =>
    have hnew : ∀ e ∈ s.patrol.tsq, e.place ≠ (rank, bank, row) := fun e he => by
      simpa [names_eq] using List.find?_eq_none.1 hfind e he
    have ht : t = _ := tsqInsert_queued (s := count .hammerNeighbourJobs s) true hc hnew hroom
    rw [ht]
    refine ⟨by simp, fun p => by simp [TsqEntry.place], fun f hf => ?_⟩
    rcases List.mem_append.1 hf with hold | hf
    · exact .inl hold
    · rw [List.mem_singleton.1 hf]
      exact .inr ⟨rfl, rfl⟩
  | some e =>
    have hplace : e.place = (rank, bank, row) := by simpa [names_eq] using List.find?_some hfind
    have hmem : e ∈ s.patrol.tsq := List.mem_of_find?_eq_some hfind
    have ht : t.patrol.tsq = replacedJob { e with recheck := e.recheck || !true, neighbour := e.neighbour || true }
        s.patrol.tsq := by
      simp only [t, handRow, tsqInsert, count_maint, count_patrol, hc, hfind, setTsq_eq]
      rfl
    rw [ht, replacedJob_places]
    refine ⟨by simp [replacedJob], fun p => ⟨.inl, ?_⟩, fun f hf => ?_⟩
    · rintro (hp | rfl)
      · exact hp
      · exact List.mem_map.2 ⟨e, hmem, hplace⟩
    · obtain ⟨g, hg, rfl⟩ := List.mem_map.1 hf
      split
      · exact .inr ⟨Bool.or_true _, hplace⟩
      · exact .inl hg

/-- With room for them all, the rows handed on have neighbour jobs then, and nothing else is new (R92). -/
theorem foldl_handRow_tsq {rank bank : Nat} (rows : List Nat) {s : State} (hc : s.maint.clearing = false)
    (hroom : s.patrol.tsq.length + rows.length ≤ 16) :
    let t := rows.foldl (handRow rank bank) s
    (∀ p, p ∈ t.patrol.tsq.map TsqEntry.place ↔
      p ∈ s.patrol.tsq.map TsqEntry.place ∨ ∃ x ∈ rows, p = (rank, bank, x)) ∧
    ∀ f ∈ t.patrol.tsq, f ∈ s.patrol.tsq ∨ f.neighbour = true ∧ ∃ x ∈ rows, f.place = (rank, bank, x) := by
  induction rows generalizing s with
  | nil => simp
  | cons row rows ih =>
    rw [List.length_cons] at hroom
    obtain ⟨hlength, hplaces, hentries⟩ := handRow_tsq (rank := rank) (bank := bank) row hc (by omega)
    have hclear : (handRow rank bank s row).maint.clearing = false := by
      rw [(handRow_aside rank bank s row).watched.maint_eq, hc]
    obtain ⟨hrest, hrestEntries⟩ := ih hclear (by omega)
    refine ⟨fun p => ?_, fun f hf => ?_⟩
    · rw [List.foldl_cons, hrest, hplaces, List.exists_mem_cons_iff, or_assoc]
    · rw [List.exists_mem_cons_iff]
      rcases hrestEntries f hf with hf | ⟨hn, hx⟩
      · exact (hentries f hf).imp_right fun ⟨hn, hp⟩ => ⟨hn, .inl hp⟩
      · exact .inr ⟨hn, .inr hx⟩

/-! ## The trigger (R160, R162) -/

/-- The state of a trigger before its record: the neighbours handed on, the count back at 0, the trigger counted. -/
def triggered (rank i : Nat) (e : HammerEntry) (s : State) : State :=
  count .hammerTriggers (setHammer rank i { e with count := 0 }
    ((neighbourRows s rank e.bank e.row).foldl (handRow rank e.bank) s))

theorem triggered_eq (rank i : Nat) (e : HammerEntry) (s : State) :
    let u := (neighbourRows s rank e.bank e.row).foldl (handRow rank e.bank) s
    triggered rank i e s = { u with
      hammer := { s.hammer with
        tables := s.hammer.tables.set rank ((hammerTable s rank).set i (some { e with count := 0 })) }
      counters := { u.counters with hammerTriggers := satAdd s.counters.hammerTriggers 1 } } := by
  intro u
  have haside := foldl_handRow_aside rank e.bank (neighbourRows s rank e.bank e.row) s
  rw [← haside.triggers, ← haside.hammer]
  have htable : hammerTable s rank = hammerTable u rank := by rw [hammerTable, hammerTable, haside.hammer]
  rw [htable]
  rfl

/-- The record of a trigger is that of the state before it: nothing it reads has moved (R162). -/
theorem hammerRecord_triggered (rank i : Nat) (e : HammerEntry) (requester : Option Requester) (lower upper : Option Nat)
    (s : State) : hammerRecord rank i e requester lower upper (triggered rank i e s) =
      hammerRecord rank i e requester lower upper s := by
  obtain ⟨-, -, -, -, frame⟩ := (foldl_handRow_aside rank e.bank (neighbourRows s rank e.bank e.row) s).watched
  rw [triggered, frame]
  rfl

theorem trigger_eq (rank i : Nat) (e : HammerEntry) (requester : Option Requester) (s : State) :
    trigger rank i e requester s = if s.params.hammerRecords = 1 then
      handRecord (hammerRecord rank i e requester (lowerNeighbour s rank e.bank e.row)
        (upperNeighbour s rank e.bank e.row) s) (triggered rank i e s)
    else triggered rank i e s := by
  have hhanded : handNeighbour rank e.bank (upperNeighbour s rank e.bank e.row)
      (handNeighbour rank e.bank (lowerNeighbour s rank e.bank e.row) s) =
        (neighbourRows s rank e.bank e.row).foldl (handRow rank e.bank) s := by
    rw [handNeighbour_eq, handNeighbour_eq, neighbourRows, List.foldl_append]
  have hparams : (triggered rank i e s).params = s.params := by
    obtain ⟨-, -, -, -, frame⟩ := (foldl_handRow_aside rank e.bank (neighbourRows s rank e.bank e.row) s).watched
    rw [triggered, frame]
    rfl
  rw [← hammerRecord_triggered, ← hparams, trigger, hhanded]
  rfl

/-- The queue after a trigger is that of the rows handed on: the record moves no job. -/
theorem trigger_patrol (rank i : Nat) (e : HammerEntry) (requester : Option Requester) (s : State) :
    (trigger rank i e requester s).patrol =
      ((neighbourRows s rank e.bank e.row).foldl (handRow rank e.bank) s).patrol := by
  rw [trigger_eq]
  split
  · exact handRecord_patrol _ _
  · rfl

/-- Settles O46: a trigger is the rows of neighbourRows handed on, its entry returned to 0, one count, and its record. -/
theorem triggersScrubTheNeighbours : Obligations.TriggersScrubTheNeighbours := by
  intro s rank i e requester worth t place handed first code
  have hworth : ∀ x, qualifies s rank e.bank x = true ↔ worth x := qualifies_iff s rank e.bank
  have hmem : ∀ x, x ∈ neighbourRows s rank e.bank e.row ↔ (x + 1 = e.row ∨ x = e.row + 1) ∧ worth x := fun x => by
    rw [mem_neighbourRows, hworth]
  have haside := foldl_handRow_aside rank e.bank (neighbourRows s rank e.bank e.row) s
  have hcode : code = requesterCode requester := by
    rcases requester with _ | r
    · rfl
    · cases r <;> rfl
  refine ⟨⟨neighbourRows s rank e.bank e.row, hmem, neighbourRows_rising, ?_⟩, fun hoff => ?_, fun hc => ?_,
    fun hc hroom => ?_⟩
  · intro u v
    have hv : v = triggered rank i e s := (triggered_eq rank i e s).symm
    rw [neighbourRows_find?_lower, neighbourRows_find?_upper, hv, hcode]
    exact trigger_eq rank i e requester s
  · have ht : t = triggered rank i e s := (trigger_eq rank i e requester s).trans (if_neg hoff)
    rw [ht]
    exact ⟨haside.produced, haside.port⟩
  · exact (trigger_patrol rank i e requester s).trans (foldl_handRow_clearing _ hc)
  · have hlength := neighbourRows_length (s := s) (rank := rank) (bank := e.bank) (row := e.row)
    obtain ⟨hplaces, hentries⟩ :=
      foldl_handRow_tsq (rank := rank) (bank := e.bank) (neighbourRows s rank e.bank e.row) hc (by omega)
    rw [show t.patrol = _ from trigger_patrol rank i e requester s]
    refine ⟨fun x => ?_, fun f hf => ?_⟩
    · rw [hplaces, ← hmem]
      simp [place]
    · refine (hentries f hf).imp_right fun ⟨hn, x, hx, hp⟩ => ⟨hn, x, hp, (hmem x).1 hx⟩

end Sys2Proof.Machine
end

section
/-! What keeps the report ring's counts and its record write queue in order (R168, R170 to R173): the frames, the accesses
performed, the reads decoded and the requests of the blocks, one lemma per operation. -/

namespace Sys2Proof.Machine

open Sys2Proof

/-! ## The relation -/

/-- What every command keeps of the report ring: its counts and queue stay in order, and the ring holds what is placed in
it. -/
def RecordsKept (s t : State) : Prop := RecordsInOrder s → RecordsInOrder t

theorem RecordsKept.refl (s : State) : RecordsKept s s := id

theorem RecordsKept.trans {a b c : State} (h : RecordsKept a b) (k : RecordsKept b c) : RecordsKept a c := k ∘ h

theorem RecordsKept.ite {p : Prop} [Decidable p] {s a b : State} (h : RecordsKept s a) (k : RecordsKept s b) :
    RecordsKept s (if p then a else b) := by split <;> assumption

/-- An operation that leaves the Report Unit alone. -/
theorem RecordsKept.aside {s t : State} (h : t.report = s.report) : RecordsKept s t := fun hs => by
  rwa [RecordsInOrder, h]

theorem RecordsKept.port (s : State) (p : Port) : RecordsKept s { s with port := p } := id

theorem RecordsKept.fault (s : State) (f : FaultTable) : RecordsKept s { s with fault := f } := id

/-! ## The effects named once -/

theorem Report.Later.recordsKept {s t : State} (h : s.report.Later t.report) : RecordsKept s t := by
  obtain ⟨-, -, -, -, -, hkept⟩ := h
  exact fun ⟨horder, hfits⟩ => hkept horder hfits

/-- Flags and timers are no matter of the ring's counts and its queue. -/
theorem Report.Flagged.recordsKept {s t : State} (h : s.report.Flagged t.report) : RecordsKept s t := h.later.recordsKept

theorem Noted.recordsKept {s t : State} (h : Noted s t) : RecordsKept s t := by
  obtain ⟨-, -, hlater, -⟩ := h
  exact hlater.recordsKept

theorem Alerted.recordsKept {s t : State} (h : Alerted s t) : RecordsKept s t := h.noted.recordsKept

theorem Watched.recordsKept {s t : State} (h : Watched s t) : RecordsKept s t := by
  obtain ⟨-, -, hlater, -⟩ := h
  exact hlater.recordsKept

theorem Internal.recordsKept {s t : State} (h : Internal s t) : RecordsKept s t := by
  obtain ⟨-, -, hlater, -⟩ := h
  exact hlater.recordsKept

theorem Settled.recordsKept {s t : State} (h : Settled s t) : RecordsKept s t := by
  obtain ⟨-, -, hlater, -⟩ := h
  exact hlater.recordsKept

theorem settle_recordsKept (s : State) : RecordsKept s (settle s) := (settle_settled s).recordsKept

/-- Times kept move, and no count of the ring does (R196). -/
theorem setNow_recordsKept (t : FineTime) (s : State) : RecordsKept s (setNow t s) := Report.Flagged.recordsKept rfl

theorem arrive_recordsKept (t : FineTime) (s : State) : RecordsKept s (arrive t s) :=
  .ite (setNow_recordsKept t s) (.refl s)

/-! ## Frames and the DRAM Port -/

theorem discardFrame_recordsKept (s : State) : RecordsKept s (discardFrame s) :=
  ((Noted.count _ s).trans (raise_alerted _ _).noted).recordsKept

theorem reviewDrain_report (s : State) : (reviewDrain s).report = s.report := by
  rw [reviewDrain_eq]

theorem wbCancel_report (line : Nat) (s : State) : (wbCancel line s).report = s.report := by
  unfold wbCancel wbRemove
  repeat' split
  all_goals rfl

theorem portRead_recordsKept (tag line : Nat) (s : State) : RecordsKept s (portRead tag line s) := by
  unfold portRead takeRead
  repeat' split
  all_goals exact .aside rfl

/-- The record of a failed lock check is handed on as every other (R65). -/
theorem failLock_recordsKept (source : Source) (tag region line : Nat) (s : State) :
    RecordsKept s (failLock source tag region line s) :=
  ((handRecord_noted _ (handReturn _ s)).trans ((raise_alerted _ _).noted.trans (.count _ _))).recordsKept

theorem takeWrite_recordsKept (tag line : Nat) (data : Data) (s : State) :
    RecordsKept s (takeWrite tag line data s) :=
  .aside ((reviewDrain_report _).trans (wbCancel_report line s))

theorem takeMasked_recordsKept (tag line : Nat) (data : Data) (mask : BitVec 64) (s : State) :
    RecordsKept s (takeMasked tag line data mask s) := by
  unfold takeMasked
  split
  · exact .aside ((reviewDrain_report _).trans (wbCancel_report line _))
  · exact .aside (reviewDrain_report _)

theorem testMask_recordsKept (tag line : Nat) (data : Data) (mask : BitVec 64) (s : State) :
    RecordsKept s (testMask tag line data mask s) :=
  .ite (.aside rfl) (.ite (takeWrite_recordsKept tag line data s) (takeMasked_recordsKept tag line data mask s))

theorem portWrite_recordsKept (source : Source) (tag line : Nat) (permit : Bool) {passed : State → State}
    (hp : ∀ s, RecordsKept s (passed s)) (s : State) :
    RecordsKept s (portWrite source tag line permit passed s) := by
  unfold portWrite
  repeat' split
  · exact .aside rfl
  · exact failLock_recordsKept _ _ _ _ s
  · exact hp s

theorem frameLeft_recordsKept (f : ReturnFrame) (rest : List ReturnFrame) (s : State) :
    RecordsKept s (frameLeft f rest s) := by
  unfold frameLeft releaseTag
  split <;> exact .aside rfl

/-! ## Grants -/

/-- The record of a trigger is handed on at the activation (R157, R162). -/
theorem openRow_recordsKept (rank bank row : Nat) (requester : Requester) (s : State) :
    RecordsKept s (openRow rank bank row requester s) := by
  obtain ⟨m, -, hwatched, -⟩ := openRow_spec rank bank row requester s
  exact hwatched.recordsKept

theorem openDouble_recordsKept (rank bank : Nat) (double : Option Nat) (requester : Requester) (s : State) :
    RecordsKept s (openDouble rank bank double requester s) := by
  cases double with
  | none => exact .refl s
  | some spare => exact openRow_recordsKept rank bank spare requester (count .writesDoubled s)

theorem grant_recordsKept (w : Winner) (s : State) : RecordsKept s (grant w s) := by
  cases w with
  | access a cls passes =>
    show RecordsKept s (grantAccess a cls passes s)
    rw [grantAccess_eq]
    exact (openRow_recordsKept _ _ _ _ (countGrant cls passes (markedGrant s a))).trans
      (openDouble_recordsKept _ _ _ _ _)
  | refresh rank => exact .aside rfl

/-! ## Accesses performed -/

theorem finishAccess_report (a : Access) (s : State) : (finishAccess a s).report = s.report := by
  obtain ⟨m, -, e⟩ := finishAccess_spec a s
  rw [e]

theorem written_report (a : Access) (data : Data) (form : Form) (s : State) :
    (finishAccess a (writeLine a data form s)).report = s.report := by
  rw [finishAccess_writeLine]
  exact finishAccess_report a s

theorem handDemandReturn_report (tag : Nat) (f : ReturnFrame) (s : State) :
    (handDemandReturn tag f s).report = s.report := by
  unfold handDemandReturn
  split <;> rfl

theorem answeredWrite_recordsKept (a : Access) (tag : Nat) (data : Data) (form : Form) (status : AckStatus)
    (s : State) : RecordsKept s (answeredWrite a tag data form status s) :=
  .aside ((handDemandReturn_report _ _ _).trans ((reviewDrain_report _).trans (written_report a data form s)))

theorem entryWritten_recordsKept (a : Access) (e : WbEntry) (s : State) : RecordsKept s (entryWritten a e s) :=
  .aside (written_report a e.data e.kind.form s)

/-- A record performed leaves the queue once no older one stands before it (R171). -/
theorem recordWritten_recordsKept (a : Access) (n : Word32) (data : Data) (s : State) :
    RecordsKept s (recordWritten a n data s) :=
  (RecordsKept.aside (written_report a data .fresh s)).trans (recordPerformed_noted n _).recordsKept

theorem spareWritten_recordsKept (a : Access) (data : Data) (form : Form) (s : State) :
    RecordsKept s (spareWritten a data form s) :=
  (RecordsKept.aside (written_report a data form s)).trans ((Internal.count _ _).trans (copyWritten_inner _)).recordsKept

/-! ## Reads decoded -/

theorem handEvent_recordsKept (ev : Option FaultEvent) (s : State) : RecordsKept s (handEvent ev s) :=
  (handEvent_inner ev s).recordsKept

theorem handDecoded_recordsKept (line : Nat) (d : Decoded) (policy : Policy) (s : State) :
    RecordsKept s (handDecoded line d policy s) := by
  unfold handDecoded handWriteback
  repeat' split
  all_goals exact .aside rfl

theorem countSweepEvent_recordsKept (ev : Option FaultEvent) (s : State) : RecordsKept s (countSweepEvent ev s) := by
  unfold countSweepEvent
  split <;> exact .aside rfl

theorem finishAccess_recordsKept (a : Access) (s : State) : RecordsKept s (finishAccess a s) :=
  .aside (finishAccess_report a s)

theorem demandDecoded_recordsKept (a : Access) (tag : Nat) (d : Decoded) (s : State) :
    RecordsKept s (demandDecoded a tag d s) :=
  (RecordsKept.aside ((handDemandReturn_report _ _ _).trans (finishAccess_report a s))).trans
    ((handEvent_recordsKept _ _).trans (handDecoded_recordsKept _ _ _ _))

theorem patrolDecoded_recordsKept (a : Access) (owned : Bool) (d : Decoded) (s : State) :
    RecordsKept s (patrolDecoded a owned d s) :=
  ((finishAccess_recordsKept a s).trans (handEvent_recordsKept _ _)).trans
    ((RecordsKept.ite (countSweepEvent_recordsKept _ _) (.refl _)).trans
      ((handDecoded_recordsKept _ _ _ _).trans (.ite (.aside rfl) (.refl _))))

theorem targetedDecoded_recordsKept (a : Access) (d : Decoded) (s : State) : RecordsKept s (targetedDecoded a d s) :=
  ((finishAccess_recordsKept a s).trans (handEvent_recordsKept _ _)).trans
    (.ite (handDecoded_recordsKept _ _ _ _) (.refl _))

theorem mergeUnit_recordsKept (a : Access) (tag : Nat) (data : Data) (mask : BitVec 64) (d : Decoded) (s : State) :
    RecordsKept s (mergeUnit a tag data mask d s) := by
  obtain ⟨-, e⟩ := mergeUnit_spec a tag data mask d s
  rw [e]
  exact .aside rfl

theorem copyDecoded_recordsKept (a : Access) (d : Decoded) (s : State) : RecordsKept s (copyDecoded a d s) :=
  ((finishAccess_recordsKept a s).trans (.port _ _)).trans
    ((countCopied_inner _ _).trans (handEvent_inner _ _)).recordsKept

/-! ## The clear (R198) -/

/-- A clear clears the causes and aborts the jobs, and no record leaves the ring (R181, R198). -/
theorem beginClear_recordsKept (s : State) : RecordsKept s (beginClear s) := by
  have hcleared : RecordsKept s (clearedState s) := Report.Flagged.recordsKept rfl
  have habort := Internal.foldl (fun s j => abortJob j s) (fun s j => abortJob_inner j s) s.repair.jobs (clearedState s)
  rw [beginClear_eq]
  exact (hcleared.trans habort.recordsKept).trans (.aside rfl)

/-! ## The ring set up, released and restarted -/

/-- A ring whose counts are 0 and whose queue is empty is in order. -/
theorem Report.inOrder_empty {r : Report} (hq : r.queue = []) (hp : r.produced = 0) (hw : r.written = 0) :
    r.InOrder := by
  rw [InOrder, hq, hp, hw]
  exact ⟨Nat.zero_le _, rfl, rfl, nofun⟩

/-- A ring newly set up at an allowed size is in order and empty (R168). -/
theorem setupRing_inOrder {sizeExp : Nat} (h6 : 6 ≤ sizeExp) (h16 : sizeExp ≤ 16) (base : Nat) (s : State) :
    RecordsInOrder (setupRing base sizeExp s) := by
  refine ⟨Report.inOrder_empty rfl rfl rfl, fun _ => ⟨h6, h16, Nat.zero_le _, ?_⟩⟩
  change ((0 : Word32) - 0).toNat ≤ 2 ^ sizeExp
  simp

/-- Records released between C and W leave room, and none unwritten is among them (R173). -/
theorem Report.Fits.release {r : Report} (hf : r.Fits) (ho : r.InOrder) {c : Word32}
    (hc : c - r.consumed ≤ r.written - r.consumed) : { r with consumed := c }.Fits := by
  intro hset
  obtain ⟨h6, h16, hqueue, hsize⟩ := hf hset
  obtain ⟨hlength, hproduced, -, -⟩ := ho
  refine ⟨h6, h16, ?_, ?_⟩
  all_goals
    dsimp only
    generalize r.queue.length = n at *
    generalize 2 ^ r.sizeExp = size at *
    simp only [Config.recordCapacity] at hlength
    rw [hproduced] at hqueue hsize ⊢
    bv_omega

/-- A restarted ring has placed one record more, for which it had room (R174). -/
theorem restartRing_recordsKept {s : State} (hroom : (s.report.produced - s.report.consumed).toNat ≠ s.ringSize)
    (hqueue : (s.report.produced - s.report.written).toNat < 8) : RecordsKept s (restartRing s) := by
  intro ⟨horder, hfits⟩
  have hplaced := placeRecord_noted (recordsLostRecord s) { s with report := { s.report with overrun := false } } hqueue
    fun hset => by
      obtain ⟨-, -, -, hsize⟩ := hfits hset
      exact lt_of_le_of_ne hsize hroom
  exact hplaced.recordsKept ⟨horder, hfits⟩

/-! ## The requests -/

section

variable (args : List Word32) (s : State)

theorem fitRing_recordsKept : RecordsKept s (fitRing s) := by
  rw [fitRing_eq]
  split
  · exact fun _ => ⟨Report.inOrder_empty rfl rfl rfl, nofun⟩
  · exact .refl s

theorem doConfigureGeometry_recordsKept : RecordsKept s (doConfigureGeometry args s).state := by
  unfold doConfigureGeometry
  repeat' split
  · exact .refl s
  · exact .refl s
  · exact .refl s
  · exact fitRing_recordsKept (fitted (geometryOf args) s)

theorem doReportSetup_recordsKept : RecordsKept s (doReportSetup args s).state := by
  unfold doReportSetup
  dsimp only
  repeat' split
  · exact .refl s
  · exact .refl s
  · exact .refl s
  · rename_i hsize _
    simp only [not_or, Nat.not_lt] at hsize
    obtain ⟨h6, h16, -⟩ := hsize
    exact fun _ => setupRing_inOrder h6 h16 _ s

theorem doReportRelease_recordsKept : RecordsKept s (doReportRelease args s).state := by
  unfold doReportRelease
  dsimp only
  repeat' split
  · exact .refl s
  · exact .refl s
  · rename_i hc
    exact fun ⟨horder, hfits⟩ => ⟨horder, hfits.release horder (BitVec.not_lt.1 hc)⟩

theorem doReportRestart_recordsKept : RecordsKept s (doReportRestart args s).state := by
  unfold doReportRestart
  repeat' split
  · exact .refl s
  · exact .refl s
  · exact .refl s
  · rename_i hfull
    simp only [not_or, Nat.not_le] at hfull
    exact restartRing_recordsKept hfull.1 hfull.2

theorem doCauseSet_recordsKept : RecordsKept s (doCauseSet args s).state := by
  unfold doCauseSet
  split
  · exact .refl s
  · exact (raiseSet_alerted _ s).recordsKept

/-- The mask is no matter of the ring (R178). -/
theorem RecordsKept.mask (m : BitVec 16) : RecordsKept s { s with report := { s.report with mask := m } } := id

theorem doMaskSet_recordsKept : RecordsKept s (doMaskSet args s).state := by
  unfold doMaskSet
  dsimp only
  split
  · exact .refl s
  · exact .mask s _

theorem doMaskClear_recordsKept : RecordsKept s (doMaskClear args s).state := by
  unfold doMaskClear
  dsimp only
  split
  · exact .refl s
  · exact (RecordsKept.mask s _).trans (testAlert_alerted _).recordsKept

end

end Sys2Proof.Machine
end

section
/-! The requests of the other blocks keep the report ring in order. -/

namespace Sys2Proof.Machine

open Sys2Proof

variable (args : List Word32) (s : State)

/-! ## The Patrol Engine and the Region Table -/

theorem runSelection_recordsKept : RecordsKept s (runSelection s) := (runSelection_settled s).recordsKept

theorem reviewOverride_recordsKept : RecordsKept s (reviewOverride s) := (reviewOverride_settled s).recordsKept

theorem setRegion_recordsKept (i : Nat) (g : Region) : RecordsKept s (setRegion i g s) := .aside rfl

theorem setEngine_recordsKept (e : EngineState) : RecordsKept s (setEngine e s) := .aside rfl

theorem emptySlots_recordsKept : RecordsKept s (emptySlots s) := by
  simp only [emptySlots, abandonReads, idleRegion_eq]
  exact .aside rfl

theorem stageHost_recordsKept (i : Nat) : RecordsKept s (stageHost i s) := by
  simp only [stageHost, idleRegion_eq]
  exact .aside rfl

theorem holdSweep_recordsKept : RecordsKept s (holdSweep s) := by
  unfold holdSweep
  split <;> exact .aside rfl

theorem returnSweep_recordsKept (w : Sweep) : RecordsKept s (returnSweep w s) := by
  have hplaced : ∀ p, RecordsKept s (setSweepState w.region .active { s with patrol := p }) := fun _ => .aside rfl
  exact (hplaced _).trans ((recompute_settled _).trans (reviewOverride_settled _)).recordsKept

theorem setWindow_recordsKept (endTime : Elapsed) : RecordsKept s (setWindow endTime s) := by
  unfold setWindow
  split <;> exact .aside rfl

theorem doScrubEnable_recordsKept : RecordsKept s (doScrubEnable args s).state := by
  unfold doScrubEnable
  split
  · exact (setEngine_recordsKept s _).trans (runSelection_recordsKept _)
  · exact .refl s

theorem doScrubDisable_recordsKept : RecordsKept s (doScrubDisable args s).state := by
  unfold doScrubDisable
  split
  · exact .refl s
  · exact ((emptySlots_recordsKept s).trans (setEngine_recordsKept _ _)).trans (reviewOverride_recordsKept _)

theorem doSweepNow_recordsKept : RecordsKept s (doSweepNow args s).state := by
  unfold doSweepNow
  dsimp only
  repeat' split
  · exact .refl s
  · exact .refl s
  · exact (stageHost_recordsKept s _).trans (runSelection_recordsKept _)

theorem doSweepHalt_recordsKept : RecordsKept s (doSweepHalt args s).state := by
  unfold doSweepHalt
  split
  · exact .refl s
  · exact ((holdSweep_recordsKept s).trans (setEngine_recordsKept _ _)).trans (reviewOverride_recordsKept _)

theorem doSweepResume_recordsKept : RecordsKept s (doSweepResume args s).state := by
  unfold doSweepResume resumePatrol
  repeat' split
  · exact (returnSweep_recordsKept s _).trans (runSelection_recordsKept _)
  · exact (setEngine_recordsKept s _).trans (runSelection_recordsKept _)
  · exact .refl s

theorem doQuietBegin_recordsKept : RecordsKept s (doQuietBegin args s).state :=
  (setWindow_recordsKept s _).trans (reviewOverride_recordsKept _)

theorem doQuietEnd_recordsKept : RecordsKept s (doQuietEnd args s).state := by
  unfold doQuietEnd
  split
  · exact .refl s
  · exact ((closeWindow_settled s).trans (.count _ _)).recordsKept

theorem doRegionLoad_recordsKept : RecordsKept s (doRegionLoad args s).state := by
  unfold doRegionLoad
  dsimp only
  repeat' split
  · exact .refl s
  · exact .refl s
  · exact .refl s
  · exact .refl s
  · exact .refl s
  · exact (setRegion_recordsKept s _ _).trans (runSelection_recordsKept _)

theorem doRegionClear_recordsKept : RecordsKept s (doRegionClear args s).state := by
  unfold doRegionClear
  dsimp only
  repeat' split
  · exact .refl s
  · exact .refl s
  · exact setRegion_recordsKept s _ _

/-! ## Requests that only read -/

theorem acceptPart_recordsKept (part : Nat) (results : List Word32) :
    RecordsKept s (acceptPart part results s).state := by
  rw [acceptPart_state]
  exact .refl s

theorem doRegionRead_recordsKept : RecordsKept s (doRegionRead args s).state := by
  unfold doRegionRead
  split
  · exact .refl s
  · exact acceptPart_recordsKept s _ _

theorem doFaultRead_recordsKept : RecordsKept s (doFaultRead args s).state := by
  unfold doFaultRead
  split
  · exact .refl s
  · exact acceptPart_recordsKept s _ _

theorem doDeviceRead_recordsKept : RecordsKept s (doDeviceRead args s).state := by
  unfold doDeviceRead
  split
  · exact .refl s
  · exact acceptPart_recordsKept s _ _

theorem doRemapRead_recordsKept : RecordsKept s (doRemapRead args s).state := by
  unfold doRemapRead
  dsimp only
  repeat' split
  all_goals exact .refl s

theorem doReadStats_recordsKept : RecordsKept s (doReadStats args s).state := by
  unfold doReadStats
  dsimp only
  split <;> exact .refl s

/-! ## The Link Interface, the Fault Table and the Repair Engine -/

theorem doGoOnline_recordsKept : RecordsKept s (doGoOnline args s).state := by
  unfold doGoOnline
  split <;> exact .aside rfl

theorem doFaultClear_recordsKept : RecordsKept s (doFaultClear args s).state := by
  unfold doFaultClear
  repeat' split
  all_goals exact .aside rfl

theorem doRetireRow_recordsKept : RecordsKept s (doRetireRow args s).state := by
  unfold doRetireRow
  dsimp only
  repeat' split
  · exact .refl s
  · exact .refl s
  · exact .refl s
  · exact .aside rfl
  · exact .aside rfl
  · rename_i hroom
    exact (takeJob_inner _ _ _ _ _ s (Nat.lt_of_not_le hroom)).recordsKept

theorem doRemapLoad_recordsKept : RecordsKept s (doRemapLoad args s).state := by
  unfold doRemapLoad
  dsimp only
  repeat' split
  all_goals exact .aside rfl

theorem doSpareKill_recordsKept : RecordsKept s (doSpareKill args s).state := by
  unfold doSpareKill
  dsimp only
  repeat' split
  all_goals exact .aside rfl

theorem doErase_recordsKept : RecordsKept s (doErase args s).state := by
  unfold doErase
  dsimp only
  repeat' split
  · exact .refl s
  · exact .refl s
  · exact .refl s
  · rename_i hplace hroom
    simp only [not_or, Bool.not_eq_true] at hplace
    obtain ⟨-, -, hfresh⟩ := hplace
    exact (addErasure_inner _ _ 1 s hfresh (Nat.lt_of_not_le hroom)).recordsKept

theorem removeErasure_recordsKept (rank device : Nat) : RecordsKept s (removeErasure rank device s) := by
  have hset : RecordsKept s { s with repair := { s.repair with
      erasures := s.repair.erasures.set rank ((erasureSet s rank).erase device) } } := .aside rfl
  exact hset.trans ((Internal.setDevice rank device {} _ fun _ => Nat.zero_le _).trans
    ((Internal.count _ _).trans (eraseRank_inner rank _))).recordsKept

theorem doUnerase_recordsKept : RecordsKept s (doUnerase args s).state := by
  unfold doUnerase
  dsimp only
  repeat' split
  · exact .refl s
  · exact .refl s
  · exact .refl s
  · rw [accept_state]
    exact removeErasure_recordsKept s _ _

/-! ## SET_PARAM -/

theorem reviewThreshold_recordsKept : RecordsKept s (reviewThreshold s) :=
  (Watched.foldl _ (fun _ _ => .foldl _ (fun _ _ => reviewEntry_watched _ _ _) _ _) _ s).recordsKept

theorem paramChanged_recordsKept (id : Nat) : RecordsKept s (paramChanged id s) := by
  unfold paramChanged
  split
  · exact ((recompute_settled s).trans ((reviewOverride_settled _).trans (settle_settled _))).recordsKept
  · exact ((reviewOverride_settled s).trans (settle_settled _)).recordsKept
  · exact ((reviewLimits_inner s).trans (eraseAll_inner _)).recordsKept
  · exact (eraseAll_inner s).recordsKept
  · exact (eraseAll_inner s).recordsKept
  · exact (reviewThreshold_recordsKept s).trans (settle_recordsKept _)
  · exact (reviewReadyCount_alerted s).recordsKept
  · exact (reviewReadyAge_alerted s).recordsKept
  · exact .refl s

theorem doSetParam_recordsKept : RecordsKept s (doSetParam args s).state := by
  unfold doSetParam
  split
  · exact .refl s
  · have hput : ∀ p, RecordsKept s { s with params := p } := fun _ => .aside rfl
    exact (hput _).trans (paramChanged_recordsKept _ _)

end Sys2Proof.Machine
end

section
/-! O6, command by command. -/

namespace Sys2Proof.Machine

open Sys2Proof

/-- A command answers a next state that keeps the report ring in order. -/
def Retains (s : State) (answer : Answer) : Prop := ∃ t, answer = .next t ∧ RecordsKept s t

theorem Retains.next {s t : State} (h : RecordsKept s t) : Retains s (.next t) := ⟨t, rfl, h⟩

/-- A command that leaves the Report Unit alone. -/
theorem Retains.aside {s t : State} (h : t.report = s.report) : Retains s (.next t) := .next (.aside h)

/-- A command that does nothing here. -/
theorem Retains.idle (s : State) : Retains s (.next s) := .aside rfl

/-- A command that the engine's immediate actions close. -/
theorem Retains.settled {s t : State} (h : RecordsKept s t) : Retains s (.next (settle t)) :=
  .next (h.trans (settle_recordsKept t))

/-- A timer's moment arrives, and then what it does is done. -/
theorem Retains.arrived {s t : State} {moment : FineTime} (h : RecordsKept (arrive moment s) t) :
    Retains s (.next t) := .next ((arrive_recordsKept moment s).trans h)

/-- A timer's moment arrives, and the engine's immediate actions close what it does. -/
theorem Retains.arrivedSettled {s t : State} {moment : FineTime} (h : RecordsKept (arrive moment s) t) :
    Retains s (.next (settle t)) := .arrived (h.trans (settle_recordsKept t))

theorem Retains.ite {p : Prop} [Decidable p] {s : State} {a b : Answer} (h : Retains s a) (k : Retains s b) :
    Retains s (if p then a else b) := by split <;> assumption

/-! ## Dispatches (R192) -/

/-- A dispatch keeps what its owner's decision and what follows its answer keep. -/
theorem serveThen_recordsKept {after : State → State} (hafter : ∀ s, RecordsKept s (after s)) {code needed : Nat}
    {owner : List Word32 → State → Answered} (ho : ∀ args s, RecordsKept s (owner args s).state) (s : State) :
    RecordsKept s (serveThen after code needed owner s) := by
  unfold serveThen
  split
  · rename_i q _
    have hdecided : RecordsKept s (decideRequest needed owner q.args (count .maintRequests s)).state := by
      unfold decideRequest
      split
      · exact .aside rfl
      · exact ho q.args (count .maintRequests s)
    exact (hdecided.trans (.aside rfl)).trans (hafter (respond q.tag _))
  · exact .refl s

/-- A dispatch whose owner's decision keeps the ring in order. -/
theorem Retains.served {s : State} {code needed : Nat} {owner : List Word32 → State → Answered}
    (h : ∀ args s, RecordsKept s (owner args s).state) : Retains s (.next (serve code needed owner s)) :=
  .next (serveThen_recordsKept .refl h s)

/-- A dispatch of that kind that the engine's immediate actions close. -/
theorem Retains.servedSettled {s : State} {code needed : Nat} {owner : List Word32 → State → Answered}
    (h : ∀ args s, RecordsKept s (owner args s).state) : Retains s (.next (serveSettled code needed owner s)) :=
  .next (serveThen_recordsKept settle_recordsKept h s)

/-- A dispatch whose owner leaves the Report Unit alone. -/
theorem Retains.servedAside {s : State} {code needed : Nat} {owner : List Word32 → State → Answered}
    (h : ∀ args s, (owner args s).state.report = s.report) : Retains s (.next (serve code needed owner s)) :=
  .served fun args s => .aside (h args s)

/-! ## Power-on and frames -/

/-- After power-on the ring is not set up, and its counts are 0 (R181). -/
theorem execPowerOn_retains (s : State) : Retains s (execPowerOn s) :=
  .next fun _ => ⟨Report.inOrder_empty rfl rfl rfl, nofun⟩

theorem execIdle_retains (byte1 byte2 byte3 : Byte) (check : BitVec 16) (s : State) :
    Retains s (execIdle byte1 byte2 byte3 check s) := .ite (.idle s) (.next (discardFrame_recordsKept s))

theorem execRead_retains (tag byte2 byte3 : Byte) (line : BitVec 64) (check : BitVec 16) (s : State) :
    Retains s (execRead tag byte2 byte3 line check s) := by
  refine .ite (.next (discardFrame_recordsKept s)) ?_
  dsimp only
  split
  · exact .aside rfl
  · exact .next (portRead_recordsKept _ _ (acceptFrame tag s))

theorem execWrite_retains (tag flags byte3 : Byte) (line : BitVec 64) (data : Data) (check : BitVec 16) (s : State) :
    Retains s (execWrite tag flags byte3 line data check s) := by
  refine .ite (.next (discardFrame_recordsKept s)) ?_
  dsimp only
  split
  · exact .aside rfl
  · exact .next (portWrite_recordsKept _ _ _ _ (takeWrite_recordsKept _ _ _) (acceptFrame tag s))

theorem execWriteMasked_retains (tag flags byte3 : Byte) (line : BitVec 64) (data : Data) (mask : BitVec 64)
    (check : BitVec 16) (s : State) : Retains s (execWriteMasked tag flags byte3 line data mask check s) := by
  refine .ite (.next (discardFrame_recordsKept s)) ?_
  dsimp only
  split
  · exact .aside rfl
  · exact .next (portWrite_recordsKept _ _ _ _ (testMask_recordsKept _ _ _ _) (acceptFrame tag s))

theorem execMaint_retains (tag byte2 : Byte) (code pad : BitVec 16) (args : List Word32) (check : BitVec 16) (s : State) :
    Retains s (execMaint tag byte2 code pad args check s) :=
  .ite (.next (discardFrame_recordsKept s)) (.next (.ite (.aside rfl) (.aside rfl)))

theorem execMalformedFrame_retains (bytes : List Byte) (s : State) : Retains s (execMalformedFrame bytes s) :=
  .ite (.next (discardFrame_recordsKept s)) (.idle s)

theorem execReturnFrameSent_retains (s : State) : Retains s (execReturnFrameSent s) := by
  unfold execReturnFrameSent
  split
  · exact .ite (.next (frameLeft_recordsKept _ _ s)) (.aside rfl)
  · exact .aside rfl

/-! ## The DRAM Port -/

theorem execArbiterGrant_retains (accept : BitVec 64) (refresh : BitVec 4) (s : State) :
    Retains s (execArbiterGrant accept refresh s) := by
  unfold execArbiterGrant
  split
  · exact .settled (grant_recordsKept _ s)
  · exact .idle s

theorem execDemandReadDecode_retains (line : Nat) (damage : Line) (s : State) :
    Retains s (execDemandReadDecode line damage s) := by
  unfold execDemandReadDecode
  repeat' split
  · exact .settled (demandDecoded_recordsKept _ _ _ s)
  · exact .idle s
  · exact .idle s

theorem execScrubReadDecode_retains (line : Nat) (damage : Line) (s : State) :
    Retains s (execScrubReadDecode line damage s) := by
  unfold execScrubReadDecode
  repeat' split
  · exact .settled (patrolDecoded_recordsKept _ _ _ s)
  · exact .settled (targetedDecoded_recordsKept _ _ s)
  · exact .idle s
  · exact .idle s

theorem execRmwReadDecode_retains (line : Nat) (damage : Line) (s : State) :
    Retains s (execRmwReadDecode line damage s) := by
  unfold execRmwReadDecode
  repeat' split
  · exact .settled ((mergeUnit_recordsKept _ _ _ _ _ s).trans (handEvent_recordsKept _ _))
  · exact .idle s
  · exact .idle s

theorem execCopyReadDecode_retains (line : Nat) (damage : Line) (s : State) :
    Retains s (execCopyReadDecode line damage s) := by
  unfold execCopyReadDecode
  repeat' split
  · exact .settled (copyDecoded_recordsKept _ _ s)
  · exact .idle s
  · exact .idle s

theorem execDemandWritePerformed_retains (line : Nat) (s : State) : Retains s (execDemandWritePerformed line s) := by
  unfold execDemandWritePerformed
  repeat' split
  · exact .next (answeredWrite_recordsKept _ _ _ .fresh .ok s)
  · exact .idle s
  · exact .idle s

theorem execMaskedWritePerformed_retains (line : Nat) (s : State) : Retains s (execMaskedWritePerformed line s) := by
  unfold execMaskedWritePerformed
  repeat' split
  · exact .next (answeredWrite_recordsKept _ _ _ _ _ s)
  · exact .idle s
  · exact .idle s

theorem execWritebackPerformed_retains (line : Nat) (s : State) : Retains s (execWritebackPerformed line s) := by
  unfold execWritebackPerformed
  split
  · exact .ite (.next (entryWritten_recordsKept _ _ s)) (.idle s)
  · exact .idle s

theorem execRecordWritePerformed_retains (line : Nat) (s : State) : Retains s (execRecordWritePerformed line s) := by
  unfold execRecordWritePerformed
  repeat' split
  · exact .next (recordWritten_recordsKept _ _ _ s)
  · exact .idle s
  · exact .idle s

theorem execCopyWritePerformed_retains (line : Nat) (s : State) : Retains s (execCopyWritePerformed line s) := by
  unfold execCopyWritePerformed
  repeat' split
  · exact .next (spareWritten_recordsKept _ _ _ s)
  · exact .idle s
  · exact .idle s

/-! ## The timers -/

theorem execRowHoldExpiry_retains (rank bank : Nat) (s : State) : Retains s (execRowHoldExpiry rank bank s) := by
  unfold execRowHoldExpiry
  repeat' split
  · exact .idle s
  · exact .arrived (.port (arrive _ s) _)
  · exact .idle s
  · exact .idle s

theorem refreshDue_recordsKept (rank : Nat) (t : FineTime) (s : State) : RecordsKept s (refreshDue rank t s) :=
  .ite (.aside rfl) (.aside rfl)

theorem execRefreshTimerExpiry_retains (rank : Nat) (s : State) : Retains s (execRefreshTimerExpiry rank s) := by
  unfold execRefreshTimerExpiry
  split
  · exact .arrived (refreshDue_recordsKept _ _ _)
  · exact .idle s

theorem execRegionDue_retains (s : State) : Retains s (execRegionDue s) := by
  have hdue : ∀ u, RecordsKept u (reachDue u) := fun u => .ite (.refl u) (runSelection_recordsKept u)
  unfold execRegionDue
  split
  · exact .arrivedSettled (hdue _)
  · exact .idle s

theorem reachIssue_recordsKept (s : State) : RecordsKept s (reachIssue s) := by
  unfold reachIssue
  split
  · exact (atBoundary_settled _ s).recordsKept
  · exact .refl s

theorem execPatrolLineIssue_retains (s : State) : Retains s (execPatrolLineIssue s) := by
  unfold execPatrolLineIssue
  repeat' split
  · exact .arrivedSettled (reachIssue_recordsKept _)
  · exact .idle s
  · exact .idle s

theorem execBurstIssue_retains (s : State) : Retains s (execBurstIssue s) := by
  unfold execBurstIssue
  repeat' split
  · exact .arrivedSettled (reachIssue_recordsKept _)
  · exact .idle s
  · exact .idle s

theorem execQuietExpiry_retains (s : State) : Retains s (execQuietExpiry s) := by
  unfold execQuietExpiry
  split
  · exact .arrivedSettled ((closeWindow_settled _).trans (.count _ _)).recordsKept
  · exact .idle s

theorem execQuietOverride_retains (s : State) : Retains s (execQuietOverride s) := by
  unfold execQuietOverride
  repeat' split
  · exact .arrivedSettled (overrideWindow_settled _ _ _).recordsKept
  · exact .idle s
  · exact .idle s

theorem execDecayEpoch_retains (s : State) : Retains s (execDecayEpoch s) := by
  have hrestart : ∀ t u, RecordsKept u (restartDecay t u) := fun _ u => .fault u _
  unfold execDecayEpoch
  exact .arrived ((hrestart s.fault.decayEnd _).trans (decay_inner _).recordsKept)

theorem execHammerWindowExpiry_retains (s : State) : Retains s (execHammerWindowExpiry s) := by
  have hzeroed : ∀ t u, RecordsKept u (count .hammerWindows (zeroHammer (restartHammer t u))) := fun _ _ => .aside rfl
  unfold execHammerWindowExpiry
  exact .arrived (hzeroed s.hammer.windowEnd (arrive (onMicrosecond s.hammer.windowEnd) s))

/-- The holdoff is no matter of the ring (R180). -/
theorem stopHoldoff_recordsKept (s : State) : RecordsKept s (stopHoldoff s) := Report.Flagged.recordsKept rfl

theorem execHoldoffExpiry_retains (s : State) : Retains s (execHoldoffExpiry s) := by
  unfold execHoldoffExpiry
  split
  · exact .arrived ((stopHoldoff_recordsKept _).trans (testAlert_alerted _).recordsKept)
  · exact .idle s

theorem execReadyAgeExpiry_retains (s : State) : Retains s (execReadyAgeExpiry s) := by
  unfold execReadyAgeExpiry
  split
  · exact .arrived (announce_alerted _).recordsKept
  · exact .idle s

/-! ## The clear and the unknown request -/

theorem execChannelClear_retains (s : State) : Retains s (execChannelClear s) := by
  unfold execChannelClear
  split
  · exact .next (beginClear_recordsKept (count .maintRequests s))
  · exact .idle s

theorem execChannelClearComplete_retains (selectionFirst : Bool) (s : State) :
    Retains s (execChannelClearComplete selectionFirst s) := by
  have hended : ∀ tag, RecordsKept s (endClear tag s) := fun _ => .aside rfl
  unfold execChannelClearComplete
  repeat' split
  · exact .settled ((hended _).trans (afterClear_settled _ _).recordsKept)
  · exact .idle s
  · exact .idle s

theorem execBadRequest_retains (s : State) : Retains s (execBadRequest s) := by
  unfold execBadRequest
  split
  · exact .ite (.aside rfl) (.idle s)
  · exact .idle s

/-! ## Every command -/

theorem exec_retains (c : Instr) (s : State) : Retains s (exec c s) := by
  cases c with
  | powerOn => exact execPowerOn_retains s
  | idle byte1 byte2 byte3 check => exact execIdle_retains byte1 byte2 byte3 check s
  | read tag byte2 byte3 line check => exact execRead_retains tag byte2 byte3 line check s
  | write tag flags byte3 line data check => exact execWrite_retains tag flags byte3 line data check s
  | writeMasked tag flags byte3 line data mask check =>
    exact execWriteMasked_retains tag flags byte3 line data mask check s
  | maint tag byte2 code pad args check => exact execMaint_retains tag byte2 code pad args check s
  | arbiterGrant accept refresh => exact execArbiterGrant_retains accept refresh s
  | demandReadDecode line damage => exact execDemandReadDecode_retains line damage s
  | scrubReadDecode line damage => exact execScrubReadDecode_retains line damage s
  | rmwReadDecode line damage => exact execRmwReadDecode_retains line damage s
  | copyReadDecode line damage => exact execCopyReadDecode_retains line damage s
  | demandWritePerformed line => exact execDemandWritePerformed_retains line s
  | maskedWritePerformed line => exact execMaskedWritePerformed_retains line s
  | writebackPerformed line => exact execWritebackPerformed_retains line s
  | recordWritePerformed line => exact execRecordWritePerformed_retains line s
  | copyWritePerformed line => exact execCopyWritePerformed_retains line s
  | returnFrameSent => exact execReturnFrameSent_retains s
  | rowHoldExpiry rank bank => exact execRowHoldExpiry_retains rank bank s
  | refreshTimerExpiry rank => exact execRefreshTimerExpiry_retains rank s
  | regionDue => exact execRegionDue_retains s
  | patrolLineIssue => exact execPatrolLineIssue_retains s
  | burstIssue => exact execBurstIssue_retains s
  | quietExpiry => exact execQuietExpiry_retains s
  | quietOverride => exact execQuietOverride_retains s
  | decayEpoch => exact execDecayEpoch_retains s
  | hammerWindowExpiry => exact execHammerWindowExpiry_retains s
  | holdoffExpiry => exact execHoldoffExpiry_retains s
  | readyAgeExpiry => exact execReadyAgeExpiry_retains s
  | identify => exact .servedAside fun _ _ => rfl
  | readTime => exact .servedAside fun _ _ => rfl
  | setTime => exact .servedAside fun _ _ => rfl
  | setParam => exact .served doSetParam_recordsKept
  | readStats => exact .served doReadStats_recordsKept
  | statsClear => exact .servedAside fun _ _ => rfl
  | goOnline => exact .served doGoOnline_recordsKept
  | channelClear => exact execChannelClear_retains s
  | channelClearComplete selectionFirst => exact execChannelClearComplete_retains selectionFirst s
  | configureGeometry => exact .served doConfigureGeometry_recordsKept
  | regionLoad => exact .servedSettled doRegionLoad_recordsKept
  | regionClear => exact .served doRegionClear_recordsKept
  | regionRead => exact .served doRegionRead_recordsKept
  | scrubEnable => exact .servedSettled doScrubEnable_recordsKept
  | scrubDisable => exact .servedSettled doScrubDisable_recordsKept
  | sweepNow => exact .servedSettled doSweepNow_recordsKept
  | sweepHalt => exact .servedSettled doSweepHalt_recordsKept
  | sweepResume => exact .servedSettled doSweepResume_recordsKept
  | quietBegin => exact .servedSettled doQuietBegin_recordsKept
  | quietEnd => exact .servedSettled doQuietEnd_recordsKept
  | faultRead => exact .served doFaultRead_recordsKept
  | faultClear => exact .served doFaultClear_recordsKept
  | deviceRead => exact .served doDeviceRead_recordsKept
  | retireRow => exact .served doRetireRow_recordsKept
  | remapLoad => exact .served doRemapLoad_recordsKept
  | spareKill => exact .served doSpareKill_recordsKept
  | remapRead => exact .served doRemapRead_recordsKept
  | erase => exact .served doErase_recordsKept
  | unerase => exact .served doUnerase_recordsKept
  | reportSetup => exact .served doReportSetup_recordsKept
  | reportRelease => exact .served doReportRelease_recordsKept
  | reportRestart => exact .served doReportRestart_recordsKept
  | readCauses => exact .served fun _ _ => Report.Flagged.recordsKept rfl
  | causeSet => exact .served doCauseSet_recordsKept
  | maskSet => exact .served doMaskSet_recordsKept
  | maskClear => exact .served doMaskClear_recordsKept
  | badRequest => exact execBadRequest_retains s
  | malformedFrame bytes => exact execMalformedFrame_retains bytes s

/-- Settles O6: a tick moves no count of the ring, and every command keeps its counts and its queue in order. -/
theorem stepsKeepRecordsInOrder : Obligations.StepsKeepRecordsInOrder := by
  intro s t horder h
  unfold step at h
  split at h
  · cases h
    exact setNow_recordsKept _ s horder
  · rename_i c rest _
    obtain ⟨u, hu, hk⟩ := exec_retains c { s with pending := rest }
    rw [hu] at h
    cases h
    exact hk horder

end Sys2Proof.Machine
end

section
/-! O47 and O53: the test for a due alert, the causes raised, the two timers of the Report Unit, and the requests that
move the flags and the mask (R177 to R180, R190). -/

namespace Sys2Proof.Machine

open Sys2Proof

/-! ## The test for a due alert (R180, R190) -/

theorem underWay_eq (l : Link) : l.underWay = if l.begun then 1 else 0 := by
  unfold Link.underWay
  cases l.begun <;> rfl

/-- No alert is due: nothing happens. -/
theorem testAlert_of_none_due {s : State} (h : dueCauses s = 0) : testAlert s = s := if_pos h

/-- The holdoff runs and no urgent cause is due: the alert waits. -/
theorem testAlert_of_held {s : State} (hheld : s.report.holdoffEnd.isSome) (h : dueCauses s &&& urgentCauses = 0) :
    testAlert s = s := by
  simp [testAlert, h, Option.isNone_eq_false_iff.2 hheld]

/-- An alert is due, and the holdoff is stopped or an urgent cause is due: the alert is sent. -/
theorem testAlert_of_due {s : State} (hdue : dueCauses s ≠ 0)
    (h : s.report.holdoffEnd = none ∨ dueCauses s &&& urgentCauses ≠ 0) : testAlert s = sendAlert s := by
  rw [testAlert, if_neg hdue, if_pos]
  simpa using h

/-- The frames of the return queue once an ALERT has been handed on: it takes the place of the ALERT that waits, or enters
the tail (R190). -/
def alertReturns (f : ReturnFrame) (l : Link) : List ReturnFrame :=
  if l.waiting.any ReturnFrame.isAlert then
    l.returns.take l.underWay ++ l.waiting.map fun g => if g.isAlert then f else g
  else l.returns ++ [f]

theorem handAlert_eq (f : ReturnFrame) (s : State) : handAlert f s = { s with
    link := { s.link with returns := alertReturns f s.link }
    counters := { s.counters with
      alertsMerged := countedIf (s.link.waiting.any ReturnFrame.isAlert) s.counters.alertsMerged } } := by
  unfold handAlert alertReturns countedIf
  dsimp only
  split <;> rfl

/-- An alert sent carries every cause pending and not masked out, each then alerted, and starts the holdoff (R180). -/
theorem sendAlert_eq (s : State) : let sent := s.report.pending &&& ~~~s.report.mask
    sendAlert s = { s with
      link := { s.link with returns := alertReturns (.alert sent (wallTime s)) s.link }
      report := { s.report with
        alerted := s.report.alerted ||| sent
        holdoffEnd := if s.params.alertHoldoff = 0 then none
          else some (s.maint.now.us + BitVec.ofNat 48 s.params.alertHoldoff) }
      counters := { s.counters with
        alertsSent := satAdd s.counters.alertsSent 1
        alertsMerged := countedIf (s.link.waiting.any ReturnFrame.isAlert) s.counters.alertsMerged } } := by
  simp only [sendAlert, handAlert_eq]
  rfl

/-! ## Causes raised (R177) -/

/-- A cause raised is pending in its bit, and the test for a due alert follows. -/
theorem raise_eq_testAlert (c : Cause) (s : State) : raise c s =
    testAlert { s with report := { s.report with pending := s.report.pending ||| BitVec.ofNat 16 (2 ^ c.bit) } } := rfl

/-! ## The timers of the Report Unit (R179, R180) -/

/-- A moment that arrives moves no flag and no record, and nothing on the link. -/
theorem arrive_unannounced (m : FineTime) (s : State) : (arrive m s).report.pending = s.report.pending ∧
    (arrive m s).report.queue = s.report.queue ∧ (arrive m s).link = s.link := by
  unfold arrive
  split <;> exact ⟨rfl, rfl, rfl⟩

/-- The announcement raises RECORDS_READY with the count returned to 0 and the timer stopped (R179). -/
theorem announce_eq (s : State) : announce s = testAlert { s with report := { s.report with
    unannounced := 0, ageStart := none, pending := s.report.pending ||| 1 } } := rfl

/-- What an announcement moves: its cause, the count and the timer, and what alerts follow. -/
theorem announce_frame (s : State) : let t := announce s
    t = { s with
      link := { s.link with returns := t.link.returns }
      report := { s.report with
        unannounced := 0, ageStart := none, pending := s.report.pending ||| 1
        alerted := t.report.alerted, holdoffEnd := t.report.holdoffEnd }
      counters := { s.counters with alertsSent := t.counters.alertsSent, alertsMerged := t.counters.alertsMerged } } :=
  raise_eq .recordsReady { s with report := { s.report with unannounced := 0, ageStart := none } }

theorem announce_plain (s : State) : plain (announce s).link.returns = plain s.link.returns := by
  obtain ⟨⟨-, hplain, -⟩, -⟩ := announce_alerted s
  exact hplain

/-- Settles O47: the three cases of the test for a due alert, the bits of the causes, and the two timers at their
moment. -/
theorem alertsAreSentAndTimed : Obligations.AlertsAreSentAndTimed := by
  refine ⟨fun s => ?_, fun p hp s => ?_, fun s m => ⟨fun hholdoff => ?_, fun hage => ?_⟩⟩
  · dsimp only
    refine ⟨testAlert_of_none_due, testAlert_of_held, fun hdue h => ?_⟩
    rw [testAlert_of_due hdue h, sendAlert_eq, ← underWay_eq]
    exact ⟨rfl, rfl⟩
  · have hbit : p.1.bit = p.2 := by
      clear s
      revert p
      decide
    rw [raise_eq_testAlert, hbit]
  · show execHoldoffExpiry s = _
    rw [execHoldoffExpiry, hholdoff]
    rfl
  · intro v
    obtain ⟨hpending, hqueue, hlink⟩ := arrive_unannounced { us := m + BitVec.ofNat 48 s.params.readyAge, sub := 0 } s
    have hframe := announce_frame v
    refine ⟨announce v, ?_, ?_, ?_, ?_, ?_, ?_, ?_⟩
    · show execReadyAgeExpiry s = _
      rw [execReadyAgeExpiry, hage]
      rfl
    · rw [hframe]
    · rw [hframe]
    · rw [hframe]
      exact congrArg (· ||| 1) hpending
    · rw [hframe]
    · rw [hframe]
      exact hqueue
    · rw [announce_plain, hlink]

/-! ## The requests of the causes and the mask (R178) -/

theorem badCauses_eq (set : Word32) (more : List Word32) :
    badCauses (set :: more) = (set.extractLsb' 16 16 != 0) := rfl

/-- A cause word with a bit above 15 is refused by each of the three requests that take one. -/
theorem causeRequests_refused {args : List Word32} (h : badCauses args = true) (s : State) :
    doCauseSet args s = refuse .badArgument s ∧ doMaskSet args s = refuse .badArgument s ∧
      doMaskClear args s = refuse .badArgument s := by
  simp only [doCauseSet, doMaskSet, doMaskClear, h, if_true, and_self]

/-- A cause word of the sixteen causes is carried out by each of them. -/
theorem causeRequests_accepted {args : List Word32} (h : badCauses args = false) (s : State) :
    doCauseSet args s = accept [] (raiseSet (causesOf args) s) ∧
    doMaskSet args s = accept [causeWord (s.report.mask ||| causesOf args)]
      { s with report.mask := s.report.mask ||| causesOf args } ∧
    doMaskClear args s = accept [causeWord (s.report.mask &&& ~~~causesOf args)]
      (testAlert { s with report.mask := s.report.mask &&& ~~~causesOf args }) := by
  simp only [doCauseSet, doMaskSet, doMaskClear, h, Bool.false_eq_true, if_false, and_self]

/-- Settles O53: each request is the decision of its owner on the cause word, answered. -/
theorem causeRequestsMoveTheFlags : Obligations.CauseRequestsMoveTheFlags := by
  intro s q
  refine ⟨fun hq => serve_next hq (Nat.zero_le _) rfl, fun set more hargs => ?_⟩
  have hn : 1 ≤ q.args.length := by simp [hargs]
  have hcauses : causesOf q.args = set.setWidth 16 := by
    rw [hargs]
    rfl
  refine ⟨fun hgood => ?_, fun hbad => ?_⟩
  · obtain ⟨hset, hmask, hclear⟩ := causeRequests_accepted (args := q.args)
      (by simp [hargs, badCauses_eq, hgood]) (dispatched s)
    rw [hcauses] at hset hmask hclear
    exact ⟨fun hq => serve_next hq hn hset, fun hq => serve_next hq hn hmask, fun hq => serve_next hq hn hclear⟩
  · obtain ⟨hset, hmask, hclear⟩ := causeRequests_refused (args := q.args)
      (by simpa [hargs, badCauses_eq] using hbad) (dispatched s)
    exact ⟨fun hq => serve_next hq hn hset, fun hq => serve_next hq hn hmask, fun hq => serve_next hq hn hclear⟩

end Sys2Proof.Machine
end

section
/-! O28: records placed and lost, and the record writes performed, which W follows in order, each announced in its turn
(R169 to R172, R179). -/

namespace Sys2Proof.Machine

open Sys2Proof

/-! ## Records placed and lost (R170 to R172) -/

/-- A record placed, whatever the ring's state: its write joins line order in the place of a pending write-back of the
ring line (R170, R171, R50). -/
theorem placeRecord_eq (r : Record) (s : State) :
    let line := s.report.base + s.report.produced.toNat % 2 ^ s.report.sizeExp
    placeRecord r s = { s with
      port := { s.port with accesses := accessesLeft s line ++ [recordWriteOf r s] }
      wbq := entriesLeft s line
      report := { s.report with
        produced := s.report.produced + 1
        queue := s.report.queue ++ [{ sequence := s.report.produced, performed := false }] }
      counters := { s.counters with
        writebacksCancelled := countedIf (cancels s line) s.counters.writebacksCancelled
        recordsPlaced := satAdd s.counters.recordsPlaced 1 } } := by
  simp only [placeRecord, wbCancel_eq]
  rfl

/-- A record that finds no room in a ring set up is lost: overrun turns on and OVERRUN is raised (R172). -/
theorem handRecord_lost (r : Record) {s : State} (hset : s.report.setUp = true) (hclosed : ¬ RingOpen s) :
    handRecord r s = testAlert { s with
      report := { s.report with
        lost := satAdd s.report.lost 1, overrun := true, pending := s.report.pending ||| 8 }
      counters := { s.counters with recordsLost := satAdd s.counters.recordsLost 1 } } := by
  have hfull : ¬ canPlace s = true := fun hcan => hclosed ((ringOpen_iff s).2 ⟨hset, hcan⟩)
  rw [handRecord, if_pos hset, if_neg hfull]
  rfl

/-! ## Records counted as written (R171, R179) -/

/-- One more record is counted as written: W rises by 1, and the record joins the unannounced count. -/
def writtenRecord (s : State) : State := addUnannounced { s with
  report := { s.report with written := s.report.written + 1 }
  counters := { s.counters with recordsWritten := satAdd s.counters.recordsWritten 1 } }

/-- A record counted moves W by one, and neither the mask nor a tagged return. -/
theorem writtenRecord_spec (s : State) : let t := writtenRecord s
    t.report.written = s.report.written + 1 ∧ t.report.mask = s.report.mask ∧
      plain t.link.returns = plain s.link.returns := by
  obtain ⟨⟨-, hplain, -⟩, hflagged, -⟩ := addUnannounced_alerted { s with
    report := { s.report with written := s.report.written + 1 }
    counters := { s.counters with recordsWritten := satAdd s.counters.recordsWritten 1 } }
  have hreport : (writtenRecord s).report = _ := hflagged
  exact ⟨by rw [hreport], by rw [hreport], hplain⟩

theorem writtenRecords_spec (n : Nat) (s : State) : let t := writtenRecord^[n] s
    t.report.written = s.report.written + BitVec.ofNat 32 n ∧ t.report.mask = s.report.mask ∧
      plain t.link.returns = plain s.link.returns := by
  induction n generalizing s with
  | zero => simp
  | succ n ih =>
    obtain ⟨hwritten, hmask, hplain⟩ := writtenRecord_spec s
    obtain ⟨ihwritten, ihmask, ihplain⟩ := ih (writtenRecord s)
    rw [Function.iterate_succ_apply]
    refine ⟨?_, ihmask.trans hmask, ihplain.trans hplain⟩
    rw [ihwritten, hwritten, BitVec.add_assoc, BitVec.add_comm 1, BitVec.ofNat_add]
    rfl

/-- The oldest records, as far as they have been performed, are counted one by one and leave the queue (R171). -/
theorem countWritten_eq (q : List QueuedRecord) (s : State) :
    let u := writtenRecord^[(q.takeWhile QueuedRecord.performed).length] s
    countWritten q s = { u with report := { u.report with queue := q.dropWhile QueuedRecord.performed } } := by
  induction q generalizing s with
  | nil => rfl
  | cons first rest ih =>
    cases hperformed : first.performed with
    | true =>
      simp only [countWritten, List.takeWhile_cons, List.dropWhile_cons, hperformed, if_true, List.length_cons,
        Function.iterate_succ_apply]
      exact ih (writtenRecord s)
    | false =>
      simp only [countWritten, List.takeWhile_cons, List.dropWhile_cons, hperformed, Bool.false_eq_true, if_false]
      rfl

/-- A record write performed: the records counted after it, over its access performed with the line written. -/
theorem recordWritten_eq (a : Access) (n : Word32) (data : Data) (s : State) :
    let marked := s.report.queue.map fun q => if q.sequence = n then { q with performed := true } else q
    let u := writtenRecord^[(marked.takeWhile QueuedRecord.performed).length]
      { finishAccess a s with dram := (recordWritten a n data s).dram }
    recordWritten a n data s =
      { u with report := { u.report with queue := marked.dropWhile QueuedRecord.performed } } := by
  have hdram : (recordWritten a n data s).dram = (writeLine a data .fresh s).dram :=
    (recordPerformed_aside n _).2.trans (finishAccess_dram _ _)
  intro marked u
  have hstart : u = writtenRecord^[(marked.takeWhile QueuedRecord.performed).length]
      (finishAccess a (writeLine a data .fresh s)) := by
    rw [finishAccess_writeLine, ← hdram]
  rw [recordWritten, recordPerformed, written_report, hstart]
  exact countWritten_eq marked _

/-! ## The unannounced count (R179) -/

/-- Below `ready_count`, with an age to wait for, the count rises and the timer starts with the first. -/
theorem addUnannounced_waits {s : State} (hcount : s.report.unannounced + 1 < s.params.readyCount)
    (hage : s.params.readyAge ≠ 0) : addUnannounced s = { s with report := { s.report with
      unannounced := s.report.unannounced + 1
      ageStart := if s.report.unannounced = 0 then some s.maint.now.us else s.report.ageStart } } := by
  simp [addUnannounced, hage, Nat.not_le.2 hcount, State.now]

/-- At `ready_count`, or with `ready_age` 0, RECORDS_READY is announced. -/
theorem addUnannounced_announces {s : State}
    (h : s.params.readyCount ≤ s.report.unannounced + 1 ∨ s.params.readyAge = 0) :
    addUnannounced s = announce s := by
  rw [addUnannounced, if_pos (by simpa using h)]
  rfl

/-- Settles O28: the write performed with the records that W passes, the unannounced count, and a record handed on by the
ring's state. -/
theorem recordWritesAreAnnounced : Obligations.RecordWritesAreAnnounced := by
  refine ⟨fun s line a n data hs ha hk => ?_, fun s => ?_, fun r s => ?_⟩
  · intro marked written
    obtain ⟨rfl, -, -⟩ := performable_fronts ha
    have hdram := (recordPerformed_aside n (finishAccess a (writeLine a data .fresh s))).2
    have hreport := finishAccess_report a s
    have ht := recordWritten_eq a n data s
    obtain ⟨hwritten, hmask, hplain⟩ := writtenRecords_spec (marked.takeWhile QueuedRecord.performed).length
      { finishAccess a s with dram := (recordWritten a n data s).dram }
    refine ⟨recordWritten a n data s, _, ?_, (finishAccess_writeLine_written a data .fresh hs).congr hdram, rfl, ht,
      ?_, ?_, ?_⟩
    · show execRecordWritePerformed a.line s = _
      simp only [execRecordWritePerformed, ha, hk]
    · exact (congrArg (fun x => x.report.written) ht).trans
        (hwritten.trans (congrArg (fun p => p.written + BitVec.ofNat 32 _) hreport))
    · exact (congrArg (fun x => x.report.mask) ht).trans (hmask.trans (congrArg Report.mask hreport))
    · exact (congrArg (fun x => plain x.link.returns) ht).trans
        (hplain.trans (congrArg (fun l => plain l.returns) (finishAccess_link a s)))
  · intro t
    refine ⟨addUnannounced_waits, fun h => ?_⟩
    have ht : t = announce s := addUnannounced_announces h
    have hframe := announce_frame s
    rw [ht]
    refine ⟨announce_eq s, ?_, ?_, ?_, ?_, ?_, ?_, ?_⟩ <;> rw [hframe]
  · exact ⟨fun hunset => by simp [handRecord, hunset], handRecord_open r, handRecord_lost r⟩

end Sys2Proof.Machine
end

section
/-! O54: the three requests of the report ring (R168, R173, R174). -/

namespace Sys2Proof.Machine

open Sys2Proof

section

variable {s : State}

/-! ## REPORT_SETUP (R168) -/

theorem doReportSetup_eq (hgeom : s.port.geomSet = true) (base size : Word32) (more : List Word32) :
    doReportSetup (base :: size :: more) s =
      if size.toNat < 6 ∨ 16 < size.toNat ∨ s.port.geom.capacity < base.toNat + 2 ^ size.toNat then
        refuse .badArgument s
      else if s.report.produced ≠ s.report.written then refuse .busy s
      else accept [word (2 ^ size.toNat)] (setupRing base.toNat size.toNat s) := by
  rw [doReportSetup, if_neg (not_not.2 hgeom)]
  rfl

/-! ## REPORT_RELEASE (R173) -/

/-- C moves up to W, and either response carries the counts as they then stand. -/
theorem doReportRelease_eq (hset : s.report.setUp = true) (c : Word32) (more : List Word32) :
    doReportRelease (c :: more) s =
      if c - s.report.consumed ≤ s.report.written - s.report.consumed then
        accept (ringWords { s with report.consumed := c }) { s with report.consumed := c }
      else { status := .badArgument, results := ringWords s, state := s } := by
  simp only [doReportRelease, hset, not_true_eq_false, if_false, List.getD_cons_zero, ← BitVec.not_le, ite_not]

/-! ## REPORT_RESTART (R174) -/

theorem doReportRestart_idle (hset : s.report.setUp = true) (hover : s.report.overrun = false) (args : List Word32) :
    doReportRestart args s = accept [] s := by
  simp [doReportRestart, hset, hover]

theorem doReportRestart_full (hset : s.report.setUp = true) (hover : s.report.overrun = true)
    (hfull : (s.report.produced - s.report.consumed).toNat = s.ringSize ∨
      Config.recordCapacity ≤ (s.report.produced - s.report.written).toNat) (args : List Word32) :
    doReportRestart args s = refuse .busy s := by
  rw [doReportRestart, if_neg (not_not.2 hset), if_neg (not_not.2 hover), if_pos hfull]

theorem doReportRestart_room (hset : s.report.setUp = true) (hover : s.report.overrun = true)
    (hroom : ¬ ((s.report.produced - s.report.consumed).toNat = s.ringSize ∨
      Config.recordCapacity ≤ (s.report.produced - s.report.written).toNat)) (args : List Word32) :
    doReportRestart args s = accept [s.report.produced, word s.report.lost] (restartRing s) := by
  rw [doReportRestart, if_neg (not_not.2 hset), if_neg (not_not.2 hover), if_neg hroom]

/-- A restarted ring has the RECORDS_LOST record placed, overrun off and the lost count 0. -/
theorem restartRing_eq (s : State) : let t := restartRing s
    t.report = { s.report with
      overrun := false, lost := 0, produced := s.report.produced + 1
      queue := s.report.queue ++ [{ sequence := s.report.produced, performed := false }] } ∧
    t.port.accesses.getLast? = some (recordWriteOf (recordsLostRecord s) s) ∧
    t.counters.recordsPlaced = satAdd s.counters.recordsPlaced 1 ∧ t.counters.recordsLost = s.counters.recordsLost ∧
    t = { s with port := { s.port with accesses := t.port.accesses }, wbq := t.wbq, report := t.report
                 counters := t.counters } := by
  have hplaced := placeRecord_eq (recordsLostRecord s) { s with report := { s.report with overrun := false } }
  have ht : restartRing s = _ := congrArg (fun u : State => { u with report := { u.report with lost := 0 } }) hplaced
  intro t
  rw [show t = _ from ht]
  exact ⟨rfl, List.getLast?_concat .., rfl, rfl, rfl⟩

end

/-- Settles O54: each request is the decision of the Report Unit, answered. -/
theorem ringRequestsKeepTheCounts : Obligations.RingRequestsKeepTheCounts := by
  intro s q hgeom
  refine ⟨fun hq base size more hargs => ?_, fun hq hset c more hargs => ?_, fun hq hset => ⟨fun hover => ?_,
    fun hover hfull => ?_, fun hover hroom hqueue => ?_⟩⟩
  · have hn : 2 ≤ q.args.length := by simp [hargs]
    have hdecided := hargs ▸ doReportSetup_eq (s := dispatched s) hgeom base size more
    split
    · rename_i hsize
      exact serve_next hq hn (hdecided.trans (if_pos hsize))
    · rename_i hsize
      split
      · rename_i hbusy
        exact serve_next hq hn (hdecided.trans ((if_neg hsize).trans (if_pos hbusy)))
      · rename_i hidle
        exact serve_next hq hn (hdecided.trans ((if_neg hsize).trans (if_neg hidle)))
  · have hn : 1 ≤ q.args.length := by simp [hargs]
    have hdecided := hargs ▸ doReportRelease_eq (s := dispatched s) hset c more
    split
    · rename_i hc
      exact serve_next hq hn (hdecided.trans (if_pos hc))
    · rename_i hc
      exact serve_next hq hn (hdecided.trans (if_neg hc))
  · exact serve_next hq (Nat.zero_le _) (doReportRestart_idle (s := dispatched s) hset hover _)
  · exact serve_next hq (Nat.zero_le _) (doReportRestart_full (s := dispatched s) hset hover hfull _)
  · obtain ⟨hreport, hlast, hplaced, hlost, hframe⟩ := restartRing_eq (dispatched s)
    exact ⟨restartRing (dispatched s), serve_next hq (Nat.zero_le _)
      (doReportRestart_room (s := dispatched s) hset hover (not_or.2 ⟨hroom, Nat.not_le.2 hqueue⟩) _),
      hreport, hlast, hplaced, hlost, hframe⟩

end Sys2Proof.Machine
end

section
/-! The channel link: frames discarded (O17), maintenance frames queued (O21), and the frames that leave the part (O22).
-/

namespace Sys2Proof.Machine

open Sys2Proof

/-! ## Frames discarded (R185) -/

/-- A frame that names a tag is refused when it fails a check of R185, and when it is malformed otherwise. -/
theorem frameRefused_iff {body : List Byte} {check : BitVec 16} {tag : Byte} {malformed : Bool} {s : State} :
    frameRefused body check tag malformed s = true ↔ ¬ FrameGood body check tag s ∨ malformed = true := by
  simp only [frameRefused, FrameGood, Bool.or_eq_true, bne_iff_ne, decide_eq_true_eq, not_and_or, Nat.not_le,
    Bool.not_eq_false]
  tauto

/-- A discarded frame is counted and its cause raised, and no return but an ALERT follows (R185). -/
theorem discardFrame_discarded (s : State) : Discarded s (discardFrame s) := by
  refine ⟨?_, raise_plain _ _, ?_⟩ <;> rw [discardFrame, raise_eq] <;> rfl

/-- A frame that its command refuses is discarded. -/
theorem discarded_of_refused {p : Prop} [Decidable p] {s : State} (h : p) (served : Answer) :
    ∃ t, (if p then .next (discardFrame s) else served) = .next t ∧ Discarded s t :=
  ⟨discardFrame s, if_pos h, discardFrame_discarded s⟩

/-- Settles O17: the check of each kind of frame decides, and a frame that fails it is discarded. -/
theorem badFramesAreDiscarded : Obligations.BadFramesAreDiscarded := by
  intro s tag b2 b3 line data mask code pad args check bytes
  refine ⟨fun hcheck => if_pos hcheck, fun hcheck => ?_,
    fun hf => discarded_of_refused (frameRefused_iff.2 (.inl hf)) _,
    fun hf => discarded_of_refused (frameRefused_iff.2 (.inl hf)) _,
    fun hf => discarded_of_refused (frameRefused_iff.2 (.inl hf)) _,
    fun hf => discarded_of_refused (frameRefused_iff.2 (hf.imp_right decide_eq_true)) _,
    fun hbytes => discarded_of_refused hbytes _, fun hbytes => if_neg (by simp [hbytes])⟩
  exact ⟨discardFrame s, if_neg hcheck, discardFrame_discarded s⟩

/-! ## Maintenance frames (R187, R192) -/

/-- A good MAINT frame's request reaches the request queue, whatever the channel state (R187). -/
theorem execMaint_good {s : State} {tag b2 : Byte} {code pad : BitVec 16} {args : List Word32} {check : BitVec 16}
    (hf : FrameGood (maintBody tag b2 code pad args) check tag s) (hargs : args.length ≤ 8) :
    exec (.maint tag b2 code pad args check) s =
      .next (takeRequest tag.toNat code.toNat args (accepted tag s)) :=
  if_neg fun h => (frameRefused_iff.1 h).elim (absurd hf) fun hlong => absurd (of_decide_eq_true hlong) (by omega)

/-- A request enters the tail of a request queue with room (R192). -/
theorem takeRequest_room {s : State} (h : s.maint.queue.length < 4) (tag code : Nat) (args : List Word32) :
    takeRequest tag code args s = { s with
      maint := { s.maint with queue := s.maint.queue ++ [{ tag := tag, code := code, args := args }] } } := if_pos h

/-- A request that finds the request queue full is answered BUSY (R192). -/
theorem takeRequest_full {s : State} (h : 4 ≤ s.maint.queue.length) (tag code : Nat) (args : List Word32) :
    takeRequest tag code args s = count .maintBusy (handReturn (.maintResp tag .busy []) s) :=
  if_neg (Nat.not_lt.2 h)

/-- Settles O21: the request queue has room for the request, or the request is answered BUSY. -/
theorem maintFramesAreQueued : Obligations.MaintFramesAreQueued := by
  intro s tag b2 code pad args check hf hargs
  rw [execMaint_good hf hargs]
  refine ⟨fun hroom => ?_, fun hfull => ?_⟩
  · rw [takeRequest_room (s := accepted tag s) hroom]
    rfl
  · rw [takeRequest_full (s := accepted tag s) hfull]
    rfl

/-! ## Frames that leave the part (R186, R189) -/

/-- A frame that has left frees the tag it names, and the rest of the queue moves up (R186, R189). -/
theorem frameLeft_eq (f : ReturnFrame) (rest : List ReturnFrame) (s : State) : frameLeft f rest s = { s with
    link := { s.link with
      tags := freedTags f.tag?.toList s.link.tags, returns := rest, begun := !rest.isEmpty
      sent := sealFrame f.body } } := by
  unfold frameLeft releaseTag
  cases f.tag? <;> rfl

/-- The tag a frame names becomes free when it has left, and no other (R186). -/
theorem freedTags_tag (f : ReturnFrame) (tags : BitVec 64) {tag : Nat} (h : tag < 64) :
    (freedTags f.tag?.toList tags).getLsbD tag = (tags.getLsbD tag && decide (f.tag? ≠ some tag)) := by
  rw [freedTags_getLsbD _ _ h]
  cases f.tag? with
  | none => simp
  | some named => simp [eq_comm]

/-- With no frame begun, the frame on the link is IDLE (R189). -/
theorem execReturnFrameSent_idle {s : State} (h : s.link.returns = [] ∨ s.link.begun = false) :
    exec .returnFrameSent s = .next (idleLeft s) := by
  show execReturnFrameSent s = _
  unfold execReturnFrameSent
  split
  · next hr => exact if_neg (by simp [h.resolve_left (by simp [hr])])
  · rfl

/-- A frame begun is the one on the link (R189). -/
theorem execReturnFrameSent_begun {f : ReturnFrame} {rest : List ReturnFrame} {s : State}
    (hr : s.link.returns = f :: rest) (hb : s.link.begun = true) :
    exec .returnFrameSent s = .next (frameLeft f rest s) := by
  show execReturnFrameSent s = _
  simp only [execReturnFrameSent, hr, hb, if_true]

/-- Settles O22: the frame on the link is IDLE, or the head of the return queue. -/
theorem sentReturnsFreeTheirTags : Obligations.SentReturnsFreeTheirTags := by
  intro s
  by_cases hidle : s.link.returns = [] ∨ s.link.begun = false
  · refine ⟨idleLeft s, execReturnFrameSent_idle hidle, rfl, rfl, fun _ => ⟨rfl, rfl, rfl⟩, fun f hf hb => ?_⟩
    rcases hidle with hr | hn
    · simp [hr] at hf
    · simp [hn] at hb
  · obtain ⟨hne, hb⟩ := not_or.1 hidle
    obtain ⟨f, rest, hr⟩ := List.exists_cons_of_ne_nil hne
    refine ⟨frameLeft f rest s, execReturnFrameSent_begun hr (Bool.not_eq_false _ ▸ hb), ?_⟩
    rw [frameLeft_eq]
    refine ⟨rfl, rfl, fun h => absurd h hidle, fun g hg _ => ?_⟩
    obtain rfl : f = g := by simpa [hr] using hg
    exact ⟨by rw [hr]; rfl, rfl, fun tag htag => freedTags_tag f s.link.tags htag⟩

end Sys2Proof.Machine
end

section
/-! The operations that leave the parameters, the geometry and the region entries as they stand: frames, grants, accesses
performed, reads decoded and the requests of the other blocks. One lemma per operation. -/

namespace Sys2Proof.Machine

open Sys2Proof

/-! ## The relation -/

/-- What the requests of the controller settle for the part: the parameters, the geometry and the region entries (R19, R54,
R197). -/
def State.settings (s : State) := (s.params, s.port.geomSet, s.port.geom, s.regions.map Region.entry)

/-- The parameters, the geometry and the region entries, as they were. -/
def SettingsSame (s t : State) : Prop := t.settings = s.settings

theorem SettingsSame.refl (s : State) : SettingsSame s s := rfl

theorem SettingsSame.trans {a b c : State} (h : SettingsSame a b) (k : SettingsSame b c) : SettingsSame a c := Eq.trans k h

theorem SettingsSame.ite {p : Prop} [Decidable p] {s a b : State} (h : SettingsSame s a) (k : SettingsSame s b) :
    SettingsSame s (if p then a else b) := by split <;> assumption

/-- The region entries alone are to be seen to. -/
theorem SettingsSame.regions {s t : State} (h : t.regions.map Region.entry = s.regions.map Region.entry)
    (hparams : t.params = s.params) (hset : t.port.geomSet = s.port.geomSet) (hgeom : t.port.geom = s.port.geom) :
    SettingsSame s t := by
  simp only [SettingsSame, State.settings, hparams, hset, hgeom, h]

/-- A region whose status alone changes. -/
theorem SettingsSame.region (i : Nat) (g : Region) (s : State) (h : g.entry = (regionAt s i).entry) :
    SettingsSame s (setRegion i g s) := .regions (entries_set _ _ _ h) rfl rfl rfl

theorem setSweepState_entries (i : Nat) (v : SweepState) (s : State) :
    (setSweepState i v s).regions.map Region.entry = s.regions.map Region.entry := entries_set _ _ _ rfl

theorem SettingsSame.accesses (s : State) (l : List Access) :
    SettingsSame s { s with port := { s.port with accesses := l } } := rfl

theorem SettingsSame.fault (s : State) (f : FaultTable) : SettingsSame s { s with fault := f } := rfl

theorem SettingsSame.hammer (s : State) (h : Hammer) : SettingsSame s { s with hammer := h } := rfl

/-! ## The effects named once -/

theorem Settled.settingsSame {s t : State} (h : Settled s t) : SettingsSame s t := by
  obtain ⟨-, -, -, -, -, hentries, -, e⟩ := h
  refine .regions hentries ?_ ?_ ?_ <;> rw [e]

theorem Noted.settingsSame {s t : State} (h : Noted s t) : SettingsSame s t := h.settled.settingsSame

theorem Alerted.settingsSame {s t : State} (h : Alerted s t) : SettingsSame s t := h.noted.settingsSame

theorem Watched.settingsSame {s t : State} (h : Watched s t) : SettingsSame s t := by
  obtain ⟨-, -, -, -, e⟩ := h
  rw [e]
  rfl

theorem Internal.settingsSame {s t : State} (h : Internal s t) : SettingsSame s t := by
  obtain ⟨-, -, -, -, -, -, -, -, -, e⟩ := h
  rw [e]
  rfl

theorem settle_settingsSame (s : State) : SettingsSame s (settle s) := (settle_settled s).settingsSame

/-- Times kept move, and no setting does (R196). -/
theorem setNow_settingsSame (t : FineTime) (s : State) : SettingsSame s (setNow t s) :=
  .regions (by simp [setNow, Function.comp_def, Region.keep]) rfl rfl rfl

theorem arrive_settingsSame (t : FineTime) (s : State) : SettingsSame s (arrive t s) :=
  .ite (setNow_settingsSame t s) (.refl s)

/-! ## Frames and the DRAM Port -/

theorem discardFrame_settingsSame (s : State) : SettingsSame s (discardFrame s) :=
  ((Noted.count _ s).trans (raise_alerted _ _).noted).settingsSame

theorem reviewDrain_settingsSame (s : State) : SettingsSame s (reviewDrain s) := by
  rw [reviewDrain_eq]
  rfl

theorem portRead_settingsSame (tag line : Nat) (s : State) : SettingsSame s (portRead tag line s) := by
  unfold portRead takeRead
  repeat' split
  all_goals rfl

theorem failLock_settingsSame (source : Source) (tag region line : Nat) (s : State) :
    SettingsSame s (failLock source tag region line s) :=
  ((handRecord_noted _ (handReturn _ s)).trans (raise_alerted _ _).noted).settingsSame

theorem takeWrite_settingsSame (tag line : Nat) (data : Data) (s : State) : SettingsSame s (takeWrite tag line data s) :=
  (wbCancel_noted line s).settingsSame.trans (reviewDrain_settingsSame (takeAccess line _ .waiting _))

theorem takeMasked_settingsSame (tag line : Nat) (data : Data) (mask : BitVec 64) (s : State) :
    SettingsSame s (takeMasked tag line data mask s) := by
  unfold takeMasked
  split
  · exact (wbCancel_noted line (count _ s)).settingsSame.trans
      (reviewDrain_settingsSame (takeAccess line _ .merging _))
  · exact reviewDrain_settingsSame (takeAccess line _ .waiting s)

theorem testMask_settingsSame (tag line : Nat) (data : Data) (mask : BitVec 64) (s : State) :
    SettingsSame s (testMask tag line data mask s) :=
  .ite (.refl s) (.ite (takeWrite_settingsSame tag line data s) (takeMasked_settingsSame tag line data mask s))

theorem portWrite_settingsSame (source : Source) (tag line : Nat) (permit : Bool) {passed : State → State}
    (hp : ∀ s, SettingsSame s (passed s)) (s : State) :
    SettingsSame s (portWrite source tag line permit passed s) := by
  unfold portWrite
  repeat' split
  · rfl
  · exact failLock_settingsSame _ _ _ _ s
  · exact hp s

theorem takeRequest_settingsSame (tag code : Nat) (args : List Word32) (s : State) :
    SettingsSame s (takeRequest tag code args s) := .ite (.refl s) (.refl s)

theorem frameLeft_settingsSame (f : ReturnFrame) (rest : List ReturnFrame) (s : State) :
    SettingsSame s (frameLeft f rest s) := by
  rw [frameLeft_eq]
  rfl

/-! ## Grants -/

theorem openRow_settingsSame (rank bank row : Nat) (requester : Requester) (s : State) :
    SettingsSame s (openRow rank bank row requester s) := by
  obtain ⟨m, -, hwatched, -⟩ := openRow_spec rank bank row requester s
  exact hwatched.settingsSame

theorem openDouble_settingsSame (rank bank : Nat) (double : Option Nat) (requester : Requester) (s : State) :
    SettingsSame s (openDouble rank bank double requester s) := by
  cases double with
  | none => rfl
  | some spare => exact openRow_settingsSame rank bank spare requester (count .writesDoubled s)

theorem grant_settingsSame (w : Winner) (s : State) : SettingsSame s (grant w s) := by
  cases w with
  | access a cls passes =>
    show SettingsSame s (grantAccess a cls passes s)
    rw [grantAccess_eq]
    exact (openRow_settingsSame _ _ _ _ (countGrant cls passes (markedGrant s a))).trans
      (openDouble_settingsSame _ _ _ _ _)
  | refresh rank => rfl

/-! ## Accesses performed -/

theorem finishAccess_settingsSame (a : Access) (s : State) : SettingsSame s (finishAccess a s) := by
  obtain ⟨m, -, e⟩ := finishAccess_spec a s
  rw [e]
  rfl

theorem written_settingsSame (a : Access) (data : Data) (form : Form) (s : State) :
    SettingsSame s (finishAccess a (writeLine a data form s)) := by
  rw [finishAccess_writeLine]
  exact finishAccess_settingsSame a s

theorem handDemandReturn_settingsSame (tag : Nat) (f : ReturnFrame) (s : State) :
    SettingsSame s (handDemandReturn tag f s) := .ite (.refl s) (.refl s)

theorem answeredWrite_settingsSame (a : Access) (tag : Nat) (data : Data) (form : Form) (status : AckStatus)
    (s : State) : SettingsSame s (answeredWrite a tag data form status s) :=
  (written_settingsSame a data form s).trans
    ((reviewDrain_settingsSame _).trans (handDemandReturn_settingsSame _ _ _))

theorem recordWritten_settingsSame (a : Access) (n : Word32) (data : Data) (s : State) :
    SettingsSame s (recordWritten a n data s) :=
  (written_settingsSame a data .fresh s).trans (recordPerformed_noted n _).settingsSame

theorem spareWritten_settingsSame (a : Access) (data : Data) (form : Form) (s : State) :
    SettingsSame s (spareWritten a data form s) :=
  (written_settingsSame a data form s).trans ((Internal.count _ _).trans (copyWritten_inner _)).settingsSame

/-! ## Reads decoded -/

theorem handDecoded_settingsSame (line : Nat) (d : Decoded) (policy : Policy) (s : State) :
    SettingsSame s (handDecoded line d policy s) := by
  unfold handDecoded handWriteback
  repeat' split
  all_goals rfl

theorem countSweepEvent_settingsSame (ev : Option FaultEvent) (s : State) :
    SettingsSame s (countSweepEvent ev s) := by
  unfold countSweepEvent
  split
  · exact .region _ _ s rfl
  · rfl

theorem demandDecoded_settingsSame (a : Access) (tag : Nat) (d : Decoded) (s : State) :
    SettingsSame s (demandDecoded a tag d s) :=
  ((finishAccess_settingsSame a s).trans (handDemandReturn_settingsSame _ _ _)).trans
    ((handEvent_inner _ _).settingsSame.trans (handDecoded_settingsSame _ _ _ _))

theorem patrolDecoded_settingsSame (a : Access) (owned : Bool) (d : Decoded) (s : State) :
    SettingsSame s (patrolDecoded a owned d s) :=
  ((finishAccess_settingsSame a s).trans (handEvent_inner _ _).settingsSame).trans
    ((SettingsSame.ite (countSweepEvent_settingsSame _ _) (.refl _)).trans
      ((handDecoded_settingsSame _ _ _ _).trans (.ite (.refl _) (.refl _))))

theorem targetedDecoded_settingsSame (a : Access) (d : Decoded) (s : State) :
    SettingsSame s (targetedDecoded a d s) :=
  ((finishAccess_settingsSame a s).trans (handEvent_inner _ _).settingsSame).trans
    (.ite (handDecoded_settingsSame _ _ _ _) (.refl _))

theorem mergeUnit_settingsSame (a : Access) (tag : Nat) (data : Data) (mask : BitVec 64) (d : Decoded) (s : State) :
    SettingsSame s (mergeUnit a tag data mask d s) := by
  obtain ⟨-, e⟩ := mergeUnit_spec a tag data mask d s
  rw [e]
  rfl

theorem copyDecoded_settingsSame (a : Access) (d : Decoded) (s : State) : SettingsSame s (copyDecoded a d s) :=
  ((finishAccess_settingsSame a s).trans (.accesses _ _)).trans
    ((countCopied_inner _ _).trans (handEvent_inner _ _)).settingsSame

/-! ## The requests of the Patrol Engine and Quiet Window Control -/

section

variable (args : List Word32) (s : State)

/-- A sweep given up changes no entry (R57). -/
theorem idledAt_entries (region : Option Nat) (l : List Region) :
    (idledAt region l).map Region.entry = l.map Region.entry := by
  cases region with
  | none => rfl
  | some i => exact entries_set l i _ rfl

theorem emptySlots_settingsSame : SettingsSame s (emptySlots s) := by
  simp only [SettingsSame, State.settings, emptySlots, abandonReads, idleRegion_eq, idledAt_entries]

theorem doScrubEnable_settingsSame : SettingsSame s (doScrubEnable args s).state := by
  unfold doScrubEnable
  split
  · exact (runSelection_settled (setEngine .idle s)).settingsSame
  · rfl

theorem doScrubDisable_settingsSame : SettingsSame s (doScrubDisable args s).state := by
  unfold doScrubDisable
  split
  · rfl
  · exact (emptySlots_settingsSame s).trans (reviewOverride_settled (setEngine .disabled _)).settingsSame

theorem stageHost_settingsSame (i : Nat) : SettingsSame s (stageHost i s) := by
  simp only [SettingsSame, State.settings, stageHost, idleRegion_eq, setSweepState_entries, setSweepState_params,
    setSweepState_port, idledAt_entries]

theorem doSweepNow_settingsSame : SettingsSame s (doSweepNow args s).state := by
  unfold doSweepNow
  dsimp only
  repeat' split
  · rfl
  · rfl
  · exact (stageHost_settingsSame s _).trans (runSelection_settled _).settingsSame

theorem holdSweep_settingsSame : SettingsSame s (holdSweep s) := by
  unfold holdSweep
  split
  · exact SettingsSame.region _ _ { s with patrol := _ } rfl
  · rfl

theorem doSweepHalt_settingsSame : SettingsSame s (doSweepHalt args s).state := by
  unfold doSweepHalt
  split
  · rfl
  · exact (holdSweep_settingsSame s).trans (reviewOverride_settled (setEngine .halted _)).settingsSame

theorem returnSweep_settingsSame (w : Sweep) : SettingsSame s (returnSweep w s) := by
  unfold returnSweep
  refine SettingsSame.trans ?_ ((recompute_settled _).trans (reviewOverride_settled _)).settingsSame
  exact .region w.region _ { s with patrol := _ } rfl

theorem doSweepResume_settingsSame : SettingsSame s (doSweepResume args s).state := by
  unfold doSweepResume resumePatrol
  repeat' split
  · exact (returnSweep_settingsSame s _).trans (runSelection_settled _).settingsSame
  · exact (runSelection_settled (setEngine .idle s)).settingsSame
  · rfl

theorem setWindow_settingsSame (endTime : Elapsed) : SettingsSame s (setWindow endTime s) := by
  unfold setWindow
  split <;> rfl

theorem doQuietBegin_settingsSame : SettingsSame s (doQuietBegin args s).state :=
  (setWindow_settingsSame s _).trans (reviewOverride_settled _).settingsSame

theorem doQuietEnd_settingsSame : SettingsSame s (doQuietEnd args s).state := by
  unfold doQuietEnd
  split
  · rfl
  · exact (closeWindow_settled s).settingsSame

/-! ## The requests of the Fault Table, the Repair Engine and the Report Unit -/

theorem acceptPart_settingsSame (part : Nat) (results : List Word32) :
    SettingsSame s (acceptPart part results s).state := by
  rw [acceptPart_state]
  rfl

theorem doReadStats_settingsSame : SettingsSame s (doReadStats args s).state := by
  unfold doReadStats
  dsimp only
  split <;> rfl

theorem doGoOnline_settingsSame : SettingsSame s (doGoOnline args s).state := by
  unfold doGoOnline
  split <;> rfl

theorem doRegionRead_settingsSame : SettingsSame s (doRegionRead args s).state := by
  unfold doRegionRead
  split
  · rfl
  · exact acceptPart_settingsSame s _ _

theorem doFaultRead_settingsSame : SettingsSame s (doFaultRead args s).state := by
  unfold doFaultRead
  split
  · rfl
  · exact acceptPart_settingsSame s _ _

theorem doFaultClear_settingsSame : SettingsSame s (doFaultClear args s).state := by
  unfold doFaultClear
  repeat' split
  all_goals rfl

theorem doDeviceRead_settingsSame : SettingsSame s (doDeviceRead args s).state := by
  unfold doDeviceRead
  split
  · rfl
  · exact acceptPart_settingsSame s _ _

theorem doRetireRow_settingsSame : SettingsSame s (doRetireRow args s).state := by
  unfold doRetireRow
  dsimp only
  repeat' split
  · rfl
  · rfl
  · rfl
  · rfl
  · rfl
  · rename_i hroom
    exact (takeJob_inner _ _ _ _ _ s (Nat.lt_of_not_le hroom)).settingsSame

theorem doRemapLoad_settingsSame : SettingsSame s (doRemapLoad args s).state := by
  unfold doRemapLoad
  dsimp only
  repeat' split
  all_goals rfl

theorem doSpareKill_settingsSame : SettingsSame s (doSpareKill args s).state := by
  unfold doSpareKill
  dsimp only
  repeat' split
  all_goals rfl

theorem doRemapRead_settingsSame : SettingsSame s (doRemapRead args s).state := by
  unfold doRemapRead
  dsimp only
  repeat' split
  all_goals rfl

theorem doErase_settingsSame : SettingsSame s (doErase args s).state := by
  unfold doErase
  dsimp only
  repeat' split
  · rfl
  · rfl
  · rfl
  · rename_i hplace hroom
    simp only [not_or, Bool.not_eq_true] at hplace
    obtain ⟨-, -, hfresh⟩ := hplace
    exact (addErasure_inner _ _ 1 s hfresh (Nat.lt_of_not_le hroom)).settingsSame

theorem doUnerase_settingsSame : SettingsSame s (doUnerase args s).state := by
  have hremoved : ∀ rank device, SettingsSame s (unerased rank device s) := fun _ _ => rfl
  unfold doUnerase
  dsimp only
  repeat' split
  · rfl
  · rfl
  · rfl
  · rw [accept_state, removeErasure_eq]
    exact (hremoved _ _).trans (eraseRank_inner _ _).settingsSame

theorem doReportSetup_settingsSame : SettingsSame s (doReportSetup args s).state := by
  unfold doReportSetup
  dsimp only
  repeat' split
  all_goals rfl

theorem doReportRelease_settingsSame : SettingsSame s (doReportRelease args s).state := by
  unfold doReportRelease
  dsimp only
  repeat' split
  all_goals rfl

theorem restartRing_settingsSame : SettingsSame s (restartRing s) := by
  obtain ⟨-, -, -, -, e⟩ := restartRing_eq s
  rw [e]
  rfl

theorem doReportRestart_settingsSame : SettingsSame s (doReportRestart args s).state := by
  unfold doReportRestart
  repeat' split
  · rfl
  · rfl
  · rfl
  · exact restartRing_settingsSame s

theorem doCauseSet_settingsSame : SettingsSame s (doCauseSet args s).state := by
  unfold doCauseSet
  split
  · rfl
  · exact (raiseSet_alerted _ s).settingsSame

theorem doMaskSet_settingsSame : SettingsSame s (doMaskSet args s).state := by
  unfold doMaskSet
  dsimp only
  split <;> rfl

theorem doMaskClear_settingsSame : SettingsSame s (doMaskClear args s).state := by
  unfold doMaskClear
  dsimp only
  split
  · rfl
  · exact (testAlert_alerted { s with report := { s.report with mask := _ } }).settingsSame

end

/-! ## The clear (R198) -/

/-- A clear gives the sweeps up and aborts the jobs, and changes no entry. -/
theorem beginClear_settingsSame (s : State) : SettingsSame s (beginClear s) := by
  have hcleared : SettingsSame s (clearedState s) :=
    .regions (by simp only [clearedState, idledRegions, idledAt_entries]) rfl rfl rfl
  have habort := Internal.foldl (fun s j => abortJob j s) (fun s j => abortJob_inner j s) s.repair.jobs (clearedState s)
  rw [beginClear_eq]
  exact hcleared.trans habort.settingsSame

end Sys2Proof.Machine
end

section
/-! O5: every command and every tick keeps the parameters in their ranges, the regions within the capacity and disjoint, and
the geometry at allowed values. -/

namespace Sys2Proof.Machine

open Sys2Proof

/-! ## Parameters (R197) -/

theorem Params.get_put_self {id : Nat} (h : id < 17) (p : Params) (v : Nat) : (p.put id v).get id = v := by
  interval_cases id <;> rfl

theorem Params.get_put_other {id other : Nat} (h : other ≠ id) (p : Params) (v : Nat) :
    (p.put id v).get other = p.get other := by
  unfold Params.put
  split <;> (unfold Params.get; split <;> first | rfl | exact absurd rfl h)

/-- Seventeen parameters have a range (R197). -/
theorem paramRange_isSome_iff (id : Nat) : (paramRange id).isSome = true ↔ id < 17 := by
  unfold paramRange
  split <;> simp_all
  omega

theorem paramRange_lt {id : Nat} {range : Nat × Nat} (h : paramRange id = some range) : id < 17 :=
  (paramRange_isSome_iff id).1 (h ▸ rfl)

/-- The ends of a range stand in order. -/
theorem paramRange_ordered {id : Nat} {range : Nat × Nat} (h : paramRange id = some range) : range.1 ≤ range.2 := by
  have hlt := paramRange_lt h
  interval_cases id <;> cases h <;> decide

theorem clampTo_mem {range : Nat × Nat} (h : range.1 ≤ range.2) (v : Nat) :
    range.1 ≤ clampTo range v ∧ clampTo range v ≤ range.2 := by
  rw [← Prod.mk.eta (p := range), clampTo_eq h]
  omega

/-- A parameter set to a clamped value leaves every parameter in its range. -/
theorem Params.put_legal {s : State} {id : Nat} {range : Nat × Nat} (hrange : paramRange id = some range) (v : Nat)
    (h : ParamsLegal s) : ParamsLegal { s with params := s.params.put id (clampTo range v) } := by
  intro other hother r hr
  by_cases hid : other = id
  · subst hid
    obtain rfl : range = r := Option.some.inj (hrange.symm.trans hr)
    dsimp only
    rw [Params.get_put_self (paramRange_lt hrange)]
    exact clampTo_mem (paramRange_ordered hrange) v
  · dsimp only
    rw [Params.get_put_other hid]
    exact h other hother r hr

/-! ## Region entries (R54) -/

/-- A valid entry as it may stand under a capacity. -/
def RegionEntry.Fits (capacity : Nat) (e : RegionEntry) : Prop :=
  e.valid = true → 0 < e.length ∧ e.base + e.length ≤ capacity ∧ 1 ≤ e.period ∧ e.period ≤ 65535 ∧ 2 ≤ e.burst ∧
    e.burst ≤ 16

/-- Two entries share no line, or one of them is invalid. -/
def RegionEntry.Apart (e f : RegionEntry) : Prop := e.valid = true → f.valid = true → e.meets f = false

/-- What R54 promises, said of the entries alone. -/
def EntriesFit (capacity : Nat) (l : List RegionEntry) : Prop :=
  l.length = Config.regionCount ∧ (∀ e ∈ l, e.Fits capacity) ∧ l.Pairwise RegionEntry.Apart

theorem regionsFit_iff (s : State) : RegionsFit s ↔ EntriesFit s.capacity (s.regions.map Region.entry) := by
  simp only [RegionsFit, EntriesFit, List.length_map, List.forall_mem_map, List.pairwise_map, RegionEntry.Fits,
    RegionEntry.Apart]

theorem RegionEntry.Apart.symm {e f : RegionEntry} (h : e.Apart f) : f.Apart e := by
  intro hf he
  have hmeets : f.meets e = e.meets f := Bool.and_comm ..
  rw [hmeets]
  exact h he hf

/-- An entry put in the place of another, apart from all the others. -/
theorem EntriesFit.set {capacity i : Nat} {l : List RegionEntry} {e : RegionEntry} (h : EntriesFit capacity l)
    (hfits : e.Fits capacity) (hapart : ∀ j (hj : j < l.length), j ≠ i → e.Apart l[j]) :
    EntriesFit capacity (l.set i e) := by
  obtain ⟨hlength, hall, hpairs⟩ := h
  refine ⟨by rwa [List.length_set], fun f hf => ?_, ?_⟩
  · rcases List.mem_or_eq_of_mem_set hf with hf | rfl
    · exact hall f hf
    · exact hfits
  · rw [List.pairwise_iff_getElem] at hpairs ⊢
    intro m n hm hn hmn
    rw [List.length_set] at hm hn
    simp only [List.getElem_set]
    split
    · rw [if_neg (by omega)]
      exact hapart n hn (by omega)
    · split
      · exact (hapart m hm (by omega)).symm
      · exact hpairs m n hm hn hmn

/-- Entries made invalid or left, under a capacity that the valid ones keep to. -/
theorem EntriesFit.map {capacity low : Nat} {l : List RegionEntry} {f : RegionEntry → RegionEntry}
    (h : EntriesFit low l) (hfits : ∀ e, e.Fits low → (f e).Fits capacity)
    (hapart : ∀ e g, e.Apart g → (f e).Apart (f g)) : EntriesFit capacity (l.map f) := by
  obtain ⟨hlength, hall, hpairs⟩ := h
  refine ⟨by rwa [List.length_map], List.forall_mem_map.2 fun e he => hfits e (hall e he), ?_⟩
  exact List.pairwise_map.2 (hpairs.imp (hapart _ _))

/-! ## The relation -/

/-- What every command keeps of the settings. -/
structure SettingsKept (s t : State) : Prop where
  params : ParamsLegal s → ParamsLegal t
  regions : RegionsFit s ∧ GeometryAllowed s → RegionsFit t ∧ GeometryAllowed t

theorem SettingsKept.trans {a b c : State} (h : SettingsKept a b) (k : SettingsKept b c) : SettingsKept a c :=
  ⟨k.params ∘ h.params, k.regions ∘ h.regions⟩

theorem SettingsSame.kept {s t : State} (h : SettingsSame s t) : SettingsKept s t := by
  simp only [SettingsSame, State.settings, Prod.mk.injEq] at h
  obtain ⟨hparams, hset, hgeom, hentries⟩ := h
  refine ⟨fun hl => ?_, fun ⟨hfit, hallowed⟩ => ⟨?_, ?_⟩⟩
  · rwa [ParamsLegal, hparams]
  · rw [regionsFit_iff] at hfit ⊢
    rwa [State.capacity, hset, hgeom, hentries]
  · rwa [GeometryAllowed, hset, hgeom]

theorem SettingsKept.refl (s : State) : SettingsKept s s := (SettingsSame.refl s).kept

/-- A region's entry put in its place, with the others and the geometry left. -/
theorem SettingsKept.entry {s : State} {i : Nat} {g : Region}
    (h : EntriesFit s.capacity (s.regions.map Region.entry) →
      EntriesFit s.capacity ((s.regions.map Region.entry).set i g.entry)) : SettingsKept s (setRegion i g s) := by
  refine ⟨id, fun ⟨hfit, hallowed⟩ => ⟨?_, hallowed⟩⟩
  rw [regionsFit_iff] at hfit ⊢
  rw [setRegion_regions, List.map_set]
  exact h hfit

/-! ## Power-on (R199) -/

theorem reset_paramsLegal : ParamsLegal .reset := by
  unfold ParamsLegal
  decide

/-- At power-on every entry is invalid (R54). -/
theorem reset_regionsFit : RegionsFit .reset := by
  have hnone : ∀ g ∈ State.reset.regions, g.entry.valid = false := fun g hg => by rw [List.eq_of_mem_replicate hg]
  refine ⟨List.length_replicate, fun g hg hv => ?_, List.Pairwise.imp_of_mem (R := fun _ _ => True) ?_ ?_⟩
  · simp [hnone g hg] at hv
  · intro g _ hg _ _ hv
    simp [hnone g hg] at hv
  · exact List.pairwise_of_forall fun _ _ => trivial

theorem reset_geometryAllowed : GeometryAllowed .reset := nofun

/-! ## The geometry (R20, R21) -/

/-- A change of the geometry leaves no region beyond the capacity, and makes none valid (R21). -/
theorem doConfigureGeometry_settingsKept (args : List Word32) (s : State) :
    SettingsKept s (doConfigureGeometry args s).state := by
  have hring : ∀ u, SettingsSame u (fitRing u) := fun u => .ite rfl (.refl u)
  unfold doConfigureGeometry
  repeat' split
  · exact .refl s
  · exact .refl s
  · exact .refl s
  · rename_i hallowed _
    refine SettingsKept.trans (b := fitted (geometryOf args) s) ⟨id, fun ⟨hfit, _⟩ => ⟨?_, fun _ => ?_⟩⟩ (hring _).kept
    · rw [regionsFit_iff] at hfit ⊢
      have hentries : (fitted (geometryOf args) s).regions.map Region.entry = (s.regions.map Region.entry).map fun e =>
          if e.valid = true ∧ (geometryOf args).capacity < e.base + e.length then { e with valid := false } else e := by
        simp only [fitted, List.map_map]
        refine List.map_congr_left fun g _ => ?_
        simp only [Function.comp_apply, Region.fitted]
        split <;> rfl
      rw [hentries]
      refine hfit.map (fun e he => ?_) fun e g he => ?_
      · split
        · exact nofun
        · rename_i hin
          intro hv
          obtain ⟨hpos, -, hrest⟩ := he hv
          exact ⟨hpos, Nat.not_lt.1 fun hout => hin ⟨hv, hout⟩, hrest⟩
      · split
        · exact nofun
        · split
          · exact fun _ => nofun
          · exact he
    · exact not_not.1 hallowed

/-! ## The Region Table (R59 to R62) -/

theorem loadedEntry_fields {args : List Word32} {e : RegionEntry} (h : loadedEntry args = some e) :
    e.base = argOf args 1 ∧ e.length = argOf args 2 ∧ 1 ≤ e.period ∧ e.period ≤ 65535 ∧ 2 ≤ e.burst ∧ e.burst ≤ 16 := by
  unfold loadedEntry at h
  dsimp only at h
  split at h
  · cases h
    have hperiod := clampTo_mem (range := (1, 65535)) (by decide) (argOf args 3)
    have hburst := clampTo_mem (range := (2, 16)) (by decide) (argOf args 4)
    exact ⟨rfl, rfl, hperiod.1, hperiod.2, hburst.1, hburst.2⟩
  · cases h

/-- An entry that meets no other valid one is apart from each of them (R59). -/
theorem apart_of_overlapOf {s : State} {i : Nat} {e : RegionEntry} (h : overlapOf s i e = none)
    (hlength : (s.regions.map Region.entry).length = Config.regionCount) {j : Nat}
    (hj : j < (s.regions.map Region.entry).length) (hne : j ≠ i) : e.Apart (s.regions.map Region.entry)[j] := by
  rw [overlapOf, List.find?_range_eq_none] at h
  have hfree := h j (hlength ▸ hj)
  intro _ hv
  rw [List.length_map] at hj
  rw [List.getElem_map] at hv ⊢
  have hat : regionAt s j = s.regions[j] := by simp [regionAt, List.getD, hj]
  simpa [hat, hv, hne] using hfree

theorem doRegionLoad_settingsKept (args : List Word32) (s : State) : SettingsKept s (doRegionLoad args s).state := by
  unfold doRegionLoad
  dsimp only
  repeat' split
  · exact .refl s
  · exact .refl s
  · exact .refl s
  · exact .refl s
  · exact .refl s
  · rename_i hset _ e he hbounds _ hfree _
    obtain ⟨-, -, hperiod⟩ := loadedEntry_fields he
    simp only [not_or, Nat.not_lt] at hbounds
    obtain ⟨-, hlength, hcapacity⟩ := hbounds
    have hcapacity' : s.capacity = s.port.geom.capacity := if_pos (not_not.1 hset)
    refine (SettingsKept.entry fun hfit => ?_).trans (runSelection_settled _).settingsSame.kept
    refine hfit.set (fun _ => ⟨Nat.pos_of_ne_zero hlength, hcapacity' ▸ hcapacity, hperiod⟩) fun j hj hne => ?_
    exact apart_of_overlapOf hfree hfit.1 hj hne

theorem doRegionClear_settingsKept (args : List Word32) (s : State) : SettingsKept s (doRegionClear args s).state := by
  unfold doRegionClear
  dsimp only
  repeat' split
  · exact .refl s
  · exact .refl s
  · exact .entry fun hfit => hfit.set nofun fun _ _ _ => nofun

/-! ## SET_PARAM (R197) -/

theorem reviewThreshold_watched (s : State) : Watched s (reviewThreshold s) :=
  Watched.foldl _ (fun _ _ => .foldl _ (fun _ _ => reviewEntry_watched _ _ _) _ _) _ s

/-- What a change of a parameter does at once changes no setting. -/
theorem paramChanged_settingsSame (id : Nat) (s : State) : SettingsSame s (paramChanged id s) := by
  unfold paramChanged
  split
  · exact (((recompute_settled s).trans (reviewOverride_settled _)).trans (settle_settled _)).settingsSame
  · exact ((reviewOverride_settled s).trans (settle_settled _)).settingsSame
  · exact ((reviewLimits_inner s).trans (eraseAll_inner _)).settingsSame
  · exact (eraseAll_inner s).settingsSame
  · exact (eraseAll_inner s).settingsSame
  · exact (reviewThreshold_watched s).settingsSame.trans (settle_settingsSame _)
  · exact (reviewReadyCount_alerted s).settingsSame
  · exact (reviewReadyAge_alerted s).settingsSame
  · rfl

theorem doSetParam_settingsKept (args : List Word32) (s : State) : SettingsKept s (doSetParam args s).state := by
  unfold doSetParam
  split
  · exact .refl s
  · rename_i range hrange
    exact SettingsKept.trans (b := { s with params := s.params.put (argOf args 0) (clampTo range (argOf args 1)) })
      ⟨Params.put_legal hrange _, id⟩ (paramChanged_settingsSame _ _).kept

end Sys2Proof.Machine
end

section
/-! O5, command by command. -/

namespace Sys2Proof.Machine

open Sys2Proof

/-- A command answers a next state that keeps the settings legal. -/
def Upholds (s : State) (answer : Answer) : Prop := ∃ t, answer = .next t ∧ SettingsKept s t

theorem Upholds.next {s t : State} (h : SettingsKept s t) : Upholds s (.next t) := ⟨t, rfl, h⟩

/-- A command that leaves the settings alone. -/
theorem Upholds.same {s t : State} (h : SettingsSame s t) : Upholds s (.next t) := .next h.kept

/-- A command that does nothing here. -/
theorem Upholds.idle (s : State) : Upholds s (.next s) := .same rfl

/-- A command of that kind that the engine's immediate actions close. -/
theorem Upholds.settled {s t : State} (h : SettingsSame s t) : Upholds s (.next (settle t)) :=
  .same (h.trans (settle_settingsSame t))

/-- A timer's moment arrives, and then what it does is done. -/
theorem Upholds.arrived {s t : State} {moment : FineTime} (h : SettingsSame (arrive moment s) t) :
    Upholds s (.next t) := .same ((arrive_settingsSame moment s).trans h)

/-- A timer's moment arrives, and the engine's immediate actions close what it does. -/
theorem Upholds.arrivedSettled {s t : State} {moment : FineTime} (h : SettingsSame (arrive moment s) t) :
    Upholds s (.next (settle t)) := .arrived (h.trans (settle_settingsSame t))

theorem Upholds.ite {p : Prop} [Decidable p] {s : State} {a b : Answer} (h : Upholds s a) (k : Upholds s b) :
    Upholds s (if p then a else b) := by split <;> assumption

/-! ## Dispatches (R192) -/

/-- A dispatch keeps what its owner's decision and what follows its answer keep. -/
theorem serveThen_settingsKept {after : State → State} (hafter : ∀ s, SettingsSame s (after s)) {code needed : Nat}
    {owner : List Word32 → State → Answered} (ho : ∀ args s, SettingsKept s (owner args s).state) (s : State) :
    SettingsKept s (serveThen after code needed owner s) := by
  unfold serveThen
  split
  · rename_i q _
    have hcounted : SettingsSame s (count .maintRequests s) := rfl
    have hdecided : SettingsKept s (decideRequest needed owner q.args (count .maintRequests s)).state := by
      unfold decideRequest
      split
      · exact hcounted.kept
      · exact hcounted.kept.trans (ho _ _)
    have hanswered : ∀ r : Answered, SettingsSame r.state (respond q.tag r) := fun _ => rfl
    exact hdecided.trans ((hanswered _).trans (hafter _)).kept
  · exact .refl s

/-- A dispatch whose owner's decision keeps the settings legal. -/
theorem Upholds.decided {s : State} {code needed : Nat} {owner : List Word32 → State → Answered}
    (h : ∀ args s, SettingsKept s (owner args s).state) : Upholds s (.next (serve code needed owner s)) :=
  .next (serveThen_settingsKept .refl h s)

/-- A dispatch of that kind that the engine's immediate actions close. -/
theorem Upholds.decidedSettled {s : State} {code needed : Nat} {owner : List Word32 → State → Answered}
    (h : ∀ args s, SettingsKept s (owner args s).state) : Upholds s (.next (serveSettled code needed owner s)) :=
  .next (serveThen_settingsKept settle_settingsSame h s)

/-- A dispatch whose owner leaves the settings alone. -/
theorem Upholds.served {s : State} {code needed : Nat} {owner : List Word32 → State → Answered}
    (h : ∀ args s, SettingsSame s (owner args s).state) : Upholds s (.next (serve code needed owner s)) :=
  .decided fun args s => (h args s).kept

/-- A dispatch of that kind that the engine's immediate actions close. -/
theorem Upholds.servedSettled {s : State} {code needed : Nat} {owner : List Word32 → State → Answered}
    (h : ∀ args s, SettingsSame s (owner args s).state) : Upholds s (.next (serveSettled code needed owner s)) :=
  .decidedSettled fun args s => (h args s).kept

/-! ## Power-on and frames -/

theorem execPowerOn_upholds (s : State) : Upholds s (execPowerOn s) :=
  .next ⟨fun _ => reset_paramsLegal, fun _ => ⟨reset_regionsFit, reset_geometryAllowed⟩⟩

theorem execIdle_upholds (byte1 byte2 byte3 : Byte) (check : BitVec 16) (s : State) :
    Upholds s (execIdle byte1 byte2 byte3 check s) := .ite (.idle s) (.same (discardFrame_settingsSame s))

theorem execRead_upholds (tag byte2 byte3 : Byte) (line : BitVec 64) (check : BitVec 16) (s : State) :
    Upholds s (execRead tag byte2 byte3 line check s) := by
  refine .ite (.same (discardFrame_settingsSame s)) ?_
  dsimp only
  split
  · exact .same rfl
  · exact .same (portRead_settingsSame _ _ (acceptFrame tag s))

theorem execWrite_upholds (tag flags byte3 : Byte) (line : BitVec 64) (data : Data) (check : BitVec 16) (s : State) :
    Upholds s (execWrite tag flags byte3 line data check s) := by
  refine .ite (.same (discardFrame_settingsSame s)) ?_
  dsimp only
  split
  · exact .same rfl
  · exact .same (portWrite_settingsSame _ _ _ _ (takeWrite_settingsSame _ _ _) (acceptFrame tag s))

theorem execWriteMasked_upholds (tag flags byte3 : Byte) (line : BitVec 64) (data : Data) (mask : BitVec 64)
    (check : BitVec 16) (s : State) : Upholds s (execWriteMasked tag flags byte3 line data mask check s) := by
  refine .ite (.same (discardFrame_settingsSame s)) ?_
  dsimp only
  split
  · exact .same rfl
  · exact .same (portWrite_settingsSame _ _ _ _ (testMask_settingsSame _ _ _ _) (acceptFrame tag s))

theorem execMaint_upholds (tag byte2 : Byte) (code pad : BitVec 16) (args : List Word32) (check : BitVec 16) (s : State) :
    Upholds s (execMaint tag byte2 code pad args check s) :=
  .ite (.same (discardFrame_settingsSame s)) (.same (takeRequest_settingsSame _ _ _ (acceptFrame tag s)))

theorem execMalformedFrame_upholds (bytes : List Byte) (s : State) : Upholds s (execMalformedFrame bytes s) :=
  .ite (.same (discardFrame_settingsSame s)) (.idle s)

theorem execReturnFrameSent_upholds (s : State) : Upholds s (execReturnFrameSent s) := by
  unfold execReturnFrameSent
  split
  · exact .ite (.same (frameLeft_settingsSame _ _ s)) (.same rfl)
  · exact .same rfl

/-! ## The DRAM Port -/

theorem execArbiterGrant_upholds (accept : BitVec 64) (refresh : BitVec 4) (s : State) :
    Upholds s (execArbiterGrant accept refresh s) := by
  unfold execArbiterGrant
  split
  · exact .settled (grant_settingsSame _ s)
  · exact .idle s

theorem execDemandReadDecode_upholds (line : Nat) (damage : Line) (s : State) :
    Upholds s (execDemandReadDecode line damage s) := by
  unfold execDemandReadDecode
  repeat' split
  · exact .settled (demandDecoded_settingsSame _ _ _ s)
  · exact .idle s
  · exact .idle s

theorem execScrubReadDecode_upholds (line : Nat) (damage : Line) (s : State) :
    Upholds s (execScrubReadDecode line damage s) := by
  unfold execScrubReadDecode
  repeat' split
  · exact .settled (patrolDecoded_settingsSame _ _ _ s)
  · exact .settled (targetedDecoded_settingsSame _ _ s)
  · exact .idle s
  · exact .idle s

theorem execRmwReadDecode_upholds (line : Nat) (damage : Line) (s : State) :
    Upholds s (execRmwReadDecode line damage s) := by
  unfold execRmwReadDecode
  repeat' split
  · exact .settled ((mergeUnit_settingsSame _ _ _ _ _ s).trans (handEvent_inner _ _).settingsSame)
  · exact .idle s
  · exact .idle s

theorem execCopyReadDecode_upholds (line : Nat) (damage : Line) (s : State) :
    Upholds s (execCopyReadDecode line damage s) := by
  unfold execCopyReadDecode
  repeat' split
  · exact .settled (copyDecoded_settingsSame _ _ s)
  · exact .idle s
  · exact .idle s

theorem execDemandWritePerformed_upholds (line : Nat) (s : State) : Upholds s (execDemandWritePerformed line s) := by
  unfold execDemandWritePerformed
  repeat' split
  · exact .same (answeredWrite_settingsSame _ _ _ .fresh .ok s)
  · exact .idle s
  · exact .idle s

theorem execMaskedWritePerformed_upholds (line : Nat) (s : State) : Upholds s (execMaskedWritePerformed line s) := by
  unfold execMaskedWritePerformed
  repeat' split
  · exact .same (answeredWrite_settingsSame _ _ _ _ _ s)
  · exact .idle s
  · exact .idle s

theorem execWritebackPerformed_upholds (line : Nat) (s : State) : Upholds s (execWritebackPerformed line s) := by
  unfold execWritebackPerformed
  split
  · exact .ite (.same (written_settingsSame _ _ _ s)) (.idle s)
  · exact .idle s

theorem execRecordWritePerformed_upholds (line : Nat) (s : State) : Upholds s (execRecordWritePerformed line s) := by
  unfold execRecordWritePerformed
  repeat' split
  · exact .same (recordWritten_settingsSame _ _ _ s)
  · exact .idle s
  · exact .idle s

theorem execCopyWritePerformed_upholds (line : Nat) (s : State) : Upholds s (execCopyWritePerformed line s) := by
  unfold execCopyWritePerformed
  repeat' split
  · exact .same (spareWritten_settingsSame _ _ _ s)
  · exact .idle s
  · exact .idle s

/-! ## The timers -/

theorem execRowHoldExpiry_upholds (rank bank : Nat) (s : State) : Upholds s (execRowHoldExpiry rank bank s) := by
  have hclosed : ∀ (u : State) (rows : AMap OpenRow),
      SettingsSame u { u with port := { u.port with openRows := rows } } := fun _ _ => rfl
  unfold execRowHoldExpiry
  repeat' split
  · exact .idle s
  · exact .arrived (hclosed _ _)
  · exact .idle s
  · exact .idle s

theorem refreshDue_settingsSame (rank : Nat) (moment : FineTime) (s : State) :
    SettingsSame s (refreshDue rank moment s) := .ite (.refl s) (.refl s)

theorem execRefreshTimerExpiry_upholds (rank : Nat) (s : State) : Upholds s (execRefreshTimerExpiry rank s) := by
  unfold execRefreshTimerExpiry
  split
  · exact .arrived (refreshDue_settingsSame _ _ _)
  · exact .idle s

theorem reachDue_settingsSame (s : State) : SettingsSame s (reachDue s) :=
  .ite (.refl s) (runSelection_settled s).settingsSame

theorem execRegionDue_upholds (s : State) : Upholds s (execRegionDue s) := by
  unfold execRegionDue
  split
  · exact .arrivedSettled (reachDue_settingsSame _)
  · exact .idle s

theorem reachIssue_settingsSame (s : State) : SettingsSame s (reachIssue s) := by
  unfold reachIssue
  split
  · exact (atBoundary_settled _ s).settingsSame
  · rfl

theorem execPatrolLineIssue_upholds (s : State) : Upholds s (execPatrolLineIssue s) := by
  unfold execPatrolLineIssue
  repeat' split
  · exact .arrivedSettled (reachIssue_settingsSame _)
  · exact .idle s
  · exact .idle s

theorem execBurstIssue_upholds (s : State) : Upholds s (execBurstIssue s) := by
  unfold execBurstIssue
  repeat' split
  · exact .arrivedSettled (reachIssue_settingsSame _)
  · exact .idle s
  · exact .idle s

theorem execQuietExpiry_upholds (s : State) : Upholds s (execQuietExpiry s) := by
  unfold execQuietExpiry
  split
  · exact .arrivedSettled ((closeWindow_settled _).trans (.count _ _)).settingsSame
  · exact .idle s

theorem execQuietOverride_upholds (s : State) : Upholds s (execQuietOverride s) := by
  unfold execQuietOverride
  repeat' split
  · exact .arrivedSettled (overrideWindow_settled _ _ _).settingsSame
  · exact .idle s
  · exact .idle s

theorem execDecayEpoch_upholds (s : State) : Upholds s (execDecayEpoch s) := by
  have hrestart : ∀ t u, SettingsSame u (restartDecay t u) := fun _ u => .fault u _
  unfold execDecayEpoch
  exact .arrived (moment := onMicrosecond s.fault.decayEnd) ((hrestart s.fault.decayEnd _).trans (decay_inner _).settingsSame)

theorem execHammerWindowExpiry_upholds (s : State) : Upholds s (execHammerWindowExpiry s) := by
  have hrestart : ∀ t u, SettingsSame u (restartHammer t u) := fun _ u => .hammer u _
  have hzeroed : ∀ u, SettingsSame u (count .hammerWindows (zeroHammer u)) := fun _ => rfl
  unfold execHammerWindowExpiry
  exact .arrived (moment := onMicrosecond s.hammer.windowEnd) ((hrestart s.hammer.windowEnd _).trans (hzeroed _))

theorem execHoldoffExpiry_upholds (s : State) : Upholds s (execHoldoffExpiry s) := by
  have hstopped : ∀ (u : State) (report : Report), SettingsSame u { u with report := report } := fun _ _ => rfl
  unfold execHoldoffExpiry
  split
  · exact .arrived ((hstopped _ _).trans (testAlert_alerted _).settingsSame)
  · exact .idle s

theorem execReadyAgeExpiry_upholds (s : State) : Upholds s (execReadyAgeExpiry s) := by
  unfold execReadyAgeExpiry
  split
  · exact .arrived (announce_alerted _).settingsSame
  · exact .idle s

/-! ## The clear and the unknown request -/

theorem execChannelClear_upholds (s : State) : Upholds s (execChannelClear s) := by
  unfold execChannelClear
  split
  · exact .same (beginClear_settingsSame (count .maintRequests s))
  · exact .idle s

theorem execChannelClearComplete_upholds (selectionFirst : Bool) (s : State) :
    Upholds s (execChannelClearComplete selectionFirst s) := by
  have hend : ∀ tag, SettingsSame s (endClear tag s) := fun _ => rfl
  unfold execChannelClearComplete
  repeat' split
  · exact .settled ((hend _).trans (afterClear_settled _ _).settingsSame)
  · exact .idle s
  · exact .idle s

theorem execBadRequest_upholds (s : State) : Upholds s (execBadRequest s) := by
  unfold execBadRequest
  split
  · exact .ite (.same rfl) (.idle s)
  · exact .idle s

/-! ## Every command -/

theorem exec_upholds (c : Instr) (s : State) : Upholds s (exec c s) := by
  cases c with
  | powerOn => exact execPowerOn_upholds s
  | idle byte1 byte2 byte3 check => exact execIdle_upholds byte1 byte2 byte3 check s
  | read tag byte2 byte3 line check => exact execRead_upholds tag byte2 byte3 line check s
  | write tag flags byte3 line data check => exact execWrite_upholds tag flags byte3 line data check s
  | writeMasked tag flags byte3 line data mask check =>
    exact execWriteMasked_upholds tag flags byte3 line data mask check s
  | maint tag byte2 code pad args check => exact execMaint_upholds tag byte2 code pad args check s
  | arbiterGrant accept refresh => exact execArbiterGrant_upholds accept refresh s
  | demandReadDecode line damage => exact execDemandReadDecode_upholds line damage s
  | scrubReadDecode line damage => exact execScrubReadDecode_upholds line damage s
  | rmwReadDecode line damage => exact execRmwReadDecode_upholds line damage s
  | copyReadDecode line damage => exact execCopyReadDecode_upholds line damage s
  | demandWritePerformed line => exact execDemandWritePerformed_upholds line s
  | maskedWritePerformed line => exact execMaskedWritePerformed_upholds line s
  | writebackPerformed line => exact execWritebackPerformed_upholds line s
  | recordWritePerformed line => exact execRecordWritePerformed_upholds line s
  | copyWritePerformed line => exact execCopyWritePerformed_upholds line s
  | returnFrameSent => exact execReturnFrameSent_upholds s
  | rowHoldExpiry rank bank => exact execRowHoldExpiry_upholds rank bank s
  | refreshTimerExpiry rank => exact execRefreshTimerExpiry_upholds rank s
  | regionDue => exact execRegionDue_upholds s
  | patrolLineIssue => exact execPatrolLineIssue_upholds s
  | burstIssue => exact execBurstIssue_upholds s
  | quietExpiry => exact execQuietExpiry_upholds s
  | quietOverride => exact execQuietOverride_upholds s
  | decayEpoch => exact execDecayEpoch_upholds s
  | hammerWindowExpiry => exact execHammerWindowExpiry_upholds s
  | holdoffExpiry => exact execHoldoffExpiry_upholds s
  | readyAgeExpiry => exact execReadyAgeExpiry_upholds s
  | identify => exact .served fun _ s => .refl s
  | readTime => exact .served fun _ s => .refl s
  | setTime => exact .served fun _ s => .refl s
  | setParam => exact .decided doSetParam_settingsKept
  | readStats => exact .served doReadStats_settingsSame
  | statsClear => exact .served fun _ s => .refl s
  | goOnline => exact .served doGoOnline_settingsSame
  | channelClear => exact execChannelClear_upholds s
  | channelClearComplete selectionFirst => exact execChannelClearComplete_upholds selectionFirst s
  | configureGeometry => exact .decided doConfigureGeometry_settingsKept
  | regionLoad => exact .decidedSettled doRegionLoad_settingsKept
  | regionClear => exact .decided doRegionClear_settingsKept
  | regionRead => exact .served doRegionRead_settingsSame
  | scrubEnable => exact .servedSettled doScrubEnable_settingsSame
  | scrubDisable => exact .servedSettled doScrubDisable_settingsSame
  | sweepNow => exact .servedSettled doSweepNow_settingsSame
  | sweepHalt => exact .servedSettled doSweepHalt_settingsSame
  | sweepResume => exact .servedSettled doSweepResume_settingsSame
  | quietBegin => exact .servedSettled doQuietBegin_settingsSame
  | quietEnd => exact .servedSettled doQuietEnd_settingsSame
  | faultRead => exact .served doFaultRead_settingsSame
  | faultClear => exact .served doFaultClear_settingsSame
  | deviceRead => exact .served doDeviceRead_settingsSame
  | retireRow => exact .served doRetireRow_settingsSame
  | remapLoad => exact .served doRemapLoad_settingsSame
  | spareKill => exact .served doSpareKill_settingsSame
  | remapRead => exact .served doRemapRead_settingsSame
  | erase => exact .served doErase_settingsSame
  | unerase => exact .served doUnerase_settingsSame
  | reportSetup => exact .served doReportSetup_settingsSame
  | reportRelease => exact .served doReportRelease_settingsSame
  | reportRestart => exact .served doReportRestart_settingsSame
  | readCauses => exact .served fun _ s => .refl s
  | causeSet => exact .served doCauseSet_settingsSame
  | maskSet => exact .served doMaskSet_settingsSame
  | maskClear => exact .served doMaskClear_settingsSame
  | badRequest => exact execBadRequest_upholds s
  | malformedFrame bytes => exact execMalformedFrame_upholds bytes s

/-- Settles O5: a tick changes no setting, and every command keeps the settings legal. -/
theorem stepsKeepParamsAndRegionsLegal : Obligations.StepsKeepParamsAndRegionsLegal := by
  intro s t h
  unfold step at h
  split at h
  · cases h
    have hk := (setNow_settingsSame (s.maint.now.later 1) s).kept
    exact ⟨hk.params, hk.regions⟩
  · rename_i c rest _
    obtain ⟨u, hu, hk⟩ := exec_upholds c { s with pending := rest }
    rw [hu] at h
    cases h
    exact ⟨hk.params, hk.regions⟩

end Sys2Proof.Machine
end

section
/-! O11 and O1: the state after power-on, and the step that runs a command. -/

namespace Sys2Proof.Machine

open Sys2Proof

/-! ## After power-on (R199) -/

theorem reset_erasuresBounded : ErasuresBounded .reset := ⟨rfl, by simp [State.reset]⟩

theorem reset_recordsInOrder : RecordsInOrder .reset := ⟨Report.inOrder_empty rfl rfl rfl, nofun⟩

theorem reset_scoresBounded : ScoresBounded .reset := by
  refine ⟨fun e he => ?_, fun d hd => ?_⟩
  · rw [List.eq_of_mem_replicate he]
    simp
  · rw [List.eq_of_mem_replicate hd]
    simp

/-- At power-on every row entry is FREE (R111). -/
theorem reset_faultTableLegal : FaultTableLegal .reset := by
  refine ⟨List.pairwise_replicate.2 (.inr (.inl rfl)), fun e he => ?_⟩
  rw [List.eq_of_mem_replicate he]
  simp

theorem reset_tagsMatch : TagsMatch .reset := by
  simp [TagsMatch, outstanding, State.reset]

/-- At power-on the three places are empty, and every region is IDLE and invalid (R56, R70). -/
theorem reset_slotsAgree : SlotsAgree .reset := by
  rw [slotsAgree_iff]
  refine ⟨List.nodup_nil, nofun, fun i g hg => ?_⟩
  have hstanding : g = (false, .idle) := by
    simp only [State.reset, List.map_replicate, Option.mem_def] at hg
    exact List.eq_of_mem_replicate (List.mem_of_getElem? hg)
  rw [hstanding]
  exact ⟨rfl, fun _ => rfl⟩

theorem reset_remapLegal : RemapLegal .reset := (remapLegal_iff _).2 (RemapInv.empty (spares := 0) (Nat.zero_le _))

/-- Settles O11, invariant by invariant. -/
theorem resetMeetsEveryInvariant : Obligations.ResetMeetsEveryInvariant :=
  ⟨⟨Nat.zero_le _, List.nodup_nil⟩, ⟨Nat.zero_le _, List.nodup_nil⟩, ⟨Nat.zero_le _, Nat.zero_le _⟩,
    reset_erasuresBounded, reset_paramsLegal, reset_recordsInOrder, reset_scoresBounded, reset_faultTableLegal,
    engineLegal_of_stopped nofun nofun rfl nofun, reset_hammerLegal, reset_regionsFit, reset_geometryAllowed,
    oneAlertWaits_of_begun rfl (Nat.zero_le _), rfl, ⟨rfl, rfl⟩, fun _ => rfl, reset_tagsMatch, reset_slotsAgree,
    reset_remapLegal⟩

/-! ## A step -/

theorem step_of_nil {s : State} (h : s.pending = []) : step s = .next (tick s) := by
  rw [step, h]

theorem step_of_cons {s : State} {c : Instr} {rest : List Instr} (h : s.pending = c :: rest) :
    step s = exec c { s with pending := rest } := by
  rw [step, h]

/-- Settles O1: the front of the queue decides the step. -/
theorem stepRunsTheFrontCommand : Obligations.StepRunsTheFrontCommand := fun _ _ _ => step_of_cons

end Sys2Proof.Machine
end

section
/-! O2: a tick of the time base, and how the times that the part keeps stand after it (R56, R196). -/

namespace Sys2Proof.Machine

open Sys2Proof

/-! ## A kept time (R196) -/

/-- A time moved forward lies as far behind as a kept time may. -/
theorem elapsedDiff_stale (now : Elapsed) : elapsedDiff now (now - BitVec.ofNat 48 staleAge) = staleAge := by
  have h : now - (now - BitVec.ofNat 48 staleAge) = BitVec.ofNat 48 staleAge := by ring
  rw [elapsedDiff, h]
  rfl

theorem elapsedDiff_keptTime (now t : Elapsed) : elapsedDiff now (keptTime now t) ≤ staleAge := by
  unfold keptTime
  split
  · exact (elapsedDiff_stale now).le
  · exact Int.not_lt.1 ‹_›

theorem fineDiff_keptFine (now t : FineTime) : fineDiff now (keptFine now t) ≤ staleAge * 80 := by
  unfold keptFine
  split
  · simp only [fineDiff, elapsedDiff_stale]
    omega
  · exact Int.not_lt.1 ‹_›

/-! ## The times kept -/

/-- A FREE row entry keeps no time; of the others both move (R111, R196). -/
theorem keptEntries_times (now : Elapsed) (l : List FaultEntry) :
    ((l.map (FaultEntry.keep now)).filter fun e => e.state != .free).flatMap (fun e => [e.firstSeen, e.lastSeen]) =
      ((l.filter fun e => e.state != .free).flatMap fun e => [e.firstSeen, e.lastSeen]).map (keptTime now) := by
  induction l with
  | nil => rfl
  | cons e l ih =>
    by_cases he : e.state = .free
    · simp [FaultEntry.keep, he, ih]
    · simp [FaultEntry.keep, he, ih]

theorem toList_optionMap {α β : Type} (f : α → β) (o : Option α) : (o.map f).toList = o.toList.map f := by
  cases o <;> rfl

theorem elapsedTimes_setNow (t : FineTime) (s : State) :
    elapsedTimes (setNow t s) = (elapsedTimes s).map (keptTime t.us) := by
  simp only [elapsedTimes, List.map_append, ← keptEntries_times]
  simp [setNow, timedSweeps, Sweep.keep, Region.keep, toList_optionMap, List.map_flatMap, List.flatMap_map,
    List.map_filterMap, Function.comp_def]

theorem fineTimes_setNow (t : FineTime) (s : State) : fineTimes (setNow t s) = (fineTimes s).map (keptFine t) := by
  simp [fineTimes, setNow, timedSweeps, Sweep.keep, toList_optionMap, List.map_flatMap, List.flatMap_map,
    Function.comp_def]

/-! ## Ticks (R196) -/

theorem FineTime.later_later (t : FineTime) (m n : Nat) : (t.later m).later n = t.later (m + n) := by
  have hus : (t.sub.val + m) / 80 + ((t.sub.val + m) % 80 + n) / 80 = (t.sub.val + (m + n)) / 80 := by omega
  have hsub : ((t.sub.val + m) % 80 + n) % 80 = (t.sub.val + (m + n)) % 80 := by omega
  simp only [FineTime.later, Fin.ofNat, BitVec.add_assoc, ← BitVec.ofNat_add, hus, hsub]

theorem FineTime.later_zero (t : FineTime) : t.later 0 = t := by
  have hsub := t.sub.isLt
  simp [FineTime.later, Fin.ofNat, Nat.div_eq_of_lt hsub, Nat.mod_eq_of_lt hsub]

theorem FineTime.later_one_iterate (t : FineTime) (n : Nat) : (fun m : FineTime => m.later 1)^[n] t = t.later n := by
  induction n with
  | zero => exact t.later_zero.symm
  | succ n ih => rw [Function.iterate_succ_apply', ih, FineTime.later_later]

/-- Eighty ticks are one µs. -/
theorem FineTime.later_eighty (t : FineTime) : t.later 80 = { us := t.us + 1, sub := t.sub } := by
  have hsub := t.sub.isLt
  have hus : (t.sub.val + 80) / 80 = 1 := by omega
  simp [FineTime.later, Fin.ofNat, hus, Nat.mod_eq_of_lt hsub]

/-- Settles O2: a tick is the time set to the next eightieth of a µs, and every kept time moves by the one rule. -/
theorem emptyQueueTicks : Obligations.EmptyQueueTicks := by
  refine ⟨fun s h => ⟨tick s, step_of_nil h, rfl, rfl, rfl, rfl, rfl, rfl, h, rfl, rfl, ?_, ?_, ?_, ?_, ?_⟩, fun m => ?_⟩
  · simp [tick, setNow, Region.keep, Function.comp_def]
  · exact elapsedTimes_setNow _ s
  · exact fineTimes_setNow _ s
  · intro x hx
    rw [tick, elapsedTimes_setNow] at hx
    obtain ⟨y, -, rfl⟩ := List.mem_map.1 hx
    exact elapsedDiff_keptTime _ y
  · intro x hx
    rw [tick, fineTimes_setNow] at hx
    obtain ⟨y, -, rfl⟩ := List.mem_map.1 hx
    exact fineDiff_keptFine _ y
  · rw [FineTime.later_one_iterate, FineTime.later_eighty]

end Sys2Proof.Machine
end

section
/-! O50, O51 and O52: the requests that return fixed or kept words, and those that change one thing. -/

namespace Sys2Proof.Machine

open Sys2Proof

/-- Settles O50: the words are those of the capacities that the part fixes. -/
theorem identifyReturnsSixFixedWords : Obligations.IdentifyReturnsSixFixedWords := fun _ _ h =>
  serve_next h (Nat.zero_le _) rfl

/-! ## The words of a region, an entry, a device and a slot (R63, R128, R130, R150, R193) -/

theorem regionWords_eq (g : Region) : regionWords g =
    [if g.entry.valid then 1 else 0, word g.entry.base, word g.entry.length, if g.entry.patrol then 1 else 0,
     word g.entry.period, word g.entry.cls.code, word g.entry.mode.code, word g.entry.burst, word g.entry.policy.code,
     if g.entry.locked then 1 else 0, if g.entry.sweepRecords then 1 else 0, word g.status.state.code,
     g.status.due.setWidth 32, (g.status.due >>> 32).setWidth 32, g.status.lastStart.setWidth 32,
     (g.status.lastStart >>> 32).setWidth 32, g.status.lastEnd.setWidth 32, (g.status.lastEnd >>> 32).setWidth 32,
     word g.status.completed, word g.status.missed, word g.status.late, word g.status.corrected,
     word g.status.uncorrectable] := rfl

theorem faultWords_eq (e : FaultEntry) : faultWords e =
    [word e.state.code, word (reasonCode e.reason), word e.rank, word e.bank, word e.row, word e.score,
     e.devices.setWidth 32, word e.events, word e.uncorrectables, e.firstSeen.setWidth 32,
     (e.firstSeen >>> 32).setWidth 32, e.lastSeen.setWidth 32, (e.lastSeen >>> 32).setWidth 32, word e.lastCol,
     word e.lastDevice] := rfl

theorem regionWords_length (g : Region) : (regionWords g).length = 23 := rfl

theorem faultWords_length (e : FaultEntry) : (faultWords e).length = 15 := rfl

/-- The three fields of a device's word stand in bits of their own (R193). -/
theorem deviceWord_fields {d : DeviceScore} (h : d.score < 2 ^ 16) (erased : Bool) :
    (deviceWord d erased).extractLsb' 0 16 = BitVec.ofNat 16 d.score ∧ (deviceWord d erased).getLsbD 16 = erased ∧
    (deviceWord d erased).getLsbD 17 = d.limitReported ∧ (deviceWord d erased).extractLsb' 18 14 = 0 := by
  have hword : deviceWord d erased = word (d.score + 65536 * erased.toNat + 131072 * d.limitReported.toNat) := rfl
  rw [hword]
  generalize hn : d.score + 65536 * erased.toNat + 131072 * d.limitReported.toNat = n
  have herased := erased.toNat_le
  have hlimit := d.limitReported.toNat_le
  have hlow : n % 65536 = d.score := by omega
  have hhigh : n / 65536 = erased.toNat + 2 * d.limitReported.toNat := by omega
  have htop : n / 131072 = d.limitReported.toNat := by omega
  have hbit : ∀ i < 32, (word n).getLsbD i = decide (n / 2 ^ i % 2 = 1) := fun i hi => by
    rw [word, BitVec.getLsbD_ofNat, Nat.testBit_eq_decide_div_mod_eq, decide_eq_true hi, Bool.true_and]
  refine ⟨BitVec.eq_of_toNat_eq ?_, ?_, ?_, BitVec.eq_of_toNat_eq ?_⟩
  · rw [BitVec.extractLsb'_toNat, word, BitVec.toNat_ofNat, BitVec.toNat_ofNat, Nat.shiftRight_zero]
    omega
  · rw [hbit 16 (by decide), show 2 ^ 16 = 65536 from rfl, hhigh]
    cases erased <;> simp
  · rw [hbit 17 (by decide), show 2 ^ 17 = 131072 from rfl, htop]
    cases d.limitReported <;> rfl
  · have hzero : (0 : BitVec 14).toNat = 0 := rfl
    rw [BitVec.extractLsb'_toNat, word, BitVec.toNat_ofNat, Nat.shiftRight_eq_div_pow, hzero]
    omega

/-! ## Reading requests -/

/-- A part of a result list that begins within it is returned (R193). -/
theorem acceptPart_of_lt {part : Nat} {results : List Word32} (h : 8 * part < results.length) (s : State) :
    acceptPart part results s =
      { status := .ok, results := (results.drop (8 * part)).take 8, state := s } := if_neg (Nat.not_le.2 h)

/-- The optional second argument of a reading request. -/
theorem argOf_one (a : Word32) (l : List Word32) : argOf (a :: l) 1 = (l.getD 0 0).toNat := rfl

theorem doReadStats_of_le {s : State} {block first : Word32} (more : List Word32) (hblock : block.toNat ≤ 10)
    (hfirst : first.toNat < (Ctr.ofBlock block.toNat).length) : doReadStats (block :: first :: more) s =
      { status := .ok, results := (((Ctr.ofBlock block.toNat).drop first.toNat).take 8).map fun c => word (s.counters.get c)
        state := s } :=
  if_neg fun h => h.elim (Nat.not_lt.2 hblock) (Nat.not_le.2 hfirst)

theorem doRegionRead_of_le {s : State} {index : Word32} {more : List Word32} (hindex : index.toNat ≤ 31)
    (hpart : 8 * (more.getD 0 0).toNat < 23) : doRegionRead (index :: more) s =
      { status := .ok, state := s
        results := ((regionWords (regionAt s index.toNat)).drop (8 * (more.getD 0 0).toNat)).take 8 } := by
  rw [doRegionRead, argOf_zero, argOf_one, if_neg (Nat.not_lt.2 hindex), acceptPart_of_lt (by rwa [regionWords_length])]

theorem doFaultRead_of_le {s : State} {index : Word32} {more : List Word32} (hindex : index.toNat ≤ 63)
    (hpart : 8 * (more.getD 0 0).toNat < 15) : doFaultRead (index :: more) s =
      { status := .ok, state := s
        results := ((faultWords (faultAt s index.toNat)).drop (8 * (more.getD 0 0).toNat)).take 8 } := by
  rw [doFaultRead, argOf_zero, argOf_one, if_neg (Nat.not_lt.2 hindex), acceptPart_of_lt (by rwa [faultWords_length])]

theorem deviceResult_eq (s : State) (rank device : Nat) : deviceResult s rank device =
    if s.port.geomSet = true ∧ rank < s.port.geom.ranks then
      deviceWord (deviceAt s rank device) ((erasureSet s rank).contains device)
    else 0 := by
  simp only [deviceResult, includesRank, Bool.and_eq_true, decide_eq_true_eq, isErased]

theorem doDeviceRead_of_le {s : State} {rank : Word32} {more : List Word32} (hrank : rank.toNat ≤ 3)
    (hpart : 8 * (more.getD 0 0).toNat < 20) : doDeviceRead (rank :: more) s =
      { status := .ok, state := s
        results := (((List.range 20).map (deviceResult s rank.toNat)).drop (8 * (more.getD 0 0).toNat)).take 8 } := by
  rw [doDeviceRead, argOf_zero, argOf_one, if_neg (Nat.not_lt.2 hrank),
    acceptPart_of_lt (by rwa [List.length_map, List.length_range])]

theorem doRemapRead_of_le {s : State} {rank bank first : Word32} (more : List Word32) (hgeom : s.port.geomSet = true)
    (hrank : rank.toNat < s.port.geom.ranks) (hbank : bank.toNat ≤ 15)
    (hfirst : first.toNat < s.port.geom.spares ∨ first.toNat = 0) : doRemapRead (rank :: bank :: first :: more) s =
      { status := .ok, state := s
        results := (((List.range s.port.geom.spares).drop first.toNat).take 8).map fun k =>
          slotWord (slotAt s rank.toNat bank.toNat k) } := by
  have hplace : ¬ (s.port.geom.ranks ≤ rank.toNat ∨ 15 < bank.toNat ∨
      s.port.geom.spares ≤ first.toNat ∧ first.toNat ≠ 0) := by omega
  simp only [doRemapRead, argOf_zero, argOf_succ, hgeom, not_true_eq_false, if_false]
  exact if_neg hplace

/-- Settles O51: each request by its owner's decision, and each list of words field by field. -/
theorem readRequestsReturnTheirWords : Obligations.ReadRequestsReturnTheirWords := by
  refine ⟨fun s q => ⟨fun h => serve_next h (Nat.zero_le _) rfl, fun h block first more hargs hblock hfirst => ?_,
    fun h index more hargs hindex hpart => ?_, fun h index more hargs hindex hpart => ?_,
    fun h rank more hargs hrank hpart => ?_, fun h rank bank first more hargs hgeom hrank hbank hfirst => ?_⟩,
    fun g => ?_, fun e => ?_, fun d erased h => deviceWord_fields h erased, fun x => ?_⟩
  · exact serve_next h (by simp [hargs]) (by rw [hargs]; exact doReadStats_of_le more hblock hfirst)
  · exact serve_next h (by simp [hargs]) (by rw [hargs]; exact doRegionRead_of_le hindex hpart)
  · exact serve_next h (by simp [hargs]) (by rw [hargs]; exact doFaultRead_of_le hindex hpart)
  · simp only [← deviceResult_eq]
    exact serve_next h (by simp [hargs]) (by rw [hargs]; exact doDeviceRead_of_le hrank hpart)
  · exact serve_next h (by simp [hargs])
      (by rw [hargs]; exact doRemapRead_of_le (s := dispatched s) more hgeom hrank hbank hfirst)
  · simp only [regionWords_eq, List.cons.injEq, and_true, true_and]
    refine ⟨?_, ?_, ?_, ?_⟩
    · cases g.entry.cls <;> rfl
    · cases g.entry.mode <;> rfl
    · cases g.entry.policy <;> rfl
    · cases g.status.state <;> rfl
  · simp only [faultWords_eq, List.cons.injEq, and_true]
    refine ⟨?_, ?_⟩
    · cases e.state <;> rfl
    · rcases e.reason with - | (- | - | -) <;> rfl
  · rcases x with - | (l | k) | ⟨l | k, cursor⟩ | l | - <;> rfl

/-! ## Requests that change one thing -/

theorem doRegionClear_of_le {s : State} {index : Word32} (more : List Word32) (hindex : index.toNat ≤ 31) :
    doRegionClear (index :: more) s =
      if (regionAt s index.toNat).status.state ≠ .idle then refuse .busy s
      else accept [] (setRegion index.toNat
        { regionAt s index.toNat with entry := { (regionAt s index.toNat).entry with valid := false } } s) :=
  if_neg (Nat.not_lt.2 hindex)

theorem doFaultClear_of_le {s : State} {index : Word32} (more : List Word32) (hindex : index.toNat ≤ 63) :
    doFaultClear (index :: more) s =
      if (faultAt s index.toNat).state = .retiring then refuse .busy s
      else accept [] (setFault index.toNat {} s) :=
  if_neg (Nat.not_lt.2 hindex)

/-- Settles O52: each request by its owner's decision. -/
theorem plainRequestsChangeOneThing : Obligations.PlainRequestsChangeOneThing := by
  intro s q
  refine ⟨fun h low high more hargs => ?_, fun h => serve_next h (Nat.zero_le _) rfl, fun h hgeom => ?_,
    fun h index more hargs hindex => ?_, fun h index more hargs hindex => ?_⟩
  · exact serve_next h (by simp [hargs]) (by rw [hargs]; rfl)
  · exact serve_next h (Nat.zero_le _) (if_pos hgeom)
  · have hdecided := (congrArg (doRegionClear · (dispatched s)) hargs).trans (doRegionClear_of_le more hindex)
    split
    next hidle => exact serve_next h (by simp [hargs]) (hdecided.trans (if_neg (not_not.2 hidle)))
    next hbusy => exact serve_next h (by simp [hargs]) (hdecided.trans (if_pos hbusy))
  · have hdecided := (congrArg (doFaultClear · (dispatched s)) hargs).trans (doFaultClear_of_le more hindex)
    split
    next hretiring => exact serve_next h (by simp [hargs]) (hdecided.trans (if_pos hretiring))
    next hother => exact serve_next h (by simp [hargs]) (hdecided.trans (if_neg hother))

end Sys2Proof.Machine
end

section
/-! O55: the refusals, each by the first condition of its request that the state or the arguments fail. -/

namespace Sys2Proof.Machine

open Sys2Proof

/-! ## The decisions that refuse -/

theorem execBadRequest_refused {s : State} {q : MaintRequest} (hclear : s.maint.clearing = false)
    (hhead : s.maint.queue.head? = some q) (hcode : q.code = 0 ∨ 35 < q.code) :
    exec .badRequest s = .next (answered q .badRequest [] { dispatched s with
      counters := { (dispatched s).counters with maintBadRequest := satAdd s.counters.maintBadRequest 1 } }) := by
  show execBadRequest s = _
  unfold execBadRequest
  cases hqueue : s.maint.queue with
  | nil => simp [hqueue] at hhead
  | cons first rest =>
    obtain rfl : first = q := by simpa [hqueue] using hhead
    exact if_pos ⟨by simp [hclear], by omega⟩

/-- A part that begins beyond a result list is refused (R193). -/
theorem acceptPart_of_le {part : Nat} {results : List Word32} (h : results.length ≤ 8 * part) (s : State) :
    acceptPart part results s = refuse .badArgument s := if_pos h

theorem doRegionRead_part {s : State} {index : Word32} {more : List Word32} (h : 23 ≤ 8 * (more.getD 0 0).toNat) :
    doRegionRead (index :: more) s = refuse .badArgument s := by
  rw [doRegionRead, argOf_one, acceptPart_of_le (by rwa [regionWords_length]), ite_self]

theorem doFaultRead_part {s : State} {index : Word32} {more : List Word32} (h : 15 ≤ 8 * (more.getD 0 0).toNat) :
    doFaultRead (index :: more) s = refuse .badArgument s := by
  rw [doFaultRead, argOf_one, acceptPart_of_le (by rwa [faultWords_length]), ite_self]

theorem doDeviceRead_part {s : State} {rank : Word32} {more : List Word32} (h : 20 ≤ 8 * (more.getD 0 0).toNat) :
    doDeviceRead (rank :: more) s = refuse .badArgument s := by
  rw [doDeviceRead, argOf_one, acceptPart_of_le (by rwa [List.length_map, List.length_range]), ite_self]

/-- A class or an access mode that has no name gives no entry (R194). -/
theorem loadedEntry_eq_none {args : List Word32}
    (h : (args.getD 5 0).extractLsb' 1 2 = 3 ∨ (args.getD 5 0).extractLsb' 3 2 = 3) : loadedEntry args = none := by
  have hclass : classOf? (3 : BitVec 2).toNat = none := rfl
  have hmode : modeOf? (3 : BitVec 2).toNat = none := rfl
  unfold loadedEntry
  rcases h with h | h
  · simp only [h, hclass]
  · simp only [h, hmode]
    generalize classOf? _ = cls
    cases cls <;> rfl

theorem doRegionLoad_badArgument {s : State} {args : List Word32} (hgeom : s.port.geomSet = true)
    (h : 31 < argOf args 0 ∨ argOf args 2 = 0 ∨ s.port.geom.capacity < argOf args 1 + argOf args 2 ∨
      (args.getD 5 0).extractLsb' 1 2 = 3 ∨ (args.getD 5 0).extractLsb' 3 2 = 3) :
    doRegionLoad args s = refuse .badArgument s := by
  cases he : loadedEntry args with
  | none => simp only [doRegionLoad, hgeom, he, not_true_eq_false, if_false]
  | some e =>
    obtain ⟨hbase, hlength, -⟩ := loadedEntry_fields he
    have hnamed : ¬ ((args.getD 5 0).extractLsb' 1 2 = 3 ∨ (args.getD 5 0).extractLsb' 3 2 = 3) := fun hunnamed => by
      simp [loadedEntry_eq_none hunnamed] at he
    have hunfit : 31 < argOf args 0 ∨ e.length = 0 ∨ s.port.geom.capacity < e.base + e.length := by
      rw [hbase, hlength]
      tauto
    simp only [doRegionLoad, hgeom, he, if_pos hunfit, not_true_eq_false, if_false]

theorem isPlace_eq_false_iff (s : State) (rank bank logical : Nat) : isPlace s rank bank logical = false ↔
    (s.port.geom.ranks ≤ rank ∨ 15 < bank) ∨ s.port.geom.visible ≤ logical := by
  rw [← Bool.not_eq_true, isPlace_iff]
  omega

/-! ## RETIRE_ROW (R139) -/

section

variable {s : State} {rank bank logical : Word32} {more : List Word32} (hgeom : s.port.geomSet = true)
include hgeom

theorem doRetireRow_badArgument (hplace : isPlace s rank.toNat bank.toNat logical.toNat = false) :
    doRetireRow (rank :: bank :: logical :: more) s = refuse .badArgument s := by
  simp only [doRetireRow, argOf_zero, argOf_succ, hgeom, hplace, not_true_eq_false, Bool.false_eq_true, not_false_eq_true,
    if_true, if_false]

variable (hplace : isPlace s rank.toNat bank.toNat logical.toNat = true)
include hplace

theorem doRetireRow_hasJob (hjob : hasJob s rank.toNat bank.toNat logical.toNat = true) :
    doRetireRow (rank :: bank :: logical :: more) s = refuse .busy s := by
  simp only [doRetireRow, argOf_zero, argOf_succ, hgeom, hplace, hjob, not_true_eq_false, if_true, if_false]

variable (hjob : hasJob s rank.toNat bank.toNat logical.toNat = false)
include hjob

theorem doRetireRow_noSpare (hspare : freeSlotOf s rank.toNat bank.toNat = none) :
    doRetireRow (rank :: bank :: logical :: more) s = refuse .noSpare (count .retireNoSpare s) := by
  simp only [doRetireRow, argOf_zero, argOf_succ, hgeom, hplace, hjob, hspare, not_true_eq_false, Bool.false_eq_true,
    if_false]

theorem doRetireRow_full {k : Nat} (hspare : freeSlotOf s rank.toNat bank.toNat = some k)
    (hfull : 4 ≤ s.repair.jobs.length) :
    doRetireRow (rank :: bank :: logical :: more) s = refuse .busy (count .retireQueueFull s) := by
  have hcapacity : Config.repairCapacity ≤ s.repair.jobs.length := hfull
  simp only [doRetireRow, argOf_zero, argOf_succ, hgeom, hplace, hjob, hspare, hcapacity, not_true_eq_false,
    Bool.false_eq_true, if_true, if_false]

end

/-! ## The other requests on rows and devices (R148, R150, R152, R154) -/

section

variable {s : State} (hgeom : s.port.geomSet = true)
include hgeom

theorem doRemapLoad_badArgument {rank bank logical slot : Word32} {more : List Word32} (hconfig : s.link.channel = .config)
    (hbad : (s.port.geom.ranks ≤ rank.toNat ∨ 15 < bank.toNat) ∨ s.port.geom.visible ≤ logical.toNat ∨
      s.port.geom.spares ≤ slot.toNat ∨ slotAt s rank.toNat bank.toNat slot.toNat ≠ .free ∨
      ∃ k < s.port.geom.spares, slotLogical s rank.toNat bank.toNat k = some logical.toNat) :
    doRemapLoad (rank :: bank :: logical :: slot :: more) s = refuse .badArgument s := by
  have hrefused : ¬ isPlace s rank.toNat bank.toNat logical.toNat = true ∨ s.port.geom.spares ≤ slot.toNat ∨
      slotAt s rank.toNat bank.toNat slot.toNat ≠ .free ∨ isNamed s rank.toNat bank.toNat logical.toNat = true := by
    have hnamed : isNamed s rank.toNat bank.toNat logical.toNat = true ↔
        ∃ k < s.port.geom.spares, slotLogical s rank.toNat bank.toNat k = some logical.toNat := by
      simp [isNamed, slotNumbers]
    rw [Bool.not_eq_true, isPlace_eq_false_iff, hnamed]
    tauto
  have honline : s.link.channel ≠ .online := by simp [hconfig]
  exact (if_neg (not_not.2 hgeom)).trans ((if_neg honline).trans (if_pos hrefused))

theorem doRemapRead_badArgument {rank bank first : Word32} {more : List Word32}
    (hbad : (s.port.geom.ranks ≤ rank.toNat ∨ 15 < bank.toNat) ∨ s.port.geom.spares ≤ first.toNat ∧ first.toNat ≠ 0) :
    doRemapRead (rank :: bank :: first :: more) s = refuse .badArgument s :=
  (if_neg (not_not.2 hgeom)).trans (if_pos (or_assoc.1 hbad))

theorem doErase_badArgument {rank device : Word32} {more : List Word32}
    (hbad : s.port.geom.ranks ≤ rank.toNat ∨ 19 < device.toNat ∨ device.toNat ∈ erasureSet s rank.toNat) :
    doErase (rank :: device :: more) s = refuse .badArgument s := by
  rw [← isErased_iff] at hbad
  exact (if_neg (not_not.2 hgeom)).trans (if_pos hbad)

theorem doUnerase_badArgument {rank device : Word32} {more : List Word32} (hconfig : s.link.channel = .config)
    (hbad : s.port.geom.ranks ≤ rank.toNat ∨ 19 < device.toNat ∨ device.toNat ∉ erasureSet s rank.toNat) :
    doUnerase (rank :: device :: more) s = refuse .badArgument s := by
  have honline : s.link.channel ≠ .online := by simp [hconfig]
  rw [← isErased_iff] at hbad
  exact (if_neg (not_not.2 hgeom)).trans ((if_neg honline).trans (if_pos hbad))

end

/-! ## The refusals of a retirement (R139) -/

/-- What RETIRE_ROW meets in a state with a geometry, in the order of its conditions. -/
theorem execRetireRow_refused {s : State} {q : MaintRequest} (h : AtHead s q 23) (hgeom : s.port.geomSet = true)
    {rank bank logical : Word32} {more : List Word32} (hargs : q.args = rank :: bank :: logical :: more) :
    let noBank := s.port.geom.ranks ≤ rank.toNat ∨ 15 < bank.toNat
    (noBank ∨ s.port.geom.visible ≤ logical.toNat →
      exec .retireRow s = .next (answered q .badArgument [] (dispatched s))) ∧
    (¬ noBank → logical.toNat < s.port.geom.visible →
      ((∃ j ∈ s.repair.jobs, j.rank = rank.toNat ∧ j.bank = bank.toNat ∧ j.logical = logical.toNat) →
        exec .retireRow s = .next (answered q .busy [] (dispatched s))) ∧
      ((∀ j ∈ s.repair.jobs, (j.rank, j.bank, j.logical) ≠ (rank.toNat, bank.toNat, logical.toNat)) →
        ((∀ k < s.port.geom.spares, slotAt s rank.toNat bank.toNat k ≠ .free) →
          exec .retireRow s = .next (answered q .noSpare [] (count .retireNoSpare (dispatched s)))) ∧
        ((∃ k < s.port.geom.spares, slotAt s rank.toNat bank.toNat k = .free) → 4 ≤ s.repair.jobs.length →
          exec .retireRow s = .next (answered q .busy [] (count .retireQueueFull (dispatched s)))))) := by
  intro noBank
  have hneeded : 3 ≤ q.args.length := by simp [hargs]
  have hrefused {status : Status} {t : State}
      (howner : doRetireRow (rank :: bank :: logical :: more) (dispatched s) = refuse status t) :
      exec .retireRow s = .next (answered q status [] t) := serve_next h hneeded (by rw [hargs]; exact howner)
  refine ⟨fun hbad => hrefused (doRetireRow_badArgument hgeom ((isPlace_eq_false_iff _ _ _ _).2 hbad)),
    fun hbank hlogical => ?_⟩
  have hplace : isPlace (dispatched s) rank.toNat bank.toNat logical.toNat = true := by
    simp only [noBank, not_or, Nat.not_le, Nat.not_lt] at hbank
    exact (isPlace_iff (dispatched s) _ _ _).2 ⟨hbank.1, hbank.2, hlogical⟩
  refine ⟨fun hjob => hrefused (doRetireRow_hasJob hgeom hplace ((hasJob_iff (dispatched s) _ _ _).2 hjob)),
    fun hjob => ?_⟩
  have hnew : hasJob (dispatched s) rank.toNat bank.toNat logical.toNat = false := by
    rw [← Bool.not_eq_true, hasJob_iff]
    rintro ⟨j, hj, hrank, hbank, hlogical⟩
    exact hjob j hj (by rw [hrank, hbank, hlogical])
  refine ⟨fun hspare => ?_, fun ⟨k, hk, hfree⟩ hfull => ?_⟩
  · exact hrefused (doRetireRow_noSpare hgeom hplace hnew (freeSlotOf_eq_none (s := dispatched s) hspare))
  · cases hspare : freeSlotOf (dispatched s) rank.toNat bank.toNat with
    | none => exact absurd hfree (by simpa [dispatched_slotAt] using List.find?_range_eq_none.1 hspare k hk)
    | some m => exact hrefused (doRetireRow_full hgeom hplace hnew hspare hfull)

/-! ## The refusals, request by request -/

/-- A meaning that is one dispatch answers a refusal of its owner. -/
theorem serve_refused {s t : State} {q : MaintRequest} {code needed : Nat} {owner : List Word32 → State → Answered}
    {args : List Word32} {status : Status} (h : AtHead s q code) (hargs : q.args = args) (hn : needed ≤ args.length)
    (hr : owner args (dispatched s) = refuse status t) :
    (.next (serve code needed owner s) : Answer) = .next (answered q status [] t) := by
  subst hargs
  exact serve_next h hn hr

theorem serveSettled_refused {s t : State} {q : MaintRequest} {code needed : Nat}
    {owner : List Word32 → State → Answered} {args : List Word32} {status : Status} (h : AtHead s q code)
    (hargs : q.args = args) (hn : needed ≤ args.length) (hr : owner args (dispatched s) = refuse status t) :
    (.next (serveSettled code needed owner s) : Answer) = .next (settle (answered q status [] t)) := by
  subst hargs
  exact serveSettled_next h hn hr

/-- Settles O55: each refusal by the condition of its request's decision that the state or the arguments fail. -/
theorem refusedRequestsChangeNothing : Obligations.RefusedRequestsChangeNothing := by
  intro s q
  simp only [List.forall_mem_cons, List.not_mem_nil, false_imp_iff, implies_true, and_true]
  refine ⟨execBadRequest_refused, ?short, ?shortSettled, fun hunset => ?unset, fun hunset => ?noRing,
    fun honline hgeom => ?online, fun a0 a1 more hargs hbad h => ?stats, fun a0 more hargs => ⟨?index, ?part⟩,
    fun hgeom a0 a1 more hargs => ⟨?load, ?retire, ?remapLoad, ?remapRead, ?erase, ?unerase⟩⟩
  case short =>
    repeat' apply And.intro
    all_goals exact fun h hn => congrArg Host.Outcome.next (serve_short _ h hn)
  case shortSettled =>
    repeat' apply And.intro
    all_goals exact fun h hn => congrArg Host.Outcome.next (serveSettled_short _ h hn)
  case unset =>
    have hgeom : ¬ s.port.geomSet = true := by simp [hunset]
    refine ⟨⟨fun h hn => serve_next h hn (if_neg hgeom), ?_⟩, fun h hn => serveSettled_next h hn (if_pos hgeom)⟩
    repeat' apply And.intro
    all_goals exact fun h hn => serve_next h hn (if_pos hgeom)
  case noRing =>
    have hring : ¬ s.report.setUp = true := by simp [hunset]
    exact ⟨fun h hn => serve_next h hn (if_pos hring), fun h hn => serve_next h hn (if_pos hring)⟩
  case online =>
    refine ⟨fun h hn => serve_next h hn (if_pos honline), ?_⟩
    repeat' apply And.intro
    all_goals exact fun h hn => serve_next h hn ((if_neg (not_not.2 hgeom)).trans (if_pos honline))
  case stats => exact serve_refused h hargs (by simp) (if_pos hbad)
  case index =>
    repeat' apply And.intro
    all_goals exact fun h hbad => serve_refused h hargs (by simp) (if_pos hbad)
  case part =>
    exact ⟨fun h hbad => serve_refused h hargs (by simp) (doRegionRead_part hbad),
      fun h hbad => serve_refused h hargs (by simp) (doFaultRead_part hbad),
      fun h hbad => serve_refused h hargs (by simp) (doDeviceRead_part hbad)⟩
  case load => exact fun hn h hbad => serveSettled_refused h rfl hn (hargs ▸ doRegionLoad_badArgument (s := dispatched s) hgeom hbad)
  case retire =>
    intro hmore h
    obtain ⟨a2, rest, rfl⟩ := List.exists_cons_of_ne_nil hmore
    exact execRetireRow_refused h hgeom hargs
  case remapLoad =>
    intro hmore h hconfig hbad
    obtain ⟨a2, a3, rest, rfl⟩ : ∃ a2 a3 rest, more = a2 :: a3 :: rest := by
      match more, hmore with
      | a2 :: a3 :: rest, _ => exact ⟨a2, a3, rest, rfl⟩
    exact serve_refused h hargs (by simp) (doRemapLoad_badArgument (s := dispatched s) hgeom hconfig hbad)
  case remapRead =>
    intro hmore h hbad
    obtain ⟨a2, rest, rfl⟩ := List.exists_cons_of_ne_nil hmore
    exact serve_refused h hargs (by simp) (doRemapRead_badArgument (s := dispatched s) hgeom hbad)
  case erase => exact fun h hbad => serve_refused h hargs (by simp) (doErase_badArgument (s := dispatched s) hgeom hbad)
  case unerase =>
    exact fun h hconfig hbad => serve_refused h hargs (by simp) (doUnerase_badArgument (s := dispatched s) hgeom hconfig hbad)

end Sys2Proof.Machine
end

section
/-! O56: SET_PARAM, the parameter it sets and what the change does at once. -/

namespace Sys2Proof.Machine

open Sys2Proof

/-! ## What a change of a parameter leaves (R197) -/

/-- What lies outside the reach of the effects of a changed parameter. -/
def State.outside (s : State) := (s.params, s.link.tags, s.link.channel, s.port.geom, s.maint, s.dram)

theorem Settled.outside {s t : State} (h : Settled s t) : t.outside = s.outside := by
  obtain ⟨-, -, -, -, -, -, -, e⟩ := h
  rw [e]
  rfl

theorem Internal.outside {s t : State} (h : Internal s t) : t.outside = s.outside := by
  obtain ⟨-, -, -, -, -, -, -, -, -, e⟩ := h
  rw [e]
  rfl

theorem Alerted.outside {s t : State} (h : Alerted s t) : t.outside = s.outside := by
  obtain ⟨-, -, e⟩ := h
  rw [e]
  rfl

theorem Watched.outside {s t : State} (h : Watched s t) : t.outside = s.outside := by
  obtain ⟨-, -, -, -, e⟩ := h
  rw [e]
  rfl

theorem paramChanged_outside (id : Nat) (s : State) : (paramChanged id s).outside = s.outside := by
  unfold paramChanged
  split
  · exact (((recompute_settled s).trans (reviewOverride_settled _)).trans (settle_settled _)).outside
  · exact ((reviewOverride_settled s).trans (settle_settled _)).outside
  · exact ((reviewLimits_inner s).trans (eraseAll_inner _)).outside
  · exact (eraseAll_inner s).outside
  · exact (eraseAll_inner s).outside
  · exact (settle_settled _).outside.trans (reviewThreshold_watched s).outside
  · exact (reviewReadyCount_alerted s).outside
  · exact (reviewReadyAge_alerted s).outside
  · rfl

/-! ## What it does at once (R90, R106, R108, R125, R126, R164, R179) -/

/-- A parameter that applies when it is next read. -/
theorem paramChanged_of_later {id : Nat} (h : id ∈ [0, 1, 4, 5, 6, 7, 12, 13, 16]) (s : State) : paramChanged id s = s := by
  simp only [List.mem_cons, List.not_mem_nil, or_false] at h
  rcases h with rfl | rfl | rfl | rfl | rfl | rfl | rfl | rfl | rfl <;> rfl

theorem reviewReadyCount_eq (s : State) : reviewReadyCount s =
    if 0 < s.report.unannounced ∧ s.params.readyCount ≤ s.report.unannounced then announce s else s := by
  simp only [reviewReadyCount, Bool.and_eq_true, decide_eq_true_eq]

theorem reviewReadyAge_eq (s : State) : reviewReadyAge s =
    match s.report.ageStart with
    | some m => if 0 ≤ elapsedDiff s.now (m + BitVec.ofNat 48 s.params.readyAge) then announce s else s
    | none => s := by
  unfold reviewReadyAge
  cases s.report.ageStart with
  | none => rfl
  | some m => simp only [reached, decide_eq_true_eq]

/-! ## SET_PARAM (R197) -/

/-- The gathered table of the ranges (R197). -/
theorem paramRange_eq (id : Nat) : paramRange id =
    [(0, 1000), (10, 1000), (0, 65535), (0, 1), (1, 1023), (1, 1023), (0, 1), (1, 3600), (1, 4095), (1, 64), (0, 1),
     (1024, 65535), (8, 128), (0, 1), (1, 64), (0, 1000000), (0, 65535)][id]? := by
  by_cases hlt : id < 17
  · interval_cases id <;> rfl
  · rw [List.getElem?_eq_none (Nat.not_lt.1 hlt), ← Option.not_isSome_iff_eq_none, paramRange_isSome_iff]
    exact hlt

theorem doSetParam_of_range {s : State} {id value : Word32} {more : List Word32} {low high : Nat}
    (h : paramRange id.toNat = some (low, high)) : doSetParam (id :: value :: more) s =
      { status := .ok, results := [word (max low (min high value.toNat))]
        state := paramChanged id.toNat
          { s with params := s.params.put id.toNat (max low (min high value.toNat)) } } := by
  rw [doSetParam, argOf_zero, argOf_succ, argOf_zero, h, ← clampTo_eq (show low ≤ high from paramRange_ordered h)]
  rfl

theorem doSetParam_unlisted {s : State} {id value : Word32} {more : List Word32} (h : 17 ≤ id.toNat) :
    doSetParam (id :: value :: more) s = refuse .badArgument s := by
  have hnone : paramRange id.toNat = none := by
    rw [← Option.not_isSome_iff_eq_none, paramRange_isSome_iff]
    omega
  rw [doSetParam, argOf_zero, hnone]

/-- Settles O56: the parameter set is the clamped value, and what the change does at once is said of each parameter. -/
theorem setParamClampsOneParameter : Obligations.SetParamClampsOneParameter := by
  refine ⟨paramRange_eq, fun s q id value more h hargs => ⟨fun low high hlisted => ?_, fun hunlisted => ?_⟩⟩
  case refine_2 => exact serve_refused h hargs (by simp) (doSetParam_unlisted hunlisted)
  have hrange := (paramRange_eq id.toNat).trans hlisted
  let u : State := { dispatched s with params := s.params.put id.toNat (max low (min high value.toNat)) }
  have houtside := paramChanged_outside id.toNat u
  simp only [State.outside, Prod.mk.injEq] at houtside
  obtain ⟨hparams, htags, hchannel, hgeom, hmaint, hdram⟩ := houtside
  refine ⟨paramChanged id.toNat u, serve_next h (by simp [hargs]) (by rw [hargs]; exact doSetParam_of_range hrange), ?_⟩
  rw [hparams]
  refine ⟨fun other hother => ?_, fun hlater => paramChanged_of_later hlater u, ⟨?_, ?_, ?_, ?_, ?_, ?_, ?_⟩,
    htags, hchannel, hgeom, hmaint, hdram⟩
  · show (s.params.put _ _).get other = _
    split
    next hid =>
      subst hid
      exact Params.get_put_self hother _ _
    next hid => exact Params.get_put_other hid _ _
  · exact fun hid => by rw [hid]; rfl
  · exact fun hid => by rw [hid]; rfl
  · exact fun hid => by rw [hid]; rfl
  · exact fun hid => by rcases hid with hid | hid <;> rw [hid] <;> rfl
  · exact fun hid => by rw [hid]; rfl
  · exact fun hid => by rw [hid]; exact reviewReadyCount_eq u
  · exact fun hid => by rw [hid]; exact reviewReadyAge_eq u

end Sys2Proof.Machine
end
